-- ==== Sys2Proof/Word.lean ====
section
/-! DEFINITION. The machine's words and their plainest arithmetic (R4 to R6). -/

namespace Sys2Proof

/-- One register word of 32 bits (R5). -/
abbrev Word := BitVec 32

/-- One byte of memory. -/
abbrev Byte := BitVec 8

/-- An address pair's 64-bit value (R190). -/
abbrev DWord := BitVec 64

namespace Word

/-- Bits `lo` to `lo + n - 1` of a word, as a number. -/
def bits (w : Word) (lo n : Nat) : Nat := w.toNat / 2 ^ lo % 2 ^ n

/-- Bit `i` of a word. -/
def bit (w : Word) (i : Nat) : Bool := w.toNat / 2 ^ i % 2 == 1

/-- The signed reading of a word. -/
def int (w : Word) : Int := w.toInt

/-- A word from a number, modulo 2^32. -/
def ofNat (n : Nat) : Word := BitVec.ofNat 32 n

/-- A word from an integer, modulo 2^32. -/
def ofInt (i : Int) : Word := BitVec.ofInt 32 i

end Word

end Sys2Proof
end

