-- ==== Sys2Proof/Config.lean ====
section
/-! DEFINITION. What the spec leaves open to the part: free values without a body. Nothing in Lean can evaluate them. -/

namespace Sys2Proof.Config

/-- The free value of draw `n`: whatever an undefined value turns out to be (assumption 3). -/
opaque freeValue : Nat → BitVec 64

/-- The root digest in mask ROM (R341). -/
opaque rootDigest : BitVec 384

/-- The point of the curve that the bytes of the header's public key name, and the numbers r and s of its 96-byte signature (R341 gives
no encoding). -/
opaque keyPoint : List Byte → Nat × Nat
opaque sigParts : List Byte → Nat × Nat

/-- Where the firmware header's fields lie, in bytes: 0 the magic, 1 the security version, 2 the length, 3 the public key, 4 the
signature (R341 gives no places). -/
opaque fwField : Nat → Nat

/-- How many bytes the public key of the header takes. -/
opaque fwKeyBytes : Nat

/-- Whether the helper data corrects the power-up pattern to the secret its digest names (R342). -/
opaque identityPresent : List Byte → Bool

/-- The certificate chain of slot 0 for a firmware digest and SVN, given the helper data (R342, R343). -/
opaque certChain : List Byte → BitVec 384 → BitVec 32 → List Byte

/-- The attestation key's signature over a message, for a firmware digest (R342, R343). -/
opaque attest : BitVec 384 → List Byte → List Byte

/-- The boot ROM version bytes (R343). -/
opaque bootRomVersion : List Byte

end Sys2Proof.Config
end

