-- ==== Sys2Proof/Syntax.lean ====
section
/-! DEFINITION. The instructions of the device, one constructor for each row of spec/opcode_table.json: the 64-bit
instructions (R24 to R26, R41), the compact and short forms (R22, R23, R43, R44), and the indivisible events of spec/95. -/

namespace Sys2Proof

/-- The shape field (R24, R31): 1, 2, 4 or 8 words. -/
inductive Shape where
  | P | M | Q | S
  deriving DecidableEq, Repr

/-- How many words a shape spans (R30). -/
def Shape.words : Shape → Nat
  | .P => 1 | .M => 2 | .Q => 4 | .S => 8

/-- The fields every 64-bit instruction carries beside its operands (R24, R32, R33). -/
structure Hd where
  stall : Fin 8
  gp : Fin 8
  gn : Bool
  deriving DecidableEq, Repr

/-- An ordinary source operand (R27, R28). -/
inductive Src where
  | v (n : Fin 224) | d (n : Fin 8) | z | lid | g (n : Fin 64)
  deriving DecidableEq, Repr

/-- A source operand that has no scalar-select bit (R23, R25). -/
inductive LSrc where
  | v (n : Fin 224) | d (n : Fin 8) | z | lid
  deriving DecidableEq, Repr

/-- An ordinary destination: a v register or z (R28). -/
inductive LDst where
  | v (n : Fin 224) | z
  deriving DecidableEq, Repr

/-- A destination of layout I: with sd set it names a scalar register (R34). -/
inductive Dst where
  | v (n : Fin 224) | z | g (n : Fin 64)
  deriving DecidableEq, Repr

/-- An address base: a v pair or a g pair (R28). -/
inductive Base where
  | v (n : Fin 224) | g (n : Fin 64)
  deriving DecidableEq, Repr

/-- A predicate p0 to p7 (R28). -/
abbrev Pred := Fin 8

/-- The second source of a compact form (R22): v0 to v23 or d1 to d8. -/
inductive CSrc where
  | v (n : Fin 24) | d (n : Fin 8)
  deriving DecidableEq, Repr

/-- The second source of a short form (R23): v0 to v55 or d1 to d8. -/
inductive SSrc where
  | v (n : Fin 56) | d (n : Fin 8)
  deriving DecidableEq, Repr

/-- Rounding modes of layout F (R34, R66). -/
inductive Rm where
  | rne | rz | rdn | rup | sr
  deriving DecidableEq, Repr

/-- The second-order field of FMUL and FFMA (R34). -/
inductive Sec where
  | nctl | first | on
  deriving DecidableEq, Repr

/-- IMULH's signedness (R98). -/
inductive MulSign where
  | s | u | su
  deriving DecidableEq, Repr

/-- ICMP's conditions (R100). -/
inductive ICond where
  | eq | ne | lt | le | gt | ge
  deriving DecidableEq, Repr

/-- FCMP's conditions (R107). -/
inductive FCond where
  | eq | ne | lt | le | gt | ge | num | nan
  deriving DecidableEq, Repr

/-- PSET's test (R101). -/
inductive PTest where
  | nz | z | bit (k : Fin 32)
  deriving DecidableEq, Repr

/-- The formats of R64. -/
inductive Fmt where
  | f32 | bf16 | f16 | e4m3 | e5m2 | e3m2 | e2m3 | e2m1 | mxint8 | e8m0
  | int8 | nat8 | int16 | nat16 | int32 | nat32 | int64 | nat64
  deriving DecidableEq, Repr

/-- The MX element formats, codes 3 to 8 (R61, R112). -/
inductive EFmt where
  | e4m3 | e5m2 | e3m2 | e2m3 | e2m1 | mxint8
  deriving DecidableEq, Repr

/-- SHFL's modes (R123). -/
inductive ShMode where
  | idx | up | down | xor
  deriving DecidableEq, Repr

/-- VOTE's modes (R124). -/
inductive VoteMode where
  | all | any | ballot | eq
  deriving DecidableEq, Repr

/-- The operations of LRED and LSCN (R125). -/
inductive RedOp where
  | add | min | max | umin | umax | and | or | xor | fadd | fmin | fmax
  deriving DecidableEq, Repr

/-- MFOLD's selection (R119). -/
inductive FoldSel where
  | all | a | b
  deriving DecidableEq, Repr

/-- The two forms of GSEED (R161); `.POS` leaves rb unused. -/
inductive SeedForm where
  | seed (weyl : Bool) (rsid : Src) | pos
  deriving DecidableEq, Repr

/-- The forms of GUNI (R161). -/
inductive UniForm where
  | draw | idx (hi : Bool)
  deriving DecidableEq, Repr

/-- Scopes (R168). -/
inductive Scope where
  | grp | team | die | pkg | sys
  deriving DecidableEq, Repr

/-- Access widths of LD and ST (R25). -/
inductive Width where
  | w8 | w16 | w32 | w64 | w128
  deriving DecidableEq, Repr

/-- The operations of ATOM (R200); CAS and ADDB carry their second operand rc. -/
inductive AtomOp where
  | add | fadd | min (u : Bool) | max (u : Bool) | and | or | xor | exch | cas (y : Src) | incw | decw | addb (y : Src)
  deriving DecidableEq, Repr

/-- FENCE kinds (R174). -/
inductive FenceKind where
  | ar | rel | acq
  deriving DecidableEq, Repr

/-- FENCE's path mask (R174). -/
structure Paths where
  ls : Bool
  ce : Bool
  tu : Bool
  nx : Bool
  deriving DecidableEq, Repr

/-- CPY's size: 4, 8 or 16 bytes (R216). -/
inductive CpySize where
  | n4 | n8 | n16
  deriving DecidableEq, Repr

/-- BTEST's test (R274). -/
inductive BTestForm where
  | par (q : Bool) | get
  deriving DecidableEq, Repr

/-- TLOOP's mode (R142). -/
inductive LoopMode where
  | mean | var1 | var2
  deriving DecidableEq, Repr

/-- THAD's point count (R147). -/
inductive HadPts where
  | h16 | h32 | h64
  deriving DecidableEq, Repr

/-- TACC.RD's form (R148): P, P with `.VAR`, or M. -/
inductive AccForm where
  | p | pvar | m
  deriving DecidableEq, Repr

/-- LAUNCH's SIZE field with its shift (R278); the shift is nonzero only for `.DIV`. -/
inductive LaunchSize where
  | desc | nx | div (sh : Fin 32) | xy
  deriving DecidableEq, Repr

/-- LAUNCH's options (R278). -/
structure LaunchOpt where
  esc : Bool
  tail : Bool
  wait : Bool
  size : LaunchSize
  deriving DecidableEq, Repr

/-- The two PCI Express ports (R12). -/
inductive Port where
  | a | b
  deriving DecidableEq, Repr

/-- One of the four dies D0 to D3 (R12). -/
abbrev Die := Fin 4

/-- A context number (R306). -/
abbrev Ctx := Fin 64

/-- A die link of R363. -/
inductive Link where
  | l01 | l13 | l32 | l20
  deriving DecidableEq, Repr

/-- A host access through an aperture: a read of `n` bytes, or a write of bytes with the EP bit and the Relaxed Ordering attribute
(R184, R334, R361). -/
inductive HostAcc where
  | read (n : Nat) | write (bytes : List Byte) (ep ro : Bool)
  deriving DecidableEq, Repr

/-- Wrong bits in one byte of a stored 136-byte codeword, 128 data bytes and 8 symbols (R360). -/
structure LineErr where
  pos : Fin 136
  bits : Byte
  deriving DecidableEq, Repr

/-- One request at a memory controller: the local line, the bytes asked for, whether its bank was open on another row,
whether that bank is among the most conflicted sixteenth, the errors found (R240, R241, R360), and whether it is the read of a
catch-up sweep, which names a line of the stack and reads it whole (R377). -/
structure DramReq where
  line : Nat
  lo : Fin 8
  grain : Fin 4
  conflict : Bool
  crowded : Bool
  errs : List LineErr
  sweep : Bool
  deriving DecidableEq, Repr

/-- The semantic operations of the transport (R336). -/
inductive FabOp where
  | write | read | send | tagged | atomic
  deriving DecidableEq, Repr

/-- A packet on the fabric (R220 to R222, R336, R338): `addr` is its buffer offset, `ri` its resource index. -/
structure Packet where
  msg : Nat
  job : BitVec 24
  op : FabOp
  ri : BitVec 12
  addr : BitVec 64
  bytes : BitVec 128
  poison : Bool
  dst : BitVec 57
  len : BitVec 32
  ord : Bool
  sig : Bool
  chs : Fin 16
  hops : BitVec 8
  port : Fin 8
  deriving DecidableEq, Repr

/-- Where an uncorrectable SRAM error is found (R362). -/
inductive SramSite where
  | laneReg (t g lane n : Nat) | gReg (t g n : Nat) | bank (core : Fin 160) (b : Fin 4) (cell : Nat) (var : Bool)
  | l1 (core : Fin 160) (line : Nat) (chunk : Fin 8) | slice (d : Die) (line : Nat) (chunk : Fin 8)
  | storeQueue (t g n : Nat) | copyBuffer (t id : Nat) | dirtyTag (d : Die) | corrected (d : Die)
  deriving DecidableEq, Repr

/-- One constructor for each row of the opcode table, in its order. -/
inductive Instr where
  | nop (h : Hd)
  | bra (h : Hd) (imm : BitVec 32)
  | brx (h : Hd) (ra : Src)
  | call (h : Hd) (rd : LDst) (imm : BitVec 32)
  | callx (h : Hd) (rd : LDst) (ra : Src)
  | ret (h : Hd) (ra : Src)
  | exit (h : Hd)
  | waitl (h : Hd)
  | yield (h : Hd)
  | trap (h : Hd) (n : Fin 256)
  | bkpt (h : Hd)
  | srd (h : Hd) (rd : LDst) (reg : Fin 512)
  | swr (h : Hd) (ra : Src) (reg : Fin 512)
  | develop (h : Hd)
  | budget (h : Hd) (ra : Src)
  | launch (h : Hd) (rd : Base) (opt : LaunchOpt)
  | ill (rest : BitVec 53)
  | iadd (h : Hd) (rd : Dst) (ra : Src) (rb : Src)
  | isub (h : Hd) (rd : Dst) (ra : Src) (rb : Src)
  | imul (h : Hd) (rd : Dst) (ra : Src) (rb : Src)
  | imulh (h : Hd) (rd : Dst) (ra : Src) (rb : Src) (sg : MulSign)
  | imad (h : Hd) (rd : Dst) (ra : Src) (rb : Src) (rc : Src)
  | imin (h : Hd) (rd : Dst) (ra : Src) (rb : Src) (u : Bool)
  | imax (h : Hd) (rd : Dst) (ra : Src) (rb : Src) (u : Bool)
  | iabs (h : Hd) (rd : Dst) (ra : Src)
  | and (h : Hd) (rd : Dst) (ra : Src) (rb : Src)
  | or (h : Hd) (rd : Dst) (ra : Src) (rb : Src)
  | xor (h : Hd) (rd : Dst) (ra : Src) (rb : Src)
  | andn (h : Hd) (rd : Dst) (ra : Src) (rb : Src)
  | shl (h : Hd) (rd : Dst) (ra : Src) (rb : Src)
  | shr (h : Hd) (rd : Dst) (ra : Src) (rb : Src)
  | sar (h : Hd) (rd : Dst) (ra : Src) (rb : Src)
  | rotl (h : Hd) (rd : Dst) (ra : Src) (rb : Src)
  | bfe (h : Hd) (rd : Dst) (ra : Src) (rb : Src) (rc : Src) (sg : Bool)
  | bfi (h : Hd) (rd : Dst) (ra : Src) (rb : Src) (rc : Src)
  | popc (h : Hd) (rd : Dst) (ra : Src)
  | clz (h : Hd) (rd : Dst) (ra : Src)
  | brev (h : Hd) (rd : Dst) (ra : Src)
  | icmp (h : Hd) (rd : Pred) (ra : Src) (rb : Src) (cond : ICond) (u : Bool)
  | sel (h : Hd) (sh : Shape) (rd : Dst) (ra : Src) (rb : Src) (rc : Pred)
  | mov (h : Hd) (sh : Shape) (rd : Dst) (ra : Src)
  | movi (h : Hd) (rd : Dst) (imm : Word)
  | lea (h : Hd) (rd : Dst) (ra : Base) (rb : Src) (n : Fin 8) (sx : Bool)
  | plop (h : Hd) (rd : Pred) (ra : Pred) (rb : Pred) (rc : Pred) (table : Fin 256)
  | pset (h : Hd) (rd : Pred) (ra : Src) (t : PTest)
  | iaddImm (h : Hd) (rd : LDst) (ra : LSrc) (imm : BitVec 28)
  | imulImm (h : Hd) (rd : LDst) (ra : LSrc) (imm : BitVec 28)
  | andImm (h : Hd) (rd : LDst) (ra : LSrc) (imm : BitVec 28)
  | orImm (h : Hd) (rd : LDst) (ra : LSrc) (imm : BitVec 28)
  | xorImm (h : Hd) (rd : LDst) (ra : LSrc) (imm : BitVec 28)
  | shlImm (h : Hd) (rd : LDst) (ra : LSrc) (imm : BitVec 28)
  | shrImm (h : Hd) (rd : LDst) (ra : LSrc) (imm : BitVec 28)
  | sarImm (h : Hd) (rd : LDst) (ra : LSrc) (imm : BitVec 28)
  | fadd (h : Hd) (sh : Shape) (rd : LDst) (ra : Src) (rb : Src) (rm : Rm)
  | fsub (h : Hd) (sh : Shape) (rd : LDst) (ra : Src) (rb : Src) (rm : Rm)
  | fmul (h : Hd) (sh : Shape) (rd : LDst) (ra : Src) (rb : Src) (rm : Rm) (sec : Sec)
  | ffma (h : Hd) (sh : Shape) (rd : LDst) (ra : Src) (rb : Src) (rc : Src) (rm : Rm) (sec : Sec)
  | fmin (h : Hd) (sh : Shape) (rd : LDst) (ra : Src) (rb : Src) (rm : Rm)
  | fmax (h : Hd) (sh : Shape) (rd : LDst) (ra : Src) (rb : Src) (rm : Rm)
  | fcmp (h : Hd) (sh : Shape) (rd : Pred) (ra : Src) (rb : Src) (cond : FCond)
  | frelu (h : Hd) (sh : Shape) (rd : LDst) (ra : Src) (rm : Rm)
  | fsqrelu (h : Hd) (sh : Shape) (rd : LDst) (ra : Src) (rm : Rm)
  | fclass (h : Hd) (sh : Shape) (rd : LDst) (ra : Src)
  | cvt (h : Hd) (sh : Shape) (rd : LDst) (ra : Src) (dst : Fmt) (src : Fmt) (rm : Rm)
  | qpk (h : Hd) (sh : Shape) (rd : LDst) (ra : Src) (rm : Rm) (f : EFmt)
  | qupk (h : Hd) (rd : LDst) (ra : Src) (f : EFmt)
  | frcp (h : Hd) (sh : Shape) (rd : LDst) (ra : Src) (rm : Rm)
  | fdiv (h : Hd) (sh : Shape) (rd : LDst) (ra : Src) (rb : Src) (rm : Rm)
  | fsqrt (h : Hd) (sh : Shape) (rd : LDst) (ra : Src) (rm : Rm)
  | frsq (h : Hd) (sh : Shape) (rd : LDst) (ra : Src) (rm : Rm)
  | fexp2 (h : Hd) (sh : Shape) (rd : LDst) (ra : Src) (rm : Rm)
  | flog2 (h : Hd) (sh : Shape) (rd : LDst) (ra : Src) (rm : Rm)
  | fsinpi (h : Hd) (sh : Shape) (rd : LDst) (ra : Src) (rm : Rm)
  | fcospi (h : Hd) (sh : Shape) (rd : LDst) (ra : Src) (rm : Rm)
  | ftanh (h : Hd) (sh : Shape) (rd : LDst) (ra : Src) (rm : Rm)
  | fsigm (h : Hd) (sh : Shape) (rd : LDst) (ra : Src) (rm : Rm)
  | mmk (h : Hd) (sh : Shape) (rd : LDst) (ra : Src) (rb : Src)
  | mspl (h : Hd) (sh : Shape) (rd : LDst) (ra : Src)
  | maddv (h : Hd) (sh : Shape) (rd : LDst) (ra : Src) (rb : Src)
  | mtag (h : Hd) (rd : LDst) (ra : Src) (rb : Src) (neg : Bool)
  | mcov (h : Hd) (rd : LDst) (ra : Src) (rb : Src)
  | mfold (h : Hd) (rd : LDst) (ra : Src) (sel : FoldSel)
  | sdraw (h : Hd) (rd : LDst) (ra : Src)
  | sstat (h : Hd) (rd : LDst) (ra : Src)
  | shfl (h : Hd) (sh : Shape) (rd : LDst) (ra : Src) (rb : Src) (m : ShMode) (wl : Fin 6)
  | vote (h : Hd) (rd : LDst) (ra : Pred) (m : VoteMode)
  | lred (h : Hd) (sh : Shape) (rd : LDst) (ra : Src) (op : RedOp) (wl : Fin 6)
  | lscn (h : Hd) (sh : Shape) (rd : LDst) (ra : Src) (op : RedOp) (wl : Fin 6) (x : Bool)
  | match (h : Hd) (rd : LDst) (ra : Src)
  | vrd (h : Hd) (sh : Shape) (rd : LDst) (ra : Src)
  | vwr (h : Hd) (sh : Shape) (ra : Src) (rb : Src)
  | gseed (h : Hd) (ra : Src) (sl : Fin 4) (form : SeedForm)
  | guni (h : Hd) (sh : Shape) (rd : LDst) (sl : Fin 4) (form : UniForm)
  | gnorm (h : Hd) (sh : Shape) (rd : LDst) (sl : Fin 4)
  | ggum (h : Hd) (sh : Shape) (rd : LDst) (sl : Fin 4)
  | gber (h : Hd) (rd : LDst) (ra : Src) (sl : Fin 4)
  | gcat (h : Hd) (rd : LDst) (ra : Src) (sl : Fin 4)
  | ld (h : Hd) (rd : LDst) (ra : Base) (wd : Width) (sc : Scope) (esc : Bool) (sx : Bool) (off : BitVec 18)
  | st (h : Hd) (rd : LSrc) (ra : Base) (wd : Width) (sc : Scope) (esc : Bool) (off : BitVec 18)
  | ldp (h : Hd) (rd : LDst) (ra : Base) (rb : Src) (sc : Scope) (esc : Bool)
  | stp (h : Hd) (rd : LSrc) (ra : Base) (rb : Src) (sc : Scope) (esc : Bool)
  | atom (h : Hd) (op : AtomOp) (rd : Option LDst) (ra : Base) (rb : Src)
  | fence (h : Hd) (k : FenceKind) (sc : Scope) (paths : Paths)
  | cctlWb (h : Hd) (ra : Base) (rb : Src)
  | cctlInv (h : Hd) (ra : Base) (rb : Src)
  | cctlDrain (h : Hd) (ra : Base) (rb : Src)
  | cctlRepl (h : Hd) (ra : Base) (rb : Src)
  | cctlPf1 (h : Hd) (ra : Base) (rb : Src)
  | cctlPf2 (h : Hd) (ra : Base) (rb : Src)
  | txbeg (h : Hd) (pn : Fin 7)
  | txend (h : Hd) (rd : Pred)
  | txabt (h : Hd)
  | cpy (h : Hd) (ra : Base) (rb : Base) (n : CpySize) (j : Fin 16) (esc : Bool) (na : Bool)
  | cpyb (h : Hd) (ra : Fin 64) (j : Fin 16) (esc : Bool)
  | binit (h : Hd) (ra : Src) (j : Fin 16)
  | barv (h : Hd) (j : Fin 16)
  | bexp (h : Hd) (ra : Src) (j : Fin 16) (dec : Bool)
  | bwait (h : Hd) (j : Fin 16) (q : Bool)
  | btest (h : Hd) (rd : Pred) (j : Fin 16) (form : BTestForm)
  | bsync (h : Hd) (j : Fin 16)
  | tloop (h : Hd) (ra : Fin 64) (k : Fin 4) (j : Fin 16) (mode : LoopMode) (z : Bool)
  | thad (h : Hd) (ra : Fin 64) (pts : HadPts) (j : Fin 16) (sr : Bool)
  | taccRd (h : Hd) (rd : LDst) (ra : Src) (k : Fin 4) (f : AccForm)
  | taccWr (h : Hd) (sh : Shape) (rd : LDst) (ra : Src) (k : Fin 4)
  | taccZero (h : Hd) (k : Fin 4)
  | tqnt (h : Hd) (ra : Fin 64) (k : Fin 4) (j : Fin 16) (sr : Bool) (vr : Bool)
  | movC16 (d : Fin 64) (b : CSrc)
  | iaddC16 (d : Fin 64) (b : CSrc)
  | isubC16 (d : Fin 64) (b : CSrc)
  | andC16 (d : Fin 64) (b : CSrc)
  | orC16 (d : Fin 64) (b : CSrc)
  | xorC16 (d : Fin 64) (b : CSrc)
  | shlC16 (d : Fin 64) (b : CSrc)
  | shrC16 (d : Fin 64) (b : CSrc)
  | iaddiC16 (d : Fin 64) (imm : BitVec 5)
  | moviC16 (d : Fin 64) (imm : BitVec 5)
  | faddC16 (d : Fin 64) (b : CSrc)
  | fmulC16 (d : Fin 64) (b : CSrc)
  | faddMC16 (d : Fin 64) (b : CSrc)
  | fmulMC16 (d : Fin 64) (b : CSrc)
  | braS (e : BitVec 11)
  | nopC16
  | iaddS32 (st : Fin 4) (rd : LDst) (ra : LSrc) (rb : SSrc)
  | isubS32 (st : Fin 4) (rd : LDst) (ra : LSrc) (rb : SSrc)
  | imulS32 (st : Fin 4) (rd : LDst) (ra : LSrc) (rb : SSrc)
  | imulhS32 (st : Fin 4) (rd : LDst) (ra : LSrc) (rb : SSrc)
  | iminS32 (st : Fin 4) (rd : LDst) (ra : LSrc) (rb : SSrc)
  | imaxS32 (st : Fin 4) (rd : LDst) (ra : LSrc) (rb : SSrc)
  | andS32 (st : Fin 4) (rd : LDst) (ra : LSrc) (rb : SSrc)
  | orS32 (st : Fin 4) (rd : LDst) (ra : LSrc) (rb : SSrc)
  | xorS32 (st : Fin 4) (rd : LDst) (ra : LSrc) (rb : SSrc)
  | andnS32 (st : Fin 4) (rd : LDst) (ra : LSrc) (rb : SSrc)
  | shlS32 (st : Fin 4) (rd : LDst) (ra : LSrc) (rb : SSrc)
  | shrS32 (st : Fin 4) (rd : LDst) (ra : LSrc) (rb : SSrc)
  | sarS32 (st : Fin 4) (rd : LDst) (ra : LSrc) (rb : SSrc)
  | rotlS32 (st : Fin 4) (rd : LDst) (ra : LSrc) (rb : SSrc)
  | faddS32 (st : Fin 4) (m : Bool) (rd : LDst) (ra : LSrc) (rb : SSrc)
  | fsubS32 (st : Fin 4) (m : Bool) (rd : LDst) (ra : LSrc) (rb : SSrc)
  | fmulS32 (st : Fin 4) (m : Bool) (rd : LDst) (ra : LSrc) (rb : SSrc)
  | fminS32 (st : Fin 4) (m : Bool) (rd : LDst) (ra : LSrc) (rb : SSrc)
  | fmaxS32 (st : Fin 4) (m : Bool) (rd : LDst) (ra : LSrc) (rb : SSrc)
  | fdivS32 (st : Fin 4) (m : Bool) (rd : LDst) (ra : LSrc) (rb : SSrc)
  | movS32 (st : Fin 4) (m : Bool) (rd : LDst) (ra : LSrc)
  | popcS32 (st : Fin 4) (rd : LDst) (ra : LSrc)
  | clzS32 (st : Fin 4) (rd : LDst) (ra : LSrc)
  | freluS32 (st : Fin 4) (m : Bool) (rd : LDst) (ra : LSrc)
  | fsqreluS32 (st : Fin 4) (m : Bool) (rd : LDst) (ra : LSrc)
  | frcpS32 (st : Fin 4) (m : Bool) (rd : LDst) (ra : LSrc)
  | fsqrtS32 (st : Fin 4) (m : Bool) (rd : LDst) (ra : LSrc)
  | frsqS32 (st : Fin 4) (m : Bool) (rd : LDst) (ra : LSrc)
  | fexp2S32 (st : Fin 4) (m : Bool) (rd : LDst) (ra : LSrc)
  | flog2S32 (st : Fin 4) (m : Bool) (rd : LDst) (ra : LSrc)
  | ftanhS32 (st : Fin 4) (m : Bool) (rd : LDst) (ra : LSrc)
  | fsigmS32 (st : Fin 4) (m : Bool) (rd : LDst) (ra : LSrc)
  | tailWrite (p : Port) (d : Die) (q : Fin 4096) (v : BitVec 64)
  | queueTableWrite (p : Port) (q : Fin 4096) (w : Fin 4) (v : BitVec 64)
  | queueSwitchIn (q : Fin 4096)
  | queueSwitchOut (q : Fin 4096)
  | commandAccept (q : Fin 4096)
  | launchEntryAccept (c : Ctx) (d : Die)
  | launchQueueSpace (t : Nat) (g : Nat)
  | descriptorCheck (g : Nat)
  | predecessorDecrement (n : Nat)
  | teamHandOut (g : Nat)
  | teamEnd (t : Nat)
  | gridCompletion (g : Nat)
  | completionRecord (g : Nat)
  | eventRingTimeout (d : Die) (k : Fin 16)
  | preempt (p : Port) (c : Ctx)
  | resume (p : Port) (c : Ctx)
  | contextReset (p : Port) (c : Ctx)
  | contextDestroy (p : Port) (c : Ctx)
  | contextPurgeComplete (c : Ctx)
  | contextEnable (p : Port) (c : Ctx)
  | deadlineExpiry (c : Ctx)
  | drainEnd (c : Ctx)
  | purgeGo (p : Port) (w : Option Ctx)
  | purgeComplete (w : Option Ctx)
  | freplyRetry (p : Port) (c : Ctx) (seq : BitVec 62)
  | freplyDecline (p : Port) (c : Ctx) (seq : BitVec 62)
  | faultRecordWrite (c : Ctx)
  | pageWalk (n : Nat)
  | authorityMove (p : Port) (dst : Port)
  | deviceReset (p : Port)
  | perst (p : Port)
  | portReset (p : Port)
  | pcieLinkDown (p : Port)
  | contextApertureAccess (p : Port) (off : BitVec 34) (a : HostAcc)
  | physicalApertureAccess (p : Port) (off : BitVec 32) (a : HostAcc)
  | registerWrite (p : Port) (off : BitVec 27) (wide : Bool) (v : BitVec 64)
  | firmwareGo (p : Port)
  | firmwareVerifyDone
  | identityDerivation
  | getVersion (p : Port)
  | getCapabilities (p : Port)
  | negotiateAlgorithms (p : Port)
  | getDigests (p : Port)
  | getCertificate (p : Port) (slot : Fin 16) (off : BitVec 16) (len : BitVec 16)
  | challenge (p : Port) (slot : Fin 16) (nonce : BitVec 256)
  | getMeasurements (p : Port) (idx : BitVec 8) (sign : Bool) (nonce : BitVec 256)
  | cool (p : Port)
  | warm (p : Port)
  | sensorSample (temps : List (Nat × BitVec 12))
  | bandHoldExpiry
  | coldHoldExpiry
  | runIdleExpiry
  | warmingHoldExpiry
  | sweepComplete (k : Fin 8)
  | haltDrainExpiry
  | powerOn
  | tripResetRelease
  | scrubRead (k : Fin 8) (e : List LineErr)
  | dramHashChange (k : Fin 8)
  | migrationRowMove (k : Fin 8) (lines : Nat) (e : List LineErr)
  | droopEvent (core : Fin 160)
  | droopMarkExpiry (core : Fin 160)
  | storeDrain (t : Nat) (g : Nat)
  | loadComplete (t : Nat) (g : Nat) (id : Nat)
  | dramAccess (k : Fin 8) (a : DramReq)
  | getS (m : Nat)
  | getM (m : Nat)
  | upgrade (m : Nat)
  | putM (m : Nat)
  | putS (m : Nat)
  | forwardedWrite (m : Nat)
  | inv (m : Nat)
  | ack (m : Nat)
  | fwd (m : Nat)
  | data (m : Nat)
  | enlargerEpoch (d : Die)
  | atomPerform (t : Nat) (g : Nat) (id : Nat)
  | atomicopCompletion (t : Nat) (g : Nat) (id : Nat) (ur : Bool)
  | fenceComplete (t : Nat) (g : Nat)
  | txOpen (t : Nat) (g : Nat)
  | txConflictAbort (t : Nat) (g : Nat) (lane : Nat)
  | developPerform (t : Nat)
  | copyChunk (t : Nat) (id : Nat) (lane : Nat)
  | bulkChunk (core : Fin 160) (id : Nat) (chunk : Nat)
  | bulkQueueAccept (t : Nat) (g : Nat)
  | barrierArrivalApply (t : Nat) (g : Nat)
  | remoteWriteArrival (pkt : Packet)
  | remoteWriteAck (id : Nat) (chunk : Nat)
  | remoteReadArrival (pkt : Packet)
  | remoteReadResponse (id : Nat) (chunk : Nat) (bytes : BitVec 128) (poison : Bool)
  | remoteRetry (id : Nat) (chunk : Nat)
  | transportGiveUp (id : Nat)
  | tileQueueAccept (t : Nat) (g : Nat)
  | tloopStep (core : Fin 160) (id : Nat)
  | thadRow (core : Fin 160) (id : Nat)
  | tqntRow (core : Fin 160) (id : Nat)
  | waitlPassEnd (t : Nat) (g : Nat) (lane : Nat)
  | yieldHoldEnd (t : Nat) (g : Nat)
  | budgetExpiry (t : Nat)
  | trapDelivery (t : Nat)
  | trapRecordWrite (t : Nat)
  | flitReplay (l : Link) (ok : Bool)
  | linkDown (l : Link)
  | sramUncorrectable (site : SramSite)
  | fabricRefusal (id : Nat) (chunk : Nat) (fatal : Bool) (counter : Bool)
  | faultWaitPauseEnd (c : Ctx)
  | pcieLinkUp (p : Port)
  | ethernetLinkDown (n : Fin 8)
  | corePowerRemoval
  deriving DecidableEq, Repr

end Sys2Proof
end

