-- ==== Sys2Proof/WellFormed.lean ====
section
/-! DEFINITION. The rules an instruction's fields must meet beyond the encoding of each field (R28, R31, R32, R45): an
instruction that breaks one is no defined instruction and traps ILLOP. -/

namespace Sys2Proof

/-- Why an instruction is ill formed. -/
inductive IllForm where
  /-- The guard ?!p7 (R32). -/
  | guard
  /-- A shape the opcode does not permit (R31). -/
  | shape
  /-- The lane number as a source whose shape is not P (R28). -/
  | laneNumber
  /-- An odd branch offset (R26). -/
  | branchOffset
  /-- A format pair that R72 forbids in the shape. -/
  | format
  /-- LRED or LSCN in shape M with an operation other than FADD (R125). -/
  | reduction
  /-- GUNI `.IDX` in shape S (R161). -/
  | drawIndex
  /-- LD with sx at a width of 64 or 128 bits (R25). -/
  | signExtend
  /-- FENCE with an empty path mask (R174). -/
  | emptyPaths
  /-- A special register number that R329 does not list, or one that SWR may not write (R328). -/
  | specialRegister
  deriving DecidableEq, Repr

/-- A check that passes when its condition holds. -/
def need (b : Bool) (e : IllForm) : Except IllForm Unit := if b then .ok () else .error e

/-- The guard is not ?!p7 (R32). -/
def Hd.ok (h : Hd) : Except IllForm Unit := need (!(h.gp == 7 && h.gn)) .guard

/-- The shape is one the opcode permits (R31). -/
def Shape.among (s : Shape) (l : List Shape) : Except IllForm Unit := need (l.contains s) .shape

/-- A source of a shaped operand: the lane number is accepted only in shape P (R28). -/
def Src.fits (s : Src) (sh : Shape) : Except IllForm Unit := need (s != .lid || sh == .P) .laneNumber

/-- The same for a source without a scalar-select bit. -/
def LSrc.fits (s : LSrc) (sh : Shape) : Except IllForm Unit := need (s != .lid || sh == .P) .laneNumber

/-- Whether a format is a pair of words in shape P (R65). -/
def Fmt.wide : Fmt → Bool
  | .int64 | .nat64 => true | _ => false

/-- Formats that shapes M, Q and S may convert to: codes 0 to 8 (R72). -/
def Fmt.shapedDst : Fmt → Bool
  | .f32 | .bf16 | .f16 | .e4m3 | .e5m2 | .e3m2 | .e2m3 | .e2m1 | .mxint8 => true | _ => false

/-- The special register numbers of R329. -/
def srdNumber (n : Nat) : Bool :=
  n ≤ 0x00E || (0x010 ≤ n && n ≤ 0x013) || (0x020 ≤ n && n ≤ 0x023) || (0x040 ≤ n && n ≤ 0x060)

/-- The writable special registers: NCTL and STALLS (R329). -/
def swrNumber (n : Nat) : Bool := n == 0x008 || n == 0x00E

/-- The shape of an access's data words (R195). -/
def Width.shape : Width → Shape
  | .w64 => .M | .w128 => .Q | _ => .P

/-- Whether sx may be set (R25). -/
def Width.extends : Width → Bool
  | .w64 | .w128 => false | _ => true

/-- The operand span of LAUNCH in words (R277). -/
def LaunchSize.span : LaunchSize → Nat
  | .desc => 2 | _ => 4

/-- The checks of an instruction, in the order of R45's table. An event has none. -/
def Instr.check (i : Instr) : Except IllForm Unit :=
  match i with
  | .nop h => h.ok
  | .bra h imm => do h.ok; need (imm.toNat % 2 == 0) .branchOffset
  | .brx h _ => h.ok
  | .call h _ imm => do h.ok; need (imm.toNat % 2 == 0) .branchOffset
  | .callx h _ _ => h.ok
  | .ret h _ => h.ok
  | .exit h => h.ok
  | .waitl h => h.ok
  | .yield h => h.ok
  | .trap h _ => h.ok
  | .bkpt h => h.ok
  | .srd h _ reg => do h.ok; need (srdNumber reg.val) .specialRegister
  | .swr h _ reg => do h.ok; need (swrNumber reg.val) .specialRegister
  | .develop h => h.ok
  | .budget h _ => h.ok
  | .launch h _ _ => h.ok
  | .ill _ => .ok ()
  | .iadd h _ _ _ => h.ok
  | .isub h _ _ _ => h.ok
  | .imul h _ _ _ => h.ok
  | .imulh h _ _ _ _ => h.ok
  | .imad h _ _ _ _ => h.ok
  | .imin h _ _ _ _ => h.ok
  | .imax h _ _ _ _ => h.ok
  | .iabs h _ _ => h.ok
  | .and h _ _ _ => h.ok
  | .or h _ _ _ => h.ok
  | .xor h _ _ _ => h.ok
  | .andn h _ _ _ => h.ok
  | .shl h _ _ _ => h.ok
  | .shr h _ _ _ => h.ok
  | .sar h _ _ _ => h.ok
  | .rotl h _ _ _ => h.ok
  | .bfe h _ _ _ _ _ => h.ok
  | .bfi h _ _ _ _ => h.ok
  | .popc h _ _ => h.ok
  | .clz h _ _ => h.ok
  | .brev h _ _ => h.ok
  | .icmp h _ _ _ _ _ => h.ok
  | .sel h sh _ ra rb _ => do h.ok; ra.fits sh; rb.fits sh
  | .mov h sh _ ra => do h.ok; ra.fits sh
  | .movi h _ _ => h.ok
  | .lea h _ _ _ _ _ => h.ok
  | .plop h _ _ _ _ _ => h.ok
  | .pset h _ _ _ => h.ok
  | .iaddImm h _ _ _ => h.ok
  | .imulImm h _ _ _ => h.ok
  | .andImm h _ _ _ => h.ok
  | .orImm h _ _ _ => h.ok
  | .xorImm h _ _ _ => h.ok
  | .shlImm h _ _ _ => h.ok
  | .shrImm h _ _ _ => h.ok
  | .sarImm h _ _ _ => h.ok
  | .fadd h sh _ ra rb _ => do h.ok; ra.fits sh; rb.fits sh
  | .fsub h sh _ ra rb _ => do h.ok; ra.fits sh; rb.fits sh
  | .fmul h sh _ ra rb _ _ => do h.ok; ra.fits sh; rb.fits sh
  | .ffma h sh _ ra rb rc _ _ => do h.ok; ra.fits sh; rb.fits sh; rc.fits sh
  | .fmin h sh _ ra rb _ => do h.ok; ra.fits sh; rb.fits sh
  | .fmax h sh _ ra rb _ => do h.ok; ra.fits sh; rb.fits sh
  | .fcmp h sh _ ra rb _ => do h.ok; sh.among [.P, .M, .Q]; ra.fits sh; rb.fits sh
  | .frelu h sh _ ra _ => do h.ok; ra.fits sh
  | .fsqrelu h sh _ ra _ => do h.ok; ra.fits sh
  | .fclass h sh _ ra => do h.ok; sh.among [.P, .M]; ra.fits sh
  | .cvt h sh _ ra dst src _ => do h.ok; need (sh == .P || (src == .f32 && dst.shapedDst)) .format; ra.fits (if src.wide then .M else sh)
  | .qpk h sh _ ra _ _ => do h.ok; sh.among [.P, .M]; ra.fits sh
  | .qupk h _ _ _ => h.ok
  | .frcp h sh _ ra _ => do h.ok; ra.fits sh
  | .fdiv h sh _ ra rb _ => do h.ok; ra.fits sh; rb.fits sh
  | .fsqrt h sh _ ra _ => do h.ok; ra.fits sh
  | .frsq h sh _ ra _ => do h.ok; ra.fits sh
  | .fexp2 h sh _ ra _ => do h.ok; ra.fits sh
  | .flog2 h sh _ ra _ => do h.ok; ra.fits sh
  | .fsinpi h sh _ ra _ => do h.ok; ra.fits sh
  | .fcospi h sh _ ra _ => do h.ok; ra.fits sh
  | .ftanh h sh _ ra _ => do h.ok; ra.fits sh
  | .fsigm h sh _ ra _ => do h.ok; ra.fits sh
  | .mmk h sh _ _ _ => do h.ok; sh.among [.M, .Q]
  | .mspl h sh _ ra => do h.ok; sh.among [.M, .Q]; ra.fits sh
  | .maddv h sh _ ra _ => do h.ok; sh.among [.M, .Q]; ra.fits sh
  | .mtag h _ ra _ _ => do h.ok; ra.fits .Q
  | .mcov h _ ra rb => do h.ok; ra.fits .Q; rb.fits .Q
  | .mfold h _ ra _ => do h.ok; ra.fits .Q
  | .sdraw h _ ra => do h.ok; ra.fits .M
  | .sstat h _ ra => do h.ok; ra.fits .S
  | .shfl h sh _ ra _ _ _ => do h.ok; ra.fits sh
  | .vote h _ _ _ => h.ok
  | .lred h sh _ ra op _ => do h.ok; sh.among [.P, .M]; ra.fits sh; need (sh == .P || op == .fadd) .reduction
  | .lscn h sh _ ra op _ _ => do h.ok; sh.among [.P, .M]; ra.fits sh; need (sh == .P || op == .fadd) .reduction
  | .match h _ _ => h.ok
  | .vrd h _ _ _ => h.ok
  | .vwr h sh _ rb => do h.ok; rb.fits sh
  | .gseed h ra _ _ => do h.ok; ra.fits .M
  | .guni h sh _ _ form => do h.ok; sh.among [.P, .S]; need (form == .draw || sh == .P) .drawIndex
  | .gnorm h sh _ _ => do h.ok; sh.among [.P, .S]
  | .ggum h sh _ _ => do h.ok; sh.among [.P, .S]
  | .gber h _ _ _ => h.ok
  | .gcat h _ _ _ => h.ok
  | .ld h _ _ wd _ _ sx _ => do h.ok; need (!sx || wd.extends) .signExtend
  | .st h rd _ wd _ _ _ => do h.ok; rd.fits wd.shape
  | .ldp h _ _ _ _ _ => h.ok
  | .stp h rd _ _ _ _ => do h.ok; rd.fits .M
  | .atom h _ _ _ _ => h.ok
  | .fence h _ _ paths => do h.ok; need (paths.ls || paths.ce || paths.tu || paths.nx) .emptyPaths
  | .cctlWb h _ _ => h.ok
  | .cctlInv h _ _ => h.ok
  | .cctlDrain h _ _ => h.ok
  | .cctlRepl h _ _ => h.ok
  | .cctlPf1 h _ _ => h.ok
  | .cctlPf2 h _ _ => h.ok
  | .txbeg h _ => h.ok
  | .txend h _ => h.ok
  | .txabt h => h.ok
  | .cpy h _ _ _ _ _ _ => h.ok
  | .cpyb h _ _ _ => h.ok
  | .binit h _ _ => h.ok
  | .barv h _ => h.ok
  | .bexp h _ _ _ => h.ok
  | .bwait h _ _ => h.ok
  | .btest h _ _ _ => h.ok
  | .bsync h _ => h.ok
  | .tloop h _ _ _ _ _ => h.ok
  | .thad h _ _ _ _ => h.ok
  | .taccRd h _ _ _ _ => h.ok
  | .taccWr h sh _ ra _ => do h.ok; sh.among [.P, .M]; ra.fits .M
  | .taccZero h _ => h.ok
  | .tqnt h _ _ _ _ _ => h.ok
  | .movC16 _ _ => .ok ()
  | .iaddC16 _ _ => .ok ()
  | .isubC16 _ _ => .ok ()
  | .andC16 _ _ => .ok ()
  | .orC16 _ _ => .ok ()
  | .xorC16 _ _ => .ok ()
  | .shlC16 _ _ => .ok ()
  | .shrC16 _ _ => .ok ()
  | .iaddiC16 _ _ => .ok ()
  | .moviC16 _ _ => .ok ()
  | .faddC16 _ _ => .ok ()
  | .fmulC16 _ _ => .ok ()
  | .faddMC16 _ _ => .ok ()
  | .fmulMC16 _ _ => .ok ()
  | .braS _ => .ok ()
  | .nopC16 => .ok ()
  | .iaddS32 _ _ _ _ => .ok ()
  | .isubS32 _ _ _ _ => .ok ()
  | .imulS32 _ _ _ _ => .ok ()
  | .imulhS32 _ _ _ _ => .ok ()
  | .iminS32 _ _ _ _ => .ok ()
  | .imaxS32 _ _ _ _ => .ok ()
  | .andS32 _ _ _ _ => .ok ()
  | .orS32 _ _ _ _ => .ok ()
  | .xorS32 _ _ _ _ => .ok ()
  | .andnS32 _ _ _ _ => .ok ()
  | .shlS32 _ _ _ _ => .ok ()
  | .shrS32 _ _ _ _ => .ok ()
  | .sarS32 _ _ _ _ => .ok ()
  | .rotlS32 _ _ _ _ => .ok ()
  | .faddS32 _ m _ ra _ => ra.fits (if m then .M else .P)
  | .fsubS32 _ m _ ra _ => ra.fits (if m then .M else .P)
  | .fmulS32 _ m _ ra _ => ra.fits (if m then .M else .P)
  | .fminS32 _ m _ ra _ => ra.fits (if m then .M else .P)
  | .fmaxS32 _ m _ ra _ => ra.fits (if m then .M else .P)
  | .fdivS32 _ m _ ra _ => ra.fits (if m then .M else .P)
  | .movS32 _ m _ ra => ra.fits (if m then .M else .P)
  | .popcS32 _ _ _ => .ok ()
  | .clzS32 _ _ _ => .ok ()
  | .freluS32 _ m _ ra => ra.fits (if m then .M else .P)
  | .fsqreluS32 _ m _ ra => ra.fits (if m then .M else .P)
  | .frcpS32 _ m _ ra => ra.fits (if m then .M else .P)
  | .fsqrtS32 _ m _ ra => ra.fits (if m then .M else .P)
  | .frsqS32 _ m _ ra => ra.fits (if m then .M else .P)
  | .fexp2S32 _ m _ ra => ra.fits (if m then .M else .P)
  | .flog2S32 _ m _ ra => ra.fits (if m then .M else .P)
  | .ftanhS32 _ m _ ra => ra.fits (if m then .M else .P)
  | .fsigmS32 _ m _ ra => ra.fits (if m then .M else .P)
  | .tailWrite _ _ _ _ => .ok ()
  | .queueTableWrite _ _ _ _ => .ok ()
  | .queueSwitchIn _ => .ok ()
  | .queueSwitchOut _ => .ok ()
  | .commandAccept _ => .ok ()
  | .launchEntryAccept _ _ => .ok ()
  | .launchQueueSpace _ _ => .ok ()
  | .descriptorCheck _ => .ok ()
  | .predecessorDecrement _ => .ok ()
  | .teamHandOut _ => .ok ()
  | .teamEnd _ => .ok ()
  | .gridCompletion _ => .ok ()
  | .completionRecord _ => .ok ()
  | .eventRingTimeout _ _ => .ok ()
  | .preempt _ _ => .ok ()
  | .resume _ _ => .ok ()
  | .contextReset _ _ => .ok ()
  | .contextDestroy _ _ => .ok ()
  | .contextPurgeComplete _ => .ok ()
  | .contextEnable _ _ => .ok ()
  | .deadlineExpiry _ => .ok ()
  | .drainEnd _ => .ok ()
  | .purgeGo _ _ => .ok ()
  | .purgeComplete _ => .ok ()
  | .freplyRetry _ _ _ => .ok ()
  | .freplyDecline _ _ _ => .ok ()
  | .faultRecordWrite _ => .ok ()
  | .pageWalk _ => .ok ()
  | .authorityMove _ _ => .ok ()
  | .deviceReset _ => .ok ()
  | .perst _ => .ok ()
  | .portReset _ => .ok ()
  | .pcieLinkDown _ => .ok ()
  | .contextApertureAccess _ _ _ => .ok ()
  | .physicalApertureAccess _ _ _ => .ok ()
  | .registerWrite _ _ _ _ => .ok ()
  | .firmwareGo _ => .ok ()
  | .firmwareVerifyDone => .ok ()
  | .identityDerivation => .ok ()
  | .getVersion _ => .ok ()
  | .getCapabilities _ => .ok ()
  | .negotiateAlgorithms _ => .ok ()
  | .getDigests _ => .ok ()
  | .getCertificate _ _ _ _ => .ok ()
  | .challenge _ _ _ => .ok ()
  | .getMeasurements _ _ _ _ => .ok ()
  | .cool _ => .ok ()
  | .warm _ => .ok ()
  | .sensorSample _ => .ok ()
  | .bandHoldExpiry => .ok ()
  | .coldHoldExpiry => .ok ()
  | .runIdleExpiry => .ok ()
  | .warmingHoldExpiry => .ok ()
  | .sweepComplete _ => .ok ()
  | .haltDrainExpiry => .ok ()
  | .powerOn => .ok ()
  | .tripResetRelease => .ok ()
  | .scrubRead _ _ => .ok ()
  | .dramHashChange _ => .ok ()
  | .migrationRowMove _ _ _ => .ok ()
  | .droopEvent _ => .ok ()
  | .droopMarkExpiry _ => .ok ()
  | .storeDrain _ _ => .ok ()
  | .loadComplete _ _ _ => .ok ()
  | .dramAccess _ _ => .ok ()
  | .getS _ => .ok ()
  | .getM _ => .ok ()
  | .upgrade _ => .ok ()
  | .putM _ => .ok ()
  | .putS _ => .ok ()
  | .forwardedWrite _ => .ok ()
  | .inv _ => .ok ()
  | .ack _ => .ok ()
  | .fwd _ => .ok ()
  | .data _ => .ok ()
  | .enlargerEpoch _ => .ok ()
  | .atomPerform _ _ _ => .ok ()
  | .atomicopCompletion _ _ _ _ => .ok ()
  | .fenceComplete _ _ => .ok ()
  | .txOpen _ _ => .ok ()
  | .txConflictAbort _ _ _ => .ok ()
  | .developPerform _ => .ok ()
  | .copyChunk _ _ _ => .ok ()
  | .bulkChunk _ _ _ => .ok ()
  | .bulkQueueAccept _ _ => .ok ()
  | .barrierArrivalApply _ _ => .ok ()
  | .remoteWriteArrival _ => .ok ()
  | .remoteWriteAck _ _ => .ok ()
  | .remoteReadArrival _ => .ok ()
  | .remoteReadResponse _ _ _ _ => .ok ()
  | .remoteRetry _ _ => .ok ()
  | .transportGiveUp _ => .ok ()
  | .tileQueueAccept _ _ => .ok ()
  | .tloopStep _ _ => .ok ()
  | .thadRow _ _ => .ok ()
  | .tqntRow _ _ => .ok ()
  | .waitlPassEnd _ _ _ => .ok ()
  | .yieldHoldEnd _ _ => .ok ()
  | .budgetExpiry _ => .ok ()
  | .trapDelivery _ => .ok ()
  | .trapRecordWrite _ => .ok ()
  | .flitReplay _ _ => .ok ()
  | .linkDown _ => .ok ()
  | .sramUncorrectable _ => .ok ()
  | .fabricRefusal _ _ _ _ => .ok ()
  | .faultWaitPauseEnd _ => .ok ()
  | .pcieLinkUp _ => .ok ()
  | .ethernetLinkDown _ => .ok ()
  | .corePowerRemoval => .ok ()

/-- An instruction that passes every check. -/
abbrev Instr.Wf (i : Instr) : Prop := i.check = .ok ()

end Sys2Proof
end

