-- ==== Sys2Proof/Decode.lean ====
section
/-! DEFINITION. The decoder, total on any bytes and rejecting by name (R19 to R28, R41 to R45), and after it the encoder
written from the same encoding tables. -/

namespace Sys2Proof

/-- Why a sequence of bytes is no instruction of the part: every case but `truncated` is ILLOP at issue (R45). -/
inductive DecodeError where
  /-- The instruction's last byte lies beyond the bytes given (R20). -/
  | truncated
  /-- A 64-bit word with an unassigned opcode. -/
  | opcode
  /-- A shape the opcode does not permit. -/
  | shape
  /-- A reserved modifier bit, or a modifier field with a reserved value. -/
  | modifier
  /-- A reserved operand code, one not accepted in its position, or an unused field that is not 0. -/
  | operand
  /-- jctl bits that R26 does not allow. -/
  | jctl
  /-- An immediate outside what R26 or R278 allows. -/
  | immediate
  /-- A reserved field of the memory layout of R25. -/
  | memory
  /-- A compact or short form that R43 or R44 rejects. -/
  | shortForm
  /-- The fields parse, and the instruction breaks a rule of WellFormed. -/
  | illFormed (e : IllForm)
  deriving DecidableEq, Repr

/-- A decoder's answer. -/
abbrev Dec := Except DecodeError

/-! The codes of the modifier fields. -/

/-- A one-bit field. -/
def boolOf : Nat → Option Bool
  | 0 => some false | 1 => some true | _ => none

/-- A field that holds a number below `n`. -/
def finOf (n : Nat) [NeZero n] (x : Nat) : Option (Fin n) := if x < n then some (Fin.ofNat n x) else none

/-- The code of Rm (R34). -/
def Rm.code : Rm → Nat
  | .rne => 0 | .rz => 1 | .rdn => 2 | .rup => 3 | .sr => 4

/-- Rm from its code (R34). -/
def Rm.ofCode : Nat → Option Rm
  | 0 => some .rne | 1 => some .rz | 2 => some .rdn | 3 => some .rup | 4 => some .sr | _ => none

/-- The code of Sec (R34). -/
def Sec.code : Sec → Nat
  | .nctl => 0 | .first => 1 | .on => 2

/-- Sec from its code (R34). -/
def Sec.ofCode : Nat → Option Sec
  | 0 => some .nctl | 1 => some .first | 2 => some .on | _ => none

/-- The code of MulSign (R98). -/
def MulSign.code : MulSign → Nat
  | .s => 0 | .u => 1 | .su => 2

/-- MulSign from its code (R98). -/
def MulSign.ofCode : Nat → Option MulSign
  | 0 => some .s | 1 => some .u | 2 => some .su | _ => none

/-- The code of ICond (R100). -/
def ICond.code : ICond → Nat
  | .eq => 0 | .ne => 1 | .lt => 2 | .le => 3 | .gt => 4 | .ge => 5

/-- ICond from its code (R100). -/
def ICond.ofCode : Nat → Option ICond
  | 0 => some .eq | 1 => some .ne | 2 => some .lt | 3 => some .le | 4 => some .gt | 5 => some .ge | _ => none

/-- The code of FCond (R107). -/
def FCond.code : FCond → Nat
  | .eq => 0 | .ne => 1 | .lt => 2 | .le => 3 | .gt => 4 | .ge => 5 | .num => 6 | .nan => 7

/-- FCond from its code (R107). -/
def FCond.ofCode : Nat → Option FCond
  | 0 => some .eq | 1 => some .ne | 2 => some .lt | 3 => some .le | 4 => some .gt | 5 => some .ge | 6 => some .num | 7 => some .nan | _ => none

/-- The code of ShMode (R123). -/
def ShMode.code : ShMode → Nat
  | .idx => 0 | .up => 1 | .down => 2 | .xor => 3

/-- ShMode from its code (R123). -/
def ShMode.ofCode : Nat → Option ShMode
  | 0 => some .idx | 1 => some .up | 2 => some .down | 3 => some .xor | _ => none

/-- The code of VoteMode (R124). -/
def VoteMode.code : VoteMode → Nat
  | .all => 0 | .any => 1 | .ballot => 2 | .eq => 3

/-- VoteMode from its code (R124). -/
def VoteMode.ofCode : Nat → Option VoteMode
  | 0 => some .all | 1 => some .any | 2 => some .ballot | 3 => some .eq | _ => none

/-- The code of RedOp (R125). -/
def RedOp.code : RedOp → Nat
  | .add => 0 | .min => 1 | .max => 2 | .umin => 3 | .umax => 4 | .and => 5 | .or => 6 | .xor => 7 | .fadd => 8 | .fmin => 9 | .fmax => 10

/-- RedOp from its code (R125). -/
def RedOp.ofCode : Nat → Option RedOp
  | 0 => some .add | 1 => some .min | 2 => some .max | 3 => some .umin | 4 => some .umax | 5 => some .and | 6 => some .or | 7 => some .xor | 8 => some .fadd | 9 => some .fmin | 10 => some .fmax | _ => none

/-- The code of FoldSel (R119). -/
def FoldSel.code : FoldSel → Nat
  | .all => 0 | .a => 1 | .b => 2

/-- FoldSel from its code (R119). -/
def FoldSel.ofCode : Nat → Option FoldSel
  | 0 => some .all | 1 => some .a | 2 => some .b | _ => none

/-- The code of Scope (R168). -/
def Scope.code : Scope → Nat
  | .grp => 0 | .team => 1 | .die => 2 | .pkg => 3 | .sys => 4

/-- Scope from its code (R168). -/
def Scope.ofCode : Nat → Option Scope
  | 0 => some .grp | 1 => some .team | 2 => some .die | 3 => some .pkg | 4 => some .sys | _ => none

/-- The code of Width (R25). -/
def Width.code : Width → Nat
  | .w8 => 0 | .w16 => 1 | .w32 => 2 | .w64 => 3 | .w128 => 4

/-- Width from its code (R25). -/
def Width.ofCode : Nat → Option Width
  | 0 => some .w8 | 1 => some .w16 | 2 => some .w32 | 3 => some .w64 | 4 => some .w128 | _ => none

/-- The code of FenceKind (R174). -/
def FenceKind.code : FenceKind → Nat
  | .ar => 0 | .rel => 1 | .acq => 2

/-- FenceKind from its code (R174). -/
def FenceKind.ofCode : Nat → Option FenceKind
  | 0 => some .ar | 1 => some .rel | 2 => some .acq | _ => none

/-- The code of CpySize (R216). -/
def CpySize.code : CpySize → Nat
  | .n4 => 0 | .n8 => 1 | .n16 => 2

/-- CpySize from its code (R216). -/
def CpySize.ofCode : Nat → Option CpySize
  | 0 => some .n4 | 1 => some .n8 | 2 => some .n16 | _ => none

/-- The code of LoopMode (R142). -/
def LoopMode.code : LoopMode → Nat
  | .mean => 0 | .var1 => 1 | .var2 => 2

/-- LoopMode from its code (R142). -/
def LoopMode.ofCode : Nat → Option LoopMode
  | 0 => some .mean | 1 => some .var1 | 2 => some .var2 | _ => none

/-- The code of HadPts (R147). -/
def HadPts.code : HadPts → Nat
  | .h16 => 0 | .h32 => 1 | .h64 => 2

/-- HadPts from its code (R147). -/
def HadPts.ofCode : Nat → Option HadPts
  | 0 => some .h16 | 1 => some .h32 | 2 => some .h64 | _ => none

/-- The format codes of R64. -/
def Fmt.code : Fmt → Nat
  | .f32 => 0 | .bf16 => 1 | .f16 => 2 | .e4m3 => 3 | .e5m2 => 4 | .e3m2 => 5 | .e2m3 => 6 | .e2m1 => 7 | .mxint8 => 8 | .e8m0 => 9 | .int8 => 16 | .nat8 => 17 | .int16 => 18 | .nat16 => 19 | .int32 => 20 | .nat32 => 21 | .int64 => 22 | .nat64 => 23

/-- A format from its code (R64). -/
def Fmt.ofCode : Nat → Option Fmt
  | 0 => some .f32 | 1 => some .bf16 | 2 => some .f16 | 3 => some .e4m3 | 4 => some .e5m2 | 5 => some .e3m2 | 6 => some .e2m3 | 7 => some .e2m1 | 8 => some .mxint8 | 9 => some .e8m0 | 16 => some .int8 | 17 => some .nat8 | 18 => some .int16 | 19 => some .nat16 | 20 => some .int32 | 21 => some .nat32 | 22 => some .int64 | 23 => some .nat64 | _ => none

/-- The codes of the element formats (R64). -/
def EFmt.code : EFmt → Nat
  | .e4m3 => 3 | .e5m2 => 4 | .e3m2 => 5 | .e2m3 => 6 | .e2m1 => 7 | .mxint8 => 8

/-- An element format from its code (R112). -/
def EFmt.ofCode : Nat → Option EFmt
  | 3 => some .e4m3 | 4 => some .e5m2 | 5 => some .e3m2 | 6 => some .e2m3 | 7 => some .e2m1 | 8 => some .mxint8 | _ => none

/-- PSET's modifier (R101): the test in bits 1:0, k in bits 8:4. -/
def PTest.code : PTest → Nat
  | .nz => 0 | .z => 1 | .bit k => 2 + 16 * k.val

/-- PSET's test from its modifier (R101). -/
def PTest.ofCode (x : Nat) : Option PTest :=
  if x = 0 then some .nz else if x = 1 then some .z
  else if x % 16 = 2 then some (.bit (Fin.ofNat 32 (x / 16))) else none

/-- GUNI's bits 3:2 (R161). -/
def UniForm.code : UniForm → Nat
  | .draw => 0 | .idx hi => 1 + 2 * hi.toNat

/-- GUNI's form from bits 3:2; `.HI` without `.IDX` is illegal (R161). -/
def UniForm.ofCode : Nat → Option UniForm
  | 0 => some .draw | 1 => some (.idx false) | 3 => some (.idx true) | _ => none

/-- GSEED's bits 3:2 (R161). -/
def SeedForm.code : SeedForm → Nat
  | .seed w _ => w.toNat | .pos => 2

/-- FENCE's path mask (R174). -/
def Paths.code (p : Paths) : Nat := p.ls.toNat + 2 * p.ce.toNat + 4 * p.tu.toNat + 8 * p.nx.toNat

/-- The path mask of FENCE from its four bits (R174). -/
def Paths.ofCode (x : Nat) : Option Paths :=
  some ⟨x % 2 == 1, x / 2 % 2 == 1, x / 4 % 2 == 1, x / 8 % 2 == 1⟩

/-- BTEST's bits 5:4 (R274). -/
def BTestForm.code : BTestForm → Nat
  | .par q => q.toNat | .get => 2

/-- BTEST's form; `.GET` with q = 1 is illegal (R274). -/
def BTestForm.ofCode : Nat → Option BTestForm
  | 0 => some (.par false) | 1 => some (.par true) | 2 => some .get | _ => none

/-- The codes of ATOM's operation with the `.U` bit above them (R199, R200). -/
def AtomOp.code : AtomOp → Nat
  | .add => 0 | .fadd => 1 | .min u => 2 + 16 * u.toNat | .max u => 3 + 16 * u.toNat | .and => 4 | .or => 5 | .xor => 6
  | .exch => 7 | .cas _ => 8 | .incw => 9 | .decw => 10 | .addb _ => 11

/-- LAUNCH's imm32 (R278). -/
def LaunchOpt.code (o : LaunchOpt) : Nat :=
  (match o.size with | .desc => 0 | .nx => 1 | .div sh => 2 + 4 * sh.val | .xy => 3)
    + 128 * o.wait.toNat + 256 * o.tail.toNat + 512 * o.esc.toNat

/-- LAUNCH's options from imm32 (R278); SH must be 0 unless SIZE is 2 (R277). -/
def LaunchOpt.ofCode (x : Nat) : Option LaunchOpt :=
  if 1024 ≤ x then none
  else
    let sh := x / 4 % 32
    let mk := fun s => some ⟨x / 512 % 2 == 1, x / 256 % 2 == 1, x / 128 % 2 == 1, s⟩
    match x % 4 with
    | 2 => mk (.div (Fin.ofNat 32 sh))
    | 0 => if sh = 0 then mk .desc else none
    | 1 => if sh = 0 then mk .nx else none
    | _ => if sh = 0 then mk .xy else none

/-! Operand codes (R27, R28). -/

/-- The 8-bit code of a source. -/
def Src.code : Src → Nat
  | .v n => n.val | .d n => 224 + n.val | .z => 232 | .lid => 233 | .g n => n.val

/-- Its scalar-select bit. -/
def Src.sel : Src → Nat
  | .g _ => 1 | _ => 0

/-- A source from its code and select bit (R27, R28). -/
def srcOf (c s : Nat) : Dec Src :=
  if s = 1 then (if c < 64 then .ok (.g (Fin.ofNat 64 c)) else .error .operand)
  else if c < 224 then .ok (.v (Fin.ofNat 224 c))
  else if c < 232 then .ok (.d (Fin.ofNat 8 (c - 224)))
  else if c = 232 then .ok .z
  else if c = 233 then .ok .lid
  else .error .operand

/-- The 8-bit code of a lane source. -/
def LSrc.code : LSrc → Nat
  | .v n => n.val | .d n => 224 + n.val | .z => 232 | .lid => 233

/-- A lane source from its code. -/
def lsrcOf (c : Nat) : Dec LSrc :=
  if c < 224 then .ok (.v (Fin.ofNat 224 c))
  else if c < 232 then .ok (.d (Fin.ofNat 8 (c - 224)))
  else if c = 232 then .ok .z
  else if c = 233 then .ok .lid
  else .error .operand

/-- The 8-bit code of an ordinary destination. -/
def LDst.code : LDst → Nat
  | .v n => n.val | .z => 232

/-- An ordinary destination from its code. -/
def ldstOf (c : Nat) : Dec LDst :=
  if c < 224 then .ok (.v (Fin.ofNat 224 c)) else if c = 232 then .ok .z else .error .operand

/-- The 8-bit code of a destination of layout I. -/
def Dst.code : Dst → Nat
  | .v n => n.val | .z => 232 | .g n => n.val

/-- Its sd bit. -/
def Dst.sd : Dst → Nat
  | .g _ => 1 | _ => 0

/-- A destination from its code and sd (R28, R34). -/
def dstOf (c sd : Nat) : Dec Dst :=
  if sd = 1 then (if c < 64 then .ok (.g (Fin.ofNat 64 c)) else .error .operand)
  else if c < 224 then .ok (.v (Fin.ofNat 224 c)) else if c = 232 then .ok .z else .error .operand

/-- The 8-bit code of an address base. -/
def Base.code : Base → Nat
  | .v n => n.val | .g n => n.val

/-- Its scalar-select bit. -/
def Base.sel : Base → Nat
  | .g _ => 1 | _ => 0

/-- An address base from its code and select bit (R28). -/
def baseOf (c s : Nat) : Dec Base :=
  if s = 1 then (if c < 64 then .ok (.g (Fin.ofNat 64 c)) else .error .operand)
  else if c < 224 then .ok (.v (Fin.ofNat 224 c)) else .error .operand

/-- A predicate from its code and select bit (R28). -/
def predOf (c s : Nat) : Dec Pred := if c < 8 ∧ s = 0 then .ok (Fin.ofNat 8 c) else .error .operand

/-- An unused field holds 0x00 with its select bit clear (R28). -/
def unused (c s : Nat) : Dec Unit := if c = 0 ∧ s = 0 then .ok () else .error .operand

/-- The five-bit code of a compact source (R22). -/
def CSrc.code : CSrc → Nat
  | .v n => n.val | .d n => 24 + n.val

/-- A compact source from its code (R22). -/
def CSrc.ofCode (c : Nat) : CSrc := if c < 24 then .v (Fin.ofNat 24 c) else .d (Fin.ofNat 8 (c - 24))

/-- The six-bit code of a short source (R23). -/
def SSrc.code : SSrc → Nat
  | .v n => n.val | .d n => 56 + n.val

/-- A short source from its code (R23). -/
def SSrc.ofCode (c : Nat) : SSrc := if c < 56 then .v (Fin.ofNat 56 c) else .d (Fin.ofNat 8 (c - 56))

/-- The shape field's code (R24). -/
def Shape.code : Shape → Nat
  | .P => 0 | .M => 1 | .Q => 2 | .S => 3

/-- A shape from its code (R24). -/
def Shape.ofCode : Nat → Shape
  | 0 => .P | 1 => .M | 2 => .Q | _ => .S

/-! The fields of a 64-bit word (R24 to R26): bits 27:0 in fields, and bits 63:28 together. -/

/-- A 64-bit word cut into the fields that G64, I64 and J64 share, and the bits above them. -/
structure Raw where
  op : Nat
  shape : Nat
  stall : Nat
  gp : Nat
  gn : Nat
  rd : Nat
  hi : Nat
  deriving DecidableEq, Repr

/-- The fields of a word. -/
def rawOf (w : Nat) : Raw :=
  { op := w / 4 % 512, shape := w / 2048 % 4, stall := w / 8192 % 8, gp := w / 65536 % 8, gn := w / 524288 % 2,
    rd := w / 1048576 % 256, hi := w / 268435456 % 68719476736 }

/-- The word with these fields; bits 1:0 are 0b11 (R19). -/
def rawWord (r : Raw) : Nat :=
  3 + 4 * r.op + 2048 * r.shape + 8192 * r.stall + 65536 * r.gp + 524288 * r.gn + 1048576 * r.rd + 268435456 * r.hi

/-- The operand codes and select bits of G64 (R24), the modifier, and the immediates of I64 and J64 (R25, R26). -/
def Raw.ra (w : Raw) : Nat := w.hi % 256
def Raw.rb (w : Raw) : Nat := w.hi / 256 % 256
def Raw.rc (w : Raw) : Nat := w.hi / 65536 % 256
def Raw.sa (w : Raw) : Nat := w.hi / 16777216 % 2
def Raw.sb (w : Raw) : Nat := w.hi / 33554432 % 2
def Raw.sc (w : Raw) : Nat := w.hi / 67108864 % 2
def Raw.md (w : Raw) : Nat := w.hi / 134217728
def Raw.imm28 (w : Raw) : Nat := w.hi / 256
def Raw.jctl (w : Raw) : Nat := w.hi % 16
def Raw.imm32 (w : Raw) : Nat := w.hi / 16

/-- Bits 63:11 of the word, which ILL ignores (R42). -/
def Raw.rest (w : Raw) : Nat :=
  w.shape + 4 * w.stall + 32 * w.gp + 256 * w.gn + 512 * w.rd + 131072 * w.hi

/-- The stall and guard fields. -/
def Raw.hd (w : Raw) : Dec Hd := .ok ⟨Fin.ofNat 8 w.stall, Fin.ofNat 8 w.gp, w.gn == 1⟩
def Raw.shapeIs (w : Raw) (s : Shape) : Dec Unit := if w.shape = s.code then .ok () else .error .shape
def Raw.shp (w : Raw) : Dec Shape := .ok (Shape.ofCode w.shape)
def Raw.dst (w : Raw) : Dec Dst := dstOf w.rd (w.md / 256 % 2)
def Raw.ldst (w : Raw) : Dec LDst := ldstOf w.rd
def Raw.rdSrc (w : Raw) : Dec LSrc := lsrcOf w.rd
def Raw.pd (w : Raw) : Dec Pred := predOf w.rd 0
def Raw.noD (w : Raw) : Dec Unit := unused w.rd 0
def Raw.srcA (w : Raw) : Dec Src := srcOf w.ra w.sa
def Raw.srcB (w : Raw) : Dec Src := srcOf w.rb w.sb
def Raw.srcC (w : Raw) : Dec Src := srcOf w.rc w.sc
def Raw.predA (w : Raw) : Dec Pred := predOf w.ra w.sa
def Raw.predB (w : Raw) : Dec Pred := predOf w.rb w.sb
def Raw.predC (w : Raw) : Dec Pred := predOf w.rc w.sc
def Raw.baseA (w : Raw) : Dec Base := baseOf w.ra w.sa
def Raw.baseB (w : Raw) : Dec Base := baseOf w.rb w.sb
def Raw.noA (w : Raw) : Dec Unit := unused w.ra w.sa
def Raw.noB (w : Raw) : Dec Unit := unused w.rb w.sb
def Raw.noC (w : Raw) : Dec Unit := unused w.rc w.sc
/-- A scalar descriptor base: sa set and a code below 64 (R28). -/
def Raw.gA (w : Raw) : Dec (Fin 64) := if w.sa = 1 ∧ w.ra < 64 then .ok (Fin.ofNat 64 w.ra) else .error .operand
/-- Bits `lo` to `lo + n - 1` of the modifier. -/
def Raw.m (w : Raw) (lo n : Nat) : Nat := w.md / 2 ^ lo % 2 ^ n
def Raw.fld (w : Raw) (lo n : Nat) (f : Nat → Option α) : Dec α :=
  match f (w.m lo n) with | some x => .ok x | none => .error .modifier
/-- A reserved range of the modifier (R45). -/
def Raw.rsv (w : Raw) (lo n : Nat) : Dec Unit := if w.m lo n = 0 then .ok () else .error .modifier
/-- A select bit that must be clear where the field holds no operand (R111). -/
def Raw.nosel (w : Raw) (b : Nat) : Dec Unit := if w.hi / 2 ^ b % 2 = 0 then .ok () else .error .operand
/-- A field that holds a format code instead of an operand (R111). -/
def Raw.code (w : Raw) (lo : Nat) (f : Nat → Option α) : Dec α :=
  match f (w.hi / 2 ^ lo % 256) with | some x => .ok x | none => .error .modifier
def Raw.jctlIs (w : Raw) (n : Nat) : Dec Unit := if w.jctl = n then .ok () else .error .jctl
/-- TRAP's number (R26). -/
def Raw.trapNo (w : Raw) : Dec (Fin 256) := if w.imm32 < 256 then .ok (Fin.ofNat 256 w.imm32) else .error .immediate
/-- LAUNCH's source pair: jctl bit 28 selects a g pair (R26, R277). -/
def Raw.launchRd (w : Raw) : Dec Base := if w.jctl < 2 then baseOf w.rd w.jctl else .error .jctl
def Raw.launchOpt (w : Raw) : Dec LaunchOpt :=
  match LaunchOpt.ofCode w.imm32 with | some o => .ok o | none => .error .immediate
/-- MOVI's destination: jctl bit 28 is its sd (R26). -/
def Raw.moviRd (w : Raw) : Dec Dst := if w.jctl < 2 then dstOf w.rd w.jctl else .error .jctl
/-- The first source of an I64 form (R25). -/
def Raw.lsrcA (w : Raw) : Dec LSrc := lsrcOf w.ra
/-- The base of LD and ST; sbase is word bit 45 (R25). -/
def Raw.memBase (w : Raw) : Dec Base := baseOf w.ra (w.hi / 2 ^ 17 % 2)
/-- A field of the memory layout, by its bit number in the word (R25). -/
def Raw.memF (w : Raw) (lo n : Nat) (f : Nat → Option α) : Dec α :=
  match f (w.hi / 2 ^ (lo - 28) % 2 ^ n) with | some x => .ok x | none => .error .memory
def Raw.mem43 (w : Raw) : Dec Unit := if w.hi / 2 ^ 15 % 2 = 0 then .ok () else .error .memory
def Raw.mem44 (w : Raw) : Dec Unit := if w.hi / 2 ^ 16 % 2 = 0 then .ok () else .error .memory
def Raw.memOff (w : Raw) : Nat := w.hi / 2 ^ 18

/-- ATOM's operation with its second operand (R199, R200). -/
def Raw.atomOp (w : Raw) : Dec AtomOp :=
  match w.m 0 5 with
  | 0 => do w.noC; pure .add
  | 1 => do w.noC; pure .fadd
  | 2 => do w.noC; pure (.min false)
  | 18 => do w.noC; pure (.min true)
  | 3 => do w.noC; pure (.max false)
  | 19 => do w.noC; pure (.max true)
  | 4 => do w.noC; pure .and
  | 5 => do w.noC; pure .or
  | 6 => do w.noC; pure .xor
  | 7 => do w.noC; pure .exch
  | 8 => do let y ← w.srcC; pure (.cas y)
  | 9 => do w.noC; pure .incw
  | 10 => do w.noC; pure .decw
  | 11 => do let y ← w.srcC; pure (.addb y)
  | _ => .error .modifier

/-- ATOM's destination; with `.nr` it is unused (R199). -/
def Raw.atomRd (w : Raw) (nr : Bool) : Dec (Option LDst) :=
  if nr then do w.noD; pure none else do let d ← w.ldst; pure (some d)

/-- GSEED's form and rb (R161). -/
def Raw.seedForm (w : Raw) : Dec SeedForm :=
  match w.m 2 2 with
  | 0 => do let r ← w.srcB; pure (.seed false r)
  | 1 => do let r ← w.srcB; pure (.seed true r)
  | 2 => do w.noB; pure .pos
  | _ => .error .modifier

/-- CCTL's operation (R205). -/
def cctlOf (op : Nat) (h : Hd) (ra : Base) (rb : Src) : Dec Instr :=
  match op with
  | 0 => .ok (.cctlWb h ra rb) | 1 => .ok (.cctlInv h ra rb) | 2 => .ok (.cctlDrain h ra rb)
  | 3 => .ok (.cctlRepl h ra rb) | 4 => .ok (.cctlPf1 h ra rb) | 5 => .ok (.cctlPf2 h ra rb) | _ => .error .modifier

/-- TACC's three operations (R148): bits 3:2 the operation, bit 4 `.VAR`. -/
def Raw.tacc (w : Raw) (h : Hd) (k : Fin 4) : Dec Instr :=
  match w.m 2 2 with
  | 0 => do
    let rd ← w.ldst; let ra ← w.srcA
    match w.shape, w.m 4 1 with
    | 0, 0 => pure (.taccRd h rd ra k .p)
    | 0, 1 => pure (.taccRd h rd ra k .pvar)
    | 1, 0 => pure (.taccRd h rd ra k .m)
    | 1, _ => .error .modifier
    | _, _ => .error .shape
  | 1 => do let sh ← w.shp; let rd ← w.ldst; let ra ← w.srcA; w.rsv 4 1; pure (.taccWr h sh rd ra k)
  | 2 => do w.shapeIs .P; w.noD; w.noA; w.rsv 4 1; pure (.taccZero h k)
  | _ => .error .modifier

/-- The control, system and ILL opcodes of R41. -/
def decCtl (w : Raw) : Dec Instr :=
  match w.op with
  | 0x000 => do w.shapeIs .P; let h ← w.hd; w.noD; w.noA; w.noB; w.noC; w.rsv 0 9; pure (.nop h)
  | 0x001 => do w.shapeIs .P; let h ← w.hd; w.noD; w.jctlIs 0; pure (.bra h (BitVec.ofNat 32 w.imm32))
  | 0x002 => do w.shapeIs .P; let h ← w.hd; w.noD; let ra ← w.srcA; w.noB; w.noC; w.rsv 0 9; pure (.brx h ra)
  | 0x003 => do w.shapeIs .P; let h ← w.hd; let rd ← w.ldst; w.jctlIs 0; pure (.call h rd (BitVec.ofNat 32 w.imm32))
  | 0x004 => do w.shapeIs .P; let h ← w.hd; let rd ← w.ldst; let ra ← w.srcA; w.noB; w.noC; w.rsv 0 9; pure (.callx h rd ra)
  | 0x005 => do w.shapeIs .P; let h ← w.hd; w.noD; let ra ← w.srcA; w.noB; w.noC; w.rsv 0 9; pure (.ret h ra)
  | 0x006 => do w.shapeIs .P; let h ← w.hd; w.noD; w.noA; w.noB; w.noC; w.rsv 0 9; pure (.exit h)
  | 0x007 => do w.shapeIs .P; let h ← w.hd; w.noD; w.noA; w.noB; w.noC; w.rsv 0 9; pure (.waitl h)
  | 0x008 => do w.shapeIs .P; let h ← w.hd; w.noD; w.noA; w.noB; w.noC; w.rsv 0 9; pure (.yield h)
  | 0x009 => do w.shapeIs .P; let h ← w.hd; w.noD; w.jctlIs 0; let n ← w.trapNo; pure (.trap h n)
  | 0x00A => do w.shapeIs .P; let h ← w.hd; w.noD; w.noA; w.noB; w.noC; w.rsv 0 9; pure (.bkpt h)
  | 0x00B => do w.shapeIs .P; let h ← w.hd; let rd ← w.ldst; w.noA; w.noB; w.noC; let reg ← w.fld 0 9 (finOf 512); pure (.srd h rd reg)
  | 0x00C => do w.shapeIs .P; let h ← w.hd; w.noD; let ra ← w.srcA; w.noB; w.noC; let reg ← w.fld 0 9 (finOf 512); pure (.swr h ra reg)
  | 0x00D => do w.shapeIs .P; let h ← w.hd; w.noD; w.noA; w.noB; w.noC; w.rsv 0 9; pure (.develop h)
  | 0x00E => do w.shapeIs .P; let h ← w.hd; w.noD; let ra ← w.srcA; w.noB; w.noC; w.rsv 0 9; pure (.budget h ra)
  | 0x00F => do w.shapeIs .P; let h ← w.hd; let rd ← w.launchRd; let opt ← w.launchOpt; pure (.launch h rd opt)
  | 0x03F => pure (.ill (BitVec.ofNat 53 w.rest))
  | _ => .error .opcode

/-- The integer, predicate and immediate opcodes of R41. -/
def decInt (w : Raw) : Dec Instr :=
  match w.op with
  | 0x040 => do w.shapeIs .P; let h ← w.hd; let rd ← w.dst; let ra ← w.srcA; let rb ← w.srcB; w.noC; w.rsv 0 8; pure (.iadd h rd ra rb)
  | 0x041 => do w.shapeIs .P; let h ← w.hd; let rd ← w.dst; let ra ← w.srcA; let rb ← w.srcB; w.noC; w.rsv 0 8; pure (.isub h rd ra rb)
  | 0x042 => do w.shapeIs .P; let h ← w.hd; let rd ← w.dst; let ra ← w.srcA; let rb ← w.srcB; w.noC; w.rsv 0 8; pure (.imul h rd ra rb)
  | 0x043 => do w.shapeIs .P; let h ← w.hd; let rd ← w.dst; let ra ← w.srcA; let rb ← w.srcB; w.noC; let sg ← w.fld 0 2 MulSign.ofCode; w.rsv 2 6; pure (.imulh h rd ra rb sg)
  | 0x044 => do w.shapeIs .P; let h ← w.hd; let rd ← w.dst; let ra ← w.srcA; let rb ← w.srcB; let rc ← w.srcC; w.rsv 0 8; pure (.imad h rd ra rb rc)
  | 0x045 => do w.shapeIs .P; let h ← w.hd; let rd ← w.dst; let ra ← w.srcA; let rb ← w.srcB; w.noC; let u ← w.fld 0 1 boolOf; w.rsv 1 7; pure (.imin h rd ra rb u)
  | 0x046 => do w.shapeIs .P; let h ← w.hd; let rd ← w.dst; let ra ← w.srcA; let rb ← w.srcB; w.noC; let u ← w.fld 0 1 boolOf; w.rsv 1 7; pure (.imax h rd ra rb u)
  | 0x047 => do w.shapeIs .P; let h ← w.hd; let rd ← w.dst; let ra ← w.srcA; w.noB; w.noC; w.rsv 0 8; pure (.iabs h rd ra)
  | 0x048 => do w.shapeIs .P; let h ← w.hd; let rd ← w.dst; let ra ← w.srcA; let rb ← w.srcB; w.noC; w.rsv 0 8; pure (.and h rd ra rb)
  | 0x049 => do w.shapeIs .P; let h ← w.hd; let rd ← w.dst; let ra ← w.srcA; let rb ← w.srcB; w.noC; w.rsv 0 8; pure (.or h rd ra rb)
  | 0x04A => do w.shapeIs .P; let h ← w.hd; let rd ← w.dst; let ra ← w.srcA; let rb ← w.srcB; w.noC; w.rsv 0 8; pure (.xor h rd ra rb)
  | 0x04B => do w.shapeIs .P; let h ← w.hd; let rd ← w.dst; let ra ← w.srcA; let rb ← w.srcB; w.noC; w.rsv 0 8; pure (.andn h rd ra rb)
  | 0x04C => do w.shapeIs .P; let h ← w.hd; let rd ← w.dst; let ra ← w.srcA; let rb ← w.srcB; w.noC; w.rsv 0 8; pure (.shl h rd ra rb)
  | 0x04D => do w.shapeIs .P; let h ← w.hd; let rd ← w.dst; let ra ← w.srcA; let rb ← w.srcB; w.noC; w.rsv 0 8; pure (.shr h rd ra rb)
  | 0x04E => do w.shapeIs .P; let h ← w.hd; let rd ← w.dst; let ra ← w.srcA; let rb ← w.srcB; w.noC; w.rsv 0 8; pure (.sar h rd ra rb)
  | 0x04F => do w.shapeIs .P; let h ← w.hd; let rd ← w.dst; let ra ← w.srcA; let rb ← w.srcB; w.noC; w.rsv 0 8; pure (.rotl h rd ra rb)
  | 0x050 => do w.shapeIs .P; let h ← w.hd; let rd ← w.dst; let ra ← w.srcA; let rb ← w.srcB; let rc ← w.srcC; let sg ← w.fld 0 1 boolOf; w.rsv 1 7; pure (.bfe h rd ra rb rc sg)
  | 0x051 => do w.shapeIs .P; let h ← w.hd; let rd ← w.dst; let ra ← w.srcA; let rb ← w.srcB; let rc ← w.srcC; w.rsv 0 8; pure (.bfi h rd ra rb rc)
  | 0x052 => do w.shapeIs .P; let h ← w.hd; let rd ← w.dst; let ra ← w.srcA; w.noB; w.noC; w.rsv 0 8; pure (.popc h rd ra)
  | 0x053 => do w.shapeIs .P; let h ← w.hd; let rd ← w.dst; let ra ← w.srcA; w.noB; w.noC; w.rsv 0 8; pure (.clz h rd ra)
  | 0x054 => do w.shapeIs .P; let h ← w.hd; let rd ← w.dst; let ra ← w.srcA; w.noB; w.noC; w.rsv 0 8; pure (.brev h rd ra)
  | 0x055 => do w.shapeIs .P; let h ← w.hd; let rd ← w.pd; let ra ← w.srcA; let rb ← w.srcB; w.noC; let cond ← w.fld 0 3 ICond.ofCode; let u ← w.fld 3 1 boolOf; w.rsv 4 5; pure (.icmp h rd ra rb cond u)
  | 0x056 => do let h ← w.hd; let sh ← w.shp; let rd ← w.dst; let ra ← w.srcA; let rb ← w.srcB; let rc ← w.predC; w.rsv 0 8; pure (.sel h sh rd ra rb rc)
  | 0x057 => do let h ← w.hd; let sh ← w.shp; let rd ← w.dst; let ra ← w.srcA; w.noB; w.noC; w.rsv 0 8; pure (.mov h sh rd ra)
  | 0x058 => do w.shapeIs .P; let h ← w.hd; let rd ← w.moviRd; pure (.movi h rd (BitVec.ofNat 32 w.imm32))
  | 0x059 => do w.shapeIs .P; let h ← w.hd; let rd ← w.dst; let ra ← w.baseA; let rb ← w.srcB; w.noC; let n ← w.fld 0 3 (finOf 8); let sx ← w.fld 3 1 boolOf; w.rsv 4 4; pure (.lea h rd ra rb n sx)
  | 0x05A => do w.shapeIs .P; let h ← w.hd; let rd ← w.pd; let ra ← w.predA; let rb ← w.predB; let rc ← w.predC; let table ← w.fld 0 8 (finOf 256); w.rsv 8 1; pure (.plop h rd ra rb rc table)
  | 0x05B => do w.shapeIs .P; let h ← w.hd; let rd ← w.pd; let ra ← w.srcA; w.noB; w.noC; let t ← w.fld 0 9 PTest.ofCode; pure (.pset h rd ra t)
  | 0x060 => do w.shapeIs .P; let h ← w.hd; let rd ← w.ldst; let ra ← w.lsrcA; pure (.iaddImm h rd ra (BitVec.ofNat 28 w.imm28))
  | 0x061 => do w.shapeIs .P; let h ← w.hd; let rd ← w.ldst; let ra ← w.lsrcA; pure (.imulImm h rd ra (BitVec.ofNat 28 w.imm28))
  | 0x062 => do w.shapeIs .P; let h ← w.hd; let rd ← w.ldst; let ra ← w.lsrcA; pure (.andImm h rd ra (BitVec.ofNat 28 w.imm28))
  | 0x063 => do w.shapeIs .P; let h ← w.hd; let rd ← w.ldst; let ra ← w.lsrcA; pure (.orImm h rd ra (BitVec.ofNat 28 w.imm28))
  | 0x064 => do w.shapeIs .P; let h ← w.hd; let rd ← w.ldst; let ra ← w.lsrcA; pure (.xorImm h rd ra (BitVec.ofNat 28 w.imm28))
  | 0x065 => do w.shapeIs .P; let h ← w.hd; let rd ← w.ldst; let ra ← w.lsrcA; pure (.shlImm h rd ra (BitVec.ofNat 28 w.imm28))
  | 0x066 => do w.shapeIs .P; let h ← w.hd; let rd ← w.ldst; let ra ← w.lsrcA; pure (.shrImm h rd ra (BitVec.ofNat 28 w.imm28))
  | 0x067 => do w.shapeIs .P; let h ← w.hd; let rd ← w.ldst; let ra ← w.lsrcA; pure (.sarImm h rd ra (BitVec.ofNat 28 w.imm28))
  | _ => .error .opcode

/-- The float opcodes of R41. -/
def decFlt (w : Raw) : Dec Instr :=
  match w.op with
  | 0x080 => do let h ← w.hd; let sh ← w.shp; let rd ← w.ldst; let ra ← w.srcA; let rb ← w.srcB; w.noC; let rm ← w.fld 0 3 Rm.ofCode; w.rsv 3 6; pure (.fadd h sh rd ra rb rm)
  | 0x081 => do let h ← w.hd; let sh ← w.shp; let rd ← w.ldst; let ra ← w.srcA; let rb ← w.srcB; w.noC; let rm ← w.fld 0 3 Rm.ofCode; w.rsv 3 6; pure (.fsub h sh rd ra rb rm)
  | 0x082 => do let h ← w.hd; let sh ← w.shp; let rd ← w.ldst; let ra ← w.srcA; let rb ← w.srcB; w.noC; let rm ← w.fld 0 3 Rm.ofCode; let sec ← w.fld 3 2 Sec.ofCode; w.rsv 5 4; pure (.fmul h sh rd ra rb rm sec)
  | 0x083 => do let h ← w.hd; let sh ← w.shp; let rd ← w.ldst; let ra ← w.srcA; let rb ← w.srcB; let rc ← w.srcC; let rm ← w.fld 0 3 Rm.ofCode; let sec ← w.fld 3 2 Sec.ofCode; w.rsv 5 4; pure (.ffma h sh rd ra rb rc rm sec)
  | 0x084 => do let h ← w.hd; let sh ← w.shp; let rd ← w.ldst; let ra ← w.srcA; let rb ← w.srcB; w.noC; let rm ← w.fld 0 3 Rm.ofCode; w.rsv 3 6; pure (.fmin h sh rd ra rb rm)
  | 0x085 => do let h ← w.hd; let sh ← w.shp; let rd ← w.ldst; let ra ← w.srcA; let rb ← w.srcB; w.noC; let rm ← w.fld 0 3 Rm.ofCode; w.rsv 3 6; pure (.fmax h sh rd ra rb rm)
  | 0x086 => do let h ← w.hd; let sh ← w.shp; let rd ← w.pd; let ra ← w.srcA; let rb ← w.srcB; w.noC; let cond ← w.fld 0 3 FCond.ofCode; w.rsv 3 6; pure (.fcmp h sh rd ra rb cond)
  | 0x087 => do let h ← w.hd; let sh ← w.shp; let rd ← w.ldst; let ra ← w.srcA; w.noB; w.noC; let rm ← w.fld 0 3 Rm.ofCode; w.rsv 3 6; pure (.frelu h sh rd ra rm)
  | 0x088 => do let h ← w.hd; let sh ← w.shp; let rd ← w.ldst; let ra ← w.srcA; w.noB; w.noC; let rm ← w.fld 0 3 Rm.ofCode; w.rsv 3 6; pure (.fsqrelu h sh rd ra rm)
  | 0x089 => do let h ← w.hd; let sh ← w.shp; let rd ← w.ldst; let ra ← w.srcA; w.noB; w.noC; w.rsv 0 9; pure (.fclass h sh rd ra)
  | _ => .error .opcode

/-- The conversion and special function opcodes of R41. -/
def decFun (w : Raw) : Dec Instr :=
  match w.op with
  | 0x100 => do let h ← w.hd; let sh ← w.shp; let rd ← w.ldst; let ra ← w.srcA; w.nosel 25; w.nosel 26; let dst ← w.code 8 Fmt.ofCode; let src ← w.code 16 Fmt.ofCode; let rm ← w.fld 0 3 Rm.ofCode; w.rsv 3 6; pure (.cvt h sh rd ra dst src rm)
  | 0x101 => do let h ← w.hd; let sh ← w.shp; let rd ← w.ldst; let ra ← w.srcA; w.noB; w.noC; let rm ← w.fld 0 3 Rm.ofCode; let f ← w.fld 5 4 EFmt.ofCode; w.rsv 3 2; pure (.qpk h sh rd ra rm f)
  | 0x102 => do w.shapeIs .P; let h ← w.hd; let rd ← w.ldst; let ra ← w.srcA; w.noB; w.noC; let f ← w.fld 0 4 EFmt.ofCode; w.rsv 4 5; pure (.qupk h rd ra f)
  | 0x108 => do let h ← w.hd; let sh ← w.shp; let rd ← w.ldst; let ra ← w.srcA; w.noB; w.noC; let rm ← w.fld 0 3 Rm.ofCode; w.rsv 3 6; pure (.frcp h sh rd ra rm)
  | 0x109 => do let h ← w.hd; let sh ← w.shp; let rd ← w.ldst; let ra ← w.srcA; let rb ← w.srcB; w.noC; let rm ← w.fld 0 3 Rm.ofCode; w.rsv 3 6; pure (.fdiv h sh rd ra rb rm)
  | 0x10A => do let h ← w.hd; let sh ← w.shp; let rd ← w.ldst; let ra ← w.srcA; w.noB; w.noC; let rm ← w.fld 0 3 Rm.ofCode; w.rsv 3 6; pure (.fsqrt h sh rd ra rm)
  | 0x10B => do let h ← w.hd; let sh ← w.shp; let rd ← w.ldst; let ra ← w.srcA; w.noB; w.noC; let rm ← w.fld 0 3 Rm.ofCode; w.rsv 3 6; pure (.frsq h sh rd ra rm)
  | 0x10C => do let h ← w.hd; let sh ← w.shp; let rd ← w.ldst; let ra ← w.srcA; w.noB; w.noC; let rm ← w.fld 0 3 Rm.ofCode; w.rsv 3 6; pure (.fexp2 h sh rd ra rm)
  | 0x10D => do let h ← w.hd; let sh ← w.shp; let rd ← w.ldst; let ra ← w.srcA; w.noB; w.noC; let rm ← w.fld 0 3 Rm.ofCode; w.rsv 3 6; pure (.flog2 h sh rd ra rm)
  | 0x10E => do let h ← w.hd; let sh ← w.shp; let rd ← w.ldst; let ra ← w.srcA; w.noB; w.noC; let rm ← w.fld 0 3 Rm.ofCode; w.rsv 3 6; pure (.fsinpi h sh rd ra rm)
  | 0x10F => do let h ← w.hd; let sh ← w.shp; let rd ← w.ldst; let ra ← w.srcA; w.noB; w.noC; let rm ← w.fld 0 3 Rm.ofCode; w.rsv 3 6; pure (.fcospi h sh rd ra rm)
  | 0x110 => do let h ← w.hd; let sh ← w.shp; let rd ← w.ldst; let ra ← w.srcA; w.noB; w.noC; let rm ← w.fld 0 3 Rm.ofCode; w.rsv 3 6; pure (.ftanh h sh rd ra rm)
  | 0x111 => do let h ← w.hd; let sh ← w.shp; let rd ← w.ldst; let ra ← w.srcA; w.noB; w.noC; let rm ← w.fld 0 3 Rm.ofCode; w.rsv 3 6; pure (.fsigm h sh rd ra rm)
  | _ => .error .opcode

/-- The moment opcodes of R41. -/
def decMom (w : Raw) : Dec Instr :=
  match w.op with
  | 0x140 => do let h ← w.hd; let sh ← w.shp; let rd ← w.ldst; let ra ← w.srcA; let rb ← w.srcB; w.noC; w.rsv 0 9; pure (.mmk h sh rd ra rb)
  | 0x141 => do let h ← w.hd; let sh ← w.shp; let rd ← w.ldst; let ra ← w.srcA; w.noB; w.noC; w.rsv 0 9; pure (.mspl h sh rd ra)
  | 0x142 => do let h ← w.hd; let sh ← w.shp; let rd ← w.ldst; let ra ← w.srcA; let rb ← w.srcB; w.noC; w.rsv 0 9; pure (.maddv h sh rd ra rb)
  | 0x143 => do w.shapeIs .Q; let h ← w.hd; let rd ← w.ldst; let ra ← w.srcA; let rb ← w.srcB; w.noC; let neg ← w.fld 0 1 boolOf; w.rsv 1 8; pure (.mtag h rd ra rb neg)
  | 0x144 => do w.shapeIs .Q; let h ← w.hd; let rd ← w.ldst; let ra ← w.srcA; let rb ← w.srcB; w.noC; w.rsv 0 9; pure (.mcov h rd ra rb)
  | 0x145 => do w.shapeIs .Q; let h ← w.hd; let rd ← w.ldst; let ra ← w.srcA; w.noB; w.noC; let sel ← w.fld 0 2 FoldSel.ofCode; w.rsv 2 7; pure (.mfold h rd ra sel)
  | 0x146 => do w.shapeIs .S; let h ← w.hd; let rd ← w.ldst; let ra ← w.srcA; w.noB; w.noC; w.rsv 0 9; pure (.sdraw h rd ra)
  | 0x147 => do w.shapeIs .S; let h ← w.hd; let rd ← w.ldst; let ra ← w.srcA; w.noB; w.noC; w.rsv 0 9; pure (.sstat h rd ra)
  | _ => .error .opcode

/-- The lane network opcodes of R41. -/
def decNet (w : Raw) : Dec Instr :=
  match w.op with
  | 0x180 => do let h ← w.hd; let sh ← w.shp; let rd ← w.ldst; let ra ← w.srcA; let rb ← w.srcB; w.noC; let m ← w.fld 0 2 ShMode.ofCode; let wl ← w.fld 2 3 (finOf 6); w.rsv 5 4; pure (.shfl h sh rd ra rb m wl)
  | 0x181 => do w.shapeIs .P; let h ← w.hd; let rd ← w.ldst; let ra ← w.predA; w.noB; w.noC; let m ← w.fld 0 2 VoteMode.ofCode; w.rsv 2 7; pure (.vote h rd ra m)
  | 0x182 => do let h ← w.hd; let sh ← w.shp; let rd ← w.ldst; let ra ← w.srcA; w.noB; w.noC; let op ← w.fld 0 4 RedOp.ofCode; let wl ← w.fld 4 3 (finOf 6); w.rsv 7 2; pure (.lred h sh rd ra op wl)
  | 0x183 => do let h ← w.hd; let sh ← w.shp; let rd ← w.ldst; let ra ← w.srcA; w.noB; w.noC; let op ← w.fld 0 4 RedOp.ofCode; let wl ← w.fld 4 3 (finOf 6); let x ← w.fld 7 1 boolOf; w.rsv 8 1; pure (.lscn h sh rd ra op wl x)
  | 0x184 => do w.shapeIs .P; let h ← w.hd; let rd ← w.ldst; let ra ← w.srcA; w.noB; w.noC; w.rsv 0 9; pure (.match h rd ra)
  | 0x185 => do let h ← w.hd; let sh ← w.shp; let rd ← w.ldst; let ra ← w.srcA; w.noB; w.noC; w.rsv 0 9; pure (.vrd h sh rd ra)
  | 0x186 => do let h ← w.hd; let sh ← w.shp; w.noD; let ra ← w.srcA; let rb ← w.srcB; w.noC; w.rsv 0 9; pure (.vwr h sh ra rb)
  | _ => .error .opcode

/-- The Grain opcodes of R41. -/
def decGrn (w : Raw) : Dec Instr :=
  match w.op with
  | 0x1A0 => do w.shapeIs .P; let h ← w.hd; w.noD; let ra ← w.srcA; w.noC; let sl ← w.fld 0 2 (finOf 4); let form ← w.seedForm; w.rsv 4 5; pure (.gseed h ra sl form)
  | 0x1A1 => do let h ← w.hd; let sh ← w.shp; let rd ← w.ldst; w.noA; w.noB; w.noC; let sl ← w.fld 0 2 (finOf 4); let form ← w.fld 2 2 UniForm.ofCode; w.rsv 4 5; pure (.guni h sh rd sl form)
  | 0x1A2 => do let h ← w.hd; let sh ← w.shp; let rd ← w.ldst; w.noA; w.noB; w.noC; let sl ← w.fld 0 2 (finOf 4); w.rsv 2 7; pure (.gnorm h sh rd sl)
  | 0x1A3 => do let h ← w.hd; let sh ← w.shp; let rd ← w.ldst; w.noA; w.noB; w.noC; let sl ← w.fld 0 2 (finOf 4); w.rsv 2 7; pure (.ggum h sh rd sl)
  | 0x1A4 => do w.shapeIs .P; let h ← w.hd; let rd ← w.ldst; let ra ← w.srcA; w.noB; w.noC; let sl ← w.fld 0 2 (finOf 4); w.rsv 2 7; pure (.gber h rd ra sl)
  | 0x1A5 => do w.shapeIs .P; let h ← w.hd; let rd ← w.ldst; let ra ← w.srcA; w.noB; w.noC; let sl ← w.fld 0 2 (finOf 4); w.rsv 2 7; pure (.gcat h rd ra sl)
  | _ => .error .opcode

/-- The memory opcodes of R41. -/
def decMem (w : Raw) : Dec Instr :=
  match w.op with
  | 0x1C0 => do w.shapeIs .P; let h ← w.hd; let rd ← w.ldst; let ra ← w.memBase; let wd ← w.memF 36 3 Width.ofCode; let sc ← w.memF 39 3 Scope.ofCode; let esc ← w.memF 42 1 boolOf; let sx ← w.memF 43 1 boolOf; w.mem44; pure (.ld h rd ra wd sc esc sx (BitVec.ofNat 18 w.memOff))
  | 0x1C1 => do w.shapeIs .P; let h ← w.hd; let rd ← w.rdSrc; let ra ← w.memBase; let wd ← w.memF 36 3 Width.ofCode; let sc ← w.memF 39 3 Scope.ofCode; let esc ← w.memF 42 1 boolOf; w.mem43; w.mem44; pure (.st h rd ra wd sc esc (BitVec.ofNat 18 w.memOff))
  | 0x1C2 => do w.shapeIs .M; let h ← w.hd; let rd ← w.ldst; let ra ← w.baseA; let rb ← w.srcB; w.noC; let sc ← w.fld 0 3 Scope.ofCode; let esc ← w.fld 3 1 boolOf; w.rsv 4 5; pure (.ldp h rd ra rb sc esc)
  | 0x1C3 => do w.shapeIs .M; let h ← w.hd; let rd ← w.rdSrc; let ra ← w.baseA; let rb ← w.srcB; w.noC; let sc ← w.fld 0 3 Scope.ofCode; let esc ← w.fld 3 1 boolOf; w.rsv 4 5; pure (.stp h rd ra rb sc esc)
  | 0x1C4 => do w.shapeIs .P; let h ← w.hd; let ra ← w.baseA; let rb ← w.srcB; let op ← w.atomOp; let nr ← w.fld 5 1 boolOf; let rd ← w.atomRd nr; w.rsv 6 3; pure (.atom h op rd ra rb)
  | 0x1C5 => do w.shapeIs .P; let h ← w.hd; w.noD; w.noA; w.noB; w.noC; let k ← w.fld 0 2 FenceKind.ofCode; let sc ← w.fld 2 3 Scope.ofCode; let paths ← w.fld 5 4 Paths.ofCode; pure (.fence h k sc paths)
  | 0x1C6 => do w.shapeIs .P; let h ← w.hd; w.noD; let ra ← w.baseA; let rb ← w.srcB; w.noC; w.rsv 3 6; cctlOf (w.m 0 3) h ra rb
  | 0x1C7 => do w.shapeIs .P; let h ← w.hd; w.noD; w.noA; w.noB; w.noC; let pn ← w.fld 0 3 (finOf 7); w.rsv 3 6; pure (.txbeg h pn)
  | 0x1C8 => do w.shapeIs .P; let h ← w.hd; let rd ← w.pd; w.noA; w.noB; w.noC; w.rsv 0 9; pure (.txend h rd)
  | 0x1C9 => do w.shapeIs .P; let h ← w.hd; w.noD; w.noA; w.noB; w.noC; w.rsv 0 9; pure (.txabt h)
  | _ => .error .opcode

/-- The copy, barrier and tile opcodes of R41. -/
def decEng (w : Raw) : Dec Instr :=
  match w.op with
  | 0x1E0 => do w.shapeIs .P; let h ← w.hd; w.noD; let ra ← w.baseA; let rb ← w.baseB; w.noC; let n ← w.fld 0 2 CpySize.ofCode; let j ← w.fld 2 4 (finOf 16); let esc ← w.fld 6 1 boolOf; let na ← w.fld 7 1 boolOf; w.rsv 8 1; pure (.cpy h ra rb n j esc na)
  | 0x1E1 => do w.shapeIs .P; let h ← w.hd; w.noD; let ra ← w.gA; w.noB; w.noC; let j ← w.fld 0 4 (finOf 16); let esc ← w.fld 4 1 boolOf; w.rsv 5 4; pure (.cpyb h ra j esc)
  | 0x1E2 => do w.shapeIs .P; let h ← w.hd; w.noD; let ra ← w.srcA; w.noB; w.noC; let j ← w.fld 0 4 (finOf 16); w.rsv 4 5; pure (.binit h ra j)
  | 0x1E3 => do w.shapeIs .P; let h ← w.hd; w.noD; w.noA; w.noB; w.noC; let j ← w.fld 0 4 (finOf 16); w.rsv 4 5; pure (.barv h j)
  | 0x1E4 => do w.shapeIs .P; let h ← w.hd; w.noD; let ra ← w.srcA; w.noB; w.noC; let j ← w.fld 0 4 (finOf 16); let dec ← w.fld 4 1 boolOf; w.rsv 5 4; pure (.bexp h ra j dec)
  | 0x1E5 => do w.shapeIs .P; let h ← w.hd; w.noD; w.noA; w.noB; w.noC; let j ← w.fld 0 4 (finOf 16); let q ← w.fld 4 1 boolOf; w.rsv 5 4; pure (.bwait h j q)
  | 0x1E6 => do w.shapeIs .P; let h ← w.hd; let rd ← w.pd; w.noA; w.noB; w.noC; let j ← w.fld 0 4 (finOf 16); let form ← w.fld 4 2 BTestForm.ofCode; w.rsv 6 3; pure (.btest h rd j form)
  | 0x1E7 => do w.shapeIs .P; let h ← w.hd; w.noD; w.noA; w.noB; w.noC; let j ← w.fld 0 4 (finOf 16); w.rsv 4 5; pure (.bsync h j)
  | 0x1F0 => do w.shapeIs .P; let h ← w.hd; w.noD; let ra ← w.gA; w.noB; w.noC; let k ← w.fld 0 2 (finOf 4); let j ← w.fld 2 4 (finOf 16); let mode ← w.fld 6 2 LoopMode.ofCode; let z ← w.fld 8 1 boolOf; pure (.tloop h ra k j mode z)
  | 0x1F1 => do w.shapeIs .P; let h ← w.hd; w.noD; let ra ← w.gA; w.noB; w.noC; let pts ← w.fld 0 2 HadPts.ofCode; let j ← w.fld 2 4 (finOf 16); let sr ← w.fld 6 1 boolOf; w.rsv 7 2; pure (.thad h ra pts j sr)
  | 0x1F2 => do let h ← w.hd; let k ← w.fld 0 2 (finOf 4); w.noB; w.noC; w.rsv 5 4; w.tacc h k
  | 0x1F3 => do w.shapeIs .P; let h ← w.hd; w.noD; let ra ← w.gA; w.noB; w.noC; let k ← w.fld 0 2 (finOf 4); let j ← w.fld 2 4 (finOf 16); let sr ← w.fld 6 1 boolOf; let vr ← w.fld 7 1 boolOf; w.rsv 8 1; pure (.tqnt h ra k j sr vr)
  | _ => .error .opcode

/-- A 64-bit word by its opcode (R41). -/
def dec64 (w : Raw) : Dec Instr :=
  if w.op < 0x040 then decCtl w else
  if w.op < 0x080 then decInt w else
  if w.op < 0x100 then decFlt w else
  if w.op < 0x140 then decFun w else
  if w.op < 0x180 then decMom w else
  if w.op < 0x1A0 then decNet w else
  if w.op < 0x1C0 then decGrn w else
  if w.op < 0x1E0 then decMem w else
  decEng w
/-- A compact form (R22, R43). -/
def dec16 (w : Nat) : Dec Instr :=
  let d16 := fun w : Nat => Fin.ofNat 64 (w / 32)
  match w / 2 % 16 with
  | 0 => pure (.movC16 (d16 w) (CSrc.ofCode (w / 2048)))
  | 1 => pure (.iaddC16 (d16 w) (CSrc.ofCode (w / 2048)))
  | 2 => pure (.isubC16 (d16 w) (CSrc.ofCode (w / 2048)))
  | 3 => pure (.andC16 (d16 w) (CSrc.ofCode (w / 2048)))
  | 4 => pure (.orC16 (d16 w) (CSrc.ofCode (w / 2048)))
  | 5 => pure (.xorC16 (d16 w) (CSrc.ofCode (w / 2048)))
  | 6 => pure (.shlC16 (d16 w) (CSrc.ofCode (w / 2048)))
  | 7 => pure (.shrC16 (d16 w) (CSrc.ofCode (w / 2048)))
  | 8 => pure (.iaddiC16 (d16 w) (BitVec.ofNat 5 (w / 2048)))
  | 9 => pure (.moviC16 (d16 w) (BitVec.ofNat 5 (w / 2048)))
  | 10 => pure (.faddC16 (d16 w) (CSrc.ofCode (w / 2048)))
  | 11 => pure (.fmulC16 (d16 w) (CSrc.ofCode (w / 2048)))
  | 12 => pure (.faddMC16 (d16 w) (CSrc.ofCode (w / 2048)))
  | 13 => pure (.fmulMC16 (d16 w) (CSrc.ofCode (w / 2048)))
  | 14 => pure (.braS (BitVec.ofNat 11 (w / 32)))
  | 15 => if w / 32 = 0 then pure .nopC16 else .error .shortForm
  | _ => .error .shortForm

/-- The S32 fields that not every operation permits (R44). -/
def s32St (w : Nat) : Fin 4 := Fin.ofNat 4 (w / 2 ^ 8)
def s32M (w : Nat) : Bool := w / 2 ^ 7 % 2 == 1
def s32P (w : Nat) : Dec Unit := if w / 2 ^ 7 % 2 = 0 then .ok () else .error .shortForm
def s32U (w : Nat) : Dec Unit := if w / 2 ^ 26 = 0 then .ok () else .error .shortForm

/-- A short form (R23, R44). -/
def dec32 (w : Nat) : Dec Instr :=
  match w / 4 % 32 with
  | 0 => do s32P w; let rd ← ldstOf (w / 2 ^ 10 % 256); let ra ← lsrcOf (w / 2 ^ 18 % 256); pure (.iaddS32 (s32St w) rd ra (SSrc.ofCode (w / 2 ^ 26)))
  | 1 => do s32P w; let rd ← ldstOf (w / 2 ^ 10 % 256); let ra ← lsrcOf (w / 2 ^ 18 % 256); pure (.isubS32 (s32St w) rd ra (SSrc.ofCode (w / 2 ^ 26)))
  | 2 => do s32P w; let rd ← ldstOf (w / 2 ^ 10 % 256); let ra ← lsrcOf (w / 2 ^ 18 % 256); pure (.imulS32 (s32St w) rd ra (SSrc.ofCode (w / 2 ^ 26)))
  | 3 => do s32P w; let rd ← ldstOf (w / 2 ^ 10 % 256); let ra ← lsrcOf (w / 2 ^ 18 % 256); pure (.imulhS32 (s32St w) rd ra (SSrc.ofCode (w / 2 ^ 26)))
  | 4 => do s32P w; let rd ← ldstOf (w / 2 ^ 10 % 256); let ra ← lsrcOf (w / 2 ^ 18 % 256); pure (.iminS32 (s32St w) rd ra (SSrc.ofCode (w / 2 ^ 26)))
  | 5 => do s32P w; let rd ← ldstOf (w / 2 ^ 10 % 256); let ra ← lsrcOf (w / 2 ^ 18 % 256); pure (.imaxS32 (s32St w) rd ra (SSrc.ofCode (w / 2 ^ 26)))
  | 6 => do s32P w; let rd ← ldstOf (w / 2 ^ 10 % 256); let ra ← lsrcOf (w / 2 ^ 18 % 256); pure (.andS32 (s32St w) rd ra (SSrc.ofCode (w / 2 ^ 26)))
  | 7 => do s32P w; let rd ← ldstOf (w / 2 ^ 10 % 256); let ra ← lsrcOf (w / 2 ^ 18 % 256); pure (.orS32 (s32St w) rd ra (SSrc.ofCode (w / 2 ^ 26)))
  | 8 => do s32P w; let rd ← ldstOf (w / 2 ^ 10 % 256); let ra ← lsrcOf (w / 2 ^ 18 % 256); pure (.xorS32 (s32St w) rd ra (SSrc.ofCode (w / 2 ^ 26)))
  | 9 => do s32P w; let rd ← ldstOf (w / 2 ^ 10 % 256); let ra ← lsrcOf (w / 2 ^ 18 % 256); pure (.andnS32 (s32St w) rd ra (SSrc.ofCode (w / 2 ^ 26)))
  | 10 => do s32P w; let rd ← ldstOf (w / 2 ^ 10 % 256); let ra ← lsrcOf (w / 2 ^ 18 % 256); pure (.shlS32 (s32St w) rd ra (SSrc.ofCode (w / 2 ^ 26)))
  | 11 => do s32P w; let rd ← ldstOf (w / 2 ^ 10 % 256); let ra ← lsrcOf (w / 2 ^ 18 % 256); pure (.shrS32 (s32St w) rd ra (SSrc.ofCode (w / 2 ^ 26)))
  | 12 => do s32P w; let rd ← ldstOf (w / 2 ^ 10 % 256); let ra ← lsrcOf (w / 2 ^ 18 % 256); pure (.sarS32 (s32St w) rd ra (SSrc.ofCode (w / 2 ^ 26)))
  | 13 => do s32P w; let rd ← ldstOf (w / 2 ^ 10 % 256); let ra ← lsrcOf (w / 2 ^ 18 % 256); pure (.rotlS32 (s32St w) rd ra (SSrc.ofCode (w / 2 ^ 26)))
  | 14 => do let rd ← ldstOf (w / 2 ^ 10 % 256); let ra ← lsrcOf (w / 2 ^ 18 % 256); pure (.faddS32 (s32St w) (s32M w) rd ra (SSrc.ofCode (w / 2 ^ 26)))
  | 15 => do let rd ← ldstOf (w / 2 ^ 10 % 256); let ra ← lsrcOf (w / 2 ^ 18 % 256); pure (.fsubS32 (s32St w) (s32M w) rd ra (SSrc.ofCode (w / 2 ^ 26)))
  | 16 => do let rd ← ldstOf (w / 2 ^ 10 % 256); let ra ← lsrcOf (w / 2 ^ 18 % 256); pure (.fmulS32 (s32St w) (s32M w) rd ra (SSrc.ofCode (w / 2 ^ 26)))
  | 17 => do let rd ← ldstOf (w / 2 ^ 10 % 256); let ra ← lsrcOf (w / 2 ^ 18 % 256); pure (.fminS32 (s32St w) (s32M w) rd ra (SSrc.ofCode (w / 2 ^ 26)))
  | 18 => do let rd ← ldstOf (w / 2 ^ 10 % 256); let ra ← lsrcOf (w / 2 ^ 18 % 256); pure (.fmaxS32 (s32St w) (s32M w) rd ra (SSrc.ofCode (w / 2 ^ 26)))
  | 19 => do let rd ← ldstOf (w / 2 ^ 10 % 256); let ra ← lsrcOf (w / 2 ^ 18 % 256); pure (.fdivS32 (s32St w) (s32M w) rd ra (SSrc.ofCode (w / 2 ^ 26)))
  | 20 => do s32U w; let rd ← ldstOf (w / 2 ^ 10 % 256); let ra ← lsrcOf (w / 2 ^ 18 % 256); pure (.movS32 (s32St w) (s32M w) rd ra)
  | 21 => do s32P w; s32U w; let rd ← ldstOf (w / 2 ^ 10 % 256); let ra ← lsrcOf (w / 2 ^ 18 % 256); pure (.popcS32 (s32St w) rd ra)
  | 22 => do s32P w; s32U w; let rd ← ldstOf (w / 2 ^ 10 % 256); let ra ← lsrcOf (w / 2 ^ 18 % 256); pure (.clzS32 (s32St w) rd ra)
  | 23 => do s32U w; let rd ← ldstOf (w / 2 ^ 10 % 256); let ra ← lsrcOf (w / 2 ^ 18 % 256); pure (.freluS32 (s32St w) (s32M w) rd ra)
  | 24 => do s32U w; let rd ← ldstOf (w / 2 ^ 10 % 256); let ra ← lsrcOf (w / 2 ^ 18 % 256); pure (.fsqreluS32 (s32St w) (s32M w) rd ra)
  | 25 => do s32U w; let rd ← ldstOf (w / 2 ^ 10 % 256); let ra ← lsrcOf (w / 2 ^ 18 % 256); pure (.frcpS32 (s32St w) (s32M w) rd ra)
  | 26 => do s32U w; let rd ← ldstOf (w / 2 ^ 10 % 256); let ra ← lsrcOf (w / 2 ^ 18 % 256); pure (.fsqrtS32 (s32St w) (s32M w) rd ra)
  | 27 => do s32U w; let rd ← ldstOf (w / 2 ^ 10 % 256); let ra ← lsrcOf (w / 2 ^ 18 % 256); pure (.frsqS32 (s32St w) (s32M w) rd ra)
  | 28 => do s32U w; let rd ← ldstOf (w / 2 ^ 10 % 256); let ra ← lsrcOf (w / 2 ^ 18 % 256); pure (.fexp2S32 (s32St w) (s32M w) rd ra)
  | 29 => do s32U w; let rd ← ldstOf (w / 2 ^ 10 % 256); let ra ← lsrcOf (w / 2 ^ 18 % 256); pure (.flog2S32 (s32St w) (s32M w) rd ra)
  | 30 => do s32U w; let rd ← ldstOf (w / 2 ^ 10 % 256); let ra ← lsrcOf (w / 2 ^ 18 % 256); pure (.ftanhS32 (s32St w) (s32M w) rd ra)
  | 31 => do s32U w; let rd ← ldstOf (w / 2 ^ 10 % 256); let ra ← lsrcOf (w / 2 ^ 18 % 256); pure (.fsigmS32 (s32St w) (s32M w) rd ra)
  | _ => .error .shortForm

/-- The length in bytes that the first halfword's low bits fix (R19). -/
def lengthOf (b : Byte) : Nat :=
  match b.toNat % 4 with
  | 1 => 4
  | 3 => 8
  | _ => 2

/-- The little-endian number of a list of bytes (R6). -/
def leNat : List Byte → Nat
  | [] => 0
  | b :: bs => b.toNat + 256 * leNat bs

/-- The first `n` little-endian bytes of a number. -/
def leBytes : Nat → Nat → List Byte
  | 0, _ => []
  | n + 1, w => BitVec.ofNat 8 w :: leBytes n (w / 256)

/-- The instruction that a word of the given length encodes (R19, R41, R45). -/
def decodeWord (len w : Nat) : Dec Instr := do
  let i ← match len with
    | 2 => dec16 w
    | 4 => dec32 w
    | _ => dec64 (rawOf w)
  match i.check with
  | .ok () => pure i
  | .error e => .error (.illFormed e)

/-- The instruction at the head of a list of bytes, and its length in bytes. -/
def decode (bs : List Byte) : Dec (Instr × Nat) :=
  match bs with
  | [] => .error .truncated
  | b :: _ =>
    let len := lengthOf b
    if bs.length < len then .error .truncated
    else do let i ← decodeWord len (leNat (bs.take len)); pure (i, len)

/-- The decoder on a table word: the word's bytes as the device stores them, with the bits above it zero. -/
def decodeTableWord (nbits w : Nat) : Option Instr :=
  match decode (leBytes 8 (w % 2 ^ nbits)) with
  | .ok (i, _) => some i
  | .error _ => none

/-! The encoder. -/

/-- A G64 word's fields (R24). -/
def g64 (op shape : Nat) (h : Hd) (rd ra sa rb sb rc sc md : Nat) : Raw :=
  { op, shape, stall := h.stall.val, gp := h.gp.val, gn := h.gn.toNat, rd,
    hi := ra + 256 * rb + 65536 * rc + 16777216 * sa + 33554432 * sb + 67108864 * sc + 134217728 * md }

/-- An I64 word's fields (R25). -/
def i64 (op : Nat) (h : Hd) (rd ra imm : Nat) : Raw :=
  { op, shape := 0, stall := h.stall.val, gp := h.gp.val, gn := h.gn.toNat, rd, hi := ra + 256 * imm }

/-- A J64 word's fields (R26). -/
def j64 (op : Nat) (h : Hd) (rd jctl imm : Nat) : Raw :=
  { op, shape := 0, stall := h.stall.val, gp := h.gp.val, gn := h.gn.toNat, rd, hi := jctl + 16 * imm }

/-- A memory form's fields (R25). -/
def m64 (op : Nat) (h : Hd) (rd : Nat) (ra : Base) (wd : Width) (sc : Scope) (esc sx : Bool) (off : BitVec 18) : Raw :=
  { op, shape := 0, stall := h.stall.val, gp := h.gp.val, gn := h.gn.toNat, rd,
    hi := ra.code + 256 * wd.code + 2048 * sc.code + 16384 * esc.toNat + 32768 * sx.toNat + 131072 * ra.sel
      + 262144 * off.toNat }

/-- A compact form's halfword (R22). -/
def c16 (op d b : Nat) : Nat := 2 * op + 32 * d + 2048 * b

/-- A short form's word (R23). -/
def s32 (op : Nat) (st : Fin 4) (m : Bool) (rd : LDst) (ra : LSrc) (rb : Nat) : Nat :=
  1 + 4 * op + 128 * m.toNat + 256 * st.val + 1024 * rd.code + 262144 * ra.code + 67108864 * rb

/-- The rc field of ATOM (R199). -/
def AtomOp.rc : AtomOp → Nat × Nat
  | .cas y => (y.code, y.sel) | .addb y => (y.code, y.sel) | _ => (0, 0)
def atomRdCode : Option LDst → Nat
  | some d => d.code | none => 0
/-- The rb field of GSEED (R161). -/
def SeedForm.rb : SeedForm → Nat × Nat
  | .seed _ r => (r.code, r.sel) | .pos => (0, 0)
def AccForm.shape : AccForm → Nat
  | .m => 1 | _ => 0
def AccForm.var : AccForm → Nat
  | .pvar => 1 | _ => 0

/-- The fields of a 64-bit instruction's word; none for a shorter form or an event. -/
def enc64 (i : Instr) : Option Raw :=
  match i with
  | .nop h => some <| g64 0x000 0 h 0 0 0 0 0 0 0 (0)
  | .bra h imm => some <| j64 0x001 h 0 0 imm.toNat
  | .brx h ra => some <| g64 0x002 0 h 0 ra.code ra.sel 0 0 0 0 (0)
  | .call h rd imm => some <| j64 0x003 h rd.code 0 imm.toNat
  | .callx h rd ra => some <| g64 0x004 0 h rd.code ra.code ra.sel 0 0 0 0 (0)
  | .ret h ra => some <| g64 0x005 0 h 0 ra.code ra.sel 0 0 0 0 (0)
  | .exit h => some <| g64 0x006 0 h 0 0 0 0 0 0 0 (0)
  | .waitl h => some <| g64 0x007 0 h 0 0 0 0 0 0 0 (0)
  | .yield h => some <| g64 0x008 0 h 0 0 0 0 0 0 0 (0)
  | .trap h n => some <| j64 0x009 h 0 0 n.val
  | .bkpt h => some <| g64 0x00A 0 h 0 0 0 0 0 0 0 (0)
  | .srd h rd reg => some <| g64 0x00B 0 h rd.code 0 0 0 0 0 0 (reg.val)
  | .swr h ra reg => some <| g64 0x00C 0 h 0 ra.code ra.sel 0 0 0 0 (reg.val)
  | .develop h => some <| g64 0x00D 0 h 0 0 0 0 0 0 0 (0)
  | .budget h ra => some <| g64 0x00E 0 h 0 ra.code ra.sel 0 0 0 0 (0)
  | .launch h rd opt => some <| j64 0x00F h rd.code rd.sel opt.code
  | .ill rest => some { op := 0x03F, shape := rest.toNat % 4, stall := rest.toNat / 4 % 8, gp := rest.toNat / 32 % 8, gn := rest.toNat / 256 % 2, rd := rest.toNat / 512 % 256, hi := rest.toNat / 131072 }
  | .iadd h rd ra rb => some <| g64 0x040 0 h rd.code ra.code ra.sel rb.code rb.sel 0 0 (256 * rd.sd)
  | .isub h rd ra rb => some <| g64 0x041 0 h rd.code ra.code ra.sel rb.code rb.sel 0 0 (256 * rd.sd)
  | .imul h rd ra rb => some <| g64 0x042 0 h rd.code ra.code ra.sel rb.code rb.sel 0 0 (256 * rd.sd)
  | .imulh h rd ra rb sg => some <| g64 0x043 0 h rd.code ra.code ra.sel rb.code rb.sel 0 0 (sg.code + 256 * rd.sd)
  | .imad h rd ra rb rc => some <| g64 0x044 0 h rd.code ra.code ra.sel rb.code rb.sel rc.code rc.sel (256 * rd.sd)
  | .imin h rd ra rb u => some <| g64 0x045 0 h rd.code ra.code ra.sel rb.code rb.sel 0 0 (u.toNat + 256 * rd.sd)
  | .imax h rd ra rb u => some <| g64 0x046 0 h rd.code ra.code ra.sel rb.code rb.sel 0 0 (u.toNat + 256 * rd.sd)
  | .iabs h rd ra => some <| g64 0x047 0 h rd.code ra.code ra.sel 0 0 0 0 (256 * rd.sd)
  | .and h rd ra rb => some <| g64 0x048 0 h rd.code ra.code ra.sel rb.code rb.sel 0 0 (256 * rd.sd)
  | .or h rd ra rb => some <| g64 0x049 0 h rd.code ra.code ra.sel rb.code rb.sel 0 0 (256 * rd.sd)
  | .xor h rd ra rb => some <| g64 0x04A 0 h rd.code ra.code ra.sel rb.code rb.sel 0 0 (256 * rd.sd)
  | .andn h rd ra rb => some <| g64 0x04B 0 h rd.code ra.code ra.sel rb.code rb.sel 0 0 (256 * rd.sd)
  | .shl h rd ra rb => some <| g64 0x04C 0 h rd.code ra.code ra.sel rb.code rb.sel 0 0 (256 * rd.sd)
  | .shr h rd ra rb => some <| g64 0x04D 0 h rd.code ra.code ra.sel rb.code rb.sel 0 0 (256 * rd.sd)
  | .sar h rd ra rb => some <| g64 0x04E 0 h rd.code ra.code ra.sel rb.code rb.sel 0 0 (256 * rd.sd)
  | .rotl h rd ra rb => some <| g64 0x04F 0 h rd.code ra.code ra.sel rb.code rb.sel 0 0 (256 * rd.sd)
  | .bfe h rd ra rb rc sg => some <| g64 0x050 0 h rd.code ra.code ra.sel rb.code rb.sel rc.code rc.sel (sg.toNat + 256 * rd.sd)
  | .bfi h rd ra rb rc => some <| g64 0x051 0 h rd.code ra.code ra.sel rb.code rb.sel rc.code rc.sel (256 * rd.sd)
  | .popc h rd ra => some <| g64 0x052 0 h rd.code ra.code ra.sel 0 0 0 0 (256 * rd.sd)
  | .clz h rd ra => some <| g64 0x053 0 h rd.code ra.code ra.sel 0 0 0 0 (256 * rd.sd)
  | .brev h rd ra => some <| g64 0x054 0 h rd.code ra.code ra.sel 0 0 0 0 (256 * rd.sd)
  | .icmp h rd ra rb cond u => some <| g64 0x055 0 h rd.val ra.code ra.sel rb.code rb.sel 0 0 (cond.code + 8 * u.toNat)
  | .sel h sh rd ra rb rc => some <| g64 0x056 sh.code h rd.code ra.code ra.sel rb.code rb.sel rc.val 0 (256 * rd.sd)
  | .mov h sh rd ra => some <| g64 0x057 sh.code h rd.code ra.code ra.sel 0 0 0 0 (256 * rd.sd)
  | .movi h rd imm => some <| j64 0x058 h rd.code rd.sd imm.toNat
  | .lea h rd ra rb n sx => some <| g64 0x059 0 h rd.code ra.code ra.sel rb.code rb.sel 0 0 (n.val + 8 * sx.toNat + 256 * rd.sd)
  | .plop h rd ra rb rc table => some <| g64 0x05A 0 h rd.val ra.val 0 rb.val 0 rc.val 0 (table.val)
  | .pset h rd ra t => some <| g64 0x05B 0 h rd.val ra.code ra.sel 0 0 0 0 (t.code)
  | .iaddImm h rd ra imm => some <| i64 0x060 h rd.code ra.code imm.toNat
  | .imulImm h rd ra imm => some <| i64 0x061 h rd.code ra.code imm.toNat
  | .andImm h rd ra imm => some <| i64 0x062 h rd.code ra.code imm.toNat
  | .orImm h rd ra imm => some <| i64 0x063 h rd.code ra.code imm.toNat
  | .xorImm h rd ra imm => some <| i64 0x064 h rd.code ra.code imm.toNat
  | .shlImm h rd ra imm => some <| i64 0x065 h rd.code ra.code imm.toNat
  | .shrImm h rd ra imm => some <| i64 0x066 h rd.code ra.code imm.toNat
  | .sarImm h rd ra imm => some <| i64 0x067 h rd.code ra.code imm.toNat
  | .fadd h sh rd ra rb rm => some <| g64 0x080 sh.code h rd.code ra.code ra.sel rb.code rb.sel 0 0 (rm.code)
  | .fsub h sh rd ra rb rm => some <| g64 0x081 sh.code h rd.code ra.code ra.sel rb.code rb.sel 0 0 (rm.code)
  | .fmul h sh rd ra rb rm sec => some <| g64 0x082 sh.code h rd.code ra.code ra.sel rb.code rb.sel 0 0 (rm.code + 8 * sec.code)
  | .ffma h sh rd ra rb rc rm sec => some <| g64 0x083 sh.code h rd.code ra.code ra.sel rb.code rb.sel rc.code rc.sel (rm.code + 8 * sec.code)
  | .fmin h sh rd ra rb rm => some <| g64 0x084 sh.code h rd.code ra.code ra.sel rb.code rb.sel 0 0 (rm.code)
  | .fmax h sh rd ra rb rm => some <| g64 0x085 sh.code h rd.code ra.code ra.sel rb.code rb.sel 0 0 (rm.code)
  | .fcmp h sh rd ra rb cond => some <| g64 0x086 sh.code h rd.val ra.code ra.sel rb.code rb.sel 0 0 (cond.code)
  | .frelu h sh rd ra rm => some <| g64 0x087 sh.code h rd.code ra.code ra.sel 0 0 0 0 (rm.code)
  | .fsqrelu h sh rd ra rm => some <| g64 0x088 sh.code h rd.code ra.code ra.sel 0 0 0 0 (rm.code)
  | .fclass h sh rd ra => some <| g64 0x089 sh.code h rd.code ra.code ra.sel 0 0 0 0 (0)
  | .cvt h sh rd ra dst src rm => some <| g64 0x100 sh.code h rd.code ra.code ra.sel dst.code 0 src.code 0 rm.code
  | .qpk h sh rd ra rm f => some <| g64 0x101 sh.code h rd.code ra.code ra.sel 0 0 0 0 (rm.code + 32 * f.code)
  | .qupk h rd ra f => some <| g64 0x102 0 h rd.code ra.code ra.sel 0 0 0 0 (f.code)
  | .frcp h sh rd ra rm => some <| g64 0x108 sh.code h rd.code ra.code ra.sel 0 0 0 0 (rm.code)
  | .fdiv h sh rd ra rb rm => some <| g64 0x109 sh.code h rd.code ra.code ra.sel rb.code rb.sel 0 0 (rm.code)
  | .fsqrt h sh rd ra rm => some <| g64 0x10A sh.code h rd.code ra.code ra.sel 0 0 0 0 (rm.code)
  | .frsq h sh rd ra rm => some <| g64 0x10B sh.code h rd.code ra.code ra.sel 0 0 0 0 (rm.code)
  | .fexp2 h sh rd ra rm => some <| g64 0x10C sh.code h rd.code ra.code ra.sel 0 0 0 0 (rm.code)
  | .flog2 h sh rd ra rm => some <| g64 0x10D sh.code h rd.code ra.code ra.sel 0 0 0 0 (rm.code)
  | .fsinpi h sh rd ra rm => some <| g64 0x10E sh.code h rd.code ra.code ra.sel 0 0 0 0 (rm.code)
  | .fcospi h sh rd ra rm => some <| g64 0x10F sh.code h rd.code ra.code ra.sel 0 0 0 0 (rm.code)
  | .ftanh h sh rd ra rm => some <| g64 0x110 sh.code h rd.code ra.code ra.sel 0 0 0 0 (rm.code)
  | .fsigm h sh rd ra rm => some <| g64 0x111 sh.code h rd.code ra.code ra.sel 0 0 0 0 (rm.code)
  | .mmk h sh rd ra rb => some <| g64 0x140 sh.code h rd.code ra.code ra.sel rb.code rb.sel 0 0 (0)
  | .mspl h sh rd ra => some <| g64 0x141 sh.code h rd.code ra.code ra.sel 0 0 0 0 (0)
  | .maddv h sh rd ra rb => some <| g64 0x142 sh.code h rd.code ra.code ra.sel rb.code rb.sel 0 0 (0)
  | .mtag h rd ra rb neg => some <| g64 0x143 2 h rd.code ra.code ra.sel rb.code rb.sel 0 0 (neg.toNat)
  | .mcov h rd ra rb => some <| g64 0x144 2 h rd.code ra.code ra.sel rb.code rb.sel 0 0 (0)
  | .mfold h rd ra sel => some <| g64 0x145 2 h rd.code ra.code ra.sel 0 0 0 0 (sel.code)
  | .sdraw h rd ra => some <| g64 0x146 3 h rd.code ra.code ra.sel 0 0 0 0 (0)
  | .sstat h rd ra => some <| g64 0x147 3 h rd.code ra.code ra.sel 0 0 0 0 (0)
  | .shfl h sh rd ra rb m wl => some <| g64 0x180 sh.code h rd.code ra.code ra.sel rb.code rb.sel 0 0 (m.code + 4 * wl.val)
  | .vote h rd ra m => some <| g64 0x181 0 h rd.code ra.val 0 0 0 0 0 (m.code)
  | .lred h sh rd ra op wl => some <| g64 0x182 sh.code h rd.code ra.code ra.sel 0 0 0 0 (op.code + 16 * wl.val)
  | .lscn h sh rd ra op wl x => some <| g64 0x183 sh.code h rd.code ra.code ra.sel 0 0 0 0 (op.code + 16 * wl.val + 128 * x.toNat)
  | .match h rd ra => some <| g64 0x184 0 h rd.code ra.code ra.sel 0 0 0 0 (0)
  | .vrd h sh rd ra => some <| g64 0x185 sh.code h rd.code ra.code ra.sel 0 0 0 0 (0)
  | .vwr h sh ra rb => some <| g64 0x186 sh.code h 0 ra.code ra.sel rb.code rb.sel 0 0 (0)
  | .gseed h ra sl form => some <| g64 0x1A0 0 h 0 ra.code ra.sel form.rb.1 form.rb.2 0 0 (sl.val + 4 * form.code)
  | .guni h sh rd sl form => some <| g64 0x1A1 sh.code h rd.code 0 0 0 0 0 0 (sl.val + 4 * form.code)
  | .gnorm h sh rd sl => some <| g64 0x1A2 sh.code h rd.code 0 0 0 0 0 0 (sl.val)
  | .ggum h sh rd sl => some <| g64 0x1A3 sh.code h rd.code 0 0 0 0 0 0 (sl.val)
  | .gber h rd ra sl => some <| g64 0x1A4 0 h rd.code ra.code ra.sel 0 0 0 0 (sl.val)
  | .gcat h rd ra sl => some <| g64 0x1A5 0 h rd.code ra.code ra.sel 0 0 0 0 (sl.val)
  | .ld h rd ra wd sc esc sx off => some <| m64 0x1C0 h rd.code ra wd sc esc sx off
  | .st h rd ra wd sc esc off => some <| m64 0x1C1 h rd.code ra wd sc esc false off
  | .ldp h rd ra rb sc esc => some <| g64 0x1C2 1 h rd.code ra.code ra.sel rb.code rb.sel 0 0 (sc.code + 8 * esc.toNat)
  | .stp h rd ra rb sc esc => some <| g64 0x1C3 1 h rd.code ra.code ra.sel rb.code rb.sel 0 0 (sc.code + 8 * esc.toNat)
  | .atom h op rd ra rb => some <| g64 0x1C4 0 h (atomRdCode rd) ra.code ra.sel rb.code rb.sel op.rc.1 op.rc.2 (op.code + 32 * rd.isNone.toNat)
  | .fence h k sc paths => some <| g64 0x1C5 0 h 0 0 0 0 0 0 0 (k.code + 4 * sc.code + 32 * paths.code)
  | .cctlDrain h ra rb => some <| g64 0x1C6 0 h 0 ra.code ra.sel rb.code rb.sel 0 0 (2)
  | .cctlInv h ra rb => some <| g64 0x1C6 0 h 0 ra.code ra.sel rb.code rb.sel 0 0 (1)
  | .cctlPf1 h ra rb => some <| g64 0x1C6 0 h 0 ra.code ra.sel rb.code rb.sel 0 0 (4)
  | .cctlPf2 h ra rb => some <| g64 0x1C6 0 h 0 ra.code ra.sel rb.code rb.sel 0 0 (5)
  | .cctlRepl h ra rb => some <| g64 0x1C6 0 h 0 ra.code ra.sel rb.code rb.sel 0 0 (3)
  | .cctlWb h ra rb => some <| g64 0x1C6 0 h 0 ra.code ra.sel rb.code rb.sel 0 0 (0)
  | .txbeg h pn => some <| g64 0x1C7 0 h 0 0 0 0 0 0 0 (pn.val)
  | .txend h rd => some <| g64 0x1C8 0 h rd.val 0 0 0 0 0 0 (0)
  | .txabt h => some <| g64 0x1C9 0 h 0 0 0 0 0 0 0 (0)
  | .cpy h ra rb n j esc na => some <| g64 0x1E0 0 h 0 ra.code ra.sel rb.code rb.sel 0 0 (n.code + 4 * j.val + 64 * esc.toNat + 128 * na.toNat)
  | .cpyb h ra j esc => some <| g64 0x1E1 0 h 0 ra.val 1 0 0 0 0 (j.val + 16 * esc.toNat)
  | .binit h ra j => some <| g64 0x1E2 0 h 0 ra.code ra.sel 0 0 0 0 (j.val)
  | .barv h j => some <| g64 0x1E3 0 h 0 0 0 0 0 0 0 (j.val)
  | .bexp h ra j dec => some <| g64 0x1E4 0 h 0 ra.code ra.sel 0 0 0 0 (j.val + 16 * dec.toNat)
  | .bwait h j q => some <| g64 0x1E5 0 h 0 0 0 0 0 0 0 (j.val + 16 * q.toNat)
  | .btest h rd j form => some <| g64 0x1E6 0 h rd.val 0 0 0 0 0 0 (j.val + 16 * form.code)
  | .bsync h j => some <| g64 0x1E7 0 h 0 0 0 0 0 0 0 (j.val)
  | .tloop h ra k j mode z => some <| g64 0x1F0 0 h 0 ra.val 1 0 0 0 0 (k.val + 4 * j.val + 64 * mode.code + 256 * z.toNat)
  | .thad h ra pts j sr => some <| g64 0x1F1 0 h 0 ra.val 1 0 0 0 0 (pts.code + 4 * j.val + 64 * sr.toNat)
  | .taccRd h rd ra k f => some <| g64 0x1F2 f.shape h rd.code ra.code ra.sel 0 0 0 0 (k.val + 16 * f.var)
  | .taccWr h sh rd ra k => some <| g64 0x1F2 sh.code h rd.code ra.code ra.sel 0 0 0 0 (k.val + 4 * 1)
  | .taccZero h k => some <| g64 0x1F2 0 h 0 0 0 0 0 0 0 (k.val + 4 * 2)
  | .tqnt h ra k j sr vr => some <| g64 0x1F3 0 h 0 ra.val 1 0 0 0 0 (k.val + 4 * j.val + 64 * sr.toNat + 128 * vr.toNat)
  | _ => none

/-- The halfword of a compact form. -/
def enc16 (i : Instr) : Option Nat :=
  match i with
  | .movC16 d b => some (c16 0 d.val b.code)
  | .iaddC16 d b => some (c16 1 d.val b.code)
  | .isubC16 d b => some (c16 2 d.val b.code)
  | .andC16 d b => some (c16 3 d.val b.code)
  | .orC16 d b => some (c16 4 d.val b.code)
  | .xorC16 d b => some (c16 5 d.val b.code)
  | .shlC16 d b => some (c16 6 d.val b.code)
  | .shrC16 d b => some (c16 7 d.val b.code)
  | .iaddiC16 d i => some (c16 8 d.val i.toNat)
  | .moviC16 d i => some (c16 9 d.val i.toNat)
  | .faddC16 d b => some (c16 10 d.val b.code)
  | .fmulC16 d b => some (c16 11 d.val b.code)
  | .faddMC16 d b => some (c16 12 d.val b.code)
  | .fmulMC16 d b => some (c16 13 d.val b.code)
  | .braS e => some (28 + 32 * e.toNat)
  | .nopC16 => some 30
  | _ => none

/-- The word of a short form. -/
def enc32 (i : Instr) : Option Nat :=
  match i with
  | .iaddS32 st rd ra rb => some (s32 0 st false rd ra rb.code)
  | .isubS32 st rd ra rb => some (s32 1 st false rd ra rb.code)
  | .imulS32 st rd ra rb => some (s32 2 st false rd ra rb.code)
  | .imulhS32 st rd ra rb => some (s32 3 st false rd ra rb.code)
  | .iminS32 st rd ra rb => some (s32 4 st false rd ra rb.code)
  | .imaxS32 st rd ra rb => some (s32 5 st false rd ra rb.code)
  | .andS32 st rd ra rb => some (s32 6 st false rd ra rb.code)
  | .orS32 st rd ra rb => some (s32 7 st false rd ra rb.code)
  | .xorS32 st rd ra rb => some (s32 8 st false rd ra rb.code)
  | .andnS32 st rd ra rb => some (s32 9 st false rd ra rb.code)
  | .shlS32 st rd ra rb => some (s32 10 st false rd ra rb.code)
  | .shrS32 st rd ra rb => some (s32 11 st false rd ra rb.code)
  | .sarS32 st rd ra rb => some (s32 12 st false rd ra rb.code)
  | .rotlS32 st rd ra rb => some (s32 13 st false rd ra rb.code)
  | .faddS32 st m rd ra rb => some (s32 14 st m rd ra rb.code)
  | .fsubS32 st m rd ra rb => some (s32 15 st m rd ra rb.code)
  | .fmulS32 st m rd ra rb => some (s32 16 st m rd ra rb.code)
  | .fminS32 st m rd ra rb => some (s32 17 st m rd ra rb.code)
  | .fmaxS32 st m rd ra rb => some (s32 18 st m rd ra rb.code)
  | .fdivS32 st m rd ra rb => some (s32 19 st m rd ra rb.code)
  | .movS32 st m rd ra => some (s32 20 st m rd ra 0)
  | .popcS32 st rd ra => some (s32 21 st false rd ra 0)
  | .clzS32 st rd ra => some (s32 22 st false rd ra 0)
  | .freluS32 st m rd ra => some (s32 23 st m rd ra 0)
  | .fsqreluS32 st m rd ra => some (s32 24 st m rd ra 0)
  | .frcpS32 st m rd ra => some (s32 25 st m rd ra 0)
  | .fsqrtS32 st m rd ra => some (s32 26 st m rd ra 0)
  | .frsqS32 st m rd ra => some (s32 27 st m rd ra 0)
  | .fexp2S32 st m rd ra => some (s32 28 st m rd ra 0)
  | .flog2S32 st m rd ra => some (s32 29 st m rd ra 0)
  | .ftanhS32 st m rd ra => some (s32 30 st m rd ra 0)
  | .fsigmS32 st m rd ra => some (s32 31 st m rd ra 0)
  | _ => none

/-- The bytes of an instruction, none for an event. -/
def encode (i : Instr) : Option (List Byte) :=
  match enc64 i with
  | some r => some (leBytes 8 (rawWord r))
  | none =>
    match enc32 i with
    | some w => some (leBytes 4 w)
    | none => (enc16 i).map (leBytes 2)

end Sys2Proof
end

