-- ==== Sys2Proof/Machine/State.lean ====
section
/-! DEFINITION. The machine's state as plain data: everything the spec gives the device, under the keys below.

Keys. A byte of virtual memory is `tag * 2^57 + va` (R311; tag 64 is the shared window). A 16-byte chunk is that number
over 16, a line over 128, a 64 KiB page over 2^16, a 2 MiB region over 2^21. A device physical byte is
`die * 2^37 + local` (R315). A core is `die * 40 + core`. -/

namespace Sys2Proof.Machine

/-- Why the machine stops. -/
inductive Fault where
  /-- Raised by `step` alone while the thermal state is TRIPPED: the clocks stand (R372). Safe. -/
  | clocksStopped
  /-- Raised by `step` alone while the thermal state is OFF: no power (R372). Safe. -/
  | powerOff
  deriving DecidableEq, Repr

/-- Why the model answers nothing. -/
inductive Refusal where
  /-- Raised by `exec` for an instruction whose meaning is not written. Safe. -/
  | notModelled (mnemonic : String)
  deriving DecidableEq, Repr

/-- A finite map: keys strictly rising, every unlisted key at its default. -/
abbrev Tab (α : Type) := List (Nat × α)

/-- The contents of a memory: listed bytes, every unlisted byte 0 (assumption 2). -/
abbrev Memory := List Host.Cell

/-- The bytes of a line, byte 0 in bits 7:0. -/
abbrev LineData := BitVec 1024

/-- A leaf found by a walk (R318): its word, the level it stood at, and in the tag of a window line the context that filled it with
its WINDOW rights (R321). -/
structure Leaf where
  pte : BitVec 64
  level : Nat
  win : Option (Nat × BitVec 2)
  deriving DecidableEq, Repr

/-- Who made a write that may still be lost (R188, R354): the team, the group, the instruction, the grid, and the instruction's serial
number. -/
structure Writer where
  team : Nat
  grp : Nat
  lpc : Word
  grid : Nat
  id : Nat
  deriving DecidableEq, Repr

/-! Lanes and groups (R27 to R40, R244 to R252). -/

/-- A register word with its poison mark (R361). -/
structure RWord where
  bits : Word
  poison : Bool
  deriving DecidableEq, Repr

/-- A relay entry (R36): its word class and words, the latency its producer fixed (0 if variable), the encoded distance
and the cycle at which that producer issued, and the pending operation it waits for. -/
structure RelayEnt where
  cls : Shape
  words : List RWord
  lat : Nat
  born : Nat
  cyc : Nat
  pend : Option Nat
  deriving DecidableEq, Repr

/-- A Grain stream slot (R155). -/
structure Slot where
  key : BitVec 64
  sid : BitVec 16
  weyl : Bool
  idx : BitVec 64
  deriving DecidableEq, Repr

/-- What an entry of a store queue does: a store, or a write-back, invalidation or drain of `len` bytes (R206). -/
inductive StoreAct where
  | store | wb (len : Nat) | inv (len : Nat) | drain (len : Nat)
  deriving DecidableEq, Repr

/-- One lane's store on its way to memory (R172, R196): bytes in address order with their marks. -/
structure StoreEnt where
  id : Nat
  act : StoreAct
  lane : Nat
  lpc : Word
  va : Nat
  bytes : List Byte
  marks : List Bool
  scope : Scope
  esc : Bool
  deriving DecidableEq, Repr

/-- A write that a lane transaction holds (R211): the serial number of its instruction, its byte key, its bytes with their marks. -/
structure TxWrite where
  id : Nat
  key : Nat
  bytes : List (Byte × Bool)
  deriving DecidableEq, Repr

/-- A lane transaction (R207 to R215): the predicate and resume point of TXBEG, each chunk read with the position of the
write it returned, the lines of both sets, the held writes in program order, and the pending escapes. -/
structure TxState where
  pred : Nat
  resume : Word
  reads : Tab Nat
  readLines : List Nat
  writeLines : List Nat
  writes : List TxWrite
  escs : List StoreEnt
  deriving DecidableEq, Repr

/-- A lane (R244, R248, R250, R251): `pass` counts the issues left of a WAITL pass. -/
structure Lane where
  lpc : Word
  live : Bool
  pass : Option Nat
  regs : Tab RWord
  preds : BitVec 7
  relay : List RelayEnt
  slots : List Slot
  tx : Option TxState
  deriving DecidableEq, Repr

/-- A register name the scoreboard follows. -/
inductive RegRef where
  | v (n : Nat) | g (n : Nat) | p (n : Nat)
  deriving DecidableEq, Repr

/-- A fixed-latency producer whose result may still be read too early (R39, R40). -/
structure Producer where
  reg : RegRef
  lat : Nat
  born : Nat
  cyc : Nat
  deriving DecidableEq, Repr

/-- What a load reads (R195, R197). -/
inductive LoadKind where
  | ld (wd : Width) (sx : Bool) | ldp
  deriving DecidableEq, Repr

/-- A load in flight: its destination, each executing lane's addresses, two a lane for LDP (R196, R197), the lanes for which it is a
tracked read (R211), and those whose read was lost on a die link (R364). -/
structure LoadOp where
  id : Nat
  lpc : Word
  kind : LoadKind
  scope : Scope
  esc : Bool
  dst : Option Nat
  lanes : List (Nat × Nat)
  tx : List Nat
  cut : List Nat
  deriving DecidableEq, Repr

/-- An ATOM in flight (R199 to R204): each lane's address and operands, the lanes inside a transaction (R211), the old values
returned, and the leaf under which the PCI Express request of the first lane is out (R204). -/
structure AtomOpn where
  id : Nat
  lpc : Word
  code : Nat
  dst : Option (Option Nat)
  lanes : List (Nat × Nat × Word × Word)
  tx : List Nat
  olds : List (Nat × Word)
  asked : Option Leaf
  deriving DecidableEq, Repr

/-- A fence waiting to complete (R174, R175): the operations that it waits to see performed, and the reads of its group, on every path,
that it waits to see returned. -/
structure FenceOp where
  kind : FenceKind
  scope : Scope
  paths : Paths
  pre : List Nat
  reads : List Nat
  deriving DecidableEq, Repr

/-- A barrier arrival waiting for earlier accesses (R275), with the serial number that stood at its issue. -/
structure Arrival where
  id : Nat
  j : Nat
  lpc : Word
  sync : Bool
  pre : List Nat
  deriving DecidableEq, Repr

/-- Why a group is not ready beyond its scoreboard (R262). -/
inductive Wait where
  | none
  /-- BWAIT, or BSYNC after its arrival, on a register and parity (R259). -/
  | barrier (j : Nat) (q : Bool)
  /-- BSYNC before its arrival has been applied (R275). -/
  | arrival (j : Nat)
  /-- A full tile queue (R133): the instruction stays to be accepted. -/
  | tile
  /-- A full bulk queue (R219). -/
  | bulk
  /-- LAUNCH before its release, or with WAIT and no room (R279). -/
  | launch
  /-- DEVELOP until its event (R350): its serial number and the cycle of its issue (R351). -/
  | develop (id cyc : Nat)
  /-- TXBEG until earlier stores are performed (R207). -/
  | txOpen
  deriving DecidableEq, Repr

/-- A launch-queue entry (R279): the serial number of its LAUNCH, which orders held entries (R284), the descriptor address, imm32, words 2 and 3, the launching grid and its ring (R296). -/
structure LaunchEnt where
  id : Nat
  addr : Nat
  imm : Word
  w2 : Word
  w3 : Word
  parent : Nat
  ring : Nat
  deriving DecidableEq, Repr

/-- A tile instruction's work (R142, R147, R149). -/
inductive TileKind where
  | loop (mode : LoopMode) (z : Bool) (noise : Bool)
  | had (pts : HadPts) (sr : Bool)
  | qnt (sr : Bool) (vr : Bool)
  deriving DecidableEq, Repr

/-- A bank cell (R131). -/
structure TileCell where
  mean : Word
  var : Word
  poison : Bool
  deriving DecidableEq, Repr

/-- A tile instruction (R133 to R136): its descriptor words, bank, barrier, reserved dithers (the 32 lanes' slot-3 states
at acceptance), the next step or row, whether it has begun, the rows of cells that a TQNT has read (R134, R149), and what is still to
be written of a row that has been computed, as addresses and bytes (R145, R147). -/
structure TileOp where
  id : Nat
  team : Nat
  grp : Nat
  lpc : Word
  kind : TileKind
  desc : List Word
  bank : Nat
  bar : Nat
  dith : List Slot
  next : Nat
  begun : Bool
  cells : Option (List (List TileCell))
  row : List (Nat × List Byte)
  deriving DecidableEq, Repr

/-- The group's instruction that waits for room in an engine queue. -/
inductive Held where
  | none
  | tile (op : TileOp)
  | bulk (desc : List Word) (bar : Nat) (esc : Bool) (lpc : Word)
  | launch (id : Nat) (src : List LaunchEnt) (wait : Bool) (esc : Bool) (lpc : Word) (lanes : BitVec 32) (pre : List Nat)
  | txbeg (pred : Nat) (lanes : BitVec 32) (resume : Word) (pre : List Nat)
  deriving DecidableEq, Repr

/-- A group (R244 to R252, R262, R300). -/
structure Group where
  role : Nat
  part : Nat
  order : Nat
  lanes : List Lane
  gregs : Tab RWord
  nctl : BitVec 4
  stalls : Word
  latch : Option (Nat × Word)
  dist : Nat
  notBefore : Nat
  prods : List Producer
  storeQ : List StoreEnt
  loads : List LoadOp
  atoms : List AtomOpn
  fences : List FenceOp
  arrivals : List Arrival
  wait : Wait
  held : Held
  yield : Option (Nat × List (Nat × Nat))
  readySince : Option Nat
  deriving DecidableEq, Repr

/-! Teams and grids (R244 to R260, R292 to R300, R345 to R358). -/

/-- A role entry (R55). -/
structure Role where
  entry : Word
  regs : Nat
  groups : Nat
  deriving DecidableEq, Repr

/-- A launch descriptor (R292). -/
structure Desc where
  code : Nat
  clen : Nat
  gregs : Nat
  barriers : Nat
  banks : Nat
  latent : Bool
  prio : Nat
  seed : BitVec 64
  nx : Nat
  ny : Nat
  nz : Nat
  pred : Nat
  args : Nat
  budget : Nat
  roles : List Role
  succs : List Nat
  deriving DecidableEq, Repr

/-- A barrier register (R256). -/
structure Bar where
  target : Nat
  arr : Nat
  exp : Nat
  parity : Bool
  waiters : BitVec 32
  deriving DecidableEq, Repr

/-- What an event does to a barrier register (R257, R274). -/
inductive BarKind where
  /-- Engine data has landed. -/
  | land (n : Nat)
  /-- An arrival with a post of `n`; `sync` waits after it (BSYNC), `na` posts without arriving (R217). -/
  | arrive (n : Nat) (sync na : Bool)
  | post (n : Nat) (dec : Bool)
  | init (n : Nat)
  | wait (q : Bool)
  /-- A test with `get` or on parity `q`, into a predicate of the listed lanes. -/
  | test (get q : Bool) (dst : Nat) (lanes : List Nat)
  deriving DecidableEq, Repr

/-- An event on barrier `j` in this cycle, with the instruction it comes from and the serial number that stood at its issue (R257, R258). -/
structure BarEv where
  id : Nat
  j : Nat
  grp : Nat
  lpc : Word
  kind : BarKind
  deriving DecidableEq, Repr

/-- A latent version (R185, R284, R346, R347): held bytes with their marks, the chunks that one write has covered whole (R193), held
launches, and for each line those who wrote it (R354, R355). -/
structure Version where
  bytes : Tab (Byte × Bool)
  whole : List Nat
  launches : List LaunchEnt
  writers : Tab (List Writer)
  deriving DecidableEq, Repr

/-- A develop that has begun (R346): the version that develops, whether it was forced, the group whose DEVELOP it answers, and the
serial number that parts the operations issued before it from the later ones (R185). -/
structure Develop where
  ver : Version
  forced : Bool
  grp : Option Nat
  born : Nat
  deriving DecidableEq, Repr

/-- A CPY in flight (R216, R217): the lanes whose writes are outstanding, whether its buffer holds a marked chunk (R362), and in a task
what lanes have read whose held writes wait for a develop (R185). -/
structure CopyOp where
  id : Nat
  grp : Nat
  lpc : Word
  n : Nat
  bar : Nat
  esc : Bool
  lanes : List (Nat × Nat × Nat)
  bad : Bool
  got : List (Nat × List (Byte × Bool))
  deriving DecidableEq, Repr

/-- A bulk copy (R218 to R223): outstanding chunks as intervals, the chunks sent to a peer and not acknowledged, and the time of
its last progress (R339). `forward` is set for a copy that a receiver sends on (R222). `bad` is set for a marked chunk in its
buffer (R362), and for a forward that has failed; `got` holds the chunks read whose held writes wait for a develop (R185). -/
structure BulkOp where
  id : Nat
  team : Nat
  grp : Nat
  ctx : Nat
  die : Nat
  lpc : Word
  src : Nat
  dst : Nat
  len : Nat
  dir : Bool
  remote : Bool
  ord : Bool
  peer : Nat
  sig : Bool
  chs : Nat
  hops : Nat
  bar : Nat
  esc : Bool
  todo : List (Nat × Nat)
  sent : List Nat
  forward : Bool
  seen : Nat
  bad : Bool
  got : List (Nat × List (Byte × Bool))
  deriving DecidableEq, Repr

/-- A trap condition of a team (R352, R354, R355), with the serial number of its instruction: what its group issued later does nothing
(R97). -/
structure Cond where
  id : Nat
  grp : Nat
  code : Nat
  detail : Nat
  lpc : Word
  lanes : BitVec 32
  addr : Nat
  cyc : Nat
  deriving DecidableEq, Repr

/-- A trap past step 1 of R353: its record's fields taken at that step, whether an open transaction was discarded, and from step 3
whether the discarded version held anything, with its lines, and since when the record waits to be written. -/
structure TrapInfo where
  cond : Cond
  time : Nat
  band : Nat
  word : Nat
  tx : Bool
  gone : Option (Bool × Nat)
  since : Nat
  deriving DecidableEq, Repr

/-- A team (R244 to R260, R345 to R358). `handler` holds the record address and slot of the trap it handles, `icode` the
16-byte chunks of code fetched (R20, R21), `barq` the barrier events of this cycle (R258), `ports` the ports whose host memory it has
written since their last flush read (R184), `dev` a develop in progress beside the version that new writes enter (R346). -/
structure TeamRec where
  ctx : Nat
  grid : Nat
  num : Nat
  gx : Nat
  gy : Nat
  gz : Nat
  core : Nat
  d : Desc
  task : Nat
  prio : Nat
  budget : Option Nat
  groups : Tab Group
  bars : List Bar
  banks : List Nat
  ver : Version
  dev : Option Develop
  partDev : Bool
  escapes : Nat
  dispatches : Nat
  handler : Option (Nat × Nat)
  icode : Tab (BitVec 128)
  barq : List BarEv
  ports : List Port
  copies : List CopyOp
  conds : List Cond
  trap : Option TrapInfo
  deriving DecidableEq, Repr

/-- Where a command came from (R287, R279). -/
inductive Source where
  | queue (q : Nat) (tag : BitVec 64) (cmd : List Byte)
  | launch (e : LaunchEnt)
  deriving DecidableEq, Repr

/-- How far a grid has come (R17, R293, R294). -/
inductive Phase where
  | accepted | waiting | running | finished | recorded
  deriving DecidableEq, Repr

/-- A team to be handed out again (R358), or a handler to be launched (R357). -/
structure Again where
  num : Nat
  dispatches : Nat
  deriving DecidableEq, Repr

/-- A handler team waiting for dispatch (R357): the address of its descriptor, the descriptor once it has been read, whether no handler
can run so that its record is to be rewritten, the record's address, its slot and its bytes with NOHANDLER set, and the CP's die. -/
structure HandlerReq where
  desc : Nat
  d : Option Desc
  refused : Bool
  record : Nat
  slot : Nat
  bytes : List Byte
  die : Nat
  args : List Word
  deriving DecidableEq, Repr

/-- A grid (R17, R292 to R298): `tailed` that the launching grid, which it follows by TAIL, has not completed (R283), `last` the die that took the team handed out most recently, `trapped` the teams whose last
dispatch ended in a trap, `ports` the ports whose host memory its teams wrote, `faulted` that a lost write stands, `reset` that its context was reset. -/
structure GridRec where
  ctx : Nat
  cp : Nat
  desc : Nat
  src : Source
  ring : Nat
  seq : Nat
  hash : BitVec 64
  phase : Phase
  status : Nat
  d : Option Desc
  args : List Word
  nx : Nat
  ny : Nat
  nz : Nat
  preds : Nat
  tail : Option Nat
  tailed : Bool
  next : Nat
  last : Option Nat
  retry : List Again
  handlers : List HandlerReq
  traps : Nat
  trapped : List Nat
  ports : List Port
  lost : Bool
  faulted : Bool
  poison : Bool
  band : Bool
  partDev : Bool
  reset : Bool
  tAccept : Nat
  tReady : Nat
  tRun : Nat
  tDone : Nat
  deriving DecidableEq, Repr

/-- A decrement on its way to a successor (R294), from the grid `src`: to a descriptor address, or to a grid launched with TAIL
(R283). -/
structure Dec where
  id : Nat
  src : Nat
  ctx : Nat
  addr : Nat
  grid : Option Nat
  deriving DecidableEq, Repr

/-! Cores (R131, R144, R169, R299). -/

/-- An L1 line (R169, R321): valid chunks, bytes, dirty bytes with those who stored them, the chunks that one store has covered
whole and those that a store has marked (R193), the marks that a read finds, and the leaf whose permissions stay in its tag. -/
structure L1Line where
  valid : BitVec 8
  data : LineData
  dirty : BitVec 128
  whole : BitVec 8
  marks : BitVec 8
  poison : BitVec 8
  leaf : Leaf
  writers : List Writer
  deriving DecidableEq, Repr

/-- TSTEP of a bank (R144); FWAIT follows from the fault records. -/
structure TStep where
  run : Bool
  kend : BitVec 12
  done : BitVec 12
  deriving DecidableEq, Repr

/-- A core. `stored` holds the chunks that its groups' stores have entered (R172), `stepped` each bank's TSTEP, `droops` the times of
droop events. -/
structure CoreRec where
  l1 : Tab L1Line
  stored : Tab Bool
  bank : Tab (Tab TileCell)
  stepped : Tab TStep
  tileQ : List TileOp
  bulkQ : List BulkOp
  temp : BitVec 12
  hot : Bool
  droop : Option Nat
  droops : List Nat
  deriving DecidableEq, Repr

/-! The shared cache (R226 to R243). -/

/-- A die's state for a line (R231). -/
inductive Moesi where
  | m | o | e | s | i
  deriving DecidableEq, Repr

/-- A line in a die's slice (R231, R240, R321, R361), with those whose writes stand in it and not yet at its home. -/
structure Copy where
  valid : BitVec 8
  data : LineData
  poison : BitVec 8
  leaf : Leaf
  writers : List Writer
  deriving DecidableEq, Repr

/-- What a directory is waiting for (R231, R232): the request, and the dies yet to acknowledge. -/
structure DirTxn where
  kind : Nat
  src : Nat
  acks : List Nat
  fwd : Bool
  deriving DecidableEq, Repr

/-- A directory entry at its home (R231): `dirty` holds the chunks of the home's copy that are newer than DRAM, `used` orders the
entries of the snoop filter by their last use (R235). -/
structure DirEnt where
  home : Nat
  st : List Moesi
  dirty : BitVec 8
  txn : Option DirTxn
  used : Nat
  deriving DecidableEq, Repr

/-- The protocol's messages (R232). -/
inductive MsgKind where
  | getS | getM | upgrade | putM | putO | putE | putS | fwdWrite | inv | ack | fwd | data
  deriving DecidableEq, Repr

/-- A message about a line between two dies, with data, marks and writers where it carries them, and the state it grants. -/
structure Msg where
  id : Nat
  kind : MsgKind
  line : Nat
  src : Nat
  dst : Nat
  data : LineData
  valid : BitVec 8
  poison : BitVec 8
  grant : Moesi
  leaf : Leaf
  chunks : BitVec 8
  writers : List Writer
  deriving DecidableEq, Repr

/-- A write that has left its core for its home (R172, R233): the bytes of one line with their mask, their marks, the chunks that one
write covers whole (R193), the chunks that its coalesced request touches (R194), and the writers. -/
structure OutWrite where
  id : Nat
  die : Nat
  line : Nat
  data : LineData
  mask : BitVec 128
  marks : BitVec 8
  whole : BitVec 8
  ask : BitVec 8
  writers : List Writer
  leaf : Leaf
  deriving DecidableEq, Repr

/-- A share of the Enlarger (R236, R237). -/
structure Share where
  d : Nat
  since : Nat
  cup : Nat
  ccold : Nat
  r : Nat
  w : Nat
  used : Nat
  deriving DecidableEq, Repr

/-- Who makes an access that may wait on a translation (R191, R323). -/
inductive Req where
  | load (t g id : Nat) | store (t g : Nat) | atom (t g id : Nat) | copy (t id : Nat) | bulk (core id : Nat)
  | tile (core id : Nat) | fetch (t g : Nat) | develop (t : Nat) | tx (t g : Nat) | trapRec (t : Nat) | trapDesc (g slot : Nat)
  | cmd (q : Nat) | desc (g : Nat) | arrival (id : Nat) | outw (id : Nat)
  deriving DecidableEq, Repr

/-- An access that a purge holds at its home die, with its context, and since when (R326). -/
structure HoldRec where
  req : Req
  ctx : Nat
  key : Nat
  time : Nat
  deriving DecidableEq, Repr

/-- A walk to be made (R320): the context of its requester, the home die that missed, the page's byte key, and the requester. -/
structure WalkReq where
  id : Nat
  ctx : Nat
  die : Nat
  key : Nat
  req : Req
  kind : Nat
  acc : Nat
  core : Nat
  deriving DecidableEq, Repr

/-- A fault or notice record (R322 to R324): status 0 with its attached requesters until replied to; `written` once it
stands in the ring; `young` while its wait pauses the deadline (R303). -/
structure FaultRec where
  ctx : Nat
  seq : Nat
  va : Nat
  time : Nat
  kind : Nat
  acc : Nat
  status : Nat
  die : Nat
  core : Nat
  page : Nat
  reqs : List (Req × Nat)
  written : Bool
  young : Bool
  deriving DecidableEq, Repr

/-! Contexts, the package and the queues (R287 to R310, R326, R333, R356). -/

/-- The purge registers of a context or of the window (R326): the job latched at GO. -/
structure Purge where
  mva : BitVec 64
  mpte : BitVec 64
  mval : BitVec 64
  msize : BitVec 6
  done : BitVec 16
  err : Bool
  busy : Bool
  job : Option (Nat × Nat × Nat × Nat)
  deriving DecidableEq, Repr

/-- A context (R306 to R308, R356). `left` is the deadline's remaining time in ticks; `stopped` that acceptance and
dispatch wait for RESUME; `halting` that the deadline is cut by HALT. -/
structure CtxRec where
  enable : Bool
  owner : Port
  window : BitVec 2
  cntrs : Bool
  draining : Bool
  stopped : Bool
  left : Nat
  halting : Bool
  purging : Bool
  deadline : BitVec 32
  root : BitVec 64
  fqbase : BitVec 64
  fqctl : BitVec 32
  fqhead : BitVec 32
  fqtail : BitVec 32
  jobid : BitVec 32
  peerbase : BitVec 64
  peercnt : BitVec 32
  chain : BitVec 256
  purge : Purge
  seq : Nat
  task : Nat
  credits : List Nat
  trapdesc : BitVec 64
  trapbase : BitVec 64
  trapctl : BitVec 32
  traptail : BitVec 32
  traplost : BitVec 32
  deriving DecidableEq, Repr

/-- What a port keeps for itself (R333), and its link. -/
structure PortRec where
  physwin : BitVec 7
  apctx : BitVec 6
  apbase : BitVec 23
  up : Bool
  deriving DecidableEq, Repr

/-- FWSTAT.STATE (R333). -/
inductive FwState where
  | empty | verifying | running | failed
  deriving DecidableEq, Repr

/-- The package registers (R333, R340 to R343). -/
structure Pkg where
  idRev : BitVec 16
  straps : BitVec 32
  auth : Port
  foreign : BitVec 32
  jobdrop : BitVec 32
  pa : PortRec
  pb : PortRec
  wroot : BitVec 64
  wpurge : Purge
  fw : FwState
  fwReason : Nat
  svn : BitVec 32
  fwDigest : BitVec 384
  idStat : BitVec 2
  helper : List Byte
  staging : Memory
  eth : BitVec 8
  deriving DecidableEq, Repr

/-- A queue's values taken at its switch-in (R288, R290), the time since it went idle, and whether the read of its next command
was declined (R291). -/
structure Active where
  base : Nat
  size : Nat
  ctx : Nat
  cp : Nat
  ring : Nat
  tail : Nat
  idleSince : Nat
  refused : Bool
  deriving DecidableEq, Repr

/-- A queue-table entry (R287 to R290). `first` orders the earliest unhonoured TAIL write. -/
structure QueueRec where
  base : BitVec 45
  size : BitVec 5
  ctx : BitVec 6
  cp : BitVec 2
  ring : BitVec 4
  enable : Bool
  active : Option Active
  stail : BitVec 64
  sprog : BitVec 63
  accepted : Nat
  progress : Nat
  first : Option Nat
  deriving DecidableEq, Repr

/-- An event ring (R296, R297): its registers, the records since the last interrupt with the time of the oldest, and what waits
to be written in the order of the events (R418): a queue with the TAIL not honoured, or 4,096 with a grid. -/
structure Ring where
  rbase : BitVec 64
  rsize : BitVec 5
  rtail : BitVec 32
  rhead : BitVec 32
  rcnt : BitVec 9
  rtmo : BitVec 16
  rvec : BitVec 32
  since : Nat
  oldest : Option Nat
  waiting : List (Nat × Nat)
  deriving DecidableEq, Repr

/-- A die's registers and tables (R229, R236 to R242, R297, R299, R320, R367). -/
structure DieRec where
  rings : Tab Ring
  csbase : BitVec 64
  csctl : BitVec 32
  csseq : BitVec 64
  mode : BitVec 2
  grp : BitVec 4
  rctl : BitVec 6
  cecnt : BitVec 64
  uecnt : BitVec 64
  lostw : BitVec 64
  sramce : BitVec 64
  sramue : BitVec 64
  enlctl : BitVec 32
  enlnext : BitVec 32
  plctl : BitVec 32
  cnt : Tab (BitVec 48)
  epoch : Nat
  shares : Tab Share
  pins : Tab Nat
  redir : List (Nat × Nat)
  tlb : List (Nat × Leaf)
  deriving DecidableEq, Repr

/-- A die link (R363, R367). -/
structure LinkRec where
  state : BitVec 2
  evA : Bool
  evB : Bool
  peak : BitVec 5
  replays : BitVec 16
  retry : Nat
  deriving DecidableEq, Repr

/-- A stack (R241, R376, R377): hash version, rows moved by a migration in progress, the share of conflicts in the current
window and in past windows, the last change, scrub position, and whether it sweeps. -/
structure StackRec where
  ver : BitVec 4
  migrating : Option Nat
  moved : Nat
  reqs : Nat
  confl : Nat
  crowd : Nat
  hotWindows : Nat
  changed : Option Nat
  scrub : Nat
  sweep : Option Nat
  deriving DecidableEq, Repr

/-- The thermal states (R372). -/
inductive ThState where
  | off | warmIdle | cooling | coldIdle | run | safelight | warming | tripped
  deriving DecidableEq, Repr

/-- The bands (R371). -/
inductive Band where
  | cold | chill | transit | warm | halt
  deriving DecidableEq, Repr

/-- The thermal block (R371 to R381): the state, the settings in force, the sensors' band, the hottest sensor of each die,
the start of the holds of colder bands, and whether a reset is held in TRIPPED. -/
structure Thermal where
  state : ThState
  band : Band
  sense : Band
  temps : Tab (BitVec 12)
  sensors : Tab (BitVec 12)
  bandHold : List (Nat × Band)
  coldHold : Option Nat
  warmHold : Option Nat
  idleSince : Option Nat
  err : Bool
  thvec : BitVec 6
  tbath : BitVec 12
  evt : BitVec 5
  thtrip : Bool
  heldReset : Bool
  haltAt : Option Nat
  deriving DecidableEq, Repr

/-- A packet from a peer whose page is not present (R191), or a counter add that waits (R221): it is attached to a fault record. -/
structure ArrRec where
  id : Nat
  pkt : Packet
  ctx : Nat
  port : Nat
  deriving DecidableEq, Repr

/-- What a host writes to CTXCTL of a context through an event of its own (R302, R304, R308, R310). -/
inductive CtxAct where
  | preempt | resume | reset | destroy | enable
  deriving DecidableEq, Repr

/-- What the host does through a port: an access through an aperture, by its offset; one that a purge holds, by the context and the address
that it names; or a write to a register (R184, R332, R334). -/
inductive HostOp where
  | aperture (off : BitVec 34) (acc : HostAcc)
  | physical (off : BitVec 32) (acc : HostAcc)
  | mem (ctx addr : Nat) (acc : HostAcc)
  | reg (off : BitVec 27) (wide : Bool) (v : BitVec 64)
  | tail (d q : Nat) (v : BitVec 64)
  | table (q w : Nat) (v : BitVec 64)
  | reply (c seq : Nat) (decline : Bool)
  | purge (w : Option Nat)
  | ctx (c : Nat) (act : CtxAct)
  | authority (to_ : Port)
  | firmware | deviceReset | cool | warm
  deriving DecidableEq, Repr

/-- An access of the host that waits behind a purge, or behind one that does (R184, R326). -/
structure HostWait where
  port : Port
  op : HostOp
  deriving DecidableEq, Repr

/-- What leaves the device (the model's own record of its outputs). -/
inductive OutEvt where
  | msix (p : Port) (vec : Nat)
  | readData (p : Port) (bytes : List Byte) (ep : Bool)
  | abort (p : Port)
  | unsupported (p : Port)
  | packet (chunk : Nat) (peer : BitVec 128) (p : Packet)
  | reply (msg : Nat) (addr : BitVec 64) (kind : Nat) (bytes : BitVec 128) (poison : Bool)
  | atomic (p : Port) (t g id lane : Nat) (code : Nat) (addr : Nat) (x y : Word)
  | spdm (p : Port) (code : Nat) (bytes : List Byte)
  | flush (p : Port)
  | thtrip
  deriving DecidableEq, Repr

/-- A counted or ordered copy being received (R220, R221): the chunks left, the next of an ordered one, and the ports whose host memory
its chunks have written (R184). -/
structure RecvRec where
  msg : Nat
  ctx : Nat
  left : Nat
  next : Nat
  ports : List Port
  deriving DecidableEq, Repr

/-! The clock, the agenda and the whole. -/

/-- Time in ticks of 1/198 ns, so that a cycle of each band is a whole number of ticks (R371), and CYCLE (R329). -/
structure Clock where
  ticks : Nat
  cycle : Nat
  deriving DecidableEq, Repr

/-- The model's own: what happens next. An indivisible row of spec/95, an issue by a partition, cycles that pass, or an
eviction that the device's caches choose. -/
inductive Turn where
  | event (i : Instr)
  | issue (core part : Nat)
  | cycles (n : Nat)
  | evictL1 (core line : Nat)
  | evictSlice (die line : Nat)
  deriving DecidableEq, Repr

/-- A group that is issuing: its team's serial number and its GROUP. -/
structure GRef where
  t : Nat
  g : Nat
  deriving DecidableEq, Repr

/-- The machine. -/
structure State where
  clock : Clock
  agenda : List Turn
  issuing : Option GRef
  nextId : Nat
  freeCtr : Nat
  spent : List (Nat × Nat)
  pkg : Pkg
  thermal : Thermal
  ctxs : Tab CtxRec
  queues : Tab QueueRec
  dies : Tab DieRec
  grids : Tab GridRec
  decs : List Dec
  launchQ : Tab (List LaunchEnt)
  teams : Tab TeamRec
  cores : Tab CoreRec
  dirs : Tab DirEnt
  copies : Tab Copy
  net : List Msg
  outw : List OutWrite
  serials : Tab Nat
  walks : List WalkReq
  holds : List HoldRec
  faults : List FaultRec
  dram : Memory
  dramPoison : Tab Bool
  host : Memory
  hostPoison : Tab Bool
  stackTab : Tab StackRec
  links : Tab LinkRec
  arrivals : List ArrRec
  hostQ : List HostWait
  recvs : List RecvRec
  forwards : List BulkOp
  out : List OutEvt
  deriving DecidableEq, Repr

/-! Reset (R248, R307, R333, R372, R373; assumption 1 for what the spec does not give). -/

/-- A purge block at reset. -/
def Purge.reset : Purge := ⟨0, 0, 0, 0, 0, false, false, none⟩

/-- A context at reset (R307, R308): DEADLINE 2000. -/
def CtxRec.reset : CtxRec :=
  { enable := false, owner := .a, window := 0, cntrs := false, draining := false, stopped := false, left := 0,
    halting := false, purging := false, deadline := 2000, root := 0, fqbase := 0, fqctl := 0, fqhead := 0, fqtail := 0,
    jobid := 0, peerbase := 0, peercnt := 0, chain := 0, purge := .reset, seq := 1, task := 1, credits := [],
    trapdesc := 0, trapbase := 0, trapctl := 0, traptail := 0, traplost := 0 }

/-- A queue-table entry at reset (R288). -/
def QueueRec.reset : QueueRec := ⟨0, 0, 0, 0, 0, false, none, 0, 0, 0, 0, none⟩

/-- An event ring at reset (R297): RSIZE 4, RCNT 1, RTMO 1. -/
def Ring.reset : Ring := ⟨0, 4, 0, 0, 1, 1, 0, 0, none, []⟩

/-- A die's registers at reset (R239, R299, R367): ENLCTL (1, 4, 64, 64, 4, 0, 0), PLCTL (20, 4, 8), CSSEQ 1, GROUP 0xF. -/
def DieRec.reset : DieRec :=
  { rings := [], csbase := 0, csctl := 0, csseq := 1, mode := 0, grp := 15, rctl := 0, cecnt := 0, uecnt := 0, lostw := 0,
    sramce := 0, sramue := 0, enlctl := 0x14404040, enlnext := 0x14404040, plctl := 0x14040800, cnt := [], epoch := 0,
    shares := [], pins := [], redir := [], tlb := [] }

/-- An empty core. -/
def CoreRec.reset : CoreRec := ⟨[], [], [], [], [], [], 0, false, none, []⟩

/-- A link that is up (R367). -/
def LinkRec.reset : LinkRec := ⟨0, false, false, 0, 0, 0⟩

/-- A stack at reset (R241). -/
def StackRec.reset : StackRec := ⟨0, none, 0, 0, 0, 0, 0, none, 0, none⟩

/-- A port at reset (R333), its link up. -/
def PortRec.reset : PortRec := ⟨0, 0, 0, true⟩

/-- The package registers at reset (R333); the straps are those of assumption 4, under which AUTHSEL names port A. -/
def Pkg.reset : Pkg :=
  { idRev := 0, straps := 0x0100FF06, auth := .a, foreign := 0, jobdrop := 0, pa := .reset, pb := .reset, wroot := 0,
    wpurge := .reset, fw := .empty, fwReason := 0, svn := 0, fwDigest := 0, idStat := 0, helper := [], staging := [],
    eth := 255 }

/-- WARM-IDLE with WARM settings (R373, R380, R381): SENSE WARM, TBATH 77 K. -/
def Thermal.reset : Thermal :=
  { state := .warmIdle, band := .warm, sense := .warm, temps := [], sensors := [], bandHold := [], coldHold := none,
    warmHold := none, idleSince := none, err := false, thvec := 0, tbath := 616, evt := 0, thtrip := false,
    heldReset := false, haltAt := none }

/-- The machine right after reset: nothing resident, nothing enabled, no firmware, memory with nothing listed. -/
def State.reset : State :=
  { clock := ⟨0, 0⟩, agenda := [], issuing := none, nextId := 0, freeCtr := 0, spent := [], pkg := .reset,
    thermal := .reset, ctxs := [], queues := [], dies := [], grids := [], decs := [], launchQ := [], teams := [],
    cores := [], dirs := [], copies := [], net := [], outw := [], serials := [], walks := [], holds := [], faults := [], dram := [],
    dramPoison := [], host := [], hostPoison := [], stackTab := [], links := [], arrivals := [], hostQ := [], recvs := [],
    forwards := [], out := [] }

end Sys2Proof.Machine
end

