-- ==== Sys2Proof/Machine/Tab.lean ====
section
/-! DEFINITION. Finite maps in one canonical form, keys strictly rising and no entry equal to the default, and memories,
which are such maps from addresses to bytes with default 0. -/

namespace Sys2Proof.Machine

/-- The entry at a key, if listed. -/
def Tab.find {α : Type} : Tab α → Nat → Option α
  | [], _ => none
  | (k, v) :: t, a => if k = a then some v else if a < k then none else Tab.find t a

/-- The value at a key, the default where it is not listed. -/
def Tab.get {α : Type} (d : α) (t : Tab α) (a : Nat) : α := (t.find a).getD d

/-- Without the entries at the head whose keys are at most `a`. -/
def Tab.after {α : Type} : Tab α → Nat → Tab α
  | [], _ => []
  | (k, v) :: t, a => if a < k then (k, v) :: t else Tab.after t a

/-- With the entry at a key replaced, or removed by `none`. -/
def Tab.put {α : Type} : Tab α → Nat → Option α → Tab α
  | [], a, v => (v.map fun x => [(a, x)]).getD []
  | (k, w) :: t, a, v =>
    if k < a then (k, w) :: Tab.put t a v
    else
      let rest := Tab.after ((k, w) :: t) a
      match v with
      | some x => (a, x) :: rest
      | none => rest

/-- With a value set; setting the default removes the entry. -/
def Tab.set {α : Type} [DecidableEq α] (d : α) (t : Tab α) (a : Nat) (v : α) : Tab α :=
  t.put a (if v = d then none else some v)

/-- With an entry added or replaced. -/
def Tab.ins {α : Type} (t : Tab α) (a : Nat) (v : α) : Tab α := t.put a (some v)

/-- Without an entry. -/
def Tab.del {α : Type} (t : Tab α) (a : Nat) : Tab α := t.put a none

/-- The entry at a key changed by a function, if listed. -/
def Tab.upd {α : Type} (t : Tab α) (a : Nat) (f : α → α) : Tab α :=
  match t.find a with
  | some v => t.put a (some (f v))
  | none => t

/-- The keys of a map in rising order. -/
def Tab.keys {α : Type} (t : Tab α) : List Nat := t.map (·.1)

/-- The values of a map in the order of their keys. -/
def Tab.vals {α : Type} (t : Tab α) : List α := t.map (·.2)

/-- Every value changed by a function. -/
def Tab.mapv {α : Type} (t : Tab α) (f : Nat → α → α) : Tab α := t.map fun e => (e.1, f e.1 e.2)

/-- Keys strictly rising from a bound on. -/
def Tab.rising {α : Type} : Nat → Tab α → Bool
  | _, [] => true
  | b, (k, _) :: t => decide (b ≤ k) && Tab.rising (k + 1) t

/-- The canonical form: keys strictly rising and no entry equal to the default. -/
def Tab.wf {α : Type} [DecidableEq α] (d : α) (t : Tab α) : Bool := Tab.rising 0 t && t.all fun e => e.2 != d

/-- A memory's canonical form. -/
def Memory.wf (m : Memory) : Bool := Tab.wf (α := Byte) 0 m

/-- What an unlisted byte reads as (assumption 2). -/
def Memory.unlisted : Byte := 0

/-- The byte at an address. -/
def Memory.byte (m : Memory) (a : Nat) : Byte := Tab.get (α := Byte) Memory.unlisted m a

/-- A memory with one byte written. -/
def Memory.store (m : Memory) (a : Nat) (b : Byte) : Memory := Tab.set (α := Byte) Memory.unlisted m a b

/-- The `n` bytes from an address on. -/
def Memory.bytes (m : Memory) (a : Nat) : Nat → List Byte
  | 0 => []
  | n + 1 => m.byte a :: m.bytes (a + 1) n

/-- A memory with bytes written from an address on. -/
def Memory.storeBytes (m : Memory) (a : Nat) : List Byte → Memory
  | [] => m
  | b :: bs => (m.store a b).storeBytes (a + 1) bs

/-- The little-endian number of `n` bytes at an address. -/
def Memory.num (m : Memory) (a n : Nat) : Nat := leNat (m.bytes a n)

/-- The list with element `i` changed. -/
def listUpd {α : Type} (l : List α) (i : Nat) (f : α → α) : List α := l.modify i f

/-- The numbers below `n` in order. -/
def upto (n : Nat) : List Nat := List.range n

end Sys2Proof.Machine
end

