-- ==== Sys2Proof/Machine/Ops.lean ====
section
/-! DEFINITION. The named operations over the state: the parts of a team and a group, lane registers, predicates, relays
and scalar words (R27 to R38, R248), the clock (R329, R371), the outputs, and taking a trap (R353, R354). -/

namespace Sys2Proof.Machine

/-- The outcome of a step or of an instruction. -/
abbrev Out := Host.Outcome State Fault Refusal

/-! ### The parts of the state -/

/-- A context, at its reset values where nothing has been written. -/
def State.ctx (s : State) (c : Nat) : CtxRec := Tab.get CtxRec.reset s.ctxs c
def State.setCtx (s : State) (c : Nat) (r : CtxRec) : State := { s with ctxs := Tab.set CtxRec.reset s.ctxs c r }
def State.updCtx (s : State) (c : Nat) (f : CtxRec → CtxRec) : State := s.setCtx c (f (s.ctx c))

/-- A die's registers and tables. -/
def State.die (s : State) (d : Nat) : DieRec := Tab.get DieRec.reset s.dies d
def State.setDie (s : State) (d : Nat) (r : DieRec) : State := { s with dies := Tab.set DieRec.reset s.dies d r }
def State.updDie (s : State) (d : Nat) (f : DieRec → DieRec) : State := s.setDie d (f (s.die d))

/-- A core. -/
def State.core (s : State) (c : Nat) : CoreRec := Tab.get CoreRec.reset s.cores c
def State.setCore (s : State) (c : Nat) (r : CoreRec) : State := { s with cores := Tab.set CoreRec.reset s.cores c r }
def State.updCore (s : State) (c : Nat) (f : CoreRec → CoreRec) : State := s.setCore c (f (s.core c))

/-- A queue-table entry. -/
def State.queue (s : State) (q : Nat) : QueueRec := Tab.get QueueRec.reset s.queues q
def State.setQueue (s : State) (q : Nat) (r : QueueRec) : State := { s with queues := Tab.set QueueRec.reset s.queues q r }
def State.updQueue (s : State) (q : Nat) (f : QueueRec → QueueRec) : State := s.setQueue q (f (s.queue q))

/-- A stack and a link. -/
def State.stack (s : State) (k : Nat) : StackRec := Tab.get StackRec.reset s.stackTab k
def State.updStack (s : State) (k : Nat) (f : StackRec → StackRec) : State :=
  { s with stackTab := Tab.set StackRec.reset s.stackTab k (f (s.stack k)) }
def State.link (s : State) (k : Nat) : LinkRec := Tab.get LinkRec.reset s.links k
def State.updLink (s : State) (k : Nat) (f : LinkRec → LinkRec) : State :=
  { s with links := Tab.set LinkRec.reset s.links k (f (s.link k)) }

/-- A resident team by its serial number, and its change. -/
def State.team (s : State) (t : Nat) : Option TeamRec := s.teams.find t
def State.updTeam (s : State) (t : Nat) (f : TeamRec → TeamRec) : State := { s with teams := s.teams.upd t f }

/-- A group of a team, and its change. -/
def State.group (s : State) (t g : Nat) : Option Group := (s.team t).bind fun r => r.groups.find g
def State.updGroup (s : State) (t g : Nat) (f : Group → Group) : State :=
  s.updTeam t fun r => { r with groups := r.groups.upd g f }

/-- A grid by its serial number, and its change. -/
def State.grid (s : State) (g : Nat) : Option GridRec := s.grids.find g
def State.updGrid (s : State) (g : Nat) (f : GridRec → GridRec) : State := { s with grids := s.grids.upd g f }

/-- A new serial number. -/
def State.bump (s : State) : State := { s with nextId := s.nextId + 1 }

/-- A new free value (assumption 3). -/
def State.free (s : State) : BitVec 64 × State := (Config.freeValue s.freeCtr, { s with freeCtr := s.freeCtr + 1 })

/-- The die of a core (R10). -/
def dieOf (core : Nat) : Nat := core / 40

/-! ### The clock and the outputs -/

/-- TIME in nanoseconds (R329). -/
def State.time (s : State) : Nat := s.clock.ticks / 198

/-- Ticks in a nanosecond, and in a microsecond. -/
def nsTicks : Nat := 198
def usTicks : Nat := 198000

/-- Ticks in one cycle of each band's clock: 3.6, 3.0, 2.2 and 1.2 GHz (R371). -/
def Band.cycleTicks : Band → Nat
  | .cold => 55 | .chill => 66 | .transit => 90 | _ => 165

/-- The code of a band (R380). -/
def Band.code : Band → Nat
  | .cold => 0 | .chill => 1 | .transit => 2 | .warm => 3 | .halt => 4

/-- The code of a thermal state (R372). -/
def ThState.code : ThState → Nat
  | .off => 0 | .warmIdle => 1 | .cooling => 2 | .coldIdle => 3 | .run => 4 | .safelight => 5 | .warming => 6 | .tripped => 7

/-- The access to memory among a host's operations. -/
def HostOp.access? (o : HostOp) : Option HostAcc :=
  match o with
  | .aperture _ a | .physical _ a | .mem _ _ a => some a
  | _ => none

/-- A host operation that later ones of its port may not pass: a write without Relaxed Ordering, and a write to a register (R184). -/
def HostOp.ordered (o : HostOp) : Bool :=
  match o.access? with
  | some (.write _ _ ro) => !ro
  | some (.read _) => false
  | none => true

/-- Whether a host operation waits for those of its port in a list: all but a write with Relaxed Ordering wait for every ordered one
(R184). -/
def HostWait.waits (w : HostWait) (q : List HostWait) : Bool :=
  match w.op.access? with
  | some (.write _ _ true) => false
  | _ => q.any fun e => e.port == w.port && e.op.ordered

/-- An operation put behind those of its port that wait. -/
def State.hostWait (s : State) (p : Port) (op : HostOp) : State := { s with hostQ := s.hostQ ++ [⟨p, op⟩] }

/-- A write of the host to a register as it arrives: performed, or put behind the port's ordered operations that still wait (R184;
assumption 85). -/
def State.posted (s : State) (p : Port) (op : HostOp) (done : State) : State :=
  if (⟨p, op⟩ : HostWait).waits s.hostQ then s.hostWait p op else done

/-- An output of the device. -/
def State.emit (s : State) (e : OutEvt) : State := { s with out := s.out ++ [e] }

/-- The record of a port (R333). -/
def State.port (s : State) : Port → PortRec
  | .a => s.pkg.pa | .b => s.pkg.pb
def State.updPort (s : State) (p : Port) (f : PortRec → PortRec) : State :=
  match p with
  | .a => { s with pkg := { s.pkg with pa := f s.pkg.pa } }
  | .b => { s with pkg := { s.pkg with pb := f s.pkg.pb } }

/-- The die a port is on (R12). -/
def portDie : Port → Nat
  | .a => 0 | .b => 3

/-- The other port. -/
def otherPort : Port → Port
  | .a => .b | .b => .a

/-- A counter that saturates at 0xFFFF_FFFF. -/
def satInc (w : BitVec 32) : BitVec 32 := if w = BitVec.allOnes 32 then w else w + 1

/-- An ignored write counted in FOREIGN (R309, R335). -/
def State.foreign (s : State) : State := { s with pkg := { s.pkg with foreign := satInc s.pkg.foreign } }

/-- A die counter of R242, 48 bits, by its place in the order of R329, raised by `n`. -/
def State.count (s : State) (d i n : Nat) : State :=
  s.updDie d fun r => { r with cnt := Tab.set 0 r.cnt i (Tab.get 0 r.cnt i + BitVec.ofNat 48 n) }

/-! ### Lane registers, predicates, relays (R27 to R38, R248) -/

/-- A word without the mark. -/
def RWord.clean (w : Word) : RWord := ⟨w, false⟩

/-- The value of every register word at group start (R248). -/
def RWord.zero : RWord := ⟨0, false⟩

/-- Word `n` of a lane's allocation. -/
def Lane.reg (l : Lane) (n : Nat) : RWord := Tab.get RWord.zero l.regs n

/-- A lane with one word written. -/
def Lane.setReg (l : Lane) (n : Nat) (w : RWord) : Lane := { l with regs := Tab.set RWord.zero l.regs n w }

/-- A lane with words written from `n` on. -/
def Lane.setRegs (l : Lane) (n : Nat) : List RWord → Lane
  | [] => l
  | w :: ws => (l.setReg n w).setRegs (n + 1) ws

/-- The `k` words from `n` on. -/
def Lane.words (l : Lane) (n k : Nat) : List RWord := (List.range k).map fun i => l.reg (n + i)

/-- Predicate `n`; p7 reads true (R28). -/
def Lane.pred (l : Lane) (n : Nat) : Bool := n == 7 || l.preds.getLsbD n

/-- A lane with a predicate written; p7 discards it (R28). -/
def Lane.setPred (l : Lane) (n : Nat) (b : Bool) : Lane :=
  if 7 ≤ n then l
  else { l with preds := if b then l.preds ||| BitVec.ofNat 7 (2 ^ n) else l.preds &&& ~~~(BitVec.ofNat 7 (2 ^ n)) }

/-- A push onto the relay: what stood in d8 is lost (R36). -/
def Lane.push (l : Lane) (e : RelayEnt) : Lane := { l with relay := (e :: l.relay).take 8 }

/-- The relay emptied (R37). -/
def Lane.drop (l : Lane) : Lane := { l with relay := [] }

/-- Scalar word `n` (R29). -/
def Group.greg (g : Group) (n : Nat) : RWord := Tab.get RWord.zero g.gregs n

/-- A group with one scalar word written. -/
def Group.setG (g : Group) (n : Nat) (w : RWord) : Group := { g with gregs := Tab.set RWord.zero g.gregs n w }

/-- A group with scalar words written from `n` on. -/
def Group.setGs (g : Group) (n : Nat) : List RWord → Group
  | [] => g
  | w :: ws => (g.setG n w).setGs (n + 1) ws

/-- The `k` scalar words from `n` on. -/
def Group.gwords (g : Group) (n k : Nat) : List RWord := (List.range k).map fun i => g.greg (n + i)

/-- A lane that has exited or was never there. -/
def Lane.none : Lane := ⟨0, false, Option.none, [], 0, [], [], Option.none⟩

/-- Lane `i` of a group. -/
def Group.lane (g : Group) (i : Nat) : Lane := g.lanes.getD i Lane.none

/-- A group with lane `i` changed. -/
def Group.updLane (g : Group) (i : Nat) (f : Lane → Lane) : Group := { g with lanes := listUpd g.lanes i f }

/-- A group with each lane changed, given its number. -/
def Group.mapLanes (g : Group) (f : Nat → Lane → Lane) : Group := { g with lanes := g.lanes.mapIdx f }

/-- NCTL's fields (R81): NOISE in bit 0, SEC in bit 1, STRICT in bit 2. -/
def Group.noise (g : Group) : Bool := g.nctl.getLsbD 0
def Group.secOn (g : Group) : Bool := g.nctl.getLsbD 1
def Group.strict (g : Group) : Bool := g.nctl.getLsbD 2

/-- A mask of lanes as the list of their numbers, and back. -/
def lanesOf (m : BitVec 32) : List Nat := (List.range 32).filter fun i => m.getLsbD i
def maskOf (l : List Nat) : BitVec 32 := l.foldl (fun m i => m ||| BitVec.ofNat 32 (2 ^ i)) 0

/-! ### Traps (R352 to R354) -/

/-- A trap condition of a group, found at its instruction of serial number `id`: it stands until TRAP_DELIVERY, and the group does not
issue again. A condition found after another trap's step 1 is dropped, and so is one of a team that has ended (R354). -/
def State.raiseAt (s : State) (t g id code detail : Nat) (lpc : Word) (lanes : BitVec 32) (addr : Nat) : State :=
  let s := { s with issuing := none }
  s.updTeam t fun r =>
    match r.trap with
    | some _ => r
    | none => { r with conds := r.conds ++ [⟨id, g, code, detail, lpc, lanes, addr, s.clock.cycle⟩] }

/-- A trap condition at the instruction that a group has next: everything that it has issued came before. -/
def State.raise (s : State) (t g code detail : Nat) (lpc : Word) (lanes : BitVec 32) (addr : Nat) : State :=
  s.raiseAt t g s.nextId code detail lpc lanes addr

/-- Whether a condition of a group stands at or before an instruction of it, which then does nothing more (R97). -/
def TeamRec.barred (r : TeamRec) (g id : Nat) : Bool := r.conds.any fun c => c.grp == g && decide (c.id ≤ id)

/-- The condition that is delivered: of those of the earliest cycle, the one of the lowest GROUP (R354). -/
def firstCond : List Cond → Option Cond
  | [] => none
  | c :: cs =>
    match firstCond cs with
    | none => some c
    | some b => if b.cyc < c.cyc || (b.cyc == c.cyc && b.grp < c.grp) then some b else some c

/-- Whether any lane of a team is inside a transaction. -/
def TeamRec.inTx (r : TeamRec) : Bool := r.groups.any fun (e : Nat × Group) => e.2.lanes.any fun l => l.tx.isSome

/-- How many lines a version holds (R347). -/
def Version.lines (v : Version) : Nat := (v.bytes.foldl (fun (a : List Nat) e => if a.head? = some (e.1 / 128) then a else (e.1 / 128) :: a) []).length

/-- An empty version. -/
def Version.empty : Version := ⟨[], [], [], []⟩

/-- Whether two writers are one instruction of a group, issued once or again. -/
def Writer.same (a b : Writer) : Bool := { a with id := 0 } == { b with id := 0 }

/-- The writers of two sets of bytes, each instruction once, at its first issue. -/
def addWriters (a b : List Writer) : List Writer := b.foldl (fun l w => if l.any fun v => v.same w then l else l ++ [w]) a

/-- Two versions of one task as one: what the later one holds lies over what the earlier one holds (R346). -/
def Version.under (old new : Version) : Version :=
  { bytes := new.bytes.foldl (fun b e => b.ins e.1 e.2) old.bytes
    whole := old.whole ++ new.whole.filter fun c => !old.whole.contains c
    launches := old.launches ++ new.launches
    writers := new.writers.foldl (fun w e => w.ins e.1 (addWriters (Tab.get [] w e.1) e.2)) old.writers }

/-- Whether a version holds nothing. -/
def Version.isEmpty (v : Version) : Bool := v.bytes.isEmpty && v.launches.isEmpty

/-- The engines of a core without a team's work (R153): entries that have not begun are discarded and a running one stops
at its step. -/
def CoreRec.dropTeam (c : CoreRec) (t : Nat) : CoreRec :=
  { c with
    tileQ := c.tileQ.filter fun o => o.team != t
    bulkQ := c.bulkQ.filter fun o => o.team != t }

/-- The serial number of the LAUNCH or the DEVELOP at which a group waits: it completes although a later trap of the team stops the
group (R97, R286, R353). -/
def Group.waitsAt (g : Group) : Option Nat :=
  match g.wait, g.held with
  | .launch, .launch id _ _ _ _ _ _ => some id
  | .develop id _, _ => some id
  | _, _ => none

/-- A group at a trap of its team: its loads return nothing, its transactions are discarded with their ATOMs, and its relays empty (R37,
R97, R188, R215). The stores, ATOMs, LAUNCH and DEVELOP that it issued stay pending; `cut` is set for the trapping group, of which only
what came before the trapping instruction stays (R97). -/
def Group.stopped (g : Group) (cut : Option Nat) : Group :=
  let before := fun id => decide (id < cut.getD (id + 1))
  let on := g.waitsAt.any before
  { g with
    loads := [], fences := [], arrivals := [], wait := if on then g.wait else .none, held := if on then g.held else .none
    storeQ := g.storeQ.filter fun e => before e.id
    atoms := ((g.atoms.filter fun a => before a.id).map fun a => { a with lanes := a.lanes.filter fun e => !a.tx.contains e.1 }).filter
      fun a => !a.lanes.isEmpty
    lanes := g.lanes.map fun l => { l with tx := none, relay := [] } }

/-- Whether a requester belongs to a team. -/
def Req.ofTeam (q : Req) (s : State) (t : Nat) : Bool :=
  match q with
  | .load t' _ _ | .store t' _ | .atom t' _ _ | .copy t' _ | .fetch t' _ | .develop t' | .tx t' _ | .trapRec t' => t' == t
  | .bulk c i => (s.core c).bulkQ.any fun b => b.id == i && b.team == t
  | .tile c i => (s.core c).tileQ.any fun o => o.id == i && o.team == t
  | _ => false

/-- Whether a requester's access completes although its team takes a trap (R97, R353). -/
def Req.completes (q : Req) : Bool :=
  match q with
  | .store _ _ | .atom _ _ _ | .develop _ | .trapRec _ => true
  | _ => false

/-- What requesters that a test names owe to walks and purges, dropped. -/
def State.dropReqs (s : State) (p : Req → Bool) : State :=
  { s with walks := s.walks.filter fun w => !p w.req, holds := s.holds.filter fun h => !p h.req }

/-- Taking a trap, steps 1 and 2 of R353: every group of the team stops and the record's fields are taken; the engines stop, open
transactions are discarded and every relay empties (R37). What the groups issued before it stays pending (R97, R188), and loads and
copies in flight return nothing. -/
def State.takeTrap (s : State) (t : Nat) (word : Nat) : State :=
  match s.team t with
  | none => s
  | some r =>
    match r.trap, firstCond r.conds with
    | none, some c =>
      let r' := { r with
        trap := some ⟨c, s.time, s.thermal.band.code, word, r.inTx, none, 0⟩, conds := [], copies := [], barq := []
        groups := r.groups.mapv fun n g => g.stopped (if n = c.grp then some c.id else none) }
      let s' := s.dropReqs fun q => q.ofTeam s t && !q.completes
      { s' with teams := s'.teams.ins t r' }.updCore r.core fun k => k.dropTeam t
    | _, _ => s

/-- Whether what a team issued before its trap has completed (R97, R353): stores, ATOMs, launches and develops. -/
def TeamRec.drained (r : TeamRec) : Bool :=
  r.dev.isNone && r.groups.all fun (e : Nat × Group) => e.2.storeQ.isEmpty && e.2.atoms.isEmpty && e.2.waitsAt.isNone

/-- Step 3 of R353: with everything issued before the trap complete, the version is discarded (R349). -/
def State.discard (s : State) (t : Nat) : State :=
  s.updTeam t fun r =>
    match r.trap with
    | some i =>
      if i.gone.isNone && r.drained then
        { r with trap := some { i with gone := some (!r.ver.isEmpty, r.ver.lines), since := s.time }, ver := .empty }
      else r
    | none => r

/-- The end of a trap: the team's resources are freed (step 5 of R353). -/
def State.freeTeam (s : State) (t : Nat) : State :=
  match s.team t with
  | none => s
  | some r =>
    let s' := s.dropReqs fun q => q.ofTeam s t
    { s' with teams := s'.teams.del t }.updCore r.core fun k =>
      { (k.dropTeam t) with
        bank := r.banks.foldl (fun b p => b.del p) k.bank
        stepped := r.banks.foldl (fun b p => b.del p) k.stepped }

end Sys2Proof.Machine
end

