-- ==== Sys2Proof/Machine/Flags.lean ====
section
/-! DEFINITION. The predicate computations. The device has no flags register (R95): comparisons and tests write
predicates (R100, R101), and the immediates of branches and loads are sign-extended here. -/

namespace Sys2Proof.Machine

/-- An integer comparison (R100). -/
def icmp (c : ICond) (u : Bool) (a b : Word) : Bool :=
  let lt := if u then decide (a.toNat < b.toNat) else decide (a.toInt < b.toInt)
  match c with
  | .eq => a == b
  | .ne => a != b
  | .lt => lt
  | .le => lt || a == b
  | .gt => !(lt || a == b)
  | .ge => !lt

/-- The bit of a truth table that three predicates select (R101). -/
def plopBit (table : Nat) (a b c : Bool) : Bool := table / 2 ^ (4 * a.toNat + 2 * b.toNat + c.toNat) % 2 == 1

/-- PSET's test of a word (R101). -/
def ptest (t : PTest) (a : Word) : Bool :=
  match t with
  | .nz => a != 0
  | .z => a == 0
  | .bit k => a.getLsbD k.val

/-- A predicate as a result word. -/
def boolWord (b : Bool) : Word := if b then 1 else 0

/-- A signed immediate of `n` bits as a 32-bit word (R25). -/
def sext (x : BitVec n) : Word := x.signExtend 32

end Sys2Proof.Machine
end

