-- ==== Sys2Proof/Machine/Operands.lean ====
section
/-! DEFINITION. The operands of every instruction in one form (R27 to R31): what it reads, what it writes, its latency
(R39), and what may hold it before it issues (R174, R262). -/

namespace Sys2Proof.Machine

/-- One source: its field (0 rd, 1 ra, 2 rb, 3 rc), its operand, its shape, whether it is consumed at issue (the data of
ST, STP and CPY are not, R190), how many of its last words are not read (THAD's g(n+7), R147), and whether lanes that do not execute
are read too (SHFL, R122). -/
structure Use where
  fld : Nat
  src : Src
  sh : Shape
  eats : Bool
  skip : Nat
  far : Bool
  deriving DecidableEq, Repr

/-- How many words of a source are read. -/
def Use.count (u : Use) : Nat := u.sh.words - u.skip

/-- What an instruction writes. -/
inductive Dest where
  | none | lane (d : LDst) (sh : Shape) | scalar (n : Fin 64) (sh : Shape) | pred (n : Pred)
  deriving DecidableEq, Repr

/-- An instruction's form: length, stall and guard, its sources and the predicates it reads, its destination, the fixed
latency (0 if variable), whether R174 holds it behind a fence, whether it needs
room in the store queue (R198), whether it ends transactions (R214), the bank it waits for, for VRD and VWR the shape of the words that
source 0 points at (R126, R127), and whether NCTL.STRICT has no effect on it (R154). -/
structure Form where
  len : Nat
  stall : Nat
  gp : Pred
  gn : Bool
  wide : Bool
  uses : List Use
  puses : List (Nat × Pred)
  dest : Dest
  lat : Nat
  fenced : Bool
  queued : Bool
  commits : Bool
  bank : Option (Fin 4)
  index : Option Shape
  loose : Bool
  deriving DecidableEq, Repr

/-- A 64-bit instruction without operands. -/
def hdForm (h : Hd) : Form := ⟨8, h.stall.val, h.gp, h.gn, false, [], [], .none, 0, false, false, false, none, none, false⟩

/-- A compact form: guard p7, stall 1 (R43). -/
def c16Form : Form := ⟨2, 1, 7, false, false, [], [], .none, 0, false, false, false, none, none, false⟩

/-- A short form: guard p7 (R44). -/
def s32Form (st : Fin 4) : Form := ⟨4, st.val, 7, false, false, [], [], .none, 0, false, false, false, none, none, false⟩

/-- The fixed latencies of R39 by shape. -/
def shapeLat : Shape → Nat
  | .P => 4 | .M => 5 | .Q => 7 | .S => 6

def srcOfL : LSrc → Src
  | .v n => .v n | .d n => .d n | .z => .z | .lid => .lid
def srcOfC : CSrc → Src
  | .v n => .v ⟨n.val, by omega⟩ | .d n => .d n
def srcOfS : SSrc → Src
  | .v n => .v ⟨n.val, by omega⟩ | .d n => .d n
def srcOfB : Base → Src
  | .v n => .v n | .g n => .g n
def regOf6 (d : Fin 64) : Fin 224 := ⟨d.val, by omega⟩

/-- A destination of layout I in a shape (R34). -/
def destOf (d : Dst) (sh : Shape) : Dest :=
  match d with
  | .v n => .lane (.v n) sh
  | .z => .lane .z sh
  | .g n => .scalar n sh

/-- The shape of a format's value in registers (R65). -/
def fmtShape (f : Fmt) : Shape := if f.wide then .M else .P

def use (fld : Nat) (src : Src) (sh : Shape) : Use := ⟨fld, src, sh, true, 0, false⟩
def useD (fld : Nat) (src : Src) (sh : Shape) : Use := ⟨fld, src, sh, false, 0, false⟩
def useP (fld : Nat) (p : Pred) : Nat × Pred := (fld, p)
def mshape (m : Bool) : Shape := if m then .M else .P

/-- The operand span of LAUNCH (R277). -/
def launchShape (o : LaunchOpt) : Shape := if o.size = .desc then .M else .Q

/-- ATOM's second operand (R199). -/
def atomUses : AtomOp → List Use
  | .cas y => [use 3 y .P]
  | .addb y => [use 3 y .P]
  | _ => []

/-- The form of every instruction; an event has an empty one. -/
def formOf (i : Instr) : Form :=
  match i with
  | .nop h => hdForm h
  | .bra h _ => hdForm h
  | .brx h ra => { hdForm h with uses := [use 1 ra .P] }
  | .call h rd _ => { hdForm h with dest := .lane rd .P, lat := 4 }
  | .callx h rd ra => { hdForm h with uses := [use 1 ra .P], dest := .lane rd .P, lat := 4 }
  | .ret h ra => { hdForm h with uses := [use 1 ra .P] }
  | .exit h => hdForm h
  | .waitl h => hdForm h
  | .yield h => hdForm h
  | .trap h _ => hdForm h
  | .bkpt h => hdForm h
  | .srd h rd _ => { hdForm h with dest := .lane rd .P }
  | .swr h ra _ => { hdForm h with uses := [use 1 ra .P] }
  | .develop h => hdForm h
  | .budget h ra => { hdForm h with uses := [use 1 ra .P] }
  | .launch h rd opt => { hdForm h with uses := [use 0 (srcOfB rd) (launchShape opt)], fenced := true }
  | .ill _ => hdForm ⟨0, 7, false⟩
  | .iadd h rd ra rb => { hdForm h with uses := [use 1 ra .P, use 2 rb .P], dest := destOf rd .P, lat := 4 }
  | .isub h rd ra rb => { hdForm h with uses := [use 1 ra .P, use 2 rb .P], dest := destOf rd .P, lat := 4 }
  | .imul h rd ra rb => { hdForm h with uses := [use 1 ra .P, use 2 rb .P], dest := destOf rd .P, lat := 6 }
  | .imulh h rd ra rb _ => { hdForm h with uses := [use 1 ra .P, use 2 rb .P], dest := destOf rd .P, lat := 6 }
  | .imad h rd ra rb rc => { hdForm h with uses := [use 1 ra .P, use 2 rb .P, use 3 rc .P], dest := destOf rd .P, lat := 6 }
  | .imin h rd ra rb _ => { hdForm h with uses := [use 1 ra .P, use 2 rb .P], dest := destOf rd .P, lat := 4 }
  | .imax h rd ra rb _ => { hdForm h with uses := [use 1 ra .P, use 2 rb .P], dest := destOf rd .P, lat := 4 }
  | .iabs h rd ra => { hdForm h with uses := [use 1 ra .P], dest := destOf rd .P, lat := 4 }
  | .and h rd ra rb => { hdForm h with uses := [use 1 ra .P, use 2 rb .P], dest := destOf rd .P, lat := 4 }
  | .or h rd ra rb => { hdForm h with uses := [use 1 ra .P, use 2 rb .P], dest := destOf rd .P, lat := 4 }
  | .xor h rd ra rb => { hdForm h with uses := [use 1 ra .P, use 2 rb .P], dest := destOf rd .P, lat := 4 }
  | .andn h rd ra rb => { hdForm h with uses := [use 1 ra .P, use 2 rb .P], dest := destOf rd .P, lat := 4 }
  | .shl h rd ra rb => { hdForm h with uses := [use 1 ra .P, use 2 rb .P], dest := destOf rd .P, lat := 4 }
  | .shr h rd ra rb => { hdForm h with uses := [use 1 ra .P, use 2 rb .P], dest := destOf rd .P, lat := 4 }
  | .sar h rd ra rb => { hdForm h with uses := [use 1 ra .P, use 2 rb .P], dest := destOf rd .P, lat := 4 }
  | .rotl h rd ra rb => { hdForm h with uses := [use 1 ra .P, use 2 rb .P], dest := destOf rd .P, lat := 4 }
  | .bfe h rd ra rb rc _ => { hdForm h with uses := [use 1 ra .P, use 2 rb .P, use 3 rc .P], dest := destOf rd .P, lat := 4 }
  | .bfi h rd ra rb rc => { hdForm h with uses := [use 1 ra .P, use 2 rb .P, use 3 rc .P], dest := destOf rd .P, lat := 4 }
  | .popc h rd ra => { hdForm h with uses := [use 1 ra .P], dest := destOf rd .P, lat := 4 }
  | .clz h rd ra => { hdForm h with uses := [use 1 ra .P], dest := destOf rd .P, lat := 4 }
  | .brev h rd ra => { hdForm h with uses := [use 1 ra .P], dest := destOf rd .P, lat := 4 }
  | .icmp h rd ra rb _ _ => { hdForm h with uses := [use 1 ra .P, use 2 rb .P], dest := .pred rd, lat := 4 }
  | .sel h sh rd ra rb rc => { hdForm h with uses := [use 1 ra sh, use 2 rb sh], puses := [useP 3 rc], dest := destOf rd sh, lat := shapeLat sh, wide := decide (sh = .S) }
  | .mov h sh rd ra => { hdForm h with uses := [use 1 ra sh], dest := destOf rd sh, lat := shapeLat sh, wide := decide (sh = .S) }
  | .movi h rd _ => { hdForm h with dest := destOf rd .P, lat := 4 }
  | .lea h rd ra rb _ _ => { hdForm h with uses := [use 1 (srcOfB ra) .M, use 2 rb .P], dest := destOf rd .M, lat := 4 }
  | .plop h rd ra rb rc _ => { hdForm h with puses := [useP 1 ra, useP 2 rb, useP 3 rc], dest := .pred rd, lat := 4 }
  | .pset h rd ra _ => { hdForm h with uses := [use 1 ra .P], dest := .pred rd, lat := 4 }
  | .iaddImm h rd ra _ => { hdForm h with uses := [use 1 (srcOfL ra) .P], dest := .lane rd .P, lat := 4 }
  | .imulImm h rd ra _ => { hdForm h with uses := [use 1 (srcOfL ra) .P], dest := .lane rd .P, lat := 6 }
  | .andImm h rd ra _ => { hdForm h with uses := [use 1 (srcOfL ra) .P], dest := .lane rd .P, lat := 4 }
  | .orImm h rd ra _ => { hdForm h with uses := [use 1 (srcOfL ra) .P], dest := .lane rd .P, lat := 4 }
  | .xorImm h rd ra _ => { hdForm h with uses := [use 1 (srcOfL ra) .P], dest := .lane rd .P, lat := 4 }
  | .shlImm h rd ra _ => { hdForm h with uses := [use 1 (srcOfL ra) .P], dest := .lane rd .P, lat := 4 }
  | .shrImm h rd ra _ => { hdForm h with uses := [use 1 (srcOfL ra) .P], dest := .lane rd .P, lat := 4 }
  | .sarImm h rd ra _ => { hdForm h with uses := [use 1 (srcOfL ra) .P], dest := .lane rd .P, lat := 4 }
  | .fadd h sh rd ra rb _ => { hdForm h with uses := [use 1 ra sh, use 2 rb sh], dest := .lane rd sh, lat := shapeLat sh, wide := decide (sh = .S) }
  | .fsub h sh rd ra rb _ => { hdForm h with uses := [use 1 ra sh, use 2 rb sh], dest := .lane rd sh, lat := shapeLat sh, wide := decide (sh = .S) }
  | .fmul h sh rd ra rb _ _ => { hdForm h with uses := [use 1 ra sh, use 2 rb sh], dest := .lane rd sh, lat := shapeLat sh, wide := decide (sh = .S) }
  | .ffma h sh rd ra rb rc _ _ => { hdForm h with uses := [use 1 ra sh, use 2 rb sh, use 3 rc sh], dest := .lane rd sh, lat := shapeLat sh, wide := decide (sh = .S) }
  | .fmin h sh rd ra rb _ => { hdForm h with uses := [use 1 ra sh, use 2 rb sh], dest := .lane rd sh, lat := shapeLat sh, wide := decide (sh = .S) }
  | .fmax h sh rd ra rb _ => { hdForm h with uses := [use 1 ra sh, use 2 rb sh], dest := .lane rd sh, lat := shapeLat sh, wide := decide (sh = .S) }
  | .fcmp h sh rd ra rb _ => { hdForm h with uses := [use 1 ra sh, use 2 rb sh], dest := .pred rd, lat := shapeLat sh }
  | .frelu h sh rd ra _ => { hdForm h with uses := [use 1 ra sh], dest := .lane rd sh, lat := shapeLat sh, wide := decide (sh = .S) }
  | .fsqrelu h sh rd ra _ => { hdForm h with uses := [use 1 ra sh], dest := .lane rd sh, lat := shapeLat sh, wide := decide (sh = .S) }
  | .fclass h sh rd ra => { hdForm h with uses := [use 1 ra sh], dest := .lane rd .P, lat := shapeLat sh }
  | .cvt h sh rd ra dst src _ => { hdForm h with uses := [use 1 ra (if sh = .P then fmtShape src else sh)], dest := .lane rd (if sh = .P then fmtShape dst else sh), lat := shapeLat sh, wide := decide (sh = .S) }
  | .qpk h sh rd ra _ _ => { hdForm h with uses := [use 1 ra sh], dest := .lane rd sh }
  | .qupk h rd ra _ => { hdForm h with uses := [use 1 ra .P], dest := .lane rd .P }
  | .frcp h sh rd ra _ => { hdForm h with uses := [use 1 ra sh], dest := .lane rd sh, wide := decide (sh = .S) }
  | .fdiv h sh rd ra rb _ => { hdForm h with uses := [use 1 ra sh, use 2 rb sh], dest := .lane rd sh, wide := decide (sh = .S) }
  | .fsqrt h sh rd ra _ => { hdForm h with uses := [use 1 ra sh], dest := .lane rd sh, wide := decide (sh = .S) }
  | .frsq h sh rd ra _ => { hdForm h with uses := [use 1 ra sh], dest := .lane rd sh, wide := decide (sh = .S) }
  | .fexp2 h sh rd ra _ => { hdForm h with uses := [use 1 ra sh], dest := .lane rd sh, wide := decide (sh = .S) }
  | .flog2 h sh rd ra _ => { hdForm h with uses := [use 1 ra sh], dest := .lane rd sh, wide := decide (sh = .S) }
  | .fsinpi h sh rd ra _ => { hdForm h with uses := [use 1 ra sh], dest := .lane rd sh, wide := decide (sh = .S) }
  | .fcospi h sh rd ra _ => { hdForm h with uses := [use 1 ra sh], dest := .lane rd sh, wide := decide (sh = .S) }
  | .ftanh h sh rd ra _ => { hdForm h with uses := [use 1 ra sh], dest := .lane rd sh, wide := decide (sh = .S) }
  | .fsigm h sh rd ra _ => { hdForm h with uses := [use 1 ra sh], dest := .lane rd sh, wide := decide (sh = .S) }
  | .mmk h sh rd ra rb => { hdForm h with uses := [use 1 ra .P, use 2 rb .P], dest := .lane rd sh, lat := shapeLat sh }
  | .mspl h sh rd ra => { hdForm h with uses := [use 1 ra sh], dest := .lane rd .P, lat := shapeLat sh }
  | .maddv h sh rd ra rb => { hdForm h with uses := [use 1 ra sh, use 2 rb .P], dest := .lane rd sh, lat := shapeLat sh }
  | .mtag h rd ra rb _ => { hdForm h with uses := [use 1 ra .Q, use 2 rb .P], dest := .lane rd .Q, lat := 7 }
  | .mcov h rd ra rb => { hdForm h with uses := [use 1 ra .Q, use 2 rb .Q], dest := .lane rd .P, lat := 7 }
  | .mfold h rd ra _ => { hdForm h with uses := [use 1 ra .Q], dest := .lane rd .Q, lat := 7 }
  | .sdraw h rd ra => { hdForm h with uses := [use 1 ra .M], dest := .lane rd .S, wide := true }
  | .sstat h rd ra => { hdForm h with uses := [use 1 ra .S], dest := .lane rd .M, lat := 6, wide := true }
  | .shfl h sh rd ra rb _ _ => { hdForm h with uses := [{ use 1 ra sh with far := true }, use 2 rb .P], dest := .lane rd sh, wide := decide (sh = .S) }
  | .vote h rd ra _ => { hdForm h with puses := [useP 1 ra], dest := .lane rd .P }
  | .lred h sh rd ra _ _ => { hdForm h with uses := [use 1 ra sh], dest := .lane rd sh }
  | .lscn h sh rd ra _ _ _ => { hdForm h with uses := [use 1 ra sh], dest := .lane rd sh }
  | .match h rd ra => { hdForm h with uses := [use 1 ra .P], dest := .lane rd .P }
  | .vrd h sh rd ra => { hdForm h with uses := [use 1 ra .P], dest := .lane rd sh, wide := decide (sh = .S), index := some sh }
  | .vwr h sh ra rb => { hdForm h with uses := [use 1 ra .P, use 2 rb sh], wide := decide (sh = .S), index := some sh }
  | .gseed h ra _ form => { hdForm h with uses := [use 1 ra .M] ++ (match form with | .seed _ r => [use 2 r .P] | .pos => []) }
  | .guni h sh rd _ _ => { hdForm h with dest := .lane rd sh, wide := decide (sh = .S) }
  | .gnorm h sh rd _ => { hdForm h with dest := .lane rd sh, wide := decide (sh = .S) }
  | .ggum h sh rd _ => { hdForm h with dest := .lane rd sh, wide := decide (sh = .S) }
  | .gber h rd ra _ => { hdForm h with uses := [use 1 ra .P], dest := .lane rd .P }
  | .gcat h rd ra _ => { hdForm h with uses := [use 1 ra .P], dest := .lane rd .P }
  | .ld h rd ra wd _ _ _ _ => { hdForm h with uses := [use 1 (srcOfB ra) .M], dest := .lane rd wd.shape, fenced := true }
  | .st h rd ra wd _ _ _ => { hdForm h with uses := [useD 0 (srcOfL rd) wd.shape, use 1 (srcOfB ra) .M], fenced := true, queued := true }
  | .ldp h rd ra rb _ _ => { hdForm h with uses := [use 1 (srcOfB ra) .M, use 2 rb .P], dest := .lane rd .M, fenced := true }
  | .stp h rd ra rb _ _ => { hdForm h with uses := [useD 0 (srcOfL rd) .M, use 1 (srcOfB ra) .M, use 2 rb .P], fenced := true, queued := true }
  | .atom h op rd ra rb => { hdForm h with uses := [use 1 (srcOfB ra) .M, use 2 rb .P] ++ atomUses op, dest := (match rd with | some d => .lane d .P | none => .none), fenced := true }
  | .fence h _ _ _ => hdForm h
  | .cctlWb h ra rb => { hdForm h with uses := [use 1 (srcOfB ra) .M, use 2 rb .P], fenced := true }
  | .cctlInv h ra rb => { hdForm h with uses := [use 1 (srcOfB ra) .M, use 2 rb .P], fenced := true }
  | .cctlDrain h ra rb => { hdForm h with uses := [use 1 (srcOfB ra) .M, use 2 rb .P], fenced := true }
  | .cctlRepl h ra rb => { hdForm h with uses := [use 1 (srcOfB ra) .M, use 2 rb .P], fenced := true }
  | .cctlPf1 h ra rb => { hdForm h with uses := [use 1 (srcOfB ra) .M, use 2 rb .P], fenced := true }
  | .cctlPf2 h ra rb => { hdForm h with uses := [use 1 (srcOfB ra) .M, use 2 rb .P], fenced := true }
  | .txbeg h pn => { hdForm h with dest := .pred (pn.castLE (by omega)), fenced := true }
  | .txend h rd => { hdForm h with dest := .pred rd, commits := true }
  | .txabt h => hdForm h
  | .cpy h ra rb _ _ _ _ => { hdForm h with uses := [use 1 (srcOfB ra) .M, use 2 (srcOfB rb) .M], fenced := true }
  | .cpyb h ra _ _ => { hdForm h with uses := [use 1 (.g ra) .S], fenced := true }
  | .binit h ra _ => { hdForm h with uses := [use 1 ra .P] }
  | .barv h _ => { hdForm h with fenced := true }
  | .bexp h ra _ _ => { hdForm h with uses := [use 1 ra .P] }
  | .bwait h _ _ => hdForm h
  | .btest h rd _ _ => { hdForm h with dest := .pred rd }
  | .bsync h _ => { hdForm h with fenced := true }
  | .tloop h ra _ _ _ _ => { hdForm h with uses := [use 1 (.g ra) .S], fenced := true, loose := true }
  | .thad h ra _ _ _ => { hdForm h with uses := [⟨1, .g ra, .S, true, 1, false⟩], fenced := true, loose := true }
  | .taccRd h rd ra k f => { hdForm h with uses := [use 1 ra .P], dest := .lane rd (if f = .m then .M else .P), bank := some k, loose := true }
  | .taccWr h sh rd ra k => { hdForm h with uses := [use 1 ra (if sh = .P then .M else .Q)], dest := .lane rd sh, bank := some k, loose := true }
  | .taccZero h k => { hdForm h with bank := some k, loose := true }
  | .tqnt h ra _ _ _ _ => { hdForm h with uses := [use 1 (.g ra) .Q], fenced := true, loose := true }
  | .movC16 d b => { c16Form with uses := [use 1 (srcOfC b) .P], dest := .lane (.v (regOf6 d)) .P, lat := 4 }
  | .iaddC16 d b => { c16Form with uses := [use 1 (.v (regOf6 d)) .P, use 2 (srcOfC b) .P], dest := .lane (.v (regOf6 d)) .P, lat := 4 }
  | .isubC16 d b => { c16Form with uses := [use 1 (.v (regOf6 d)) .P, use 2 (srcOfC b) .P], dest := .lane (.v (regOf6 d)) .P, lat := 4 }
  | .andC16 d b => { c16Form with uses := [use 1 (.v (regOf6 d)) .P, use 2 (srcOfC b) .P], dest := .lane (.v (regOf6 d)) .P, lat := 4 }
  | .orC16 d b => { c16Form with uses := [use 1 (.v (regOf6 d)) .P, use 2 (srcOfC b) .P], dest := .lane (.v (regOf6 d)) .P, lat := 4 }
  | .xorC16 d b => { c16Form with uses := [use 1 (.v (regOf6 d)) .P, use 2 (srcOfC b) .P], dest := .lane (.v (regOf6 d)) .P, lat := 4 }
  | .shlC16 d b => { c16Form with uses := [use 1 (.v (regOf6 d)) .P, use 2 (srcOfC b) .P], dest := .lane (.v (regOf6 d)) .P, lat := 4 }
  | .shrC16 d b => { c16Form with uses := [use 1 (.v (regOf6 d)) .P, use 2 (srcOfC b) .P], dest := .lane (.v (regOf6 d)) .P, lat := 4 }
  | .iaddiC16 d _ => { c16Form with uses := [use 1 (.v (regOf6 d)) .P], dest := .lane (.v (regOf6 d)) .P, lat := 4 }
  | .moviC16 d _ => { c16Form with dest := .lane (.v (regOf6 d)) .P, lat := 4 }
  | .faddC16 d b => { c16Form with uses := [use 1 (.v (regOf6 d)) .P, use 2 (srcOfC b) .P], dest := .lane (.v (regOf6 d)) .P, lat := 4 }
  | .fmulC16 d b => { c16Form with uses := [use 1 (.v (regOf6 d)) .P, use 2 (srcOfC b) .P], dest := .lane (.v (regOf6 d)) .P, lat := 4 }
  | .faddMC16 d b => { c16Form with uses := [use 1 (.v (regOf6 d)) .M, use 2 (srcOfC b) .M], dest := .lane (.v (regOf6 d)) .M, lat := 5 }
  | .fmulMC16 d b => { c16Form with uses := [use 1 (.v (regOf6 d)) .M, use 2 (srcOfC b) .M], dest := .lane (.v (regOf6 d)) .M, lat := 5 }
  | .braS _ => c16Form
  | .nopC16 => c16Form
  | .iaddS32 st rd ra rb => { s32Form st with uses := [use 1 (srcOfL ra) .P, use 2 (srcOfS rb) .P], dest := .lane rd .P, lat := 4 }
  | .isubS32 st rd ra rb => { s32Form st with uses := [use 1 (srcOfL ra) .P, use 2 (srcOfS rb) .P], dest := .lane rd .P, lat := 4 }
  | .imulS32 st rd ra rb => { s32Form st with uses := [use 1 (srcOfL ra) .P, use 2 (srcOfS rb) .P], dest := .lane rd .P, lat := 6 }
  | .imulhS32 st rd ra rb => { s32Form st with uses := [use 1 (srcOfL ra) .P, use 2 (srcOfS rb) .P], dest := .lane rd .P, lat := 6 }
  | .iminS32 st rd ra rb => { s32Form st with uses := [use 1 (srcOfL ra) .P, use 2 (srcOfS rb) .P], dest := .lane rd .P, lat := 4 }
  | .imaxS32 st rd ra rb => { s32Form st with uses := [use 1 (srcOfL ra) .P, use 2 (srcOfS rb) .P], dest := .lane rd .P, lat := 4 }
  | .andS32 st rd ra rb => { s32Form st with uses := [use 1 (srcOfL ra) .P, use 2 (srcOfS rb) .P], dest := .lane rd .P, lat := 4 }
  | .orS32 st rd ra rb => { s32Form st with uses := [use 1 (srcOfL ra) .P, use 2 (srcOfS rb) .P], dest := .lane rd .P, lat := 4 }
  | .xorS32 st rd ra rb => { s32Form st with uses := [use 1 (srcOfL ra) .P, use 2 (srcOfS rb) .P], dest := .lane rd .P, lat := 4 }
  | .andnS32 st rd ra rb => { s32Form st with uses := [use 1 (srcOfL ra) .P, use 2 (srcOfS rb) .P], dest := .lane rd .P, lat := 4 }
  | .shlS32 st rd ra rb => { s32Form st with uses := [use 1 (srcOfL ra) .P, use 2 (srcOfS rb) .P], dest := .lane rd .P, lat := 4 }
  | .shrS32 st rd ra rb => { s32Form st with uses := [use 1 (srcOfL ra) .P, use 2 (srcOfS rb) .P], dest := .lane rd .P, lat := 4 }
  | .sarS32 st rd ra rb => { s32Form st with uses := [use 1 (srcOfL ra) .P, use 2 (srcOfS rb) .P], dest := .lane rd .P, lat := 4 }
  | .rotlS32 st rd ra rb => { s32Form st with uses := [use 1 (srcOfL ra) .P, use 2 (srcOfS rb) .P], dest := .lane rd .P, lat := 4 }
  | .faddS32 st m rd ra rb => { s32Form st with uses := [use 1 (srcOfL ra) (mshape m), use 2 (srcOfS rb) (mshape m)], dest := .lane rd (mshape m), lat := shapeLat (mshape m) }
  | .fsubS32 st m rd ra rb => { s32Form st with uses := [use 1 (srcOfL ra) (mshape m), use 2 (srcOfS rb) (mshape m)], dest := .lane rd (mshape m), lat := shapeLat (mshape m) }
  | .fmulS32 st m rd ra rb => { s32Form st with uses := [use 1 (srcOfL ra) (mshape m), use 2 (srcOfS rb) (mshape m)], dest := .lane rd (mshape m), lat := shapeLat (mshape m) }
  | .fminS32 st m rd ra rb => { s32Form st with uses := [use 1 (srcOfL ra) (mshape m), use 2 (srcOfS rb) (mshape m)], dest := .lane rd (mshape m), lat := shapeLat (mshape m) }
  | .fmaxS32 st m rd ra rb => { s32Form st with uses := [use 1 (srcOfL ra) (mshape m), use 2 (srcOfS rb) (mshape m)], dest := .lane rd (mshape m), lat := shapeLat (mshape m) }
  | .fdivS32 st m rd ra rb => { s32Form st with uses := [use 1 (srcOfL ra) (mshape m), use 2 (srcOfS rb) (mshape m)], dest := .lane rd (mshape m) }
  | .movS32 st m rd ra => { s32Form st with uses := [use 1 (srcOfL ra) (mshape m)], dest := .lane rd (mshape m), lat := shapeLat (mshape m) }
  | .popcS32 st rd ra => { s32Form st with uses := [use 1 (srcOfL ra) .P], dest := .lane rd .P, lat := 4 }
  | .clzS32 st rd ra => { s32Form st with uses := [use 1 (srcOfL ra) .P], dest := .lane rd .P, lat := 4 }
  | .freluS32 st m rd ra => { s32Form st with uses := [use 1 (srcOfL ra) (mshape m)], dest := .lane rd (mshape m), lat := shapeLat (mshape m) }
  | .fsqreluS32 st m rd ra => { s32Form st with uses := [use 1 (srcOfL ra) (mshape m)], dest := .lane rd (mshape m), lat := shapeLat (mshape m) }
  | .frcpS32 st m rd ra => { s32Form st with uses := [use 1 (srcOfL ra) (mshape m)], dest := .lane rd (mshape m) }
  | .fsqrtS32 st m rd ra => { s32Form st with uses := [use 1 (srcOfL ra) (mshape m)], dest := .lane rd (mshape m) }
  | .frsqS32 st m rd ra => { s32Form st with uses := [use 1 (srcOfL ra) (mshape m)], dest := .lane rd (mshape m) }
  | .fexp2S32 st m rd ra => { s32Form st with uses := [use 1 (srcOfL ra) (mshape m)], dest := .lane rd (mshape m) }
  | .flog2S32 st m rd ra => { s32Form st with uses := [use 1 (srcOfL ra) (mshape m)], dest := .lane rd (mshape m) }
  | .ftanhS32 st m rd ra => { s32Form st with uses := [use 1 (srcOfL ra) (mshape m)], dest := .lane rd (mshape m) }
  | .fsigmS32 st m rd ra => { s32Form st with uses := [use 1 (srcOfL ra) (mshape m)], dest := .lane rd (mshape m) }
  | .tailWrite _ _ _ _ => hdForm ⟨0, 7, false⟩
  | .queueTableWrite _ _ _ _ => hdForm ⟨0, 7, false⟩
  | .queueSwitchIn _ => hdForm ⟨0, 7, false⟩
  | .queueSwitchOut _ => hdForm ⟨0, 7, false⟩
  | .commandAccept _ => hdForm ⟨0, 7, false⟩
  | .launchEntryAccept _ _ => hdForm ⟨0, 7, false⟩
  | .launchQueueSpace _ _ => hdForm ⟨0, 7, false⟩
  | .descriptorCheck _ => hdForm ⟨0, 7, false⟩
  | .predecessorDecrement _ => hdForm ⟨0, 7, false⟩
  | .teamHandOut _ => hdForm ⟨0, 7, false⟩
  | .teamEnd _ => hdForm ⟨0, 7, false⟩
  | .gridCompletion _ => hdForm ⟨0, 7, false⟩
  | .completionRecord _ => hdForm ⟨0, 7, false⟩
  | .eventRingTimeout _ _ => hdForm ⟨0, 7, false⟩
  | .preempt _ _ => hdForm ⟨0, 7, false⟩
  | .resume _ _ => hdForm ⟨0, 7, false⟩
  | .contextReset _ _ => hdForm ⟨0, 7, false⟩
  | .contextDestroy _ _ => hdForm ⟨0, 7, false⟩
  | .contextPurgeComplete _ => hdForm ⟨0, 7, false⟩
  | .contextEnable _ _ => hdForm ⟨0, 7, false⟩
  | .deadlineExpiry _ => hdForm ⟨0, 7, false⟩
  | .drainEnd _ => hdForm ⟨0, 7, false⟩
  | .purgeGo _ _ => hdForm ⟨0, 7, false⟩
  | .purgeComplete _ => hdForm ⟨0, 7, false⟩
  | .freplyRetry _ _ _ => hdForm ⟨0, 7, false⟩
  | .freplyDecline _ _ _ => hdForm ⟨0, 7, false⟩
  | .faultRecordWrite _ => hdForm ⟨0, 7, false⟩
  | .pageWalk _ => hdForm ⟨0, 7, false⟩
  | .authorityMove _ _ => hdForm ⟨0, 7, false⟩
  | .deviceReset _ => hdForm ⟨0, 7, false⟩
  | .perst _ => hdForm ⟨0, 7, false⟩
  | .portReset _ => hdForm ⟨0, 7, false⟩
  | .pcieLinkDown _ => hdForm ⟨0, 7, false⟩
  | .contextApertureAccess _ _ _ => hdForm ⟨0, 7, false⟩
  | .physicalApertureAccess _ _ _ => hdForm ⟨0, 7, false⟩
  | .registerWrite _ _ _ _ => hdForm ⟨0, 7, false⟩
  | .firmwareGo _ => hdForm ⟨0, 7, false⟩
  | .firmwareVerifyDone => hdForm ⟨0, 7, false⟩
  | .identityDerivation => hdForm ⟨0, 7, false⟩
  | .getVersion _ => hdForm ⟨0, 7, false⟩
  | .getCapabilities _ => hdForm ⟨0, 7, false⟩
  | .negotiateAlgorithms _ => hdForm ⟨0, 7, false⟩
  | .getDigests _ => hdForm ⟨0, 7, false⟩
  | .getCertificate _ _ _ _ => hdForm ⟨0, 7, false⟩
  | .challenge _ _ _ => hdForm ⟨0, 7, false⟩
  | .getMeasurements _ _ _ _ => hdForm ⟨0, 7, false⟩
  | .cool _ => hdForm ⟨0, 7, false⟩
  | .warm _ => hdForm ⟨0, 7, false⟩
  | .sensorSample _ => hdForm ⟨0, 7, false⟩
  | .bandHoldExpiry => hdForm ⟨0, 7, false⟩
  | .coldHoldExpiry => hdForm ⟨0, 7, false⟩
  | .runIdleExpiry => hdForm ⟨0, 7, false⟩
  | .warmingHoldExpiry => hdForm ⟨0, 7, false⟩
  | .sweepComplete _ => hdForm ⟨0, 7, false⟩
  | .haltDrainExpiry => hdForm ⟨0, 7, false⟩
  | .powerOn => hdForm ⟨0, 7, false⟩
  | .tripResetRelease => hdForm ⟨0, 7, false⟩
  | .scrubRead _ _ => hdForm ⟨0, 7, false⟩
  | .dramHashChange _ => hdForm ⟨0, 7, false⟩
  | .migrationRowMove _ _ _ => hdForm ⟨0, 7, false⟩
  | .droopEvent _ => hdForm ⟨0, 7, false⟩
  | .droopMarkExpiry _ => hdForm ⟨0, 7, false⟩
  | .storeDrain _ _ => hdForm ⟨0, 7, false⟩
  | .loadComplete _ _ _ => hdForm ⟨0, 7, false⟩
  | .dramAccess _ _ => hdForm ⟨0, 7, false⟩
  | .getS _ => hdForm ⟨0, 7, false⟩
  | .getM _ => hdForm ⟨0, 7, false⟩
  | .upgrade _ => hdForm ⟨0, 7, false⟩
  | .putM _ => hdForm ⟨0, 7, false⟩
  | .putS _ => hdForm ⟨0, 7, false⟩
  | .forwardedWrite _ => hdForm ⟨0, 7, false⟩
  | .inv _ => hdForm ⟨0, 7, false⟩
  | .ack _ => hdForm ⟨0, 7, false⟩
  | .fwd _ => hdForm ⟨0, 7, false⟩
  | .data _ => hdForm ⟨0, 7, false⟩
  | .enlargerEpoch _ => hdForm ⟨0, 7, false⟩
  | .atomPerform _ _ _ => hdForm ⟨0, 7, false⟩
  | .atomicopCompletion _ _ _ _ => hdForm ⟨0, 7, false⟩
  | .fenceComplete _ _ => hdForm ⟨0, 7, false⟩
  | .txOpen _ _ => hdForm ⟨0, 7, false⟩
  | .txConflictAbort _ _ _ => hdForm ⟨0, 7, false⟩
  | .developPerform _ => hdForm ⟨0, 7, false⟩
  | .copyChunk _ _ _ => hdForm ⟨0, 7, false⟩
  | .bulkChunk _ _ _ => hdForm ⟨0, 7, false⟩
  | .bulkQueueAccept _ _ => hdForm ⟨0, 7, false⟩
  | .barrierArrivalApply _ _ => hdForm ⟨0, 7, false⟩
  | .remoteWriteArrival _ => hdForm ⟨0, 7, false⟩
  | .remoteWriteAck _ _ => hdForm ⟨0, 7, false⟩
  | .remoteReadArrival _ => hdForm ⟨0, 7, false⟩
  | .remoteReadResponse _ _ _ _ => hdForm ⟨0, 7, false⟩
  | .remoteRetry _ _ => hdForm ⟨0, 7, false⟩
  | .transportGiveUp _ => hdForm ⟨0, 7, false⟩
  | .tileQueueAccept _ _ => hdForm ⟨0, 7, false⟩
  | .tloopStep _ _ => hdForm ⟨0, 7, false⟩
  | .thadRow _ _ => hdForm ⟨0, 7, false⟩
  | .tqntRow _ _ => hdForm ⟨0, 7, false⟩
  | .waitlPassEnd _ _ _ => hdForm ⟨0, 7, false⟩
  | .yieldHoldEnd _ _ => hdForm ⟨0, 7, false⟩
  | .budgetExpiry _ => hdForm ⟨0, 7, false⟩
  | .trapDelivery _ => hdForm ⟨0, 7, false⟩
  | .trapRecordWrite _ => hdForm ⟨0, 7, false⟩
  | .flitReplay _ _ => hdForm ⟨0, 7, false⟩
  | .linkDown _ => hdForm ⟨0, 7, false⟩
  | .sramUncorrectable _ => hdForm ⟨0, 7, false⟩
  | .fabricRefusal _ _ _ _ => hdForm ⟨0, 7, false⟩
  | .faultWaitPauseEnd _ => hdForm ⟨0, 7, false⟩
  | .pcieLinkUp _ => hdForm ⟨0, 7, false⟩
  | .ethernetLinkDown _ => hdForm ⟨0, 7, false⟩
  | .corePowerRemoval => hdForm ⟨0, 7, false⟩

end Sys2Proof.Machine
end

