-- ==== Sys2Proof/Machine/Issue.lean ====
section
/-! DEFINITION. Issuing one instruction of a group (R20, R30 to R40, R46, R250, R251): the address, the lanes, the checks
in the order of R46, and the advance. Every 64-bit, short and compact instruction goes through `State.begin` and ends in
`State.finish`. -/

namespace Sys2Proof.Machine

/-- The trap codes of R352. -/
def tILLOP : Nat := 1
def tILLREG : Nat := 2
def tSTALLCHK : Nat := 3
def tALIGN : Nat := 4
def tMEMPERM : Nat := 5
def tMEMFATAL : Nat := 6
def tPOISON : Nat := 7
def tBUDGET : Nat := 8
def tTXCAP : Nat := 9
def tLAUNCHFULL : Nat := 10
def tBARMISUSE : Nat := 11
def tSOFTWARE : Nat := 12
def tLINKLOST : Nat := 13

/-- What the rules of an issue see: the team and group, their records, the issue address, the lanes at it and the lanes that
execute (R250, R32). -/
structure Ix where
  t : Nat
  g : Nat
  team : TeamRec
  grp : Group
  pc : Word
  at_ : List Nat
  ex : List Nat

/-- A lane that may set the issue address (R250): live, and not passed over by a WAITL with issues left (R251). -/
def Lane.counts (l : Lane) : Bool := l.live && l.pass.getD 0 == 0

/-- The issue address: the smallest LPC among the live lanes that are not passed over (R250). -/
def Group.issueAddr (g : Group) : Option Word :=
  (g.lanes.filter Lane.counts).foldl
    (fun m l => match m with
      | none => some l.lpc
      | some a => if l.lpc.toNat < a.toNat then some l.lpc else some a) none

/-- The lanes at an address (R250). -/
def Group.lanesAt (g : Group) (a : Word) : List Nat :=
  (List.range 32).filter fun i => (g.lane i).counts && (g.lane i).lpc == a

/-- Of lanes at the address, those whose guard is true execute (R32). -/
def Group.guarded (g : Group) (l : List Nat) (gp : Pred) (gn : Bool) : List Nat :=
  l.filter fun i => (g.lane i).pred gp.val != gn

/-- The context of an issue for an instruction's form, if a group is issuing. -/
def State.ix (s : State) (f : Form) : Option Ix :=
  match s.issuing with
  | none => none
  | some r =>
    match s.team r.t with
    | none => none
    | some tm =>
      match tm.groups.find r.g with
      | none => none
      | some gr =>
        match gr.issueAddr with
        | none => none
        | some a =>
          let l := gr.lanesAt a
          some ⟨r.t, r.g, tm, gr, a, l, gr.guarded l f.gp f.gn⟩

/-- The register allocation of a group's role (R245, R249). -/
def TeamRec.alloc (t : TeamRec) (g : Group) : Nat := (t.d.roles.getD g.role ⟨0, 0, 0⟩).regs

/-- Whether a register name of `w` words is misaligned or beyond `top` (R30). -/
def badSpan (n w top : Nat) : Bool := n % w != 0 || top < n + w

/-- R30's check of a source. -/
def Use.bad (u : Use) (alloc : Nat) : Bool :=
  match u.src with
  | .v n => badSpan n.val u.sh.words alloc
  | .g n => badSpan n.val u.sh.words 64
  | _ => false

/-- R30's check of a destination. -/
def Dest.bad (d : Dest) (alloc : Nat) : Bool :=
  match d with
  | .lane (.v n) sh => badSpan n.val sh.words alloc
  | .scalar n sh => badSpan n.val sh.words 64
  | _ => false

/-- The operand code of a destination (R352). -/
def Dest.code (d : Dest) : Nat :=
  match d with
  | .none => 0
  | .lane r _ => match r with | .v n => n.val | .z => 232
  | .scalar n _ => n.val
  | .pred n => n.val

/-- The first name that R30 rejects, by field, as ILLREG's DETAIL (R352). -/
def Form.illreg (f : Form) (alloc : Nat) : Option Nat :=
  if f.dest.bad alloc then some f.dest.code
  else (f.uses.find? fun u => u.bad alloc).map fun u => u.src.code + 256 * u.fld

/-- The registers that a source reads. -/
def Use.refs (u : Use) : List RegRef :=
  match u.src with
  | .v n => (List.range u.count).map fun i => .v (n.val + i)
  | .g n => (List.range u.count).map fun i => .g (n.val + i)
  | _ => []

/-- The registers that a destination names. -/
def Dest.refs (d : Dest) : List RegRef :=
  match d with
  | .lane (.v n) sh => (List.range sh.words).map fun i => .v (n.val + i)
  | .scalar n sh => (List.range sh.words).map fun i => .g (n.val + i)
  | .pred n => if n.val = 7 then [] else [.p n.val]
  | _ => []

/-- Whether a producer's result is read before its encoded distance is met (R40). -/
def Group.short (g : Group) (refs : List RegRef) : Bool :=
  g.prods.any fun p => refs.contains p.reg && decide (g.dist - p.born < p.lat)

/-- The lanes whose words a source may read: those at the address, and for SHFL's data all 32 (R122). -/
def Use.readers (u : Use) (lanes : List Nat) : List Nat := if u.far then List.range 32 else lanes

/-- The same for a relay entry, in any of the lanes. -/
def Group.shortRelay (g : Group) (lanes : List Nat) (n : Nat) : Bool :=
  lanes.any fun i =>
    match (g.lane i).relay[n]? with
    | some e => decide (e.lat ≠ 0 ∧ g.dist - e.born < e.lat)
    | none => false

/-- The operand code that is read too early, if any (R40, R352). The guard and predicate operands count as reads. -/
def Form.shortfall (f : Form) (g : Group) (lanes : List Nat) : Option Nat :=
  match f.uses.find? fun u => (match u.src with
      | .d n => g.shortRelay (u.readers lanes) n.val
      | _ => g.short u.refs) with
  | some u => some u.src.code
  | none =>
    match f.puses.find? fun p => p.2.val != 7 && g.short [.p p.2.val] with
    | some p => some p.2.val
    | none => if f.gp.val != 7 && g.short [.p f.gp.val] then some f.gp.val else none

/-- The lanes in which a relay source is empty or of another class (R38). -/
def Use.relayFails (u : Use) (g : Group) (lanes : List Nat) : List Nat :=
  match u.src with
  | .d n => lanes.filter fun i =>
      match (g.lane i).relay[n.val]? with
      | some e => decide (e.cls ≠ u.sh)
      | none => true
  | _ => []

/-- The checks of R46 before the instruction's own traps, and the count of a shortfall (R40): the context, or the state
with the trap's condition. With no group issuing the state is unchanged. STRICT has no effect on a tile instruction (R154); a memory
instruction that reads a fixed-latency result too early under it traps as R40, R45 and R195 say, whatever R225 says of its chapter
(assumption 72). -/
def State.begin (s : State) (f : Form) : Except State Ix :=
  match s.ix f with
  | none => .error s
  | some x =>
    match f.illreg (x.team.alloc x.grp) with
    | some d => .error (s.raise x.t x.g tILLREG d x.pc 0 0)
    | none =>
      match f.shortfall x.grp x.at_, x.grp.strict && !f.loose with
      | some c, true => .error (s.raise x.t x.g tSTALLCHK c x.pc 0 0)
      | _, _ =>
        match f.uses.find? fun u => u.relayFails x.grp x.ex != [] with
        | some u =>
          .error (s.raise x.t x.g tILLREG (u.src.code + 256 * u.fld + 2048) x.pc (maskOf (u.relayFails x.grp x.ex)) 0)
        | none => .ok x

/-! ### Reading the operands -/

/-- The words of a source in a lane (R29). A lane that does not execute and has no such relay entry gives zeros (R122). -/
def Use.read (u : Use) (g : Group) (i : Nat) : List RWord :=
  let w := u.count
  match u.src with
  | .v n => (g.lane i).words n.val w
  | .g n => g.gwords n.val w
  | .z => List.replicate w RWord.zero
  | .lid => [RWord.clean (Word.ofNat i)]
  | .d n =>
    match (g.lane i).relay[n.val]? with
    | some e => if e.cls = u.sh then e.words else List.replicate w RWord.zero
    | none => List.replicate w RWord.zero

/-- What a lane brings to an instruction: its number, whether it executes, its record, its operands' words, and whether each
operand carries a mark. -/
structure LaneIn where
  n : Nat
  ex : Bool
  lane : Lane
  ops : List (List Word)
  marked : List Bool

/-- Operand `k`, word `i` of a lane's operands. -/
def LaneIn.w (l : LaneIn) (k i : Nat) : Word := (l.ops.getD k []).getD i 0

/-- Operand `k` of a lane. -/
def LaneIn.op (l : LaneIn) (k : Nat) : List Word := l.ops.getD k []

/-- The 32 lanes' operands. -/
def Ix.ins (x : Ix) (f : Form) : List LaneIn :=
  (List.range 32).map fun i =>
    let rs := f.uses.map fun u => u.read x.grp i
    ⟨i, x.ex.contains i, x.grp.lane i, rs.map fun r => r.map (·.bits), rs.map fun r => r.any (·.poison)⟩

/-- The executing lanes that read a mark in a consumed source (R95, R190). -/
def Ix.poisoned (x : Ix) (f : Form) : List Nat :=
  x.ex.filter fun i => f.uses.any fun u => u.eats && (u.read x.grp i).any (·.poison)

/-- Whether a source is a scalar register, which every lane reads. -/
def Use.scalar (u : Use) : Bool :=
  match u.src with
  | .g _ => true
  | _ => false

/-- The lanes of a group instruction that read a mark: of a lane register only the lowest executing lane's word is read (R264,
R328). -/
def Ix.groupPoisoned (x : Ix) (f : Form) : List Nat :=
  x.ex.filter fun i => f.uses.any fun u =>
    u.eats && (u.scalar || x.ex.head? == some i) && (u.read x.grp i).any (·.poison)

/-! ### Finishing an issue -/

/-- The group after the instruction, at a new LPC where `jump` gives one and past it otherwise (R250, R266), with the passes
counted (R251), the encoded distance (R40), the stall (R33) and the new producers. An instruction with a register destination counts
as that register's producer whichever lanes executed it, and replaces the earlier one (assumption 71). -/
def Group.advance (g : Group) (x : Ix) (f : Form) (cycle : Nat) (jump : Nat → Option Word) : Group :=
  let n := f.stall + 1 + f.wide.toNat
  let lanes := g.lanes.mapIdx fun i l =>
    let l := match l.pass with
      | some k => if x.at_.contains i then { l with pass := if k = 0 then none else some k } else { l with pass := some (k - 1) }
      | none => l
    if x.at_.contains i then
      { l with lpc := if x.ex.contains i then (jump i).getD (x.pc + Word.ofNat f.len) else x.pc + Word.ofNat f.len }
    else l
  let stuck := lanes.all fun l => !l.counts
  let lanes := if stuck then lanes.map fun l => { l with pass := none } else lanes
  let old := g.prods.filter fun p =>
    decide (g.dist + n - p.born < 8 ∨ cycle - p.cyc < 8) && !(f.dest.refs.contains p.reg)
  let new := if f.lat = 0 then [] else f.dest.refs.map fun r => ⟨r, f.lat, g.dist, cycle⟩
  { g with
    lanes := lanes, dist := g.dist + n, notBefore := cycle + n, prods := old ++ new, readySince := none
    stalls := if (f.shortfall x.grp x.at_).isSome then satInc g.stalls else g.stalls }

/-- Other groups' YIELD holds no longer wait for a group that has issued (R269). -/
def State.unyield (s : State) (t g : Nat) : State :=
  { s with teams := s.teams.mapv fun _ r => { r with groups := r.groups.mapv fun _ k =>
      match k.yield with
      | some (c, l) => { k with yield := some (c, l.filter fun e => e != (t, g)) }
      | none => k } }

/-- The end of an issue: the group's effects, then its advance. -/
def State.finish (s : State) (x : Ix) (f : Form) (jump : Nat → Option Word) (eff : Group → Group) : State :=
  let s := s.updGroup x.t x.g fun g => (eff g).advance x f s.clock.cycle jump
  { s with issuing := none }

/-- No jump: every lane at the address moves past the instruction. -/
def noJump : Nat → Option Word := fun _ => none

/-! ### Lane transactions (R210, R211) -/

/-- A lane that aborts its transaction (R210). -/
def Lane.abort (l : Lane) : Lane :=
  match l.tx with
  | .some x => { (l.setPred x.pred false).drop with tx := .none, lpc := x.resume }
  | .none => l

/-- The executing lanes inside a transaction. -/
def Ix.inTx (x : Ix) : List Nat := x.ex.filter fun i => (x.grp.lane i).tx.isSome

/-- The resume points, where the lanes inside a transaction abort at this instruction. -/
def Ix.resume (x : Ix) : Nat → Option Word := fun i => (x.grp.lane i).tx.map (·.resume)

/-- Tracked loads and ATOMs in flight no longer answer lanes that have aborted. -/
def Group.forget (g : Group) (ls : List Nat) : Group :=
  let keep := fun (tx : List Nat) i => !(ls.contains i && tx.contains i)
  { g with
    loads := g.loads.map fun l => { l with lanes := l.lanes.filter fun e => keep l.tx e.1, tx := l.tx.filter fun i => keep l.tx i }
    atoms := g.atoms.map fun a => { a with lanes := a.lanes.filter fun e => keep a.tx e.1, tx := a.tx.filter fun i => keep a.tx i } }

/-- The lanes listed abort. -/
def Group.abort (g : Group) (ls : List Nat) : Group :=
  (g.mapLanes fun i l => if ls.contains i then l.abort else l).forget (ls.filter fun i => (g.lane i).tx.isSome)

/-! ### Lane instructions -/

/-- What an issued instruction's rules may read of its group. -/
structure Env where
  noise : Bool
  sec : Bool
  grp : Nat
  team : Nat
  alloc : Nat

def Ix.env (x : Ix) : Env := ⟨x.grp.noise, x.grp.secOn, x.g, x.team.num, x.team.alloc x.grp⟩

/-- A result written in one lane: the register words, and the push of the whole result (R29, R36). -/
def Lane.commit (l : Lane) (d : Dest) (f : Form) (born cyc : Nat) (ws : List Word) : Lane :=
  let rs := ws.map RWord.clean
  match d with
  | .lane (.v n) sh => (l.setRegs n.val rs).push ⟨sh, rs, f.lat, born, cyc, Option.none⟩
  | .lane .z sh => l.push ⟨sh, rs, f.lat, born, cyc, Option.none⟩
  | .pred p => l.setPred p.val (ws.getD 0 0 != 0)
  | _ => l

/-- The results of an instruction written to the group: each executing lane's own, or the lowest lane's to a scalar
destination (R34). -/
def Group.commit (g : Group) (x : Ix) (f : Form) (cyc : Nat) (res : Nat → Lane × List Word) : Group :=
  let g' := g.mapLanes fun i l =>
    if x.ex.contains i then Lane.commit (res i).1 f.dest f g.dist cyc (res i).2 else l
  match f.dest, x.ex with
  | .scalar n _, i :: _ => g'.setGs n.val ((res i).2.map RWord.clean)
  | _, _ => g'

/-- A lane instruction: the checks, its own trap, POISON (R95), its results, the advance. `own` gives the trap that its
entry takes before POISON, and `eff` each executing lane's record and result from all 32 lanes' operands. -/
def laneInstr (f : Form) (own : Env → List LaneIn → Option (Nat × Nat × List Nat))
    (eff : Env → List LaneIn → Nat → Lane × List Word) (s : State) : Out :=
  match s.begin f with
  | .error s' => .next s'
  | .ok x =>
    let ins := x.ins f
    match own x.env ins with
    | some (code, detail, ls) => .next (s.raise x.t x.g code detail x.pc (maskOf ls) 0)
    | none =>
      match x.poisoned f with
      | [] => .next (s.finish x f noJump fun g => g.commit x f s.clock.cycle (eff x.env ins))
      | ls => .next (s.raise x.t x.g tPOISON 0 x.pc (maskOf ls) 0)

/-- No trap of its own. -/
def noOwn : Env → List LaneIn → Option (Nat × Nat × List Nat) := fun _ _ => none

/-- POISON in an executing lane that gathers marked words of operand 0 from other lanes, or reads a mark of its own (R95). -/
def gatherPoison (gather : List LaneIn → Nat → List Nat) : Env → List LaneIn → Option (Nat × Nat × List Nat) :=
  fun _ ins =>
    match (ins.filter fun l => l.ex && (l.marked.contains true ||
        (gather ins l.n).any fun j => (ins[j]?.map fun k => k.marked.getD 0 false).getD false)).map (·.n) with
    | [] => none
    | ls => some (tPOISON, 0, ls)

/-- The executing lanes of all. -/
def gatherAll (ins : List LaneIn) (_i : Nat) : List Nat := (ins.filter (·.ex)).map (·.n)

/-- A lane instruction whose result in a lane depends on that lane alone. -/
def perLane (f : Form) (fn : Env → LaneIn → List Word) (s : State) : Out :=
  laneInstr f noOwn (fun e ins i =>
    match ins[i]? with
    | some l => (l.lane, fn e l)
    | none => (Lane.none, [])) s

/-- The same where the lane's own record (its Grain slots) changes too. -/
def perLaneSt (f : Form) (fn : Env → LaneIn → Lane × List Word) (s : State) : Out :=
  laneInstr f noOwn (fun e ins i =>
    match ins[i]? with
    | some l => fn e l
    | none => (Lane.none, [])) s

/-- An instruction of one, two or three P words that gives one word. -/
def intOp (f : Form) (fn : Word → Word → Word → Word) (s : State) : Out :=
  perLane f (fun _ l => [fn (l.w 0 0) (l.w 1 0) (l.w 2 0)]) s

/-- An instruction of one, two or three P words that gives a predicate. -/
def predOp (f : Form) (fn : Word → Word → Bool) (s : State) : Out :=
  perLane f (fun _ l => [boolWord (fn (l.w 0 0) (l.w 1 0))]) s

/-- A group instruction or a lane instruction with its own effect: the checks and POISON over its sources, then `body` with
the context and the operands. -/
def ownInstr (f : Form) (body : Ix → List LaneIn → Out) (s : State) : Out :=
  match s.begin f with
  | .error s' => .next s'
  | .ok x =>
    match x.poisoned f with
    | [] => body x (x.ins f)
    | ls => .next (s.raise x.t x.g tPOISON 0 x.pc (maskOf ls) 0)

/-- A group instruction (R264): performed once when at least one lane at the address executes; with none, only what its issue does
to the group happens. -/
def groupInstrIdle (idle : Group → Group) (f : Form) (body : Ix → List LaneIn → Nat → Out) (s : State) : Out :=
  match s.begin f with
  | .error s' => .next s'
  | .ok x =>
    match x.groupPoisoned f with
    | [] =>
      match x.ex with
      | [] => .next (s.finish x f noJump idle)
      | i :: _ => body x (x.ins f) i
    | ls => .next (s.raise x.t x.g tPOISON 0 x.pc (maskOf ls) 0)

/-- A group instruction whose issue alone does nothing. -/
def groupInstr (f : Form) (body : Ix → List LaneIn → Nat → Out) (s : State) : Out := groupInstrIdle id f body s

/-- A group instruction that is not performed at all if an executing lane is inside a transaction: the lanes inside abort and
the others advance (R211). -/
def Ix.outsideTxIdle (x : Ix) (idle : Group → Group) (f : Form) (s : State) (perform : Out) : Out :=
  match x.inTx with
  | [] => perform
  | ls => .next (s.finish x f x.resume fun g => (idle g).abort ls)

def Ix.outsideTx (x : Ix) (f : Form) (s : State) (perform : Out) : Out := x.outsideTxIdle id f s perform

end Sys2Proof.Machine
end

