-- ==== Sys2Proof/Machine/Ready.lean ====
section
/-! DEFINITION. Which instruction a group has next (R19, R20, R250) and whether the group is ready (R262, R300). -/

namespace Sys2Proof.Machine

/-! ### Fetching from the code that a team holds -/

/-- What stands at an LPC: a chunk of code that is not yet held, nothing that decodes, or an instruction with its length and
word. -/
inductive Fetched where
  | need (chunk : Nat)
  | bad (word : Nat)
  | instr (i : Instr) (word : Nat)

/-- Byte `a` of the code, where its chunk is held. -/
def TeamRec.codeByte (r : TeamRec) (a : Nat) : Option Byte :=
  (r.icode.find (a / 16)).map fun l => l.extractLsb' (8 * (a % 16)) 8

/-- The `n` code bytes from an LPC on, or the first chunk that is not held. -/
def TeamRec.codeBytes (r : TeamRec) (a : Nat) : Nat → Except Nat (List Byte)
  | 0 => .ok []
  | n + 1 =>
    match r.codeByte a with
    | none => .error (a / 16)
    | some b =>
      match r.codeBytes (a + 1) n with
      | .ok bs => .ok (b :: bs)
      | .error l => .error l

/-- An instruction's length by the low bits of its first byte (R19). -/
def lenOf (b : Byte) : Nat := if b.toNat % 2 = 0 then 2 else if b.toNat % 4 = 1 then 4 else 8

/-- Fetching at an LPC (R19, R20): an instruction whose first or last byte lies at or beyond the code length is illegal. -/
def TeamRec.fetch (r : TeamRec) (a : Nat) : Fetched :=
  if r.d.clen ≤ a then .bad 0
  else
    match r.codeByte a with
    | none => .need (a / 16)
    | some b =>
      let n := lenOf b
      if r.d.clen < a + n then .bad 0
      else
        match r.codeBytes a n with
        | .error l => .need l
        | .ok bs =>
          match decode bs with
          | .ok (i, _) => .instr i (leNat bs)
          | .error _ => .bad (leNat bs)

/-! ### The scoreboard (R39, R40) -/

/-- The registers that a load or an ATOM in flight will write. -/
def Group.pending (g : Group) : List RegRef :=
  (g.loads.flatMap fun l =>
    match l.dst with
    | some n =>
      let w := match l.kind with | .ld wd _ => wd.shape.words | .ldp => 2
      (List.range w).map fun i => RegRef.v (n + i)
    | none => []) ++
  (g.atoms.flatMap fun a =>
    match a.dst with
    | some (some n) => [RegRef.v n]
    | _ => [])

/-- Whether a fixed-latency result has not yet landed in one of the registers. -/
def Group.inFlight (g : Group) (cycle : Nat) (refs : List RegRef) : Bool :=
  g.prods.any fun p => refs.contains p.reg && decide (cycle < p.cyc + p.lat)

/-- Everything an instruction reads: sources, predicates and guard. -/
def Form.reads (f : Form) : List RegRef :=
  (f.uses.flatMap Use.refs) ++ (f.puses.map fun p => .p p.2.val) ++ [.p f.gp.val]

/-- Whether a relay source waits for its result, in one of the lanes. -/
def Group.relayWaits (g : Group) (cycle : Nat) (lanes : List Nat) (f : Form) : Bool :=
  f.uses.any fun u =>
    match u.src with
    | .d n => (u.readers lanes).any fun i =>
        match (g.lane i).relay[n.val]? with
        | some e => e.pend.isSome || (e.lat != 0 && decide (cycle < e.cyc + e.lat))
        | none => false
    | _ => false

/-- The words that VRD reads and VWR writes in the lanes that execute it (R126). -/
def Group.indexed (g : Group) (lanes : List Nat) (f : Form) : List RegRef :=
  match f.index, f.uses.head? with
  | some sh, some u =>
    (g.guarded lanes f.gp f.gn).flatMap fun i =>
      (List.range sh.words).map fun k => RegRef.v (((u.read g i).headD RWord.zero).bits.toNat + k)
  | _, _ => []

/-- Whether the scoreboard holds an instruction. Under STRICT a fixed-latency result read too early is no hold but a trap
(R40), but for a tile instruction (R154). VRD and VWR wait for every earlier write to the words that they reach, uncounted (R127). -/
def Group.held? (g : Group) (cycle : Nat) (lanes : List Nat) (f : Form) : Bool :=
  let pend := g.pending
  (f.reads ++ f.dest.refs ++ g.indexed lanes f).any (fun r => pend.contains r) || g.inFlight cycle (f.dest.refs ++ g.indexed lanes f) ||
  (if g.strict && !f.loose && (f.shortfall g lanes).isSome then false
   else g.inFlight cycle f.reads || g.relayWaits cycle lanes f)

/-! ### Readiness (R262) -/

/-- Whether a requester belongs to a group's own accesses (R191). -/
def Req.ofGroup (q : Req) (t g : Nat) : Bool :=
  match q with
  | .load t' g' _ | .store t' g' | .atom t' g' _ | .tx t' g' | .fetch t' g' => t' == t && g' == g
  | _ => false

/-- Whether a group waits on a replayable fault (R191, R262). -/
def State.faultWaits (s : State) (t g : Nat) : Bool :=
  s.faults.any fun f => f.status == 0 && f.reqs.any fun q => q.1.ofGroup t g

/-- Whether a TXEND waits for a walk (R417). -/
def State.txWalks (s : State) (t g : Nat) : Bool := s.walks.any fun w => w.req == .tx t g

/-- Whether a bank has work that has not finished its accesses to it (R134, R148). -/
def State.bankBusy (s : State) (r : TeamRec) (k : Nat) : Bool :=
  (s.core r.core).tileQ.any fun o =>
    decide (some o.bank = r.banks[k]?) && o.cells.isNone && (match o.kind with | .had _ _ => false | _ => true)

/-- Whether a group may fetch: it has a next instruction, and no trap of it stands. -/
def TeamRec.mayRun (r : TeamRec) (n : Nat) (g : Group) : Bool :=
  r.trap.isNone && !(r.conds.any fun c => c.grp == n) && g.issueAddr.isSome

/-- Whether nothing but the instruction itself could hold a group: its stall, its waits and fault waits (R262). -/
def State.unheld (s : State) (t n : Nat) (r : TeamRec) (g : Group) : Bool :=
  r.mayRun n g && decide (g.notBefore ≤ s.clock.cycle) && decide (g.wait = .none) && decide (g.held = .none) &&
  g.yield.isNone && !(s.faultWaits t n) && !(s.txWalks t n)

/-- Whether a tracked read of a lane's transaction is still in flight. -/
def Group.tracking (g : Group) : Bool := g.loads.any (fun l => !l.tx.isEmpty) || g.atoms.any fun a => !a.tx.isEmpty

/-- Whether nothing holds the instruction at hand: the scoreboard, a fence (R174), a full store queue (R198), for TXEND the tracked
reads (R214; assumption 92), a bank (R148). -/
def State.formReady (s : State) (r : TeamRec) (g : Group) (a : Word) (f : Form) : Bool :=
  !(g.held? s.clock.cycle (g.lanesAt a) f) && !(f.fenced && (!g.fences.isEmpty || !g.arrivals.isEmpty)) &&
  !(f.queued && decide (32 ≤ g.storeQ.length)) && !(f.commits && g.tracking) &&
  !(match f.bank with | some k => s.bankBusy r k.val | none => false)

/-- Whether a group is ready (R262). -/
def State.ready (s : State) (t n : Nat) : Bool :=
  match s.team t with
  | none => false
  | some r =>
    match r.groups.find n with
    | none => false
    | some g =>
      s.unheld t n r g &&
      (match g.issueAddr with
       | none => false
       | some a =>
         match r.fetch a.toNat with
         | .need _ => false
         | .bad _ => true
         | .instr i _ => s.formReady r g a (formOf i))

/-- The groups of a partition of a core, with their teams, in the order in which they were placed. -/
def State.resident (s : State) (core part : Nat) : List (Nat × Nat) :=
  s.teams.flatMap fun e =>
    if e.2.core = core then (e.2.groups.filter fun (k : Nat × Group) => decide (k.2.part = part)).map fun k => (e.1, k.1)
    else []

/-- The other groups of a group's partition that are ready (R269). -/
def State.otherReady (s : State) (t n : Nat) : List (Nat × Nat) :=
  match s.team t with
  | none => []
  | some r =>
    match r.groups.find n with
    | none => []
    | some g => (s.resident r.core g.part).filter fun e => e != (t, n) && s.ready e.1 e.2

end Sys2Proof.Machine
end

