-- ==== Sys2Proof/Machine/Num.lean ====
section
/-! DEFINITION. Exact arithmetic: fractions, and real numbers as enclosures that refine with a precision. The functions of
R84 and R110 are computed here; nothing is rounded to a format. -/

namespace Sys2Proof.Machine

/-! ### Fractions -/

/-- A fraction, not reduced; the denominator is positive. -/
structure Frac where
  num : Int
  den : Nat
  deriving DecidableEq, Repr

namespace Frac

def ofInt (n : Int) : Frac := ⟨n, 1⟩
def zero : Frac := ⟨0, 1⟩
def one : Frac := ⟨1, 1⟩

/-- A power of two. -/
def pow2 (e : Int) : Frac := if 0 ≤ e then ⟨(2 ^ e.toNat : Nat), 1⟩ else ⟨1, 2 ^ (-e).toNat⟩

def add (a b : Frac) : Frac := if a.den = b.den then ⟨a.num + b.num, a.den⟩ else ⟨a.num * b.den + b.num * a.den, a.den * b.den⟩
def neg (a : Frac) : Frac := ⟨-a.num, a.den⟩
def sub (a b : Frac) : Frac := a.add b.neg
def mul (a b : Frac) : Frac := ⟨a.num * b.num, a.den * b.den⟩
def sq (a : Frac) : Frac := a.mul a
def abs (a : Frac) : Frac := ⟨a.num.natAbs, a.den⟩

/-- The reciprocal of a nonzero fraction; zero for zero. -/
def inv (a : Frac) : Frac := if a.num = 0 then zero else ⟨if a.num < 0 then -(a.den : Int) else a.den, a.num.natAbs⟩
def div (a b : Frac) : Frac := a.mul b.inv

def isZero (a : Frac) : Bool := a.num == 0
def lt (a b : Frac) : Bool := decide (a.num * b.den < b.num * a.den)
def le (a b : Frac) : Bool := decide (a.num * b.den ≤ b.num * a.den)
def eq (a b : Frac) : Bool := decide (a.num * b.den = b.num * a.den)
def min (a b : Frac) : Frac := if a.le b then a else b
def max (a b : Frac) : Frac := if a.le b then b else a

/-- The greatest integer not above a fraction. -/
def floor (a : Frac) : Int := a.num / a.den

/-- The greatest `e` with 2^e not above a positive fraction. -/
def log2 (a : Frac) : Int :=
  let e : Int := (Nat.log2 a.num.natAbs : Int) - Nat.log2 a.den
  if (pow2 e).le a.abs then e else e - 1

/-- A fraction over 2^p, from below. -/
def fix (p : Nat) (a : Frac) : Int := a.num * (2 ^ p : Nat) / a.den

end Frac

/-! ### Reals -/

/-- A real number: a fraction, or for each precision a lower and an upper bound. An enclosed number is irrational. -/
inductive Rl where
  | q (x : Frac)
  | enc (f : Nat → Frac × Frac)

namespace Rl

/-- The bounds at a precision. -/
def bounds (x : Rl) (p : Nat) : Frac × Frac :=
  match x with
  | .q v => (v, v)
  | .enc f => f p

/-- The four products of two pairs of bounds, least and greatest. -/
def mulBounds (a b : Frac × Frac) : Frac × Frac :=
  let x := a.1.mul b.1; let y := a.1.mul b.2; let z := a.2.mul b.1; let w := a.2.mul b.2
  ((x.min y).min (z.min w), (x.max y).max (z.max w))

def add (a b : Rl) : Rl :=
  match a, b with
  | .q x, .q y => .q (x.add y)
  | _, _ => .enc fun p => ((a.bounds p).1.add (b.bounds p).1, (a.bounds p).2.add (b.bounds p).2)

def neg (a : Rl) : Rl :=
  match a with
  | .q x => .q x.neg
  | .enc f => .enc fun p => ((f p).2.neg, (f p).1.neg)

def mul (a b : Rl) : Rl :=
  match a, b with
  | .q x, .q y => .q (x.mul y)
  | _, _ => .enc fun p => mulBounds (a.bounds p) (b.bounds p)

/-- A real times a fraction; zero times anything is the fraction zero. -/
def scale (a : Rl) (r : Frac) : Rl := if r.isZero then .q Frac.zero else a.mul (.q r)

/-- A real minus a fraction. -/
def minus (a : Rl) (r : Frac) : Rl := a.add (.q r.neg)

def sq (a : Rl) : Rl := a.mul a

/-- The first precision at which a monotone function answers alike at both bounds decides it (assumption 6). -/
def settleAt {α : Type} [DecidableEq α] (f : Nat → Frac × Frac) (fn : Frac → α) : List Nat → α
  | [] => fn (f 0).1
  | [p] => fn (f p).1
  | p :: ps =>
    let b := f p
    let l := fn b.1
    if l = fn b.2 then l else settleAt f fn ps

/-- A monotone function of a real. -/
def settle {α : Type} [DecidableEq α] (x : Rl) (fn : Frac → α) : α :=
  match x with
  | .q v => fn v
  | .enc f => settleAt f fn [160, 640, 2560, 10240]

end Rl

/-! ### The elementary functions as enclosures -/

/-- An approximation over 2^w with its error in units of 2^-w, as bounds. -/
def around (w : Nat) (x err : Int) : Frac × Frac := (⟨x - err, 2 ^ w⟩, ⟨x + err, 2 ^ w⟩)

/-- The working precision for a precision: 64 bits more. -/
def wprec (p : Nat) : Nat := p + 64

/-- The error allowed for a series at the working precision: above the sum of its truncations. -/
def serr : Int := 4294967296

/-- The sum of terms, each the last one through `next`, from term `k` on. -/
def series (next : Nat → Int → Int) : Nat → Nat → Int → Int
  | 0, _, _ => 0
  | n + 1, k, t => if t = 0 then 0 else t + series next n (k + 1) (next k t)

/-- 2·artanh of a fraction of magnitude at most 1/3, over 2^w. -/
def artanh2 (w : Nat) (num : Int) (den : Nat) : Int :=
  let t0 := num * (2 ^ w : Nat) / den
  2 * ((List.range w).foldl (fun (a : Int × Int) k =>
    if a.2 = 0 then a else (a.1 + a.2 / (2 * k + 1 : Nat), (a.2 * num * num).tdiv (den * den : Nat))) (0, t0)).1

/-- ln 2 over 2^w. -/
def ln2 (w : Nat) : Int := artanh2 w 1 3

/-- The arc tangent of 1/n over 2^w. -/
def arctanInv (w n : Nat) : Int :=
  ((List.range w).foldl (fun (a : Int × Int) k =>
    if a.2 = 0 then a else (a.1 + (if k % 2 = 0 then a.2 else -a.2) / (2 * k + 1 : Nat), a.2 / (n * n : Nat)))
    (0, (2 ^ w : Nat) / n)).1

/-- π over 2^w, by Machin's formula. -/
def piFix (w : Nat) : Int := 16 * arctanInv w 5 - 4 * arctanInv w 239

/-- e^y over 2^w for y over 2^w of magnitude below 1. -/
def expFix (w : Nat) (y : Int) : Int :=
  series (fun k t => (t * y).tdiv ((k * 2 ^ w : Nat) : Int)) (w + 1) 1 (2 ^ w : Nat)

/-- sin y and cos y over 2^w for y over 2^w between 0 and 2. -/
def sinFix (w : Nat) (y : Int) : Int :=
  series (fun k t => -((t * y * y).tdiv ((2 * k * (2 * k + 1) * 2 ^ (2 * w) : Nat) : Int))) (w + 1) 1 y
def cosFix (w : Nat) (y : Int) : Int :=
  series (fun k t => -((t * y * y).tdiv ((2 * k * (2 * k - 1) * 2 ^ (2 * w) : Nat) : Int))) (w + 1) 1 (2 ^ w : Nat)

/-- Bounds times 2^e. -/
def shiftBounds (e : Int) (b : Frac × Frac) : Frac × Frac := ((Frac.pow2 e).mul b.1, (Frac.pow2 e).mul b.2)

/-- e^y for a fraction y between -4000 and 4000. -/
def expBounds (y : Frac) (p : Nat) : Frac × Frac :=
  let w := wprec p
  let l := ln2 w
  let yf := y.fix w
  let k := yf / l
  shiftBounds k (around w (expFix w (yf - k * l)) (serr * 8192))

/-- 2^m for a fraction m between -2000 and 2000. -/
def exp2Bounds (m : Frac) (p : Nat) : Frac × Frac :=
  let w := wprec p
  let n := m.floor
  let r := (m.sub (Frac.ofInt n)).fix w
  shiftBounds n (around w (expFix w (r * ln2 w / (2 ^ w : Nat))) serr)

/-- The natural logarithm of a fraction from 1 to 2, over 2^w. -/
def lnFix (w : Nat) (z : Frac) : Int :=
  artanh2 w (z.num - z.den) (z.num.natAbs + z.den)

/-- log2 of a positive fraction. -/
def log2Bounds (a : Frac) (p : Nat) : Frac × Frac :=
  let w := wprec p
  let e := a.log2
  let z := a.mul (Frac.pow2 (-e))
  let n := lnFix w z
  let l := ln2 w
  ((Frac.ofInt e).add ((⟨n - serr, 2 ^ w⟩ : Frac).div ⟨l + serr, 2 ^ w⟩),
   (Frac.ofInt e).add ((⟨n + serr, 2 ^ w⟩ : Frac).div ⟨l - serr, 2 ^ w⟩))

/-- The natural logarithm of a positive fraction. -/
def lnBounds (a : Frac) (p : Nat) : Frac × Frac :=
  let w := wprec p
  let e := a.log2
  around w (lnFix w (a.mul (Frac.pow2 (-e))) + e * ln2 w) (serr * 8192)

/-- sin πa, by the half-turn that holds a: for r from 0 to 1, sin πr = sin π(1 - r). -/
def sinpiBounds (a : Frac) (p : Nat) : Frac × Frac :=
  let w := wprec p
  let n := a.floor
  let r := a.sub (Frac.ofInt n)
  let r := if (Frac.mk 1 2).lt r then Frac.one.sub r else r
  let y := r.fix w * piFix w / (2 ^ w : Nat)
  let v := sinFix w y
  around w (if n % 2 = 0 then v else -v) serr

/-- cos πa = sin π(a + 1/2). -/
def cospiBounds (a : Frac) (p : Nat) : Frac × Frac := sinpiBounds (a.add ⟨1, 2⟩) p

/-- The integer square root, by Newton's steps from above. -/
def isqrtFrom (n : Nat) : Nat → Nat → Nat
  | 0, x => x
  | f + 1, x => let y := (x + n / x) / 2; if x ≤ y then x else isqrtFrom n f y
def isqrt (n : Nat) : Nat := if n = 0 then 0 else isqrtFrom n 200 (2 ^ (Nat.log2 n / 2 + 1))

/-- The square root of a nonnegative fraction: exact where it is a fraction. -/
def Rl.sqrt (a : Frac) : Rl :=
  let n := a.num.natAbs * a.den
  let r := isqrt n
  if r * r = n then .q ⟨r, a.den⟩
  else .enc fun p =>
    let k := isqrt (a.num.natAbs * 4 ^ p / a.den)
    (⟨k, 2 ^ p⟩, ⟨k + 1, 2 ^ p⟩)

/-- The magnitude beyond which the exponentials are replaced by 2^2000 or 2^-2000: every such value rounds alike in every
format and mode (assumption 6). -/
def farArg : Frac := ⟨2000, 1⟩

/-- 2^a (R84, R110). -/
def Rl.exp2 (a : Frac) : Rl :=
  if farArg.lt a then .q (Frac.pow2 2000)
  else if a.lt farArg.neg then .q (Frac.pow2 (-2000))
  else if a.num % a.den = 0 then .q (Frac.pow2 a.floor)
  else .enc (exp2Bounds a)

/-- log2 of a positive fraction. -/
def Rl.log2 (a : Frac) : Rl :=
  if (Frac.pow2 a.log2).eq a then .q (Frac.ofInt a.log2) else .enc (log2Bounds a)

/-- sin πa and cos πa. -/
def Rl.sinpi (a : Frac) : Rl :=
  let h := a.mul ⟨2, 1⟩
  if h.num % h.den = 0 then .q (Frac.ofInt (match (h.floor % 4 : Int) with | 1 => 1 | 3 => -1 | _ => 0))
  else .enc (sinpiBounds a)
def Rl.cospi (a : Frac) : Rl := Rl.sinpi (a.add ⟨1, 2⟩)

/-- ln 2, π and 1/ln 2. -/
def Rl.ln2 : Rl := .enc fun p => around (wprec p) (Machine.ln2 (wprec p)) serr
def Rl.pi : Rl := .enc fun p => around (wprec p) (piFix (wprec p)) serr
def Rl.invLn2 : Rl := .enc fun p =>
  let w := wprec p
  ((⟨2 ^ w, (Machine.ln2 w + serr).toNat⟩ : Frac), (⟨2 ^ w, (Machine.ln2 w - serr).toNat⟩ : Frac))

/-- A decreasing or increasing function of u = e^y, y > 0, from the bounds of u. -/
def expMap (y : Frac) (lo hi : Frac → Frac) : Rl :=
  .enc fun p =>
    let b := expBounds y p
    (lo (b.1.max Frac.one), hi (b.2.max Frac.one))

/-- tanh a: for a > 0, 1 - 2/(e^2a + 1). -/
def Rl.tanhPos (a : Frac) : Rl :=
  if farArg.lt a then .q (Frac.one.sub (Frac.pow2 (-2000)))
  else
    let f := fun (u : Frac) => (u.sub Frac.one).div (u.add Frac.one)
    expMap (a.mul ⟨2, 1⟩) f f
def Rl.tanh (a : Frac) : Rl :=
  if a.isZero then .q a else if a.num < 0 then (Rl.tanhPos a.abs).neg else Rl.tanhPos a

/-- 1 - tanh² a = 4u/(u + 1)² with u = e^2|a|. -/
def Rl.tanhDeriv (a : Frac) : Rl :=
  if a.isZero then .q Frac.one
  else if farArg.lt a.abs then .q (Frac.pow2 (-2000))
  else .enc fun p =>
    let b := expBounds (a.abs.mul ⟨2, 1⟩) p
    let f := fun (u : Frac) => (u.mul ⟨4, 1⟩).div (u.add Frac.one).sq
    (f (b.2.max Frac.one), f (b.1.max Frac.one))

/-- σ(a) = u/(1 + u) or 1/(1 + u) with u = e^|a|. -/
def Rl.sigm (a : Frac) : Rl :=
  if a.isZero then .q ⟨1, 2⟩
  else if farArg.lt a then .q (Frac.one.sub (Frac.pow2 (-2000)))
  else if a.lt farArg.neg then .q (Frac.pow2 (-2000))
  else if a.num < 0 then .enc fun p =>
    let b := expBounds a.abs p
    ((b.2.add Frac.one).inv, ((b.1.max Frac.one).add Frac.one).inv)
  else
    let f := fun (u : Frac) => u.div (u.add Frac.one)
    expMap a f f

/-- σ(1 - σ) = u/(1 + u)². -/
def Rl.sigmDeriv (a : Frac) : Rl :=
  if a.isZero then .q ⟨1, 4⟩
  else if farArg.lt a.abs then .q (Frac.pow2 (-2000))
  else .enc fun p =>
    let b := expBounds a.abs p
    let f := fun (u : Frac) => u.div (u.add Frac.one).sq
    (f (b.2.max Frac.one), f (b.1.max Frac.one))

end Sys2Proof.Machine
end

