-- ==== Sys2Proof/Machine/Formats.lean ====
section
/-! DEFINITION. Number formats, rounding, conversion and quantisation variance (R56 to R76). -/

namespace Sys2Proof.Machine

/-- A decoded value: NaN, an infinity, or a number with the sign of its zero. -/
inductive Fl where
  | nan
  | inf (neg : Bool)
  | num (neg : Bool) (x : Frac)

/-- A format to round to: mantissa bits, the exponent of the smallest normal, the largest value, and whether it has
infinities. -/
structure Target where
  mb : Nat
  emin : Int
  top : Frac
  inf : Bool

/-- A floating layout (R56): exponent bits, mantissa bits, bias, whether the top exponent holds infinities and NaNs (2), only
the NaN of E4M3 (1), or neither (0). -/
structure Layout where
  eb : Nat
  mb : Nat
  bias : Nat
  special : Nat

def Layout.f32 : Layout := ⟨8, 23, 127, 2⟩
def Layout.bf16 : Layout := ⟨8, 7, 127, 2⟩
def Layout.f16 : Layout := ⟨5, 10, 15, 2⟩
def Layout.e4m3 : Layout := ⟨4, 3, 7, 1⟩
def Layout.e5m2 : Layout := ⟨5, 2, 15, 2⟩
def Layout.e3m2 : Layout := ⟨3, 2, 3, 0⟩
def Layout.e2m3 : Layout := ⟨2, 3, 1, 0⟩
def Layout.e2m1 : Layout := ⟨2, 1, 1, 0⟩

/-- The largest finite value of a layout. -/
def Layout.top (l : Layout) : Frac :=
  let e := 2 ^ l.eb - 1 - (if l.special = 2 then 1 else 0)
  let m := 2 ^ l.mb - 1 - (if l.special = 1 then 1 else 0)
  (Frac.pow2 ((e : Int) - l.bias - l.mb)).mul ⟨(2 ^ l.mb + m : Nat), 1⟩

/-- A layout as a rounding target. -/
def Layout.target (l : Layout) : Target := ⟨l.mb, 1 - l.bias, l.top, l.special == 2⟩

/-- MXINT8 as a rounding target (R60). -/
def mxTarget : Target := ⟨6, 0, ⟨127, 64⟩, false⟩

/-- The value of an encoding (R57). -/
def Layout.decode (l : Layout) (w : Nat) : Fl :=
  let m := w % 2 ^ l.mb
  let e := w / 2 ^ l.mb % 2 ^ l.eb
  let s := w / 2 ^ (l.mb + l.eb) % 2 == 1
  if l.special = 2 ∧ e = 2 ^ l.eb - 1 then (if m = 0 then .inf s else .nan)
  else if l.special = 1 ∧ e = 2 ^ l.eb - 1 ∧ m = 2 ^ l.mb - 1 then .nan
  else
    let k : Int := if e = 0 then m else (2 ^ l.mb + m : Nat)
    let x := (Frac.pow2 ((if e = 0 then 1 else (e : Int)) - l.bias - l.mb)).mul (Frac.ofInt k)
    .num s (if s then x.neg else x)

/-- The canonical NaN (R58), +0 where the format has none (R68). -/
def Layout.nan (l : Layout) : Nat :=
  if l.special = 2 then (2 ^ l.eb - 1) * 2 ^ l.mb + 2 ^ (l.mb - 1)
  else if l.special = 1 then (2 ^ l.eb - 1) * 2 ^ l.mb + (2 ^ l.mb - 1)
  else 0

/-- The sign bit of a layout. -/
def Layout.sign (l : Layout) (s : Bool) : Nat := if s then 2 ^ (l.mb + l.eb) else 0

/-- The encoding of a member of the value set. -/
def Layout.encode (l : Layout) (v : Fl) : Nat :=
  match v with
  | .nan => l.nan
  | .inf s => l.sign s + (2 ^ l.eb - 1) * 2 ^ l.mb
  | .num s x =>
    if x.isZero then l.sign s
    else
      let e := max x.log2 (1 - (l.bias : Int))
      let k := (x.abs.mul (Frac.pow2 (l.mb - e))).floor.toNat
      if k < 2 ^ l.mb then l.sign (decide (x.num < 0)) + k
      else l.sign (decide (x.num < 0)) + (e + l.bias).toNat * 2 ^ l.mb + (k - 2 ^ l.mb)

/-! ### Rounding (R66) -/

/-- The spacing of a target's values at a magnitude. -/
def Target.gap (t : Target) (x : Frac) : Frac :=
  Frac.pow2 ((if x.isZero then t.emin else max x.log2 t.emin) - t.mb)

/-- Whether a mode takes the upper of two neighbours, for the lower one's index and the fraction t between them. -/
def pickUp (m : Rm) (d : Nat) (k : Int) (t : Frac) (neg : Bool) : Bool :=
  match m with
  | .rne => (Frac.mk 1 2).lt t || ((Frac.mk 1 2).eq t && k % 2 != 0)
  | .rz => neg
  | .rdn => false
  | .rup => true
  | .sr => (Frac.ofInt d).lt (t.mul ⟨4294967296, 1⟩)

/-- The cell of a target that holds a fraction: the index of its lower end, and the exponent of the spacing. -/
def Target.cell (t : Target) (v : Frac) : Int × Int :=
  let g := t.gap v
  ((v.div g).floor, g.log2)

/-- The multiple of the spacing that a mode chooses. -/
def Target.pick (t : Target) (m : Rm) (d : Nat) (v : Frac) : Int × Int :=
  let c := t.cell v
  let f := (v.div (t.gap v)).sub (Frac.ofInt c.1)
  (if f.isZero then c.1 else if pickUp m d c.1 f (decide (v.num < 0)) then c.1 + 1 else c.1, c.2)

/-- The largest value with a sign. -/
def Target.limit (t : Target) (neg : Bool) : Frac := if neg then t.top.neg else t.top

/-- R66's table: what a chosen multiple becomes. `z` is the sign of a zero. -/
def Target.outcome (t : Target) (m : Rm) (neg z : Bool) (y : Frac) : Fl :=
  if t.top.lt y.abs then
    let sat : Fl := .num neg (t.limit neg)
    if !t.inf then sat
    else match m with
      | .rne => .inf neg
      | .rz => sat
      | .rdn => if neg then .inf true else sat
      | .rup => if neg then sat else .inf false
      | .sr => .inf neg
  else if y.isZero then .num z Frac.zero
  else .num neg y

/-- Whether a real is below 0, and whether it is 0. -/
def Rl.isNeg (x : Rl) : Bool := x.settle fun v => decide (v.num < 0)
def Rl.isZero (x : Rl) : Bool := match x with | .q v => v.isZero | .enc _ => false

/-- A real rounded to a target (R66). `z` is the sign that an exact zero takes; a rounded zero keeps the sign of the real. -/
def Target.round (t : Target) (m : Rm) (d : Nat) (z : Bool) (x : Rl) : Fl :=
  let c := x.settle (t.pick m d)
  t.outcome m x.isNeg (if x.isZero then z else x.isNeg) ((Frac.pow2 c.2).mul (Frac.ofInt c.1))

/-- The exact fraction of a finite value. -/
def Fl.frac (v : Fl) : Frac :=
  match v with
  | .num _ x => x
  | _ => Frac.zero

/-- FP32: the value of a word, and a word of a member of its value set. -/
def f32 (w : Word) : Fl := Layout.f32.decode w.toNat
def word32 (v : Fl) : Word := Word.ofNat (Layout.f32.encode v)

/-- A real rounded to FP32. -/
def round32 (m : Rm) (d : Nat) (z : Bool) (x : Rl) : Word := word32 (Layout.f32.target.round m d z x)

/-- The canonical NaN, the infinities and the zeros of FP32. -/
def nan32 : Word := 0x7FC00000
def inf32 (s : Bool) : Word := if s then 0xFF800000 else 0x7F800000
def zero32 (s : Bool) : Word := if s then 0x80000000 else 0

/-- Rounding toward +∞ of a variance; `none` is +∞. -/
def rup32 (x : Option Rl) : Word :=
  match x with
  | none => inf32 false
  | some r => round32 .rup 0 false r

/-! ### Quantisation variance (R74) -/

/-- The quantisation variance of rounding a real to a target with the finite result `r`, before `rup`: the squared error, or
under SR t(1 - t)(hi - lo)² between the neighbours; a value that a format saturates takes its error (R76). -/
def Target.qv (t : Target) (m : Rm) (x : Rl) (r : Frac) : Rl :=
  let c := x.settle t.cell
  let lo := (Frac.pow2 c.2).mul (Frac.ofInt c.1)
  let hi := lo.add (Frac.pow2 c.2)
  let beyond := x.settle fun v => t.top.lt v.abs
  let exact := match x with | .q v => lo.eq v && !beyond | .enc _ => false
  if exact then .q Frac.zero
  else if m = .sr ∧ ¬(beyond ∧ !t.inf) then (x.minus lo).mul ((Rl.q hi).add x.neg)
  else (x.minus r).sq

/-! ### The formats by code (R56, R59, R60, R64) -/

/-- The layout of a floating format. -/
def fmtLayout : Fmt → Option Layout
  | .f32 => some .f32 | .bf16 => some .bf16 | .f16 => some .f16 | .e4m3 => some .e4m3 | .e5m2 => some .e5m2
  | .e3m2 => some .e3m2 | .e2m3 => some .e2m3 | .e2m1 => some .e2m1 | _ => none

/-- An integer format: its width and whether it is signed. -/
def fmtInt : Fmt → Option (Nat × Bool)
  | .int8 => some (8, true) | .nat8 => some (8, false) | .int16 => some (16, true) | .nat16 => some (16, false)
  | .int32 => some (32, true) | .nat32 => some (32, false) | .int64 => some (64, true) | .nat64 => some (64, false)
  | _ => none

/-- The value of an integer in a number of bits. -/
def Frac.ofBits (n : Nat) (sg : Bool) (w : Nat) : Frac :=
  let v := w % 2 ^ n
  Frac.ofInt (if sg && decide (2 ^ (n - 1) ≤ v) then (v : Int) - (2 ^ n : Nat) else v)

/-- A number whose format has no sign of its own for zero. -/
def signedFl (x : Frac) : Fl := .num (decide (x.num < 0)) x

/-- The value of an encoding, from the low bits of its word or pair (R65). -/
def fmtDecode (f : Fmt) (w : Nat) : Fl :=
  match fmtLayout f, fmtInt f with
  | some l, _ => l.decode w
  | none, some (n, sg) => signedFl (Frac.ofBits n sg w)
  | none, none =>
    if f = .mxint8 then signedFl ((Frac.ofBits 8 true w).mul ⟨1, 64⟩)
    else if w % 256 = 255 then .nan else .num false (Frac.pow2 ((w % 256 : Nat) - 127))

/-- A number of bits in two's complement. -/
def bitsOf (n : Nat) (i : Int) : Nat := (i % (2 ^ n : Nat)).toNat

/-- A value converted to a floating layout (R68). -/
def Layout.convert (l : Layout) (m : Rm) (d : Nat) (v : Fl) : Fl :=
  match v with
  | .nan => if l.special = 0 then .num false Frac.zero else .nan
  | .inf s => if l.special = 2 then .inf s else .num s (l.target.limit s)
  | .num z x => l.target.round m d z (.q x)

/-- A value converted to MXINT8 (R60, R68), which has one zero. -/
def mxConvert (m : Rm) (d : Nat) (v : Fl) : Fl :=
  match v with
  | .nan => .num false Frac.zero
  | .inf s => .num s (mxTarget.limit s)
  | .num _ x =>
    match mxTarget.round m d false (.q x) with
    | .num s y => if y.isZero then .num false Frac.zero else .num s y
    | r => r

/-- The encoding of a MXINT8 value. -/
def mxEncode (v : Fl) : Nat := bitsOf 8 (v.frac.mul ⟨64, 1⟩).floor

/-- A value converted to an integer of `n` bits (R69, R70). -/
def intConvert (n : Nat) (sg : Bool) (m : Rm) (d : Nat) (v : Fl) : Nat :=
  let lo : Int := if sg then -(2 ^ (n - 1) : Nat) else 0
  let hi : Int := if sg then (2 ^ (n - 1) : Nat) - 1 else (2 ^ n : Nat) - 1
  match v with
  | .nan => 0
  | .inf s => bitsOf n (if s then lo else hi)
  | .num _ x =>
    let k := x.floor
    let t := x.sub (Frac.ofInt k)
    let y := if t.isZero then k else if pickUp m d k t (decide (x.num < 0)) then k + 1 else k
    bitsOf n (max lo (min hi y))

/-- A value converted to E8M0 (R71). -/
def e8Convert (m : Rm) (d : Nat) (v : Fl) : Nat :=
  match v with
  | .nan => 255
  | .inf s => if s then 255 else 254
  | .num _ x =>
    if x.num ≤ 0 then 255
    else
      let k := x.log2
      let t := (x.mul (Frac.pow2 (-k))).sub Frac.one
      let e := (if t.isZero then k else if pickUp m d (k + 127) t false then k + 1 else k) + 127
      (max 0 (min 254 e)).toNat

/-- CVT in shape P (R68 to R71): the destination's encoding. -/
def convertP (dst : Fmt) (m : Rm) (d : Nat) (v : Fl) : Nat :=
  match fmtLayout dst, fmtInt dst with
  | some l, _ => l.encode (l.convert m d v)
  | none, some (n, sg) => intConvert n sg m d v
  | none, none => if dst = .mxint8 then mxEncode (mxConvert m d v) else e8Convert m d v

/-- The rounding target of a format with codes 0 to 8, and the conversion to it as a value (R72). -/
def fmtTarget (f : Fmt) : Target :=
  match fmtLayout f with
  | some l => l.target
  | none => mxTarget
def convertF (dst : Fmt) (m : Rm) (d : Nat) (v : Fl) : Fl :=
  match fmtLayout dst with
  | some l => l.convert m d v
  | none => mxConvert m d v

/-! ### MX blocks (R61 to R63, R73, R74) -/

/-- The element formats. -/
def elemFmt : EFmt → Fmt
  | .e4m3 => .e4m3 | .e5m2 => .e5m2 | .e3m2 => .e3m2 | .e2m3 => .e2m3 | .e2m1 => .e2m1 | .mxint8 => .mxint8

/-- The width of an element, and its largest normal exponent. -/
def elemWidth : EFmt → Nat
  | .e3m2 => 6 | .e2m3 => 6 | .e2m1 => 4 | _ => 8
def elemEmax : EFmt → Int
  | .e4m3 => 8 | .e5m2 => 15 | .e3m2 => 4 | .e2m3 => 2 | .e2m1 => 2 | .mxint8 => 0

/-- A block quantised (R73): the scale, and each element's encoding and value. `none` scale is NaN. -/
structure Block where
  k : Option Int
  elems : List (Nat × Fl)

/-- The scale byte of a block. -/
def Block.scale (b : Block) : Nat :=
  match b.k with
  | some k => (k + 127).toNat
  | none => 255

/-- One value of a block converted at the scale 2^k. -/
def quantElem (f : EFmt) (m : Rm) (d : Nat) (k : Int) (v : Fl) : Nat × Fl :=
  let v' := match v with | .num z x => .num z (x.mul (Frac.pow2 (-k))) | w => w
  (convertP (elemFmt f) m d v', convertF (elemFmt f) m d v')

/-- The values of a block with their dithers, quantised (R73). -/
def quantise (f : EFmt) (m : Rm) (vs : List (Fl × Nat)) : Block :=
  if vs.any fun v => match v.1 with | .num _ _ => false | _ => true then ⟨none, vs.map fun _ => (0, .nan)⟩
  else
    let amax := vs.foldl (fun a v => a.max v.1.frac.abs) Frac.zero
    let k := if amax.isZero then (-127 : Int) else amax.log2 - elemEmax f
    let k := min (max k (-127)) 127
    ⟨some k, vs.map fun v => quantElem f m v.2 k v.1⟩

/-- The exact quantisation variance of a block's element, at the real value (R74): `none` where it encodes an infinity. -/
def elemQv (f : EFmt) (m : Rm) (k : Int) (v r : Fl) : Option Rl :=
  match r with
  | .num _ y => some (((fmtTarget (elemFmt f)).qv m (.q (v.frac.mul (Frac.pow2 (-k)))) y).scale (Frac.pow2 (2 * k)))
  | _ => none

/-- An element decoded by its scale, as an FP32 word (R63). -/
def elemWord (f : EFmt) (scale elem : Nat) : Word :=
  if scale % 256 = 255 then nan32
  else
    match fmtDecode (elemFmt f) elem with
    | .nan => nan32
    | .inf s => inf32 s
    | .num z x =>
      let y := x.mul (Frac.pow2 ((scale % 256 : Nat) - 127))
      if y.isZero then zero32 z
      else if Layout.f32.top.lt y.abs then inf32 (decide (y.num < 0))
      else word32 (.num z y)

end Sys2Proof.Machine
end

