-- ==== Sys2Proof/Machine/Moments.lean ====
section
/-! DEFINITION. Distributions in registers: the reading rule, the propagation of variance and coefficients, folding, rounding
and the special values (R77 to R94), and the exact functions on means (R84, R104, R110). -/

namespace Sys2Proof.Machine

/-! ### Results before rounding -/

/-- An exact result: NaN, an infinity, or a real with the sign that it takes as a zero. -/
inductive Pre where
  | nan
  | inf (neg : Bool)
  | real (z : Bool) (x : Rl)

/-- A value as an exact result. -/
def Pre.of (v : Fl) : Pre :=
  match v with
  | .nan => .nan
  | .inf s => .inf s
  | .num z x => .real z (.q x)

/-- The value of FP32 that an exact result rounds to. -/
def Pre.fl (p : Pre) (m : Rm) (d : Nat) : Fl :=
  match p with
  | .nan => .nan
  | .inf s => .inf s
  | .real z x => Layout.f32.target.round m d z x

/-- The FP32 word of an exact result (R66, R103). -/
def Pre.word (p : Pre) (m : Rm) (d : Nat) : Word := word32 (p.fl m d)

/-- An exact sum of two finite values: the sign of a zero sum is that of the zeros that agree, else + or, under RDN, - (R104). -/
def addZero (m : Rm) (a b : Frac) (sa sb : Bool) : Pre :=
  let x := a.add b
  .real (if a.isZero && b.isZero && sa == sb then sa else decide (m = .rdn)) (.q x)

/-- FADD (R84, R104). -/
def addPre (m : Rm) (a b : Fl) : Pre :=
  match a, b with
  | .nan, _ => .nan
  | _, .nan => .nan
  | .inf s, .inf t => if s = t then .inf s else .nan
  | .inf s, .num _ _ => .inf s
  | .num _ _, .inf t => .inf t
  | .num s x, .num t y => addZero m x y s t

/-- The opposite of a value. -/
def Fl.neg (v : Fl) : Fl :=
  match v with
  | .nan => .nan
  | .inf s => .inf !s
  | .num s x => .num (!s) x.neg

/-- A product as a value: the exact product of finite values (R104). -/
def mulFl (a b : Fl) : Fl :=
  match a, b with
  | .nan, _ => .nan
  | _, .nan => .nan
  | .inf s, .inf t => .inf (s != t)
  | .inf s, .num t y => if y.isZero then .nan else .inf (s != t)
  | .num s x, .inf t => if x.isZero then .nan else .inf (s != t)
  | .num s x, .num t y => .num (s != t) (x.mul y)

def mulPre (a b : Fl) : Pre := Pre.of (mulFl a b)

/-- FFMA: one rounding (R84, R104). -/
def fmaPre (m : Rm) (a b c : Fl) : Pre := addPre m (mulFl a b) c

/-- FDIV (R104). -/
def divPre (a b : Fl) : Pre :=
  match a, b with
  | .nan, _ => .nan
  | _, .nan => .nan
  | .inf _, .inf _ => .nan
  | .inf s, .num t _ => .inf (s != t)
  | .num s _, .inf t => .real (s != t) (.q Frac.zero)
  | .num s x, .num t y =>
    if y.isZero then (if x.isZero then .nan else .inf (s != t)) else .real (s != t) (.q (x.div y))

/-- The unary functions (R84, R106, R110). -/
inductive UnFn where
  | relu | sqrelu | rcp | sqrt | rsq | exp2 | log2 | sinpi | cospi | tanh | sigm
  deriving DecidableEq, Repr

/-- The exact value of a unary function. -/
def UnFn.pre (f : UnFn) (a : Fl) : Pre :=
  match a with
  | .nan => .nan
  | .inf s =>
    match f with
    | .relu | .sqrelu => if s then .real false (.q Frac.zero) else .inf false
    | .rcp => .real s (.q Frac.zero)
    | .sqrt | .log2 => if s then .nan else .inf false
    | .rsq => if s then .nan else .real false (.q Frac.zero)
    | .exp2 => if s then .real false (.q Frac.zero) else .inf false
    | .sinpi | .cospi => .nan
    | .tanh => .real s (.q (Frac.ofInt (if s then -1 else 1)))
    | .sigm => .real false (.q (if s then Frac.zero else Frac.one))
  | .num s x =>
    match f with
    | .relu => if 0 < x.num then .real false (.q x) else .real false (.q Frac.zero)
    | .sqrelu => if 0 < x.num then .real false (.q x.sq) else .real false (.q Frac.zero)
    | .rcp => if x.isZero then .inf s else .real s (.q x.inv)
    | .sqrt => if x.isZero then .real s (.q Frac.zero) else if x.num < 0 then .nan else .real false (.sqrt x)
    | .rsq => if x.isZero then .inf s else if x.num < 0 then .nan else .real false (.sqrt x.inv)
    | .exp2 => .real false (.exp2 x)
    | .log2 => if x.isZero then .inf true else if x.num < 0 then .nan else .real false (.log2 x)
    | .sinpi => .real s (.sinpi x)
    | .cospi => .real false (.cospi x)
    | .tanh => .real s (.tanh x)
    | .sigm => .real false (.sigm x)

/-! ### Moments as read (R80) -/

/-- A moment: its mean, its residual (`none` is +∞) and its coefficients by tag. -/
structure Mom where
  mean : Fl
  res : Option Frac
  cs : List (Nat × Frac)

/-- A variance word with a finite mean: `none` is +∞. -/
def readVar (w : Word) : Option Frac :=
  match f32 w with
  | .num _ x => if x.num < 0 then none else some x
  | _ => none

/-- A coefficient read with its tag: what it adds to the residual, and what it keeps. -/
def readCoef (c t : Nat) : Option Frac × List (Nat × Frac) :=
  match Layout.bf16.decode c with
  | .num _ x => if x.isZero then (some Frac.zero, []) else if t = 0 then (some x.sq, []) else (some Frac.zero, [(t, x)])
  | _ => (none, [])

/-- A sum in which `none` is +∞. -/
def addInf (a b : Option Frac) : Option Frac :=
  match a, b with
  | some x, some y => some (x.add y)
  | _, _ => none

/-- Two coefficients under one tag are one, and a zero one is dropped. -/
def mergeCoef (cs : List (Nat × Frac)) (t : Nat) (c : Frac) : List (Nat × Frac) :=
  match cs with
  | [] => if c.isZero then [] else [(t, c)]
  | (u, b) :: r =>
    if u = t then (let x := b.add c; if x.isZero then r else (u, x) :: r) else (u, b) :: mergeCoef r t c

/-- An operand in shape M or Q, by the reading rule. -/
def readMom (ws : List Word) : Mom :=
  match f32 (ws.getD 0 0) with
  | .nan => ⟨.nan, some Frac.zero, []⟩
  | .inf s => ⟨.inf s, none, []⟩
  | .num s x =>
    let res := readVar (ws.getD 1 0)
    match ws[2]?, ws[3]? with
    | some c, some t =>
      let a := readCoef (c.toNat % 65536) (t.toNat % 65536)
      let b := readCoef (c.toNat / 65536) (t.toNat / 65536)
      ⟨.num s x, addInf res (addInf a.1 b.1), b.2.foldl (fun cs e => mergeCoef cs e.1 e.2) a.2⟩
    | _, _ => ⟨.num s x, res, []⟩

/-- The total variance (R78). -/
def Mom.var (m : Mom) : Option Frac := m.cs.foldl (fun v c => addInf v (some c.2.sq)) m.res

/-! ### Derivatives (R84, R85) -/

/-- A derivative: a fraction, an irrational number with its square, infinite, or the limit at an infinite mean (whether it is
0). -/
inductive Der where
  | rat (d : Frac)
  | irr (d d2 : Rl)
  | inf
  | limit (zero : Bool)

/-- The derivative of a unary function. -/
def UnFn.der (f : UnFn) (a : Fl) : Der :=
  match a with
  | .nan => .rat Frac.zero
  | .inf s =>
    match f with
    | .relu | .sqrelu => .limit s
    | .rcp | .rsq | .tanh | .sigm => .limit true
    | .exp2 => .limit s
    | _ => .limit false
  | .num _ x =>
    let irr := fun (d : Rl) => Der.irr d d.sq
    match f with
    | .relu => .rat (if x.num < 0 then Frac.zero else Frac.one)
    | .sqrelu => .rat (if 0 < x.num then x.mul ⟨2, 1⟩ else Frac.zero)
    | .rcp => .rat x.sq.inv.neg
    | .sqrt => if x.isZero then .inf else .irr ((Rl.sqrt x.inv).scale ⟨1, 2⟩) (.q (x.mul ⟨4, 1⟩).inv)
    | .rsq => .irr (((Rl.sqrt x.inv).scale x.inv).scale ⟨-1, 2⟩) (.q ((x.mul x.sq).mul ⟨4, 1⟩).inv)
    | .exp2 => irr (Rl.ln2.mul (Rl.exp2 x))
    | .log2 => irr (Rl.invLn2.scale x.inv)
    | .sinpi => match Rl.cospi x with
      | .q c => if c.isZero then .rat Frac.zero else irr (Rl.pi.scale c)
      | c => irr (Rl.pi.mul c)
    | .cospi => match Rl.sinpi x with
      | .q c => if c.isZero then .rat Frac.zero else irr (Rl.pi.scale c.neg)
      | c => irr (Rl.pi.mul c.neg)
    | .tanh => match Rl.tanhDeriv x with
      | .q d => .rat d
      | d => irr d
    | .sigm => match Rl.sigmDeriv x with
      | .q d => .rat d
      | d => irr d

/-! ### Propagation (R83, R85, R87) -/

/-- The exact variance on its way: D² `a` + `b`, or +∞; the coefficients are D `cs`. -/
structure Prop1 where
  d : Rl
  d2 : Rl
  a : Frac
  b : Frac
  inf : Bool
  cs : List (Nat × Frac)

/-- Nothing propagated. -/
def Prop1.zero : Prop1 := ⟨.q Frac.one, .q Frac.one, Frac.zero, Frac.zero, false, []⟩

/-- With one operand's term and coefficients added, by a derivative that is no irrational number. -/
def Prop1.term (p : Prop1) (x : Mom) (d : Der) : Prop1 :=
  match d with
  | .rat d =>
    let cs := x.cs.foldl (fun cs c => mergeCoef cs c.1 (d.mul c.2)) p.cs
    match x.res with
    | some v => { p with b := p.b.add (d.sq.mul v), cs := cs }
    | none => { p with inf := true, cs := cs }
  | .inf =>
    match x.res with
    | some v => { p with inf := p.inf || !v.isZero || !x.cs.isEmpty }
    | none => { p with inf := true }
  | .limit z => { p with inf := p.inf || !z }
  | .irr _ _ => p

/-- The propagation of an instruction's operands (R83, R85). -/
def propagate (xs : List (Mom × Der)) : Prop1 :=
  match xs with
  | [(x, .irr d d2)] =>
    match x.res with
    | some v => ⟨d, d2, v, Frac.zero, false, x.cs⟩
    | none => ⟨d, d2, Frac.zero, Frac.zero, true, x.cs⟩
  | _ => xs.foldl (fun p x => p.term x.1 x.2) Prop1.zero

/-- The second-order term VA × VB (R87). -/
def secondOrder (a b : Mom) : Option Frac :=
  match a.var, b.var with
  | some x, some y => some (x.mul y)
  | some x, none => if x.isZero then some Frac.zero else none
  | none, some y => if y.isZero then some Frac.zero else none
  | none, none => none

/-- With an exact term added. -/
def Prop1.plus (p : Prop1) (v : Option Frac) : Prop1 :=
  match v with
  | some x => { p with b := p.b.add x }
  | none => { p with inf := true }

/-! ### Folding and coefficient rounding (R89, R90) -/

/-- A coefficient placed in the order of R89: by magnitude descending, then by tag. -/
def insertCoef (e : Nat × Frac) : List (Nat × Frac) → List (Nat × Frac)
  | [] => [e]
  | c :: r =>
    if c.2.abs.lt e.2.abs || (c.2.abs.eq e.2.abs && decide (e.1 < c.1)) then e :: c :: r else c :: insertCoef e r

/-- The fold: the first two tags are kept, the rest goes to the variance. -/
def Prop1.fold (p : Prop1) : Prop1 :=
  let s := p.cs.foldl (fun l e => insertCoef e l) []
  { p with cs := s.take 2, a := (s.drop 2).foldl (fun v c => v.add c.2.sq) p.a }

/-- One kept coefficient rounded to BF16 by RNE, with its effect on the variance: the bits that stay under its tag. -/
def Prop1.roundCoef (p : Prop1) (t : Nat) (c : Frac) : Prop1 × List (Nat × Nat) :=
  let w := (p.d.scale c).settle fun v => Layout.bf16.encode (Layout.bf16.target.round .rne 0 false (.q v))
  match Layout.bf16.decode w with
  | .num _ y =>
    if y.isZero then ({ p with a := p.a.add c.sq }, [])
    else if (p.d2.scale c.sq).settle fun v => y.sq.lt v then
      ({ p with a := p.a.add c.sq, b := p.b.sub y.sq }, [(t, w)])
    else (p, [(t, w)])
  | _ => ({ p with inf := true }, [])

/-- The kept coefficients rounded, placed by tag. -/
def Prop1.place (p : Prop1) : Prop1 × List (Nat × Nat) :=
  let r := p.cs.foldl (fun (a : Prop1 × List (Nat × Nat)) c =>
    let x := a.1.roundCoef c.1 c.2
    (x.1, a.2 ++ x.2)) (p, [])
  (r.1, match r.2 with
    | [x, y] => if y.1 < x.1 then [y, x] else [x, y]
    | l => l)

/-- The exact variance; `none` is +∞. -/
def Prop1.real (p : Prop1) : Option Rl :=
  if p.inf then none else if p.a.isZero then some (.q p.b) else some ((p.d2.scale p.a).add (.q p.b))

/-! ### Writing a moment -/

/-- The coefficient and tag words of pairs in place. -/
def coefWords (l : List (Nat × Nat)) : List Word :=
  let a := l.getD 0 (0, 0)
  let b := l.getD 1 (0, 0)
  [Word.ofNat (a.2 + 65536 * b.2), Word.ofNat (a.1 + 65536 * b.1)]

/-- The words of a moment in a shape. -/
def momWords (sh : Shape) (mean var : Word) (l : List (Nat × Nat)) : List Word :=
  if sh = .M then [mean, var] else mean :: var :: coefWords l

/-- The special values of R91 for a mean that is NaN or infinite. -/
def specialMom (sh : Shape) (mean : Fl) : Option (List Word) :=
  match mean with
  | .nan => some (momWords sh nan32 nan32 [])
  | .inf s => some (momWords sh (inf32 s) (inf32 false) [])
  | .num _ _ => none

/-- The sum of a variance word and a quantisation variance, rounded up (R75). -/
def addUp (v w : Word) : Word :=
  match f32 v, f32 w with
  | .num _ x, .num _ y => rup32 (some (.q (x.add y)))
  | _, _ => inf32 false

/-- The end of R83: the fold, the coefficients, the variance and the quantisation variance. -/
def Prop1.finish (p : Prop1) (sh : Shape) (mean : Fl) (qv : Option Rl) : List Word :=
  match specialMom sh mean with
  | some ws => ws
  | none =>
    let r := p.fold.place
    let v := rup32 r.1.real
    let v := match qv with
      | some q => addUp v (rup32 (some q))
      | none => v
    momWords sh (word32 mean) v r.2

/-- The quantisation variance of a result, where there is one. -/
def Pre.qv (p : Pre) (t : Target) (m : Rm) (r : Fl) : Option Rl :=
  match p, r with
  | .real _ x, .num _ y => some (t.qv m x y)
  | _, _ => none

/-- An arithmetic result in shape M or Q (R83), from its exact mean and its operands with their derivatives. -/
def arith (sh : Shape) (noise : Bool) (m : Rm) (d : Nat) (p : Pre) (v : Prop1) : List Word :=
  let mean := p.fl m d
  v.finish sh mean (if noise then p.qv Layout.f32.target m mean else none)

end Sys2Proof.Machine
end

