-- ==== Sys2Proof/Machine/Grain.lean ====
section
/-! DEFINITION. The Grain unit: the generator, the values formed from its words, and the Grain instructions (R155 to R166). -/

namespace Sys2Proof.Machine

/-- One round of Philox4x32 on the counter words (R157). -/
def philoxRound (k0 k1 : Nat) (c : Nat × Nat × Nat × Nat) : Nat × Nat × Nat × Nat :=
  let p := 0xD2511F53 * c.1
  let q := 0xCD9E8D57 * c.2.2.1
  (Nat.xor (Nat.xor (q / 4294967296) c.2.1) k0, q % 4294967296,
   Nat.xor (Nat.xor (p / 4294967296) c.2.2.2) k1, p % 4294967296)

/-- Philox4x32-10 (R157). -/
def philox (k0 k1 : Nat) (c : Nat × Nat × Nat × Nat) : Nat × Nat × Nat × Nat :=
  (List.range 10).foldl (fun c i =>
    philoxRound ((k0 + i * 0x9E3779B9) % 4294967296) ((k1 + i * 0xBB67AE85) % 4294967296) c) c

/-- Word `j` of block `n` of slot `sl` in lane `i` (R156, R157). -/
def Slot.word (q : Slot) (grp team i sl : Nat) (n : BitVec 64) (j : Nat) : Nat :=
  if q.weyl then (4 * (32 * n.toNat + i) + j) * 0x9E3779B9 % 4294967296
  else
    let c1 := 65536 * q.sid.toNat + 1024 * sl + 32 * grp + i
    let b := philox (q.key.toNat % 4294967296) (q.key.toNat / 4294967296)
      (n.toNat % 4294967296, c1, team % 4294967296, n.toNat / 4294967296)
    match j with
    | 0 => b.1 | 1 => b.2.1 | 2 => b.2.2.1 | _ => b.2.2.2

/-- A slot of a lane. -/
def Lane.slot (l : Lane) (k : Nat) : Slot := l.slots.getD k ⟨0, 0, false, 0⟩

/-- A lane with a slot changed, and with a slot's index moved past `n` blocks (R158). -/
def Lane.updSlot (l : Lane) (k : Nat) (f : Slot → Slot) : Lane := { l with slots := listUpd l.slots k f }
def Lane.consume (l : Lane) (k n : Nat) : Lane := l.updSlot k fun q => { q with idx := q.idx + BitVec.ofNat 64 n }

/-- Word `j` of the block `b` after a lane's index. -/
def Lane.grain (l : Lane) (e : Env) (i k b j : Nat) : Nat :=
  let q := l.slot k
  q.word e.grp e.team i k (q.idx + BitVec.ofNat 64 b) j

/-- The dithers of an instruction under SR, from slot 3, and the lane past them (R67, R96). -/
def LaneIn.dithers (l : LaneIn) (e : Env) (m : Rm) (n : Nat) : (Nat → Nat) × Lane :=
  if m = .sr then (fun j => l.lane.grain e l.n 3 j 0, l.lane.consume 3 n) else (fun _ => 0, l.lane)

/-! ### From words to values (R159, R160) -/

/-- The uniform value of a word. -/
def uniform (x : Nat) : Frac := ⟨(2 * (x / 512) + 1 : Nat), 16777216⟩

/-- An exact result rounded to FP32 by RNE, as a value. -/
def Pre.rne (p : Pre) : Fl := p.fl .rne 0

/-- −2 ln 2 and −ln 2, rounded to nearest. -/
def cm2l : Fl := f32 0xBFB17218
def cml : Fl := f32 0xBF317218

/-- The Gaussian values of two words. -/
def gauss (xa xb : Nat) : Word × Word :=
  let a := (UnFn.log2.pre (.num false (uniform xa))).rne
  let r := (UnFn.sqrt.pre (mulPre a cm2l).rne).rne
  let h : Fl := .num false ((uniform xb).mul ⟨2, 1⟩)
  ((mulPre r (UnFn.cospi.pre h).rne).word .rne 0, (mulPre r (UnFn.sinpi.pre h).rne).word .rne 0)

/-- The Gumbel value of a word. -/
def gumbel (x : Nat) : Word :=
  let a := (UnFn.log2.pre (.num false (uniform x))).rne
  let b := (mulPre a cml).rne
  (mulPre (UnFn.log2.pre b).rne cml).word .rne 0

/-- The eight words of two blocks, and the eight Gaussian values of them (R158, R160). -/
def Lane.words8 (l : Lane) (e : Env) (i k : Nat) : List Nat :=
  (List.range 8).map fun j => l.grain e i k (j / 4) (j % 4)
def gauss8 (x : List Nat) : List Word :=
  (List.range 4).flatMap fun j => let g := gauss (x.getD (2 * j) 0) (x.getD (2 * j + 1) 0); [g.1, g.2]

/-! ### The instructions (R161 to R163) -/

/-- A Grain instruction's words and how many blocks it takes, by shape. -/
def grainVals (sh : Shape) (l : LaneIn) (e : Env) (k : Nat) (one : Nat → Word) : Lane × List Word :=
  if sh = .S then (l.lane.consume k 2, (l.lane.words8 e l.n k).map one)
  else (l.lane.consume k 1, [one (l.lane.grain e l.n k 0 0)])

/-- GSEED (R161). -/
def execGseed (h : Hd) (ra : Src) (sl : Fin 4) (form : SeedForm) (s : State) : Out :=
  perLaneSt (formOf (.gseed h ra sl form)) (fun _ l =>
    let v : BitVec 64 := l.w 0 1 ++ l.w 0 0
    (l.lane.updSlot sl.val fun q =>
      match form with
      | .seed weyl _ => ⟨v, (l.w 1 0).truncate 16, weyl, 0⟩
      | .pos => { q with idx := v }, [])) s

/-- GUNI (R161). -/
def execGuni (h : Hd) (sh : Shape) (rd : LDst) (sl : Fin 4) (form : UniForm) (s : State) : Out :=
  perLaneSt (formOf (.guni h sh rd sl form)) (fun e l =>
    match form with
    | .draw => grainVals sh l e sl.val fun x => word32 (.num false (uniform x))
    | .idx hi =>
      let v := (l.lane.slot sl.val).idx
      (l.lane, [if hi then v.extractLsb' 32 32 else v.truncate 32])) s

/-- GNORM (R160, R161). -/
def execGnorm (h : Hd) (sh : Shape) (rd : LDst) (sl : Fin 4) (s : State) : Out :=
  perLaneSt (formOf (.gnorm h sh rd sl)) (fun e l =>
    if sh = .S then (l.lane.consume sl.val 2, gauss8 (l.lane.words8 e l.n sl.val))
    else (l.lane.consume sl.val 1, [(gauss (l.lane.grain e l.n sl.val 0 0) (l.lane.grain e l.n sl.val 0 1)).1])) s

/-- GGUM (R160, R161). -/
def execGgum (h : Hd) (sh : Shape) (rd : LDst) (sl : Fin 4) (s : State) : Out :=
  perLaneSt (formOf (.ggum h sh rd sl)) (fun e l => grainVals sh l e sl.val gumbel) s

/-- GBER's result for a probability and a word (R162). -/
def bernoulli (p : Fl) (x : Nat) : Word :=
  match p with
  | .nan => 0
  | .inf s => if s then 0 else 1
  | .num _ q => if q.num ≤ 0 then 0 else if Frac.one.le q then 1 else boolWord ((Frac.ofInt x).lt (q.mul ⟨4294967296, 1⟩))

/-- GBER (R162). -/
def execGber (h : Hd) (rd : LDst) (ra : Src) (sl : Fin 4) (s : State) : Out :=
  perLaneSt (formOf (.gber h rd ra sl)) (fun e l =>
    (l.lane.consume sl.val 1, [bernoulli (f32 (l.w 0 0)) (l.lane.grain e l.n sl.val 0 0)])) s

/-- A weight of GCAT (R163). -/
def catWeight (v : Fl) : Fl :=
  match v with
  | .num s x => if s then .num false Frac.zero else .num false x
  | .inf s => if s then .num false Frac.zero else .inf false
  | .nan => .num false Frac.zero

/-- The prefixes of GCAT's weights, each sum rounded (R163). -/
def catPrefix (ws : List Fl) : List Fl :=
  (ws.foldl (fun (a : Fl × List Fl) w =>
    let p := (addPre .rne a.1 w).rne
    (p, a.2 ++ [p])) (.num false Frac.zero, [])).2

/-- The index that a test first meets, or all ones. -/
def firstIdx (l : List Fl) (t : Fl → Bool) : Word := Word.ofNat (l.findIdx t)

/-- GCAT's choice (R163). -/
def catChoice (ps : List Fl) (x : Nat) : Word :=
  match ps.getLastD .nan with
  | .inf _ => firstIdx ps fun p => match p with | .inf _ => true | _ => false
  | .num _ w =>
    if w.isZero then 0xFFFFFFFF
    else firstIdx ps fun p => match p with
      | .num _ q => ((Frac.mk x 4294967296).mul w).lt q
      | .inf _ => true
      | .nan => false
  | .nan => 0xFFFFFFFF

/-- GCAT (R163). A marked weight in any executing lane traps POISON for all of them, since every lane reads it (R95; assumption 97). -/
def execGcat (h : Hd) (rd : LDst) (ra : Src) (sl : Fin 4) (s : State) : Out :=
  laneInstr (formOf (.gcat h rd ra sl)) (gatherPoison gatherAll) (fun e ins i =>
    let ps := catPrefix (ins.map fun l => if l.ex then catWeight (f32 (l.w 0 0)) else .num false Frac.zero)
    let x := match ins.find? fun l => l.ex with
      | some l => l.lane.grain e l.n sl.val 0 0
      | none => 0
    match ins[i]? with
    | some l => (l.lane.consume sl.val 1, [catChoice ps x])
    | none => (Lane.none, [])) s

end Sys2Proof.Machine
end

