-- ==== Sys2Proof/Machine/FloatOps.lean ====
section
/-! DEFINITION. Shaped float instructions and correctly rounded functions (R84 to R88, R103 to R110), in their 64-bit, compact
and short forms. -/

namespace Sys2Proof.Machine

/-- A float instruction's result in a shape: the P rule on words and samples (R88, R103), R83 on moments. `ds` are the dithers
of its means or samples. -/
def shaped (sh : Shape) (rm : Rm) (noise : Bool) (pre : List Fl → Pre) (prop : List Mom → Prop1) (ds : Nat → Nat)
    (ops : List (List Word)) : List Word :=
  let sample := fun j => (pre (ops.map fun o => f32 (o.getD j 0))).word rm (ds j)
  match sh with
  | .P => [sample 0]
  | .S => (List.range 8).map sample
  | _ =>
    let xs := ops.map readMom
    arith sh noise rm (ds 0) (pre (xs.map (·.mean))) (prop xs)

/-- How many dithers an instruction draws in a shape under SR (R96). -/
def draws (sh : Shape) : Nat := if sh = .S then 8 else 1

/-- A float instruction. -/
def floatOp (f : Form) (sh : Shape) (rm : Rm) (pre : List Fl → Pre) (prop : Env → List Mom → Prop1) (s : State) : Out :=
  perLaneSt f (fun e l =>
    let d := l.dithers e rm (draws sh)
    (d.2, shaped sh rm e.noise pre (prop e) d.1 l.ops)) s

/-- The first and second operands of a list. -/
def fl0 (l : List Fl) : Fl := l.getD 0 .nan
def fl1 (l : List Fl) : Fl := l.getD 1 .nan
def fl2 (l : List Fl) : Fl := l.getD 2 .nan
def mom0 (l : List Mom) : Mom := l.getD 0 ⟨.nan, some Frac.zero, []⟩
def mom1 (l : List Mom) : Mom := l.getD 1 ⟨.nan, some Frac.zero, []⟩
def mom2 (l : List Mom) : Mom := l.getD 2 ⟨.nan, some Frac.zero, []⟩

/-- FADD and FSUB (R84): derivatives 1 and ±1. -/
def addProp (neg : Bool) (l : List Mom) : Prop1 :=
  propagate [(mom0 l, .rat Frac.one), (mom1 l, .rat (if neg then Frac.one.neg else Frac.one))]

/-- Whether an instruction takes the second-order term (R87). -/
def wantsSecond (e : Env) (sec : Sec) : Bool :=
  match sec with
  | .nctl => e.sec
  | .first => false
  | .on => true

/-- FMUL and FFMA (R84, R87). -/
def mulProp (sec : Sec) (e : Env) (l : List Mom) : Prop1 :=
  let a := mom0 l
  let b := mom1 l
  let p := propagate [(a, .rat b.mean.frac), (b, .rat a.mean.frac)]
  if wantsSecond e sec then p.plus (secondOrder a b) else p
def fmaProp (sec : Sec) (e : Env) (l : List Mom) : Prop1 := (mulProp sec e l).term (mom2 l) (.rat Frac.one)

/-- FDIV's derivatives (R84, R85). -/
def divProp (l : List Mom) : Prop1 :=
  let a := mom0 l
  let b := mom1 l
  match b.mean with
  | .num _ y => propagate [(a, .rat y.inv), (b, .rat (a.mean.frac.mul y.sq.inv).neg)]
  | _ => propagate [(a, .rat Frac.zero), (b, .limit true)]

/-- A unary function. -/
def unProp (f : UnFn) (l : List Mom) : Prop1 := propagate [(mom0 l, f.der (mom0 l).mean)]

/-- The instructions' rules. -/
def faddOp (f : Form) (sh : Shape) (rm : Rm) (s : State) : Out :=
  floatOp f sh rm (fun l => addPre rm (fl0 l) (fl1 l)) (fun _ => addProp false) s
def fsubOp (f : Form) (sh : Shape) (rm : Rm) (s : State) : Out :=
  floatOp f sh rm (fun l => addPre rm (fl0 l) (fl1 l).neg) (fun _ => addProp true) s
def fmulOp (f : Form) (sh : Shape) (rm : Rm) (sec : Sec) (s : State) : Out :=
  floatOp f sh rm (fun l => mulPre (fl0 l) (fl1 l)) (mulProp sec) s
def ffmaOp (f : Form) (sh : Shape) (rm : Rm) (sec : Sec) (s : State) : Out :=
  floatOp f sh rm (fun l => fmaPre rm (fl0 l) (fl1 l) (fl2 l)) (fmaProp sec) s
def fdivOp (f : Form) (sh : Shape) (rm : Rm) (s : State) : Out :=
  floatOp f sh rm (fun l => divPre (fl0 l) (fl1 l)) (fun _ => divProp) s
def unaryOp (f : Form) (sh : Shape) (rm : Rm) (fn : UnFn) (s : State) : Out :=
  floatOp f sh rm (fun l => fn.pre (fl0 l)) (fun _ => unProp fn) s

/-! FMIN and FMAX choose (R86, R105). -/

/-- Whether a value is below another, with −0 below +0; infinities at the ends. -/
def Fl.below (a b : Fl) : Bool :=
  match a, b with
  | .nan, _ => false
  | _, .nan => false
  | .inf s, .inf t => s && !t
  | .inf s, .num _ _ => s
  | .num _ _, .inf t => !t
  | .num s x, .num t y => x.lt y || (x.isZero && y.isZero && s && !t)

def Fl.isNan (a : Fl) : Bool := match a with | .nan => true | _ => false

/-- Which operand is chosen: the first, the second, neither because both are NaN, or a tie. -/
inductive Choice where
  | fst | snd | nan | tie
  deriving DecidableEq, Repr
def choose (mx : Bool) (a b : Fl) : Choice :=
  if a.isNan && b.isNan then .nan
  else if a.isNan then .snd
  else if b.isNan then .fst
  else if a.below b then (if mx then .snd else .fst)
  else if b.below a then (if mx then .fst else .snd)
  else .tie

/-- The P rule of FMIN and FMAX. -/
def chooseWord (mx : Bool) (a b : Word) : Word :=
  match choose mx (f32 a) (f32 b) with
  | .fst => a | .snd => b | .nan => nan32 | .tie => a

/-- A moment written in the form it has after the reading rule. -/
def Mom.words (m : Mom) (sh : Shape) : List Word :=
  (match m.res with
   | some v => { Prop1.zero with b := v, cs := m.cs }
   | none => { Prop1.zero with inf := true, cs := m.cs }).finish sh m.mean none

/-- Whether the first total variance is below the second. -/
def varBelow (a b : Option Frac) : Bool :=
  match a, b with
  | some x, some y => x.lt y
  | some _, none => true
  | none, _ => false

/-- The choice of moments: between equal means, the larger total variance. -/
def chooseMom (mx : Bool) (a b : Mom) : Mom :=
  match choose mx a.mean b.mean with
  | .fst => a | .snd => b | .nan => a
  | .tie => if varBelow a.var b.var then b else a

/-- FMIN and FMAX in a shape. -/
def pickOp (f : Form) (sh : Shape) (rm : Rm) (mx : Bool) (s : State) : Out :=
  perLaneSt f (fun e l =>
    let d := l.dithers e rm (draws sh)
    (d.2, match sh with
      | .P => [chooseWord mx (l.w 0 0) (l.w 1 0)]
      | .S => (List.range 8).map fun j => chooseWord mx (l.w 0 j) (l.w 1 j)
      | _ => (chooseMom mx (readMom (l.op 0)) (readMom (l.op 1))).words sh)) s

/-- FCMP's conditions (R107). -/
def fcmp (c : FCond) (a b : Fl) : Bool :=
  let nan := a.isNan || b.isNan
  let lt := fun (x y : Fl) => match x, y with
    | .num _ x, .num _ y => x.lt y
    | x, y => x.below y
  match c with
  | .eq => !nan && !(lt a b) && !(lt b a)
  | .ne => nan || lt a b || lt b a
  | .lt => !nan && lt a b
  | .le => !nan && !(lt b a)
  | .gt => !nan && lt b a
  | .ge => !nan && !(lt a b)
  | .num => !nan
  | .nan => nan

/-- FCLASS's mask for a mean and, in shape M, for its variance word (R108). -/
def classMean (w : Word) : Nat :=
  let e := w.toNat / 8388608 % 256
  match f32 w with
  | .nan => 256
  | .inf s => if s then 1 else 128
  | .num s x => if x.isZero then (if s then 8 else 16) else if e = 0 then (if s then 4 else 32) else (if s then 2 else 64)
def classVar (w : Word) : Nat :=
  match f32 w with
  | .nan => 8192
  | .inf s => if s then 8192 else 4096
  | .num s x => if x.isZero then 1024 else if s then 8192 else 2048

/-! ### The meanings -/

/-! R103 to R106. -/
def execFadd (h : Hd) (sh : Shape) (rd : LDst) (ra : Src) (rb : Src) (rm : Rm) (s : State) : Out :=
  faddOp (formOf (.fadd h sh rd ra rb rm)) sh rm s
def execFsub (h : Hd) (sh : Shape) (rd : LDst) (ra : Src) (rb : Src) (rm : Rm) (s : State) : Out :=
  fsubOp (formOf (.fsub h sh rd ra rb rm)) sh rm s
def execFmul (h : Hd) (sh : Shape) (rd : LDst) (ra : Src) (rb : Src) (rm : Rm) (sec : Sec) (s : State) : Out :=
  fmulOp (formOf (.fmul h sh rd ra rb rm sec)) sh rm sec s
def execFfma (h : Hd) (sh : Shape) (rd : LDst) (ra : Src) (rb : Src) (rc : Src) (rm : Rm) (sec : Sec) (s : State) : Out :=
  ffmaOp (formOf (.ffma h sh rd ra rb rc rm sec)) sh rm sec s
def execFmin (h : Hd) (sh : Shape) (rd : LDst) (ra : Src) (rb : Src) (rm : Rm) (s : State) : Out :=
  pickOp (formOf (.fmin h sh rd ra rb rm)) sh rm false s
def execFmax (h : Hd) (sh : Shape) (rd : LDst) (ra : Src) (rb : Src) (rm : Rm) (s : State) : Out :=
  pickOp (formOf (.fmax h sh rd ra rb rm)) sh rm true s
def execFrelu (h : Hd) (sh : Shape) (rd : LDst) (ra : Src) (rm : Rm) (s : State) : Out :=
  unaryOp (formOf (.frelu h sh rd ra rm)) sh rm .relu s
def execFsqrelu (h : Hd) (sh : Shape) (rd : LDst) (ra : Src) (rm : Rm) (s : State) : Out :=
  unaryOp (formOf (.fsqrelu h sh rd ra rm)) sh rm .sqrelu s

/-! R107, R108. -/
def execFcmp (h : Hd) (sh : Shape) (rd : Pred) (ra : Src) (rb : Src) (cond : FCond) (s : State) : Out :=
  predOp (formOf (.fcmp h sh rd ra rb cond)) (fun a b => fcmp cond (f32 a) (f32 b)) s
/-- FCLASS: in shape M bits 13:10 come from the variance word (R108, over R86; assumption 86). -/
def execFclass (h : Hd) (sh : Shape) (rd : LDst) (ra : Src) (s : State) : Out :=
  perLane (formOf (.fclass h sh rd ra)) (fun _ l =>
    [Word.ofNat (classMean (l.w 0 0) + if sh = .M then classVar (l.w 0 1) else 0)]) s

/-! R109, R110. -/
def execFdiv (h : Hd) (sh : Shape) (rd : LDst) (ra : Src) (rb : Src) (rm : Rm) (s : State) : Out :=
  fdivOp (formOf (.fdiv h sh rd ra rb rm)) sh rm s
def execFrcp (h : Hd) (sh : Shape) (rd : LDst) (ra : Src) (rm : Rm) (s : State) : Out :=
  unaryOp (formOf (.frcp h sh rd ra rm)) sh rm .rcp s
def execFsqrt (h : Hd) (sh : Shape) (rd : LDst) (ra : Src) (rm : Rm) (s : State) : Out :=
  unaryOp (formOf (.fsqrt h sh rd ra rm)) sh rm .sqrt s
def execFrsq (h : Hd) (sh : Shape) (rd : LDst) (ra : Src) (rm : Rm) (s : State) : Out :=
  unaryOp (formOf (.frsq h sh rd ra rm)) sh rm .rsq s
def execFexp2 (h : Hd) (sh : Shape) (rd : LDst) (ra : Src) (rm : Rm) (s : State) : Out :=
  unaryOp (formOf (.fexp2 h sh rd ra rm)) sh rm .exp2 s
def execFlog2 (h : Hd) (sh : Shape) (rd : LDst) (ra : Src) (rm : Rm) (s : State) : Out :=
  unaryOp (formOf (.flog2 h sh rd ra rm)) sh rm .log2 s
def execFsinpi (h : Hd) (sh : Shape) (rd : LDst) (ra : Src) (rm : Rm) (s : State) : Out :=
  unaryOp (formOf (.fsinpi h sh rd ra rm)) sh rm .sinpi s
def execFcospi (h : Hd) (sh : Shape) (rd : LDst) (ra : Src) (rm : Rm) (s : State) : Out :=
  unaryOp (formOf (.fcospi h sh rd ra rm)) sh rm .cospi s
def execFtanh (h : Hd) (sh : Shape) (rd : LDst) (ra : Src) (rm : Rm) (s : State) : Out :=
  unaryOp (formOf (.ftanh h sh rd ra rm)) sh rm .tanh s
def execFsigm (h : Hd) (sh : Shape) (rd : LDst) (ra : Src) (rm : Rm) (s : State) : Out :=
  unaryOp (formOf (.fsigm h sh rd ra rm)) sh rm .sigm s

/-! The compact and short forms (R43, R44): RNE, and the second order as NCTL sets it. -/
def execFaddC16 (d : Fin 64) (b : CSrc) (s : State) : Out := faddOp (formOf (.faddC16 d b)) .P .rne s
def execFmulC16 (d : Fin 64) (b : CSrc) (s : State) : Out := fmulOp (formOf (.fmulC16 d b)) .P .rne .nctl s
def execFaddMC16 (d : Fin 64) (b : CSrc) (s : State) : Out := faddOp (formOf (.faddMC16 d b)) .M .rne s
def execFmulMC16 (d : Fin 64) (b : CSrc) (s : State) : Out := fmulOp (formOf (.fmulMC16 d b)) .M .rne .nctl s
def execFaddS32 (st : Fin 4) (m : Bool) (rd : LDst) (ra : LSrc) (rb : SSrc) (s : State) : Out :=
  faddOp (formOf (.faddS32 st m rd ra rb)) (mshape m) .rne s
def execFsubS32 (st : Fin 4) (m : Bool) (rd : LDst) (ra : LSrc) (rb : SSrc) (s : State) : Out :=
  fsubOp (formOf (.fsubS32 st m rd ra rb)) (mshape m) .rne s
def execFmulS32 (st : Fin 4) (m : Bool) (rd : LDst) (ra : LSrc) (rb : SSrc) (s : State) : Out :=
  fmulOp (formOf (.fmulS32 st m rd ra rb)) (mshape m) .rne .nctl s
def execFminS32 (st : Fin 4) (m : Bool) (rd : LDst) (ra : LSrc) (rb : SSrc) (s : State) : Out :=
  pickOp (formOf (.fminS32 st m rd ra rb)) (mshape m) .rne false s
def execFmaxS32 (st : Fin 4) (m : Bool) (rd : LDst) (ra : LSrc) (rb : SSrc) (s : State) : Out :=
  pickOp (formOf (.fmaxS32 st m rd ra rb)) (mshape m) .rne true s
def execFdivS32 (st : Fin 4) (m : Bool) (rd : LDst) (ra : LSrc) (rb : SSrc) (s : State) : Out :=
  fdivOp (formOf (.fdivS32 st m rd ra rb)) (mshape m) .rne s
def execFreluS32 (st : Fin 4) (m : Bool) (rd : LDst) (ra : LSrc) (s : State) : Out :=
  unaryOp (formOf (.freluS32 st m rd ra)) (mshape m) .rne .relu s
def execFsqreluS32 (st : Fin 4) (m : Bool) (rd : LDst) (ra : LSrc) (s : State) : Out :=
  unaryOp (formOf (.fsqreluS32 st m rd ra)) (mshape m) .rne .sqrelu s
def execFrcpS32 (st : Fin 4) (m : Bool) (rd : LDst) (ra : LSrc) (s : State) : Out :=
  unaryOp (formOf (.frcpS32 st m rd ra)) (mshape m) .rne .rcp s
def execFsqrtS32 (st : Fin 4) (m : Bool) (rd : LDst) (ra : LSrc) (s : State) : Out :=
  unaryOp (formOf (.fsqrtS32 st m rd ra)) (mshape m) .rne .sqrt s
def execFrsqS32 (st : Fin 4) (m : Bool) (rd : LDst) (ra : LSrc) (s : State) : Out :=
  unaryOp (formOf (.frsqS32 st m rd ra)) (mshape m) .rne .rsq s
def execFexp2S32 (st : Fin 4) (m : Bool) (rd : LDst) (ra : LSrc) (s : State) : Out :=
  unaryOp (formOf (.fexp2S32 st m rd ra)) (mshape m) .rne .exp2 s
def execFlog2S32 (st : Fin 4) (m : Bool) (rd : LDst) (ra : LSrc) (s : State) : Out :=
  unaryOp (formOf (.flog2S32 st m rd ra)) (mshape m) .rne .log2 s
def execFtanhS32 (st : Fin 4) (m : Bool) (rd : LDst) (ra : LSrc) (s : State) : Out :=
  unaryOp (formOf (.ftanhS32 st m rd ra)) (mshape m) .rne .tanh s
def execFsigmS32 (st : Fin 4) (m : Bool) (rd : LDst) (ra : LSrc) (s : State) : Out :=
  unaryOp (formOf (.fsigmS32 st m rd ra)) (mshape m) .rne .sigm s

end Sys2Proof.Machine
end

