-- ==== Sys2Proof/Machine/Integer.lean ====
section
/-! DEFINITION. Integer, predicate and move instructions (R98 to R102), in their 64-bit, compact and short forms. -/

namespace Sys2Proof.Machine

/-! ### The operations -/

/-- The word with bit `i` given by a function. -/
def wordOfBits (f : Nat → Bool) : Word :=
  Word.ofNat ((List.range 32).foldl (fun a i => if f i then a + 2 ^ i else a) 0)

/-- IMULH: bits 63:32 of the exact product (R98). -/
def imulhOp (sg : MulSign) (a b : Word) : Word :=
  match sg with
  | .s => Word.ofInt (a.toInt * b.toInt / 4294967296)
  | .u => Word.ofInt (a.toNat * b.toNat / 4294967296)
  | .su => Word.ofInt (a.toInt * b.toNat / 4294967296)

/-- IMIN and IMAX (R98). -/
def iminOp (u : Bool) (a b : Word) : Word := if icmp .lt u b a then b else a
def imaxOp (u : Bool) (a b : Word) : Word := if icmp .lt u a b then b else a

/-- IABS (R98): the most negative word gives itself. -/
def iabsOp (a : Word) : Word := if a.msb then -a else a

/-- The shifts (R98): by 32 or more every bit is 0, or bit 31 for SAR. -/
def shlOp (a b : Word) : Word := if 32 ≤ b.toNat then 0 else a <<< b.toNat
def shrOp (a b : Word) : Word := if 32 ≤ b.toNat then 0 else a >>> b.toNat
def sarOp (a b : Word) : Word := a.sshiftRight (min b.toNat 31)
def rotlOp (a b : Word) : Word := a.rotateLeft (b.toNat % 32)

/-- BFE (R98). -/
def bfeOp (sg : Bool) (a b c : Word) : Word :=
  let len := min c.toNat 32
  let f := a.toNat / 2 ^ (min b.toNat 32) % 2 ^ len
  if sg && decide (0 < len) && f / 2 ^ (len - 1) % 2 == 1 then Word.ofInt ((f : Int) - 2 ^ len) else Word.ofNat f

/-- BFI (R98). -/
def bfiOp (a b c : Word) : Word :=
  let pos := c.toNat % 256
  let len := min (c.toNat / 256 % 256) 32
  wordOfBits fun i => if pos ≤ i ∧ i < pos + len then a.getLsbD (i - pos) else b.getLsbD i

/-- POPC, CLZ and BREV (R98). -/
def popcOp (a : Word) : Word := Word.ofNat ((List.range 32).countP fun i => a.getLsbD i)
def clzOp (a : Word) : Word := if a = 0 then 32 else Word.ofNat (31 - Nat.log2 a.toNat)
def brevOp (a : Word) : Word := wordOfBits fun i => a.getLsbD (31 - i)

/-- LEA (R102): the pair plus the extended index times 2^n, as its two words. -/
def leaOp (lo hi : Word) (b : Word) (n : Nat) (sx : Bool) : List Word :=
  let e : BitVec 64 := if sx then b.signExtend 64 else b.zeroExtend 64
  let v := (hi ++ lo) + (e <<< n)
  [v.truncate 32, v.extractLsb' 32 32]

/-! ### The meanings -/

/-! R98. -/
def execIadd (h : Hd) (rd : Dst) (ra : Src) (rb : Src) (s : State) : Out :=
  intOp (formOf (.iadd h rd ra rb)) (fun a b _ => a + b) s
def execIsub (h : Hd) (rd : Dst) (ra : Src) (rb : Src) (s : State) : Out :=
  intOp (formOf (.isub h rd ra rb)) (fun a b _ => a - b) s
def execImul (h : Hd) (rd : Dst) (ra : Src) (rb : Src) (s : State) : Out :=
  intOp (formOf (.imul h rd ra rb)) (fun a b _ => a * b) s
def execImulh (h : Hd) (rd : Dst) (ra : Src) (rb : Src) (sg : MulSign) (s : State) : Out :=
  intOp (formOf (.imulh h rd ra rb sg)) (fun a b _ => imulhOp sg a b) s
def execImad (h : Hd) (rd : Dst) (ra : Src) (rb : Src) (rc : Src) (s : State) : Out :=
  intOp (formOf (.imad h rd ra rb rc)) (fun a b c => a * b + c) s
def execImin (h : Hd) (rd : Dst) (ra : Src) (rb : Src) (u : Bool) (s : State) : Out :=
  intOp (formOf (.imin h rd ra rb u)) (fun a b _ => iminOp u a b) s
def execImax (h : Hd) (rd : Dst) (ra : Src) (rb : Src) (u : Bool) (s : State) : Out :=
  intOp (formOf (.imax h rd ra rb u)) (fun a b _ => imaxOp u a b) s
def execIabs (h : Hd) (rd : Dst) (ra : Src) (s : State) : Out :=
  intOp (formOf (.iabs h rd ra)) (fun a _ _ => iabsOp a) s
def execAnd (h : Hd) (rd : Dst) (ra : Src) (rb : Src) (s : State) : Out :=
  intOp (formOf (.and h rd ra rb)) (fun a b _ => a &&& b) s
def execOr (h : Hd) (rd : Dst) (ra : Src) (rb : Src) (s : State) : Out :=
  intOp (formOf (.or h rd ra rb)) (fun a b _ => a ||| b) s
def execXor (h : Hd) (rd : Dst) (ra : Src) (rb : Src) (s : State) : Out :=
  intOp (formOf (.xor h rd ra rb)) (fun a b _ => a ^^^ b) s
def execAndn (h : Hd) (rd : Dst) (ra : Src) (rb : Src) (s : State) : Out :=
  intOp (formOf (.andn h rd ra rb)) (fun a b _ => a &&& ~~~b) s
def execShl (h : Hd) (rd : Dst) (ra : Src) (rb : Src) (s : State) : Out :=
  intOp (formOf (.shl h rd ra rb)) (fun a b _ => shlOp a b) s
def execShr (h : Hd) (rd : Dst) (ra : Src) (rb : Src) (s : State) : Out :=
  intOp (formOf (.shr h rd ra rb)) (fun a b _ => shrOp a b) s
def execSar (h : Hd) (rd : Dst) (ra : Src) (rb : Src) (s : State) : Out :=
  intOp (formOf (.sar h rd ra rb)) (fun a b _ => sarOp a b) s
def execRotl (h : Hd) (rd : Dst) (ra : Src) (rb : Src) (s : State) : Out :=
  intOp (formOf (.rotl h rd ra rb)) (fun a b _ => rotlOp a b) s
def execBfe (h : Hd) (rd : Dst) (ra : Src) (rb : Src) (rc : Src) (sg : Bool) (s : State) : Out :=
  intOp (formOf (.bfe h rd ra rb rc sg)) (fun a b c => bfeOp sg a b c) s
def execBfi (h : Hd) (rd : Dst) (ra : Src) (rb : Src) (rc : Src) (s : State) : Out :=
  intOp (formOf (.bfi h rd ra rb rc)) (fun a b c => bfiOp a b c) s
def execPopc (h : Hd) (rd : Dst) (ra : Src) (s : State) : Out :=
  intOp (formOf (.popc h rd ra)) (fun a _ _ => popcOp a) s
def execClz (h : Hd) (rd : Dst) (ra : Src) (s : State) : Out := intOp (formOf (.clz h rd ra)) (fun a _ _ => clzOp a) s
def execBrev (h : Hd) (rd : Dst) (ra : Src) (s : State) : Out :=
  intOp (formOf (.brev h rd ra)) (fun a _ _ => brevOp a) s

/-! R99: the second operand is the immediate, sign-extended. -/
def execIaddImm (h : Hd) (rd : LDst) (ra : LSrc) (imm : BitVec 28) (s : State) : Out :=
  intOp (formOf (.iaddImm h rd ra imm)) (fun a _ _ => a + (sext imm)) s
def execImulImm (h : Hd) (rd : LDst) (ra : LSrc) (imm : BitVec 28) (s : State) : Out :=
  intOp (formOf (.imulImm h rd ra imm)) (fun a _ _ => a * (sext imm)) s
def execAndImm (h : Hd) (rd : LDst) (ra : LSrc) (imm : BitVec 28) (s : State) : Out :=
  intOp (formOf (.andImm h rd ra imm)) (fun a _ _ => a &&& (sext imm)) s
def execOrImm (h : Hd) (rd : LDst) (ra : LSrc) (imm : BitVec 28) (s : State) : Out :=
  intOp (formOf (.orImm h rd ra imm)) (fun a _ _ => a ||| (sext imm)) s
def execXorImm (h : Hd) (rd : LDst) (ra : LSrc) (imm : BitVec 28) (s : State) : Out :=
  intOp (formOf (.xorImm h rd ra imm)) (fun a _ _ => a ^^^ (sext imm)) s
def execShlImm (h : Hd) (rd : LDst) (ra : LSrc) (imm : BitVec 28) (s : State) : Out :=
  intOp (formOf (.shlImm h rd ra imm)) (fun a _ _ => shlOp a (sext imm)) s
def execShrImm (h : Hd) (rd : LDst) (ra : LSrc) (imm : BitVec 28) (s : State) : Out :=
  intOp (formOf (.shrImm h rd ra imm)) (fun a _ _ => shrOp a (sext imm)) s
def execSarImm (h : Hd) (rd : LDst) (ra : LSrc) (imm : BitVec 28) (s : State) : Out :=
  intOp (formOf (.sarImm h rd ra imm)) (fun a _ _ => sarOp a (sext imm)) s

/-! R100, R101. -/
def execIcmp (h : Hd) (rd : Pred) (ra : Src) (rb : Src) (cond : ICond) (u : Bool) (s : State) : Out :=
  predOp (formOf (.icmp h rd ra rb cond u)) (fun a b => icmp cond u a b) s
def execPlop (h : Hd) (rd : Pred) (ra : Pred) (rb : Pred) (rc : Pred) (table : Fin 256) (s : State) : Out :=
  perLane (formOf (.plop h rd ra rb rc table)) (fun _ l => [boolWord (plopBit table.val (l.lane.pred ra.val) (l.lane.pred rb.val) (l.lane.pred rc.val))]) s
def execPset (h : Hd) (rd : Pred) (ra : Src) (t : PTest) (s : State) : Out :=
  predOp (formOf (.pset h rd ra t)) (fun a _ => ptest t a) s

/-! R102: whole operands move bit for bit (R79). -/
def execSel (h : Hd) (sh : Shape) (rd : Dst) (ra : Src) (rb : Src) (rc : Pred) (s : State) : Out :=
  perLane (formOf (.sel h sh rd ra rb rc)) (fun _ l => if l.lane.pred rc.val then l.op 0 else l.op 1) s
def execMov (h : Hd) (sh : Shape) (rd : Dst) (ra : Src) (s : State) : Out :=
  perLane (formOf (.mov h sh rd ra)) (fun _ l => l.op 0) s
def execMovi (h : Hd) (rd : Dst) (imm : Word) (s : State) : Out :=
  perLane (formOf (.movi h rd imm)) (fun _ _ => [imm]) s
def execLea (h : Hd) (rd : Dst) (ra : Base) (rb : Src) (n : Fin 8) (sx : Bool) (s : State) : Out :=
  perLane (formOf (.lea h rd ra rb n sx)) (fun _ l => leaOp (l.w 0 0) (l.w 0 1) (l.w 1 0) n.val sx) s

/-! The compact forms (R43). -/
def execMovC16 (d : Fin 64) (b : CSrc) (s : State) : Out := perLane (formOf (.movC16 d b)) (fun _ l => l.op 0) s
def execIaddC16 (d : Fin 64) (b : CSrc) (s : State) : Out := intOp (formOf (.iaddC16 d b)) (fun x y _ => x + y) s
def execIsubC16 (d : Fin 64) (b : CSrc) (s : State) : Out := intOp (formOf (.isubC16 d b)) (fun x y _ => x - y) s
def execAndC16 (d : Fin 64) (b : CSrc) (s : State) : Out := intOp (formOf (.andC16 d b)) (fun x y _ => x &&& y) s
def execOrC16 (d : Fin 64) (b : CSrc) (s : State) : Out := intOp (formOf (.orC16 d b)) (fun x y _ => x ||| y) s
def execXorC16 (d : Fin 64) (b : CSrc) (s : State) : Out := intOp (formOf (.xorC16 d b)) (fun x y _ => x ^^^ y) s
def execShlC16 (d : Fin 64) (b : CSrc) (s : State) : Out := intOp (formOf (.shlC16 d b)) (fun x y _ => shlOp x y) s
def execShrC16 (d : Fin 64) (b : CSrc) (s : State) : Out := intOp (formOf (.shrC16 d b)) (fun x y _ => shrOp x y) s
def execIaddiC16 (d : Fin 64) (i : BitVec 5) (s : State) : Out :=
  intOp (formOf (.iaddiC16 d i)) (fun x _ _ => x + sext i) s
def execMoviC16 (d : Fin 64) (i : BitVec 5) (s : State) : Out := perLane (formOf (.moviC16 d i)) (fun _ _ => [sext i]) s

/-! The short forms (R44), with modifier 0: IMULH and the minima are signed. -/
def execIaddS32 (st : Fin 4) (rd : LDst) (ra : LSrc) (rb : SSrc) (s : State) : Out :=
  intOp (formOf (.iaddS32 st rd ra rb)) (fun a b _ => a + b) s
def execIsubS32 (st : Fin 4) (rd : LDst) (ra : LSrc) (rb : SSrc) (s : State) : Out :=
  intOp (formOf (.isubS32 st rd ra rb)) (fun a b _ => a - b) s
def execImulS32 (st : Fin 4) (rd : LDst) (ra : LSrc) (rb : SSrc) (s : State) : Out :=
  intOp (formOf (.imulS32 st rd ra rb)) (fun a b _ => a * b) s
def execImulhS32 (st : Fin 4) (rd : LDst) (ra : LSrc) (rb : SSrc) (s : State) : Out :=
  intOp (formOf (.imulhS32 st rd ra rb)) (fun a b _ => imulhOp .s a b) s
def execIminS32 (st : Fin 4) (rd : LDst) (ra : LSrc) (rb : SSrc) (s : State) : Out :=
  intOp (formOf (.iminS32 st rd ra rb)) (fun a b _ => iminOp false a b) s
def execImaxS32 (st : Fin 4) (rd : LDst) (ra : LSrc) (rb : SSrc) (s : State) : Out :=
  intOp (formOf (.imaxS32 st rd ra rb)) (fun a b _ => imaxOp false a b) s
def execAndS32 (st : Fin 4) (rd : LDst) (ra : LSrc) (rb : SSrc) (s : State) : Out :=
  intOp (formOf (.andS32 st rd ra rb)) (fun a b _ => a &&& b) s
def execOrS32 (st : Fin 4) (rd : LDst) (ra : LSrc) (rb : SSrc) (s : State) : Out :=
  intOp (formOf (.orS32 st rd ra rb)) (fun a b _ => a ||| b) s
def execXorS32 (st : Fin 4) (rd : LDst) (ra : LSrc) (rb : SSrc) (s : State) : Out :=
  intOp (formOf (.xorS32 st rd ra rb)) (fun a b _ => a ^^^ b) s
def execAndnS32 (st : Fin 4) (rd : LDst) (ra : LSrc) (rb : SSrc) (s : State) : Out :=
  intOp (formOf (.andnS32 st rd ra rb)) (fun a b _ => a &&& ~~~b) s
def execShlS32 (st : Fin 4) (rd : LDst) (ra : LSrc) (rb : SSrc) (s : State) : Out :=
  intOp (formOf (.shlS32 st rd ra rb)) (fun a b _ => shlOp a b) s
def execShrS32 (st : Fin 4) (rd : LDst) (ra : LSrc) (rb : SSrc) (s : State) : Out :=
  intOp (formOf (.shrS32 st rd ra rb)) (fun a b _ => shrOp a b) s
def execSarS32 (st : Fin 4) (rd : LDst) (ra : LSrc) (rb : SSrc) (s : State) : Out :=
  intOp (formOf (.sarS32 st rd ra rb)) (fun a b _ => sarOp a b) s
def execRotlS32 (st : Fin 4) (rd : LDst) (ra : LSrc) (rb : SSrc) (s : State) : Out :=
  intOp (formOf (.rotlS32 st rd ra rb)) (fun a b _ => rotlOp a b) s
def execMovS32 (st : Fin 4) (m : Bool) (rd : LDst) (ra : LSrc) (s : State) : Out :=
  perLane (formOf (.movS32 st m rd ra)) (fun _ l => l.op 0) s
def execPopcS32 (st : Fin 4) (rd : LDst) (ra : LSrc) (s : State) : Out :=
  intOp (formOf (.popcS32 st rd ra)) (fun a _ _ => popcOp a) s
def execClzS32 (st : Fin 4) (rd : LDst) (ra : LSrc) (s : State) : Out :=
  intOp (formOf (.clzS32 st rd ra)) (fun a _ _ => clzOp a) s

end Sys2Proof.Machine
end

