-- ==== Sys2Proof/Machine/Translate.lean ====
section
/-! DEFINITION. Addresses and translation (R226 to R229, R311 to R325): homes, physical memory, the walk, the permissions, the
translation caches, walks that are owed and fault records. -/

namespace Sys2Proof.Machine

/-! ### Keys, homes and slices -/

/-- Whether an address lies in the shared window (R312). -/
def inWindow (va : Nat) : Bool := va / 2 ^ 48 % 512 == 511

/-- The key of a byte of a context's virtual memory: the tag of R311 and the address. -/
def byteKey (ctx va : Nat) : Nat := (if inWindow va then 64 else ctx) * 2 ^ 57 + va

/-- The address and the tag of a key. -/
def keyVa (k : Nat) : Nat := k % 2 ^ 57
def keyTag (k : Nat) : Nat := k / 2 ^ 57

/-- The hashed home die of an address (R226). -/
def hashHome (va : Nat) : Nat :=
  ((List.range 22).foldl (fun h i => h ^^^ (va / 2 ^ (12 + 2 * i) % 4)) 0) ^^^ (va / 2 ^ 56 % 2)

/-- The slice of an address (R228). -/
def sliceOf (va : Nat) : Nat :=
  let x := va / 128
  let h := (x % 2 ^ 16) ^^^ (x / 2 ^ 16 % 2 ^ 16) ^^^ (x / 2 ^ 32 % 2 ^ 16) ^^^ (x / 2 ^ 48 % 4)
  h * 48 / 65536

/-- The distance of two dies round the ring (R14). -/
def ringDist (a b : Nat) : Nat := if a = b then 0 else if a + b = 3 then 2 else 1

/-- The die after a die in ring order: D0, D1, D3, D2. -/
def ringNext (d : Nat) : Nat :=
  match d with
  | 0 => 1 | 1 => 3 | 3 => 2 | _ => 0

/-- Whether two dies still reach each other (R365): they are in one group. -/
def State.reach (s : State) (a b : Nat) : Bool := (s.die a).grp.getLsbD b

/-! ### Physical memory (R315, R316, R334) -/

/-- A physical address: host memory behind a port, or a device byte `die * 2^37 + local`. -/
structure Phys where
  host : Bool
  port : Port
  addr : Nat
  deriving DecidableEq, Repr

/-- The die where a physical address is reached: its own, or that of its port. -/
def Phys.die (p : Phys) : Nat := if p.host then portDie p.port else p.addr / 2 ^ 37 % 4

/-- The address that a pointer or an entry address names (R315, R316). -/
def physOf (w : BitVec 64) : Phys :=
  let n := w.toNat
  ⟨w.getLsbD 63, if w.getLsbD 62 then .b else .a, n / 8 % 2 ^ 52 * 8⟩

/-- A physical address further on. -/
def Phys.plus (p : Phys) (n : Nat) : Phys := { p with addr := p.addr + n }

/-- Addressable bytes of a die: 120 GiB (R15). -/
def dieBytes : Nat := 120 * 2 ^ 30

/-- The key of a host byte. -/
def hostKey (p : Port) (addr : Nat) : Nat := (match p with | .a => 0 | .b => 1) * 2 ^ 55 + addr

/-- Whether memory stands at an address that can be reached: the port's link is up (R335). -/
def State.physUp (s : State) (p : Phys) : Bool := !p.host || (s.port p.port).up

/-- Whether any chunk of `n` bytes at an address carries the mark (R361). -/
def marked (t : Tab Bool) (addr n : Nat) : Bool :=
  (List.range ((addr + n - 1) / 16 + 1 - addr / 16)).any fun i => Tab.get false t (addr / 16 + i)

/-- The marks after a write of clean bytes (R193): a chunk written whole loses its mark. -/
def wiped (t : Tab Bool) (addr n : Nat) : Tab Bool :=
  (List.range ((addr + n - 1) / 16 + 1 - addr / 16)).foldl (fun t i =>
    let c := addr / 16 + i
    if addr ≤ 16 * c ∧ 16 * c + 16 ≤ addr + n then Tab.set false t c false else t) t

/-- `n` bytes at a physical address; a die's bytes at or above 120 GiB read 0 (R334). -/
def State.physRead (s : State) (p : Phys) (n : Nat) : List Byte :=
  (List.range n).map fun i =>
    let a := p.addr + i
    if p.host then s.host.byte (hostKey p.port a) else if a % 2 ^ 37 < dieBytes then s.dram.byte a else 0

/-- Whether bytes at a physical address carry the mark. -/
def State.physMark (s : State) (p : Phys) (n : Nat) : Bool :=
  if p.host then marked s.hostPoison (hostKey p.port p.addr) n else marked s.dramPoison p.addr n

/-- The little-endian number at a physical address. -/
def State.physNum (s : State) (p : Phys) (n : Nat) : Nat := leNat (s.physRead p n)

/-- The addresses of bytes that exist. -/
def Phys.there (p : Phys) (i : Nat) : Bool := p.host || decide ((p.addr + i) % 2 ^ 37 < dieBytes)

/-- Bytes written at a physical address. -/
def State.physWrite (s : State) (p : Phys) (bs : List Byte) : State :=
  let n := bs.length
  if n = 0 then s
  else if p.host then
    let k := hostKey p.port p.addr
    { s with host := s.host.storeBytes k bs, hostPoison := wiped s.hostPoison k n }
  else
    { s with
      dram := (bs.zip (List.range n)).foldl (fun m b => if p.there b.2 then m.store (p.addr + b.2) b.1 else m) s.dram
      dramPoison := wiped s.dramPoison p.addr n }

/-- The mark set on every chunk that bytes at an address touch. -/
def State.physPoison (s : State) (p : Phys) (n : Nat) : State :=
  let put := fun (t : Tab Bool) a (there : Nat → Bool) =>
    (List.range ((a + n - 1) / 16 + 1 - a / 16)).foldl (fun t i =>
      if there (a / 16 + i) then Tab.set false t (a / 16 + i) true else t) t
  if n = 0 then s
  else if p.host then { s with hostPoison := put s.hostPoison (hostKey p.port p.addr) fun _ => true }
  else { s with dramPoison := put s.dramPoison p.addr fun c => decide (16 * c % 2 ^ 37 < dieBytes) }

/-- Bytes written by the command processor or a walker's agent on a die: what crosses a cut is lost (R364, R366). -/
def State.physPut (s : State) (die : Nat) (p : Phys) (bs : List Byte) : State :=
  if s.reach die p.die then s.physWrite p bs else s.updDie die fun r => { r with lostw := r.lostw + 1 }

/-- The bytes of a number, least significant first. -/
def numBytes (v n : Nat) : List Byte := (List.range n).map fun i => BitVec.ofNat 8 (v / 256 ^ i)

/-- Whether a pointer's fields are as R315 demands. -/
def ptrOk (w : BitVec 64) : Bool :=
  let n := w.toNat
  n / 2 ^ 55 % 128 == 0 && n / 4 % 64 == 0 && !w.getLsbD 1 &&
  (w.getLsbD 63 || (!w.getLsbD 62 && n / 2 ^ 39 % 2 ^ 16 == 0))

/-- Whether an entry address is as R316 demands, aligned to `al` bytes. -/
def entryOk (w : BitVec 64) (al : Nat) : Bool :=
  let n := w.toNat
  n / 2 ^ 55 % 128 == 0 && n % al == 0 && (w.getLsbD 63 || (!w.getLsbD 62 && n / 2 ^ 39 % 2 ^ 16 == 0))

/-! ### Leaves (R227, R229, R318, R321) -/

/-- The page size of a leaf's level (R317). -/
def Leaf.size (l : Leaf) : Nat :=
  match l.level with
  | 0 => 2 ^ 16 | 1 => 2 ^ 21 | _ => 2 ^ 31

def Leaf.host (l : Leaf) : Bool := l.pte.getLsbD 63
def Leaf.port (l : Leaf) : Port := if l.pte.getLsbD 62 then .b else .a
def Leaf.pinned (l : Leaf) : Bool := l.pte.getLsbD 61
def Leaf.pdie (l : Leaf) : Nat := l.pte.toNat / 2 ^ 59 % 4
def Leaf.repla (l : Leaf) : Nat := l.pte.toNat / 2 ^ 56 % 8
def Leaf.frame (l : Leaf) : Nat := l.pte.toNat / 2 ^ 16 % 2 ^ 39

/-- The home die of an address under a leaf (R226, R229). -/
def Leaf.home (l : Leaf) (va : Nat) : Nat := if l.pinned then l.pdie else hashHome va

/-- Where an address lies under a leaf (R227, R229, R318). -/
def Leaf.phys (l : Leaf) (va : Nat) : Phys :=
  let o := va % l.size
  if l.host then ⟨true, l.port, l.frame * 2 ^ 16 + o⟩
  else
    let base := l.frame * (l.size / 4)
    let loc := if l.pinned then base + o else base + o / 16384 * 4096 + o % 4096
    ⟨false, .a, l.home va * 2 ^ 37 + loc % 2 ^ 37⟩

/-- The malformed leaves of R319. -/
def Leaf.malformed (l : Leaf) : Bool :=
  decide (3 ≤ l.level) || l.pte.getLsbD 55 || l.pte.toNat / 2 ^ 8 % 256 != 0 || l.pte.getLsbD 2 || decide (5 ≤ l.repla) ||
  (!l.host && l.pte.getLsbD 62) || (l.host && l.pinned) ||
  (!l.host && decide (dieBytes < l.frame * (l.size / 4) + l.size / 4))

/-- The leaf bits that an access needs, by its ACCESS bits (R321, R323): 1 read, 2 write, 4 fetch, 8 from the fabric. -/
def Leaf.permits (l : Leaf) (acc : Nat) : Bool :=
  let has := fun b i => acc / b % 2 == 0 || l.pte.getLsbD i
  if acc / 8 % 2 = 1 then has 1 7 && has 2 6 else has 1 3 && has 2 4 && has 4 5

/-! ### The walk (R317 to R320) -/

/-- What a walk finds: MEMFATAL's DETAIL where it is fatal. -/
inductive Walked where
  | leaf (l : Leaf) | absent | fatal (detail : Nat)
  deriving DecidableEq, Repr

/-- The index of an address at a level (R317). -/
def walkIndex (level va : Nat) : Nat :=
  match level with
  | 4 => va / 2 ^ 49 % 256 | 3 => va / 2 ^ 40 % 512 | 2 => va / 2 ^ 31 % 512 | 1 => va / 2 ^ 21 % 1024 | _ => va / 2 ^ 16 % 32

/-- One entry of a table read at `.sys` (R319, R320): its word, or the reason why it is fatal. -/
def State.tableRead (s : State) (die : Nat) (p : Phys) : Except Nat (BitVec 64) :=
  if !p.host && decide (dieBytes ≤ p.addr % 2 ^ 37) then .error 0
  else if !s.physUp p then .error 1
  else if s.physMark p 8 || !s.reach die p.die then .error 1
  else .ok (BitVec.ofNat 64 (s.physNum p 8))

/-- The walk from a table pointer at a level down. -/
def State.walkFrom (s : State) (die va : Nat) : Nat → BitVec 64 → Walked
  | level, ptr =>
    match s.tableRead die ((physOf (ptr &&& ~~~(255 : BitVec 64))).plus (8 * walkIndex level va)) with
    | .error d => .fatal d
    | .ok e =>
      if !e.getLsbD 0 then .absent
      else if e.getLsbD 1 then
        let l : Leaf := ⟨e, level, none⟩
        if l.malformed then .fatal 0 else .leaf l
      else
        match level with
        | 0 => .fatal 0
        | n + 1 => if ptrOk e then s.walkFrom die va n e else .fatal 0

/-- The walk of a key by a walker of a die; a root with V clear is a not-present entry (R319). -/
def State.walk (s : State) (die key : Nat) : Walked :=
  let root := if keyTag key = 64 then s.pkg.wroot else (s.ctx (keyTag key)).root
  if root.getLsbD 0 then s.walkFrom die (keyVa key) 4 root else .absent

/-! ### Translation caches and purges (R320, R326) -/

/-- The HBM4 controller of a die whose walkers serve a leaf: that of the stack where its page lies, and 0 for a page of host memory
(R320). -/
def Leaf.ctl (l : Leaf) : Nat :=
  if l.host then 0 else if l.frame * (l.size / 4) % 2 ^ 37 < dieBytes / 2 then 0 else 1

/-- The controller that walks a key on a die: the leaf alone tells it (R320), and 0 where there is none (assumption 92). -/
def State.walkCtl (s : State) (die key : Nat) : Nat :=
  match s.walk die key with
  | .leaf l => l.ctl
  | _ => 0

/-- Whether one of the 64 walkers of its controller is free for a walk (R320). -/
def State.walkerFree (s : State) (w : WalkReq) : Bool :=
  decide (s.walks.length ≤ 64) ||
  decide ((s.walks.filter fun v =>
    decide (v.id < w.id) && v.die == w.die && s.walkCtl v.die v.key == s.walkCtl w.die w.key).length < 64)

/-- A list with at most `n` of the entries that a test names, the first of them. -/
def keepFirst {α : Type} (p : α → Bool) : Nat → List α → List α
  | _, [] => []
  | n, e :: r =>
    if p e then
      match n with
      | 0 => keepFirst p 0 r
      | n + 1 => e :: keepFirst p n r
    else e :: keepFirst p n r

/-- An entry of a die's translation caches for a key. -/
def tlbFind (t : List (Nat × Leaf)) (key : Nat) : Option Leaf :=
  (t.find? fun e => e.1 / e.2.size == key / e.2.size).map (·.2)

/-- A leaf taken into the translation cache of 4,096 entries of its controller, the oldest out (R320). The two caches of a die stand
in one list. -/
def State.tlbPut (s : State) (die key : Nat) (l : Leaf) : State :=
  s.updDie die fun r =>
    let others := r.tlb.filter fun e => e.1 / e.2.size != key / e.2.size
    { r with tlb := keepFirst (fun (e : Nat × Leaf) => e.2.ctl == l.ctl) 4096 ((key - key % l.size, l) :: others) }

/-- The leaf of a key that a tag or a translation cache holds: a line in a slice, or an entry at the dies. -/
def State.cached (s : State) (key : Nat) : Option Leaf :=
  match (List.range 4).findSome? fun d => (s.copies.find (key / 128 * 4 + d)).map (·.leaf) with
  | some l => some l
  | none => (List.range 4).findSome? fun d => tlbFind (s.die ((hashHome (keyVa key) + d) % 4)).tlb key

/-- Whether a key lies in the range of a purge that runs (step 1 of R326). -/
def Purge.covers (p : Purge) (va : Nat) : Bool :=
  match p.job with
  | some (base, size, _, _) => p.busy && decide (va / 2 ^ size = base / 2 ^ size)
  | none => false

def State.purging (s : State) (key : Nat) : Bool :=
  if keyTag key = 64 then s.pkg.wpurge.covers (keyVa key) else (s.ctx (keyTag key)).purge.covers (keyVa key)

/-! ### Checking an access -/

/-- The leaf of a key, by a tag, a translation cache or a silent walk. -/
def State.silentLeaf (s : State) (key : Nat) : Option Leaf :=
  match s.cached key with
  | some l => some l
  | none =>
    match s.walk (hashHome (keyVa key)) key with
    | .leaf l => some l
    | _ => none

/-- Who accesses: the requester, its context, the KIND and ACCESS bits of R323, and its die and core (255 where it is none). -/
structure Acc where
  req : Req
  ctx : Nat
  kind : Nat
  acc : Nat
  die : Nat
  core : Nat
  deriving DecidableEq, Repr

/-- What a check finds. A failure carries its trap code, DETAIL and the STATUS of its notice. -/
inductive Xl where
  | ok (l : Leaf) | held | miss | bad (code detail status : Nat)
  deriving DecidableEq, Repr

/-- The WINDOW rights of a context for a window line: those in the tag where the context filled the line, else its own (R321;
assumption 74). -/
def State.windowOf (s : State) (ctx : Nat) (win : Option (Nat × BitVec 2)) : BitVec 2 :=
  match win with
  | some (c, w) => if c = ctx then w else (s.ctx ctx).window
  | none => (s.ctx ctx).window

/-- Whether WINDOW rights allow an access to a key (R312). -/
def windowOk (w : BitVec 2) (a : Acc) (key : Nat) : Bool :=
  keyTag key != 64 || w.toNat == 2 || (w.toNat == 1 && a.acc / 2 % 2 == 0)

/-- The check of an access against a leaf, with the leaf as its fill carries it (R321, R322). -/
def State.judge (s : State) (a : Acc) (key : Nat) (l : Leaf) : Xl :=
  let w := s.windowOf a.ctx l.win
  if !(windowOk w a key && l.permits a.acc) then .bad tMEMPERM (a.acc % 16) 1
  else if l.host && !(s.port l.port).up then .bad tMEMFATAL 2 2
  else .ok (if keyTag key = 64 then { l with win := some (a.ctx, w) } else l)

/-- The translation of a key for an access (R320, R321). A purge holds new requests, but not the develops that it forces
(R326). -/
def State.xlate (s : State) (a : Acc) (key : Nat) : Xl :=
  if s.purging key && !(match a.req with | .develop _ => true | _ => false) then .held
  else match s.cached key with
    | some l => s.judge a key l
    | none => if windowOk (s.windowOf a.ctx none) a key then .miss else .bad tMEMPERM (a.acc % 16) 1

/-- Whether an entry of a redirect table is for a key: its page's number, and the named die with four times the page's level
(R229). -/
def redirHit (key : Nat) (e : Nat × Nat) : Bool :=
  e.1 == key / (match e.2 / 4 with | 0 => 2 ^ 16 | 1 => 2 ^ 21 | _ => 2 ^ 31)

/-- The walker's die for a key (R320): the named die where the requester's redirect table knows it, else the hashed home. -/
def State.walkDie (s : State) (die key : Nat) : Nat :=
  match (s.die die).redir.find? fun e => redirHit key e with
  | some e => e.2 % 4
  | none => hashHome (keyVa key)

/-- An access that missed: it attaches to the page's pending record (R324), or a walk is owed. -/
def State.await (s : State) (a : Acc) (key : Nat) : State :=
  if s.faults.any fun f => f.status == 0 && f.page == key / 2 ^ 16 then
    { s with faults := s.faults.map fun f =>
        if f.status == 0 && f.page == key / 2 ^ 16 then
          { f with reqs := if f.reqs.contains (a.req, key) then f.reqs else f.reqs ++ [(a.req, key)]
                   acc := if f.written then f.acc else f.acc ||| a.acc }
        else f }
  else if s.walks.any fun w => w.req == a.req && w.key / 2 ^ 16 == key / 2 ^ 16 then s
  else
    { s with walks := s.walks ++ [⟨s.nextId, a.ctx, s.walkDie a.die key, key, a.req, a.kind, a.acc, a.core⟩], nextId := s.nextId + 1 }

/-- An access that a purge holds (R326): it is noted once, with the time. -/
def State.park (s : State) (a : Acc) (key : Nat) : State :=
  if s.holds.any fun h => h.req == a.req && h.key == key then s else { s with holds := s.holds ++ [⟨a.req, a.ctx, key, s.time⟩] }

/-- A record of the fault queue formed (R322, R323): it takes the context's next sequence number. -/
def State.formRecord (s : State) (ctx key kind acc status die core : Nat) (reqs : List (Req × Nat)) : State :=
  let f : FaultRec :=
    ⟨ctx, (s.ctx ctx).seq, keyVa key + (if keyTag key = 64 then 2 ^ 63 else 0), s.time, kind, acc, status, die, core,
     key / 2 ^ 16, reqs, false, true⟩
  { (s.updCtx ctx fun c => { c with seq := c.seq + 1 }) with faults := s.faults ++ [f] }

/-- The notice of a violation or of a fatal outcome. -/
def State.notice (s : State) (a : Acc) (key status : Nat) : State :=
  s.formRecord a.ctx key a.kind a.acc status (s.walkDie a.die key) a.core []

/-- What checking several keys finds: every leaf in order, a state in which the access waits, or the first failure. -/
inductive Xls where
  | ok (ls : List Leaf) | wait (s : State) | bad (key code detail status : Nat)

/-- The checks of several keys. A failure of any of them comes before a wait. -/
def State.xlates (s : State) (a : Acc) (keys : List Nat) : Xls :=
  let rs := keys.map fun k => (k, s.xlate a k)
  match rs.findSome? fun r => match r.2 with | .bad c d st => some (r.1, c, d, st) | _ => none with
  | some (k, c, d, st) => .bad k c d st
  | none =>
    if rs.all fun r => match r.2 with | .ok _ => true | _ => false then
      .ok (rs.filterMap fun r => match r.2 with | .ok l => some l | _ => none)
    else
      .wait (rs.foldl (fun s r => match r.2 with | .miss => s.await a r.1 | .held => s.park a r.1 | _ => s) s)

/-- Whether a requester waits on a walk or on a pending record (R191, R323). -/
def State.blocked (s : State) (q : Req) : Bool :=
  (s.walks.any fun w => w.req == q) || s.faults.any fun f => f.status == 0 && f.reqs.any fun e => e.1 == q

/-- Whether an access of a requester to one of several keys waits on a walk, or is attached to a pending record: a copy goes on with its
other chunks, each of which attaches by itself (R191, R324, R413). -/
def State.attachedAt (s : State) (q : Req) (keys : List Nat) : Bool :=
  (s.walks.any fun w => w.req == q && keys.any fun k => k / 2 ^ 16 == w.key / 2 ^ 16) ||
  s.faults.any fun f => f.status == 0 && f.reqs.any fun e => e.1 == q && keys.contains e.2

/-! ### Failing an access at its home (R191, R192, R325) -/

/-- The lanes of a list whose address lies in a key's page, and the address of the lowest of them (R355). -/
def pageLanes (ctx key : Nat) (ls : List (Nat × Nat)) : BitVec 32 × Nat :=
  let m := ls.filter fun e => byteKey ctx e.2 / 2 ^ 16 == key / 2 ^ 16
  (maskOf (m.map (·.1)), (m.map (·.2)).headD (keyVa key))

/-- The entry of a store queue that is on its way to memory: the head, and in a task the first that its version does not hold. -/
def Group.leaver (k : Group) (latent : Bool) : Option StoreEnt :=
  if latent then k.storeQ.find? fun e => e.esc || e.act != .store else k.storeQ.head?

/-- Who first wrote a line of the version that develops, the instruction that a failing develop names (R192, R417; assumption 93). -/
def TeamRec.heldWriter (r : TeamRec) (key : Nat) : Writer :=
  ((r.dev.bind fun d => d.ver.writers.find (key / 128)).bind List.head?).getD ⟨0, 0, 0, r.grid, (r.dev.map Develop.born).getD 0⟩

/-- A group's or an engine's access that fails: it is dropped, and its team traps at its instruction. A develop that fails leaves what
it holds in the version, which the trap discards (R353, R355). -/
def State.failAccess (s : State) (q : Req) (key code detail : Nat) : State :=
  match q with
  | .load t g id =>
    match s.team t, (s.group t g).bind fun k => k.loads.find? fun l => l.id == id with
    | some r, some l =>
      let m := pageLanes r.ctx key l.lanes
      (s.updGroup t g fun k => { k with loads := k.loads.filter fun l => l.id != id }).raiseAt t g id code detail l.lpc m.1 m.2
    | _, _ => s
  | .store t g =>
    match s.team t, (s.group t g).bind fun k => k.leaver ((s.team t).any fun r => r.d.latent) with
    | some r, some e =>
      let hit := fun (x : StoreEnt) => x.act == e.act && x.id == e.id && byteKey r.ctx x.va / 2 ^ 16 == key / 2 ^ 16
      let m := ((s.group t g).map fun k => (k.storeQ.filter hit).map fun x => (x.lane, x.va)).getD []
      (s.updGroup t g fun k => { k with storeQ := k.storeQ.filter fun x => !hit x }).raiseAt t g e.id code detail e.lpc
        (maskOf (m.map (·.1))) ((m.map (·.2)).headD e.va)
    | _, _ => s
  | .atom t g id =>
    match s.team t, (s.group t g).bind fun k => k.atoms.find? fun l => l.id == id with
    | some r, some l =>
      let m := pageLanes r.ctx key (l.lanes.map fun e => (e.1, e.2.1))
      (s.updGroup t g fun k => { k with atoms := k.atoms.filter fun l => l.id != id }).raiseAt t g id code detail l.lpc m.1 m.2
    | _, _ => s
  | .copy t id =>
    match (s.team t).bind fun r => (r.copies.find? fun c => c.id == id).map fun c => (r.ctx, c) with
    | some (ctx, c) =>
      let hit := fun (e : Nat × Nat × Nat) =>
        byteKey ctx e.2.1 / 2 ^ 16 == key / 2 ^ 16 || byteKey ctx e.2.2 / 2 ^ 16 == key / 2 ^ 16
      let m := c.lanes.filter hit
      (s.updTeam t fun r => { r with copies := r.copies.filter fun c => c.id != id }).raiseAt t c.grp id code detail c.lpc
        (maskOf (m.map (·.1))) (keyVa key)
    | none => s
  | .bulk core id =>
    match (s.core core).bulkQ.find? fun b => b.id == id with
    | some b =>
      (s.updCore core fun k => { k with bulkQ := k.bulkQ.filter fun b => b.id != id }).raiseAt b.team b.grp id code detail b.lpc 0
        (keyVa key)
    | none => s
  | .tile core id =>
    match (s.core core).tileQ.find? fun o => o.id == id with
    | some o =>
      (s.updCore core fun k => { k with tileQ := k.tileQ.filter fun o => o.id != id }).raiseAt o.team o.grp id code detail o.lpc 0
        (keyVa key)
    | none => s
  | .fetch t g =>
    match s.group t g, (s.group t g).bind Group.issueAddr with
    | some k, some a => s.raise t g code detail a (maskOf (k.lanesAt a)) (keyVa key)
    | _, _ => s
  | .develop t =>
    match s.team t with
    | some r =>
      let w := r.heldWriter key
      (s.updTeam t fun r =>
        { r with dev := none, ver := (r.dev.map fun d => d.ver.under r.ver).getD r.ver
                 groups := r.groups.mapv fun n k =>
                   if (r.dev.bind fun d => d.grp) = some n then { k with wait := .none } else k }).raiseAt t w.grp w.id code detail w.lpc 0 (keyVa key)
    | none => s
  | .tx t g =>
    match s.group t g, (s.group t g).bind Group.issueAddr with
    | some k, some lpc =>
      let hits := (List.range 32).filterMap fun i => (k.lane i).tx.bind fun x =>
        (x.writes.find? fun e => e.key / 2 ^ 16 == key / 2 ^ 16).map fun e => (i, keyVa e.key)
      s.raise t g code detail lpc (maskOf ((hits.map (·.1)).filter fun i => (k.lanesAt lpc).contains i)) ((hits.map (·.2)).headD (keyVa key))
    | _, _ => s
  | _ => s

end Sys2Proof.Machine
end

