-- ==== Sys2Proof/Machine/Coherence.lean ====
section
/-! DEFINITION. The shared cache and its directory (R226 to R243): degrees, the protocol's messages, and the reads and writes
that are performed at a line's home. A line's number is its key over 128. -/

namespace Sys2Proof.Machine

/-! ### Lines -/

/-- The bits of the bytes of a mask. -/
def byteBits (m : BitVec 128) : LineData :=
  (List.range 128).foldl (fun (a : LineData) i => if m.getLsbD i then a ||| ((255 : LineData) <<< (8 * i)) else a) 0

/-- The bytes of the chunks of a mask. -/
def chunkBytes (c : BitVec 8) : BitVec 128 :=
  (List.range 8).foldl (fun (a : BitVec 128) i => if c.getLsbD i then a ||| ((65535 : BitVec 128) <<< (16 * i)) else a) 0

/-- A line's data with the bytes of a mask taken from other data. -/
def mergeData (old new : LineData) (mask : BitVec 128) : LineData :=
  (old &&& ~~~(byteBits mask)) ||| (new &&& byteBits mask)

/-- The chunks of a mask's bytes. -/
def chunksOf (m : BitVec 128) : BitVec 8 :=
  (List.range 8).foldl (fun (a : BitVec 8) i =>
    if m.extractLsb' (16 * i) 16 != (0 : BitVec 16) then a ||| BitVec.ofNat 8 (2 ^ i) else a) 0

/-- The chunks whose sixteen bytes all lie in a mask. -/
def wholeChunks (m : BitVec 128) : BitVec 8 :=
  (List.range 8).foldl (fun (a : BitVec 8) i =>
    if m.extractLsb' (16 * i) 16 == BitVec.allOnes 16 then a ||| BitVec.ofNat 8 (2 ^ i) else a) 0

/-- The marks of a line after a write (R193): a chunk that one write covers whole without a mark loses its mark. -/
def mergeMarks (old marks whole : BitVec 8) : BitVec 8 := (old &&& ~~~whole) ||| marks

/-- The bytes at an offset of a line. -/
def lineBytes (d : LineData) (o n : Nat) : List Byte := (List.range n).map fun i => d.extractLsb' (8 * (o + i)) 8

/-- Data with bytes placed at an offset, and their mask. -/
def placeBytes (o : Nat) (bs : List Byte) : LineData := BitVec.ofNat 1024 (leNat bs * 256 ^ o)
def spanMask (o n : Nat) : BitVec 128 := BitVec.ofNat 128 ((2 ^ n - 1) * 2 ^ o)

/-- The first grain of 16, 32, 64 or 128 bytes, as 0 to 3, that holds all the chunks of a mask (R194). -/
def grainOf (c : BitVec 8) : Nat :=
  let l := (List.range 8).filter fun i => c.getLsbD i
  let lo := l.headD 0
  let hi := l.getLastD 0
  if lo = hi then 0 else if lo / 2 = hi / 2 then 1 else if lo / 4 = hi / 4 then 2 else 3

/-- The chunks of that grain. -/
def grainChunks (c : BitVec 8) : BitVec 8 :=
  let l := (List.range 8).filter fun i => c.getLsbD i
  let w := 2 ^ grainOf c
  if l.isEmpty then 0 else BitVec.ofNat 8 ((2 ^ w - 1) * 2 ^ (l.headD 0 / w * w))

/-! ### The ring (R14, R364) -/

/-- A die's place in the ring D0, D1, D3, D2; link `i` joins the dies at `i` and `i + 1`. -/
def ringPos (d : Nat) : Nat := match d with | 0 => 0 | 1 => 1 | 3 => 2 | _ => 3

def State.linkUp (s : State) (l : Nat) : Bool := (s.link (l % 4)).state != 2

/-- The links between two dies: the shorter way, the forward one between opposite dies, and the other way round. -/
def ringWays (a b : Nat) : List Nat × List Nat :=
  let p := ringPos a
  let k := (ringPos b + 4 - p) % 4
  let fwd := (List.range k).map fun i => (p + i) % 4
  let back := if k = 0 then [] else (List.range (4 - k)).map fun i => (p + 7 - i) % 4
  if k ≤ 2 then (fwd, back) else (back, fwd)

/-- The links that traffic between two dies takes: the other way where a link on the first is down. -/
def State.route (s : State) (a b : Nat) : List Nat :=
  let w := ringWays a b
  if w.1.all fun l => s.linkUp l then w.1 else w.2

/-- The link on which what goes between two dies is lost: the first on its way that is down (R352). -/
def State.lossLink (s : State) (a b : Nat) : Nat :=
  let w := ringWays a b
  ((w.1 ++ w.2).find? fun l => !s.linkUp l).getD 0

/-! ### The directory -/

def DirEnt.state (e : DirEnt) (d : Nat) : Moesi := e.st.getD d .i
def DirEnt.setSt (e : DirEnt) (d : Nat) (m : Moesi) : DirEnt := { e with st := e.st.set d m }
/-- An entry with no holder. -/
def DirEnt.fresh (home : Nat) : DirEnt := ⟨home, [.i, .i, .i, .i], 0, none, 0⟩
/-- The non-home holders of a line (R231). -/
def DirEnt.holders (e : DirEnt) : List Nat := (List.range 4).filter fun d => d != e.home && e.state d != .i
/-- The die in M, O or E, if any. -/
def DirEnt.owner (e : DirEnt) : Option Nat := (List.range 4).find? fun d => e.state d == .m || e.state d == .o || e.state d == .e
/-- An entry that says nothing: no holder, no transaction, and a home copy that equals DRAM. -/
def DirEnt.empty (e : DirEnt) : Bool := e.st.all (· == .i) && e.txn.isNone && e.dirty == 0

def State.dir (s : State) (line : Nat) (leaf : Leaf) : DirEnt :=
  (s.dirs.find line).getD (DirEnt.fresh (leaf.home (line * 128 % 2 ^ 57)))
def State.setDir (s : State) (line : Nat) (e : DirEnt) : State :=
  { s with dirs := s.dirs.put line (if e.empty then none else some e) }
def State.updDir (s : State) (line : Nat) (leaf : Leaf) (f : DirEnt → DirEnt) : State := s.setDir line (f (s.dir line leaf))

/-- A die's copy of a line. -/
def State.copyAt (s : State) (line d : Nat) : Option Copy := s.copies.find (line * 4 + d)
def State.setCopy (s : State) (line d : Nat) (c : Option Copy) : State := { s with copies := s.copies.put (line * 4 + d) c }

/-- A copy with data merged for the chunks of a mask. -/
def Copy.merge (c : Copy) (data : LineData) (poison chunks : BitVec 8) : Copy :=
  { c with valid := c.valid ||| chunks, data := mergeData c.data data (chunkBytes chunks),
           poison := (c.poison &&& ~~~chunks) ||| (poison &&& chunks) }

/-- An empty copy. -/
def Copy.none (leaf : Leaf) : Copy := ⟨0, 0, 0, leaf, []⟩

/-! ### Degrees (R236 to R238) -/

/-- The 2 MiB region of a line. -/
def regionOf (line : Nat) : Nat := line / 2 ^ 14

/-- A share that enters a die's table (R236): the degree is ENLCTL.DEFDEG. -/
def DieRec.share (r : DieRec) (region : Nat) : Share :=
  (r.shares.find region).getD ⟨r.enlctl.toNat / 2 ^ 28 % 4, 2, 0, 0, 0, 0, 0⟩

/-- The effective degree of a line at its home (R238). -/
def State.degree (s : State) (home line : Nat) (leaf : Leaf) : Nat :=
  if 1 ≤ leaf.repla ∧ leaf.repla ≤ 4 then leaf.repla - 1
  else match (s.die home).pins.find (regionOf line) with
    | some d => d
    | none => ((s.die home).share (regionOf line)).d

/-- A message sent, with a new serial number. -/
def State.send (s : State) (m : Msg) : State := { s with net := s.net ++ [{ m with id := s.nextId }], nextId := s.nextId + 1 }

/-- A message without data. -/
def Msg.plain (kind : MsgKind) (line src dst : Nat) (leaf : Leaf) : Msg := ⟨0, kind, line, src, dst, 0, 0, 0, .i, leaf, 0, []⟩

/-- The holders that a degree no longer admits, farthest round the ring first and then the higher number (R238). -/
def excess (home d : Nat) (hs : List Nat) : List Nat :=
  let far := (hs.filter fun x => ringDist home x == 2).reverse
  let near := (hs.filter fun x => ringDist home x == 1).reverse
  (far ++ near).take (hs.length - d)

/-- The recall of a line's excess holders begins, where the line has no transaction (R232, R238). -/
def State.trim (s : State) (line : Nat) (leaf : Leaf) : State :=
  let e := s.dir line leaf
  let out := excess e.home (s.degree e.home line leaf) e.holders
  if e.txn.isSome || out.isEmpty then s
  else
    let s := s.setDir line { e with txn := some ⟨3, e.home, out, false⟩ }
    out.foldl (fun s d => s.send (Msg.plain .inv line e.home d leaf)) s

/-- The same for every line of a share. -/
def State.trimRegion (s : State) (home region : Nat) : State :=
  s.dirs.foldl (fun s (e : Nat × DirEnt) =>
    if e.2.home == home && regionOf e.1 == region then
      match (List.range 4).findSome? fun d => (s.copyAt e.1 d).map (·.leaf) with
      | some l => s.trim e.1 l
      | none => s
    else s) s

/-- A share of a die changed. It enters the table where it is not there, and the least recently used of 8,192 leaves: its
lines fall to DEFDEG (R236), and a fall counts in DEGDN (R242). -/
def State.updShare (s : State) (home region : Nat) (f : Share → Share) : State :=
  let r := s.die home
  let sh := f { (r.share region) with used := s.nextId }
  let s := s.bump
  if (r.shares.find region).isNone && decide (8192 ≤ r.shares.length) then
    match r.shares.foldl (fun (m : Option (Nat × Share)) e =>
        match m with
        | none => some e
        | some b => if e.2.used < b.2.used then some e else some b) none with
    | some (old, was) =>
      let s := s.setDie home { r with shares := (r.shares.del old).ins region sh }
      (if r.enlctl.toNat / 2 ^ 28 % 4 < was.d then s.count home 7 1 else s).trimRegion home old
    | none => s
  else s.setDie home { r with shares := r.shares.ins region sh }

/-! ### DRAM (R240, R241) -/

/-- The stack that holds a physical device address. -/
def stackOf (addr : Nat) : Nat := 2 * (addr / 2 ^ 37 % 4) + (if addr % 2 ^ 37 < dieBytes / 2 then 0 else 1)

/-- A request counted at its controller (R240 to R242). A window of 2^24 requests counts as crowded when more than a quarter
are conflicts and half of these lie in a sixteenth of the banks. -/
def State.dramCount (s : State) (die stack grain : Nat) (conflict crowded : Bool) : State :=
  let s := s.count die (10 + grain) 1
  let s := if conflict then s.count die 14 1 else s
  s.updStack stack fun k =>
    let k := { k with reqs := k.reqs + 1, confl := k.confl + conflict.toNat, crowd := k.crowd + (conflict && crowded).toNat }
    if 2 ^ 24 ≤ k.reqs then
      { k with reqs := 0, confl := 0, crowd := 0
               hotWindows := if k.reqs < 4 * k.confl ∧ k.confl ≤ 2 * k.crowd then k.hotWindows + 1 else 0 }
    else k

/-- Chunks of a line written to memory, as one request of the grain that holds them (R240), which finds no bank open on another row
(assumption 98). -/
def State.dramWrite (s : State) (line : Nat) (leaf : Leaf) (data : LineData) (poison chunks : BitVec 8) : State :=
  let p := leaf.phys (line * 128 % 2 ^ 57)
  if chunks = 0 then s
  else
    let s := (List.range 8).foldl (fun (s : State) i =>
      if chunks.getLsbD i then
        let s := s.physWrite (p.plus (16 * i)) (lineBytes data (16 * i) 16)
        if poison.getLsbD i then s.physPoison (p.plus (16 * i)) 16 else s
      else s) s
    if p.host then s else s.dramCount (p.addr / 2 ^ 37 % 4) (stackOf p.addr) (grainOf chunks) false false

/-! ### Room in a slice (R13, R15, R232) -/

/-- A die's copy of a line evicted (R232): a holder reports it to the directory, and the home writes the dirty chunks of its copy to
memory. A line with a transaction or a message stays. -/
def State.evictCopy (s : State) (d line : Nat) : State :=
  match s.copyAt line d with
  | none => s
  | some c =>
    let e := s.dir line c.leaf
    if e.txn.isSome || s.net.any fun n => n.line == line then s
    else if d = e.home then
      ((s.dramWrite line c.leaf c.data c.poison (e.dirty &&& c.valid)).setCopy line d none).setDir line
        { (e.setSt d .i) with dirty := 0 }
    else
      match e.state d with
      | .m | .o =>
        (s.setCopy line d none).send
          { (Msg.plain (if e.state d = .m then .putM else .putO) line d e.home c.leaf) with
            data := c.data, valid := c.valid, poison := c.poison, writers := c.writers }
      | st => (s.setCopy line d none).send (Msg.plain (if st = .e then .putE else .putS) line d e.home c.leaf)

/-- The copies of a slice of a die, by their lines. -/
def State.sliceLines (s : State) (d slice : Nat) : List Nat :=
  (s.copies.filter fun e => e.1 % 4 == d && sliceOf (e.1 / 4 * 128 % 2 ^ 57) == slice).map fun e => e.1 / 4

/-- Room made for a new line in its slice of 4 MiB, 32,768 lines (R13): where it is full, the lowest other line that no
transaction and no message holds is evicted (assumption 75). -/
def State.roomInSlice (s : State) (d line : Nat) : State :=
  if s.copies.length < 32768 ∨ (s.copyAt line d).isSome then s
  else
    let ls := s.sliceLines d (sliceOf (line * 128 % 2 ^ 57))
    if ls.length < 32768 then s
    else
      match ls.find? fun l => l != line && !((s.dirs.find l).any fun e => e.txn.isSome) && !(s.net.any fun n => n.line == l) with
      | some l => s.evictCopy d l
      | none => s

/-- A copy put into a die's slice. -/
def State.putCopy (s : State) (line d : Nat) (c : Copy) : State := (s.roomInSlice d line).setCopy line d (some c)

/-- What memory holds of a line: its bytes and the marks of its chunks. -/
def State.memLine (s : State) (line : Nat) (leaf : Leaf) : LineData × BitVec 8 :=
  let p := leaf.phys (line * 128 % 2 ^ 57)
  (BitVec.ofNat 1024 (s.physNum p 128),
   (List.range 8).foldl (fun (a : BitVec 8) i =>
     if s.physMark (p.plus (16 * i)) 16 then a ||| BitVec.ofNat 8 (2 ^ i) else a) 0)

/-- Chunks of a line read from memory, counted as one request of their grain at the home's controller (R240). A request of the model's
own finds no bank open on another row (assumption 98). -/
def State.memRead (s : State) (line home : Nat) (leaf : Leaf) (chunks : BitVec 8) : State :=
  let p := leaf.phys (line * 128 % 2 ^ 57)
  if p.host || chunks == 0 then s else s.dramCount home (stackOf p.addr) (grainOf chunks) false false

/-- The chunks of a line that the home's copy lacks, read from memory as one request of their grain (R240). -/
def State.fill (s : State) (line home : Nat) (leaf : Leaf) (chunks : BitVec 8) : State :=
  let c := (s.copyAt line home).getD (Copy.none leaf)
  let need := chunks &&& ~~~c.valid
  if need = 0 then s
  else
    let need := grainChunks need &&& ~~~c.valid
    let m := s.memLine line leaf
    ((s.memRead line home leaf need).putCopy line home (c.merge m.1 m.2 need)).updDir line leaf fun e =>
      if e.state home = .i then e.setSt home (if e.holders.isEmpty then .e else .s) else e

/-- The chunks of a line that a holder's copy lacks (R240): those that the home's copy has, and the others from memory. -/
def State.fillAt (s : State) (line d home : Nat) (leaf : Leaf) (chunks : BitVec 8) : State :=
  if d = home then s.fill line home leaf chunks
  else
    let c := (s.copyAt line d).getD (Copy.none leaf)
    let h := (s.copyAt line home).getD (Copy.none leaf)
    let need := chunks &&& ~~~c.valid
    if need = 0 then s
    else
      let near := need &&& h.valid
      let far := need &&& ~~~h.valid
      let far := grainChunks far &&& ~~~(c.valid ||| h.valid)
      let m := s.memLine line leaf
      (s.memRead line home leaf far).putCopy line d ((c.merge h.data h.poison near).merge m.1 m.2 far)

/-- A line's bytes and marks with the valid chunks of a copy over them. -/
def layCopy (v : LineData × BitVec 8) (c : Option Copy) : LineData × BitVec 8 :=
  match c with
  | some c => (mergeData v.1 c.data (chunkBytes c.valid), (v.2 &&& ~~~c.valid) ||| (c.poison &&& c.valid))
  | none => v

/-- What a line holds at its point of coherence, chunk by chunk: its owner's copy, else its home's, else memory. -/
def State.peek (s : State) (line : Nat) (leaf : Leaf) : LineData × BitVec 8 :=
  let e := s.dir line leaf
  let v := layCopy (s.memLine line leaf) (s.copyAt line e.home)
  match e.owner with
  | some d => layCopy v (s.copyAt line d)
  | none => v

/-- The chunks of a line that may differ from DRAM: those that the home's copy has newer, and those of another die's copy in M or
O. -/
def State.dirtyChunks (s : State) (line : Nat) (e : DirEnt) : BitVec 8 :=
  match e.owner with
  | some d =>
    if d != e.home && e.state d != .e then e.dirty ||| ((s.copyAt line d).map (·.valid)).getD 0 else e.dirty
  | none => e.dirty

/-- A line's newest bytes brought to memory; its copies stay, clean (R206). -/
def State.toMemory (s : State) (line : Nat) (leaf : Leaf) : State :=
  let e := s.dir line leaf
  let v := s.peek line leaf
  let s := (s.dramWrite line leaf v.1 v.2 (s.dirtyChunks line e)).setDir line { e with dirty := 0 }
  (List.range 4).foldl (fun (s : State) d =>
    match s.copyAt line d with
    | some c => s.setCopy line d (some { c with writers := [] })
    | none => s) s

/-! ### Writes (R231, R233) -/

/-- The serial number of the last write to a chunk in coherence order raised (R213). -/
def State.wrote (s : State) (chunk : Nat) : State := { s with serials := s.serials.ins chunk s.nextId, nextId := s.nextId + 1 }

/-- The chunks that a write needs to read: those that it or its coalesced request touches and does not cover whole (R194, R240). -/
def OutWrite.reads (o : OutWrite) : BitVec 8 := (chunksOf o.mask ||| o.ask) &&& ~~~o.whole

/-- A write performed in a die's copy of its line. -/
def State.writeCopy (s : State) (d : Nat) (o : OutWrite) : State :=
  let cs := chunksOf o.mask
  let home := o.leaf.home (o.line * 128 % 2 ^ 57)
  let s := s.fillAt o.line d home o.leaf o.reads
  let c := (s.copyAt o.line d).getD (Copy.none o.leaf)
  let s := s.putCopy o.line d
    { c with valid := c.valid ||| cs, data := mergeData c.data o.data o.mask, poison := mergeMarks c.poison o.marks o.whole
             writers := if d = home then [] else addWriters c.writers o.writers }
  let s := if d = home then s.updDir o.line o.leaf fun e => { e with dirty := e.dirty ||| cs } else s
  (List.range 8).foldl (fun s i => if cs.getLsbD i then s.wrote (o.line * 8 + i) else s) s

/-- Every write of a die to a line that waits for its home, performed in the copy of die `d`, in order. -/
def State.applyOut (s : State) (src line d : Nat) : State :=
  let mine := s.outw.filter fun o => o.die == src && o.line == line
  mine.foldl (fun s o => s.writeCopy d o)
    { s with outw := s.outw.filter fun o => !(o.die == src && o.line == line) }

/-! ### Messages (R232) -/

/-- The other entries in a line's set of its home's snoop filter (R235, R403). -/
def State.filterSet (s : State) (line home : Nat) : List (Nat × DirEnt) :=
  s.dirs.filter fun e => e.1 != line && e.2.home == home && !e.2.holders.isEmpty &&
    sliceOf (e.1 * 128 % 2 ^ 57) == sliceOf (line * 128 % 2 ^ 57) && e.1 % 2048 == line % 2048

/-- The least recently used of several entries. -/
def oldestEnt (l : List (Nat × DirEnt)) : Option (Nat × DirEnt) :=
  l.foldl (fun (m : Option (Nat × DirEnt)) e =>
    match m with
    | none => some e
    | some b => if e.2.used < b.2.used then some e else some b) none

def MsgKind.request (k : MsgKind) : Bool :=
  match k with
  | .getS | .getM | .upgrade | .fwdWrite => true
  | _ => false
def MsgKind.put (k : MsgKind) : Bool :=
  match k with
  | .putM | .putO | .putE | .putS => true
  | _ => false

/-- Whether a request gives its line a first non-home holder, so that it needs a new entry of the snoop filter (R235). -/
def State.needsEntry (s : State) (m : Msg) : Bool :=
  let e := s.dir m.line m.leaf
  m.src != e.home && e.holders.isEmpty &&
  (match m.kind with
   | .getS => decide (0 < s.degree e.home m.line m.leaf)
   | .getM | .upgrade => true
   | _ => false)

/-- Whether a set of the snoop filter is full (R235): 16 entries of it track other lines. -/
def State.filterFull (s : State) (m : Msg) : Bool :=
  s.needsEntry m && decide (16 ≤ (s.filterSet m.line (s.dir m.line m.leaf).home).length)

/-- The entry of a full set that makes room: the least recently used of those that no transaction and no message holds; none while an
eviction from the set is under way. -/
def State.victim (s : State) (m : Msg) : Option (Nat × DirEnt) :=
  let set := s.filterSet m.line (s.dir m.line m.leaf).home
  if set.any fun e => (e.2.txn.map fun t => t.kind == 3).getD false then none
  else oldestEnt (set.filter fun e => e.2.txn.isNone && !(s.net.any fun n => n.line == e.1))

/-- Whether a message can be handled now: a request waits for the line's transaction, for a returning copy (R231), and for an
eviction that makes room for it (R235). -/
def State.msgReady (s : State) (m : Msg) : Bool :=
  if m.kind.request then
    (s.dir m.line m.leaf).txn.isNone && !(s.net.any fun n => n.line == m.line && n.kind.put) &&
    (!s.filterFull m || (s.victim m).isSome)
  else true

/-- A message taken off the network. -/
def State.take (s : State) (m : Msg) : State := { s with net := s.net.filter fun n => n.id != m.id }

/-- Data sent from the home's copy to a die. -/
def State.sendData (s : State) (line src dst : Nat) (leaf : Leaf) (grant : Moesi) (chunks : BitVec 8) : State :=
  let c := (s.copyAt line src).getD (Copy.none leaf)
  s.send { (Msg.plain .data line src dst leaf) with data := c.data, valid := c.valid &&& chunks, poison := c.poison, grant := grant }

/-- The state that the home takes when another die is given a copy of its line (assumption 11). -/
def shareHome (e : DirEnt) : DirEnt :=
  match e.state e.home with
  | .m => e.setSt e.home .o
  | .e => e.setSt e.home .s
  | _ => e

/-- The chunks of a line that the writes of a die which wait for M need to read. -/
def State.wanted (s : State) (x line : Nat) : BitVec 8 :=
  (s.outw.filter fun o => o.die == x && o.line == line).foldl (fun (a : BitVec 8) o => a ||| o.reads) 0

/-- M granted to a die once every other holder has gone (R231, R232). A GetM is answered with the chunks that its writes need and with
those that the home's copy has newer; an Upgrade carries no data, and what the home's copy alone has newer goes to memory. -/
def State.grantM (s : State) (line x : Nat) (leaf : Leaf) : State :=
  let e := s.dir line leaf
  let h := e.home
  if x = h then
    (s.setDir line { e with st := (DirEnt.fresh h).st.set h .m, txn := none, used := s.nextId }).applyOut h line h
  else
    let has := if e.state x = .i then 0 else ((s.copyAt line x).map (·.valid)).getD 0
    let lack := s.wanted x line &&& ~~~has
    let upgrade := e.state x != .i && lack == 0
    let s := if upgrade then s else s.fill line h leaf lack
    let c := (s.copyAt line h).getD (Copy.none leaf)
    let s := if upgrade then s.dramWrite line leaf c.data c.poison (e.dirty &&& c.valid &&& ~~~has) else s
    let s := (s.sendData line h x leaf .m (if upgrade then 0 else (lack ||| e.dirty) &&& ~~~has)).setCopy line h none
    s.setDir line { e with st := (DirEnt.fresh h).st.set x .m, dirty := 0, txn := some ⟨1, x, [x], true⟩, used := s.nextId }

/-- A forwarded write performed at its home once every non-home holder has gone (R232, the row of degree 0). -/
def State.grantWrite (s : State) (line x : Nat) (leaf : Leaf) : State :=
  let e := s.dir line leaf
  (s.setDir line { e with st := (DirEnt.fresh e.home).st.set e.home .m, txn := none }).applyOut x line e.home

/-- The invalidation of the non-home holders begins, `x` itself excepted where it is to hold M; with none left the grant is made at
once (R232). -/
def State.invalidate (s : State) (kind line x : Nat) (leaf : Leaf) : State :=
  let e := s.dir line leaf
  let others := if kind = 1 then e.holders.filter fun d => d != x else e.holders
  if others.isEmpty then (if kind = 1 then s.grantM line x leaf else s.grantWrite line x leaf)
  else
    let n := (others.filter fun d => e.state d == .s || e.state d == .o).length
    let s := (s.setDir line { e with txn := some ⟨kind, x, others, false⟩ }).count e.home 3 n
    others.foldl (fun s d => s.send (Msg.plain .inv line e.home d leaf)) s

/-- The eviction that makes room for a request in a full set begins; the request waits (R235). -/
def State.evictFilter (s : State) (m : Msg) : State :=
  match s.victim m with
  | none => s
  | some (line, e) =>
    let leaf := ((List.range 4).findSome? fun d => (s.copyAt line d).map (·.leaf)).getD m.leaf
    let s := ((s.setDir line { e with txn := some ⟨3, e.home, e.holders, false⟩ }).count e.home 4 1).count e.home 5 e.holders.length
    e.holders.foldl (fun s d => s.send (Msg.plain .inv line e.home d leaf)) s

/-- A GetS served from the home's copy, to the home itself or to an admitted die. -/
def State.serveHome (s : State) (m : Msg) : State :=
  let h := (s.dir m.line m.leaf).home
  let s := s.fill m.line h m.leaf m.chunks
  if m.src = h then s.updDir m.line m.leaf fun e => { e with used := s.nextId }
  else
    let s := s.updDir m.line m.leaf fun e => { (shareHome e) with txn := some ⟨0, m.src, [m.src], true⟩, used := s.nextId }
    s.sendData m.line h m.src m.leaf .s m.chunks

/-- GETS at the home (R232). A read of another die enters its share, and counts where no replica is installed for it (R237,
R242). -/
def State.onGetS (s : State) (m : Msg) : State :=
  let e := s.dir m.line m.leaf
  let h := e.home
  let x := m.src
  let d := s.degree h m.line m.leaf
  let enter := fun (s : State) n => if x = h then s else s.updShare h (regionOf m.line) fun k => { k with r := k.r + n }
  if x != h && !(e.state x != .i || (decide (0 < d) && decide (e.holders.length < d))) then
    let s := enter ((s.take m).count h 2 1) 1
    let s := s.fillAt m.line (e.owner.getD h) h m.leaf m.chunks
    s.send (Msg.plain .data m.line h x m.leaf)
  else if s.filterFull m then s.evictFilter m
  else
    let s := enter (s.take m) 0
    let e := { (s.dir m.line m.leaf) with used := s.nextId }
    match e.owner with
    | some y =>
      if y == x && x != h then s.fillAt m.line x h m.leaf m.chunks
      else if y != x && y != h && e.state y != .e then
        let acks := if e.state y = .m && x != h then [x, h] else [x]
        ((s.fillAt m.line y h m.leaf m.chunks).setDir m.line { e with txn := some ⟨0, x, acks, true⟩ }).send
          (Msg.plain .fwd m.line h y m.leaf)
      else (s.setDir m.line (if y != h && e.state y == .e then e.setSt y .s else e)).serveHome m
    | none => (s.setDir m.line e).serveHome m

/-- GETM and Upgrade at the home (R232); each counts as a write request of its share (R237). -/
def State.onGetM (s : State) (m : Msg) : State :=
  let e := s.dir m.line m.leaf
  let x := m.src
  if s.filterFull m then s.evictFilter m
  else
    let s := (s.take m).updShare e.home (regionOf m.line) fun k => { k with w := k.w + 1 }
    let e := s.dir m.line m.leaf
    if e.state x == .m || e.state x == .e then (s.setDir m.line { (e.setSt x .m) with used := s.nextId }).applyOut x m.line x
    else s.invalidate 1 m.line x m.leaf

/-- A forwarded write at the home (R232, R233). -/
def State.onFwdWrite (s : State) (m : Msg) : State :=
  let e := s.dir m.line m.leaf
  let s := (s.take m).updShare e.home (regionOf m.line) fun k => { k with w := k.w + 1 }
  s.invalidate 2 m.line m.src m.leaf

/-- Data that comes back to the home's copy, dirty. -/
def State.homeData (s : State) (m : Msg) (home : Nat) : State :=
  if m.valid = 0 then s
  else
    let c := (s.copyAt m.line home).getD (Copy.none m.leaf)
    (s.putCopy m.line home (c.merge m.data m.poison m.valid)).updDir m.line m.leaf fun e => { e with dirty := e.dirty ||| m.valid }

/-- PutM, PutO, PutE and PutS at the home (R232). -/
def State.onPut (s : State) (m : Msg) : State :=
  let e := s.dir m.line m.leaf
  let s := (s.take m).setDir m.line (e.setSt m.src .i)
  if m.kind = .putM || m.kind = .putO then s.homeData m e.home else s

/-- INV at a holder (R232): its copy goes, with its data where it was dirty. -/
def State.onInv (s : State) (m : Msg) : State :=
  let e := s.dir m.line m.leaf
  let a := Msg.plain .ack m.line m.dst e.home m.leaf
  let a := match s.copyAt m.line m.dst with
    | some c =>
      if e.state m.dst = .m || e.state m.dst = .o then
        { a with data := c.data, valid := c.valid, poison := c.poison, writers := c.writers }
      else a
    | none => a
  ((s.take m).setCopy m.line m.dst none).send a

/-- ACK at the home (R231): the last one ends the recall or lets the write go on. -/
def State.onAck (s : State) (m : Msg) : State :=
  let s := (s.take m).homeData m m.dst
  let e := (s.dir m.line m.leaf).setSt m.src .i
  match e.txn with
  | none => s.setDir m.line e
  | some t =>
    let left := t.acks.filter fun d => d != m.src
    let s := s.setDir m.line { e with txn := some { t with acks := left } }
    if !left.isEmpty then s
    else if t.kind = 1 then s.grantM m.line t.src m.leaf
    else if t.kind = 2 then s.grantWrite m.line t.src m.leaf
    else (s.updDir m.line m.leaf fun e => { e with txn := none }).trim m.line m.leaf

/-- FWD at an owner (R232): the data goes to the requester, and from M to the home's copy too. -/
def State.onFwd (s : State) (m : Msg) : State :=
  let e := s.dir m.line m.leaf
  match e.txn with
  | none => s.take m
  | some t =>
    let toHome := t.acks.contains e.home
    let s := (s.take m).setDir m.line (e.setSt m.dst .o)
    let s := if t.src = e.home then s else s.sendData m.line m.dst t.src m.leaf .s 255
    if toHome then
      let s := s.sendData m.line m.dst e.home m.leaf .s 255
      match s.copyAt m.line m.dst with
      | some c => s.setCopy m.line m.dst (some { c with writers := [] })
      | none => s
    else s

/-- DATA at a die (R232, R234): installed where the directory holds the die for the line, or delivered once. -/
def State.onData (s : State) (m : Msg) : State :=
  let s := s.take m
  let e := s.dir m.line m.leaf
  match e.txn with
  | none => s
  | some t =>
    if m.grant = .i || !t.acks.contains m.dst then s
    else
      let fresh := m.dst != e.home && (s.copyAt m.line m.dst).isNone && m.grant == .s
      let c := (s.copyAt m.line m.dst).getD (Copy.none m.leaf)
      let s := s.putCopy m.line m.dst (c.merge m.data m.poison m.valid)
      let s := if fresh then s.count m.dst 1 1 else s
      let e := if m.grant = .m then e else
        { (e.setSt m.dst .s) with dirty := if m.dst = e.home then e.dirty ||| m.valid else e.dirty }
      let left := t.acks.filter fun d => d != m.dst
      let s := s.setDir m.line { e with txn := if left.isEmpty then none else some { t with acks := left } }
      let s := if m.grant = .m then s.applyOut m.dst m.line m.dst else s
      if left.isEmpty then s.trim m.line m.leaf else s

/-- A message handled. -/
def State.deliver (s : State) (m : Msg) : State :=
  match m.kind with
  | .getS => s.onGetS m
  | .getM | .upgrade => s.onGetM m
  | .putM | .putO | .putE | .putS => s.onPut m
  | .fwdWrite => s.onFwdWrite m
  | .inv => s.onInv m
  | .ack => s.onAck m
  | .fwd => s.onFwd m
  | .data => s.onData m

/-- The messages in flight handled one after another, at most `n` of them. -/
def State.quiesce : Nat → State → State
  | 0, s => s
  | n + 1, s =>
    match s.net.find? fun m => s.msgReady m with
    | some m => State.quiesce n (s.deliver m)
    | none => s

/-- Every message in flight handled. -/
def State.settle (s : State) : State := s.quiesce (16 * (s.net.length + s.dirs.length) + 64)

/-! ### Accesses at the home -/

/-- The redirect tables after a request of a die to a pinned page (R229): on a miss the hashed home installs the entry in every table of
1,024, and where it is not the named die itself it forwards the request, which counts in REDIRECT (R242). -/
def State.redirect (s : State) (x key : Nat) (leaf : Leaf) : State :=
  let here := fun (e : Nat × Nat) => redirHit key e
  let new := (key / leaf.size, leaf.pdie + 4 * leaf.level)
  if !leaf.pinned then s
  else if (s.die x).redir.any here then
    s.updDie x fun r => { r with redir := new :: r.redir.filter fun e => !here e }
  else
    (List.range 4).foldl (fun (s : State) d =>
      s.updDie d fun r => { r with redir := (new :: r.redir.filter fun e => !here e).take 1024 })
      (if hashHome (keyVa key) = leaf.pdie then s else s.count (hashHome (keyVa key)) 9 1)

/-- A write lost on a die link (R188, R354, R364): each writer's team traps LINKLOST; where the team has ended, or has taken another
trap, the loss stands in its grid's record. -/
def State.loseWrite (s : State) (die link : Nat) (ws : List Writer) : State :=
  ws.foldl (fun (s : State) w =>
    let on := ((s.team w.team).map fun r => r.trap.isNone).getD false
    let s := s.updGrid w.grid fun r => { r with lost := true, faulted := r.faulted || !on }
    if on then s.raiseAt w.team w.grp w.id tLINKLOST link w.lpc 0 0 else s)
    (s.updDie die fun r => { r with lostw := r.lostw + 1 })

/-- A write on its way from a die (R233): performed at once where the die may write, else sent to the home. `look` tells whether the die
is the requester, which looks up its redirect table (R229), or does the home's own part of a request that has come to it. -/
def State.startWriteBy (s : State) (look : Bool) (o : OutWrite) : State :=
  let e := s.dir o.line o.leaf
  let x := o.die
  if !s.reach x e.home then s.loseWrite x (s.lossLink x e.home) o.writers
  else
    let s := { s with outw := s.outw ++ [o] }
    if (e.state x == .m || e.state x == .e) && e.txn.isNone && (s.copyAt o.line x).isSome then
      (s.setDir o.line (e.setSt x .m)).applyOut x o.line x
    else
      let s := if look then s.redirect x (o.line * 128) o.leaf else s
      let has := ((s.copyAt o.line x).map (·.valid)).getD 0
      let kind : MsgKind :=
        if x = e.home || decide (0 < s.degree e.home o.line o.leaf) then
          (if (e.state x == .s || e.state x == .o) && (o.reads &&& ~~~has) == 0 then .upgrade else .getM)
        else .fwdWrite
      s.send (Msg.plain kind o.line x e.home o.leaf)

/-- A write of a requester on its way. -/
def State.startWrite (s : State) (o : OutWrite) : State := s.startWriteBy true o

/-- A read of one line by a die at its home or from a replica on the die (R169, R178): the bytes, and the marks of the chunks of
the line; what the die's own copy holds comes from there. Bytes of host memory are reached directly and kept in no cache (assumption
12). Reads across a cut return poison (R364, R366). `look` is as for a write. -/
def State.cohReadBy (s : State) (look : Bool) (x key : Nat) (leaf : Leaf) (chunks : BitVec 8) : LineData × BitVec 8 × State :=
  let line := key / 128
  let s := s.settle
  if leaf.host then
    if !s.reach x (portDie leaf.port) then (0, 255, s)
    else ((s.memLine line leaf).1, (s.memLine line leaf).2, s)
  else
    let e := s.dir line leaf
    if !s.reach x e.home then (0, 255, s)
    else
      let held := match s.copyAt line x with
        | some c => e.state x != Moesi.i && (c.valid &&& chunks) == chunks
        | none => false
      let s := if held then
          (if x != e.home && (e.state x == Moesi.s || e.state x == Moesi.o) then s.count x 0 1 else s)
        else ((if look then s.redirect x key leaf else s).send { (Msg.plain .getS line x e.home leaf) with chunks := chunks }).settle
      let v := layCopy (s.peek line leaf) (if (s.dir line leaf).state x = .i then none else s.copyAt line x)
      (v.1, v.2, s)

/-- A read of a requester. -/
def State.cohRead (s : State) (x key : Nat) (leaf : Leaf) (chunks : BitVec 8) : LineData × BitVec 8 × State :=
  s.cohReadBy true x key leaf chunks

/-- A write of bytes of one line by a die, performed at its home before anything else happens (R170, R231). One that crosses a cut is
lost (R366). `look` is as for a write on its way. -/
def State.cohWriteBy (s : State) (look : Bool) (o : OutWrite) : State :=
  if o.leaf.host then
    let port := portDie o.leaf.port
    if !s.reach o.die port then s.loseWrite o.die (s.lossLink o.die port) o.writers
    else
      let p := o.leaf.phys (o.line * 128 % 2 ^ 57)
      let was := (s.memLine o.line o.leaf).2
      let now := mergeMarks was o.marks o.whole
      let s := (List.range 128).foldl (fun (s : State) i =>
        if o.mask.getLsbD i then s.physWrite (p.plus i) (lineBytes o.data i 1) else s) s
      (List.range 8).foldl (fun (s : State) i =>
        if (chunksOf o.mask).getLsbD i then
          (if now.getLsbD i then s.physPoison (p.plus (16 * i)) 16
           else if was.getLsbD i then s.physWrite (p.plus (16 * i)) (lineBytes o.data (16 * i) 16)
           else s).wrote (o.line * 8 + i)
        else s) s
  else (s.settle.startWriteBy look o).settle

/-- A write of a requester performed. -/
def State.cohWrite (s : State) (o : OutWrite) : State := s.cohWriteBy true o

/-- Cut bytes at a key into the bytes of each line. -/
def splitLines (key : Nat) (bs : List Byte) : List (Nat × List Byte) :=
  (List.range ((key + bs.length + 127) / 128 - key / 128)).filterMap fun i =>
    let lo := max key ((key / 128 + i) * 128)
    let hi := min (key + bs.length) ((key / 128 + i + 1) * 128)
    if lo < hi then some (lo, (bs.drop (lo - key)).take (hi - lo)) else none

/-- A write's bytes as the write of one line: the chunks of marked bytes are marked (R193). -/
def lineWrite (die key : Nat) (leaf : Leaf) (bs : List Byte) (marks : List Bool) (ws : List Writer) : OutWrite :=
  let o := key % 128
  { id := 0, die := die, line := key / 128, data := placeBytes o bs, mask := spanMask o bs.length
    marks := (marks.zip (List.range marks.length)).foldl (fun (a : BitVec 8) e =>
      if e.1 then a ||| BitVec.ofNat 8 (2 ^ ((o + e.2) / 16)) else a) 0
    whole := wholeChunks (spanMask o bs.length), ask := chunksOf (spanMask o bs.length), writers := ws, leaf := leaf }

/-- Two writes of one line as one request (R194), the second later. -/
def OutWrite.append (o p : OutWrite) : OutWrite :=
  { o with data := mergeData o.data p.data p.mask, mask := o.mask ||| p.mask, marks := mergeMarks o.marks p.marks p.whole
           whole := o.whole ||| p.whole, ask := o.ask ||| p.ask, writers := addWriters o.writers p.writers }

/-- A request of a line with no byte. -/
def OutWrite.none (die line : Nat) (leaf : Leaf) (ws : List Writer) : OutWrite := ⟨0, die, line, 0, 0, 0, 0, 0, ws, leaf⟩

/-! ### Drains -/

/-- A line's newest bytes brought to memory, where it is in some slice (R206). -/
def State.drainLine (s : State) (line : Nat) : State :=
  match (List.range 4).findSome? fun d => (s.copyAt line d).map (·.leaf) with
  | some leaf => s.settle.toMemory line leaf
  | none => s

/-- Every line that a test names is removed from every slice, after its newest bytes are brought to memory where `keep` is
set (R310, R326). -/
def State.purgeLines (s : State) (p : Nat → Bool) (keep : Bool) : State :=
  let s := s.settle
  let lines := (s.dirs.keys.filter p)
  let s := if keep then lines.foldl (fun (s : State) l => s.drainLine l) s else s
  { s with dirs := s.dirs.filter fun e => !p e.1, copies := s.copies.filter fun e => !p (e.1 / 4)
           net := s.net.filter fun m => !p m.line, outw := s.outw.filter fun o => !p o.line }

end Sys2Proof.Machine
end

