-- ==== Sys2Proof/Machine/Memory.lean ====
section
/-! DEFINITION. Accesses of groups (R168 to R197, R345 to R348): the L1, stores leaving their queues, versions, loads,
develops, code lines. -/

namespace Sys2Proof.Machine

/-! ### The L1 (R169) -/

def State.l1 (s : State) (core line : Nat) : Option L1Line := (s.core core).l1.find line
def State.setL1 (s : State) (core line : Nat) (v : Option L1Line) : State :=
  s.updCore core fun k => { k with l1 := k.l1.put line v }

/-- An L1 line with nothing valid. -/
def L1Line.none (leaf : Leaf) : L1Line := ⟨0, 0, 0, 0, 0, 0, leaf, []⟩

/-- Chunks taken into a line; its dirty bytes stay, and the marks of a chunk that a store has covered whole. -/
def L1Line.install (l : L1Line) (data : LineData) (poison chunks : BitVec 8) : L1Line :=
  { l with valid := l.valid ||| chunks, data := mergeData l.data data (chunkBytes chunks &&& ~~~l.dirty)
           poison := (l.poison &&& ~~~chunks) ||| mergeMarks (poison &&& chunks) (l.marks &&& chunks) l.whole }

/-- Bytes stored in a line, dirty. A chunk that one store covers whole is valid. -/
def L1Line.store (l : L1Line) (o : OutWrite) : L1Line :=
  { l with valid := l.valid ||| o.whole, data := mergeData l.data o.data o.mask, dirty := l.dirty ||| o.mask
           whole := l.whole ||| o.whole, marks := mergeMarks l.marks o.marks o.whole
           poison := mergeMarks l.poison o.marks o.whole, writers := addWriters l.writers o.writers }

/-- Bytes that go on to the home as they are stored: where the line is valid it takes them, and they are not dirty. -/
def L1Line.through (l : L1Line) (o : OutWrite) : L1Line :=
  { l with data := mergeData l.data o.data o.mask, poison := mergeMarks l.poison o.marks o.whole }

/-- A line whose dirty bytes have gone: chunks that were not valid hold nothing. -/
def L1Line.clean (l : L1Line) : Option L1Line :=
  if l.valid = 0 then Option.none
  else some { l with dirty := 0, whole := 0, marks := 0, poison := l.poison &&& l.valid, writers := [] }

/-- The dirty bytes of a line of a core sent to its home (R169, R206), under the names of those who stored them. -/
def State.l1WriteBack (s : State) (core line : Nat) : State :=
  match s.l1 core line with
  | none => s
  | some l =>
    if l.dirty = 0 then s
    else
      (s.setL1 core line l.clean).startWrite
        { id := s.nextId, die := dieOf core, line := line, data := l.data, mask := l.dirty, marks := l.marks
          whole := l.whole, ask := 0, writers := l.writers, leaf := l.leaf }

/-- Room made for a new line in an L1 of 256 KiB, 2,048 lines (R13, R15): where it is full, the lowest other line is written back and
leaves (assumption 75). -/
def State.roomInL1 (s : State) (core line : Nat) : State :=
  let l1 := (s.core core).l1
  if l1.length < 2048 ∨ (l1.find line).isSome then s
  else
    match l1 with
    | e :: _ => (s.l1WriteBack core e.1).setL1 core e.1 none
    | [] => s

/-- A line put into an L1. -/
def State.putL1 (s : State) (core line : Nat) (l : L1Line) : State := (s.roomInL1 core line).setL1 core line (some l)

/-- Whether a line belongs to a context or to the window. -/
def lineOfCtx (ctx line : Nat) : Bool := keyTag (line * 128) == ctx || keyTag (line * 128) == 64

/-- The dirty bytes of every line of a core that a test names, sent home. -/
def State.l1WriteBacks (s : State) (core : Nat) (p : Nat → Bool) : State :=
  ((s.core core).l1.filter fun e => p e.1 && e.2.dirty != 0).foldl (fun s e => s.l1WriteBack core e.1) s

/-- Every line of a core that a test names removed; its dirty bytes must have gone. -/
def State.l1Drop (s : State) (core : Nat) (p : Nat → Bool) : State :=
  s.updCore core fun k => { k with l1 := k.l1.filter fun e => !p e.1 }

/-- The clean chunks of a span removed from a core's L1 (R168): engine writes invalidate the issuing core's copies. -/
def State.l1Stale (s : State) (core line : Nat) (chunks : BitVec 8) : State :=
  match s.l1 core line with
  | none => s
  | some l =>
    let l := { l with valid := l.valid &&& ~~~chunks, dirty := l.dirty &&& ~~~(chunkBytes chunks), poison := l.poison &&& ~~~chunks }
    s.setL1 core line (if l.valid = 0 && l.dirty = 0 then none else some l)

/-- A context's dirty bytes in a core's L1 sent home and performed (R173, R175). -/
def State.l1Flush (s : State) (core ctx : Nat) : State := (s.l1WriteBacks core (lineOfCtx ctx)).settle

/-- The lines of a context in an L1 after an acquire: only dirty bytes stay (R175). -/
def State.l1Acquire (s : State) (core ctx : Nat) : State :=
  s.updCore core fun k =>
    { k with l1 := (k.l1.filter fun e => !(lineOfCtx ctx e.1 && e.2.dirty == 0)).map fun e =>
        if lineOfCtx ctx e.1 then (e.1, { e.2 with valid := e.2.whole }) else e }

/-! ### Versions (R185, R345 to R347) -/

/-- The key under which a version's own order of a chunk is kept. -/
def verKey (t chunk : Nat) : Nat := 2 ^ 64 * (t + 1) + chunk

/-- Whether a chunk carries the mark in a table of held bytes. -/
def heldMark (t : Tab (Byte × Bool)) (chunk : Nat) : Bool :=
  (List.range 16).any fun j => ((t.find (16 * chunk + j)).map (·.2)).getD false

/-- A write put into a table of held bytes, chunk by chunk as R193 gives: a chunk that it covers whole without a mark is clean, and
any other keeps or takes the mark. The list names the chunks that one write has covered whole. -/
def holdBytes (h : Tab (Byte × Bool) × List Nat) (key : Nat) (bs : List (Byte × Bool)) : Tab (Byte × Bool) × List Nat :=
  let put := (bs.zip (List.range bs.length)).foldl (fun b e => b.ins (key + e.2) e.1) h.1
  (List.range ((key + bs.length + 15) / 16 - key / 16)).foldl (fun (h' : Tab (Byte × Bool) × List Nat) i =>
    let c := key / 16 + i
    if decide (key ≤ 16 * c ∧ 16 * c + 16 ≤ key + bs.length) && !heldMark put c then
      (h'.1, if h'.2.contains c then h'.2 else h'.2 ++ [c])
    else if heldMark h.1 c || heldMark put c then
      ((List.range 16).foldl (fun (b : Tab (Byte × Bool)) j =>
        match b.find (16 * c + j) with
        | some x => b.ins (16 * c + j) (x.1, true)
        | none => b) h'.1, h'.2)
    else h') (put, h.2)

/-- A version with bytes held. -/
def Version.add (v : Version) (key : Nat) (bs : List (Byte × Bool)) : Version :=
  let h := holdBytes (v.bytes, v.whole) key bs
  { v with bytes := h.1, whole := h.2 }

/-- A version with bytes held that a writer has stored. -/
def Version.addBy (v : Version) (w : Writer) (key : Nat) (bs : List (Byte × Bool)) : Version :=
  { (v.add key bs) with
    writers := (List.range ((key + bs.length + 127) / 128 - key / 128)).foldl (fun (t : Tab (List Writer)) i =>
      t.ins (key / 128 + i) (addWriters (Tab.get [] t (key / 128 + i)) [w])) v.writers }

/-- How many lines the tasks of a die hold, those of develops in progress among them (R347). -/
def State.heldLines (s : State) (die : Nat) : Nat :=
  (s.teams.filter fun e => dieOf e.2.core == die).foldl (fun n e =>
    n + e.2.ver.lines + ((e.2.dev.map fun d => d.ver.lines).getD 0)) 0

/-- Whether a larger version of a team keeps within both limits (R347). -/
def State.fits (s : State) (r : TeamRec) (v : Version) : Bool :=
  decide (v.lines ≤ 32768) && decide (s.heldLines (dieOf r.core) + v.lines ≤ 393216 + r.ver.lines)

/-- The marks of a same-core store: the chunks that loads of the core's groups may find stored by one of them (R172). -/
def State.markStored (s : State) (core key n : Nat) : State :=
  s.updCore core fun k =>
    { k with stored := (List.range ((key + n + 15) / 16 - key / 16)).foldl (fun b i => Tab.set false b (key / 16 + i) true) k.stored }

/-- Bytes that enter a writer's task's version. A version that was empty takes them past the limit too: the develop that this forces has
nothing to develop, and marks the task (R347). -/
def State.enter (s : State) (w : Writer) (key : Nat) (bs : List (Byte × Bool)) : State :=
  let t := w.team
  match s.team t with
  | none => s
  | some r =>
    let v := r.ver.addBy w key bs
    let past := !s.fits r v
    let s := (s.updTeam t fun r => { r with ver := v, partDev := r.partDev || past }).markStored r.core key bs.length
    (List.range ((key + bs.length + 15) / 16 - key / 16)).foldl (fun s i => s.wrote (verKey t (key / 16 + i))) s

/-- Whether held bytes may enter a task's version now: within the limits, or into an empty version with no develop in progress
(R347; assumption 92). -/
def State.mayEnter (s : State) (r : TeamRec) (v : Version) : Bool := s.fits r v || (r.ver.isEmpty && r.dev.isNone)

/-- A forced develop begins, where none is in progress (R346, R347): the version develops, and new writes enter an empty one. What the
task has issued comes before it, and what it issues from now on after it. -/
def State.forceDevelop (s : State) (t : Nat) : State :=
  match s.team t with
  | some r =>
    if r.dev.isSome then s
    else { s with nextId := s.nextId + 1 }.updTeam t fun r => { r with dev := some ⟨r.ver, true, none, s.nextId⟩, ver := .empty }
  | none => s

/-- Bytes held in a writer's task's version (R347): false where a limit makes them wait for a develop of the task, which is forced. -/
def State.hold (s : State) (w : Writer) (key : Nat) (bs : List (Byte × Bool)) : Bool × State :=
  match s.team w.team with
  | none => (true, s)
  | some r => if s.mayEnter r (r.ver.add key bs) then (true, s.enter w key bs) else (false, s.forceDevelop w.team)

/-- A held byte put into a write of its line. -/
def OutWrite.putByte (o : OutWrite) (key : Nat) (b : Byte × Bool) : OutWrite :=
  { o with
    data := o.data ||| (BitVec.ofNat 1024 b.1.toNat <<< (8 * (key % 128)))
    mask := o.mask ||| ((1 : BitVec 128) <<< (key % 128))
    marks := if b.2 then o.marks ||| BitVec.ofNat 8 (2 ^ (key % 128 / 16)) else o.marks }

/-- The writes of held bytes, one for each line, under the names of those who wrote it. -/
def heldWrites (die : Nat) (leafOf : Nat → Leaf) (ws : Nat → List Writer) (bytes : Tab (Byte × Bool)) (whole : List Nat) : List OutWrite :=
  let covered := fun line => (List.range 8).foldl (fun (a : BitVec 8) i =>
    if whole.contains (line * 8 + i) then a ||| BitVec.ofNat 8 (2 ^ i) else a) 0
  bytes.foldr (fun (e : Nat × Byte × Bool) (os : List OutWrite) =>
    let line := e.1 / 128
    let new : OutWrite := { OutWrite.none die line (leafOf line) (ws line) with whole := covered line }
    match os with
    | o :: r => if o.line = line then o.putByte e.1 e.2 :: r else new.putByte e.1 e.2 :: o :: r
    | [] => [new.putByte e.1 e.2]) []

/-! ### Stores (R169, R172, R196) -/

/-- The check that a group's own access makes. -/
def groupAcc (r : TeamRec) (req : Req) (kind acc : Nat) : Acc := ⟨req, r.ctx, kind, acc, dieOf r.core, r.core % 40⟩

/-- A write by an agent on a core's die that is performed at its home, after the core's dirty bytes of the line, with the
core's own copies made stale (R168). -/
def State.engineWrite (s : State) (core : Nat) (o : OutWrite) : State :=
  let s := (s.l1WriteBack core o.line).settle
  (s.cohWrite o).l1Stale core o.line (chunksOf o.mask)

/-- A port recorded as written by a team (R184). -/
def TeamRec.wrotePort (r : TeamRec) (l : Leaf) : TeamRec :=
  if l.host && !r.ports.contains l.port then { r with ports := r.ports ++ [l.port] } else r

/-- The flush reads of the ports that a team has written (R184). -/
def State.flushPorts (s : State) (t : Nat) : State :=
  let ports := ((s.team t).map (·.ports)).getD []
  (ports.foldl (fun (s : State) p => s.emit (.flush p)) s).updTeam t fun r => { r with ports := [] }

/-- The entries of a store queue that go with one: the lanes of the same instruction that touch its line (R194). -/
def storeMates (ctx : Nat) (e : StoreEnt) (q : List StoreEnt) : List StoreEnt :=
  q.filter fun x => x.act == .store && x.id == e.id && x.esc == e.esc && byteKey ctx x.va / 128 == byteKey ctx e.va / 128

/-- The request of entries of one line. -/
def storeWrite (r : TeamRec) (w : Writer) (e : StoreEnt) (mates : List StoreEnt) (leaf : Leaf) : OutWrite :=
  mates.foldl (fun o x => o.append (lineWrite (dieOf r.core) (byteKey r.ctx x.va) leaf x.bytes x.marks [w]))
    { OutWrite.none (dieOf r.core) (byteKey r.ctx e.va / 128) leaf [w] with id := e.id }

/-- A request of stores into the L1, and on to the home at `.die` or wider (R169). -/
def State.storeBytes (s : State) (t : Nat) (r : TeamRec) (o : OutWrite) (sc : Scope) : State :=
  let s := (List.range 8).foldl (fun (s : State) i =>
    if (chunksOf o.mask).getLsbD i then s.markStored r.core (o.line * 128 + 16 * i) 16 else s) s
  if o.leaf.host then (s.cohWrite o).updTeam t fun r => r.wrotePort o.leaf
  else
    match sc with
    | .grp | .team => s.putL1 r.core o.line (((s.l1 r.core o.line).getD (L1Line.none o.leaf)).store o)
    | _ =>
      let s := match s.l1 r.core o.line with
        | some l => if l.dirty &&& o.mask != 0 then s.l1WriteBack r.core o.line else s
        | none => s
      (match s.l1 r.core o.line with
       | some l => s.setL1 r.core o.line (some (l.through o))
       | none => s).startWrite o

/-- Every port whose host memory a page of a context's range maps, by the leaves that stand in the translation caches and tables. -/
def State.hostPorts (s : State) (ctx lo hi : Nat) : List Port :=
  let pages := (List.range ((hi + 65535) / 65536 - lo / 65536)).map fun i => byteKey ctx ((lo / 65536 + i) * 65536)
  [Port.a, Port.b].filter fun p => pages.any fun key =>
    match s.silentLeaf key with
    | some l => l.host && l.port == p
    | none => false

/-- CCTL's write-back, invalidation and drain of a range (R205, R206). -/
def State.cacheAct (s : State) (r : TeamRec) (e : StoreEnt) (len : Nat) (inv drain : Bool) : State :=
  let lo := e.va / 128
  let hi := min (e.va + len + 127) (2 ^ 57) / 128
  let within := fun line => lineOfCtx r.ctx line && decide (lo ≤ keyVa (line * 128) / 128 ∧ keyVa (line * 128) / 128 < hi)
  if len = 0 then s
  else
    let s := s.l1WriteBacks r.core within
    let s := if inv then s.l1Drop r.core within else s
    if drain then
      let s := s.settle
      let s := (s.dirs.keys.filter within).foldl (fun (s : State) l => s.drainLine l) s
      (s.hostPorts r.ctx (lo * 128) (hi * 128)).foldl (fun (s : State) p => s.emit (.flush p)) s
    else s

/-- An entry of a store queue removed, with those that went with it. -/
def State.popStores (s : State) (t g : Nat) (gone : List StoreEnt) : State :=
  s.updGroup t g fun k => { k with storeQ := k.storeQ.filter fun x => !gone.contains x }

/-- Whether an entry of a store queue must still wait: for every earlier load and ATOM of its group (R97, R170, R172; assumption 76); an
entry that no version holds also for a develop that comes before it (R185). Behind a trap condition of its group it does nothing (R97). -/
def Group.storeWaits (k : Group) (r : TeamRec) (g : Nat) (e : StoreEnt) : Bool :=
  (k.loads.any fun l => decide (l.id < e.id)) || (k.atoms.any fun a => decide (a.id < e.id)) || r.barred g e.id ||
  ((e.esc || e.act != .store) && (r.dev.any fun d => decide (d.born ≤ e.id)))

/-- An entry that leaves a store queue toward memory: a request of its line (R194), or CCTL's work on its range. -/
def State.sendStore (s : State) (t g : Nat) (r : TeamRec) (k : Group) (e : StoreEnt) : State :=
  match e.act with
  | .wb n => (s.cacheAct r e n false false).popStores t g [e]
  | .inv n => (s.cacheAct r e n true false).popStores t g [e]
  | .drain n => (s.cacheAct r e n true true).popStores t g [e]
  | .store =>
    let key := byteKey r.ctx e.va
    let a := groupAcc r (.store t g) 0 2
    if s.blocked a.req then s
    else
      match s.xlate a key with
      | .held => s.park a key
      | .miss => s.await a key
      | .bad c d st => (s.notice a key st).failAccess a.req key c d
      | .ok leaf =>
        let mates := storeMates r.ctx e k.storeQ
        (s.storeBytes t r (storeWrite r ⟨t, g, e.lpc, r.grid, e.id⟩ e mates leaf) e.scope).popStores t g mates

/-- The head of a group's store queue leaves it (R172): into the version, the L1, or toward its home. While a held store waits for a
develop, the first escape behind it goes on (assumption 77). -/
def State.drainStore (s : State) (t g : Nat) : State :=
  match s.team t, s.group t g with
  | some r, some k =>
    match k.storeQ.head? with
    | none => s
    | some e =>
      if k.storeWaits r g e then s
      else if r.d.latent && e.act == .store && !e.esc then
        match s.hold ⟨t, g, e.lpc, r.grid, e.id⟩ (byteKey r.ctx e.va) (e.bytes.zip e.marks) with
        | (true, s) => s.updGroup t g fun k => { k with storeQ := k.storeQ.tail }
        | (false, s) =>
          match k.leaver true with
          | some x => if k.storeWaits r g x then s else s.sendStore t g r k x
          | none => s
      else s.sendStore t g r k e
  | _, _ => s

/-! ### Loads (R169, R172, R185, R186, R196, R211) -/

/-- An access's size in bytes (R25). -/
def widthBytes : Width → Nat
  | .w8 => 1 | .w16 => 2 | .w32 => 4 | .w64 => 8 | .w128 => 16

/-- One lane's piece of a load: its address and how many bytes. -/
structure Piece where
  lane : Nat
  va : Nat
  n : Nat

/-- The pieces of a load, in lane order. -/
def LoadOp.pieces (l : LoadOp) : List Piece :=
  l.lanes.map fun e => ⟨e.1, e.2, match l.kind with | .ld wd _ => widthBytes wd | .ldp => 4⟩

/-- The chunks that bytes at an offset of a line touch. -/
def touched (o n : Nat) : BitVec 8 := chunksOf (spanMask o n)

/-- Bytes that a later write at a key replaces, with the marks that its chunks then carry (R193). -/
def overlay (key : Nat) (base : List (Byte × Bool)) (at_ : Nat) (bs : List (Byte × Bool)) : List (Byte × Bool) :=
  base.mapIdx fun i b =>
    let c := (key + i) / 16
    let marked := (bs.zip (List.range bs.length)).any fun e => e.1.2 && (at_ + e.2) / 16 == c
    (if at_ ≤ key + i ∧ key + i < at_ + bs.length then (bs.getD (key + i - at_) b).1 else b.1,
     marked || (b.2 && !decide (at_ ≤ 16 * c ∧ 16 * c + 16 ≤ at_ + bs.length)))

/-- The same for the bytes of a version. -/
def overlayVer (key : Nat) (base : List (Byte × Bool)) (v : Version) : List (Byte × Bool) :=
  base.mapIdx fun i b =>
    let c := (key + i) / 16
    (((v.bytes.find (key + i)).map (·.1)).getD b.1, heldMark v.bytes c || (b.2 && !v.whole.contains c))

/-- The stores of a queue that a test names, over bytes. -/
def overlayQ (ctx key : Nat) (base : List (Byte × Bool)) (q : List StoreEnt) (p : StoreEnt → Bool) : List (Byte × Bool) :=
  (q.filter fun e => e.act == .store && p e).foldl (fun b e => overlay key b (byteKey ctx e.va) (e.bytes.zip e.marks)) base

/-- A line as a read of a group sees it, with the state after the caches have served it (R169, R194): from the L1 at `.grp` and
`.team` where it holds the chunks, else from the home or a replica, with the chunks installed. -/
def State.lineFor (s : State) (r : TeamRec) (line : Nat) (leaf : Leaf) (chunks : BitVec 8) (near : Bool) :
    LineData × BitVec 8 × State :=
  let want := grainChunks chunks
  let l := (s.l1 r.core line).getD (L1Line.none leaf)
  if near && (l.valid &&& chunks) == chunks then (l.data, l.poison, s)
  else
    let s := if near then s else s.l1WriteBack r.core line
    let v := s.cohRead (dieOf r.core) (line * 128) leaf want
    if leaf.host then v
    else
      let s := v.2.2
      let l := ((s.l1 r.core line).getD (L1Line.none leaf)).install v.1 v.2.1 want
      (l.data, l.poison, s.putL1 r.core line l)

/-- The leaf of a load's piece: the tag of an L1 line that serves it, else the translation (R321). -/
def State.xlateNear (s : State) (a : Acc) (core key : Nat) (chunks : BitVec 8) (near : Bool) : Xl :=
  match s.l1 core (key / 128) with
  | some l => if near && (l.valid &&& chunks) == chunks && !s.purging key then s.judge a key l.leaf else s.xlate a key
  | none => s.xlate a key

/-- Whether an earlier access of the group to a chunk of a load is still to come (R170). -/
def Group.earlier (k : Group) (id : Nat) (ps : List Piece) : Bool :=
  let mine := ps.map fun p => p.va / 16
  (k.loads.any fun l => decide (l.id < id) && l.pieces.any fun p => mine.contains (p.va / 16)) ||
  (k.atoms.any fun x => decide (x.id < id) && x.lanes.any fun e => mine.contains (e.2.1 / 16))

/-- Whether every tracked read of a transaction is still the latest write (R213). -/
def State.txValid (s : State) (x : TxState) : Bool := x.reads.all fun e => Tab.get 0 s.serials e.1 == e.2

/-- A transaction's record of a read of bytes (R213). -/
def State.track (s : State) (t : Nat) (latent : Bool) (x : TxState) (key n : Nat) : TxState :=
  (List.range ((key + n + 15) / 16 - key / 16)).foldl (fun (x : TxState) i =>
    let c := key / 16 + i
    let put := fun (x : TxState) k =>
      match x.reads.find k with
      | some _ => x
      | none => { x with reads := x.reads.ins k (Tab.get 0 s.serials k) }
    let x := put x c
    if latent then put x (verKey t c) else x) x

/-- Bytes at a key as a read of serial number `id` sees them over what stands in memory: the group's earlier stores that no version
holds, then for a plain read the develop in progress, the version, the held stores still queued, and the earlier writes of the lane's
transaction (R172, R185, R186, R211). -/
def laneBytes (r : TeamRec) (k : Group) (id : Nat) (plain : Bool) (tx : Option TxState) (key : Nat) (base : List (Byte × Bool)) :
    List (Byte × Bool) :=
  let b := overlayQ r.ctx key base k.storeQ fun e => decide (e.id < id) && (e.esc || !r.d.latent)
  let b :=
    if plain && r.d.latent then
      let b := match r.dev with
        | some d => overlayVer key b d.ver
        | none => b
      overlayQ r.ctx key (overlayVer key b r.ver) k.storeQ fun e => decide (e.id < id) && !e.esc
    else b
  match tx with
  | some x => (x.writes.filter fun w => decide (w.id < id)).foldl (fun b w => overlay key b w.key w.bytes) b
  | none => b

/-- The words of a load's result (R196). -/
def loadWords (kind : LoadKind) (bs : List (Byte × Bool)) : List RWord :=
  let word := fun i =>
    let b := (bs.drop (4 * i)).take 4
    (⟨BitVec.ofNat 32 (leNat (b.map (·.1))), b.any (·.2)⟩ : RWord)
  match kind with
  | .ld .w8 sx => let w := word 0; [if sx then { w with bits := (w.bits.setWidth 8).signExtend 32 } else w]
  | .ld .w16 sx => let w := word 0; [if sx then { w with bits := (w.bits.setWidth 16).signExtend 32 } else w]
  | .ld .w32 _ => [word 0]
  | .ld .w64 _ | .ldp => [word 0, word 1]
  | .ld .w128 _ => [word 0, word 1, word 2, word 3]

/-- A lane's relay with the words of a pending operation put in. -/
def Lane.land (l : Lane) (id : Nat) (ws : List RWord) : Lane :=
  { l with relay := l.relay.map fun e => if e.pend = some id then { e with words := ws, pend := Option.none } else e }

/-- A result that lands in a lane: its register words and its relay entry. -/
def Lane.deliver (l : Lane) (dst : Option Nat) (id : Nat) (ws : List RWord) : Lane :=
  (match dst with
   | some n => l.setRegs n ws
   | .none => l).land id ws

/-- The lines that a load's pieces touch, each with its chunks and leaf. -/
def pieceLines (ctx : Nat) (ps : List (Piece × Leaf)) : List (Nat × BitVec 8 × Leaf) :=
  ps.foldl (fun (a : List (Nat × BitVec 8 × Leaf)) p =>
    let k := byteKey ctx p.1.va
    let c := touched (k % 128) p.1.n
    if a.any fun e => e.1 == k / 128 then a.map fun e => if e.1 == k / 128 then (e.1, e.2.1 ||| c, e.2.2) else e
    else a ++ [(k / 128, c, p.2)]) []

/-- The result of a load in one lane: its record after its tracked reads, its words, or none where it aborts (R211, R213). -/
def State.laneLoad (s : State) (t : Nat) (r : TeamRec) (k : Group) (l : LoadOp) (lines : List (Nat × LineData × BitVec 8))
    (i : Nat) : Lane × Option (List RWord) :=
  let ln := k.lane i
  let tx := if l.tx.contains i then ln.tx else none
  let ps := l.pieces.filter fun p => p.lane == i
  let bytes := ps.flatMap fun p =>
    let key := byteKey r.ctx p.va
    let v := ((lines.find? fun e => e.1 == key / 128).map (·.2)).getD (0, 0)
    let base := (List.range p.n).map fun j =>
      (v.1.extractLsb' (8 * (key % 128 + j)) 8, v.2.getLsbD ((key % 128 + j) / 16))
    (laneBytes r k l.id (!l.esc) tx key base).map fun b => (b.1, b.2 || l.cut.contains i)
  let ws := loadWords l.kind bytes
  match tx with
  | some x =>
    if !s.txValid x || bytes.any (·.2) then (ln.abort, none)
    else ({ ln with tx := some (ps.foldl (fun x p => s.track t r.d.latent x (byteKey r.ctx p.va) p.n) x) }, some ws)
  | none => (ln, some ws)

/-- Whether a load must still wait: for the group's earlier accesses to its chunks (R170), for a develop that comes before it (R185),
and, where a store of the core may have written what it returns or its own queue holds such a store, for every earlier load of the group
(R172; assumption 76). -/
def State.loadWaits (s : State) (r : TeamRec) (k : Group) (l : LoadOp) : Bool :=
  k.earlier l.id l.pieces || (r.dev.any fun d => decide (d.born ≤ l.id)) ||
  ((k.loads.any fun o => decide (o.id < l.id)) &&
   l.pieces.any fun p => Tab.get false (s.core r.core).stored (byteKey r.ctx p.va / 16) ||
     k.storeQ.any fun e => e.act == .store && decide (e.id < l.id) && (e.va / 16 == p.va / 16))

/-- A load's data returns (R196), once nothing earlier holds it and every piece translates. -/
def State.finishLoad (s : State) (t g id : Nat) : State :=
  match s.team t, s.group t g with
  | some r, some k =>
    match k.loads.find? fun l => l.id == id with
    | none => s
    | some l =>
      let ps := l.pieces
      let near := (l.scope == .grp || l.scope == .team) && l.tx.isEmpty
      let a := groupAcc r (.load t g id) 0 1
      if s.blocked a.req || s.loadWaits r k l then s
      else
        let xs := ps.map fun p =>
          let key := byteKey r.ctx p.va
          (p, key, s.xlateNear a r.core key (touched (key % 128) p.n) near)
        match xs.findSome? fun x => match x.2.2 with | .bad c d st => some (x.2.1, c, d, st) | _ => none with
        | some (key, c, d, st) => (s.notice a key st).failAccess a.req key c d
        | none =>
          if xs.any fun x => match x.2.2 with | .ok _ => false | _ => true then
            xs.foldl (fun s x => match x.2.2 with | .miss => s.await a x.2.1 | .held => s.park a x.2.1 | _ => s) s
          else
            let good := xs.filterMap fun x => match x.2.2 with | .ok lf => some (x.1, lf) | _ => none
            let got := (pieceLines r.ctx good).foldl (fun (acc : List (Nat × LineData × BitVec 8) × State) e =>
              let v := acc.2.lineFor r e.1 e.2.2 e.2.1 near
              (acc.1 ++ [(e.1, v.1, v.2.1)], v.2.2)) ([], s)
            got.2.updGroup t g fun k =>
              let k' := { k with loads := k.loads.filter fun l => l.id != id }
              let res := (l.lanes.map (·.1)).map fun i => (i, got.2.laneLoad t r k l got.1 i)
              (k'.mapLanes fun i ln =>
                match res.find? fun e => e.1 == i with
                | some (_, ln, some ws) => ln.deliver l.dst id ws
                | some (_, ln, none) => ln
                | none => ln).forget ((res.filter fun e => e.2.2.isNone).map (·.1))
  | _, _ => s

/-! ### Develops (R185, R346 to R350) -/

/-- The first held byte of each line of a version: a develop that fails names it. -/
def Version.firsts (v : Version) : List Nat :=
  (v.bytes.foldl (fun (l : List Nat) e => match l with
    | k :: _ => if k / 128 = e.1 / 128 then l else e.1 :: l
    | [] => [e.1]) []).reverse

/-- The held launches of a version, placed in the device launch queue of the team's die (R284). -/
def State.placeLaunches (s : State) (r : TeamRec) (v : Version) : State :=
  let q := r.ctx * 4 + dieOf r.core
  if v.launches.isEmpty then s
  else { s with launchQ := s.launchQ.ins q (Tab.get [] s.launchQ q ++ v.launches) }

/-- Whether the DEVELOP at which a group waits may begin in a cycle: one after that of its issue, with none of the group's held stores left
in its queue (R348), no trap condition before it (R97), and no lower group waiting at a DEVELOP of the same cycle (R351; assumption 103). -/
def TeamRec.mayDevelop (r : TeamRec) (cycle g : Nat) (k : Group) : Bool :=
  match k.wait with
  | .develop id c =>
    decide (c < cycle) && !(k.storeQ.any fun x => x.act == .store && !x.esc) && !r.barred g id &&
    !(r.groups.any fun (e : Nat × Group) => decide (e.1 < g) && (match e.2.wait with | .develop _ c' => c' == c | _ => false))
  | _ => false

/-- The group whose DEVELOP begins next: the lowest that may. -/
def TeamRec.developer (r : TeamRec) (cycle : Nat) : Option Nat :=
  (r.groups.find? fun (e : Nat × Group) => r.mayDevelop cycle e.1 e.2).map (·.1)

/-- A team whose DEVELOP has begun, where one waits and no develop is in progress (R346). -/
def TeamRec.developing (r : TeamRec) (cycle born : Nat) : TeamRec :=
  match r.dev, r.developer cycle with
  | none, some g => { r with dev := some ⟨r.ver, false, some g, born⟩, ver := .empty }
  | _, _ => r

/-- Whether a copy still has a lane to read. -/
def CopyOp.reads (c : CopyOp) : Bool := c.lanes.any fun l => !(c.got.any fun e => e.1 == l.1)

/-- How many chunks intervals hold. -/
def chunkCount (l : List (Nat × Nat)) : Nat := l.foldl (fun n e => n + (e.2 - e.1)) 0

/-- Whether a bulk copy still has a chunk to read, at this device or at a peer. -/
def BulkOp.reads (b : BulkOp) : Bool := decide (b.got.length < chunkCount b.todo) || (b.remote && b.dir)

/-- Whether a tile instruction still has memory to read: a loop its steps, THAD the rows that it has not begun. -/
def TileOp.reads (o : TileOp) : Bool :=
  match o.kind with
  | .loop _ _ _ => true
  | .had _ _ => o.row.isEmpty || decide (o.next + 1 < (o.desc.getD 5 0).bits 0 16)
  | .qnt _ _ => false

/-- Whether every access that comes before a develop has been performed or has left its queue (R185, R186): loads, ATOMs, escapes,
cache operations, copies, of which a held write need only have read its source, and loops. The rows of THAD and TQNT that are still to be
performed join the next version (R153; assumption 103). -/
def State.beforeDone (s : State) (t : Nat) (r : TeamRec) (born : Nat) : Bool :=
  (r.groups.all fun (e : Nat × Group) =>
    (e.2.loads.all fun l => decide (born ≤ l.id)) && (e.2.atoms.all fun a => decide (born ≤ a.id)) &&
    e.2.storeQ.all fun x => decide (born ≤ x.id) || (x.act == .store && !x.esc)) &&
  (r.copies.all fun c => decide (born ≤ c.id) || (!c.esc && !c.reads)) &&
  ((s.core r.core).bulkQ.all fun b => b.team != t || decide (born ≤ b.id) || (!b.esc && !b.remote && !b.reads)) &&
  (s.core r.core).tileQ.all fun o => o.team != t || decide (born ≤ o.id) || (match o.kind with | .loop _ _ _ => false | _ => true)

/-- Whether the develop that is in progress, or that begins, may be performed: what comes before it is done, no page is awaited, and
the device launch queue has room for its launches (R284). -/
def State.developReady (s : State) (t : Nat) (r : TeamRec) : Bool :=
  match (r.developing s.clock.cycle s.nextId).dev with
  | none => false
  | some d =>
    s.beforeDone t r d.born && !(s.blocked (.develop t)) &&
    decide ((Tab.get [] s.launchQ (r.ctx * 4 + dieOf r.core)).length + d.ver.launches.length ≤ 256)

/-- A develop performed as one event (R185, R417): the dirty bytes of what came before it, then the held writes, then the held
launches, with the flush reads of the ports written. A page that is not present makes it wait; a violation discards the version by
the trap. -/
def State.develop (s : State) (t : Nat) : State :=
  match s.team t with
  | none => s
  | some r₀ =>
    if !s.developReady t r₀ then s
    else
      let r := r₀.developing s.clock.cycle s.nextId
      let s := { (s.updTeam t fun _ => r) with nextId := s.nextId + 1 }
      match r.dev with
      | none => s
      | some d =>
        let a := groupAcc r (.develop t) 0 2
        let keys := d.ver.firsts
        match s.xlates a keys with
        | .bad key c e st => (s.notice a key st).failAccess a.req key c e
        | .wait s => s
        | .ok leaves =>
          let leafOf := fun line => (((keys.zip leaves).find? fun e => e.1 / 128 == line).map (·.2)).getD ⟨0, 0, none⟩
          let s := s.l1Flush r.core r.ctx
          let os := heldWrites (dieOf r.core) leafOf (Tab.get [] d.ver.writers) d.ver.bytes d.ver.whole
          let s := os.foldl (fun (s : State) o => (s.engineWrite r.core o).updTeam t fun r => r.wrotePort o.leaf) s
          let s := (s.placeLaunches r d.ver).flushPorts t
          let s := s.updTeam t fun r => { r with dev := none, partDev := r.partDev || d.forced }
          match d.grp with
          | some g => s.updGroup t g fun k => { k with wait := .none }
          | none => s

/-! ### Code (R20, R21, R321, R325) -/

/-- The line of code with a chunk fetched for a group whose issue address needs it: with X, at `.pkg`, through no L1. The line is
taken whole, so that an instruction inside it is of one moment (R21). A poisoned chunk is not taken, and the group that needs it
traps POISON (assumption 13). -/
def State.fetchCode (s : State) (t g chunk : Nat) : State :=
  match s.team t with
  | none => s
  | some r =>
    let a := groupAcc r (.fetch t g) 5 4
    let key := byteKey r.ctx (r.d.code + chunk * 16)
    if s.blocked a.req then s
    else match s.xlate a key with
    | .bad c d st => (s.notice a key st).failAccess a.req key c d
    | .miss => s.await a key
    | .held => s.park a key
    | .ok leaf =>
      let v := s.cohRead (dieOf r.core) key leaf 255
      let s := v.2.2
      let at_ := key / 16 % 8
      if v.2.1.getLsbD at_ then
        match s.group t g, (s.group t g).bind Group.issueAddr with
        | some k, some pc => s.raise t g tPOISON 0 pc (maskOf (k.lanesAt pc)) 0
        | _, _ => s
      else
        s.updTeam t fun r =>
          { r with icode := (List.range 8).foldl (fun (c : Tab (BitVec 128)) i =>
              if chunk + i < at_ then c
              else if v.2.1.getLsbD i then c.del (chunk + i - at_)
              else c.ins (chunk + i - at_) (v.1.extractLsb' (128 * i) 128)) r.icode }

end Sys2Proof.Machine
end

