-- ==== Sys2Proof/Machine/MemOps.lean ====
section
/-! DEFINITION. Memory instructions (R174, R175, R190 to R215): LD, ST, LDP, STP, ATOM, FENCE, CCTL and lane transactions. -/

namespace Sys2Proof.Machine

/-! ### Addresses and their checks (R190) -/

/-- The 64-bit value of an address pair. -/
def pairNat (ws : List Word) : Nat := (ws.getD 0 0).toNat + (ws.getD 1 0).toNat * 2 ^ 32

/-- Operand `k` of lane `i` as an address. -/
def laneAddr (ins : List LaneIn) (k i : Nat) : Nat := pairNat ((ins.getD i ⟨i, false, Lane.none, [], []⟩).op k)

/-- Word 0 of operand `k` of lane `i`. -/
def laneWord (ins : List LaneIn) (k i : Nat) : Word := (ins.getD i ⟨i, false, Lane.none, [], []⟩).w k 0

/-- An address plus a signed offset modulo 2^64. -/
def plusOff (a : Nat) (off : BitVec 18) : Nat := (((a : Int) + off.toInt) % 2 ^ 64).toNat

/-- Whether bytes at an address reach beyond 2^57. -/
def beyond (a n : Nat) : Bool := decide (2 ^ 57 < a + n)

/-- The lanes that fail a check, as the trap: its code, DETAIL, lanes and the address of the lowest. -/
def failing (code detail : Nat) (ls : List (Nat × Nat)) (p : Nat → Bool) : Option (Nat × Nat × List Nat × Nat) :=
  match ls.filter fun e => p e.2 with
  | [] => none
  | e :: r => some (code, detail, (e :: r).map (·.1), e.2)

/-- Checks 2 and 3 of R190 over the addresses of the executing lanes, for accesses of `n` bytes with the ACCESS bits. -/
def addrTrap (ls : List (Nat × Nat)) (n acc : Nat) : Option (Nat × Nat × List Nat × Nat) :=
  match failing tALIGN 0 ls fun a => a % n != 0 with
  | some f => some f
  | none => failing tMEMPERM (acc + 512) ls fun a => beyond a n

/-- The trap of several checks in order. -/
def firstTrap : List (Option (Nat × Nat × List Nat × Nat)) → Option (Nat × Nat × List Nat × Nat)
  | [] => none
  | some f :: _ => some f
  | none :: r => firstTrap r

/-- A memory instruction: the checks of R46 and POISON, then its address traps, then its accesses. -/
def memInstr (f : Form) (own : Ix → List LaneIn → Option (Nat × Nat × List Nat × Nat)) (body : Ix → List LaneIn → Out) (s : State) :
    Out :=
  ownInstr f (fun x ins =>
    match own x ins with
    | some (code, detail, ls, a) => .next (s.raise x.t x.g code detail x.pc (maskOf ls) a)
    | none => body x ins) s

/-! ### The sets of a transaction (R212) -/

/-- A list with an element added once. -/
def addOnce (l : List Nat) (a : Nat) : List Nat := if l.contains a then l else l ++ [a]

/-- A lane's transaction with lines added to its sets. -/
def TxState.touch (x : TxState) (rd wr : List Nat) : TxState :=
  { x with readLines := rd.foldl addOnce x.readLines, writeLines := wr.foldl addOnce x.writeLines }

/-- The lines of the sets of a group's lanes, summed. -/
def Group.txLines (g : Group) : Nat :=
  g.lanes.foldl (fun n l => n + ((l.tx.map fun x => x.readLines.length + x.writeLines.length).getD 0)) 0

/-- A group whose lanes inside a transaction take lines into their sets; `rd` and `wr` give each lane's. -/
def Group.touchTx (g : Group) (ls : List Nat) (rd wr : Nat → List Nat) : Group :=
  g.mapLanes fun i l => if ls.contains i then { l with tx := l.tx.map fun x => x.touch (rd i) (wr i) } else l

/-- TXCAP where the sets of an access would exceed a limit (R212). -/
def txcap (x : Ix) (rd wr : Nat → List Nat) : Option (Nat × Nat × List Nat × Nat) :=
  let ls := x.inTx
  let g := x.grp.touchTx ls rd wr
  let which := fun (p : TxState → Bool) => ls.filter fun i => ((g.lane i).tx.map p).getD false
  let wide := which fun t => decide (16 < t.readLines.length)
  let wrote := which fun t => decide (8 < t.writeLines.length)
  if ls.isEmpty then none
  else if !wide.isEmpty then some (tTXCAP, 1, wide, 0)
  else if !wrote.isEmpty then some (tTXCAP, 2, wrote, 0)
  else if 256 < g.txLines then some (tTXCAP, 3, [], 0)
  else none

/-- The lines of bytes at an address. -/
def linesAt (ctx a n : Nat) : List Nat :=
  let k := byteKey ctx a
  if k / 128 = (k + n - 1) / 128 then [k / 128] else [k / 128, (k + n - 1) / 128]

/-! ### Loads (R195, R197) -/

/-- An entry of a variable-latency result in the relay (R36, R38). -/
def Lane.pushPending (l : Lane) (sh : Shape) (id born cyc : Nat) : Lane :=
  l.push ⟨sh, List.replicate sh.words RWord.zero, 0, born, cyc, some id⟩

/-- The number of a register destination. -/
def dstNum : LDst → Option Nat
  | .v n => some n.val
  | .z => none

/-- Escapes counted in a task (R349). -/
def State.escape (s : State) (t n : Nat) : State :=
  s.updTeam t fun r => if r.d.latent then { r with escapes := r.escapes + n } else r

/-- A load issued for the executing lanes (R195 to R197, R211). -/
def issueLoad (f : Form) (kind : LoadKind) (sh : Shape) (dst : Option Nat) (sc : Scope) (esc : Bool) (x : Ix)
    (ls : List (Nat × Nat)) (tracked : Nat → List Nat) (s : State) : Out :=
  match x.ex with
  | [] => .next (s.finish x f noJump id)
  | _ =>
    let op : LoadOp := ⟨s.nextId, x.pc, kind, sc, esc, dst, ls, if esc then [] else x.inTx, []⟩
    let s := if esc then s.escape x.t x.ex.length else s
    .next ({ s with nextId := s.nextId + 1 }.finish x f noJump fun g =>
      let g := if esc then g else g.touchTx x.inTx tracked (fun _ => [])
      { (g.mapLanes fun i l => if x.ex.contains i then l.pushPending sh op.id g.dist s.clock.cycle else l) with
        loads := g.loads ++ [op] })

def execLd (h : Hd) (rd : LDst) (ra : Base) (wd : Width) (sc : Scope) (esc : Bool) (sx : Bool) (off : BitVec 18) (s : State) : Out :=
  let f := formOf (.ld h rd ra wd sc esc sx off)
  let at_ := fun (x : Ix) ins => x.ex.map fun i => (i, plusOff (laneAddr ins 0 i) off)
  let lines := fun (x : Ix) ins i => linesAt x.team.ctx (plusOff (laneAddr ins 0 i) off) (widthBytes wd)
  memInstr f (fun x ins => firstTrap [addrTrap (at_ x ins) (widthBytes wd) 1,
      if esc then none else txcap x (lines x ins) fun _ => []])
    (fun x ins => issueLoad f (.ld wd sx) wd.shape (dstNum rd) sc esc x (at_ x ins) (lines x ins) s) s

/-- The lanes' variance addresses of LDP and STP (R197). -/
def planeTrap (ls : List (Nat × Nat × Nat)) (acc : Nat) : Option (Nat × Nat × List Nat × Nat) :=
  let means := ls.map fun e => (e.1, e.2.1)
  let bad := fun (p : Nat × Nat → Bool) => ls.filter fun e => p e.2
  let trap := fun code detail (l : List (Nat × Nat × Nat)) =>
    match l with
    | [] => none
    | e :: r => some (code, detail, (e :: r).map (·.1), e.2.1)
  firstTrap [
    trap tALIGN 0 (bad fun e => e.1 % 4 != 0 || e.2 % 4 != 0),
    if means.isEmpty then none else trap tMEMPERM (acc + 512) (bad fun e => beyond e.1 4 || beyond ((e.1 + e.2) % 2 ^ 64) 4)]

def execLdp (h : Hd) (rd : LDst) (ra : Base) (rb : Src) (sc : Scope) (esc : Bool) (s : State) : Out :=
  let f := formOf (.ldp h rd ra rb sc esc)
  let at_ := fun (x : Ix) ins => x.ex.map fun i => (i, laneAddr ins 0 i, (laneWord ins 1 i).toNat)
  let lines := fun (x : Ix) ins i =>
    linesAt x.team.ctx (laneAddr ins 0 i) 4 ++ linesAt x.team.ctx ((laneAddr ins 0 i + (laneWord ins 1 i).toNat) % 2 ^ 64) 4
  memInstr f (fun x ins => firstTrap [planeTrap (at_ x ins) 1, if esc then none else txcap x (lines x ins) fun _ => []])
    (fun x ins => issueLoad f .ldp .M (dstNum rd) sc esc x ((at_ x ins).flatMap fun e => [(e.1, e.2.1), (e.1, (e.2.1 + e.2.2) % 2 ^ 64)])
      (lines x ins) s) s

/-! ### Stores (R195, R197) -/

/-- A word's bytes with its mark. -/
def wordBytes (w : RWord) : List (Byte × Bool) := (List.range 4).map fun i => (w.bits.extractLsb' (8 * i) 8, w.poison)

/-- Bytes held by a lane's transaction (R211), at the place of their instruction in its program order. -/
def TxState.hold (x : TxState) (id key : Nat) (bs : List (Byte × Bool)) : TxState :=
  { x with writes := (x.writes.filter fun w => decide (w.id ≤ id)) ++ [⟨id, key, bs⟩] ++ x.writes.filter fun w => decide (id < w.id) }

/-- Stores issued for the executing lanes: each lane's pieces as address and bytes, in the order in which they are made (R172,
R196, R211). -/
def issueStores (f : Form) (sc : Scope) (esc : Bool) (x : Ix) (pieces : Nat → List (Nat × List (Byte × Bool))) (s : State) : Out :=
  match x.ex with
  | [] => .next (s.finish x f noJump id)
  | _ =>
    let ent := fun i (p : Nat × List (Byte × Bool)) =>
      (⟨s.nextId, .store, i, x.pc, p.1, p.2.map (·.1), p.2.map (·.2), sc, esc⟩ : StoreEnt)
    let outside := x.ex.filter fun i => (x.grp.lane i).tx.isNone
    let s := if esc then s.escape x.t outside.length else s
    .next ({ s with nextId := s.nextId + 1 }.finish x f noJump fun g =>
      let g := if esc then g else g.touchTx x.inTx (fun _ => []) fun i =>
        (pieces i).flatMap fun (p : Nat × List (Byte × Bool)) => linesAt x.team.ctx p.1 p.2.length
      { (g.mapLanes fun i l =>
          if x.ex.contains i then
            match l.tx with
            | some t =>
              if esc then { l with tx := some { t with escs := t.escs ++ (pieces i).map (ent i) } }
              else { l with tx := some ((pieces i).foldl (fun (t : TxState) (p : Nat × List (Byte × Bool)) => t.hold s.nextId (byteKey x.team.ctx p.1) p.2) t) }
            | none => l
          else l) with
        storeQ := g.storeQ ++ outside.flatMap fun i => (pieces i).map (ent i) })

/-- Source `k` of a form as a lane reads it, with its marks. -/
def Ix.source (x : Ix) (f : Form) (k i : Nat) : List RWord := (f.uses.getD k (use 0 .z .P)).read x.grp i

def execSt (h : Hd) (rd : LSrc) (ra : Base) (wd : Width) (sc : Scope) (esc : Bool) (off : BitVec 18) (s : State) : Out :=
  let f := formOf (.st h rd ra wd sc esc off)
  let addr := fun ins i => plusOff (laneAddr ins 1 i) off
  memInstr f (fun x ins => firstTrap [addrTrap (x.ex.map fun i => (i, addr ins i)) (widthBytes wd) 2,
      if esc then none else txcap x (fun _ => []) fun i => linesAt x.team.ctx (addr ins i) (widthBytes wd)])
    (fun x ins => issueStores f sc esc x (fun i =>
      [(addr ins i, ((x.source f 0 i).flatMap wordBytes).take (widthBytes wd))]) s) s

def execStp (h : Hd) (rd : LSrc) (ra : Base) (rb : Src) (sc : Scope) (esc : Bool) (s : State) : Out :=
  let f := formOf (.stp h rd ra rb sc esc)
  let mean := fun ins i => laneAddr ins 1 i
  let var := fun ins i => (laneAddr ins 1 i + (laneWord ins 2 i).toNat) % 2 ^ 64
  memInstr f (fun x ins => firstTrap [planeTrap (x.ex.map fun i => (i, mean ins i, (laneWord ins 2 i).toNat)) 2,
      if esc then none else txcap x (fun _ => []) fun i =>
        linesAt x.team.ctx (mean ins i) 4 ++ linesAt x.team.ctx (var ins i) 4])
    (fun x ins => issueStores f sc esc x (fun i =>
      [(mean ins i, wordBytes ((x.source f 0 i).getD 0 RWord.zero)), (var ins i, wordBytes ((x.source f 0 i).getD 1 RWord.zero))]) s) s

/-! ### Atomics (R199 to R204) -/

/-- The number of an ATOM's operation, with 16 for `.U`. -/
def atomCode : AtomOp → Nat
  | .add => 0 | .fadd => 1 | .min u => 2 + 16 * u.toNat | .max u => 3 + 16 * u.toNat | .and => 4 | .or => 5 | .xor => 6
  | .exch => 7 | .cas _ => 8 | .incw => 9 | .decw => 10 | .addb _ => 11

/-- The new value of an ATOM (R200, R202, R203). -/
def atomFn (code : Nat) (old x y : Word) : Word :=
  match code with
  | 0 => old + x
  | 1 => (shaped .P .rne false (fun l => addPre .rne (fl0 l) (fl1 l)) (addProp false) (fun _ => 0) [[old], [x]]).getD 0 0
  | 2 => iminOp false old x
  | 18 => iminOp true old x
  | 3 => imaxOp false old x
  | 19 => imaxOp true old x
  | 4 => old &&& x
  | 5 => old ||| x
  | 6 => old ^^^ x
  | 7 => x
  | 8 => if old = x then y else old
  | 9 => if x.toNat ≤ old.toNat then 0 else old + 1
  | 10 => if old = 0 ∨ x.toNat < old.toNat then x else old - 1
  | _ => if old.toNat + x.toNat ≤ y.toNat then old + x else old

def execAtom (h : Hd) (op : AtomOp) (rd : Option LDst) (ra : Base) (rb : Src) (s : State) : Out :=
  let f := formOf (.atom h op rd ra rb)
  let lines := fun (x : Ix) ins i => linesAt x.team.ctx (laneAddr ins 0 i) 4
  memInstr f (fun x ins => firstTrap [addrTrap (x.ex.map fun i => (i, laneAddr ins 0 i)) 4 3,
      txcap x (lines x ins) (lines x ins)])
    (fun x ins =>
      match x.ex with
      | [] => .next (s.finish x f noJump id)
      | _ =>
        let o : AtomOpn := ⟨s.nextId, x.pc, atomCode op, rd.map dstNum,
          x.ex.map fun i => (i, laneAddr ins 0 i, laneWord ins 1 i, laneWord ins 2 i), x.inTx, [], none⟩
        let s := s.escape x.t (x.ex.length - x.inTx.length)
        .next ({ s with nextId := s.nextId + 1 }.finish x f noJump fun g =>
          let g := g.touchTx x.inTx (lines x ins) (lines x ins)
          { (g.mapLanes fun i l =>
              if x.ex.contains i && rd.isSome then l.pushPending .P o.id g.dist s.clock.cycle else l) with
            atoms := g.atoms ++ [o] })) s

/-- A word of memory at its home: its value, its chunk's mark, the state after it has been served (R182). `look` is as for a read. -/
def State.wordAt (s : State) (look : Bool) (die key : Nat) (leaf : Leaf) : Word × Bool × State :=
  let v := s.cohReadBy look die key leaf (touched (key % 128) 4)
  (v.1.extractLsb' (8 * (key % 128)) 32, v.2.1.getLsbD (key % 128 / 16), v.2.2)

/-- A word as bytes without a mark. -/
def bytesOf (w : Word) : List Byte := (List.range 4).map fun i => w.extractLsb' (8 * i) 8

/-- Old values returned to lanes; with the last of them the result lands. -/
def Group.atomDone (g : Group) (o : AtomOpn) (olds : List (Nat × Word)) : Group :=
  let o' := { o with lanes := o.lanes.filter fun e => !(olds.any fun d => d.1 == e.1), olds := o.olds ++ olds }
  let g := { g with atoms := if o'.lanes.isEmpty then g.atoms.filter fun a => a.id != o.id
                             else g.atoms.map fun a => if a.id = o.id then o' else a }
  match o.dst with
  | none => g
  | some d => g.mapLanes fun i l =>
      match olds.find? fun e => e.1 == i with
      | some e => l.deliver d o.id [RWord.clean e.2]
      | none => l

/-- One lane's step inside its transaction (R211): a tracked read, which the core's clean copy of the chunk does not outlive, and a
held write. It sees neither the version of its task (R186) nor later writes of the transaction. -/
def State.atomTx (s : State) (t g : Nat) (r : TeamRec) (k : Group) (o : AtomOpn) (i va : Nat) (a b : Word) (x : TxState) (leaf : Leaf) :
    State :=
  let key := byteKey r.ctx va
  let s := s.l1WriteBack r.core (key / 128)
  let m := s.wordAt true (dieOf r.core) key leaf
  let s := m.2.2.l1Stale r.core (key / 128) (touched (key % 128) 4)
  let bs := laneBytes r k o.id false (some x) key ((bytesOf m.1).map fun c => (c, m.2.1))
  if !s.txValid x || bs.any (·.2) then s.updGroup t g fun k => k.abort [i]
  else
    let old := BitVec.ofNat 32 (leNat (bs.map (·.1)))
    let x := (s.track t r.d.latent x key 4).hold o.id key ((bytesOf (atomFn o.code old a b)).map fun c => (c, false))
    s.updGroup t g fun k => (k.updLane i fun l => { l with tx := some x }).atomDone o [(i, old)]

/-- An ATOM that meets a poisoned word (R193): it is dropped, and its team traps. -/
def State.atomPoison (s : State) (t g : Nat) (o : AtomOpn) (lanes : List Nat) (va : Nat) : State :=
  (s.updGroup t g fun k => { k with atoms := k.atoms.filter fun a => a.id != o.id }).raiseAt t g o.id tPOISON 1 o.lpc (maskOf lanes) va

/-- One set of an ATOM performed as one sequence at the home (R182, R201): the lowest lane left, and every other lane outside a
transaction with its address. The requester's die alone looks up its redirect table (R229). A word across a cut reads as poison (R366). -/
def State.atomSet (s : State) (t g : Nat) (r : TeamRec) (o : AtomOpn) (va : Nat) (ls : List (Nat × Nat × Word × Word)) (leaf : Leaf) :
    State :=
  let key := byteKey r.ctx va
  let s := ((s.l1WriteBack r.core (key / 128)).settle).redirect (dieOf r.core) key leaf
  let home := leaf.home va
  let m := s.wordAt false home key leaf
  let s := m.2.2
  if m.2.1 || !s.reach (dieOf r.core) home then s.atomPoison t g o (ls.map (·.1)) va
  else
    let run := ls.foldl (fun (acc : Word × List (Nat × Word)) e =>
      (atomFn o.code acc.1 e.2.2.1 e.2.2.2, acc.2 ++ [(e.1, acc.1)])) (m.1, [])
    let w := lineWrite home key leaf (bytesOf run.1) [false, false, false, false] [⟨t, g, o.lpc, r.grid, o.id⟩]
    let s := (s.cohWriteBy false w).l1Stale r.core w.line (chunksOf w.mask)
    s.updGroup t g fun k => k.atomDone o run.2

/-- Whether an ATOM must still wait (R97, R170, R185): for the group's earlier stores that no version holds, for its earlier loads and
ATOMs, and for a develop that comes before it (assumption 76). Behind a trap condition of its group it does nothing. -/
def Group.atomWaits (k : Group) (r : TeamRec) (g : Nat) (o : AtomOpn) : Bool :=
  (k.storeQ.any fun e => decide (e.id < o.id) && !(r.d.latent && e.act == .store && !e.esc)) ||
  (k.loads.any fun l => decide (l.id < o.id)) || (k.atoms.any fun a => decide (a.id < o.id)) || r.barred g o.id ||
  r.dev.any fun d => decide (d.born ≤ o.id)

/-- An ATOM at its home (R199 to R204): after the group's earlier stores and accesses to its word. On a host page ADD, EXCH and
CAS go out over PCI Express, one request a lane; inside a transaction every operation is a tracked read and a held write, which is
checked for W at its commit (R417; assumption 78). -/
def State.atomPerform (s : State) (t g id : Nat) : State :=
  match s.team t, s.group t g with
  | some r, some k =>
    match k.atoms.find? fun o => o.id == id with
    | none => s
    | some o =>
      match o.lanes with
      | [] => s.updGroup t g fun k => { k with atoms := k.atoms.filter fun a => a.id != id }
      | (i, va, a, b) :: rest =>
        let acc := groupAcc r (.atom t g id) 0 (if o.tx.contains i then 1 else 3)
        let key := byteKey r.ctx va
        if s.blocked acc.req || o.asked.isSome || k.atomWaits r g o then s
        else
          match s.xlate acc key with
          | .held => s.park acc key
          | .miss => s.await acc key
          | .bad c d st => (s.notice acc key st).failAccess acc.req key c d
          | .ok leaf =>
            match if o.tx.contains i then (k.lane i).tx else none with
            | some x => s.atomTx t g r k o i va a b x leaf
            | none =>
              if leaf.host then
                if !s.reach (dieOf r.core) (portDie leaf.port) then s.atomPoison t g o [i] va
                else if o.code = 0 ∨ o.code = 7 ∨ o.code = 8 then
                  let s := s.updGroup t g fun k => { k with atoms := k.atoms.map fun a => if a.id = id then { a with asked := some leaf } else a }
                  s.emit (.atomic leaf.port t g id i o.code (leaf.phys va).addr a b)
                else (s.notice acc key 1).failAccess acc.req key tMEMPERM 3
              else
                s.atomSet t g r o va ((i, va, a, b) :: rest.filter fun e => e.2.1 == va && !o.tx.contains e.1) leaf
  | _, _ => s

/-- A PCI Express AtomicOp completion returns to the lane that asked (R204), under the leaf of its request: Unsupported Request is
MEMPERM, a marked word POISON (R193). -/
def State.atomReturn (s : State) (t g id : Nat) (ur : Bool) : State :=
  match s.team t, s.group t g with
  | some r, some k =>
    match k.atoms.find? fun o => o.id == id with
    | none => s
    | some o =>
      match o.asked, o.lanes with
      | some leaf, (i, va, a, b) :: _ =>
        let key := byteKey r.ctx va
        let acc := groupAcc r (.atom t g id) 0 3
        let p := leaf.phys va
        if ur then (s.notice acc key 1).failAccess acc.req key tMEMPERM 3
        else if s.physMark p 4 then s.atomPoison t g o [i] va
        else
          let old := BitVec.ofNat 32 (s.physNum p 4)
          let s := ((s.physWrite p (bytesOf (atomFn o.code old a b))).wrote (key / 16)).updTeam t fun r => r.wrotePort leaf
          s.updGroup t g fun k => k.atomDone { o with asked := none } [(i, old)]
      | _, _ => s
  | _, _ => s

/-! ### Fences (R174, R175) -/

/-- The group's accesses on the named paths that a fence waits for (R175). -/
def State.fencePre (s : State) (x : Ix) (k : FenceKind) (sc : Scope) (p : Paths) : List Nat :=
  let core := s.core x.team.core
  let ls := if p.ls then x.grp.loads.map (·.id) ++ x.grp.atoms.map (·.id) ++
      (if k = .acq || sc = .grp then [] else x.grp.storeQ.map (·.id)) else []
  let ce := if p.ce then (x.team.copies.filter fun c => c.grp == x.g).map (·.id) ++
      (core.bulkQ.filter fun b => b.team == x.t && b.grp == x.g && !b.remote).map (·.id) else []
  let nx := if p.nx then (core.bulkQ.filter fun b => b.team == x.t && b.grp == x.g && b.remote).map (·.id) else []
  let tu := if p.tu then (core.tileQ.filter fun o => o.team == x.t && o.grp == x.g).map (·.id) else []
  ls ++ ce ++ nx ++ tu

/-- The operations of a team's group that are still pending, by their serial numbers. A held write of a task is not among them: its copy
is, until it has read its source (R185, R189). -/
def State.pendingIds (s : State) (t g : Nat) : List Nat :=
  match s.team t, s.group t g with
  | some r, some k =>
    let core := s.core r.core
    k.loads.map (·.id) ++ k.atoms.map (·.id) ++
    (k.storeQ.filter fun e => !r.d.latent || e.esc || e.act != .store).map (·.id) ++
    (r.copies.filter fun c => !r.d.latent || c.esc || c.reads).map (·.id) ++
    (core.bulkQ.filter fun b => !r.d.latent || b.esc || b.remote || b.reads).map (·.id) ++
    (core.tileQ.filter fun o => !r.d.latent || o.reads).map (·.id)
  | _, _ => []

/-- The reads of a group on every path that have not returned: its loads and ATOMs, its copies and its tile instructions. -/
def State.pendingReads (s : State) (t g : Nat) : List Nat :=
  match s.team t, s.group t g with
  | some r, some k =>
    let core := s.core r.core
    k.loads.map (·.id) ++ k.atoms.map (·.id) ++ ((r.copies.filter fun c => c.grp == g && c.reads).map (·.id)) ++
    ((core.bulkQ.filter fun b => b.team == t && b.grp == g && b.reads).map (·.id)) ++
    ((core.tileQ.filter fun o => o.team == t && o.grp == g && o.reads).map (·.id))
  | _, _ => []

def execFence (h : Hd) (k : FenceKind) (sc : Scope) (paths : Paths) (s : State) : Out :=
  let f := formOf (.fence h k sc paths)
  groupInstr f (fun x _ _ => .next (s.finish x f noJump fun g =>
    { g with fences := g.fences ++
        [⟨k, sc, paths, s.fencePre x k sc paths, if k = .rel then [] else s.pendingReads x.t x.g⟩] })) s

/-- Whether a write of a context that a core's die has sent is still on its way (R234). -/
def State.outPending (s : State) (core ctx : Nat) : Bool := s.outw.any fun o => o.die == dieOf core && lineOfCtx ctx o.line

/-- A fence completes (R173, R175, R234): its earlier accesses are performed at its scope, and with an acquire the group's earlier reads
on every path; dirty bytes are written back, clean lines invalidated, host writes flushed. -/
def State.fenceDone (s : State) (t g : Nat) : State :=
  match s.team t, s.group t g with
  | some r, some k =>
    match k.fences with
    | [] => s
    | ⟨kind, sc, p, pre, reads⟩ :: rest =>
      if (pre.any fun i => (s.pendingIds t g).contains i) || reads.any fun i => (s.pendingReads t g).contains i then s
      else
        let crossing := p.ls && (p.ce || p.nx || p.tu)
        let rel := kind != .acq
        let acq := kind != .rel
        let wide := match sc with | .grp | .team => false | _ => true
        let back := crossing || (rel && wide)
        let s := if back then s.l1Flush r.core r.ctx else s
        if back && s.outPending r.core r.ctx then s
        else
          let s := if crossing || (acq && wide) then s.l1Acquire r.core r.ctx else s
          let s := if rel && sc = .sys then s.flushPorts t else s
          s.updGroup t g fun k => { k with fences := rest }
  | _, _ => s

/-! ### Cache control (R205, R206) -/

/-- WB, INV and DRAIN go through the store queue, in order with the group's stores. -/
def cacheInstr (f : Form) (act : Nat → StoreAct) (s : State) : Out :=
  ownInstr f (fun x ins =>
    match x.ex.filter fun i => (x.grp.lane i).tx.isNone with
    | [] => .next (s.finish x f x.resume fun g => g.abort x.inTx)
    | outside =>
      .next ({ s with nextId := s.nextId + 1 }.finish x f x.resume fun g =>
        { (g.abort x.inTx) with
          storeQ := g.storeQ ++ outside.map fun i =>
            (⟨s.nextId, act (laneWord ins 1 i).toNat, i, x.pc, laneAddr ins 0 i, [], [], .team, false⟩ : StoreEnt) })) s

def execCctlWb (h : Hd) (ra : Base) (rb : Src) (s : State) : Out := cacheInstr (formOf (.cctlWb h ra rb)) .wb s
def execCctlInv (h : Hd) (ra : Base) (rb : Src) (s : State) : Out := cacheInstr (formOf (.cctlInv h ra rb)) .inv s
def execCctlDrain (h : Hd) (ra : Base) (rb : Src) (s : State) : Out := cacheInstr (formOf (.cctlDrain h ra rb)) .drain s

/-- A die's answer to a replication request for a region (R206, R238). -/
def State.pinDie (s : State) (region request d : Nat) : State :=
  let r := s.die d
  match request with
  | 4 =>
    match r.pins.find region with
    | none => s
    | some v => (s.setDie d { r with pins := r.pins.del region }).updShare d region fun k => { k with d := v }
  | n =>
    if 4 < n then s
    else if (r.pins.find region).isNone && decide (1024 ≤ r.pins.length) then s.count d 8 1
    else
      let old := (r.pins.find region).getD (r.share region).d
      let s := s.setDie d { r with pins := r.pins.ins region n }
      (if n < old then s.count d 7 1 else s).trimRegion d region

/-- Whether a page of a region carries the replication attribute (R238). -/
def State.attributed (s : State) (region : Nat) : Bool :=
  (List.range 32).any fun i => ((s.silentLeaf (region * 2 ^ 21 + i * 2 ^ 16)).map fun l => l.repla != 0).getD false

/-- A replication request for the region of a key: ignored on every die where a page of it carries the attribute (assumption
89). -/
def State.pinRegion (s : State) (key request : Nat) : State :=
  if 4 < request then s
  else if s.attributed (key / 2 ^ 21) then
    (List.range 4).foldl (fun (s : State) d => s.count d 8 1) s
  else (List.range 4).foldl (fun (s : State) d => s.pinDie (key / 2 ^ 21) request d) s

/-- PF1 and PF2 over one range (R206): each line that translates with R is fetched; any other is dropped. -/
def State.prefetch (s : State) (t g : Nat) (r : TeamRec) (l1 : Bool) (a len : Nat) : State :=
  let n := if len = 0 ∨ 2 ^ 57 ≤ a then 0 else (min (min (a + len) (a / 128 * 128 + 65536)) (2 ^ 57) + 127) / 128 - a / 128
  (List.range n).foldl (fun (s : State) i =>
    let key := byteKey r.ctx ((a / 128 + i) * 128)
    match s.silentLeaf key with
    | none => s
    | some leaf =>
      match s.judge (groupAcc r (.load t g 0) 0 1) key leaf with
      | .ok leaf =>
        if leaf.host || s.purging key then s
        else if l1 then (s.lineFor r (key / 128) leaf 255 true).2.2
        else (s.cohRead (dieOf r.core) key leaf 255).2.2
      | _ => s) s

/-- A CCTL that acts at issue in each executing lane outside a transaction. -/
def hintInstr (f : Form) (act : Ix → List (Nat × Nat × Word) → State → State) (s : State) : Out :=
  ownInstr f (fun x ins =>
    match (x.ex.filter fun i => (x.grp.lane i).tx.isNone).map fun i => (i, laneAddr ins 0 i, laneWord ins 1 i) with
    | [] => .next (s.finish x f x.resume fun g => g.abort x.inTx)
    | outside => .next ((act x outside s).finish x f x.resume fun g => g.abort x.inTx)) s

def execCctlRepl (h : Hd) (ra : Base) (rb : Src) (s : State) : Out :=
  hintInstr (formOf (.cctlRepl h ra rb)) (fun x ls s =>
    let named := (ls.filter fun e => decide (e.2.1 < 2 ^ 57)).map fun e => (byteKey x.team.ctx e.2.1, e.2.2.toNat % 8)
    let last := (named.zip (List.range named.length)).filter fun e =>
      !((named.drop (e.2 + 1)).any fun o => o.1 / 2 ^ 21 == e.1.1 / 2 ^ 21)
    (last.foldl (fun (s : State) e => s.pinRegion e.1.1 e.1.2) s).settle) s

def execCctlPf1 (h : Hd) (ra : Base) (rb : Src) (s : State) : Out :=
  hintInstr (formOf (.cctlPf1 h ra rb)) (fun x ls s =>
    ls.foldl (fun (s : State) e => s.prefetch x.t x.g x.team true e.2.1 e.2.2.toNat) s) s

def execCctlPf2 (h : Hd) (ra : Base) (rb : Src) (s : State) : Out :=
  hintInstr (formOf (.cctlPf2 h ra rb)) (fun x ls s =>
    ls.foldl (fun (s : State) e => s.prefetch x.t x.g x.team false e.2.1 e.2.2.toNat) s) s

/-! ### Lane transactions (R207 to R215) -/

def execTxbeg (h : Hd) (pn : Fin 7) (s : State) : Out :=
  let f := formOf (.txbeg h pn)
  ownInstr f (fun x _ =>
    match x.inTx, x.ex with
    | i :: ls, _ => .next (s.raise x.t x.g tTXCAP 0 x.pc (maskOf (i :: ls)) 0)
    | [], [] => .next (s.finish x f noJump id)
    | [], ex => .next (s.finish x f noJump fun g =>
        { g with held := .txbeg pn.val (maskOf ex) (x.pc + Word.ofNat f.len) (g.storeQ.map (·.id)), wait := .txOpen })) s

/-- TXBEG's wait ends (R207): the group's stores are performed at `.pkg` and the transactions open. -/
def State.openTx (s : State) (t g : Nat) : State :=
  match s.team t, s.group t g with
  | some r, some k =>
    match k.held with
    | .txbeg pn ls resume pre =>
      if k.storeQ.any fun e => pre.contains e.id then s
      else
        let s := s.l1Flush r.core r.ctx
        if s.outPending r.core r.ctx then s
        else
          s.updGroup t g fun k =>
            { (k.mapLanes fun i l => if ls.getLsbD i then { (l.setPred pn true) with tx := some ⟨pn, resume, [], [], [], [], []⟩ } else l) with
              held := .none, wait := .none }
    | _ => s
  | _, _ => s

/-- The chunks of a transaction's reads and writes. -/
def TxState.readChunks (x : TxState) : List Nat := (x.reads.map (·.1)).filter fun c => decide (c < 2 ^ 64)
def TxState.writeChunks (x : TxState) : List Nat :=
  x.writes.foldl (fun (l : List Nat) w => (List.range w.bytes.length).foldl (fun l i => addOnce l ((w.key + i) / 16)) l) []

/-- The bytes that a transaction holds in the end, with the chunks that one of its writes has covered whole. -/
def TxState.held (x : TxState) : Tab (Byte × Bool) × List Nat := x.writes.foldl (fun h w => holdBytes h w.key w.bytes) ([], [])

/-- The lanes of a TXEND, each with whether it loses to an earlier lane (R214). -/
def txMeets : List (Nat × TxState) → List Nat → List (Nat × TxState × Bool)
  | [], _ => []
  | (i, x) :: r, w =>
    let lost := (x.readChunks ++ x.writeChunks).any fun c => w.contains c
    (i, x, lost) :: txMeets r (if lost then w else w ++ x.writeChunks)

/-- One lane's commit at TXEND: the state, and whether it is lost. Inside a task the writes go to the version (R187). -/
def State.commitLane (s : State) (x : Ix) (leafOf : Nat → Leaf) (tx : TxState) : State × Bool :=
  if !s.txValid tx then (s, false)
  else if x.team.d.latent then
    (tx.writes.foldl (fun (s : State) w => s.enter ⟨x.t, x.g, x.pc, x.team.grid, s.nextId⟩ w.key w.bytes) s, true)
  else
    let h := tx.held
    ((heldWrites (dieOf x.team.core) leafOf (fun _ => [⟨x.t, x.g, x.pc, x.team.grid, s.nextId⟩]) h.1 h.2).foldl
      (fun (s : State) o => (s.engineWrite x.team.core o).updTeam x.t fun r => r.wrotePort o.leaf) s, true)

/-- A team's version with the writes of several transactions. -/
def TeamRec.withLanes (r : TeamRec) (lanes : List (Nat × TxState × Bool)) : Version :=
  lanes.foldl (fun (v : Version) e => e.2.1.writes.foldl (fun (v : Version) w => v.add w.key w.bytes) v) r.ver

/-- The dirty bytes that the core holds of the lines of transactions sent home: a store that a read has missed stands before the
commit (R187). -/
def State.sendTxLines (s : State) (core : Nat) (lanes : List (Nat × TxState × Bool)) : State :=
  (lanes.foldl (fun (s : State) e =>
    (e.2.1.readLines ++ e.2.1.writeLines).foldl (fun (s : State) l => s.l1WriteBack core l) s) s).settle

/-- Pending escapes of several lanes as stores that TXEND makes: each instruction's with a new serial number. -/
def State.escStores (s : State) (lanes : List (Nat × TxState × Bool)) : List StoreEnt × State :=
  let es := lanes.flatMap fun e => e.2.1.escs
  let ids := es.foldl (fun l e => addOnce l e.id) []
  (es.map fun e => { e with id := s.nextId + ids.idxOf e.id }, { s with nextId := s.nextId + ids.length })

/-- How many escapes pending stores count: each instruction once for a lane (R349). -/
def escCount (es : List StoreEnt) : Nat := (es.foldl (fun (l : List (Nat × Nat)) e => if l.contains (e.id, e.lane) then l else (e.id, e.lane) :: l) []).length

/-- TXEND's lanes resolved (R214), with the leaves of the lines that they commit. -/
def State.endTx (s : State) (x : Ix) (f : Form) (pd : Nat) (lanes : List (Nat × TxState × Bool)) (leafOf : Nat → Leaf) : State :=
  let done := lanes.foldl (fun (acc : State × List (Nat × Bool)) e =>
    if e.2.2 then (acc.1, acc.2 ++ [(e.1, false)])
    else
      let c := acc.1.commitLane x leafOf e.2.1
      (c.1, acc.2 ++ [(e.1, c.2)])) (s.sendTxLines x.team.core (lanes.filter fun e => !e.2.2), [])
  let escs := done.1.escStores lanes
  (escs.2.escape x.t (escCount escs.1)).finish x f noJump fun g =>
    { (g.mapLanes fun i l =>
        match done.2.find? fun e => e.1 == i with
        | some (_, true) => { (l.setPred pd true) with tx := none }
        | some (_, false) => { ((l.setPred pd false).drop) with tx := none }
        | none => if x.ex.contains i then l.setPred pd false else l) with
      storeQ := g.storeQ ++ escs.1 }

/-- TXEND (R208, R214, R417). It waits where a commit meets a page that is not present, or a version that must develop before the writes of
the lanes that commit can enter it. -/
def execTxend (h : Hd) (rd : Pred) (s : State) : Out :=
  let f := formOf (.txend h rd)
  ownInstr f (fun x _ =>
    let lanes := txMeets (x.inTx.filterMap fun i => (x.grp.lane i).tx.map fun t => (i, t)) []
    let idle := { s with issuing := none }
    if x.inTx.isEmpty then
      .next (s.finish x f noJump fun g => g.mapLanes fun i l => if x.ex.contains i then l.setPred rd.val false else l)
    else if x.team.d.latent then
      let s' := s.sendTxLines x.team.core (lanes.filter fun e => !e.2.2)
      if s.mayEnter x.team (x.team.withLanes (lanes.filter fun e => !e.2.2 && s'.txValid e.2.1)) then .next (s.endTx x f rd.val lanes fun _ => ⟨0, 0, none⟩)
      else .next (idle.forceDevelop x.t)
    else
      let a := groupAcc x.team (.tx x.t x.g) 0 2
      let keys := ((lanes.filter fun e => !e.2.2 && s.txValid e.2.1).flatMap fun e => e.2.1.writeLines).map fun l => l * 128
      match s.xlates a keys with
      | .bad key c d st => .next ((s.notice a key st).failAccess a.req key c d)
      | .wait s => .next { s with issuing := none }
      | .ok leaves =>
        .next (s.endTx x f rd.val lanes fun line => (((keys.zip leaves).find? fun e => e.1 / 128 == line).map (·.2)).getD ⟨0, 0, none⟩)) s

/-- TXABT (R209): the lanes inside a transaction abort. -/
def execTxabt (h : Hd) (s : State) : Out :=
  let f := formOf (.txabt h)
  ownInstr f (fun x _ => .next (s.finish x f x.resume fun g => g.abort x.inTx)) s

/-- A lane aborts because another agent wrote a chunk that it has read (R213): at once, also while the lane is passed over (assumption 99). -/
def State.txConflict (s : State) (t g i : Nat) : State :=
  match (s.group t g).bind fun k => (k.lane i).tx with
  | some x => if s.txValid x then s else s.updGroup t g fun k => k.abort [i]
  | none => s

end Sys2Proof.Machine
end

