-- ==== Sys2Proof/Machine/Barrier.lean ====
section
/-! DEFINITION. Barrier registers (R256 to R261, R273 to R276): the six instructions, and the events of a cycle taken in
order. -/

namespace Sys2Proof.Machine

/-! ### The instructions -/

/-- An event on a barrier register by the instruction of a serial number, to be taken at the end of the cycle (R257, R258). -/
def State.barEventAt (s : State) (id t g j : Nat) (lpc : Word) (k : BarKind) : State :=
  s.updTeam t fun r => { r with barq := r.barq ++ [⟨id, j, g, lpc, k⟩] }

/-- An event by the instruction that issues, or by an engine. -/
def State.barEvent (s : State) (t g j : Nat) (lpc : Word) (k : BarKind) : State := s.barEventAt s.nextId t g j lpc k

/-- A barrier instruction: the trap of a register at or beyond `.barriers`, then its effect with the group value of its source.
`inTx` tells whether it is performed for lanes inside a transaction (R211, R273), `idle` what its issue alone does. -/
def barInstrIdle (idle : Group → Group) (f : Form) (j : Fin 16) (inTx : Bool) (body : Ix → Word → State → Out) (s : State) : Out :=
  groupInstrIdle idle f (fun x ins i =>
    if x.team.d.barriers ≤ j.val then .next (s.raise x.t x.g tBARMISUSE j.val x.pc 0 0)
    else if inTx then body x (laneWord ins 0 i) s
    else x.outsideTxIdle idle f s (body x (laneWord ins 0 i) s)) s

def barInstr (f : Form) (j : Fin 16) (inTx : Bool) (body : Ix → Word → State → Out) (s : State) : Out := barInstrIdle id f j inTx body s

/-- BINIT (R274): a target of 0 or above 65,535 traps. -/
def execBinit (h : Hd) (ra : Src) (j : Fin 16) (s : State) : Out :=
  let f := formOf (.binit h ra j)
  barInstr f j false (fun x n s => .next ((s.finish x f noJump id).barEvent x.t x.g j.val x.pc (.init n.toNat))) s

/-- The group's `.ls` accesses that an arrival waits for (R275). -/
def Group.lsIds (g : Group) : List Nat := g.loads.map (·.id) ++ g.atoms.map (·.id) ++ g.storeQ.map (·.id)

/-- BARV (R274, R275). -/
def execBarv (h : Hd) (j : Fin 16) (s : State) : Out :=
  let f := formOf (.barv h j)
  barInstr f j false (fun x _ s => .next (s.finish x f noJump fun g =>
    { g with arrivals := g.arrivals ++ [⟨s.nextId, j.val, x.pc, false, g.lsIds⟩] })) s

/-- BEXP (R274). -/
def execBexp (h : Hd) (ra : Src) (j : Fin 16) (dec : Bool) (s : State) : Out :=
  let f := formOf (.bexp h ra j dec)
  barInstr f j false (fun x n s => .next ((s.finish x f noJump id).barEvent x.t x.g j.val x.pc (.post n.toNat dec))) s

/-- Every pass of WAITL ends when the group issues a BWAIT or a BSYNC (R251, R253). -/
def Group.endPasses (g : Group) : Group := g.mapLanes fun _ l => { l with pass := Option.none }

/-- A group at a wait: every pass of WAITL ends and the executing lanes' relays empty (R37, R251). -/
def Group.stand (g : Group) (ex : List Nat) (w : Wait) : Group :=
  { (g.mapLanes fun i l => { (if ex.contains i then l.drop else l) with pass := Option.none }) with wait := w }

/-- BWAIT (R259, R274). -/
def execBwait (h : Hd) (j : Fin 16) (q : Bool) (s : State) : Out :=
  let f := formOf (.bwait h j q)
  barInstrIdle Group.endPasses f j false (fun x _ s =>
    .next ((s.finish x f noJump fun g => g.stand x.ex (.barrier j.val q)).barEvent x.t x.g j.val x.pc (.wait q))) s

/-- BTEST (R274): the predicates are written at the wait position of the cycle. -/
def execBtest (h : Hd) (rd : Pred) (j : Fin 16) (form : BTestForm) (s : State) : Out :=
  let f := formOf (.btest h rd j form)
  let ev := fun (x : Ix) =>
    match form with
    | .par q => BarKind.test false q rd.val x.ex
    | .get => BarKind.test true false rd.val x.ex
  barInstr f j true (fun x _ s => .next ((s.finish x f noJump id).barEvent x.t x.g j.val x.pc (ev x))) s

/-- BSYNC (R274, R275): an arrival, then a wait. -/
def execBsync (h : Hd) (j : Fin 16) (s : State) : Out :=
  let f := formOf (.bsync h j)
  barInstrIdle Group.endPasses f j false (fun x _ s => .next (s.finish x f noJump fun g =>
    { (g.stand x.ex (.arrival j.val)) with arrivals := g.arrivals ++ [⟨s.nextId, j.val, x.pc, true, g.lsIds⟩] })) s

/-! ### Arrivals and the events of a cycle -/

/-- The oldest arrival of a group that is owed is applied once the accesses before it are performed at `.team` (R275). -/
def State.applyArrival (s : State) (t g : Nat) : State :=
  match s.group t g with
  | none => s
  | some k =>
    match k.arrivals with
    | [] => s
    | a :: rest =>
      if a.pre.any fun i => k.lsIds.contains i then s
      else
        (s.updGroup t g fun k => { k with arrivals := rest }).barEventAt a.id t g a.j a.lpc (.arrive 0 a.sync false)

/-- The place of an event in its cycle (R258). -/
def BarKind.rank : BarKind → Nat
  | .land _ => 0 | .arrive _ _ _ => 1 | .post _ _ => 2 | .init _ => 3 | .wait _ | .test _ _ _ _ => 4

/-- The events of a cycle in the order of R258. -/
def orderEvents (l : List BarEv) : List BarEv :=
  (List.range 5).flatMap fun k =>
    (List.range 32).flatMap fun g => l.filter fun e => e.kind.rank == k && e.grp % 32 == g

/-- A barrier register of a team. -/
def TeamRec.bar (r : TeamRec) (j : Nat) : Bar := r.bars.getD j ⟨0, 0, 0, false, 0⟩

/-- A register changed; then the phase completes if ARR = TARGET and EXP = 0, and its waiters wake (R257). -/
def TeamRec.putBar (r : TeamRec) (j : Nat) (b : Bar) : TeamRec :=
  if b.arr = b.target ∧ b.exp = 0 then
    { r with
      bars := r.bars.set j { b with arr := 0, parity := !b.parity, waiters := 0 }
      groups := r.groups.mapv fun n g =>
        if b.waiters.getLsbD n && (match g.wait with | .barrier k _ => k == j | _ => false) then { g with wait := .none } else g }
  else { r with bars := r.bars.set j b }

/-- A wait of a group on a parity (R259): it returns at once, or sets the group's bit. -/
def TeamRec.waitOn (r : TeamRec) (j g : Nat) (q : Bool) : TeamRec :=
  let b := r.bar j
  if b.parity != q then { r with groups := r.groups.upd g fun k => { k with wait := .none } }
  else
    { r with bars := r.bars.set j { b with waiters := b.waiters ||| BitVec.ofNat 32 (2 ^ g) }
             groups := r.groups.upd g fun k => { k with wait := .barrier j q } }

/-- What an event does to its team, or the DETAIL of its misuse (R257, R259, R260, R274). -/
def TeamRec.barStep (r : TeamRec) (e : BarEv) : Except Nat TeamRec :=
  let b := r.bar e.j
  match e.kind with
  | .land n => .ok (r.putBar e.j { b with exp := b.exp - n })
  | .arrive n sync na =>
    let arr := b.arr + (!na).toNat
    if b.target < arr then .error (e.j + 16 * 3)
    else if 2 ^ 40 ≤ b.exp + n then .error (e.j + 16 * 4)
    else
      let r := r.putBar e.j { b with arr := arr, exp := b.exp + n }
      .ok (if sync then r.waitOn e.j e.grp b.parity else r)
  | .post n dec =>
    if dec then (if b.exp < n then .error (e.j + 16 * 5) else .ok (r.putBar e.j { b with exp := b.exp - n }))
    else if 2 ^ 40 ≤ b.exp + n then .error (e.j + 16 * 4)
    else .ok (r.putBar e.j { b with exp := b.exp + n })
  | .init n =>
    if n = 0 ∨ 65535 < n then .error (e.j + 16)
    else if b.arr ≠ 0 ∨ b.exp ≠ 0 ∨ b.waiters ≠ 0 then .error (e.j + 16 * 2)
    else .ok (r.putBar e.j { b with target := n })
  | .wait q => .ok (r.waitOn e.j e.grp q)
  | .test get q dst lanes =>
    let v := if get then b.parity else b.parity != q
    .ok { r with groups := r.groups.upd e.grp fun k =>
            k.mapLanes fun i l => if lanes.contains i then l.setPred dst v else l }

/-- A group whose wait returns, or whose BTEST finds the phase complete, acquires at `.team` on every path (R181, R274): as a fence, it
holds the group's later accesses until its earlier reads have returned. -/
def State.acquire (s : State) (t g : Nat) : State :=
  match s.pendingReads t g with
  | [] => s
  | reads => s.updGroup t g fun k => { k with fences := k.fences ++ [⟨.acq, .team, ⟨true, false, false, false⟩, [], reads⟩] }

/-- The groups that an event lets return from a wait, or that it answers with a complete phase. -/
def TeamRec.returned (r r' : TeamRec) (e : BarEv) : List Nat :=
  let waits := fun (r : TeamRec) n => (r.groups.find n).any fun k => k.wait != Wait.none
  let woken := r.groups.keys.filter fun n => waits r n && !waits r' n
  match e.kind with
  | .test false q _ _ => if (r.bar e.j).parity != q then woken ++ [e.grp] else woken
  | _ => woken

/-- An event applied. A misuse traps its group at the instruction, and the event is not performed. -/
def State.barApply (s : State) (t : Nat) (e : BarEv) : State :=
  match s.team t with
  | none => s
  | some r =>
    match r.barStep e with
    | .ok r' => (r.returned r' e).foldl (fun (s : State) g => s.acquire t g) { s with teams := s.teams.ins t r' }
    | .error d => s.raiseAt t e.grp e.id tBARMISUSE d e.lpc 0 0

/-- The events of a team's cycle taken (R258). -/
def State.barCycle (s : State) (t : Nat) : State :=
  match s.team t with
  | none => s
  | some r =>
    (orderEvents r.barq).foldl (fun (s : State) e => s.barApply t e) (s.updTeam t fun r => { r with barq := [] })

end Sys2Proof.Machine
end

