-- ==== Sys2Proof/Machine/Control.lean ====
section
/-! DEFINITION. Control instructions (R264 to R272, R359): branches, calls, EXIT, NOP, WAITL, YIELD, BUDGET, TRAP, BKPT and
ILL. -/

namespace Sys2Proof.Machine

/-- A branch of every executing lane to its own target, after a link where the form writes one: the relay then empties (R37,
R265, R266). -/
def branchTo (x : Ix) (f : Form) (link : List Word) (target : Nat → Word) (s : State) : Out :=
  .next (s.finish x f (fun i => some (target i)) fun g =>
    (g.commit x f s.clock.cycle fun i => (x.grp.lane i, link)).mapLanes fun i l => if x.ex.contains i then l.drop else l)

/-- A branch by an immediate (R266). -/
def branchImm (f : Form) (imm : Word) (s : State) : Out :=
  ownInstr f (fun x _ => branchTo x f [x.pc + Word.ofNat f.len] (fun _ => x.pc + imm) s) s

/-- A branch by operand 0: POISON, then ALIGN for an odd target in an executing lane (R264, R265). -/
def branchReg (f : Form) (s : State) : Out :=
  ownInstr f (fun x ins =>
    let target := fun i => (ins.getD i ⟨0, false, Lane.none, [], []⟩).w 0 0
    match x.ex.filter fun i => (target i).getLsbD 0 with
    | [] => branchTo x f [x.pc + Word.ofNat f.len] target s
    | i :: ls => .next (s.raise x.t x.g tALIGN 0 x.pc (maskOf (i :: ls)) (target i).toNat)) s

def execBra (h : Hd) (imm : BitVec 32) (s : State) : Out := branchImm (formOf (.bra h imm)) imm s
def execBrx (h : Hd) (ra : Src) (s : State) : Out := branchReg (formOf (.brx h ra)) s
def execCall (h : Hd) (rd : LDst) (imm : BitVec 32) (s : State) : Out := branchImm (formOf (.call h rd imm)) imm s
def execCallx (h : Hd) (rd : LDst) (ra : Src) (s : State) : Out := branchReg (formOf (.callx h rd ra)) s
def execRet (h : Hd) (ra : Src) (s : State) : Out := branchReg (formOf (.ret h ra)) s
/-- BRA.S is BRA by its offset in halfwords (R43). -/
def execBraS (e : BitVec 11) (s : State) : Out := branchImm (formOf (.braS e)) (sext e <<< 1) s

/-- EXIT (R268, R270): the lane stops being live, and a transaction of it is discarded, what it still tracks with it (R211). -/
def execExit (h : Hd) (s : State) : Out :=
  let f := formOf (.exit h)
  ownInstr f (fun x _ => .next (s.finish x f noJump fun g => (g.mapLanes fun i l =>
    if x.ex.contains i then { l with live := false, tx := none, pass := none } else l).forget x.inTx)) s

/-- NOP (R268): the issue counts, and nothing happens. -/
def execNop (h : Hd) (s : State) : Out :=
  let f := formOf (.nop h)
  groupInstr f (fun x _ _ => .next (s.finish x f noJump id)) s
def execNopC16 (s : State) : Out :=
  let f := formOf .nopC16
  groupInstr f (fun x _ _ => .next (s.finish x f noJump id)) s

/-- WAITL (R251, R268): the lane is passed over for 64 issues of its group. -/
def execWaitl (h : Hd) (s : State) : Out :=
  let f := formOf (.waitl h)
  ownInstr f (fun x _ => .next (s.finish x f noJump fun g => g.mapLanes fun i l =>
    if x.ex.contains i then { l with pass := some 64 } else l)) s

/-- YIELD (R269): the group is passed over for the other groups of its partition that are ready. -/
def execYield (h : Hd) (s : State) : Out :=
  let f := formOf (.yield h)
  groupInstr f (fun x _ _ => .next (s.finish x f noJump fun g =>
    { g with yield := some (s.clock.cycle, s.otherReady x.t x.g) })) s

/-- A team's cycle budget shortened (R271). -/
def shorten (k : Option Nat) (c : Nat) : Option Nat :=
  if c = 0 then k
  else match k with
    | none => some c
    | some k => some (min k c)

/-- BUDGET (R271). -/
def execBudget (h : Hd) (ra : Src) (s : State) : Out :=
  let f := formOf (.budget h ra)
  groupInstr f (fun x ins i =>
    let c := (ins.getD i ⟨0, false, Lane.none, [], []⟩).w 0 0
    let s := s.finish x f noJump id
    .next (s.updTeam x.t fun r => { r with budget := shorten r.budget c.toNat })) s

/-- A software trap (R359): when an executing lane is there, it traps, and otherwise the lanes move on. -/
def softTrap (f : Form) (detail : Nat) (s : State) : Out :=
  groupInstr f (fun x _ _ => .next (s.raise x.t x.g tSOFTWARE detail x.pc (maskOf x.ex) 0)) s

def execTrap (h : Hd) (n : Fin 256) (s : State) : Out := softTrap (formOf (.trap h n)) n.val s
def execBkpt (h : Hd) (s : State) : Out := softTrap (formOf (.bkpt h)) 256 s

/-- ILLOP at the issue address of the group that issues, whatever the guards (R32, R42, R45). -/
def State.illop (s : State) : State :=
  match s.ix (hdForm ⟨0, 7, false⟩) with
  | none => s
  | some x => s.raise x.t x.g tILLOP 0 x.pc 0 0

/-- ILL (R42, R359). -/
def execIll (_rest : BitVec 53) (s : State) : Out := .next s.illop

end Sys2Proof.Machine
end

