-- ==== Sys2Proof/Machine/Copy.lean ====
section
/-! DEFINITION. Copies (R216 to R223): CPY and its lanes' chunks, CPYB, the bulk queue, local and remote chunks. -/

namespace Sys2Proof.Machine

/-- An instruction whose own trap comes before POISON (R216, R219): nothing happens where no lane executes. -/
def earlyInstr (f : Form) (early : Ix → Option (Nat × Nat)) (body : Ix → List LaneIn → Nat → Out) (s : State) : Out :=
  match s.begin f with
  | .error s' => .next s'
  | .ok x =>
    match x.ex with
    | [] => .next (s.finish x f noJump id)
    | i :: _ =>
      match early x with
      | some (code, d) => .next (s.raise x.t x.g code d x.pc 0 0)
      | none =>
        match x.poisoned f with
        | [] => body x (x.ins f) i
        | ls => .next (s.raise x.t x.g tPOISON 0 x.pc (maskOf ls) 0)

/-- BARMISUSE for a register at or beyond `.barriers`. -/
def barMisuse (j : Fin 16) (x : Ix) : Option (Nat × Nat) := if x.team.d.barriers ≤ j.val then some (tBARMISUSE, j.val) else none

/-! ### CPY (R194, R216, R217) -/

def cpyBytes : CpySize → Nat
  | .n4 => 4 | .n8 => 8 | .n16 => 16

/-- The lanes of a CPY in which either end fails a check, as the trap (R190, R355): the lowest lane's own failing address, and where
both fail its destination (assumption 79). -/
def endsTrap (code dst src : Nat) (ls : List (Nat × Nat × Nat)) (p : Nat → Bool) : Option (Nat × Nat × List Nat × Nat) :=
  match ls.filter fun e => p e.2.1 || p e.2.2 with
  | [] => none
  | e :: r => some (code, if p e.2.1 then dst else src, (e :: r).map (·.1), if p e.2.1 then e.2.1 else e.2.2)

/-- CPY (R216). -/
def execCpy (h : Hd) (ra : Base) (rb : Base) (n : CpySize) (j : Fin 16) (esc : Bool) (na : Bool) (s : State) : Out :=
  let f := formOf (.cpy h ra rb n j esc na)
  let k := cpyBytes n
  earlyInstr f (barMisuse j) (fun x ins _ =>
    let ends := x.ex.map fun i => (i, laneAddr ins 0 i, laneAddr ins 1 i)
    match firstTrap [endsTrap tALIGN 0 0 ends (fun a => a % k != 0),
        endsTrap tMEMPERM (2 + 512) (1 + 512) ends (fun a => beyond a k)] with
    | some (code, d, ls, a) => .next (s.raise x.t x.g code d x.pc (maskOf ls) a)
    | none =>
      let lanes := x.ex.filter fun i => (x.grp.lane i).tx.isNone
      let s' := { s with nextId := s.nextId + 1 }.finish x f x.resume fun g => g.abort x.inTx
      if lanes.isEmpty then .next s'
      else
        let op : CopyOp := ⟨s.nextId, x.g, x.pc, k, j.val, esc, lanes.map fun i => (i, laneAddr ins 0 i, laneAddr ins 1 i), false, []⟩
        let s' := s'.updTeam x.t fun r => { r with copies := r.copies ++ [op] }
        let s' := if esc then s'.escape x.t lanes.length else s'
        .next (s'.barEvent x.t x.g j.val x.pc (.arrive (k * lanes.length) false na))) s

/-- Bytes of memory that an engine reads for a team (R216, R219): a task's own version, whatever `.esc` is (assumption 80), else the
home or a replica, never the L1. The request covers the chunks of a mask too. -/
def State.engineRead (s : State) (r : TeamRec) (va n : Nat) (leaf : Leaf) (ask : BitVec 8) : List (Byte × Bool) × State :=
  let key := byteKey r.ctx va
  let v := s.cohRead (dieOf r.core) key leaf (grainChunks (touched (key % 128) n ||| ask))
  let base := (List.range n).map fun j =>
    (v.1.extractLsb' (8 * (key % 128 + j)) 8, v.2.1.getLsbD ((key % 128 + j) / 16))
  let base := match r.dev with
    | some d => overlayVer key base d.ver
    | none => base
  (overlayVer key base r.ver, v.2.2)

/-- Bytes that an engine writes for a team at an address whose leaf is known, by the instruction of a serial number: into the version of
a task, else at the home. False where a develop of the task comes first. -/
def State.engineStore (s : State) (t g id : Nat) (lpc : Word) (r : TeamRec) (esc : Bool) (va : Nat) (bs : List (Byte × Bool))
    (leaf : Leaf) (ask : BitVec 8) : Bool × State :=
  let key := byteKey r.ctx va
  let w : Writer := ⟨t, g, lpc, r.grid, id⟩
  if r.d.latent && !esc then s.hold w key bs
  else
    let o := lineWrite (dieOf r.core) key leaf (bs.map (·.1)) (bs.map (·.2)) [w]
    (true, (s.engineWrite r.core { o with ask := o.ask ||| ask }).updTeam t fun r => r.wrotePort leaf)

/-- Bytes that passed through a buffer with an uncorrectable error: every byte is marked (R362). -/
def spoil (bad : Bool) (bs : List (Byte × Bool)) : List (Byte × Bool) := if bad then bs.map fun b => (b.1, true) else bs

/-- The translations of a copy's source and destination: a held write is translated when it develops (R417). -/
def State.copyLeaves (s : State) (a : Nat → Acc) (src dst : Nat) (held : Bool) : Xls :=
  match s.xlates (a 1) [src] with
  | .ok ls =>
    if held then .ok (ls ++ [⟨0, 0, none⟩])
    else
      match s.xlates (a 2) [dst] with
      | .ok ms => .ok (ls ++ ms)
      | r => r
  | r => r

/-- Whether an acceptance on a barrier register is still to be taken this cycle. -/
def TeamRec.accepting (r : TeamRec) (lpc : Word) : Bool :=
  r.barq.any fun e => e.lpc == lpc && (match e.kind with | .arrive _ _ _ => true | _ => false)

/-- The chunks of a line that the lanes of a CPY touch at one end: its request covers them all (R194). -/
def CopyOp.asks (c : CopyOp) (ctx line : Nat) (end_ : Nat × Nat × Nat → Nat) : BitVec 8 :=
  c.lanes.foldl (fun (m : BitVec 8) e =>
    let k := byteKey ctx (end_ e)
    if k / 128 = line then m ||| touched (k % 128) c.n else m) 0

/-- Whether an engine's work of an instruction does nothing now: behind a trap condition of its group (R97), before its acceptance on the
barrier register, or behind a develop that comes before it (R185). -/
def TeamRec.engineWaits (r : TeamRec) (g id : Nat) (lpc : Word) : Bool :=
  r.barred g id || r.accepting lpc || r.dev.any fun d => decide (d.born ≤ id)

/-- A copy of a team without one lane, or gone with its last. -/
def State.laneCopied (s : State) (t id lane : Nat) : State :=
  s.updTeam t fun r =>
    { r with copies := (r.copies.map fun k =>
        if k.id = id then { k with bad := false, lanes := k.lanes.filter (fun e => e.1 != lane), got := k.got.filter fun e => e.1 != lane }
        else k).filter fun k => !k.lanes.isEmpty }

/-- What a lane of a copy has read, kept until its held write finds room (R185). -/
def State.laneRead (s : State) (t id lane : Nat) (bs : List (Byte × Bool)) : State :=
  s.updTeam t fun r =>
    { r with copies := r.copies.map fun k => if k.id = id then { k with bad := false, got := k.got ++ [(lane, bs)] } else k }

/-- One lane of a CPY (R216, R217): its read and write as one unit, and the decrement. In a task whose version is full the read stands
and the write waits for a develop. -/
def State.copyLane (s : State) (t id lane : Nat) : State :=
  match s.team t with
  | none => s
  | some r =>
    match r.copies.find? fun c => c.id == id with
    | none => s
    | some c =>
      match c.lanes.find? fun e => e.1 == lane with
      | none => s
      | some (_, dst, src) =>
        let a := fun acc => groupAcc r (.copy t id) 1 acc
        let ks := byteKey r.ctx src
        let kd := byteKey r.ctx dst
        let land := fun (s : State) => (s.barEvent t c.grp c.bar c.lpc (.land c.n)).laneCopied t id lane
        match c.got.find? fun e => e.1 == lane with
        | some (_, bs) =>
          if r.barred c.grp id then s
          else
            match s.engineStore t c.grp id c.lpc r c.esc dst bs ⟨0, 0, none⟩ 0 with
            | (false, s) => s
            | (true, s) => land s
        | none =>
          if s.attachedAt (.copy t id) [ks, kd] || r.engineWaits c.grp id c.lpc then s
          else
            match s.copyLeaves a ks kd (r.d.latent && !c.esc) with
            | .bad key code d st => (s.notice (a (if key = ks then 1 else 2)) key st).failAccess (.copy t id) key code d
            | .wait s => s
            | .ok ls =>
              let v := s.engineRead r src c.n (ls.getD 0 ⟨0, 0, none⟩) (c.asks r.ctx (ks / 128) fun e => e.2.2)
              let bs := spoil c.bad v.1
              match v.2.engineStore t c.grp id c.lpc r c.esc dst bs (ls.getD 1 ⟨0, 0, none⟩)
                  (c.asks r.ctx (kd / 128) fun e => e.2.1) with
              | (false, s) => s.laneRead t id lane bs
              | (true, s) => land s

/-! ### CPYB (R218, R219) -/

/-- The fields of CPYB's descriptor (R218). -/
structure BulkDesc where
  src : Nat
  dst : Nat
  len : Nat
  dir : Bool
  remote : Bool
  ord : Bool
  peer : Nat
  sig : Bool
  chs : Nat
  hops : Nat

def bulkDesc (w : List Word) : BulkDesc :=
  let b := fun i lo n => (w.getD i 0).bits lo n
  ⟨b 0 0 32 + b 1 0 25 * 2 ^ 32, b 2 0 32 + b 3 0 25 * 2 ^ 32, b 4 0 32, (w.getD 1 0).bit 27, (w.getD 1 0).bit 26,
   (w.getD 1 0).bit 25, b 5 0 16, (w.getD 6 0).bit 12, b 6 8 4, b 6 0 8⟩

/-- The descriptors that R218 forbids. -/
def bulkIll (w : List Word) : Bool :=
  let d := bulkDesc w
  let b := fun i lo n => (w.getD i 0).bits lo n
  b 1 28 4 != 0 || b 3 25 7 != 0 || b 5 16 16 != 0 || b 6 13 19 != 0 || w.getD 7 0 != 0 ||
  (!d.remote && (d.dir || d.ord || d.peer != 0)) || ((!d.remote || d.dir) && (d.sig || d.chs != 0 || d.hops != 0))

/-- CPYB's own traps after POISON, in order (R219), with the address. -/
def bulkTrap (w : List Word) (peerCnt : Nat) : Option (Nat × Nat × Nat) :=
  let d := bulkDesc w
  if bulkIll w then some (tILLOP, 0, 0)
  else if d.src % 16 ≠ 0 then some (tALIGN, 0, d.src)
  else if d.dst % 16 ≠ 0 ∨ d.len % 16 ≠ 0 then some (tALIGN, 0, d.dst)
  else if 2 ^ 57 < d.src + d.len then some (tMEMPERM, 1 + 512, d.src)
  else if 2 ^ 57 < d.dst + d.len then some (tMEMPERM, 2 + 512, d.dst)
  else if d.remote && decide (peerCnt ≤ d.peer) then some (tMEMPERM, 768, d.dst)
  else none

/-- A bulk copy taken into its core's queue, with its acceptance on the barrier register. -/
def State.bulkAccept (s : State) (t g : Nat) (r : TeamRec) (w : List Word) (bar : Nat) (esc : Bool) (lpc : Word) : State :=
  let d := bulkDesc w
  let s := s.barEvent t g bar lpc (.arrive d.len false false)
  let s := if esc || d.remote then s.escape t 1 else s
  if d.len = 0 then s
  else
    let op : BulkOp :=
      { id := s.nextId, team := t, grp := g, ctx := r.ctx, die := dieOf r.core, lpc := lpc, src := d.src, dst := d.dst
        len := d.len, dir := d.dir, remote := d.remote, ord := d.ord, peer := d.peer, sig := d.sig, chs := d.chs, hops := d.hops
        bar := bar, esc := esc, todo := [(0, d.len / 16)], sent := [], forward := false, seen := s.time, bad := false, got := [] }
    { s with nextId := s.nextId + 1 }.updCore r.core fun k => { k with bulkQ := k.bulkQ ++ [op] }

def execCpyb (h : Hd) (ra : Fin 64) (j : Fin 16) (esc : Bool) (s : State) : Out :=
  let f := formOf (.cpyb h ra j esc)
  earlyInstr f (barMisuse j) (fun x ins i =>
    let w := (ins.getD i ⟨i, false, Lane.none, [], []⟩).op 0
    match bulkTrap w (min (s.ctx x.team.ctx).peercnt.toNat 65536) with
    | some (code, d, a) => .next (s.raise x.t x.g code d x.pc 0 a)
    | none =>
      x.outsideTx f s
        (if 16 ≤ (s.core x.team.core).bulkQ.length then
          .next (s.finish x f noJump fun g => { g with held := .bulk w j.val esc x.pc, wait := .bulk })
        else .next ((s.finish x f noJump id).bulkAccept x.t x.g x.team w j.val esc x.pc))) s

/-- A CPYB that waited for room is accepted (R219). -/
def State.bulkRoom (s : State) (t g : Nat) : State :=
  match s.team t, (s.group t g).map Group.held with
  | some r, some (Held.bulk w j esc lpc) =>
    if 16 ≤ (s.core r.core).bulkQ.length then s
    else (s.updGroup t g fun k => { k with held := .none, wait := .none }).bulkAccept t g r w j esc lpc
  | _, _ => s

/-! ### Chunks (R219, R220) -/

/-- Intervals without one number. -/
def dropChunk (l : List (Nat × Nat)) (c : Nat) : List (Nat × Nat) :=
  l.flatMap fun e =>
    if e.1 ≤ c ∧ c < e.2 then (if e.1 < c then [(e.1, c)] else []) ++ (if c + 1 < e.2 then [(c + 1, e.2)] else []) else [e]

/-- Whether a chunk is among intervals. -/
def hasChunk (l : List (Nat × Nat)) (c : Nat) : Bool := l.any fun e => decide (e.1 ≤ c ∧ c < e.2)

/-- Intervals with one number put back, in order. -/
def putChunk : List (Nat × Nat) → Nat → List (Nat × Nat)
  | [], c => [(c, c + 1)]
  | (a, b) :: r, c => if c < a then (c, c + 1) :: (a, b) :: r else (a, b) :: putChunk r c

/-- A bulk copy of a core changed; it leaves the queue when nothing of it is left. -/
def State.updBulk (s : State) (core id : Nat) (f : BulkOp → BulkOp) : State :=
  s.updCore core fun k =>
    { k with bulkQ := (k.bulkQ.map fun b => if b.id = id then f b else b).filter fun b =>
        b.id != id || !(b.todo.isEmpty && b.sent.isEmpty) }

/-- A valid peer entry (R337): the endpoint's address, its JobID and the ports that may send. -/
structure Peer where
  addr : BitVec 128
  job : BitVec 24
  ports : Nat

/-- The entry of a peer index, where it can be read and is valid (R337). PORTS 0 means the two ports of the sending die. -/
def State.peer (s : State) (ctx die peer : Nat) : Option Peer :=
  let p := (physOf (s.ctx ctx).peerbase).plus (32 * peer)
  if s.physUp p && s.reach die p.die && (s.physRead (p.plus 21) 1).any fun b => b.getLsbD 0 then
    let ports := s.physNum (p.plus 20) 1
    some ⟨BitVec.ofNat 128 (s.physNum p 16), BitVec.ofNat 24 (s.physNum (p.plus 16) 3),
      if ports = 0 then 3 * 4 ^ die else ports⟩
  else none

/-- The port that sends a chunk: the chunks of a copy are sprayed in turn over the ports of the mask whose link is up (R336, R339,
R340; assumption 81). -/
def State.ethPort (s : State) (mask chunk : Nat) : Option (Fin 8) :=
  let up := (List.finRange 8).filter fun n => mask / 2 ^ n.val % 2 == 1 && s.pkg.eth.getLsbD n.val
  up[chunk % up.length]?

/-- A chunk's packet (R220, R222, R336): a write with its bytes, or the request of a read, at resource index 0. -/
def BulkOp.packet (b : BulkOp) (q : Peer) (port : Fin 8) (chunk : Nat) (bytes : BitVec 128) (poison : Bool) : OutEvt :=
  .packet chunk q.addr
    { msg := b.id, job := q.job, op := if b.dir then .read else .write, ri := 0
      addr := BitVec.ofNat 64 ((if b.dir then b.src else b.dst) + 16 * chunk)
      bytes := bytes, poison := poison, dst := BitVec.ofNat 57 b.dst, len := BitVec.ofNat 32 b.len, ord := b.ord, sig := b.sig
      chs := Fin.ofNat 16 b.chs, hops := BitVec.ofNat 8 b.hops, port := port }

/-- At most `n` of the first numbers that intervals hold. -/
def firstChunks (l : List (Nat × Nat)) (n : Nat) : List Nat :=
  (l.flatMap fun e => (List.range (min n (e.2 - e.1))).map fun i => e.1 + i).take n

/-- The keys of a chunk's bytes at this device: its source and its destination, one of them in a remote copy. -/
def BulkOp.keys (b : BulkOp) (chunk : Nat) : List Nat :=
  let src := byteKey b.ctx (b.src + 16 * chunk)
  let dst := byteKey b.ctx (b.dst + 16 * chunk)
  if b.remote then [if b.dir then dst else src] else [src, dst]

/-- The chunks of a copy that are next: the first that has been read and is to be written, and the first that neither has been read nor is
attached to a fault record, where the copy's order allows it (R191, R221, R413). -/
def State.bulkNext (s : State) (core : Nat) (b : BulkOp) : List Nat :=
  let mine := fun (f : FaultRec) => (f.reqs.filter fun e => e.1 == .bulk core b.id).length
  let n := b.got.length + (s.faults.map mine).sum + 1
  let new := if b.ord then firstChunks b.todo 1 else (firstChunks b.todo n).filter fun c =>
    !(b.got.any fun e => e.1 == c) && !s.attachedAt (.bulk core b.id) (b.keys c)
  (b.got.map (·.1)).take 1 ++ new.take 1

/-- A chunk of a remote copy sent or asked for (R220). -/
def State.bulkSend (s : State) (r : TeamRec) (core : Nat) (b : BulkOp) (chunk : Nat) : State :=
  let a := groupAcc r (.bulk core b.id) 1 1
  match s.peer b.ctx b.die b.peer with
  | none =>
    (s.updCore core fun k => { k with bulkQ := k.bulkQ.filter fun k => k.id != b.id }).raiseAt b.team b.grp b.id tMEMPERM
      768 b.lpc 0 b.dst
  | some q =>
    match s.ethPort q.ports chunk with
    | none => s
    | some port =>
      let sent := fun (s : State) => s.updBulk core b.id fun b =>
        { b with todo := dropChunk b.todo chunk, sent := b.sent ++ [chunk], seen := s.time, bad := false }
      if b.dir then (sent s).emit (b.packet q port chunk 0 false)
      else
        match s.xlates a (b.keys chunk) with
        | .bad key code d st => (s.notice a key st).failAccess a.req key code d
        | .wait s => s
        | .ok ls =>
          let v := s.engineRead r (b.src + 16 * chunk) 16 (ls.getD 0 ⟨0, 0, none⟩) 0
          (sent v.2).emit (b.packet q port chunk (BitVec.ofNat 128 (leNat (v.1.map (·.1)))) ((spoil b.bad v.1).any (·.2)))

/-- A chunk of a local copy read and written, or written where it has been read (R219). -/
def State.bulkMove (s : State) (r : TeamRec) (core : Nat) (b : BulkOp) (chunk : Nat) : State :=
  let a := fun acc => groupAcc r (.bulk core b.id) 1 acc
  let src := byteKey b.ctx (b.src + 16 * chunk)
  let land := fun (s : State) =>
    (s.barEvent b.team b.grp b.bar b.lpc (.land 16)).updBulk core b.id fun b =>
      { b with todo := dropChunk b.todo chunk, bad := false, got := b.got.filter fun e => e.1 != chunk }
  match b.got.find? fun e => e.1 == chunk with
  | some (_, bs) =>
    match s.engineStore b.team b.grp b.id b.lpc r b.esc (b.dst + 16 * chunk) bs ⟨0, 0, none⟩ 0 with
    | (false, s) => s
    | (true, s) => land s
  | none =>
    match s.copyLeaves a src (byteKey b.ctx (b.dst + 16 * chunk)) (r.d.latent && !b.esc) with
    | .bad key code d st => (s.notice (a (if key = src then 1 else 2)) key st).failAccess (.bulk core b.id) key code d
    | .wait s => s
    | .ok ls =>
      let v := s.engineRead r (b.src + 16 * chunk) 16 (ls.getD 0 ⟨0, 0, none⟩) 0
      let bs := spoil b.bad v.1
      match v.2.engineStore b.team b.grp b.id b.lpc r b.esc (b.dst + 16 * chunk) bs (ls.getD 1 ⟨0, 0, none⟩) 0 with
      | (false, s) => s.updBulk core b.id fun b => { b with bad := false, got := b.got ++ [(chunk, bs)] }
      | (true, s) => land s

/-- A chunk of a bulk copy (R219, R220). Other chunks go on where one waits (R191, R413), but not in an ordered copy; a chunk that has
been read needs only room for its held write. -/
def State.bulkStep (s : State) (core id chunk : Nat) : State :=
  match (s.core core).bulkQ.find? fun b => b.id == id with
  | none => s
  | some b =>
    match s.team b.team with
    | none => s
    | some r =>
      let read := b.got.any fun e => e.1 == chunk
      if !hasChunk b.todo chunk || r.barred b.grp id ||
          (!read && (s.attachedAt (.bulk core id) (b.keys chunk) || r.engineWaits b.grp id b.lpc)) ||
          (b.ord && (b.todo.head?.map (·.1)) != some chunk) then s
      else if b.remote then s.bulkSend r core b chunk
      else s.bulkMove r core b chunk

end Sys2Proof.Machine
end

