-- ==== Sys2Proof/Machine/Sys.lean ====
section
/-! DEFINITION. Special registers (R328 to R330): SRD and SWR, and the values that hosts also read: PREEMPT (R302, R303) and
TBAND (R380). -/

namespace Sys2Proof.Machine

/-! ### The pre-emption timer (R302, R303) -/

/-- Whether a trap record waits for its slot (R356). -/
def State.slotBusy (s : State) (ctx k : Nat) : Bool :=
  (s.teams.any fun e => e.2.ctx == ctx && (e.2.handler.any fun h => h.2 == k)) ||
  (s.grids.any fun e => e.2.ctx == ctx && e.2.handlers.any fun h => h.slot == k)

/-- The number of trap records of a context (R356). -/
def trapSlots (c : CtxRec) : Nat := let n := c.trapctl.toNat % 16; if 12 < n then 1 else 2 ^ n

/-- 100 ms in nanoseconds (R303, R339). -/
def hundredMs : Nat := 100000000

/-- Whether the deadline timer of a context is paused (R303, R326, R356): for less than 100 ms, a team waits on a fault, is held by a
purge, or its trap record, ready to be written, waits for its slot. -/
def State.paused (s : State) (ctx : Nat) : Bool :=
  s.teams.any fun e =>
    e.2.ctx == ctx &&
    ((s.faults.any fun f => f.status == 0 && f.young && f.reqs.any fun q => q.1.ofTeam s e.1) ||
     (s.holds.any fun h => decide (s.time < h.time + hundredMs) && h.req.ofTeam s e.1) ||
     (match e.2.trap with
      | some i => i.gone.isSome && s.slotBusy ctx ((s.ctx ctx).traptail.toNat % trapSlots (s.ctx ctx)) && decide (s.time < i.since + hundredMs)
      | none => false))

/-- PREEMPT (R302): REQ, PAUSED and the microseconds left. -/
def State.preemptReg (s : State) (ctx : Nat) : Word :=
  let c := s.ctx ctx
  if !c.draining then 0
  else Word.ofNat (2 ^ 31 + (s.paused ctx).toNat * 2 ^ 30 + c.left / usTicks % 2 ^ 30)

/-- Whether a stack sweeps (R377). -/
def State.sweeping (s : State) : Bool := (List.range 8).any fun k => (s.stack k).sweep.isSome

/-- TBAND of a die (R380). -/
def State.tband (s : State) (die : Nat) : Word :=
  let t := s.thermal
  Word.ofNat ((Tab.get 0 t.temps die).toNat * 2 ^ 20 + t.state.code * 2 ^ 16 + t.sense.code * 2 ^ 4 + s.sweeping.toNat * 8 +
    t.band.code)

/-- The die counters in the order of R329; the seventeenth is DHVER. -/
def State.dieCounter (s : State) (die i : Nat) : Nat :=
  if i = 16 then (s.stack (2 * die)).ver.toNat + 16 * (s.stack (2 * die + 1)).ver.toNat
  else (Tab.get 0 (s.die die).cnt i).toNat

/-- A bank that has run no loop. -/
def TStep.zero : TStep := ⟨false, 0, 0⟩

/-- Whether the loop that runs on a bank waits on a replayable fault (R144). -/
def State.loopWaits (s : State) (core bank : Nat) : Bool :=
  (s.core core).tileQ.any fun o => o.bank == bank && o.begun &&
    (match o.kind with | .loop _ _ _ => true | _ => false) &&
    s.faults.any fun f => f.status == 0 && f.reqs.any fun q => q.1 == .tile core o.id

/-- TSTEP of a bank (R144). -/
def State.tstepWord (s : State) (core bank : Nat) : Word :=
  let x := Tab.get TStep.zero (s.core core).stepped bank
  Word.ofNat (x.run.toNat * 2 ^ 31 + (s.loopWaits core bank).toNat * 2 ^ 30 + x.kend.toNat * 2 ^ 12 + x.done.toNat)

/-! ### SRD and SWR -/

/-- The 64-bit value of an even register number, if it names a 64-bit register (R329). -/
def State.wideReg (s : State) (x : Ix) (n : Nat) : Option Nat :=
  if n = 0x010 then some s.clock.cycle
  else if n = 0x012 then some s.time
  else if 0x040 ≤ n ∧ n ≤ 0x05E ∧ n % 2 = 0 then
    some (if (s.ctx x.team.ctx).cntrs then s.dieCounter (dieOf x.team.core) ((n - 0x040) / 2) else 0)
  else none

/-- The value of a register in a lane at issue (R329, R330). -/
def State.specialReg (s : State) (x : Ix) (n lane : Nat) : Word :=
  match s.wideReg x n with
  | some v => Word.ofNat v
  | none =>
    match n with
    | 0x000 => Word.ofNat lane
    | 0x001 => Word.ofNat x.g
    | 0x002 => Word.ofNat x.team.num
    | 0x003 => Word.ofNat x.team.gx
    | 0x004 => Word.ofNat x.team.gy
    | 0x005 => Word.ofNat x.team.gz
    | 0x006 => Word.ofNat x.grp.role
    | 0x007 => x.pc
    | 0x008 => x.grp.nctl.setWidth 32
    | 0x009 => s.tband (dieOf x.team.core)
    | 0x00A => Word.ofNat x.team.task
    | 0x00B => Word.ofNat x.team.ctx
    | 0x00C => Word.ofNat (dieOf x.team.core)
    | 0x00D => s.preemptReg x.team.ctx
    | 0x00E => x.grp.stalls
    | 0x060 => if (s.ctx x.team.ctx).cntrs then Word.ofNat (s.dieCounter (dieOf x.team.core) 16) else 0
    | _ =>
      if 0x020 ≤ n ∧ n ≤ 0x023 then
        match x.team.banks[n - 0x020]? with
        | some p => s.tstepWord x.team.core p
        | none => 0
      else if (0x011 ≤ n ∧ n ≤ 0x05F) ∧ n % 2 = 1 then
        (match x.grp.latch with
         | some (m, hi) =>
           if m + 1 = n then (if 0x040 ≤ n ∧ !(s.ctx x.team.ctx).cntrs then 0 else hi) else 0
         | none => 0)
      else 0

/-- SRD (R328, R330): a 64-bit register's low half leaves its high half in the group's latch. -/
def execSrd (h : Hd) (rd : LDst) (reg : Fin 512) (s : State) : Out :=
  let f := formOf (.srd h rd reg)
  if !srdNumber reg.val then .next s.illop
  else
    ownInstr f (fun x _ =>
      .next (s.finish x f noJump fun g =>
        let g' := g.commit x f s.clock.cycle fun i => (x.grp.lane i, [s.specialReg x reg.val i])
        match s.wideReg x reg.val, x.ex with
        | some v, _ :: _ => { g' with latch := some (reg.val, Word.ofNat (v / 2 ^ 32)) }
        | _, _ => g')) s

/-- The group after a write of a special register (R7, R82, R328): NCTL's reserved bits are ignored. -/
def Group.special (g : Group) (n : Nat) (v : Word) : Group :=
  match n with
  | 0x008 => { g with nctl := (v &&& 7).setWidth 4 }
  | 0x00E => { g with stalls := v }
  | _ => g

def execSwr (h : Hd) (ra : Src) (reg : Fin 512) (s : State) : Out :=
  let f := formOf (.swr h ra reg)
  if !swrNumber reg.val then .next s.illop
  else groupInstr f (fun x ins i =>
    .next (s.finish x f noJump fun g => g.special reg.val (laneWord ins 0 i))) s

end Sys2Proof.Machine
end

