-- ==== Sys2Proof/Machine/Launch.lean ====
section
/-! DEFINITION. LAUNCH and DEVELOP (R277 to R285, R350). -/

namespace Sys2Proof.Machine

/-- The entries of a device launch queue (R279). -/
def launchRoom : Nat := 256

/-- The key of a context's launch queue on a die. -/
def launchKey (ctx die : Nat) : Nat := ctx * 4 + die

/-- The lanes whose words are sources of a LAUNCH (R279): one for a g pair, every executing lane for a v pair. -/
def launchLanes (rd : Base) (x : Ix) : List Nat :=
  match rd with
  | .g _ => x.ex.take 1
  | .v _ => x.ex

/-- The queue entry of a lane (R279), which reports to the ring of the launching grid (R296). -/
def launchEntry (id : Nat) (opt : LaunchOpt) (ring : Nat) (x : Ix) (ins : List LaneIn) (i : Nat) : LaunchEnt :=
  let l := ins.getD i ⟨i, false, Lane.none, [], []⟩
  ⟨id, laneAddr ins 0 i, Word.ofNat opt.code, l.w 0 2, l.w 0 3, x.team.grid, ring⟩

def execLaunch (h : Hd) (rd : Base) (opt : LaunchOpt) (s : State) : Out :=
  let f := formOf (.launch h rd opt)
  memInstr f (fun x ins =>
      let ls := x.ex.map fun i => (i, laneAddr ins 0 i)
      firstTrap [failing tALIGN 0 ls (fun a => a % 64 != 0), failing tMEMPERM (1 + 512) ls (fun a => decide (2 ^ 57 ≤ a))])
    (fun x ins =>
      match x.ex with
      | [] => .next (s.finish x f noJump id)
      | _ =>
        x.outsideTx f s
          (let src := (launchLanes rd x).map (launchEntry s.nextId opt ((s.grid x.team.grid).elim 0 (·.ring)) x ins)
           .next ({ s with nextId := s.nextId + 1 }.finish x f noJump fun g =>
             { g with held := .launch s.nextId src opt.wait opt.esc x.pc (maskOf x.ex) (s.fencePre x .rel .sys ⟨true, true, true, true⟩)
                      wait := .launch }))) s

/-- A group that stands at its LAUNCH no longer. -/
def State.launched (s : State) (t g : Nat) : State := s.updGroup t g fun k => { k with held := .none, wait := .none }

/-- A version with more held launches, all in issue order (R284). -/
def Version.addLaunches (v : Version) (src : List LaunchEnt) : Version :=
  let id := (src.map (·.id)).headD 0
  { v with launches := (v.launches.filter fun e => decide (e.id ≤ id)) ++ src ++ v.launches.filter fun e => decide (id < e.id) }

/-- How many launches a task holds: in its version, and in a develop in progress (R284). -/
def TeamRec.heldLaunches (r : TeamRec) : Nat := r.ver.launches.length + ((r.dev.map fun d => d.ver.launches.length).getD 0)

/-- A LAUNCH whose release is complete queues or holds its entries, waits for room, or traps LAUNCHFULL (R279, R284). With ESC it
counts as an escape when it is performed, and a develop that comes before it goes first. What a develop in progress still holds counts
among the task's 16 entries. -/
def State.launchSpace (s : State) (t g : Nat) : State :=
  match s.team t, s.group t g with
  | some r, some k =>
    match k.held with
    | .launch id src wait esc lpc lanes pre =>
      if r.barred g id || pre.any (fun i => (s.pendingIds t g).contains i) then s
      else
        let s := s.l1Flush r.core r.ctx
        if s.outPending r.core r.ctx || (esc && r.dev.any fun d => decide (d.born ≤ id)) then s
        else if r.d.latent && !esc then
          if 16 < r.heldLaunches + src.length then (s.launched t g).raiseAt t g id tLAUNCHFULL 1 lpc lanes 0
          else (s.launched t g).updTeam t fun r => { r with ver := r.ver.addLaunches src }
        else
          let q := launchKey r.ctx (dieOf r.core)
          let old := Tab.get [] s.launchQ q
          if launchRoom < old.length + src.length then
            if wait then s else (s.launched t g).raiseAt t g id tLAUNCHFULL 0 lpc lanes 0
          else
            let s := { (s.launched t g) with launchQ := s.launchQ.ins q (old ++ src) }
            if esc then s.escape t src.length else s
    | _ => s
  | _, _ => s

/-- DEVELOP (R350): the group waits for the develop of its task; lanes inside a transaction abort. Outside a task nothing
happens. -/
def execDevelop (h : Hd) (s : State) : Out :=
  let f := formOf (.develop h)
  groupInstr f (fun x _ _ =>
    let outside := x.ex.any fun i => (x.grp.lane i).tx.isNone
    .next ({ s with nextId := s.nextId + 1 }.finish x f x.resume fun g =>
      let g := g.abort x.inTx
      if x.team.d.latent && outside then { g with wait := .develop s.nextId s.clock.cycle } else g)) s

end Sys2Proof.Machine
end

