-- ==== Sys2Proof/Machine/Tile.lean ====
section
/-! DEFINITION. The tile unit (R131 to R154): TLOOP, THAD, TACC, TQNT, the tile queue, and the steps and rows of its work. -/

namespace Sys2Proof.Machine

/-! ### Banks (R131, R132) -/

/-- A cell at team start. -/
def TileCell.zero : TileCell := ⟨0, 0, false⟩

/-- The number of a cell. -/
def cellNo (i j : Nat) : Nat := i * 128 + j

/-- A cell of a physical bank. -/
def CoreRec.cell (k : CoreRec) (bank n : Nat) : TileCell := Tab.get TileCell.zero (Tab.get [] k.bank bank) n

/-- A core with a cell of a bank set. -/
def CoreRec.setCell (k : CoreRec) (bank n : Nat) (c : TileCell) : CoreRec :=
  { k with bank := k.bank.ins bank (Tab.set TileCell.zero (Tab.get [] k.bank bank) n c) }

/-- The checks of R46 with the first own trap of TLOOP, TQNT and TACC, whatever the guards (R142, R148, R149, R355): a bank number at
or beyond the team's count. -/
def State.beginBank (s : State) (f : Form) (bank : Option Nat) : Except State Ix :=
  match s.begin f, bank with
  | .ok x, some k =>
    if x.team.banks.length ≤ k then .error (s.raise x.t x.g tILLREG (k + 256 * 5) x.pc 0 0) else .ok x
  | r, _ => r

/-! ### Descriptors (R136, R147, R149) -/

/-- Field `n` bits at `lo` of word `i` of a descriptor. -/
def dfield (w : List Word) (i lo n : Nat) : Nat := (w.getD i 0).bits lo n

/-- A signed 8-bit field. -/
def dsigned (w : List Word) (i lo : Nat) : Int := ((w.getD i 0).extractLsb' lo 8).toInt

/-- A 57-bit base in two words. -/
def dbase (w : List Word) (i : Nat) : Nat := dfield w i 0 32 + dfield w (i + 1) 0 25 * 2 ^ 32

/-- The format of a code from 0 to 8 (R64). -/
def tileFmt (c : Nat) : Fmt :=
  match c with
  | 0 => .f32 | 1 => .bf16 | 2 => .f16 | 3 => .e4m3 | 4 => .e5m2 | 5 => .e3m2 | 6 => .e2m3 | 7 => .e2m1 | _ => .mxint8

/-- The MX element format of a code from 3 to 8. -/
def tileElem (c : Nat) : EFmt :=
  match c with
  | 3 => .e4m3 | 4 => .e5m2 | 5 => .e3m2 | 6 => .e2m3 | 7 => .e2m1 | _ => .mxint8

/-- Whether a code names an MX element format. -/
def isMx (c : Nat) : Bool := decide (3 ≤ c) && decide (c ≤ 8)

/-- The width of an element in memory. -/
def tileWidth (c : Nat) : Nat :=
  match c with
  | 0 => 32 | 1 => 16 | 2 => 16 | 5 => 6 | 6 => 6 | 7 => 4 | _ => 8

/-- The window of a loop and its steps. -/
def loopM (w : List Word) : Nat := 16 * (dfield w 1 29 3 + 1)
def loopN (w : List Word) : Nat := 16 * (dfield w 3 29 3 + 1)
def loopStart (w : List Word) : Nat := dfield w 6 12 12
def loopEnd (w : List Word) : Nat := dfield w 6 0 12

/-- The loop descriptors that trap ILLOP (R136, R142). -/
def loopIll (w : List Word) : Bool :=
  let a := dfield w 1 25 4
  let b := dfield w 3 25 4
  let thin := fun c => c == 1 || c == 2
  dfield w 7 8 24 != 0 || !((thin a && thin b) || (isMx a && isMx b)) || decide (loopEnd w < loopStart w)

/-- THAD's and TQNT's (R147, R149). -/
def hadIll (pts : HadPts) (w : List Word) : Bool :=
  dfield w 1 26 6 != 0 || dfield w 3 29 3 != 0 || dfield w 5 28 4 != 0 || dfield w 6 16 16 != 0 || decide (9 ≤ dfield w 3 25 4) ||
  dfield w 5 16 12 == 0 || (decide (pts = .h64) && dfield w 5 16 12 % 2 == 1)
def qntM (w : List Word) : Nat := 16 * (dfield w 1 29 3 + 1)
def qntN (w : List Word) : Nat := 16 * (dfield w 3 0 3 + 1)
def qntIll (w : List Word) : Bool :=
  dfield w 3 3 29 != 0 || decide (9 ≤ dfield w 1 25 4) || (isMx (dfield w 1 25 4) && qntN w % 32 != 0)

/-- The first base of a list that is not a multiple of 8. -/
def misBase (l : List Nat) : Option Nat := l.find? fun a => a % 8 != 0

/-! ### Acceptance (R133, R135, R151) -/

/-- The steps that an instruction posts. -/
def TileOp.steps (o : TileOp) : Nat :=
  match o.kind with
  | .loop _ _ _ => loopEnd o.desc - loopStart o.desc
  | .had _ _ => dfield o.desc 5 0 16
  | .qnt _ _ => qntM o.desc

/-- The dithers that an instruction reserves in a lane. -/
def TileOp.draws (o : TileOp) (lane : Nat) : Nat :=
  let cols := fun n => (n + 31 - lane) / 32
  match o.kind with
  | .loop _ _ _ => 0
  | .had _ sr => if sr then dfield o.desc 5 0 16 * cols (32 * dfield o.desc 5 16 12) else 0
  | .qnt sr _ => if sr then qntM o.desc * cols (qntN o.desc) else 0

/-- A tile instruction taken into its core's queue: its arrival and post, and its dithers. -/
def State.tileAccept (s : State) (t g : Nat) (r : TeamRec) (o : TileOp) : State :=
  let s := s.barEvent t g o.bar o.lpc (.arrive o.steps false false)
  let dith := match s.group t g with
    | some k => k.lanes.map fun l => l.slot 3
    | none => []
  let s := s.updGroup t g fun k => k.mapLanes fun i l => l.consume 3 (o.draws i)
  let idle := match o.kind with | .had _ _ => o.steps == 0 | _ => false
  if idle then s
  else
    { s with nextId := s.nextId + 1 }.updCore r.core fun k => { k with tileQ := k.tileQ ++ [{ o with id := s.nextId, dith := dith }] }

/-- Whether a core's tile queue is full. -/
def State.tileFull (s : State) (core : Nat) : Bool := decide (8 ≤ (s.core core).tileQ.length)

/-- A tile instruction: its bank number, BARMISUSE, POISON of its `n` descriptor words, ILLOP, ALIGN, the transaction rule, acceptance.
ALIGN names the first misaligned base and every executing lane (assumption 73). -/
def tileInstr (f : Form) (j : Fin 16) (n : Nat) (ill : List Word → Bool) (bases : List Word → List Nat) (bank : Option Nat)
    (kind : Ix → TileKind) (s : State) : Out :=
  match s.beginBank f bank with
  | .error s' => .next s'
  | .ok x =>
    match x.ex with
    | [] => .next (s.finish x f noJump id)
    | i :: _ =>
      let ws := (x.source f 0 i).take n
      let w := ws.map (·.bits)
      if x.team.d.barriers ≤ j.val then .next (s.raise x.t x.g tBARMISUSE j.val x.pc 0 0)
      else if ws.any (·.poison) then .next (s.raise x.t x.g tPOISON 0 x.pc (maskOf x.ex) 0)
      else if ill w then .next (s.raise x.t x.g tILLOP 0 x.pc 0 0)
      else
        match misBase (bases w) with
        | some a => .next (s.raise x.t x.g tALIGN 0 x.pc (maskOf x.ex) a)
        | none =>
          x.outsideTx f s
            (let o : TileOp := ⟨0, x.t, x.g, x.pc, kind x, w, (bank.bind fun k => x.team.banks[k]?).getD 4, j.val, [], 0, false, none, []⟩
             if s.tileFull x.team.core then
               .next (s.finish x f noJump fun g => { g with held := .tile o, wait := .tile })
             else .next ((s.finish x f noJump id).tileAccept x.t x.g x.team o))

def execTloop (h : Hd) (ra : Fin 64) (k : Fin 4) (j : Fin 16) (mode : LoopMode) (z : Bool) (s : State) : Out :=
  tileInstr (formOf (.tloop h ra k j mode z)) j 8 loopIll (fun w => [dbase w 0, dbase w 2]) (some k.val)
    (fun x => .loop mode z x.grp.noise) s

def execThad (h : Hd) (ra : Fin 64) (pts : HadPts) (j : Fin 16) (sr : Bool) (s : State) : Out :=
  tileInstr (formOf (.thad h ra pts j sr)) j 7 (hadIll pts) (fun w => [dbase w 0, dbase w 2]) none (fun _ => .had pts sr) s

def execTqnt (h : Hd) (ra : Fin 64) (k : Fin 4) (j : Fin 16) (sr : Bool) (vr : Bool) (s : State) : Out :=
  tileInstr (formOf (.tqnt h ra k j sr vr)) j 4 qntIll (fun w => [dbase w 0]) (some k.val) (fun _ => .qnt sr vr) s

/-- A tile instruction that waited for room is accepted (R133). -/
def State.tileRoom (s : State) (t g : Nat) : State :=
  match s.team t, (s.group t g).map Group.held with
  | some r, some (Held.tile o) =>
    if s.tileFull r.core then s
    else (s.updGroup t g fun k => { k with held := .none, wait := .none }).tileAccept t g r o
  | _, _ => s

/-! ### TACC (R148) -/

/-- The cell that an index word names. -/
def cellOf (w : Word) : Nat := w.toNat % 16384

/-- TACC.RD and TACC.WR after their checks: lanes inside a transaction abort and are skipped (R153). -/
def taccInstr (f : Form) (k : Fin 4) (rd : Bool) (body : Ix → List LaneIn → List Nat → Nat → State → Out) (s : State) : Out :=
  match s.beginBank f (some k.val) with
  | .error s' => .next s'
  | .ok x =>
    match x.poisoned f with
    | [] =>
      let ins := x.ins f
      let outside := x.ex.filter fun i => (x.grp.lane i).tx.isNone
      let bank := x.team.banks.getD k.val 4
      let bad := if rd then outside.filter fun i => ((s.core x.team.core).cell bank (cellOf (laneWord ins 0 i))).poison else []
      match bad with
      | i :: ls => .next (s.raise x.t x.g tPOISON 2 x.pc (maskOf (i :: ls)) 0)
      | [] => body x ins outside bank s
    | ls => .next (s.raise x.t x.g tPOISON 0 x.pc (maskOf ls) 0)

def execTaccRd (h : Hd) (rd : LDst) (ra : Src) (k : Fin 4) (fm : AccForm) (s : State) : Out :=
  let f := formOf (.taccRd h rd ra k fm)
  taccInstr f k true (fun x ins outside bank s =>
    .next (s.finish x f x.resume fun g =>
      let g := g.abort x.inTx
      g.commit { x with ex := outside } f s.clock.cycle fun i =>
        let c := (s.core x.team.core).cell bank (cellOf (laneWord ins 0 i))
        (g.lane i, match fm with | .p => [c.mean] | .pvar => [c.var] | .m => [c.mean, c.var]))) s

/-- The writes of TACC.WR in increasing lane order: the core after them and each lane's old words. -/
def taccWrites (sh : Shape) (bank : Nat) (ins : List LaneIn) (ls : List Nat) (k : CoreRec) : CoreRec × List (Nat × List Word) :=
  ls.foldl (fun (acc : CoreRec × List (Nat × List Word)) i =>
    let w := (ins.getD i ⟨i, false, Lane.none, [], []⟩).op 0
    let n := cellOf (w.getD (if sh = .P then 1 else 2) 0)
    let c := acc.1.cell bank n
    if sh = .P then (acc.1.setCell bank n ⟨w.getD 0 0, c.var, false⟩, acc.2 ++ [(i, [c.mean])])
    else (acc.1.setCell bank n ⟨w.getD 0 0, w.getD 1 0, false⟩, acc.2 ++ [(i, [c.mean, c.var])])) (k, [])

def execTaccWr (h : Hd) (sh : Shape) (rd : LDst) (ra : Src) (k : Fin 4) (s : State) : Out :=
  let f := formOf (.taccWr h sh rd ra k)
  taccInstr f k false (fun x ins outside bank s =>
    let r := taccWrites sh bank ins outside (s.core x.team.core)
    let s' := if outside.isEmpty then s else s.setCore x.team.core r.1
    .next (s'.finish x f x.resume fun g =>
      let g := g.abort x.inTx
      g.commit { x with ex := outside } f s.clock.cycle fun i =>
        (g.lane i, ((r.2.find? fun e => e.1 == i).map (·.2)).getD []))) s

def execTaccZero (h : Hd) (k : Fin 4) (s : State) : Out :=
  let f := formOf (.taccZero h k)
  match s.beginBank f (some k.val) with
  | .error s' => .next s'
  | .ok x =>
    match x.ex with
    | [] => .next (s.finish x f noJump id)
    | _ =>
      x.outsideTx f s (.next ((s.updCore x.team.core fun c => { c with bank := c.bank.del (x.team.banks.getD k.val 4) }).finish x f
        noJump id))

/-! ### Reading and writing memory for tile work (R137, R145, R152) -/

/-- A span of bytes cut at lines, its addresses modulo 2^57. -/
def spans (va n : Nat) : List (Nat × Nat) :=
  if n = 0 then []
  else (List.range ((va % 128 + n + 127) / 128)).map fun i =>
    let lo := max va ((va / 128 + i) * 128)
    (lo % 2 ^ 57, min (va + n) ((va / 128 + i + 1) * 128) - lo)

/-- What a tile read or write meets. -/
inductive TileIo where
  | ok (bs : List (List (Byte × Bool))) (s : State)
  | wait (s : State)
  | bad (key code detail status : Nat)

/-- The bytes of several ranges, with their marks: from the home or a replica once the core's dirty bytes of the line have gone
there, or from the task's own version. -/
def State.tileRead (s : State) (r : TeamRec) (a : Acc) (ranges : List (Nat × Nat)) : TileIo :=
  let pieces := ranges.flatMap fun e => spans e.1 e.2
  match s.xlates a (pieces.map fun p => byteKey r.ctx p.1) with
  | .bad key c d st => .bad key c d st
  | .wait s => .wait s
  | .ok leaves =>
    let leafOf := fun va => (((pieces.zip leaves).find? fun e => e.1.1 / 128 == va / 128).map (·.2)).getD ⟨0, 0, none⟩
    let got := ranges.foldl (fun (acc : List (List (Byte × Bool)) × State) e =>
      let one := (spans e.1 e.2).foldl (fun (b : List (Byte × Bool) × State) p =>
        let s := (b.2.l1WriteBack r.core (byteKey r.ctx p.1 / 128)).settle
        let v := s.engineRead r p.1 p.2 (leafOf p.1) 0
        (b.1 ++ v.1, v.2)) ([], acc.2)
      (acc.1 ++ [one.1], one.2)) ([], s)
    .ok got.1 got.2

/-- The bytes of several ranges, cut at lines. -/
def cutLines (ranges : List (Nat × List Byte)) : List (Nat × List Byte) :=
  ranges.flatMap fun e => (spans e.1 e.2.length).map fun p => (p.1, (e.2.drop ((p.1 + 2 ^ 57 - e.1 % 2 ^ 57) % 2 ^ 57)).take p.2)

/-- Pieces that a tile instruction writes under their leaves, in order up to the first for which its task must develop, and what is left of
them. -/
def State.tilePieces (s : State) (o : TileOp) (r : TeamRec) : List ((Nat × List Byte) × Leaf) → List (Nat × List Byte) × State
  | [] => ([], s)
  | (p, leaf) :: ps =>
    match s.engineStore o.team o.grp o.id o.lpc r false p.1 (p.2.map fun b => (b, false)) leaf 0 with
    | (true, s) => s.tilePieces o r ps
    | (false, s) => (p :: ps.map (·.1), s)

/-! ### A step (R138 to R141) -/

/-- Element `k` of a block's bytes. -/
def blockElem (c : Nat) (bs : List Byte) (k : Nat) : Fl := fmtDecode (tileFmt c) (leNat bs / 2 ^ (tileWidth c * k) % 2 ^ tileWidth c)

/-- The bytes of a block of 32 elements. -/
def blockBytes (c : Nat) : Nat := 4 * tileWidth c

/-- A block of a mean plane or a variance plane: its 32 elements and its scale; `none` for a scale of 0xFF. -/
structure TBlock where
  elems : List Fl
  scale : Option Int

/-- A block scaled: NaN where the scale is. -/
def TBlock.val (b : TBlock) (k : Nat) : Fl :=
  match b.scale with
  | none => .nan
  | some e =>
    match b.elems.getD k .nan with
    | .num z x => .num z (x.mul (Frac.pow2 e))
    | v => v

/-- A variance element (R140): ±0 reads as 0; NaN, a negative, an infinity and a NaN scale as +∞ (`none`). -/
def TBlock.var (b : TBlock) (k : Nat) : Option Frac :=
  match b.val k with
  | .num _ x => if x.num < 0 then none else some x
  | _ => none

/-- A level of a tree: neighbours paired. -/
def pairUp {α : Type} (f : α → α → α) : List α → List α
  | a :: b :: l => f a b :: pairUp f l
  | l => l

/-- The five levels of a tree over 32 leaves. -/
def tree32 {α : Type} (f : α → α → α) (l : List α) (d : α) : α := ((List.range 5).foldl (fun l _ => pairUp f l) l).getD 0 d

/-- A node of the mean tree with the squared errors below it. -/
def meanNode (a b : Fl × Frac) : Fl × Frac :=
  let r := (addPre .rne a.1 b.1).rne
  (r, (a.2.add b.2).add (r.frac.sub (a.1.frac.add b.1.frac)).sq)

/-- A variance rounded toward +∞ to FP32. -/
def rupVar (x : Option Frac) : Option Frac :=
  match x with
  | none => none
  | some v => match Layout.f32.target.round .rup 0 false (.q v) with | .num _ y => some y | _ => none

/-- The square of a value times a variance (R140). -/
def sqVar (a : Fl) (v : Option Frac) : Option Frac :=
  match v with
  | none => none
  | some v =>
    if v.isZero then some Frac.zero
    else match a with | .num _ x => some (x.sq.mul v) | _ => none

/-- A product of two variances. -/
def mulVar (v w : Option Frac) : Option Frac :=
  match v, w with
  | some a, some b => some (a.mul b)
  | some a, none => if a.isZero then some Frac.zero else none
  | none, some b => if b.isZero then some Frac.zero else none
  | none, none => none

/-- A cell after a step, from its blocks of A and B and their variance blocks. -/
def stepCell (mode : LoopMode) (noise : Bool) (a b va vb : TBlock) (c : TileCell) : TileCell :=
  let ps := (List.range 32).map fun k => (mulFl (a.elems.getD k .nan) (b.elems.getD k .nan), Frac.zero)
  let t := tree32 meanNode ps (.nan, Frac.zero)
  let sc := match a.scale, b.scale with | some x, some y => some (Frac.pow2 (x + y)) | _, _ => none
  let ts := match sc with | some q => mulFl t.1 (.num false q) | none => .nan
  let r := (Pre.of ts).rne
  let mean := (addPre .rne (f32 c.mean) r).rne
  let mw := word32 mean
  if mode = .mean then { c with mean := mw }
  else
    match mean with
    | .nan => { c with mean := mw, var := nan32 }
    | .inf _ => { c with mean := mw, var := inf32 false }
    | .num _ m =>
      let u := (List.range 32).map fun k =>
        let x := sqVar (a.val k) (vb.var k)
        if mode = .var1 then x else addInf (addInf x (sqVar (b.val k) (va.var k))) (mulVar (va.var k) (vb.var k))
      let root := tree32 (fun x y => rupVar (addInf x y)) u none
      let var := rupVar (addInf (readVar c.var) root)
      let q := ((((sc.getD Frac.zero).sq.mul t.2).add (r.frac.sub ts.frac).sq).add (m.sub ((f32 c.mean).frac.add r.frac)).sq)
      let var := if noise then rupVar (addInf var (rupVar (some q))) else var
      { c with mean := mw, var := rup32 (var.map fun v => Rl.q v) }

/-- The ranges of a block of an operand (R137): its elements and, for MX formats, its scale; `plane` 0 for the means and 2 for the
variances. -/
def blockRanges (w : List Word) (b : Bool) (plane i s : Nat) : List (Nat × Nat) :=
  let base := dbase w (if b then 2 else 0)
  let c := dfield w (if b then 3 else 1) 25 4
  let str := dfield w 4 (if b then 16 else 0) 16
  let pln := dfield w 5 (if b then 16 else 0) 16 * 65536
  let inc : Int := if b then dsigned w 7 0 else dsigned w 6 24
  let at_ := (((base + plane * pln + 16 * str * i : Nat) : Int) + 8 * inc * s) % ((2 ^ 57 : Nat) : Int)
  (at_.toNat, blockBytes c) :: (if isMx c then [((base + (plane + 1) * pln + str * i + s) % 2 ^ 57, 1)] else [])

/-- A block from the bytes of its ranges. -/
def blockOf (c : Nat) (bs : List (List (Byte × Bool))) : TBlock :=
  let bytes := fun i => (bs.getD i []).map fun (b : Byte × Bool) => b.1
  let sc := leNat (bytes 1)
  ⟨(List.range 32).map (blockElem c (bytes 0)), if !isMx c then some 0 else if sc = 255 then none else some ((sc : Int) - 127)⟩

/-- The blocks that a step reads, plane by plane: A, B, then the variance planes of its mode. -/
def stepPlanes (mode : LoopMode) : List (Bool × Nat) :=
  match mode with
  | .mean => [(false, 0), (true, 0)]
  | .var1 => [(false, 0), (true, 0), (true, 2)]
  | .var2 => [(false, 0), (true, 0), (true, 2), (false, 2)]

/-- The oldest entry of a tile queue that has not finished its accesses to a bank (R134). -/
def tileHead (q : List TileOp) (o : TileOp) : Bool :=
  (q.find? fun p => p.bank == o.bank && p.cells.isNone && (match p.kind with | .had _ _ => false | _ => true)).map (·.id) == some o.id

/-- An entry of a core's tile queue changed; it leaves once its last step is done. -/
def State.updTile (s : State) (core id steps : Nat) (f : TileOp → TileOp) : State :=
  s.updCore core fun k =>
    { k with tileQ := (k.tileQ.map fun o => if o.id = id then f o else o).filter fun o => o.id != id || decide (o.next < steps) }

/-- An entry dropped, with its team's trap (R145). -/
def State.tileTrap (s : State) (core : Nat) (o : TileOp) (code detail : Nat) : State :=
  (s.updCore core fun k => { k with tileQ := k.tileQ.filter fun p => p.id != o.id }).raiseAt o.team o.grp o.id code detail o.lpc 0 0

/-- A loop reaches its bank (R142, R144): `.Z` clears the window, and TSTEP shows it. -/
def State.loopBegin (s : State) (core : Nat) (o : TileOp) (z : Bool) : State :=
  let w := o.desc
  let n := loopEnd w - loopStart w
  let s := s.updCore core fun k =>
    let k := if z then
        { k with bank := k.bank.upd o.bank fun b => b.filter fun e => !(decide (e.1 / 128 < loopM w) && decide (e.1 % 128 < loopN w)) }
      else k
    { k with stepped := k.stepped.ins o.bank ⟨decide (0 < n), BitVec.ofNat 12 (loopEnd w), BitVec.ofNat 12 (loopStart w)⟩ }
  s.updTile core o.id n fun o => { o with begun := true }

/-- A step of a loop applied to every cell of its window (R138). -/
def State.loopApply (s : State) (core : Nat) (o : TileOp) (mode : LoopMode) (noise : Bool) (blocks : List (List TBlock)) : State :=
  let w := o.desc
  let blk := fun p i => (blocks.getD p []).getD i ⟨[], some 0⟩
  s.updCore core fun k =>
    let k := (List.range (loopM w)).foldl (fun (k : CoreRec) i =>
      (List.range (loopN w)).foldl (fun (k : CoreRec) j =>
        k.setCell o.bank (cellNo i j) (stepCell mode noise (blk 0 i) (blk 1 j) (blk 3 i) (blk 2 j) (k.cell o.bank (cellNo i j)))) k) k
    let done := loopStart w + o.next + 1
    { k with stepped := k.stepped.ins o.bank ⟨decide (done < loopEnd w), BitVec.ofNat 12 (loopEnd w), BitVec.ofNat 12 done⟩ }

/-- Whether an entry of a tile queue may go on: its acceptance has been counted, no trap stands before it, no fault holds it, and, where
it reads memory, no develop comes before it (R185). -/
def State.tileReady (s : State) (core : Nat) (r : TeamRec) (o : TileOp) : Bool :=
  r.trap.isNone && !(r.barred o.grp o.id) && !(r.accepting o.lpc) && !(s.blocked (.tile core o.id)) &&
  (match o.kind with
   | .qnt _ _ => true
   | _ => !(r.dev.any fun d => decide (d.born ≤ o.id)))

/-- The ranges that a step of a loop reads, plane by plane and row by row (R137). -/
def stepRanges (mode : LoopMode) (w : List Word) (step : Nat) : List (Nat × Nat) :=
  (stepPlanes mode).flatMap fun p => (List.range (if p.1 then loopN w else loopM w)).flatMap fun i => blockRanges w p.1 p.2 i step

/-- The blocks of a step, plane by plane and row by row, from the bytes of its ranges in the same order. -/
def stepBlocks (w : List Word) : List (Bool × Nat) → List (List (Byte × Bool)) → List (List TBlock)
  | [], _ => []
  | p :: ps, bs =>
    let c := dfield w (if p.1 then 3 else 1) 25 4
    let per := if isMx c then 2 else 1
    let m := if p.1 then loopN w else loopM w
    ((List.range m).map fun i => blockOf c ((bs.drop (per * i)).take per)) :: stepBlocks w ps (bs.drop (per * m))

/-- A step of TLOOP (R134, R138, R145). The unit reads nothing ahead of its step (assumption 83). -/
def State.loopStep (s : State) (core id : Nat) : State :=
  match (s.core core).tileQ.find? fun o => o.id == id with
  | none => s
  | some o =>
    match o.kind, s.team o.team with
    | .loop mode z noise, some r =>
      if !(s.tileReady core r o) || !(tileHead (s.core core).tileQ o) then s
      else
        let s := if o.begun then s else s.loopBegin core o z
        let w := o.desc
        let n := loopEnd w - loopStart w
        if n = 0 then s
        else
          let st := loopStart w + o.next
          let a := groupAcc r (.tile core id) 2 1
          match s.tileRead r a (stepRanges mode w st) with
          | .bad key c d st => (s.notice a key st).failAccess a.req key c d
          | .wait s => s
          | .ok bs s =>
            if bs.any fun b => b.any (·.2) then s.tileTrap core o tPOISON 0
            else
              let s := s.loopApply core o mode noise (stepBlocks w (stepPlanes mode) bs)
              (s.barEvent o.team o.grp o.bar o.lpc (.land 1)).updTile core id n fun o => { o with next := o.next + 1 }
    | _, _ => s

/-! ### Rows (R147, R149 to R151) -/

/-- The dither of an element in a row and column, with `per` elements a row in its lane. -/
def TileOp.dither (o : TileOp) (num cols row col : Nat) : Nat :=
  let lane := col % 32
  let per := (cols + 31 - lane) / 32
  let q := o.dith.getD lane ⟨0, 0, false, 0⟩
  q.word o.grp num lane 3 (q.idx + BitVec.ofNat 64 (row * per + col / 32)) 0

/-- Elements packed as R62 lays a row out. -/
def packElems (width : Nat) (l : List Nat) : List Byte :=
  numBytes (l.foldr (fun e a => e % 2 ^ width + 2 ^ width * a) 0) ((l.length * width + 7) / 8)

/-- A list cut into pieces of 32. -/
def blocks32 {α : Type} (l : List α) : List (List α) := (List.range ((l.length + 31) / 32)).map fun b => (l.drop (32 * b)).take 32

/-- A row's mean elements in a format: its bytes, its scales, and what each element's value became, with the block's exponent. -/
def rowMean (c : Nat) (m : Rm) (xs : List (Word × Nat)) : List Byte × List Byte × List (Fl × Option Int) :=
  if c = 0 then (packElems 32 (xs.map fun x => x.1.toNat), [], xs.map fun x => (f32 x.1, some 0))
  else if isMx c then
    let bl := (blocks32 xs).map fun b => quantise (tileElem c) m (b.map fun x => (f32 x.1, x.2))
    (packElems (tileWidth c) (bl.flatMap fun b => b.elems.map (·.1)), bl.map fun b => BitVec.ofNat 8 b.scale,
     bl.flatMap fun b => b.elems.map fun e => (e.2, b.k))
  else
    (packElems 16 (xs.map fun x => convertP (tileFmt c) m x.2 (f32 x.1)), [],
     xs.map fun x => (convertF (tileFmt c) m x.2 (f32 x.1), some 0))

/-- The variance that TQNT writes for an element (R150): the cell's, with the quantisation variance of its mean. -/
def qntVar (c : Nat) (m : Rm) (mean var : Word) (e : Fl × Option Int) : Word :=
  match f32 mean with
  | .nan => nan32
  | .inf _ => if e.2.isNone then nan32 else inf32 false
  | .num _ x =>
    match e.2, e.1 with
    | none, _ => nan32
    | some k, .num _ y =>
      let qv : Option Rl :=
        if c = 0 then none
        else if isMx c then elemQv (tileElem c) m k (f32 mean) (.num false y)
        else some ((fmtTarget (tileFmt c)).qv m (.q x) y)
      let w := rup32 ((readVar var).map fun v => Rl.q v)
      match qv with
      | none => w
      | some q => addUp w (rup32 (some q))
    | some _, _ => inf32 false

/-- A row of variances in a format (R150): its bytes and its scales. -/
def rowVar (c : Nat) (vs : List Word) : List Byte × List Byte :=
  if c = 0 then (packElems 32 (vs.map (·.toNat)), [])
  else if isMx c then
    let f := tileElem c
    let bl := (blocks32 vs).map fun b =>
      let q := quantise f .rup (b.map fun v => (f32 v, 0))
      match q.k with
      | none => (255, b.map fun _ => 0)
      | some k => let kv := min (k + 1) 127; ((kv + 127).toNat, b.map fun v => (quantElem f .rup 0 kv (f32 v)).1)
    (packElems (tileWidth c) (bl.flatMap (·.2)), bl.map fun b => BitVec.ofNat 8 b.1)
  else (packElems 16 (vs.map fun v => convertP (tileFmt c) .rup 0 (f32 v)), [])

/-- A row's ranges to write: elements, and scales if any. -/
def rowRanges (base scale : Nat) (v : List Byte × List Byte) : List (Nat × List Byte) :=
  (base % 2 ^ 57, v.1) :: (if v.2.isEmpty then [] else [(scale % 2 ^ 57, v.2)])

/-- A row that has been written: counted, and the next one. -/
def State.rowDone (s : State) (core : Nat) (o : TileOp) : State :=
  (s.barEvent o.team o.grp o.bar o.lpc (.land 1)).updTile core o.id o.steps fun o => { o with begun := true, next := o.next + 1, row := [] }

/-- A row that has been computed, written piece by piece: into the version of a task, which may have to develop in between, else at the
home, whole or where a trap comes first not at all (assumption 82). What is left waits; the row is not computed again (R145, R147). -/
def State.rowWrite (s : State) (core : Nat) (o : TileOp) (r : TeamRec) (ps : List (Nat × List Byte)) : State :=
  let keep := fun (s : State) (left : List (Nat × List Byte)) => s.updTile core o.id o.steps fun o => { o with row := left }
  let a := groupAcc r (.tile core o.id) 2 2
  match if r.d.latent then Xls.ok (ps.map fun _ => ⟨0, 0, none⟩) else (keep s ps).xlates a (ps.map fun p => byteKey r.ctx p.1) with
  | .bad key c d st => (s.notice a key st).failAccess a.req key c d
  | .wait s => s
  | .ok leaves =>
    match s.tilePieces o r (ps.zip leaves) with
    | ([], s) => s.rowDone core o
    | (left, s) => keep s left

/-- The cells of a TQNT's window as its bank holds them, row by row. -/
def CoreRec.window (k : CoreRec) (o : TileOp) : List (List TileCell) :=
  (List.range (qntM o.desc)).map fun i => (List.range (qntN o.desc)).map fun j => k.cell o.bank (cellNo i j)

/-- The ranges that a row of TQNT writes, with their bytes (R149, R150): the planes in the order of elements, scales, variance elements,
variance scales, so that where planes of one row overlap the later one's bytes remain (assumption 96). -/
def TileOp.qntRanges (o : TileOp) (num : Nat) (sr vr : Bool) (cells : List TileCell) : List (Nat × List Byte) :=
  let w := o.desc
  let i := o.next
  let c := dfield w 1 25 4
  let m : Rm := if sr then .sr else .rne
  let str := dfield w 2 0 16
  let p := dfield w 2 16 16 * 65536
  let mean := rowMean c m (cells.mapIdx fun j x => (x.mean, if sr then o.dither num (qntN w) i j else 0))
  let base := dbase w 0
  rowRanges (base + 16 * str * i) (base + p + str * i) (mean.1, mean.2.1) ++
    (if vr then
       rowRanges (base + 2 * p + 16 * str * i) (base + 3 * p + str * i)
         (rowVar c ((cells.zip mean.2.2).map fun x => qntVar c m x.1.mean x.1.var x.2))
     else [])

/-- A row of TQNT (R149, R150). Its first event reads every cell, and the bank is free from then on (R134). -/
def State.qntRow (s : State) (core id : Nat) : State :=
  match (s.core core).tileQ.find? fun o => o.id == id with
  | none => s
  | some o =>
    match o.kind, s.team o.team with
    | .qnt sr vr, some r =>
      if !(s.tileReady core r o) || !(o.cells.isSome || tileHead (s.core core).tileQ o) then s
      else if !o.row.isEmpty then s.rowWrite core o r o.row
      else
        let rows := o.cells.getD ((s.core core).window o)
        let s := s.updTile core id o.steps fun o => { o with begun := true, cells := some rows }
        let cells := rows.getD o.next []
        if cells.any (·.poison) then s.tileTrap core o tPOISON 2
        else s.rowWrite core o r (cutLines (o.qntRanges r.num sr vr cells))
    | _, _ => s

/-- The butterfly of a stage over a block of values (R147). -/
def hadStage (j : Nat) (xs : List Fl) : List Fl :=
  xs.mapIdx fun i x =>
    let y := xs.getD (i ^^^ 2 ^ j) .nan
    if i / 2 ^ j % 2 = 0 then (addPre .rne x y).rne else (addPre .rne y x.neg).rne

/-- A block transformed. -/
def hadBlock (pts : HadPts) (xs : List Fl) : List Word :=
  let stages := match pts with | .h16 => 4 | .h32 => 5 | .h64 => 6
  let e : Int := match pts with | .h16 => -2 | _ => -3
  ((List.range stages).foldl (fun xs j => hadStage j xs) xs).map fun x => (mulPre x (.num false (Frac.pow2 e))).word .rne 0

/-- The points of a block. -/
def hadPoints : HadPts → Nat
  | .h16 => 16 | .h32 => 32 | .h64 => 64

/-- The source range of a THAD's row. -/
def TileOp.hadSource (o : TileOp) : Nat × Nat :=
  let w := o.desc
  ((dbase w 0 + 16 * dfield w 4 0 16 * o.next) % 2 ^ 57, 32 * dfield w 5 16 12 * (if dfield w 1 25 1 = 1 then 2 else 4))

/-- The values of a THAD's row, transformed. -/
def TileOp.hadValues (o : TileOp) (pts : HadPts) (row : List (Byte × Bool)) : List Word :=
  let bf := dfield o.desc 1 25 1 == 1
  let elem := fun k => if bf then fmtDecode .bf16 (leNat (((row.drop (2 * k)).take 2).map (·.1)))
    else fmtDecode .f32 (leNat (((row.drop (4 * k)).take 4).map (·.1)))
  let np := hadPoints pts
  (List.range (32 * dfield o.desc 5 16 12 / np)).flatMap fun b => hadBlock pts ((List.range np).map fun k => elem (b * np + k))

/-- The ranges that a row of THAD writes, with their bytes: the elements, then the scales (assumption 96). -/
def TileOp.hadRanges (o : TileOp) (num : Nat) (pts : HadPts) (sr : Bool) (row : List (Byte × Bool)) : List (Nat × List Byte) :=
  let w := o.desc
  let i := o.next
  let str := dfield w 4 16 16
  let v := rowMean (dfield w 3 25 4) (if sr then .sr else .rne) ((o.hadValues pts row).mapIdx fun j x =>
    (x, if sr then o.dither num (32 * dfield w 5 16 12) i j else 0))
  rowRanges (dbase w 2 + 16 * str * i) (dbase w 2 + 65536 * dfield w 6 0 16 + str * i) (v.1, v.2.1)

/-- A row of THAD (R147): its source row is read completely, transformed and written. Rows go one after another, so that a row whose
source an earlier row has written reads the new bytes (assumption 84). -/
def State.hadRow (s : State) (core id : Nat) : State :=
  match (s.core core).tileQ.find? fun o => o.id == id with
  | none => s
  | some o =>
    match o.kind, s.team o.team with
    | .had pts sr, some r =>
      if !(s.tileReady core r o) then s
      else if !o.row.isEmpty then s.rowWrite core o r o.row
      else
        let a := groupAcc r (.tile core id) 2 1
        match s.tileRead r a [o.hadSource] with
        | .bad key c d st => (s.notice a key st).failAccess a.req key c d
        | .wait s => s
        | .ok bs s =>
          let row := bs.getD 0 []
          if row.any (·.2) then s.tileTrap core o tPOISON 0
          else s.rowWrite core o r (cutLines (o.hadRanges r.num pts sr row))
    | _, _ => s

end Sys2Proof.Machine
end

