-- ==== Sys2Proof/Machine/Cp.lean ====
section
/-! DEFINITION. What the command processors share (R287 to R299, R368): rights of the ports, event rings and their records, the
contact sheet, reads of commands and descriptors, and the assignment of groups to partitions. -/

namespace Sys2Proof.Machine

/-! ### Ports and units -/

/-- Whether the clocks run (R372). -/
def State.live (s : State) : Bool := s.thermal.state != .off && s.thermal.state != .tripped

/-- Whether a port may write a context's blocks (R309, R356). -/
def State.mayCtx (s : State) (p : Port) (c : Nat) : Bool := (s.ctx c).owner == p || s.pkg.auth == p

/-- Whether a port reaches a die's registers: only along live links (R367). -/
def State.portReach (s : State) (p : Port) (d : Nat) : Bool := s.reach (portDie p) d

/-- A write that a port may not make is ignored and counted (R309, R335). -/
def State.guarded (s : State) (ok : Bool) (t : State) : State := if ok then t else s.foreign

/-- Whether a die is isolated (R366). -/
def State.isolated (s : State) (d : Nat) : Bool := (s.die d).mode == 2

/-- Whether the firmware runs: until then no queue is accepted (R341). -/
def State.fwRuns (s : State) : Bool := s.pkg.fw == .running

/-! ### Event rings (R296, R297, R418) -/

def State.ring (s : State) (d k : Nat) : Ring := Tab.get Ring.reset (s.die d).rings k
def State.updRing (s : State) (d k : Nat) (f : Ring → Ring) : State :=
  s.updDie d fun r => { r with rings := Tab.set Ring.reset r.rings k (f (Tab.get Ring.reset r.rings k)) }

/-- The number of records of a ring. -/
def Ring.size (r : Ring) : Nat := let n := r.rsize.toNat; 2 ^ (if n < 4 ∨ 16 < n then 4 else n)
/-- CNT, and TMO in nanoseconds. -/
def Ring.count (r : Ring) : Nat := min (max r.rcnt.toNat 1) 256
def Ring.timeout (r : Ring) : Nat := 1000 * max r.rtmo.toNat 1
def Ring.port (r : Ring) : Port := if r.rvec.getLsbD 8 then .b else .a
/-- Whether the ring has a free entry (R297). -/
def Ring.room (r : Ring) : Bool := decide ((r.rtail - r.rhead).toNat < r.size)

/-- Whether a record of a ring can be written: an entry is free, its port and its memory can be reached (R335), and its CP is not
isolated (R18). -/
def State.ringOpen (s : State) (d k : Nat) : Bool :=
  let r := s.ring d k
  r.room && !s.isolated d && (s.port r.port).up && s.physUp (physOf r.rbase)

/-- The interrupt of a ring (R296): the count begins anew. -/
def State.ringInt (s : State) (d k : Nat) : State :=
  let r := s.ring d k
  if !r.rvec.getLsbD 31 then s
  else (s.updRing d k fun r => { r with since := 0, oldest := none }).emit (.msix r.port (r.rvec.toNat % 64))

/-- The interrupt where CNT records have been written (R296). -/
def State.ringCheck (s : State) (d k : Nat) : State :=
  if (s.ring d k).count ≤ (s.ring d k).since then s.ringInt d k else s

/-- A 32-byte record written (R297): at the tail, which advances. -/
def State.ringPut (s : State) (d k : Nat) (rec : List Byte) : State :=
  let r := s.ring d k
  let p := (physOf r.rbase).plus (32 * (r.rtail.toNat % r.size))
  (s.physPut d p rec).updRing d k fun r =>
    { r with rtail := r.rtail + 1, since := r.since + 1
             oldest := some (r.oldest.getD s.time) }

/-- A QUEUE record (R418). -/
def queueRecord (time q tail : Nat) : List Byte :=
  numBytes time 8 ++ numBytes tail 8 ++ numBytes q 2 ++ [6, 0] ++ numBytes 0 4 ++ numBytes 0 8

/-- The QUEUE records at the head of what waits, written while there is room: at most `n`. -/
def State.ringFlush : Nat → Nat → Nat → State → State
  | 0, _, _, s => s
  | n + 1, d, k, s =>
    match (s.ring d k).waiting with
    | (q, v) :: rest =>
      if q < 4096 && s.ringOpen d k then
        State.ringFlush n d k
          (((s.updRing d k fun r => { r with waiting := rest }).ringPut d k (queueRecord s.time q v)).ringCheck d k)
      else s
    | [] => s

/-- What waits at a ring that may be written now. -/
def State.ringGo (s : State) (d k : Nat) : State := s.ringFlush (s.ring d k).waiting.length d k

/-- A QUEUE event (R288, R291, R418). -/
def State.queueEvent (s : State) (d k q v : Nat) : State :=
  (s.updRing d k fun r => { r with waiting := r.waiting ++ [(q, v)] }).ringGo d k

/-! ### The contact sheet (R367, R368) -/

/-- The number of a sheet's entries. -/
def sheetSlots (c : BitVec 32) : Nat := let n := c.toNat % 32; 2 ^ (if n < 6 ∨ 16 < n then 6 else n)

/-- Whether the sheet is enabled. -/
def DieRec.sheetOn (r : DieRec) : Bool := r.csctl.getLsbD 31

/-- TAG and QUEUE of a grid's command. -/
def GridRec.tag (g : GridRec) : Nat := match g.src with | .queue _ t _ => t.toNat | .launch _ => 0
def GridRec.queueNo (g : GridRec) : Nat := match g.src with | .queue q _ _ => q | .launch _ => 65535

/-- A grid's entry written in a state (R368): the chunk of the stamp first, then the chunk at byte 16. An isolated CP's sheet stays at its
last state (R366). -/
def State.sheet (s : State) (g : GridRec) (state : Nat) : State :=
  let r := s.die g.cp
  let p := (physOf r.csbase).plus (64 * (g.seq % sheetSlots r.csctl))
  if !r.sheetOn || s.isolated g.cp || !s.physUp p then s
  else
    let stamps := numBytes g.tAccept 8 ++ numBytes g.tReady 8 ++ numBytes g.tRun 8 ++ numBytes g.tDone 8
    let head := numBytes g.hash.toNat 8 ++ numBytes g.queueNo 2 ++
      numBytes state 1 ++ numBytes (if state = 4 then g.status else 0) 1 ++ numBytes g.ctx 1 ++ numBytes 0 3
    let s := if state = 1 then s.physPut g.cp p (numBytes g.seq 8 ++ numBytes g.tag 8) else s
    let s := if state = 4 ∨ state = 1 then s.physPut g.cp (p.plus 32) stamps
      else s.physPut g.cp (p.plus (if state = 2 then 32 else 48)) ((stamps.drop (if state = 2 then 0 else 16)).take 16)
    s.physPut g.cp (p.plus 16) head

/-- A grid changed, and its entry written in a state. -/
def State.stamp (s : State) (g state : Nat) (f : GridRec → GridRec) : State :=
  let s := s.updGrid g f
  match s.grid g with
  | some r => s.sheet r state
  | none => s

/-- Whether the slot of a CP's next sequence number holds an entry not yet COMPLETED (R368). -/
def State.sheetFull (s : State) (d : Nat) : Bool :=
  let r := s.die d
  r.sheetOn && s.grids.any fun e => e.2.cp == d && e.2.seq % sheetSlots r.csctl == r.csseq.toNat % sheetSlots r.csctl

/-- CRC-64 (R368): polynomial 0x42F0E1EBA9EA3693, initial value 0, no reflection. -/
def crc64 (bs : List Byte) : BitVec 64 :=
  bs.foldl (fun (c : BitVec 64) b =>
    (List.range 8).foldl (fun (c : BitVec 64) _ =>
      if c.getLsbD 63 then (c <<< 1) ^^^ 0x42F0E1EBA9EA3693 else c <<< 1) (c ^^^ (BitVec.setWidth 64 b <<< (56 : Nat)))) (0 : BitVec 64)

/-! ### Reads by a CP (R282, R291, R321) -/

/-- What a read finds: bytes with their marks, a wait, or a failure. -/
inductive CpIo where
  | ok (bs : List (Byte × Bool)) (s : State) | wait (s : State) | bad (key status : Nat)

/-- `n` bytes at an address of a context read at its homes. -/
def State.cpRead (s : State) (a : Acc) (va n : Nat) : CpIo :=
  if 2 ^ 57 < va + n then .bad (byteKey a.ctx (va % 2 ^ 57)) 1
  else
    let keys := (List.range ((va + n + 127) / 128 - va / 128)).map fun i => byteKey a.ctx ((va / 128 + i) * 128)
    match s.xlates a keys with
    | .bad key _ _ st => .bad key st
    | .wait s => .wait s
    | .ok leaves =>
      let got := (keys.zip leaves).foldl (fun (acc : List (Byte × Bool) × State) e =>
        let v := acc.2.cohRead a.die e.1 e.2 255
        (acc.1 ++ (List.range 128).map fun i => (v.1.extractLsb' (8 * i) 8, v.2.1.getLsbD (i / 16)), v.2.2)) ([], s)
      .ok ((got.1.drop (va % 128)).take n) got.2

/-! ### Descriptors (R292, R293, R280) -/

/-- A field of bytes. -/
def fieldOf (bs : List Byte) (o n : Nat) : Nat := leNat ((bs.drop o).take n)

/-- A role entry (R55). -/
def roleOf (w : Nat) : Role := ⟨Word.ofNat (w / 2 ^ 32), w / 2 ^ 8 % 2 ^ 10, w % 2 ^ 8⟩

/-- The fields of a descriptor (R292). -/
def descOf (bs : List Byte) : Desc :=
  let f := fieldOf bs
  { code := f 0 8, clen := f 8 4, gregs := f 12 1, barriers := f 13 1, banks := f 14 1, latent := f 15 1 % 2 == 1
    prio := f 15 1 / 2 % 4, seed := BitVec.ofNat 64 (f 16 8), nx := f 24 4, ny := f 28 4, nz := f 32 4, pred := f 36 4
    args := f 40 8, budget := f 48 8
    roles := (List.range 4).map fun i => roleOf (f (64 + 8 * i) 8)
    succs := (List.range 4).map fun i => f (96 + 8 * i) 8 }

/-- A role that is present and breaks R293. -/
def Role.bad (r : Role) (clen : Nat) : Bool :=
  r.groups != 0 && (decide (r.regs < 8) || decide (512 < r.regs) || r.regs % 8 != 0 || r.entry.getLsbD 0 ||
    decide (clen ≤ r.entry.toNat))

/-- The groups of a descriptor, each with its role. -/
def Desc.groups (d : Desc) : List (Nat × Role) :=
  (d.roles.zip (List.range d.roles.length)).flatMap fun e => List.replicate e.1.groups (e.2, e.1)

/-- The descriptors that R293 calls INVALID, but for the size of the grid and the addresses of its successors. -/
def descBad (bs : List Byte) : Bool :=
  let d := descOf bs
  let f := fieldOf bs
  decide (8 ≤ f 15 1) || f 56 8 != 0 ||
  (List.range 4).any (fun i => f (64 + 8 * i) 8 / 2 ^ 18 % 2 ^ 14 != 0) ||
  d.code % 128 != 0 || d.clen == 0 || d.clen % 2 == 1 ||
  decide (64 < d.gregs) || decide (16 < d.barriers) || decide (4 < d.banks) ||
  (d.roles.all fun r => r.groups == 0) || (d.roles.any fun r => r.bad d.clen) || decide (32 < d.groups.length)

/-- The successors that R293 calls INVALID; a handler's are ignored (R357). -/
def Desc.succBad (d : Desc) : Bool := d.succs.any fun a => a % 64 != 0

/-- The dimensions of a launched grid (R280). -/
def launchDims (d : Desc) (e : LaunchEnt) : Nat × Nat × Nat :=
  let sh := e.imm.toNat / 4 % 32
  match e.imm.toNat % 4 with
  | 0 => (d.nx, d.ny, d.nz)
  | 1 => (e.w2.toNat, d.ny, d.nz)
  | 2 => ((e.w2.toNat + 2 ^ sh - 1) / 2 ^ sh, d.ny, d.nz)
  | _ => (e.w2.toNat, e.w3.toNat, d.nz)

/-! ### Placement on a core (R132, R247, R299, R301) -/

/-- The free words a lane and the free group slots of each partition. -/
abbrev Parts := List (Nat × Nat)

/-- An empty core's partitions. -/
def Parts.empty : Parts := List.replicate 16 (512, 6)

/-- Groups, given by their words, assigned to partitions: equal partitions are tried once. -/
def assign : List Nat → Parts → Option (List Nat)
  | [], _ => some []
  | w :: ws, ps =>
    (List.range ps.length).findSome? fun i =>
      match ps[i]? with
      | none => none
      | some p =>
        if p.1 < w ∨ p.2 = 0 ∨ (ps.take i).contains p then none
        else (assign ws (ps.set i (p.1 - w, p.2 - 1))).map fun r => i :: r

/-- A group put among groups of falling words. -/
def putByWords (g : Role × Nat) : List (Role × Nat) → List (Role × Nat)
  | [] => [g]
  | h :: t => if g.1.regs ≤ h.1.regs then h :: putByWords g t else g :: h :: t

/-- The groups, each with its number, in the order of falling words. -/
def byWords (gs : List (Nat × Role)) : List (Role × Nat) :=
  (gs.zip (List.range gs.length)).foldl (fun l e => putByWords (e.1.2, e.2) l) []

/-- The partition of each group of a descriptor on partitions with room, in GROUP order. -/
def Desc.fit (d : Desc) (ps : Parts) : Option (List Nat) :=
  let gs := byWords d.groups
  if (ps.map (·.1)).sum < (gs.map fun g => g.1.regs).sum ∨ (ps.map (·.2)).sum < gs.length then none
  else (assign (gs.map fun g => g.1.regs) ps).map fun l =>
    (List.range gs.length).map fun n => ((gs.zip l).find? fun e => e.1.2 == n).elim 0 (·.2)

/-- The room on a core's partitions. -/
def State.parts (s : State) (core : Nat) : Parts :=
  (List.range 16).map fun p =>
    s.teams.foldl (fun (f : Nat × Nat) e =>
      if e.2.core = core then
        e.2.groups.foldl (fun (f : Nat × Nat) k => if k.2.part = p then (f.1 - e.2.alloc k.2, f.2 - 1) else f) f
      else f) (512, 6)

/-- The banks of a core that no team has. -/
def State.freeBanks (s : State) (core : Nat) : List Nat :=
  (List.range 4).filter fun b => !(s.teams.any fun e => e.2.core == core && e.2.banks.contains b)

/-- Whether a context may have a team on a core: at most one other context is resident (R301). -/
def State.ctxFits (s : State) (ctx core : Nat) : Bool :=
  let others := ((s.teams.filter fun e => e.2.core == core && e.2.ctx != ctx).map fun e => e.2.ctx)
  match others with
  | [] => true
  | c :: r => r.all (· == c)

/-- The partitions and the banks that a core gives a team, where it can. -/
def State.fitCore (s : State) (d : Desc) (ctx core : Nat) : Option (List Nat × List Nat) :=
  if !s.ctxFits ctx core || decide ((s.freeBanks core).length < d.banks) then none
  else (d.fit (s.parts core)).map fun l => (l, (s.freeBanks core).take d.banks)

/-- The key of a core by its marks (R299): neither, DROOP only, the rest. -/
def CoreRec.markKey (k : CoreRec) : Nat := if k.hot then 2 else if k.droop.isSome then 1 else 0

/-- The core of a die that takes a team (R299): by the marks, then the most free words, then the lowest number. -/
def State.pickCore (s : State) (d : Desc) (ctx die : Nat) : Option (Nat × List Nat × List Nat) :=
  ((List.range 40).filterMap fun i =>
      let core := die * 40 + i
      (s.fitCore d ctx core).map fun f => ((s.core core).markKey, ((s.parts core).map (·.1)).sum, core, f.1, f.2)).foldl
    (fun (m : Option (Nat × Nat × Nat × List Nat × List Nat)) e =>
      match m with
      | none => some e
      | some b => if e.1 < b.1 ∨ (e.1 = b.1 ∧ b.2.1 < e.2.1) then some e else some b) none |>.map fun e => e.2.2

/-- The dies in ring order from one on. -/
def ringFrom (d : Nat) : List Nat := [d, ringNext d, ringNext (ringNext d), ringNext (ringNext (ringNext d))]

/-- The first die that takes a team, with its core (R298): a die cut off is skipped. -/
def State.pickDie (s : State) (d : Desc) (ctx cp first : Nat) : Option (Nat × List Nat × List Nat) :=
  ((ringFrom first).filter fun x => s.reach cp x && !s.isolated x).findSome? fun x => s.pickCore d ctx x

end Sys2Proof.Machine
end

