-- ==== Sys2Proof/Machine/EvQueue.lean ====
section
/-! DEFINITION. Events of the queues (R287 to R291, R279, R296): doorbells, the queue table, active slots, the acceptance of
commands and of launch entries, and the timeout of an event ring. -/

namespace Sys2Proof.Machine

/-! ### The doorbell (R289, R291, R332) -/

/-- Whether an enabled entry can never be switched in (R288). -/
def State.neverIn (s : State) (k : QueueRec) : Bool :=
  decide (k.size.toNat < 4 ∨ 16 < k.size.toNat) || !(s.ctx k.ctx.toNat).enable

/-- Whether a TAIL value is honoured (R291). -/
def QueueRec.honours (k : QueueRec) (size v : Nat) : Bool := decide (k.accepted ≤ v) && decide (v ≤ k.progress + 2 ^ size)

/-- An active slot after a TAIL value that is honoured: a value equal to the accepted count starts the idle time, unless the queue is
idle already (R290). -/
def Active.withTail (a : Active) (accepted v time : Nat) : Active :=
  { a with tail := v, idleSince := if v = accepted ∧ a.tail ≠ accepted then time else a.idleSince }

/-- A write of a queue's TAIL in a CP's doorbell window. For a queue that is switched out the value is checked at the write, and goes
through to STAIL if it would be honoured or the entry can never be switched in (R288, R289, R291; assumption 23). -/
def State.tailWrite (s : State) (d q : Nat) (v : BitVec 64) : State :=
  let k := s.queue q
  match k.active with
  | some a =>
    if a.cp ≠ d then s
    else if k.honours a.size v.toNat then s.updQueue q fun k => { k with active := some (a.withTail k.accepted v.toNat s.time) }
    else s.queueEvent a.cp a.ring q v.toNat
  | none =>
    if k.cp.toNat ≠ d then s
    else
      let never := k.enable && s.neverIn k
      let ok := k.honours k.size.toNat v.toNat
      let s := if never || ok then (s.updQueue q fun k => { k with stail := v, first := some (k.first.getD s.nextId) }).bump else s
      if never || !ok then s.queueEvent k.cp.toNat k.ring.toNat q v.toNat else s

/-- A TAIL write that a port makes: over a cut it ends with Completer Abort (R367). -/
def State.tailArrive (s : State) (p : Port) (d q : Nat) (v : BitVec 64) : State :=
  if s.portReach p d then s.tailWrite d q v else s.emit (.abort p)

def execTailWrite (p : Port) (d : Die) (q : Fin 4096) (v : BitVec 64) (s : State) : Out :=
  .next (if s.live then s.posted p (.tail d.val q.val v) (s.tailArrive p d.val q.val v) else s)

/-! ### The queue table (R288) -/

/-- A word of a queue-table entry as it reads. -/
def QueueRec.word (k : QueueRec) (w : Nat) : BitVec 64 :=
  match w with
  | 0 => BitVec.ofNat 64 (k.base.toNat * 2 ^ 12)
  | 1 => BitVec.ofNat 64 (k.size.toNat + k.ctx.toNat * 2 ^ 8 + k.cp.toNat * 2 ^ 16 + k.ring.toNat * 2 ^ 20 +
      k.enable.toNat * 2 ^ 24 + k.active.isSome.toNat * 2 ^ 25)
  | 2 => k.stail
  | _ => BitVec.ofNat 64 k.sprog.toNat

/-- An entry after a write of a word: STAIL and SPROG are read-only. -/
def QueueRec.write (k : QueueRec) (w : Nat) (v : BitVec 64) : QueueRec :=
  match w with
  | 0 => { k with base := v.extractLsb' 12 45 }
  | 1 => { k with size := v.extractLsb' 0 5, ctx := v.extractLsb' 8 6, cp := v.extractLsb' 16 2, ring := v.extractLsb' 20 4
                  enable := v.getLsbD 24 }
  | _ => k

/-- A write of a word: only by the owner of the context that the entry names, and of the context that it will name. -/
def State.queueWrite (s : State) (p : Port) (q w : Nat) (v : BitVec 64) : State :=
  let k := s.queue q
  let k' := k.write w v
  s.guarded ((s.ctx k.ctx.toNat).owner == p && (s.ctx k'.ctx.toNat).owner == p) (s.setQueue q k')

def execQueueTableWrite (p : Port) (q : Fin 4096) (w : Fin 4) (v : BitVec 64) (s : State) : Out :=
  .next (if s.live then s.posted p (.table q.val w.val v) (s.queueWrite p q.val w.val v) else s)

/-! ### Active slots (R290) -/

/-- Whether a queue waits to be switched in by a CP. -/
def State.queueWaits (s : State) (cp : Nat) (k : QueueRec) : Bool :=
  k.enable && !s.neverIn k && k.active.isNone && k.cp.toNat == cp && decide (k.sprog.toNat < k.stail.toNat)

/-- How many active slots of a CP are taken. -/
def State.activeCount (s : State) (cp : Nat) : Nat :=
  (s.queues.filter fun (e : Nat × QueueRec) => (e.2.active.map (·.cp)) == some cp).length

/-- The queue that a CP switches in next: by its earliest unhonoured TAIL write, then by q. One whose saved TAIL stands beyond its saved
PROGRESS without such a write comes first (assumption 100). -/
def State.nextIn (s : State) (cp : Nat) : Option Nat :=
  ((s.queues.filter fun (e : Nat × QueueRec) => s.queueWaits cp e.2).foldl (fun (m : Option (Nat × Nat)) e =>
    let f := e.2.first.getD 0
    match m with
    | none => some (f, e.1)
    | some b => if f < b.1 then some (f, e.1) else some b) none).map (·.2)

def execQueueSwitchIn (q : Fin 4096) (s : State) : Out :=
  let k := s.queue q.val
  let cp := k.cp.toNat
  if !s.live || !s.fwRuns || s.isolated cp || s.nextIn cp != some q.val || decide (64 ≤ s.activeCount cp) then .next s
  else
    let v := k.stail.toNat
    let ok := k.honours k.size.toNat v
    let a : Active :=
      { base := k.base.toNat * 2 ^ 12, size := k.size.toNat, ctx := k.ctx.toNat, cp := cp, ring := k.ring.toNat
        tail := if ok then v else k.accepted, idleSince := s.time, refused := false }
    let s := s.updQueue q.val fun k => { k with active := some a, first := none }
    .next (if ok then s else s.queueEvent cp a.ring q.val v)

/-- A queue switched out: its TAIL and PROGRESS are saved (R289). -/
def State.switchOut (s : State) (q : Nat) : State :=
  s.updQueue q fun k =>
    match k.active with
    | some a => { k with active := none, stail := BitVec.ofNat 64 a.tail, sprog := BitVec.ofNat 63 k.progress }
    | none => k

/-- An idle queue leaves its slot after 100 µs (R290). -/
def execQueueSwitchOut (q : Fin 4096) (s : State) : Out :=
  let k := s.queue q.val
  match k.active with
  | some a =>
    if s.live && a.tail == k.accepted && decide (a.idleSince + 100000 ≤ s.time) then .next (s.switchOut q.val) else .next s
  | none => .next s

/-! ### Acceptance (R287, R279, R368) -/

/-- A grid as it is accepted. -/
def GridRec.fresh (ctx cp desc ring seq time status : Nat) (src : Source) (hash : BitVec 64) (phase : Phase)
    (tail : Option Nat) : GridRec :=
  { ctx := ctx, cp := cp, desc := desc, src := src, ring := ring, seq := seq, hash := hash, phase := phase, status := status
    d := none, args := [], nx := 0, ny := 0, nz := 0, preds := 0, tail := tail, tailed := false, next := 0, last := none, retry := []
    handlers := [], traps := 0, trapped := [], ports := [], lost := false, faulted := false, poison := false, band := false, partDev := false
    reset := false, tAccept := time, tReady := 0, tRun := 0, tDone := 0 }

/-- A grid entered on its CP's contact sheet with the next sequence number. -/
def State.accept (s : State) (cp : Nat) (mk : Nat → GridRec) : State :=
  let seq := (s.die cp).csseq.toNat
  let g := mk seq
  let s := s.updDie cp fun r => { r with csseq := r.csseq + 1 }
  let s := { s with grids := s.grids.ins s.nextId g }
  s.bump.sheet g 1

/-- Whether a CP accepts work of a context (R302, R304, R366, R368). -/
def State.accepts (s : State) (cp ctx : Nat) : Bool :=
  let c := s.ctx ctx
  s.live && s.fwRuns && c.enable && !c.draining && !c.stopped && !s.isolated cp && !s.sheetFull cp

/-- A command's kind: none where R287 makes it INVALID, else whether it launches the grid at an address. -/
def commandKind (bs : List Byte) : Option (Option Nat) :=
  let f := fieldOf bs
  if f 1 7 ≠ 0 ∨ f 24 40 ≠ 0 then none
  else if f 0 1 = 0 then some none
  else if f 0 1 = 1 ∧ f 8 8 % 64 = 0 ∧ f 8 8 < 2 ^ 57 then some (some (f 8 8))
  else none

/-- The next command of a queue accepted. -/
def State.acceptCommand (s : State) (q : Nat) (a : Active) (cmd : Option (List Byte)) : State :=
  let s := s.updQueue q fun k =>
    { k with accepted := k.accepted + 1, active := some { a with idleSince := s.time, refused := false } }
  let bs := cmd.getD []
  let src := Source.queue q (BitVec.ofNat 64 (fieldOf bs 16 8)) bs
  let hash := if cmd.isNone then 0 else crc64 bs
  let kind := cmd.bind commandKind
  s.accept a.cp fun seq =>
    match kind with
    | none => GridRec.fresh a.ctx a.cp 0 a.ring seq s.time 4 src hash .waiting none
    | some none => GridRec.fresh a.ctx a.cp 0 a.ring seq s.time 0 src hash .waiting none
    | some (some d) => GridRec.fresh a.ctx a.cp d a.ring seq s.time 0 src hash .accepted none

/-- COMMAND_ACCEPT (R287, R291): the next command is read; a read that is refused or poisoned makes it INVALID. -/
def execCommandAccept (q : Fin 4096) (s : State) : Out :=
  let k := s.queue q.val
  match k.active with
  | none => .next s
  | some a =>
    if !k.enable || !s.accepts a.cp a.ctx || decide (a.tail ≤ k.accepted) || s.blocked (.cmd q.val) then .next s
    else if a.refused then .next (s.acceptCommand q.val a none)
    else
      let va := (a.base + 64 * (k.accepted % 2 ^ a.size)) % 2 ^ 57
      let acc : Acc := ⟨.cmd q.val, a.ctx, 4, 1, a.cp, 255⟩
      match s.cpRead acc va 64 with
      | .wait s => .next s
      | .bad key st => .next ((s.notice acc key st).acceptCommand q.val a none)
      | .ok bs s =>
        if bs.any (·.2) then .next (s.acceptCommand q.val a none)
        else .next (s.acceptCommand q.val a (some (bs.map (·.1))))

/-- The bytes that the hash of a device launch runs over (R368). -/
def LaunchEnt.bytes (e : LaunchEnt) : List Byte :=
  numBytes e.addr 8 ++ numBytes e.w2.toNat 4 ++ numBytes e.w3.toNat 4 ++ numBytes e.imm.toNat 4

/-- LAUNCH_ENTRY_ACCEPT (R279): the oldest entry of a context's queue on a die. -/
def execLaunchEntryAccept (c : Ctx) (d : Die) (s : State) : Out :=
  match Tab.get [] s.launchQ (launchKey c.val d.val) with
  | [] => .next s
  | e :: rest =>
    if !s.accepts d.val c.val then .next s
    else
      let s := { s with launchQ := Tab.set [] s.launchQ (launchKey c.val d.val) rest }
      let tail := if e.imm.getLsbD 8 then some e.parent else none
      .next (s.accept d.val fun seq =>
        GridRec.fresh c.val d.val e.addr e.ring seq s.time 0 (.launch e) (crc64 e.bytes) .accepted tail)

/-- LAUNCH_QUEUE_SPACE (R279, R284). -/
def execLaunchQueueSpace (t g : Nat) (s : State) : Out := .next (s.launchSpace t g)

/-- EVENT_RING_TIMEOUT (R296): the oldest record since the last interrupt has waited TMO. -/
def execEventRingTimeout (d : Die) (k : Fin 16) (s : State) : Out :=
  match (s.ring d.val k.val).oldest with
  | some t => if s.live && decide (t + (s.ring d.val k.val).timeout ≤ s.time) then .next (s.ringInt d.val k.val) else .next s
  | none => .next s

end Sys2Proof.Machine
end

