-- ==== Sys2Proof/Machine/EvGrid.lean ====
section
/-! DEFINITION. Events of grids and teams (R17, R18, R248 to R255, R280 to R283, R292 to R301, R345, R357, R358): the check of
a descriptor, decrements, hand-out and placement, the ends of teams and of grids, and completion records. -/

namespace Sys2Proof.Machine

/-! ### The descriptor (R280 to R283, R292 to R294) -/

/-- A grid that fails at acceptance: it completes at once, and its successors are still decremented (R293). -/
def State.failGrid (s : State) (g status : Nat) (d : Option Desc) : State :=
  s.updGrid g fun r =>
    if r.phase = .accepted then { r with phase := .waiting, status := status, d := d, preds := 0, tailed := false } else r

/-- Credits for an address taken from a list, at most `n`: how many, and the rest (R294). -/
def takeCredits : Nat → Nat → List Nat → Nat × List Nat
  | _, _, [] => (0, [])
  | a, n, c :: cs =>
    if c = a ∧ 0 < n then
      let r := takeCredits a (n - 1) cs
      (r.1 + 1, r.2)
    else
      let r := takeCredits a n cs
      (r.1, c :: r.2)

/-- Whether a launching grid has not completed step 2 of R17. -/
def State.parentLive (s : State) (p : Option Nat) : Bool :=
  match p with
  | none => false
  | some g => (s.grid g).any fun r => r.phase != .finished && r.phase != .recorded

/-- A grid's place in the graph changed; where nothing comes before it any longer, it is READY (R294, R368). -/
def State.readied (s : State) (g : Nat) (f : GridRec → GridRec) : State :=
  match s.grid g with
  | none => s
  | some r =>
    if (f r).preds = 0 ∧ (f r).tailed = false then s.stamp g 2 fun r => { (f r) with tReady := s.time } else s.updGrid g f

/-- A checked grid enters the graph: its count is PRED less the credits for its address (R294), and under TAIL the launching grid, which
neither a credit nor another grid's decrement stands for, comes before it too (R283; assumption 105). -/
def State.enterGraph (s : State) (g : Nat) (r : GridRec) (d : Desc) (dims : Nat × Nat × Nat) (args : List Word) : State :=
  let c := takeCredits r.desc d.pred (s.ctx r.ctx).credits
  let tailed := s.parentLive r.tail
  (s.updCtx r.ctx fun x => { x with credits := c.2 }).readied g fun r =>
    { r with phase := .waiting, d := some d, args := args, nx := dims.1, ny := dims.2.1, nz := dims.2.2, preds := d.pred - c.1
             tailed := tailed }

/-- The dimensions of a grid: those of its descriptor, or by its launch entry. -/
def gridDims (src : Source) (d : Desc) : Nat × Nat × Nat :=
  match src with
  | .queue _ _ _ => (d.nx, d.ny, d.nz)
  | .launch e => launchDims d e

/-- The argument words that a descriptor asks for. -/
def argWords (bs : List Byte) (n : Nat) : List Word := (List.range n).map fun i => Word.ofNat (fieldOf bs (4 * i) 4)

/-- DESCRIPTOR_CHECK (R282, R293): the descriptor and its argument block are read under the context's translation. A descriptor that has
been read stays with its grid while the argument block waits: its successors are decremented even where that read fails. -/
def execDescriptorCheck (g : Nat) (s : State) : Out :=
  match s.grid g with
  | none => .next s
  | some r =>
    if !s.live || r.phase != .accepted || s.blocked (.desc g) || s.isolated r.cp then .next s
    else
      let acc : Acc := ⟨.desc g, r.ctx, 4, 1, r.cp, 255⟩
      match s.cpRead acc r.desc 128 with
      | .wait s => .next s
      | .bad key st => .next ((s.notice acc key st).failGrid g 4 none)
      | .ok bs s =>
        if bs.any (·.2) then .next (s.failGrid g 4 none)
        else
          let raw := bs.map (·.1)
          let d := descOf raw
          let dims := gridDims r.src d
          if descBad raw || d.succBad || decide (2 ^ 32 ≤ dims.1 * dims.2.1 * dims.2.2) then .next (s.failGrid g 4 (some d))
          else if (d.fit Parts.empty).isNone then .next (s.failGrid g 5 (some d))
          else if d.gregs = 0 then .next (s.enterGraph g r d dims [])
          else
            match s.cpRead acc d.args (4 * d.gregs) with
            | .wait s => .next (s.updGrid g fun r => { r with d := some d })
            | .bad key st => .next ((s.notice acc key st).failGrid g 4 (some d))
            | .ok bs s =>
              if bs.any (·.2) then .next (s.failGrid g 4 (some d))
              else .next (s.enterGraph g r d dims (argWords (bs.map (·.1)) d.gregs))

/-! ### Decrements (R294) -/

/-- A grid whose decrements have all arrived reports to its ring, in the order of the completions (R17). -/
def State.toRing (s : State) (g : Nat) : State :=
  match s.grid g with
  | some r =>
    if s.decs.any fun d => d.src == g then s
    else s.updRing r.cp r.ring fun x => { x with waiting := x.waiting ++ [(4096, g)] }
  | none => s

/-- A grid's count lowered by one. -/
def State.lower (s : State) (g : Nat) : State := s.readied g fun r => { r with preds := r.preds - 1 }

/-- The launching grid of a grid under TAIL has completed (R283). -/
def State.untail (s : State) (g : Nat) : State := s.readied g fun r => { r with tailed := false }

/-- The oldest grid of a context that may take a decrement for an address: one not yet checked, or one whose count is above 0. -/
def State.decTarget (s : State) (ctx addr : Nat) : Option (Nat × GridRec) :=
  s.grids.find? fun (e : Nat × GridRec) => e.2.ctx == ctx && e.2.desc == addr &&
    (e.2.phase == .accepted || (e.2.phase == .waiting && decide (0 < e.2.preds)))

/-- PREDECESSOR_DECREMENT: to the oldest grid of its address whose count is above 0, to the grid launched with TAIL, or kept as
a credit. It waits while an older grid of the address is unchecked, and while 1,024 credits are held. -/
def execPredecessorDecrement (n : Nat) (s : State) : Out :=
  match s.decs.find? fun d => d.id == n with
  | none => .next s
  | some d =>
    let s' := { s with decs := s.decs.filter fun e => e.id != n }
    if !s.live then .next s
    else
      match d.grid with
      | some g => .next ((s'.untail g).toRing d.src)
      | none =>
        match s.decTarget d.ctx d.addr with
        | some (g, r) => if r.phase == .accepted then .next s else .next ((s'.lower g).toRing d.src)
        | none =>
          if 1024 ≤ (s.ctx d.ctx).credits.length then .next s
          else .next ((s'.updCtx d.ctx fun c => { c with credits := c.credits ++ [d.addr] }).toRing d.src)

/-! ### Hand-out (R248, R254, R298, R299, R345) -/

/-- A lane at its group's start (R155, R248). -/
def Lane.start (entry : Word) (seed : BitVec 64) : Lane :=
  ⟨entry, true, Option.none, [], 0, [], List.replicate 4 ⟨seed, 0, false, 0⟩, Option.none⟩

/-- A group at its start (GROUP_START, R248). -/
def Group.start (role part order : Nat) (entry : Word) (d : Desc) (args : List Word) : Group :=
  let g : Group :=
    { role := role, part := part, order := order, lanes := List.replicate 32 (Lane.start entry d.seed)
      gregs := [], nctl := 0, stalls := 0, latch := none, dist := 0, notBefore := 0, prods := [], storeQ := [], loads := []
      atoms := [], fences := [], arrivals := [], wait := .none, held := .none, yield := none, readySince := none }
  g.setGs 0 (args.map RWord.clean)

/-- The next task number of a context (R345). -/
def nextTask (n : Nat) : Nat := if n = 0xFFFFFFFF then 1 else n + 1

/-- A core with banks at +0, without a mark, and with their TSTEP at 0 (R132). -/
def CoreRec.clearBanks (k : CoreRec) (banks : List Nat) : CoreRec :=
  { k with bank := banks.foldl (fun b p => b.del p) k.bank, stepped := banks.foldl (fun b p => b.del p) k.stepped }

/-- The team that is placed, by its number and coordinates. -/
structure Placing where
  num : Nat
  gx : Nat
  gy : Nat
  gz : Nat
  dispatches : Nat
  handler : Option (Nat × Nat)

/-- A team placed on a core with its partitions and banks, which it finds clear (TEAM_PLACEMENT, R132, R299), with the acquire of its start
(R181). The package leaves COLD-IDLE (R373). -/
def State.place (s : State) (grid ctx : Nat) (d : Desc) (args : List Word) (prio : Nat) (p : Placing) (core : Nat) (parts banks : List Nat) :
    State :=
  let t := s.nextId
  let gs := d.groups
  let task := if d.latent then (s.ctx ctx).task else 0
  let r : TeamRec :=
    { ctx := ctx, grid := grid, num := p.num, gx := p.gx, gy := p.gy, gz := p.gz, core := core, d := d, task := task
      prio := prio, budget := if d.budget = 0 then none else some d.budget
      groups := (gs.zip (List.range gs.length)).map fun e => (e.2, Group.start e.1.1 (parts.getD e.2 0) t e.1.2.entry d args)
      bars := List.replicate d.barriers ⟨gs.length, 0, 0, false, 0⟩
      banks := banks, ver := .empty, dev := none, partDev := false, escapes := 0, dispatches := p.dispatches, handler := p.handler
      icode := [], barq := [], ports := [], copies := [], conds := [], trap := none }
  let s := if d.latent then s.updCtx ctx fun c => { c with task := nextTask c.task } else s
  let s := (s.l1Acquire core ctx).updCore core fun k => k.clearBanks banks
  { s with
    teams := s.teams.ins t r, nextId := t + 1
    thermal := { s.thermal with idleSince := none, state := if s.thermal.state = .coldIdle then .run else s.thermal.state } }

/-- Whether teams of a grid may be handed out: its context neither drains nor is stopped, and its CP is not isolated. -/
def State.dispatches (s : State) (r : GridRec) : Bool :=
  s.live && !(s.ctx r.ctx).draining && !(s.ctx r.ctx).stopped && (s.ctx r.ctx).enable && !r.reset && !s.isolated r.cp

/-- Whether the settings in force are other than COLD. -/
def State.warmBand (s : State) : Bool := s.thermal.band != .cold

/-- A team of a grid handed out to the first die in ring order that takes it (R298); RUNNING with the first. -/
def State.handOut (s : State) (g : Nat) (r : GridRec) (d : Desc) (num dispatches : Nat) (f : GridRec → GridRec) : State :=
  let first := match r.last with | none => r.cp | some x => ringNext x
  match s.pickDie d r.ctx r.cp first with
  | none => s
  | some (core, parts, banks) =>
    let p : Placing := ⟨num, num % r.nx, num / r.nx % r.ny, num / r.nx / r.ny, dispatches, none⟩
    let s' := s.place g r.ctx d r.args d.prio p core parts banks
    let f' := fun (r : GridRec) => { (f r) with last := some (dieOf core), band := r.band || s.warmBand }
    if r.phase == .waiting then s'.stamp g 3 fun r => { (f' r) with phase := .running, tRun := s.time }
    else s'.updGrid g f'

/-! ### Handlers (R357) -/

/-- A handler that is waiting, by the slot of its record, changed. -/
def State.updHandler (s : State) (g slot : Nat) (f : HandlerReq → HandlerReq) : State :=
  s.updGrid g fun r => { r with handlers := r.handlers.map fun h => if h.slot = slot then f h else h }

/-- A handler's request is over. -/
def State.endHandler (s : State) (g slot : Nat) : State :=
  s.updGrid g fun r => { r with handlers := r.handlers.filter fun k => k.slot != slot }

/-- A handler whose access a reply declined, or whose translation is fatal: no handler runs and the record is to be rewritten; where it was
the rewriting that failed, the record stands as it is (R356, R357). -/
def State.refuseHandler (s : State) (g slot : Nat) : State :=
  if (s.grid g).any fun r => r.handlers.any fun h => h.slot == slot && h.refused then s.endHandler g slot
  else s.updHandler g slot fun h => { h with refused := true }

/-- The record of a trap that no handler takes rewritten with NOHANDLER set, as a record is written: it needs W, waits for a page, and is
not written after a violation (R356, R357). -/
def State.rewriteTrap (s : State) (g : Nat) (r : GridRec) (h : HandlerReq) : State :=
  let acc : Acc := ⟨.trapDesc g h.slot, r.ctx, 4, 2, h.die, 255⟩
  let key := byteKey r.ctx h.record
  match s.xlate acc key with
  | .held => s.park acc key
  | .miss => s.await acc key
  | .bad _ _ st => (s.notice acc key st).endHandler g h.slot
  | .ok leaf => (s.cohWrite (lineWrite h.die key leaf h.bytes (List.replicate 128 false) [⟨s.nextId, 0, 0, g, 0⟩])).endHandler g h.slot

/-- No handler runs: the record is rewritten. -/
def State.dropHandler (s : State) (g : Nat) (r : GridRec) (h : HandlerReq) : State :=
  (s.updHandler g h.slot fun h => { h with refused := true }).rewriteTrap g r h

/-- The descriptor of a handler read at `.pkg` with its argument words: one that is invalid or unreadable runs no handler. -/
def State.readHandler (s : State) (g : Nat) (r : GridRec) (h : HandlerReq) : State :=
  let acc : Acc := ⟨.trapDesc g h.slot, r.ctx, 4, 1, h.die, 255⟩
  let put := fun (s : State) d args => s.updHandler g h.slot fun h => { h with d := some d, args := args }
  if s.blocked acc.req then s
  else if h.refused then s.rewriteTrap g r h
  else
    match s.cpRead acc h.desc 128 with
    | .wait s => s
    | .bad key st => (s.notice acc key st).dropHandler g r h
    | .ok bs s =>
      let raw := bs.map (·.1)
      let d := descOf raw
      let g01 := [Word.ofNat h.record, Word.ofNat (h.record / 2 ^ 32)]
      if bs.any (·.2) || descBad raw || (d.fit Parts.empty).isNone then s.dropHandler g r h
      else if d.gregs ≤ 2 then put s d g01
      else
        match s.cpRead acc (d.args + 8) (4 * (d.gregs - 2)) with
        | .wait s => s
        | .bad key st => (s.notice acc key st).dropHandler g r h
        | .ok bs s =>
          if bs.any (·.2) then s.dropHandler g r h else put s d (g01 ++ argWords (bs.map (·.1)) (d.gregs - 2))

/-- Every handler of a grid whose descriptor has not been read, read where it can be. -/
def State.readHandlers (s : State) (g : Nat) : State :=
  match s.grid g with
  | none => s
  | some r => (r.handlers.filter fun h => h.d.isNone).foldl (fun (s : State) h => s.readHandler g r h) s

/-- The next team of a grid handed out: a handler first, then a team to be dispatched again, then the next team in TEAM order. Where the
first of these finds no core, the others wait behind it (assumption 101). -/
def State.nextHandOut (s : State) (g : Nat) (r : GridRec) (d : Desc) : State :=
  match r.handlers.find? fun h => h.d.isSome, r.retry with
  | some h, _ =>
    (match h.d with
     | none => s
     | some hd =>
       match s.pickDie hd r.ctx h.die h.die with
       | none => s
       | some (core, parts, banks) =>
         (s.place g r.ctx hd h.args d.prio ⟨0, 0, 0, 0, 1, some (h.record, h.slot)⟩ core parts banks).endHandler g h.slot)
  | none, a :: rest => s.handOut g r d a.num (a.dispatches + 1) fun r => { r with retry := rest }
  | none, [] => if r.next < r.nx * r.ny * r.nz then s.handOut g r d r.next 1 fun r => { r with next := r.next + 1 } else s

/-- TEAM_HAND_OUT. The descriptors of handlers that still wait are read first. -/
def execTeamHandOut (g : Nat) (s : State) : Out :=
  let s := if s.live then s.readHandlers g else s
  match s.grid g with
  | none => .next s
  | some r =>
    match r.d with
    | none => .next s
    | some d =>
      if !s.dispatches r || decide (r.status ≠ 0) || decide (0 < r.preds) || r.tailed || !(r.phase == .waiting || r.phase == .running) then .next s
      else .next (s.nextHandOut g r d)

/-! ### The ends of teams and of grids (R17, R252) -/

/-- Whether a group has no live lane. -/
def Group.exited (g : Group) : Bool := g.lanes.all fun l => !l.live

/-- Whether a team may end (R252), but for its version. -/
def State.teamOver (s : State) (t : Nat) (r : TeamRec) : Bool :=
  r.trap.isNone && r.conds.isEmpty && r.barq.isEmpty && r.copies.isEmpty &&
  (r.groups.all fun (e : Nat × Group) => e.2.exited && e.2.storeQ.isEmpty && e.2.atoms.isEmpty && e.2.arrivals.isEmpty &&
    decide (e.2.held = Held.none)) &&
  !((s.core r.core).tileQ.any fun o => o.team == t) && !((s.core r.core).bulkQ.any fun b => b.team == t)

/-- A team's resources are freed, and its grid keeps what a record reports of it. -/
def State.endTeam (s : State) (t : Nat) (r : TeamRec) : State :=
  let s := (s.freeTeam t).updGrid r.grid fun g =>
    { g with partDev := g.partDev || r.partDev, ports := g.ports ++ r.ports.filter fun p => !g.ports.contains p }
  if s.teams.isEmpty then { s with thermal := { s.thermal with idleSince := some s.clock.ticks } } else s

/-- A task that ends begins to develop what it holds (R346). -/
def TeamRec.lastDevelop (r : TeamRec) (born : Nat) : TeamRec := { r with dev := some ⟨r.ver, false, none, born⟩, ver := .empty }

/-- TEAM_END: a task develops what it holds first (R346). -/
def execTeamEnd (t : Nat) (s : State) : Out :=
  match s.team t with
  | none => .next s
  | some r =>
    if !s.live || !s.teamOver t r then .next s
    else if r.dev.isSome then .next s
    else if !r.ver.isEmpty then .next ((s.updTeam t fun r => r.lastDevelop s.nextId).bump)
    else .next (s.endTeam t r)

/-- Whether a grid may complete (R17): every team and handler has ended. -/
def State.gridOver (s : State) (g : Nat) (r : GridRec) : Bool :=
  (r.phase == .waiting || r.phase == .running) && r.preds == 0 && !r.tailed && r.retry.isEmpty && r.handlers.isEmpty &&
  (r.status != 0 || r.d.isNone || decide (r.nx * r.ny * r.nz ≤ r.next)) && !(s.teams.any fun e => e.2.grid == g)

/-- The dirty bytes of a context in every L1 sent home and performed. -/
def State.flushAll (s : State) (ctx : Nat) : State :=
  (s.cores.foldl (fun (s : State) e => s.l1WriteBacks e.1 (lineOfCtx ctx)) s).settle

/-- Whether writes of a context are still on their way. -/
def State.stillOut (s : State) (ctx : Nat) : Bool := s.outw.any fun o => lineOfCtx ctx o.line

/-- Flush reads to ports (R184). -/
def State.flushesTo (s : State) (ports : List Port) : State := ports.foldl (fun (s : State) p => s.emit (.flush p)) s

/-- The release of step 1 of R17 at `.sys`. -/
def State.releaseSys (s : State) (ctx : Nat) (ports : List Port) : State := (s.flushAll ctx).flushesTo ports

/-- A decrement sent. -/
def State.sendDec (s : State) (d : Dec) : State := { s with decs := s.decs ++ [{ d with id := s.nextId }], nextId := s.nextId + 1 }

/-- The decrements of step 2: one for each nonzero SUCC, and one for each grid launched with TAIL (R283). -/
def State.sendDecs (s : State) (g : Nat) (r : GridRec) : State :=
  let succs := ((r.d.map Desc.succs).getD []).filter fun a => a != 0
  let tails := s.grids.filter fun (e : Nat × GridRec) => e.2.tail == some g && e.2.phase == .waiting && e.2.tailed
  let s := succs.foldl (fun (s : State) a => s.sendDec ⟨0, g, r.ctx, a, none⟩) s
  tails.foldl (fun (s : State) e => s.sendDec ⟨0, g, r.ctx, e.2.desc, some e.1⟩) s

/-- GRID_COMPLETION: the release, then, once it is complete, the decrements (steps 1 and 2 of R17). -/
def execGridCompletion (g : Nat) (s : State) : Out :=
  match s.grid g with
  | none => .next s
  | some r =>
    if !s.live || s.isolated r.cp || !s.gridOver g r then .next s
    else
      let s := s.flushAll r.ctx
      if s.stillOut r.ctx then .next s
      else
        let s := (s.flushesTo r.ports).updGrid g fun r => { r with phase := .finished }
        .next ((s.sendDecs g r).toRing g)

/-! ### Completion records (R17, R295) -/

/-- STATUS of a record: RESET, then FAULTED, then TRAPPED. -/
def GridRec.statusCode (g : GridRec) : Nat :=
  if g.reset then 3 else if g.faulted then 2 else if !g.trapped.isEmpty then 1 else g.status

/-- A completion record. -/
def GridRec.record (g : GridRec) (time : Nat) : List Byte :=
  numBytes time 8 ++ numBytes g.tag 8 ++ numBytes g.queueNo 2 ++ numBytes g.statusCode 1 ++
  numBytes (g.band.toNat + 2 * g.partDev.toNat) 1 ++
  numBytes (min g.traps 65535 + 2 ^ 16 * g.lost.toNat + 2 ^ 17 * g.poison.toNat) 4 ++ numBytes g.seq 8

/-- The stamps of a grid that completes: those of one without teams are equal, and a reset leaves the states that were not reached at 0
(R368; assumption 27). -/
def GridRec.stamps (g : GridRec) (time : Nat) : GridRec :=
  if g.phase == .finished && !g.reset && (g.d.isNone || g.status != 0 || g.nx * g.ny * g.nz == 0) then
    { g with tAccept := time, tReady := time, tRun := time, tDone := time }
  else { g with tDone := time }

/-- COMPLETION_RECORD: the record, PROGRESS, the contact sheet and the interrupt (steps 3 to 6 of R17). -/
def execCompletionRecord (g : Nat) (s : State) : Out :=
  match s.grid g with
  | none => .next s
  | some r =>
    match (s.ring r.cp r.ring).waiting with
    | (4096, h) :: rest =>
      if !s.live || h != g || !s.ringOpen r.cp r.ring then .next s
      else
        let s := s.updRing r.cp r.ring fun x => { x with waiting := rest }
        let s := s.ringPut r.cp r.ring (r.record s.time)
        let s := match r.src with
          | .queue q _ _ => s.updQueue q fun k => { k with progress := k.progress + 1 }
          | .launch _ => s
        let s := s.sheet { (r.stamps s.time) with status := r.statusCode } 4
        let s := { s with grids := s.grids.del g }
        .next ((s.ringCheck r.cp r.ring).ringGo r.cp r.ring)
    | _ => .next s

end Sys2Proof.Machine
end

