-- ==== Sys2Proof/Machine/EvTrap.lean ====
section
/-! DEFINITION. Events of traps (R272, R353 to R358): BUDGET_EXPIRY, TRAP_DELIVERY and TRAP_RECORD_WRITE with the retry or the
handler that follows. -/

namespace Sys2Proof.Machine

/-- The lowest group of a team that has not exited. -/
def TeamRec.lowestLive (r : TeamRec) : Option (Nat × Group) := r.groups.find? fun (e : Nat × Group) => !e.2.exited

/-- BUDGET_EXPIRY (R272): the trap names the issue address of the lowest group that has not exited. -/
def execBudgetExpiry (t : Nat) (s : State) : Out :=
  match s.team t with
  | none => .next s
  | some r =>
    match r.lowestLive, r.budget with
    | some (g, k), some 0 =>
      .next ((s.updTeam t fun r => { r with budget := none }).raise t g tBUDGET 0 (k.issueAddr.getD (k.lane 0).lpc) 0 0)
    | _, _ => .next s

/-- The instruction at an LPC as a trap record holds it (R355). -/
def TeamRec.wordAt (r : TeamRec) (lpc : Word) : Nat :=
  match r.fetch lpc.toNat with
  | .instr _ w => w
  | .bad w => w
  | .need _ => 0

/-- What a grid's record reports of a trap delivered to one of its teams or handlers (R295). -/
def GridRec.trap (g : GridRec) (code : Nat) : GridRec :=
  { g with traps := g.traps + 1, poison := g.poison || code == tPOISON, lost := g.lost || code == tLINKLOST }

/-- TRAP_DELIVERY (R353): steps 1 and 2, then step 3 once what the team issued before has completed, a develop in progress among it
(R97, R351). -/
def execTrapDelivery (t : Nat) (s : State) : Out :=
  match s.team t with
  | none => .next s
  | some r =>
    match r.trap, firstCond r.conds with
    | none, some c => .next (((s.takeTrap t (r.wordAt c.lpc)).discard t).updGrid r.grid fun g =>
        { (g.trap c.code) with faulted := g.faulted || (c.code != tLINKLOST && r.conds.any fun c => c.code == tLINKLOST) })
    | some _, _ => .next (s.discard t)
    | none, none => .next s

/-! ### The record (R355, R356) -/

/-- FLAGS of a record (R355): LATENT, PARTIAL, TXLOST, NESTED, NOHANDLER, HELD, RETRY. -/
def trapFlags (r : TeamRec) (i : TrapInfo) (retry noHandler : Bool) : Nat :=
  r.d.latent.toNat + 2 * r.partDev.toNat + 4 * i.tx.toNat + 8 * r.handler.isSome.toNat + 16 * noHandler.toNat +
  32 * (i.gone.any (·.1)).toNat + 64 * retry.toNat

/-- HELDB of a record (R355). -/
def TrapInfo.heldb (i : TrapInfo) : Nat := 128 * (i.gone.elim 0 (·.2))

/-- A trap record (R355). -/
def trapBytes (r : TeamRec) (i : TrapInfo) (desc seq flags : Nat) : List Byte :=
  let c := i.cond
  let role := (r.groups.find c.grp).elim 0 (·.role)
  let addr := c.code = tALIGN ∨ c.code = tMEMPERM ∨ c.code = tMEMFATAL ∨ (c.code = tPOISON ∧ c.detail = 1)
  numBytes c.code 1 ++ numBytes flags 1 ++ numBytes role 1 ++ numBytes c.grp 1 ++ numBytes c.lpc.toNat 4 ++ numBytes c.lanes.toNat 4 ++
  numBytes r.num 4 ++ numBytes r.gx 4 ++ numBytes r.gy 4 ++ numBytes r.gz 4 ++ numBytes r.task 4 ++
  numBytes desc 8 ++ numBytes (if addr then c.addr else 0) 8 ++ numBytes i.time 8 ++ numBytes seq 8 ++ numBytes c.detail 4 ++
  numBytes r.ctx 1 ++ numBytes (dieOf r.core) 1 ++ numBytes (r.core % 40) 1 ++ numBytes i.band 1 ++
  numBytes i.word 8 ++ numBytes r.escapes 8 ++ numBytes i.heldb 8 ++ numBytes 0 32

/-- Whether a trap is retried (R358). -/
def State.retries (s : State) (r : TeamRec) (i : TrapInfo) : Bool :=
  (i.cond.code == tPOISON || i.cond.code == tLINKLOST) && r.d.latent && r.escapes == 0 && !r.partDev && r.handler.isNone &&
  decide (r.dispatches < 1 + (s.ctx r.ctx).trapctl.toNat / 16 % 16)

/-- The end of a trapped team without a retry: its grid carries the trap (R295). -/
def State.endTrapped (s : State) (t : Nat) (r : TeamRec) (i : TrapInfo) : State :=
  (s.endTeam t r).updGrid r.grid fun g =>
    { g with trapped := if r.handler.isSome then g.trapped else addOnce g.trapped r.num
             faulted := g.faulted || i.cond.code == tLINKLOST }

/-- A record that is not written: TRAPLOST, and neither a handler nor a retry (R356). -/
def State.trapLost (s : State) (t : Nat) : State :=
  match s.team t with
  | none => s
  | some r =>
    match r.trap with
    | none => s
    | some i => (s.updCtx r.ctx fun c => { c with traplost := satInc c.traplost }).endTrapped t r i

/-- What follows a record: the team is dispatched again, or its handler waits for its descriptor and for dispatch (R357, R358). -/
def State.afterTrap (s : State) (t : Nat) (r : TeamRec) (i : TrapInfo) (retry : Bool) (h : Option HandlerReq) : State :=
  if retry then
    (s.endTeam t r).updGrid r.grid fun g => { g with retry := g.retry ++ [⟨r.num, r.dispatches⟩] }
  else
    let s := s.endTrapped t r i
    match h with
    | some h => (s.updGrid r.grid fun g => { g with handlers := g.handlers ++ [h] }).readHandlers r.grid
    | none => s

/-- The record written at `.sys` and released (step 4 of R353). -/
def State.putTrap (s : State) (t : Nat) (r : TeamRec) (i : TrapInfo) (leaf : Leaf) (record : Nat) (bs : List Byte) : State :=
  let o := lineWrite (dieOf r.core) (byteKey r.ctx record) leaf bs (List.replicate 128 false) [⟨t, i.cond.grp, i.cond.lpc, r.grid, i.cond.id⟩]
  ((s.cohWrite o).flushesTo r.ports).updCtx r.ctx fun c => { c with traptail := c.traptail + 1 }

/-- TRAP_RECORD_WRITE (R356 to R358): steps 4 to 6 of R353, once step 3 is done and the team's earlier writes are released. -/
def execTrapRecordWrite (t : Nat) (s : State) : Out :=
  match s.team t with
  | none => .next s
  | some r =>
    match r.trap with
    | none => .next s
    | some i =>
      let c := s.ctx r.ctx
      let slot := c.traptail.toNat % trapSlots c
      let record := c.trapbase.toNat + 128 * slot
      if !s.live || i.gone.isNone || s.blocked (.trapRec t) then .next s
      else if !c.trapctl.getLsbD 31 || decide (2 ^ 57 < record + 128) then .next (s.trapLost t)
      else if s.slotBusy r.ctx slot then .next s
      else
        let acc : Acc := ⟨.trapRec t, r.ctx, 4, 2, dieOf r.core, 255⟩
        match s.xlate acc (byteKey r.ctx record) with
        | .held => .next (s.park acc (byteKey r.ctx record))
        | .miss => .next (s.await acc (byteKey r.ctx record))
        | .bad _ _ st => .next ((s.notice acc (byteKey r.ctx record) st).trapLost t)
        | .ok leaf =>
          let retry := s.retries r i
          let hand := !retry && r.handler.isNone && c.trapdesc != 0
          let g := s.grid r.grid
          let bs := fun none_ => trapBytes r i (g.elim 0 (·.desc)) (g.elim 0 (·.seq)) (trapFlags r i retry none_)
          let h : HandlerReq := ⟨c.trapdesc.toNat, none, false, record, slot, bs true, dieOf r.core, []⟩
          let s := s.l1Flush r.core r.ctx
          if s.outPending r.core r.ctx then .next s
          else .next ((s.putTrap t r i leaf record (bs (!retry && !hand))).afterTrap t r i retry (if hand then some h else none))

end Sys2Proof.Machine
end

