-- ==== Sys2Proof/Machine/Fabric.lean ====
section
/-! DEFINITION. What arrives from the fabric (R191, R220 to R222, R326, R336 to R339): the match by JobID, writes, reads, arrival
counters and forwards. A reply's kinds: 0 acknowledged, 1 retry, 2 refused by a violation or as an operation not taken, 3 refused as fatal, 4 the bytes of a
read, 5 no matching job, 6 counter add acknowledged. -/

namespace Sys2Proof.Machine

/-- The context whose valid JOBID equals a packet's (R338). -/
def State.jobCtx (s : State) (job : BitVec 24) : Option Nat :=
  (List.range 64).find? fun c => (s.ctx c).jobid.getLsbD 31 && (s.ctx c).jobid.extractLsb' 0 24 == job

/-- The die of an Ethernet port (R12). -/
def ethDie (p : Fin 8) : Nat := p.val / 2

/-- A reply to a packet. -/
def State.answer (s : State) (p : Packet) (kind : Nat) : State := s.emit (.reply p.msg p.addr kind 0 false)

/-- A packet without a matching job (R338). -/
def State.dropJob (s : State) (p : Packet) : State :=
  { s with pkg := { s.pkg with jobdrop := satInc s.pkg.jobdrop } }.answer p 5

/-- Whether a packet is the counter add that a receiver owes after its copy's last chunk (R221). -/
def packetCounter (p : Packet) : Bool := p.sig && p.addr.toNat == p.dst.toNat + p.len.toNat

/-- A translation whose walk is made within the access. -/
def State.xlateNow (s : State) (a : Acc) (key : Nat) : Xl × State :=
  match s.xlate a key with
  | .miss =>
    match s.walk (s.walkDie a.die key) key with
    | .leaf l => (s.judge a key l, s.tlbPut (s.walkDie a.die key) key l)
    | .absent => (.miss, s)
    | .fatal d => (.bad tMEMFATAL d 2, s)
  | x => (x, s)

/-- What a fabric access to some bytes meets. -/
inductive Met where
  | ok (leaves : List Leaf) (s : State) | wait (key : Nat) (s : State) | held (s : State) | bad (key status : Nat) (s : State)

/-- The translations of an access's keys, in order. -/
def State.meet (a : Acc) : List Nat → State → Met
  | [], s => .ok [] s
  | k :: ks, s =>
    let r := s.xlateNow a k
    match r.1 with
    | .held => .held r.2
    | .miss => .wait k r.2
    | .bad _ _ st => .bad k st r.2
    | .ok l =>
      match State.meet a ks r.2 with
      | .ok ls s => .ok (l :: ls) s
      | m => m

/-- The keys of the lines that `n` bytes at a key touch. -/
def lineKeys (key n : Nat) : List Nat := (splitLines key (List.replicate n 0)).map (·.1)

/-- The access of a packet: KIND 3, from the fabric (R323). -/
def packetAcc (p : Packet) (id ctx acc : Nat) : Acc := ⟨.arrival id, ctx, 3, 8 + acc, ethDie p.port, 255⟩

/-- The record of a page that an arrival needs and that is not present (R322, R324): it attaches to the page's pending record, or
forms one. -/
def State.arrivalFault (s : State) (p : Packet) (ctx acc key : Nat) : State :=
  let id := s.nextId
  let s := { s with nextId := s.nextId + 1, arrivals := s.arrivals ++ [(⟨id, p, ctx, p.port.val⟩ : ArrRec)] }
  let a := packetAcc p id ctx acc
  if s.faults.any fun f => f.status == 0 && f.page == key / 2 ^ 16 then s.await a key
  else s.formRecord ctx key 3 a.acc 0 (s.walkDie a.die key) 255 [(.arrival id, key)]

/-- Whether an arrival of the same packet is already attached to a record. -/
def State.attached (s : State) (p : Packet) : Bool := s.arrivals.any fun a => a.pkt.msg == p.msg && a.pkt.addr == p.addr

/-- An arrival that is not performed: a notice of a violation or a fatal outcome, and the refusal returned (R191). -/
def State.refusePacket (s : State) (p : Packet) (ctx acc key status : Nat) : State :=
  (s.notice (packetAcc p 0 ctx acc) key status).answer p (status + 1)

/-- A chunk's bytes at its keys. -/
def State.fabricRead (s : State) (die key n : Nat) (leaves : List Leaf) : List (Byte × Bool) × State :=
  ((lineKeys key n).zip leaves).foldl (fun (acc : List (Byte × Bool) × State) e =>
    let hi := min (key + n) ((e.1 / 128 + 1) * 128)
    let v := acc.2.cohRead die e.1 e.2 (touched (e.1 % 128) (hi - e.1))
    (acc.1 ++ (List.range (hi - e.1)).map fun j =>
      (v.1.extractLsb' (8 * (e.1 % 128 + j)) 8, v.2.1.getLsbD ((e.1 % 128 + j) / 16)), v.2.2)) ([], s)

/-- Bytes written at their homes at `.sys`, on behalf of no team. -/
def State.fabricWrite (s : State) (die key : Nat) (bs : List Byte) (mark : Bool) (leaves : List Leaf) : State :=
  ((splitLines key bs).zip leaves).foldl (fun (s : State) e =>
    s.cohWrite (lineWrite die e.1.1 e.2 e.1.2 (e.1.2.map fun _ => mark) [])) s

/-! ### The arrival counter (R221) -/

/-- A counter add that a purge holds is kept, and made when the purge ends (R221, R326). -/
def State.parkArrival (s : State) (p : Packet) (ctx key : Nat) : State :=
  let id := s.nextId
  { s with nextId := s.nextId + 1, arrivals := s.arrivals ++ [(⟨id, p, ctx, p.port.val⟩ : ArrRec)] }.park (packetAcc p id ctx 2) key

/-- The counter add that a received copy owes: an ATOM.ADD of 1 at DST + LEN. Where it waits, the sender is told to go on waiting, as for
any arrival (assumption 104). -/
def State.counterAdd (s : State) (p : Packet) (ctx : Nat) : State :=
  let va := p.dst.toNat + p.len.toNat
  let p := { p with addr := BitVec.ofNat 64 va }
  let die := ethDie p.port
  let key := byteKey ctx (va % 2 ^ 57)
  if 2 ^ 57 < va + 4 then s.refusePacket p ctx 2 key 1
  else
    match State.meet (packetAcc p 0 ctx 2) [key] s with
    | .held s => (s.parkArrival p ctx key).answer p 1
    | .wait k s => (s.arrivalFault p ctx 2 k).answer p 1
    | .bad k st s => s.refusePacket p ctx 2 k st
    | .ok ls s =>
      let v := s.fabricRead die key 4 ls
      if v.1.any (·.2) then v.2.refusePacket p ctx 2 key 2
      else (v.2.fabricWrite die key (numBytes (leNat (v.1.map (·.1)) + 1) 4) false ls).answer p 6

/-- A packet's chunk of its copy. -/
def packetChunk (p : Packet) : Nat := (p.addr.toNat - p.dst.toNat) / 16

/-- The next chunk of an ordered copy (R220). -/
def State.nextChunk (s : State) (p : Packet) (ctx : Nat) : Nat :=
  ((s.recvs.find? fun r => r.msg == p.msg && r.ctx == ctx).map (·.next)).getD 0

/-- A chunk counted, written under some leaves: once every chunk has been performed the counter rises, as a release at `.sys` of them, with
the flush reads of the ports that they have written (R184). -/
def State.countChunk (s : State) (p : Packet) (ctx : Nat) (leaves : List Leaf) : State :=
  if !(p.sig || p.ord) then s
  else
    let old := s.recvs.find? fun r => r.msg == p.msg && r.ctx == ctx
    let left := ((old.map (·.left)).getD (p.len.toNat / 16)) - 1
    let ports := [Port.a, Port.b].filter fun q => ((old.map (·.ports)).getD []).contains q || leaves.any fun l => l.host && l.port == q
    let s := { s with recvs := (s.recvs.filter fun r => !(r.msg == p.msg && r.ctx == ctx)) ++
      (if left = 0 then [] else [⟨p.msg, ctx, left, packetChunk p + 1, ports⟩]) }
    if p.sig && left == 0 then (ports.foldl (fun (s : State) q => s.emit (.flush q)) s).counterAdd p ctx else s

/-! ### Forwards (R222) -/

/-- A forward of a received copy, by its message: `lpc` holds nothing and `src` the message. -/
def forwardOf (p : Packet) (ctx peer id time : Nat) : BulkOp :=
  { id := id, team := 0, grp := 0, ctx := ctx, die := ethDie p.port, lpc := 0, src := p.msg, dst := p.dst.toNat, len := p.len.toNat
    dir := false, remote := true, ord := p.ord, peer := peer, sig := p.sig, chs := p.chs.val, hops := p.hops.toNat - 1, bar := 0
    esc := true, todo := [(0, p.len.toNat / 16)], sent := [], forward := true, seen := time, bad := false, got := [] }

/-- A forward changed; it ends when nothing of it is left. -/
def State.updForward (s : State) (id : Nat) (f : BulkOp → BulkOp) : State :=
  { s with forwards := (s.forwards.map fun b => if b.id = id then f b else b).filter fun b =>
      b.id != id || !(b.todo.isEmpty && b.sent.isEmpty) }

/-- A forward fails: a notice with KIND 1 and the address DST, and nothing more is sent. -/
def State.failForward (s : State) (b : BulkOp) (status : Nat) : State :=
  let key := byteKey b.ctx (b.dst % 2 ^ 57)
  let s := s.formRecord b.ctx key 1 (8 + 2) status (s.walkDie b.die key) 255 []
  s.updForward b.id fun b => { b with bad := true, sent := [] }

/-- A chunk of a forward sent: it is read where it was performed. Where no port can send, the transport goes on trying. -/
def State.forwardChunk (s : State) (b : BulkOp) (chunk : Nat) : State :=
  let mark := fun (s : State) => s.updForward b.id fun b =>
    { b with todo := dropChunk b.todo chunk, sent := if b.sent.contains chunk || b.bad then b.sent else b.sent ++ [chunk], seen := s.time }
  if b.bad then mark s
  else if min (s.ctx b.ctx).peercnt.toNat 65536 ≤ b.peer then (mark s).failForward b 1
  else
    match s.peer b.ctx b.die b.peer with
    | none => (mark s).failForward b 1
    | some q =>
      match s.ethPort q.ports chunk with
      | none => mark s
      | some port =>
        let key := byteKey b.ctx ((b.dst + 16 * chunk) % 2 ^ 57)
        match s.silentLeaf key with
        | none => (mark s).failForward b 1
        | some leaf =>
          let v : List (Byte × Bool) × State := s.fabricRead b.die key 16 [leaf]
          (mark v.2).emit (BulkOp.packet { b with src := b.dst } q port chunk (BitVec.ofNat 128 (leNat (v.1.map (·.1)))) (v.1.any (·.2)))

/-- A performed chunk sent on, where the packet has hops left. -/
def State.forward (s : State) (p : Packet) (ctx : Nat) : State :=
  let chunk := packetChunk p
  if p.hops = 0 then s
  else
    match s.forwards.find? fun b => b.src == p.msg && b.ctx == ctx with
    | some b => s.forwardChunk b chunk
    | none =>
      let slot := (s.ctx ctx).chain.toNat / 2 ^ (16 * p.chs.val) % 2 ^ 16
      let b := forwardOf p ctx slot s.nextId s.time
      { s with nextId := s.nextId + 1, forwards := s.forwards ++ [b] }.forwardChunk b chunk

/-! ### Arrivals -/

/-- Whether a packet is of an operation that the endpoint takes (R336): an RMA write or read of resource index 0. -/
def packetTaken (p : Packet) : Bool :=
  p.ri == 0 && (match p.op with | .write | .read => true | _ => false)

/-- A write that arrives (R220, R336, R338): matched, checked, performed and acknowledged; then counted and forwarded. A chunk of an
ordered copy that is not the next is sent again. -/
def State.writeArrives (s : State) (p : Packet) : State :=
  match s.jobCtx p.job with
  | none => s.dropJob p
  | some ctx =>
    let va := p.addr.toNat
    let key := byteKey ctx (va % 2 ^ 57)
    if !packetTaken p then s.answer p 2
    else if 2 ^ 57 < va + 16 then s.refusePacket p ctx 2 key 1
    else if p.ord && s.nextChunk p ctx != packetChunk p then s.answer p 1
    else
      match State.meet (packetAcc p 0 ctx 2) (lineKeys key 16) s with
      | .held s => s.answer p 1
      | .wait k s => (if s.attached p then s else s.arrivalFault p ctx 2 k).answer p 1
      | .bad k st s => s.refusePacket p ctx 2 k st
      | .ok ls s =>
        let s := s.fabricWrite (ethDie p.port) key (numBytes p.bytes.toNat 16) p.poison ls
        ((s.answer p 0).countChunk p ctx ls).forward p ctx

/-- A read that arrives (R220): FR is needed. -/
def State.readArrives (s : State) (p : Packet) : State :=
  match s.jobCtx p.job with
  | none => s.dropJob p
  | some ctx =>
    let va := p.addr.toNat
    let key := byteKey ctx (va % 2 ^ 57)
    if !packetTaken p then s.answer p 2
    else if 2 ^ 57 < va + 16 then s.refusePacket p ctx 1 key 1
    else
      match State.meet (packetAcc p 0 ctx 1) (lineKeys key 16) s with
      | .held s => s.answer p 1
      | .wait k s => (if s.attached p then s else s.arrivalFault p ctx 1 k).answer p 1
      | .bad k st s => s.refusePacket p ctx 1 k st
      | .ok ls s =>
        let v := s.fabricRead (ethDie p.port) key 16 ls
        v.2.emit (.reply p.msg p.addr 4 (BitVec.ofNat 128 (leNat (v.1.map (·.1)))) (v.1.any (·.2)))

/-- An arrival whose fault is declined (R191): its sender is told. -/
def State.declineArrival (s : State) (id : Nat) : State :=
  match s.arrivals.find? fun a => a.id == id with
  | some a => { s with arrivals := s.arrivals.filter fun a => a.id != id }.answer a.pkt 2
  | none => s

/-- An arrival whose wait has ended: its sender sends again by itself, and a counter add is made again. -/
def State.releaseArrival (s : State) (q : Req) : State :=
  match q with
  | .arrival id =>
    match s.arrivals.find? fun a => a.id == id with
    | some a =>
      let s := { s with arrivals := s.arrivals.filter fun a => a.id != id }
      if packetCounter a.pkt then s.counterAdd a.pkt a.ctx else s
    | none => s
  | _ => s

/-- The arrivals of a record whose fault has been serviced. -/
def State.releaseArrivals (s : State) (f : FaultRec) : State := f.reqs.foldl (fun (s : State) q => s.releaseArrival q.1) s

end Sys2Proof.Machine
end

