-- ==== Sys2Proof/Machine/EvFault.lean ====
section
/-! DEFINITION. Events of translation faults (R319 to R325): page walks, fault records and the host's replies. -/

namespace Sys2Proof.Machine

/-! ### Walks (R320, R322) -/

/-- The walks to a page. -/
def State.walksOf (s : State) (key : Nat) : List WalkReq := s.walks.filter fun w => w.key / 2 ^ 16 == key / 2 ^ 16

/-- A state without the walks to the page of a key. -/
def State.dropWalks (s : State) (key : Nat) : State := { s with walks := s.walks.filter fun w => w.key / 2 ^ 16 != key / 2 ^ 16 }

/-- An access that meets a page not present: its walks attach to the page's pending record, or form one (R323, R324). -/
def State.notPresent (s : State) (w : WalkReq) : State :=
  let ws := s.walksOf w.key
  let s := s.dropWalks w.key
  if s.faults.any fun f => f.status == 0 && f.page == w.key / 2 ^ 16 then
    ws.foldl (fun (s : State) v => s.await ⟨v.req, v.ctx, v.kind, v.acc, v.die, v.core⟩ v.key) s
  else
    s.formRecord w.ctx w.key w.kind (ws.foldl (fun a v => a ||| v.acc) w.acc) 0 w.die w.core
      (ws.map fun v => (v.req, v.key))

/-- A walk that a purge holds: its accesses wait for the purge (R326). -/
def State.parkWalks (s : State) (key : Nat) : State :=
  let held := fun (w : WalkReq) => w.key / 2 ^ 16 == key / 2 ^ 16 && !(match w.req with | .develop _ => true | _ => false)
  (s.walks.filter held).foldl (fun (s : State) w => s.park ⟨w.req, w.ctx, w.kind, w.acc, w.die, w.core⟩ w.key)
    { s with walks := s.walks.filter fun w => !held w }

/-- A walk that a walker makes: the leaf enters the translation cache, or the access faults. A purge holds it. -/
def State.walked (s : State) (w : WalkReq) : State :=
  if s.purging w.key && !(match w.req with | .develop _ => true | _ => false) then s.parkWalks w.key
  else
    match s.walk w.die w.key with
    | .leaf l => (s.dropWalks w.key).tlbPut w.die w.key l
    | .absent => s.notPresent w
    | .fatal d =>
      let s := { s with walks := s.walks.filter fun v => v.id != w.id }
      let s := s.formRecord w.ctx w.key w.kind w.acc 2 w.die w.core []
      match w.req with
      | .cmd q => s.updQueue q fun k => { k with active := k.active.map fun a => { a with refused := true } }
      | .desc g => s.failGrid g 4 ((s.grid g).bind (·.d))
      | .trapRec t => s.trapLost t
      | .trapDesc g k => s.refuseHandler g k
      | q => s.failAccess q w.key tMEMFATAL d

/-- PAGE_WALK, with a walker free. -/
def execPageWalk (n : Nat) (s : State) : Out :=
  match s.walks.find? fun w => w.id == n with
  | none => .next s
  | some w => if !s.live || !s.walkerFree w then .next s else .next (s.walked w)

/-! ### The fault queue (R323) -/

/-- A record's bytes. -/
def FaultRec.bytes (f : FaultRec) : List Byte :=
  numBytes f.va 8 ++ numBytes f.seq 8 ++ numBytes f.time 8 ++ numBytes f.kind 1 ++ numBytes f.acc 1 ++ numBytes f.status 1 ++
  numBytes f.die 1 ++ numBytes f.core 1 ++ numBytes 0 3

/-- The number of records of a fault queue. -/
def faultSlots (c : CtxRec) : Nat := let n := c.fqctl.toNat % 16; 2 ^ (if n < 4 ∨ 12 < n then 4 else n)

/-- Whether a context's fault queue takes a record. -/
def State.faultRoom (s : State) (c : CtxRec) : Bool :=
  c.fqctl.getLsbD 31 && (c.fqtail - c.fqhead).toNat != faultSlots c && s.physUp (physOf c.fqbase)

/-- The oldest record of a context that waits to be written. -/
def State.firstFault (s : State) (c : Nat) : Option FaultRec := s.faults.find? fun f => f.ctx == c && !f.written

/-- FAULT_RECORD_WRITE (R323): a notice is done once it is written; a replayable record stands until its reply. -/
def execFaultRecordWrite (c : Ctx) (s : State) : Out :=
  match s.firstFault c.val with
  | none => .next s
  | some f =>
    let k := s.ctx c.val
    if !s.live || !s.faultRoom k then .next s
    else
      let s := s.physPut f.die ((physOf k.fqbase).plus (32 * (k.fqtail.toNat % faultSlots k))) f.bytes
      let s := s.updCtx c.val fun k => { k with fqtail := k.fqtail + 1 }
      let s := { s with faults := s.faults.filterMap fun (e : FaultRec) =>
        if e.ctx = c.val ∧ e.seq = f.seq then (if e.status = 0 then some { e with written := true } else none) else some e }
      .next (s.emit (.msix k.owner (k.fqctl.toNat / 2 ^ 8 % 64)))

/-! ### Replies (R324, R325) -/

/-- A record that a host may reply to: it is pending, and stands in the ring. -/
def State.pendingFault (s : State) (c seq : Nat) : Option FaultRec :=
  s.faults.find? fun f => f.ctx == c && f.seq == seq && f.status == 0 && f.written

/-- A record retired: what waited on it replays. -/
def State.retire (s : State) (c seq : Nat) : State := { s with faults := s.faults.filter fun f => !(f.ctx == c && f.seq == seq) }

/-- An access that a reply declines (R324, R325). -/
def State.decline (s : State) (q : Req) (key acc : Nat) : State :=
  match q with
  | .cmd q => s.updQueue q fun k => { k with active := k.active.map fun a => { a with refused := true } }
  | .desc g => s.failGrid g 4 ((s.grid g).bind (·.d))
  | .trapRec t => s.trapLost t
  | .trapDesc g k => s.refuseHandler g k
  | .arrival id => s.declineArrival id
  | q => s.failAccess q key tMEMPERM (acc % 16 + 256)

def State.replyRetry (s : State) (c seq : Nat) : State :=
  match s.pendingFault c seq with
  | none => s
  | some f => (s.retire c seq).releaseArrivals f

def State.replyDecline (s : State) (c seq : Nat) : State :=
  match s.pendingFault c seq with
  | none => s
  | some f => f.reqs.foldl (fun (s : State) e => s.decline e.1 e.2 f.acc) (s.retire c seq)

/-- A write of FREPLY that a port makes. -/
def State.replyArrive (s : State) (p : Port) (c seq : Nat) (decline : Bool) : State :=
  s.guarded (s.mayCtx p c) (if decline then s.replyDecline c seq else s.replyRetry c seq)

def execFreplyRetry (p : Port) (c : Ctx) (seq : BitVec 62) (s : State) : Out :=
  .next (if s.live then s.posted p (.reply c.val seq.toNat false) (s.replyArrive p c.val seq.toNat false) else s)

def execFreplyDecline (p : Port) (c : Ctx) (seq : BitVec 62) (s : State) : Out :=
  .next (if s.live then s.posted p (.reply c.val seq.toNat true) (s.replyArrive p c.val seq.toNat true) else s)

end Sys2Proof.Machine
end

