-- ==== Sys2Proof/Machine/Aperture.lean ====
section
/-! DEFINITION. The host's accesses through its apertures (R184, R326, R334): what each does, and those that wait behind a purge. -/

namespace Sys2Proof.Machine

/-- The context aperture's address of an offset. -/
def State.apertureVa (s : State) (p : Port) (off : BitVec 34) : Nat := (s.port p).apbase.toNat * 2 ^ 34 + off.toNat

/-- How many bytes an access names. -/
def hostSize (a : HostAcc) : Nat := match a with | .read n => n | .write bs _ _ => bs.length

/-- An access in a context, as by an agent of it at `.sys`; a fault or a violation completes with Completer Abort, without a record
(R325). None where a purge holds the range. -/
def State.ctxAccess (s : State) (p : Port) (c va : Nat) (a : HostAcc) : Option State :=
  let key := byteKey c va
  let acc : Acc := ⟨.outw 0, c, 0, match a with | .read _ => 1 | .write _ _ _ => 2, portDie p, 255⟩
  match State.meet acc (lineKeys key (hostSize a)) s with
  | .held _ => none
  | .wait _ s | .bad _ _ s => some (s.emit (.abort p))
  | .ok ls s =>
    match a with
    | .read n =>
      let v := s.fabricRead (portDie p) key n ls
      some (v.2.emit (.readData p (v.1.map (·.1)) (v.1.any (·.2))))
    | .write bs ep _ => some (s.fabricWrite (portDie p) key bs ep ls)

/-- An access at the DRAM array. Across a cut a read is poisoned and a write is lost (R366). -/
def State.physAccess (s : State) (p : Port) (addr : Nat) (a : HostAcc) : State :=
  let at_ : Phys := ⟨false, .a, addr⟩
  let there := s.reach (portDie p) (addr / 2 ^ 37)
  match a with
  | .read n =>
    if there then s.emit (.readData p (s.physRead at_ n) (s.physMark at_ n))
    else s.emit (.readData p (List.replicate n 0) true)
  | .write bs ep _ =>
    if there then
      let s := s.physWrite at_ bs
      if ep then s.physPoison at_ bs.length else s
    else s.updDie (portDie p) fun d => { d with lostw := d.lostw + 1 }

/-- An access performed, or what of it a purge holds. The context aperture leads only to a context that the port owns, the physical one
only from the authority port (R334). -/
def State.memAccess (s : State) (p : Port) (op : HostOp) : Except HostOp State :=
  let inCtx := fun c va a => match s.ctxAccess p c va a with | some s => Except.ok s | none => .error (.mem c va a)
  match op with
  | .aperture off a =>
    let c := (s.port p).apctx.toNat
    let va := s.apertureVa p off
    if (s.ctx c).owner != p then .ok (s.emit (.unsupported p))
    else if 2 ^ 57 < va + hostSize a then .ok (s.emit (.abort p))
    else inCtx c va a
  | .mem c va a => inCtx c va a
  | .physical off a =>
    .ok (if s.pkg.auth != p then s.emit (.unsupported p)
      else s.physAccess p ((s.port p).physwin.toNat * 2 ^ 32 + off.toNat) a)
  | _ => .ok s

/-- An access of the host as it arrives: performed, or put behind those that wait. -/
def State.hostArrive (s : State) (p : Port) (op : HostOp) : State :=
  if (⟨p, op⟩ : HostWait).waits s.hostQ then s.hostWait p op
  else match s.memAccess p op with
    | .ok s => s
    | .error op => s.hostWait p op

end Sys2Proof.Machine
end

