-- ==== Sys2Proof/Machine/EvContext.lean ====
section
/-! DEFINITION. Events of contexts (R302 to R304, R308 to R310, R326): pre-emption, reset, destruction and enabling, the
deadline, and purges. -/

namespace Sys2Proof.Machine

/-! ### Purges (R326) -/

/-- The purge registers of a context, or of the window. -/
def State.purgeOf (s : State) (w : Option Nat) : Purge := match w with | some c => (s.ctx c).purge | none => s.pkg.wpurge
def State.updPurge (s : State) (w : Option Nat) (f : Purge → Purge) : State :=
  match w with
  | some c => s.updCtx c fun r => { r with purge := f r.purge }
  | none => { s with pkg := { s.pkg with wpurge := f s.pkg.wpurge } }

/-- The tag of the lines that a purge acts on (R311). -/
def purgeTag (w : Option Nat) : Nat := match w with | some c => c | none => 64

/-- Whether a byte key lies in a purge's range. -/
def Purge.hits (p : Purge) (tag key : Nat) : Bool := keyTag key == tag && p.covers (keyVa key)

/-- Whether a page of some bytes at a key meets a purge's range, be it the larger of the two. -/
def Purge.meets (p : Purge) (tag key size : Nat) : Bool :=
  keyTag key == tag && (p.covers (keyVa key) || p.job.any fun j => p.busy && decide (j.1 / size = keyVa key / size))

/-- The page of an entry of a redirect table. -/
def redirSize (e : Nat × Nat) : Nat := match e.2 / 4 with | 0 => 2 ^ 16 | 1 => 2 ^ 21 | _ => 2 ^ 31

/-- Whether a version holds writes in the range of a purge. -/
def Version.holdsIn (v : Version) (p : Purge) (tag : Nat) : Bool := v.bytes.any fun e => p.hits tag e.1

/-- Whether a task holds writes in the range of a purge. -/
def TeamRec.holdsIn (r : TeamRec) (p : Purge) (tag : Nat) : Bool := r.ver.holdsIn p tag || r.dev.any fun d => d.ver.holdsIn p tag

/-- The tasks that hold writes in the range of a purge develop by force (step 3 of R326), one whose team traps excepted, whose version
is discarded. -/
def State.forcePurged (s : State) (w : Option Nat) : State :=
  let p := s.purgeOf w
  ((s.teams.filter fun e => e.2.trap.isNone && e.2.dev.isNone && e.2.ver.holdsIn p (purgeTag w)).map (·.1)).foldl
    (fun (s : State) t => s.forceDevelop t) s

/-- GO: the job is latched, and the tasks that hold writes in the range begin to develop by force; an illegal GO sets ERR. -/
def State.goPurge (s : State) (w : Option Nat) : State :=
  let p := s.purgeOf w
  let n := p.msize.toNat
  if p.busy || decide (n < 16 ∨ 57 < n) then s.updPurge w fun p => { p with err := true }
  else
    (s.updPurge w fun p =>
      { p with busy := true, job := some (p.mva.toNat % 2 ^ 57, n, p.mpte.toNat, p.mval.toNat) }).forcePurged w

/-- What a purge held released (step 6 of R326): groups, engines and the host's accesses try again by themselves, counter adds are made
again. -/
def State.releaseHolds (s : State) (p : Purge) (tag : Nat) : State :=
  let held := s.holds.filter fun h => p.hits tag h.key
  let s := { s with holds := s.holds.filter fun h => !p.hits tag h.key }
  held.foldl (fun (s : State) h => s.releaseArrival h.req) s

/-- A pending record of a purged page retired as by RETRY; one that has not been written yet still will be. -/
def FaultRec.purged (f : FaultRec) (p : Purge) (tag : Nat) : Option FaultRec :=
  if f.status = 0 ∧ p.hits tag (f.page * 2 ^ 16) then
    (if f.written then none else some { f with reqs := [], page := 2 ^ 60 })
  else some f

/-- A range written back and removed, its entry rewritten, the held requests released (steps 2 to 6). -/
def State.finishPurge (s : State) (w : Option Nat) : State :=
  let p := s.purgeOf w
  let tag := purgeTag w
  match p.job with
  | none => s
  | some (_, _, mpte, mval) =>
    let hit := fun line => p.hits tag (line * 128)
    let s := s.settle
    let s := s.cores.foldl (fun (s : State) e => s.l1WriteBacks e.1 hit) s
    let s := (s.cores.keys.foldl (fun (s : State) c => s.l1Drop c hit) s.settle).purgeLines hit true
    let s := { s with dies := s.dies.mapv fun _ r =>
      { r with tlb := r.tlb.filter fun e => !p.meets tag e.1 e.2.size
               redir := r.redir.filter fun e => !p.meets tag (e.1 * redirSize e) (redirSize e) } }
    let at_ := physOf (BitVec.ofNat 64 mpte)
    let port := match w with | some c => (s.ctx c).owner | none => s.pkg.auth
    let s := if s.physUp at_ then s.physPut (portDie port) at_ (numBytes mval 8) else s
    let hit := s.faults.filter fun f => f.status = 0 ∧ p.hits tag (f.page * 2 ^ 16)
    let s := { s with faults := s.faults.filterMap fun (f : FaultRec) => f.purged p tag }
    let s := s.updPurge w fun p => { p with busy := false, job := none, done := p.done + 1 }
    (hit.foldl (fun (s : State) f => s.releaseArrivals f) s).releaseHolds p tag

/-- A write of GO by a port. -/
def State.purgeWrite (s : State) (p : Port) (w : Option Nat) : State :=
  s.guarded (match w with | some c => s.mayCtx p c | none => s.pkg.auth == p) (s.goPurge w)

def execPurgeGo (p : Port) (w : Option Ctx) (s : State) : Out :=
  .next (if s.live then s.posted p (.purge (w.map (·.val))) (s.purgeWrite p (w.map (·.val))) else s)

/-- Whether an ATOM's request to host memory in a purge's range is on its way, past its home slice (step 2 of R326). -/
def State.askedIn (s : State) (p : Purge) (tag : Nat) : Bool :=
  s.teams.any fun (e : Nat × TeamRec) => e.2.groups.any fun (k : Nat × Group) => k.2.atoms.any fun a =>
    a.asked.isSome && (a.lanes.head?.any fun l => p.hits tag (byteKey e.2.ctx l.2.1))

/-- PURGE_COMPLETE: once no request past its home is on its way (step 2) and no task holds a write in the range (step 3); one that has come
to hold one develops by force too. -/
def execPurgeComplete (w : Option Ctx) (s : State) : Out :=
  let w := w.map (·.val)
  let p := s.purgeOf w
  if !s.live || !p.busy then .next s
  else if s.askedIn p (purgeTag w) then .next s
  else if s.teams.any fun e => e.2.holdsIn p (purgeTag w) then .next (s.forcePurged w)
  else .next (s.finishPurge w)

/-! ### Reset (R188, R304, R325) -/

/-- The translation that a store at the head of a queue will need, walked for. -/
def State.warmStore (s : State) (t g : Nat) : State :=
  match s.team t, (s.group t g).bind fun k => k.storeQ.head? with
  | some r, some e =>
    let key := byteKey r.ctx e.va
    match s.cached key, s.walk (s.walkDie (dieOf r.core) key) key with
    | none, .leaf l => s.tlbPut (s.walkDie (dieOf r.core) key) key l
    | _, _ => s
  | _, _ => s

/-- The `.ls` stores of a group performed, at most `n`; a held write is discarded, and so is one that must wait. -/
def State.flushStores (t g : Nat) : Nat → State → State
  | 0, s => s
  | n + 1, s =>
    match s.team t, (s.group t g).bind fun k => k.storeQ.head? with
    | some r, some e =>
      let held := e.act == .store && r.d.latent && !e.esc
      State.flushStores t g n
        (if held then s.updGroup t g fun k => { k with storeQ := k.storeQ.tail } else (s.warmStore t g).drainStore t g)
    | _, _ => s

/-- A team of which loads, ATOMs and held writes are discarded (R304, R349). -/
def TeamRec.lost (r : TeamRec) : TeamRec :=
  { r with ver := .empty, dev := none, groups := r.groups.mapv fun _ (k : Group) => { k with loads := [], atoms := [] } }

/-- A team killed: the stores that it issued are performed, and the rest is discarded (assumption 35). -/
def State.killTeam (s : State) (t : Nat) : State :=
  match s.team t with
  | none => s
  | some r =>
    let s := s.updTeam t TeamRec.lost
    let s := r.groups.foldl (fun (s : State) (e : Nat × Group) => State.flushStores t e.1 e.2.storeQ.length s) s
    s.endTeam t ((s.team t).getD r)

/-- The teams of a context killed. -/
def State.killTeams (s : State) (p : TeamRec → Bool) : State :=
  ((s.teams.filter fun e => p e.2).map (·.1)).foldl (fun (s : State) t => s.killTeam t) s

/-- A decrement of a context that is reset (R294): to the oldest of its grids with the address whose count is above 0, to one whose
descriptor has not been checked, or kept as a credit where there is room (assumption 95). -/
def State.lastDec (s : State) (c addr : Nat) : State :=
  match s.decTarget c addr with
  | some (g, _) => s.updGrid g fun r => { r with preds := r.preds - 1 }
  | none =>
    if 1024 ≤ (s.ctx c).credits.length then s else s.updCtx c fun x => { x with credits := x.credits ++ [addr] }

/-- A context's grids that have not completed get records with RESET after step 2 of R17 (R304); those that have, and still owe
decrements, go on. The context's decrements on their way and those of the grids that end are made at once (assumption 95). -/
def State.resetGrids (s : State) (c : Nat) : State :=
  let ends := s.grids.filter fun (e : Nat × GridRec) => e.2.ctx == c && e.2.phase != .finished
  let owing := s.grids.filter fun (e : Nat × GridRec) =>
    e.2.ctx == c && (e.2.phase != .finished || s.decs.any fun d => d.src == e.1)
  let addrs := ((s.decs.filter fun d => d.ctx == c && d.grid.isNone).map (·.addr)) ++
    ends.flatMap fun (e : Nat × GridRec) => ((e.2.d.map Desc.succs).getD []).filter fun a => a != 0
  let s := addrs.foldl (fun (s : State) a => s.lastDec c a) { s with decs := s.decs.filter fun d => d.ctx != c }
  let s := { s with
    grids := s.grids.mapv fun _ r =>
      if r.ctx = c ∧ r.phase ≠ .finished then { r with phase := .finished, reset := true, retry := [], handlers := [] } else r }
  owing.foldl (fun (s : State) e => s.toRing e.1) s

/-- A context's pins dropped, with the recalls that this brings (R238). A degree that falls so counts in no DEGDN (assumption 62). -/
def State.dropPins (s : State) (c : Nat) : State :=
  (List.range 4).foldl (fun (s : State) d =>
    let mine := (s.die d).pins.filter fun (e : Nat × Nat) => e.1 / 2 ^ 36 == c
    mine.foldl (fun (s : State) (e : Nat × Nat) => (s.updDie d fun r => { r with pins := r.pins.del e.1 }).trimRegion d e.1) s) s

/-- What a team has issued goes on as far as it can, and then the develop that is in progress. -/
def State.hasten (s : State) (t : Nat) : State :=
  match s.team t with
  | none => s
  | some r =>
    let s := s.walks.foldl (fun (s : State) w => if w.ctx = r.ctx then s.walked w else s) s
    let s := r.groups.foldl (fun (s : State) (e : Nat × Group) =>
      let s := e.2.loads.foldl (fun (s : State) l => s.finishLoad t e.1 l.id) s
      let s := e.2.atoms.foldl (fun (s : State) a => s.atomPerform t e.1 a.id) s
      e.2.storeQ.foldl (fun (s : State) _ => s.drainStore t e.1) s) s
    s.develop t

/-- A purge made to end before a context is reset (R344): the develops that it forces are performed where they can be, or not at all
(R351). One of the window goes on where a task of another context still holds a write in its range (assumption 106). -/
def State.endPurge (s : State) (c : Nat) (w : Option Nat) : State :=
  if !(s.purgeOf w).busy then s
  else
    let s := s.forcePurged w
    let holding := fun (s : State) => s.teams.filter fun e => e.2.holdsIn (s.purgeOf w) (purgeTag w)
    let ts := (holding s).map (·.1)
    let s := (List.range 3).foldl (fun (s : State) _ => ts.foldl (fun (s : State) t => s.hasten t) s) s
    if (holding s).any fun e => e.2.ctx != c then s else s.finishPurge w

/-- Whether a requester acts for a context. -/
def Req.ofCtx (q : Req) (s : State) (c : Nat) : Bool :=
  (s.teams.any fun e => e.2.ctx == c && q.ofTeam s e.1) ||
  (match q with
   | .desc g | .trapDesc g _ => (s.grid g).any fun r => r.ctx == c
   | .cmd k => (s.queue k).active.any fun a => a.ctx == c
   | .arrival id => s.arrivals.any fun a => a.id == id && a.ctx == c
   | _ => false)

/-- The accesses of a context that wait, and its records, dropped (R325). What another context has attached to such a record is free
again: its requesters go on by themselves, and its counter adds are made again. -/
def State.dropWaits (s : State) (c : Nat) : State :=
  let gone := s.faults.filter fun f => f.ctx == c
  let s := { s with
    walks := s.walks.filter fun w => w.ctx != c
    holds := s.holds.filter fun h => h.ctx != c
    faults := (s.faults.filter fun f => f.ctx != c).map fun f => { f with reqs := f.reqs.filter fun e => !(e.1.ofCtx s c) }
    arrivals := s.arrivals.filter fun a => a.ctx != c }
  gone.foldl (fun (s : State) f => s.releaseArrivals f) s

/-- The ports that the grids of a context which have not completed wrote (R184). -/
def State.ctxPorts (s : State) (c : Nat) : List Port :=
  [Port.a, Port.b].filter fun p => s.grids.any fun (e : Nat × GridRec) => e.2.ctx == c && e.2.phase != .finished && e.2.ports.contains p

/-- A context reset (R304): a purge that runs, its own or the window's, completes its steps first (R344), and steps 1 and 2 of R17 come before
the grids' records. Credits for grids that it has not accepted stay (assumption 95). -/
def State.resetCtx (s : State) (c : Nat) : State :=
  let s := ((s.endPurge c (some c)).endPurge c none).dropWaits c
  let s := s.killTeams fun r => r.ctx == c
  let s := { s.dropWaits c with
    launchQ := s.launchQ.filter fun (e : Nat × List LaunchEnt) => e.1 / 4 != c
    issuing := none }
  let s := (s.releaseSys c (s.ctxPorts c)).resetGrids c
  let s := ((s.queues.filter fun (e : Nat × QueueRec) => (e.2.active.map (·.ctx)) == some c).map (·.1)).foldl
    (fun (s : State) q => s.switchOut q) s
  let s := s.dropPins c
  s.updCtx c fun r => { r with draining := false, halting := false, left := 0, stopped := true }

/-! ### The fields of CTXCTL (R302, R308, R310) -/

/-- PREEMPT: the drain starts, unless the context drains (R302, R308). -/
def State.startDrain (s : State) (c : Nat) : State :=
  s.updCtx c fun r =>
    if r.draining || !r.enable then r
    else { r with draining := true, left := min (max r.deadline.toNat 10) 4000000 * usTicks }

/-- RESUME: acceptance and dispatch go on after a drain or a reset. -/
def State.resumeCtx (s : State) (c : Nat) : State := s.updCtx c fun r => if r.draining then r else { r with stopped := false }

/-- A context destroyed (R310): it is reset, and its purge runs. -/
def State.destroyCtx (s : State) (c : Nat) : State :=
  if (s.ctx c).enable then (s.resetCtx c).updCtx c fun r => { r with enable := false, purging := true } else s

/-- ENABLE: a context that is not enabled and not purging starts afresh (R308, R310). -/
def State.enableCtx (s : State) (c : Nat) : State :=
  s.updCtx c fun r =>
    if r.enable || r.purging then r
    else { r with enable := true, draining := false, halting := false, stopped := false, left := 0, task := 1, credits := [] }

/-- Every trace of a context's tag removed; dirty bytes are discarded, and accesses that wait with their records (step 2 of R310). -/
def State.wipeCtx (s : State) (c : Nat) : State :=
  let hit := fun line => keyTag (line * 128) == c
  let s := (s.cores.keys.foldl (fun (s : State) k => s.l1Drop k hit) s).purgeLines hit false
  let s := s.dropWaits c
  { s with
           cores := s.cores.mapv fun _ (k : CoreRec) => { k with stored := k.stored.filter fun e => keyTag (e.1 * 16) != c }
           dies := s.dies.mapv fun _ r =>
      { r with tlb := r.tlb.filter fun e => keyTag e.1 != c
               redir := r.redir.filter fun e => keyTag (e.1 * redirSize e) != c
               pins := r.pins.filter fun (e : Nat × Nat) => e.1 / 2 ^ 36 != c
               shares := r.shares.filter fun (e : Nat × Share) => e.1 / 2 ^ 36 != c }
           recvs := s.recvs.filter fun r => r.ctx != c
           forwards := s.forwards.filter fun b => b.ctx != c }

/-- A write of a field of CTXCTL by a port (R309). -/
def State.ctxAct (s : State) (p : Port) (c : Nat) (act : CtxAct) : State :=
  s.guarded (s.mayCtx p c) (match act with
    | .preempt => s.startDrain c
    | .resume => s.resumeCtx c
    | .reset => s.resetCtx c
    | .destroy => s.destroyCtx c
    | .enable => s.enableCtx c)

/-- Such a write as it arrives. -/
def State.ctxEvent (s : State) (p : Port) (c : Nat) (act : CtxAct) : State :=
  if s.live then s.posted p (.ctx c act) (s.ctxAct p c act) else s

def execPreempt (p : Port) (c : Ctx) (s : State) : Out := .next (s.ctxEvent p c.val .preempt)
def execResume (p : Port) (c : Ctx) (s : State) : Out := .next (s.ctxEvent p c.val .resume)
def execContextReset (p : Port) (c : Ctx) (s : State) : Out := .next (s.ctxEvent p c.val .reset)
def execContextDestroy (p : Port) (c : Ctx) (s : State) : Out := .next (s.ctxEvent p c.val .destroy)
def execContextEnable (p : Port) (c : Ctx) (s : State) : Out := .next (s.ctxEvent p c.val .enable)

/-- CONTEXT_PURGE_COMPLETE (R310): the lines go, the job identifier stops matching, PURGING returns to 0. -/
def execContextPurgeComplete (c : Ctx) (s : State) : Out :=
  if !s.live || !(s.ctx c.val).purging then .next s
  else .next ((s.wipeCtx c.val).updCtx c.val fun r => { r with purging := false, jobid := r.jobid &&& 0x7FFFFFFF })

/-! ### The deadline (R303, R304) -/

/-- DEADLINE_EXPIRY: the context is reset, if a team remains. -/
def execDeadlineExpiry (c : Ctx) (s : State) : Out :=
  let r := s.ctx c.val
  if s.live && r.draining && r.left == 0 && s.teams.any fun e => e.2.ctx == c.val then .next (s.resetCtx c.val) else .next s

/-- DRAIN_END: no team of the context is resident; dispatch stays stopped. -/
def execDrainEnd (c : Ctx) (s : State) : Out :=
  let r := s.ctx c.val
  if s.live && r.draining && !(s.teams.any fun e => e.2.ctx == c.val) then
    .next (s.updCtx c.val fun r => { r with draining := false, halting := false, left := 0, stopped := true })
  else .next s

/-- FAULT_WAIT_PAUSE_END: waits older than 100 ms no longer pause the deadline. -/
def execFaultWaitPauseEnd (c : Ctx) (s : State) : Out :=
  .next { s with faults := s.faults.map fun f =>
    if f.ctx = c.val ∧ f.time + hundredMs ≤ s.time then { f with young := false } else f }

end Sys2Proof.Machine
end

