-- ==== Sys2Proof/Machine/EvLink.lean ====
section
/-! DEFINITION. Events of the die links and of on-die storage (R362 to R367), of the Ethernet ports (R339) and of the PCI Express
links (R335). -/

namespace Sys2Proof.Machine

/-! ### The ring (R14) -/

/-- The number of a link, as LINKLOST's DETAIL has it (R352). -/
def linkNum : Link → Nat
  | .l01 => 0 | .l13 => 1 | .l32 => 2 | .l20 => 3

/-- The dies that live links connect to one (R365). -/
def State.component (s : State) (d : Nat) : List Nat :=
  (List.range 4).filter fun x =>
    let p := ringPos d
    let k := (ringPos x + 4 - p) % 4
    ((List.range k).all fun i => s.linkUp (p + i)) || ((List.range (4 - k)).all fun i => s.linkUp (p + 7 - i)) || k == 0

/-- A set of dies as GROUP holds it. -/
def dieMask (l : List Nat) : BitVec 4 := l.foldl (fun m d => m ||| BitVec.ofNat 4 (2 ^ d)) 0

/-! ### Flits (R363) -/

/-- RCTL's vector of every die on every port that reaches it (R364). -/
def State.raiseRctl (s : State) (dies : List Nat) : State :=
  dies.foldl (fun (s : State) d =>
    [Port.a, Port.b].foldl (fun (s : State) p =>
      if s.portReach p d && (s.port p).up then s.emit (.msix p (s.die d).rctl.toNat) else s) s) s

/-! ### What a link takes with it (R188, R364) -/

/-- A message that was on the link: the chunks that it carries are poison where it arrives; a message without data goes the other
way. -/
def Msg.cut (m : Msg) : Msg := { m with poison := m.poison ||| m.valid }

/-- Whether a message carries written data. -/
def Msg.writes (m : Msg) : Bool := m.valid != 0 && (match m.kind with | .data => false | _ => true)

/-- The messages on link `l`: writes whose bytes went with them are lost. -/
def State.cutMsgs (s : State) (l : Nat) (on : Nat → Nat → Bool) : State :=
  let lost := s.net.filter fun m => on m.src m.dst && m.writes
  let s := { s with net := s.net.map fun m => if on m.src m.dst then m.cut else m }
  lost.foldl (fun (s : State) m => s.loseWrite m.src l m.writers) s

/-- The writes on their way to a home across link `l`. -/
def State.cutWrites (s : State) (l : Nat) (on : Nat → Nat → Bool) : State :=
  let lost := s.outw.filter fun o => on o.die (s.dir o.line o.leaf).home
  let s := { s with outw := s.outw.filter fun o => !on o.die (s.dir o.line o.leaf).home
                    net := s.net.filter fun m => !(m.kind.request && (match m.kind with | .getS => false | _ => true) && on m.src m.dst &&
                      lost.any fun o => o.line == m.line && o.die == m.src) }
  lost.foldl (fun (s : State) o => s.loseWrite o.die l o.writers) s

/-- The die where an address is reached: its home, or the die of its host page's port. -/
def State.homeOf (s : State) (key : Nat) : Nat :=
  ((s.cached key).map fun l => if l.host then portDie l.port else l.home (keyVa key)).getD (hashHome (keyVa key))

/-- The loads and ATOMs of a team that were on link `l`: a load returns poison, an ATOM is a lost write. -/
def State.cutTeam (s : State) (t l : Nat) (on : Nat → Nat → Bool) : State :=
  match s.team t with
  | none => s
  | some r =>
    let far := fun (s : State) va => on (dieOf r.core) (s.homeOf (byteKey r.ctx va))
    let s' := s.updTeam t fun r => { r with groups := r.groups.mapv fun _ k =>
      { k with loads := k.loads.map fun o =>
          { o with cut := (o.lanes.filter fun e => o.cut.contains e.1 ||
              (far s e.2 && (s.l1 r.core (byteKey r.ctx e.2 / 128)).isNone)).map (·.1) } } }
    r.groups.foldl (fun (s : State) (e : Nat × Group) =>
      (e.2.atoms.filter fun o => o.lanes.any fun l => far s l.2.1).foldl (fun (s : State) o =>
        (s.updGroup t e.1 fun k => { k with atoms := k.atoms.filter fun a => a.id != o.id }).loseWrite (dieOf r.core) l
          [⟨t, e.1, o.lpc, r.grid, o.id⟩]) s) s'

/-! ### Splits (R365, R366) -/

/-- Whether a group has a load or an ATOM on its way to one of the dies. -/
def State.asks (s : State) (ctx : Nat) (k : Group) (dies : List Nat) : Bool :=
  let at_ := fun va => dies.contains (s.homeOf (byteKey ctx va))
  (k.loads.any fun l => l.lanes.any fun e => at_ e.2) || k.atoms.any fun a => a.lanes.any fun e => at_ e.2.1

/-- Whether a context has a team, an active queue, a cached line or an outstanding request on one of the dies. -/
def State.touches (s : State) (c : Nat) (dies : List Nat) : Bool :=
  (s.teams.any fun e => e.2.ctx == c && dies.contains (dieOf e.2.core)) ||
  (s.queues.any fun (e : Nat × QueueRec) => e.2.active.any fun a => a.ctx == c && dies.contains a.cp) ||
  (s.copies.any fun e => keyTag (e.1 / 4 * 128) == c && dies.contains (e.1 % 4)) ||
  (s.cores.any fun e => dies.contains (dieOf e.1) && e.2.l1.any fun l => keyTag (l.1 * 128) == c) ||
  (s.outw.any fun o => keyTag (o.line * 128) == c && (dies.contains o.die || dies.contains (s.dir o.line o.leaf).home)) ||
  (s.net.any fun m => keyTag (m.line * 128) == c && (dies.contains m.src || dies.contains m.dst)) ||
  (s.teams.any fun e => e.2.ctx == c && e.2.groups.any fun (k : Nat × Group) => s.asks c k.2 dies) ||
  (s.faults.any fun f => f.ctx == c && f.status == 0 && dies.contains f.die) ||
  (s.walks.any fun w => keyTag w.key == c && dies.contains w.die)

/-- The copies of isolated dies forgotten by the homes that continue: the chunks that one of them held dirty are poison. -/
def State.forgetDies (s : State) (out : List Nat) : State :=
  s.dirs.foldl (fun (s : State) (e : Nat × DirEnt) =>
    if out.contains e.2.home then s
    else
      let gone := out.filter fun d => e.2.state d != .i
      if gone.isEmpty then s
      else
        let dirty := gone.foldl (fun (a : BitVec 8) d =>
          if e.2.state d == .m || e.2.state d == .o then a ||| ((s.copyAt e.1 d).elim 0 (·.valid)) else a) 0
        let leaf := ((List.range 4).findSome? fun d => (s.copyAt e.1 d).map (·.leaf)).getD ⟨0, 0, none⟩
        let s := gone.foldl (fun (s : State) d => s.setCopy e.1 d none) s
        let ent := gone.foldl (fun (n : DirEnt) d => n.setSt d .i) e.2
        if dirty = 0 then s.setDir e.1 ent
        else
          let c := (s.copyAt e.1 e.2.home).getD (Copy.none leaf)
          (s.putCopy e.1 e.2.home (c.merge c.data dirty dirty)).setDir e.1
            { (ent.setSt e.2.home (if ent.holders.isEmpty then .m else .o)) with dirty := ent.dirty ||| dirty }) s

/-- Whether a die's part of a continuing group that is cut goes on (R365): the larger part, or the half with the authority die; with
three or four links down only a pair that holds it. -/
def State.goesOn (s : State) (before : List Nat) (d : Nat) : Bool :=
  let part := (s.component d).filter before.contains
  let holds := part.contains (portDie s.pkg.auth)
  if 3 ≤ ((List.range 4).filter fun l => !s.linkUp l).length then part.length == 2 && holds
  else decide (before.length < 2 * part.length) || (before.length == 2 * part.length && holds)

/-- The groups that live links make now, in every die's DIESTAT (R367). -/
def State.regroup (s : State) : State :=
  { s with dies := (List.range 4).foldl (fun t d => Tab.set DieRec.reset t d { (s.die d) with grp := dieMask (s.component d) }) s.dies }

/-- The continuing dies, and those of them that are cut off now. -/
def State.going (s : State) : List Nat := (List.range 4).filter fun d => !s.isolated d
def State.cutOff (s : State) : List Nat := s.going.filter fun d => !s.goesOn s.going d

/-- The contexts that a split resets (R366): those that touch a die that is cut off, where some dies continue. -/
def State.spanning (s : State) : List Nat :=
  let out := s.cutOff
  if out.length = s.going.length then [] else (List.range 64).filter fun c => s.touches c out

/-- The dies regrouped after a link has gone down; `hit` are the contexts that touched a die that is cut off as the link went. Where none of
the continuing dies is cut off, they all go on. -/
def State.split (s : State) (hit : List Nat) : State :=
  let before := s.going
  let out := s.cutOff
  if before.all fun d => before.all fun x => (s.component d).contains x then s.regroup
  else
    let s := s.regroup
    let s := { s with dies := before.foldl (fun t d =>
      Tab.set DieRec.reset t d { (s.die d) with mode := if out.contains d then 2 else 1 }) s.dies }
    let other := otherPort s.pkg.auth
    let s := if out.contains (portDie s.pkg.auth) && !s.isolated (portDie other) then { s with pkg := { s.pkg with auth := other } } else s
    let s := ((s.teams.filter fun e => out.contains (dieOf e.2.core)).map fun e => (e.1, e.2)).foldl
      (fun (s : State) e => s.endTeam e.1 e.2) s
    let s := s.forgetDies out
    hit.foldl (fun (s : State) c => s.resetCtx c) s

/-- A link goes down (LINK_DOWN, R364): it stays down until device reset. -/
def State.linkFails (s : State) (l : Nat) : State :=
  if !s.linkUp l then s
  else
    let on := fun a b => (s.route a b).contains l
    let s := s.updLink l fun k => { k with state := 2, evA := true, evB := true, retry := 0 }
    let hit := s.spanning
    let s := (s.cutMsgs l on).cutWrites l on
    let s := s.teams.keys.foldl (fun (s : State) t => s.cutTeam t l on) s
    (s.settle.split hit).raiseRctl [0, 1, 2, 3]

def execLinkDown (l : Link) (s : State) : Out := .next (if s.live then s.linkFails (linkNum l) else s)

/-- FLIT_REPLAY (R363): a flit is sent again; the sixteenth failure in a row takes the link down. -/
def execFlitReplay (l : Link) (ok : Bool) (s : State) : Out :=
  let k := s.link (linkNum l)
  if !s.live || k.state == 2 then .next s
  else
    let n := k.retry + 1
    let s := s.updLink (linkNum l) fun k =>
      { k with replays := if k.replays = BitVec.allOnes 16 then k.replays else k.replays + 1
               peak := if k.peak.toNat < n then BitVec.ofNat 5 n else k.peak
               retry := if ok then 0 else n, state := if ok then 0 else 1 }
    .next (if ok ∨ n < 16 then s else s.linkFails (linkNum l))

/-! ### On-die storage (R362) -/

/-- An uncorrectable error counted on a die. -/
def State.countUe (s : State) (d : Nat) : State := s.updDie d fun r => { r with sramue := r.sramue + 1 }

/-- A bit of a mask set. -/
def setBit8 (m : BitVec 8) (i : Nat) : BitVec 8 := m ||| BitVec.ofNat 8 (2 ^ i)

/-- The die of a team. -/
def State.teamDie (s : State) (t : Nat) : Nat := ((s.team t).map fun r => dieOf r.core).getD 0

/-- Every enabled context reset: the tag of a dirty line names no bytes. Each of their grids has consumed poison. -/
def State.tagLost (s : State) : State :=
  let cs := (List.range 64).filter fun c => (s.ctx c).enable
  let s := { s with grids := s.grids.mapv fun _ g => if cs.contains g.ctx ∧ g.phase ≠ .recorded then { g with poison := true } else g }
  cs.foldl (fun (s : State) c => s.resetCtx c) s

/-- An uncorrectable error (R362). In the L1 the mark of a chunk with dirty bytes goes home with them. -/
def State.sramError (s : State) (site : SramSite) : State :=
  match site with
  | .laneReg t g lane n =>
    (s.updGroup t g fun k => k.updLane lane fun l => l.setReg n { (l.reg n) with poison := true }).countUe (s.teamDie t)
  | .gReg t g n => (s.updGroup t g fun k => k.setG n { (k.greg n) with poison := true }).countUe (s.teamDie t)
  | .bank core b cell _ =>
    (s.updCore core.val fun k => k.setCell b.val cell { (k.cell b.val cell) with poison := true }).countUe (dieOf core.val)
  | .l1 core line chunk =>
    (match s.l1 core.val line with
     | some l => s.setL1 core.val line (some { l with
         poison := setBit8 l.poison chunk.val
         marks := if (chunksOf l.dirty).getLsbD chunk.val then setBit8 l.marks chunk.val else l.marks })
     | none => s).countUe (dieOf core.val)
  | .slice d line chunk =>
    (match s.copyAt line d.val with
     | some c => s.setCopy line d.val (some { c with poison := setBit8 c.poison chunk.val })
     | none => s).countUe d.val
  | .storeQueue t g n =>
    (s.updGroup t g fun k => { k with storeQ := k.storeQ.modify n fun e => { e with marks := e.marks.map fun _ => true } }).countUe
      (s.teamDie t)
  | .copyBuffer t id =>
    let s := s.updTeam t fun r => { r with copies := r.copies.map fun c => if c.id = id then { c with bad := true } else c }
    let core := ((s.team t).map (·.core)).getD 0
    (s.updCore core fun k => { k with bulkQ := k.bulkQ.map fun b => if b.id = id then { b with bad := true } else b }).countUe (dieOf core)
  | .dirtyTag d => (s.countUe d.val).tagLost
  | .corrected d => s.updDie d.val fun r => { r with sramce := r.sramce + 1 }

def execSramUncorrectable (site : SramSite) (s : State) : Out := .next (if s.live then s.sramError site else s)

/-! ### Ports (R335, R339) -/

/-- ETHERNET_LINK_DOWN: copies go on over the other ports of their masks. -/
def execEthernetLinkDown (n : Fin 8) (s : State) : Out :=
  .next { s with pkg := { s.pkg with eth := s.pkg.eth &&& ~~~(BitVec.ofNat 8 (2 ^ n.val)) } }

/-- The ATOMs that wait for a completion over a port (R204). -/
def State.askedOver (s : State) (p : Port) : List (Nat × Nat × Nat × Nat) :=
  s.teams.flatMap fun (e : Nat × TeamRec) => e.2.groups.flatMap fun (k : Nat × Group) => k.2.atoms.filterMap fun o =>
    match o.lanes with
    | l :: _ =>
      let key := byteKey e.2.ctx l.2.1
      if o.asked.any fun f => f.host && f.port == p then some (e.1, k.1, o.id, key) else none
    | [] => none

/-- PCIE_LINK_DOWN: accesses behind the port are fatal from now on, those that wait on it among them (R322). -/
def execPcieLinkDown (p : Port) (s : State) : Out :=
  let asked := s.askedOver p
  .next (asked.foldl (fun (s : State) a =>
    match s.team a.1 with
    | some r => (s.notice (groupAcc r (.atom a.1 a.2.1 a.2.2.1) 0 3) a.2.2.2 2).failAccess (.atom a.1 a.2.1 a.2.2.1) a.2.2.2 tMEMFATAL 2
    | none => s) (s.updPort p fun r => { r with up := false }))

/-- PCIE_LINK_UP: what waited at event rings is written. -/
def execPcieLinkUp (p : Port) (s : State) : Out :=
  let s := s.updPort p fun r => { r with up := true }
  .next (if s.live then
    (List.range 4).foldl (fun (s : State) d => (List.range 16).foldl (fun (s : State) k => s.ringGo d k) s) s
  else s)

end Sys2Proof.Machine
end

