-- ==== Sys2Proof/Machine/EvThermal.lean ====
section
/-! DEFINITION. Events of operation at 77 K (R299, R371 to R381): sensors, bands and settings, the thermal state machine, HALT,
reset of the device, HOT and DROOP marks. Temperatures are in units of 0.125 K. -/

namespace Sys2Proof.Machine

/-! ### Device reset (R333, R335, R340, R372, R373) -/

/-- The device after a full reset: what lies outside it stays, with the straps and the sensors. -/
def State.deviceReset (s : State) : State :=
  let p := s.pkg
  { State.reset with
    agenda := s.agenda, nextId := s.nextId, freeCtr := s.freeCtr, host := s.host, hostPoison := s.hostPoison, out := s.out
    pkg := { Pkg.reset with
      idRev := p.idRev, straps := p.straps, auth := if p.straps.getLsbD 0 then .b else .a
      pa := { PortRec.reset with up := p.pa.up }, pb := { PortRec.reset with up := p.pb.up }
      eth := p.straps.extractLsb' 8 8 }
    thermal := { Thermal.reset with sensors := s.thermal.sensors } }

/-- Whether every sensor lies at or below 330 K. -/
def State.coolEnough (s : State) : Bool := s.thermal.sensors.all fun (e : Nat × BitVec 12) => decide (e.2.toNat ≤ 2640)

/-- A reset from the authority port (R335, R373): in TRIPPED it is held until the sensors are at or below 330 K. -/
def State.askReset (s : State) : State :=
  match s.thermal.state with
  | .off => s
  | .tripped => if s.coolEnough then s.deviceReset else { s with thermal := { s.thermal with heldReset := true } }
  | _ => s.deviceReset

/-! ### Bands (R371, R374, R375) -/

/-- The band of a temperature by the rising bounds. -/
def bandOf (t : Nat) : Band :=
  if t ≤ 720 then .cold else if t ≤ 1040 then .chill else if t ≤ 1600 then .transit else if t ≤ 2760 then .warm else .halt

/-- The upper bound of a band less 3 K. -/
def Band.fallBound : Band → Nat
  | .cold => 696 | .chill => 1016 | .transit => 1576 | _ => 2736

/-- SENSE at a new reading: it rises at once, and falls once the reading is 3 K below a bound. -/
def senseOf (old : Band) (t : Nat) : Band :=
  if old.code < (bandOf t).code then bandOf t
  else if (bandOf (t + 24)).code < old.code then bandOf (t + 24) else old

/-- An event of THEVT: its bit is set, and the vector raised on each enabled port (R381). -/
def State.thEvent (s : State) (bit : Nat) : State :=
  let s := { s with thermal := { s.thermal with evt := s.thermal.evt ||| BitVec.ofNat 5 (2 ^ bit) } }
  let v := s.thermal.thvec.toNat
  let s := if s.pkg.straps.getLsbD 1 then s.emit (.msix .a v) else s
  if s.pkg.straps.getLsbD 2 then s.emit (.msix .b v) else s

/-- A change of the settings (SETTINGS_CHANGE, R375, R377, R379): a warmer band starts a sweep on every stack, and grids that run
are marked. -/
def State.setBand (s : State) (b : Band) : State :=
  if b = s.thermal.band then s
  else
    let warmer := decide (s.thermal.band.code < b.code)
    let s := { s with
      thermal := { s.thermal with band := b }
      grids := if b = .cold then s.grids else s.grids.mapv fun _ g => if g.last.isSome then { g with band := true } else g }
    let s := if warmer then
        (List.range 8).foldl (fun (s : State) k => s.updStack k fun x => { x with sweep := some s.clock.ticks }) s
      else s
    s.thEvent 2

/-! ### Holds -/

/-- A hold that starts where a condition begins, and is cancelled where it ends. -/
def holdFor (ok : Bool) (now : Nat) (h : Option Nat) : Option Nat := if ok then some (h.getD now) else none

/-- The holds of the colder bands at a reading. -/
def bandHolds (t now : Nat) (hs : List (Nat × Band)) : List (Nat × Band) :=
  [Band.chill, Band.transit].filterMap fun b =>
    if t ≤ b.fallBound then some (((hs.find? fun e => e.2 = b).map (·.1)).getD now, b) else none

/-- Whether a hold has lasted for some seconds. -/
def State.held (s : State) (h : Option Nat) (seconds : Nat) : Bool :=
  h.any fun t => decide (t + seconds * 198000000000 ≤ s.clock.ticks)

/-! ### Marks of cores (R299) -/

/-- A core's HOT mark at its sensor's reading. -/
def hotMark (plctl : BitVec 32) (bath t : Nat) (hot : Bool) : Bool :=
  let thot := plctl.toNat / 2 ^ 24 % 256
  let hyst := min (plctl.toNat / 2 ^ 16 % 256) thot
  if hot then decide (8 * (thot - hyst) + bath ≤ t) else decide (8 * thot + bath < t)

/-- The HOT marks of the cores whose sensors were sampled: sensor `die * 44 + i` is that of core `i` of a die. A write of PLCTL or TBATH
changes a mark only here, at the core's next sample (assumption 102). -/
def State.markHot (s : State) (l : List (Nat × BitVec 12)) : State :=
  l.foldl (fun (s : State) e =>
    let d := e.1 / 44
    if d < 4 ∧ e.1 % 44 < 40 then
      s.updCore (d * 40 + e.1 % 44) fun k =>
        { k with hot := hotMark (s.die d).plctl s.thermal.tbath.toNat e.2.toNat k.hot }
    else s) s

/-- DROOP_EVENT: the mark is set by DROOPN events within 1 ms. -/
def execDroopEvent (core : Fin 160) (s : State) : Out :=
  let n := (s.die (dieOf core.val)).plctl.toNat / 2 ^ 8 % 256
  let now := s.clock.ticks
  .next (if s.live then s.updCore core.val fun k =>
      let recent := (k.droops.filter fun t => decide (now < t + 198000000)) ++ [now]
      { k with droops := recent, droop := if n ≠ 0 ∧ n ≤ recent.length then some now else k.droop }
    else s)

/-- DROOP_MARK_EXPIRY: the mark lasts 10 ms. -/
def execDroopMarkExpiry (core : Fin 160) (s : State) : Out :=
  .next (if s.live && ((s.core core.val).droop.any fun t => decide (t + 1980000000 ≤ s.clock.ticks)) then
    s.updCore core.val fun k => { k with droop := none } else s)

/-! ### HALT and TRIPPED (R378) -/

/-- The clocks stop and THTRIP# is asserted. -/
def State.trip (s : State) : State :=
  { s with thermal := { s.thermal with state := .tripped, thtrip := true, haltAt := none } }.emit .thtrip

/-- HALT begins (steps 1 and 2): WARM settings, and a drain of every enabled context with its deadline cut to 1 ms. -/
def State.startHalt (s : State) : State :=
  let s := { s with thermal := { s.thermal with haltAt := some s.clock.ticks } }
  let s := (s.setBand .warm).thEvent 4
  (List.range 64).foldl (fun (s : State) c =>
    if (s.ctx c).enable then
      (s.startDrain c).updCtx c fun r => { r with halting := true, left := min r.left (1000 * usTicks) }
    else s) s

/-- The completion records that can be written, one after another, at most `n`. -/
def State.writeRecords : Nat → State → State
  | 0, s => s
  | n + 1, s =>
    match s.grids.find? fun (e : Nat × GridRec) =>
        ((s.ring e.2.cp e.2.ring).waiting.head? == some (4096, e.1)) && s.ringOpen e.2.cp e.2.ring with
    | some (g, _) =>
      match execCompletionRecord g s with
      | .next s => State.writeRecords n s
      | _ => s
    | none => s

/-- HALT_DRAIN_EXPIRY: every deadline has run out, or no context drains any more. Each context that still has a team is reset, one that does
not drain among them. -/
def execHaltDrainExpiry (s : State) : Out :=
  if !s.live || s.thermal.haltAt.isNone || (List.range 64).any fun c => (s.ctx c).draining && decide (0 < (s.ctx c).left) then .next s
  else
    let resident := (List.range 64).filter fun c => s.teams.any fun e => e.2.ctx == c
    let s := resident.foldl (fun (s : State) c => s.resetCtx c) s
    .next (State.writeRecords s.grids.length s).trip

/-! ### Samples (R371, R373, R374) -/

/-- The sensors after a sample, and the hottest of each die. -/
def State.takeSample (s : State) (l : List (Nat × BitVec 12)) : State :=
  let sensors := l.foldl (fun (t : Tab (BitVec 12)) e => if e.1 < 176 then t.ins e.1 e.2 else t) s.thermal.sensors
  let hottest := fun d => sensors.foldl (fun (m : Nat) (e : Nat × BitVec 12) => if e.1 / 44 = d then max m e.2.toNat else m) 0
  { s with thermal := { s.thermal with
      sensors := sensors
      temps := (List.range 4).foldl (fun (t : Tab (BitVec 12)) d => Tab.set 0 t d (BitVec.ofNat 12 (hottest d))) s.thermal.temps } }

/-- The hottest sensor of the dies that count: those of the group that continues after a split, and all four where none does. -/
def State.hottest (s : State) : Nat :=
  let none_ := (List.range 4).all fun d => s.isolated d
  (List.range 4).foldl (fun m d => if s.isolated d && !none_ then m else max m (Tab.get 0 s.thermal.temps d).toNat) 0

/-- The settings of a band: HALT has none of its own, and WARM settings are taken (R378). -/
def Band.settings (b : Band) : Band := match b with | .halt => .warm | b => b

/-- The state machine at a reading: COLD is left at once, and warmer settings are taken at once. -/
def State.follow (s : State) (t : Nat) : State :=
  let b := (bandOf t).settings
  match s.thermal.state with
  | .coldIdle | .run =>
    if b = .cold then s
    else ({ s with thermal := { s.thermal with state := .safelight } }.setBand b).thEvent 0
  | .cooling | .safelight => if s.thermal.band.code < b.code then s.setBand b else s
  | _ => s

/-- SENSOR_SAMPLE. Above 345 K the state machine follows first, then the sequence of R378 begins; above 360 K only its first and last
steps are done. -/
def execSensorSample (temps : List (Nat × BitVec 12)) (s : State) : Out :=
  match s.thermal.state with
  | .off => .next s
  | .tripped => .next (s.takeSample temps)
  | _ =>
    let s := (s.takeSample temps).markHot temps
    let t := s.hottest
    let now := s.clock.ticks
    let th := s.thermal
    let s := { s with thermal := { th with
      sense := senseOf th.sense t, bandHold := bandHolds t now th.bandHold
      coldHold := holdFor (decide (t ≤ 696)) now th.coldHold, warmHold := holdFor (decide (1600 ≤ t)) now th.warmHold } }
    if 2880 < t then .next (s.setBand .warm).trip
    else if 2760 < t then .next (if th.haltAt.isNone then (s.follow t).startHalt else s)
    else .next (s.follow t)

/-- BAND_HOLD_EXPIRY: the coldest band that has been held for 1 s, but not COLD. -/
def execBandHoldExpiry (s : State) : Out :=
  match s.thermal.state with
  | .cooling | .safelight =>
    match s.thermal.bandHold.find? fun h => s.held (some h.1) 1 with
    | some h => .next (if h.2.code < s.thermal.band.code then s.setBand h.2 else s)
    | none => .next s
  | _ => .next s

/-- The state with teams resident, and the one without. -/
def State.coldState (s : State) : ThState := if s.teams.isEmpty then .coldIdle else .run

/-- COLD_HOLD_EXPIRY: the sensors have held COLD for 10 s. -/
def execColdHoldExpiry (s : State) : Out :=
  let enter := fun (s : State) =>
    { s with thermal := { s.thermal with state := s.coldState, idleSince := holdFor s.teams.isEmpty s.clock.ticks none } }.setBand .cold
  if !s.held s.thermal.coldHold 10 then .next s
  else match s.thermal.state with
    | .cooling => .next (enter s)
    | .safelight => .next ((enter s).thEvent 1)
    | _ => .next s

/-- RUN_IDLE_EXPIRY: no team resident for 1 s. -/
def execRunIdleExpiry (s : State) : Out :=
  .next (if s.thermal.state = .run ∧ s.teams.isEmpty ∧ s.held s.thermal.idleSince 1 then
    { s with thermal := { s.thermal with state := .coldIdle } } else s)

/-- WARMING_HOLD_EXPIRY: the sensors at or above 200 K for 10 s. -/
def execWarmingHoldExpiry (s : State) : Out :=
  .next (if s.thermal.state = .warming ∧ s.held s.thermal.warmHold 10 then
    { s with thermal := { s.thermal with state := .warmIdle } } else s)

/-! ### Commands and power (R373, R381) -/

/-- COOL: refused in WARM-IDLE without COLDEN or without firmware. -/
def State.cool (s : State) : State :=
  match s.thermal.state with
  | .warmIdle =>
    if s.pkg.straps.getLsbD 24 && s.fwRuns then { s with thermal := { s.thermal with state := .cooling } }
    else { s with thermal := { s.thermal with err := true } }
  | .warming => { s with thermal := { s.thermal with state := .cooling } }
  | _ => s

/-- WARM: WARM settings are taken. -/
def State.warm (s : State) : State :=
  match s.thermal.state with
  | .cooling | .coldIdle | .run | .safelight => { s with thermal := { s.thermal with state := .warming } }.setBand .warm
  | _ => s

/-- The two commands written by a port. -/
def State.coolWrite (s : State) (p : Port) : State := s.guarded (s.pkg.auth == p) s.cool
def State.warmWrite (s : State) (p : Port) : State := s.guarded (s.pkg.auth == p) s.warm

def execCool (p : Port) (s : State) : Out := .next (if s.live then s.posted p .cool (s.coolWrite p) else s)
def execWarm (p : Port) (s : State) : Out := .next (if s.live then s.posted p .warm (s.warmWrite p) else s)

/-- POWER_ON: reset released with power good. -/
def execPowerOn (s : State) : Out := .next (if s.thermal.state = .off then s.deviceReset else s)

/-- TRIP_RESET_RELEASE: a held reset takes effect once every sensor is at or below 330 K. -/
def execTripResetRelease (s : State) : Out :=
  .next (if s.thermal.state = .tripped ∧ s.thermal.heldReset ∧ s.coolEnough then s.deviceReset else s)

/-- CORE_POWER_REMOVAL: the integrator removes core power while THTRIP# is asserted (R378). -/
def execCorePowerRemoval (s : State) : Out :=
  .next (if s.thermal.state = .tripped then
    { s.deviceReset with thermal := { Thermal.reset with state := .off, sensors := s.thermal.sensors } } else s)

end Sys2Proof.Machine
end

