-- ==== Sys2Proof/Machine/EvDram.lean ====
section
/-! DEFINITION. Events of the memory controllers and of the Enlarger (R236 to R241, R360, R376): requests with the errors that
they find, the scrub, changes of the DRAM hash, and epochs. -/

namespace Sys2Proof.Machine

/-! ### The two codes (R360) -/

/-- The wrong bits of a byte of the codeword. -/
def errByte (es : List LineErr) (i : Nat) : Byte := es.foldl (fun b e => if e.pos.val = i then b ^^^ e.bits else b) 0

/-- The CRC-16 of bytes: generator 0x8BB7, initial value 0, no reflection. Over the wrong bits alone it is 0 exactly where the
check of the chunk passes. -/
def crc16 (bs : List Byte) : BitVec 16 :=
  bs.foldl (fun (c : BitVec 16) b =>
    (List.range 8).foldl (fun (c : BitVec 16) _ =>
      if c.getLsbD 15 then (c <<< 1) ^^^ 0x8BB7 else c <<< 1) (c ^^^ (BitVec.setWidth 16 b <<< (8 : Nat)))) (0 : BitVec 16)

/-- The wrong bits of a chunk of the line. -/
def errChunk (es : List LineErr) (c : Nat) : List Byte := (List.range 16).map fun i => errByte es (16 * c + i)

/-- How many bytes of the codeword are wrong. -/
def errCount (es : List LineErr) : Nat := ((List.range 136).filter fun i => errByte es i != 0).length

/-- The local lines of a stack: half of the die's (R241). -/
def stackLines : Nat := dieBytes / 2 / 128

/-- Bytes as they are read with wrong bits. -/
def State.flip (s : State) (addr : Nat) (wrong : List Byte) : State :=
  { s with dram := (wrong.zip (List.range wrong.length)).foldl (fun m e =>
      if e.1 = 0 then m else m.store (addr + e.2) (m.byte (addr + e.2) ^^^ e.1)) s.dram }

/-- Chunks of a line read with errors: passed as read, corrected, or marked. -/
def State.readLine (s : State) (die addr : Nat) (chunks : List Nat) (es : List LineErr) : State :=
  let failed := chunks.filter fun c => crc16 (errChunk es c) != 0
  let asRead := fun (s : State) => chunks.foldl (fun (s : State) c =>
    if failed.contains c then s else s.flip (addr + 16 * c) (errChunk es c)) s
  if failed.isEmpty then asRead s
  else if errCount es ≤ 4 then
    (s.updDie die fun r => { r with cecnt := r.cecnt + 1 }).raiseRctl [die]
  else
    let s := asRead s
    let s := { s with dramPoison := failed.foldl (fun t c => Tab.set false t (addr / 16 + c) true) s.dramPoison }
    (s.updDie die fun r => { r with uecnt := r.uecnt + 1 }).raiseRctl [die]

/-- The device address of a line of a stack's die. -/
def lineAddr (k line : Nat) : Nat := k / 2 * 2 ^ 37 + line * 128

/-- The first local line of a stack on its die. -/
def stackBase (k : Nat) : Nat := k % 2 * stackLines

/-- The read of one line of a stack, whole and for no requester (R360, R376, R377). -/
def State.restore (s : State) (k line : Nat) (es : List LineErr) : State :=
  s.readLine (k / 2) (lineAddr k (stackBase k + line)) (List.range 8) es

/-- DRAM_ACCESS (R240, R242): the request counts once by its grain. The read of a sweep in progress is no request and counts in no
grain (R377). -/
def execDramAccess (k : Fin 8) (a : DramReq) (s : State) : Out :=
  let addr := lineAddr k.val a.line
  if a.sweep then
    .next (if s.live && (s.stack k.val).sweep.isSome && decide (a.line < stackLines) then s.restore k.val a.line a.errs else s)
  else if !s.live || decide (dieBytes ≤ a.line * 128) || stackOf addr != k.val then .next s
  else
    let w := 2 ^ a.grain.val
    let chunks := (List.range w).map fun i => (a.lo.val / w * w + i) % 8
    .next ((s.dramCount (k.val / 2) k.val a.grain.val a.conflict a.crowded).readLine (k.val / 2) addr chunks a.errs)

/-- SCRUB_READ (R376): the next line of the pass, read whole. -/
def execScrubRead (k : Fin 8) (e : List LineErr) (s : State) : Out :=
  if !s.live then .next s
  else
    let n := (s.stack k.val).scrub
    .next ((s.restore k.val n e).updStack k.val fun x =>
      { x with scrub := (n + 1) % stackLines })

/-- SWEEP_COMPLETE (R377): the sweep has read every row of the stack; a line that it read with errors was corrected or marked at
its DRAM_ACCESS. -/
def execSweepComplete (k : Fin 8) (s : State) : Out :=
  if !s.live || (s.stack k.val).sweep.isNone then .next s
  else .next ((s.updStack k.val fun x => { x with sweep := none }).thEvent 3)

/-! ### The DRAM hash (R241) -/

/-- An hour in ticks. -/
def hourTicks : Nat := 3600 * 198000000000

/-- DRAM_HASH_CHANGE: after four crowded windows, unless DHOFF is set or the last change is younger than an hour. -/
def execDramHashChange (k : Fin 8) (s : State) : Out :=
  let x := s.stack k.val
  let d := k.val / 2
  if !s.live || decide (x.hotWindows < 4) || (s.die d).enlctl.getLsbD 3 || x.migrating.isSome ||
      x.changed.any fun t => decide (s.clock.ticks < t + hourTicks) then .next s
  else
    .next ((s.updStack k.val fun x =>
      { x with ver := x.ver + 1, migrating := some 0, moved := 0, hotWindows := 0, changed := some s.clock.ticks }).updDie d
        fun r => { r with cnt := Tab.set 0 r.cnt 15 0 })

/-- MIGRATION_ROW_MOVE: the row at the boundary, of some lines, moves, in COLD and CHILL alone. The errors stand in its first
line. -/
def execMigrationRowMove (k : Fin 8) (lines : Nat) (e : List LineErr) (s : State) : Out :=
  let d := k.val / 2
  match (s.stack k.val).migrating, s.thermal.band with
  | some b, .cold | some b, .chill =>
    if !s.live then .next s
    else
      let n := min lines (stackLines - b)
      let s := s.restore k.val b e
      .next ((s.updStack k.val fun x =>
        { x with moved := x.moved + n, migrating := if b + n < stackLines then some (b + n) else none }).count d 15 (128 * n))
  | _, _ => .next s

/-! ### The Enlarger (R236, R237, R239) -/

/-- A share after an epoch, with its change of degree; a held one keeps its degree (R237). -/
def Share.epoch (x : Share) (ctl : BitVec 32) (hold : Bool) : Share :=
  let f := fun lo n => ctl.toNat / 2 ^ lo % 2 ^ n
  let tup := 8 * max (f 16 8) 1
  let tw := 4 * max (f 8 8) 1
  let dn := max (f 4 4) 1
  let old := !hold && decide (2 ≤ x.since)
  let y :=
    if tw ≤ x.w then
      let y := { x with cup := 0, ccold := 0 }
      if old && decide (0 < x.d) then { y with d := x.d - 1, since := 0 } else y
    else if tup ≤ x.r ∧ 16 * x.w ≤ x.r then
      let y := { x with ccold := 0, cup := min (x.cup + 1) 15 }
      if old && decide (2 ≤ y.cup) && decide (x.d < 3) then { y with d := x.d + 1, cup := 0, since := 0 } else y
    else if 8 * x.r < tup then
      let y := { x with cup := 0, ccold := min (x.ccold + 1) 15 }
      if old && decide (dn ≤ y.ccold) && decide (0 < x.d) then { y with d := x.d - 1, ccold := 0, since := 0 } else y
    else { x with cup := 0, ccold := 0 }
  { y with since := min (y.since + 1) 15, r := 0, w := 0 }

/-- Whether a share is held: FREEZE, a pin, or the attribute of a page of its region (R237, R238; assumption 89). -/
def State.shareHeld (s : State) (d region : Nat) : Bool :=
  (s.die d).enlctl.getLsbD 2 || ((s.die d).pins.find region).isSome || s.attributed region

/-- The settings written since the last boundary taken (R239). Where DEFDEG falls, the lines of untracked shares lose their excess
holders (R238). -/
def State.takeEnlctl (s : State) (d : Nat) : State :=
  let r := s.die d
  let s := s.updDie d fun r => { r with epoch := s.clock.cycle, enlctl := r.enlnext }
  if r.enlnext.toNat / 2 ^ 28 % 4 < r.enlctl.toNat / 2 ^ 28 % 4 then
    s.dirs.foldl (fun (s : State) (e : Nat × DirEnt) =>
      if e.2.home = d then
        match (List.range 4).findSome? fun x => (s.copyAt e.1 x).map (·.leaf) with
        | some l => s.trim e.1 l
        | none => s
      else s) s
  else s

/-- The length of an epoch in cycles. -/
def epochCycles (ctl : BitVec 32) : Nat := 2 ^ (12 + min (ctl.toNat / 2 ^ 24 % 16) 8)

/-- ENLARGER_EPOCH: every tracked share of a die, then the settings written since the last boundary (R239). -/
def execEnlargerEpoch (d : Die) (s : State) : Out :=
  let r := s.die d.val
  if !s.live || decide (s.clock.cycle < r.epoch + epochCycles r.enlctl) then .next s
  else
    let s' := r.shares.foldl (fun (s : State) (e : Nat × Share) =>
      let n := e.2.epoch r.enlctl (s.shareHeld d.val e.1)
      let s := s.updDie d.val fun r => { r with shares := r.shares.ins e.1 n }
      if n.d < e.2.d then (s.count d.val 7 1).trimRegion d.val e.1
      else if e.2.d < n.d then s.count d.val 6 1 else s) s
    .next (s'.takeEnlctl d.val)

end Sys2Proof.Machine
end

