-- ==== Sys2Proof/Machine/EvCore.lean ====
section
/-! DEFINITION. Events of groups, of the shared cache and of the engines on a core: stores, loads, ATOMs, fences, transactions,
develops, the protocol's messages, copies, tile steps, WAITL passes and YIELD holds. -/

namespace Sys2Proof.Machine

/-- An event of the clocked device: nothing happens where the clocks stand (R372). -/
def clocked (f : State → State) (s : State) : Out := .next (if s.live then f s else s)

/-! ### Accesses of groups -/

/-- STORE_DRAIN (R172, R347). -/
def execStoreDrain (t g : Nat) (s : State) : Out := clocked (fun s => s.drainStore t g) s

/-- LOAD_COMPLETE (R196). -/
def execLoadComplete (t g id : Nat) (s : State) : Out := clocked (fun s => s.finishLoad t g id) s

/-- ATOM_PERFORM (R199 to R203). -/
def execAtomPerform (t g id : Nat) (s : State) : Out := clocked (fun s => s.atomPerform t g id) s

/-- ATOMICOP_COMPLETION (R204): over a port whose link is down no completion arrives. -/
def execAtomicopCompletion (t g id : Nat) (ur : Bool) (s : State) : Out := clocked (fun s => s.atomReturn t g id ur) s

/-- FENCE_COMPLETE (R175). -/
def execFenceComplete (t g : Nat) (s : State) : Out := clocked (fun s => s.fenceDone t g) s

/-- TX_OPEN (R207). -/
def execTxOpen (t g : Nat) (s : State) : Out := clocked (fun s => s.openTx t g) s

/-- TX_CONFLICT_ABORT (R213). -/
def execTxConflictAbort (t g lane : Nat) (s : State) : Out := clocked (fun s => s.txConflict t g lane) s

/-- DEVELOP_PERFORM (R185, R346). -/
def execDevelopPerform (t : Nat) (s : State) : Out := clocked (fun s => s.develop t) s

/-! ### The protocol (R232) -/

/-- A message of the kinds that a test admits handled, where it can be. -/
def State.message (s : State) (n : Nat) (ok : MsgKind → Bool) : State :=
  match s.net.find? fun m => m.id == n with
  | some m => if ok m.kind && s.msgReady m then s.deliver m else s
  | none => s

def execGetS (m : Nat) (s : State) : Out := clocked (fun s => s.message m fun k => k == .getS) s
def execGetM (m : Nat) (s : State) : Out := clocked (fun s => s.message m fun k => k == .getM) s
def execUpgrade (m : Nat) (s : State) : Out := clocked (fun s => s.message m fun k => k == .upgrade) s
/-- PUTM: PutM and PutO bring dirty data home. -/
def execPutM (m : Nat) (s : State) : Out := clocked (fun s => s.message m fun k => k == .putM || k == .putO) s
/-- PUTS: PutE and PutS report a clean eviction. -/
def execPutS (m : Nat) (s : State) : Out := clocked (fun s => s.message m fun k => k == .putE || k == .putS) s
def execForwardedWrite (m : Nat) (s : State) : Out := clocked (fun s => s.message m fun k => k == .fwdWrite) s
def execInv (m : Nat) (s : State) : Out := clocked (fun s => s.message m fun k => k == .inv) s
def execAck (m : Nat) (s : State) : Out := clocked (fun s => s.message m fun k => k == .ack) s
def execFwd (m : Nat) (s : State) : Out := clocked (fun s => s.message m fun k => k == .fwd) s
def execData (m : Nat) (s : State) : Out := clocked (fun s => s.message m fun k => k == .data) s

/-! ### Copies and barriers -/

/-- COPY_CHUNK (R216, R217). -/
def execCopyChunk (t id lane : Nat) (s : State) : Out := clocked (fun s => s.copyLane t id lane) s

/-- BULK_CHUNK (R219, R220). -/
def execBulkChunk (core : Fin 160) (id chunk : Nat) (s : State) : Out := clocked (fun s => s.bulkStep core.val id chunk) s

/-- BULK_QUEUE_ACCEPT (R219). -/
def execBulkQueueAccept (t g : Nat) (s : State) : Out := clocked (fun s => s.bulkRoom t g) s

/-- BARRIER_ARRIVAL_APPLY (R275). -/
def execBarrierArrivalApply (t g : Nat) (s : State) : Out := clocked (fun s => s.applyArrival t g) s

/-! ### The tile unit -/

/-- TILE_QUEUE_ACCEPT (R133). -/
def execTileQueueAccept (t g : Nat) (s : State) : Out := clocked (fun s => s.tileRoom t g) s

/-- TLOOP_STEP (R134, R138, R145). -/
def execTloopStep (core : Fin 160) (id : Nat) (s : State) : Out := clocked (fun s => s.loopStep core.val id) s

/-- THAD_ROW (R147). -/
def execThadRow (core : Fin 160) (id : Nat) (s : State) : Out := clocked (fun s => s.hadRow core.val id) s

/-- TQNT_ROW (R149, R150). -/
def execTqntRow (core : Fin 160) (id : Nat) (s : State) : Out := clocked (fun s => s.qntRow core.val id) s

/-! ### Passes and holds (R251, R269) -/

/-- A lane whose pass has run for its 64 issues is passed over no longer. -/
def Lane.passEnd (l : Lane) : Lane := if l.pass = some 0 then { l with pass := Option.none } else l

/-- WAITL_PASS_END (R251). -/
def execWaitlPassEnd (t g lane : Nat) (s : State) : Out :=
  clocked (fun s => s.updGroup t g fun k => k.updLane lane Lane.passEnd) s

/-- Whether a YIELD hold is over (R269): 16 cycles have passed, or one has and every group that was ready at its issue has issued
or is ready no longer. -/
def State.yieldOver (s : State) (y : Nat × List (Nat × Nat)) : Bool :=
  decide (y.1 + 16 ≤ s.clock.cycle) || (decide (y.1 + 1 ≤ s.clock.cycle) && y.2.all fun e => !s.ready e.1 e.2)

/-- YIELD_HOLD_END (R269). -/
def execYieldHoldEnd (t g : Nat) (s : State) : Out :=
  clocked (fun s =>
    match (s.group t g).bind Group.yield with
    | some y => if s.yieldOver y then s.updGroup t g fun k => { k with yield := none } else s
    | none => s) s

end Sys2Proof.Machine
end

