-- ==== Sys2Proof/Machine/EvFabric.lean ====
section
/-! DEFINITION. Events of the fabric (R191, R220 to R223, R336 to R339): arrivals at this device, and what comes back to the copies
that it sends. -/

namespace Sys2Proof.Machine

/-- REMOTE_WRITE_ARRIVAL: over a port whose link is up. An operation that the endpoint does not take arrives here too, and is refused
(R336). -/
def execRemoteWriteArrival (pkt : Packet) (s : State) : Out :=
  clocked (fun s => if s.pkg.eth.getLsbD pkt.port.val && pkt.op != .read then s.writeArrives pkt else s) s

/-- REMOTE_READ_ARRIVAL. -/
def execRemoteReadArrival (pkt : Packet) (s : State) : Out :=
  clocked (fun s => if s.pkg.eth.getLsbD pkt.port.val && pkt.op == .read then s.readArrives pkt else s) s

/-! ### Back at the sender -/

/-- A remote copy of a team, with its core. -/
def State.remoteOp (s : State) (id : Nat) : Option (Nat × BulkOp) :=
  s.cores.findSome? fun (e : Nat × CoreRec) => (e.2.bulkQ.find? fun b => b.id == id && b.remote).map fun b => (e.1, b)

/-- A forward. -/
def State.forwardOp (s : State) (id : Nat) : Option BulkOp := s.forwards.find? fun b => b.id == id

/-- A chunk that is acknowledged lowers the barrier by 16 (R220). With SIG the last decrement waits for the counter's
acknowledgement, which stands for the chunk past the last (R221). -/
def State.ackTeam (s : State) (core : Nat) (b : BulkOp) (chunk : Nat) : State :=
  let n := b.len / 16
  let land := fun (s : State) => s.barEvent b.team b.grp b.bar b.lpc (.land 16)
  let upd := fun (s : State) f => s.updBulk core b.id fun b => { (f b) with seen := s.time }
  if chunk = n then
    if b.sent.contains n then land (upd s fun b => { b with sent := [] })
    else if b.sig then upd s fun b => { b with sig := false }
    else s
  else if !b.sent.contains chunk then s
  else
    let rest := b.sent.filter fun c => c != chunk
    if b.sig && b.todo.isEmpty && rest.isEmpty then upd s fun b => { b with sent := [n] }
    else land (upd s fun b => { b with sent := rest })

/-- REMOTE_WRITE_ACK. A forwarding device consumes the acknowledgements of its forwards (R222). -/
def execRemoteWriteAck (id chunk : Nat) (s : State) : Out :=
  clocked (fun s =>
    match s.remoteOp id with
    | some (core, b) => if b.dir then s else s.ackTeam core b chunk
    | none =>
      match s.forwardOp id with
      | some _ => s.updForward id fun b => { b with sent := b.sent.filter fun c => c != chunk, seen := s.time }
      | none => s) s

/-- Whether a returned chunk of a pull may be written: with ORD no lower chunk is still to be (R220). -/
def BulkOp.inTurn (b : BulkOp) (chunk : Nat) : Bool :=
  !b.ord || ((b.sent.all fun c => decide (chunk ≤ c)) && b.todo.all fun e => decide (chunk ≤ e.1))

/-- A returned chunk of a pull written at its home (R220): a page that is not present, or a lower chunk of an ordered copy, makes the
chunk replay. -/
def State.pullWrite (s : State) (core : Nat) (b : BulkOp) (chunk : Nat) (bytes : BitVec 128) (poison : Bool) : State :=
  match s.team b.team with
  | none => s
  | some r =>
    let a := groupAcc r (.bulk core b.id) 1 2
    let again := fun (s : State) => s.updBulk core b.id fun b =>
      { b with todo := putChunk b.todo chunk, sent := b.sent.filter fun c => c != chunk, seen := s.time }
    if r.barred b.grp b.id then s
    else if !b.inTurn chunk then again s
    else match s.xlates a (b.keys chunk) with
    | .bad key c d st => (s.notice a key st).failAccess (.bulk core b.id) key c d
    | .wait s => again s
    | .ok ls =>
      match s.engineStore b.team b.grp b.id b.lpc r true (b.dst + 16 * chunk) (spoil b.bad ((numBytes bytes.toNat 16).map fun x => (x, poison)))
          (ls.getD 0 ⟨0, 0, none⟩) 0 with
      | (false, s) => again s
      | (true, s) =>
        (s.barEvent b.team b.grp b.bar b.lpc (.land 16)).updBulk core b.id fun b =>
          { b with sent := b.sent.filter fun c => c != chunk, seen := s.time, bad := false }

/-- REMOTE_READ_RESPONSE. -/
def execRemoteReadResponse (id chunk : Nat) (bytes : BitVec 128) (poison : Bool) (s : State) : Out :=
  clocked (fun s =>
    match s.remoteOp id with
    | some (core, b) => if b.dir && b.sent.contains chunk then s.pullWrite core b chunk bytes poison else s
    | none => s) s

/-- REMOTE_RETRY (R191, R223): the chunk is sent again. For the counter add, which the receiver makes again by itself, the sender goes on
waiting (R221; assumption 104). -/
def execRemoteRetry (id chunk : Nat) (s : State) : Out :=
  clocked (fun s =>
    match s.remoteOp id with
    | some (core, b) =>
      if !b.sent.contains chunk then s
      else if chunk = b.len / 16 then s.updBulk core id fun b => { b with seen := s.time }
      else s.updBulk core id fun b => { b with todo := putChunk b.todo chunk, sent := b.sent.filter fun c => c != chunk, seen := s.time }
    | none =>
      match s.forwardOp id with
      | some b => if b.sent.contains chunk then s.forwardChunk b chunk else s
      | none => s) s

/-- A remote copy of a team fails: it is dropped, and its team traps at DST (R223). -/
def State.failRemote (s : State) (core : Nat) (b : BulkOp) (code detail : Nat) : State :=
  (s.updCore core fun k => { k with bulkQ := k.bulkQ.filter fun k => k.id != b.id }).raiseAt b.team b.grp b.id code detail b.lpc 0 b.dst

/-- Whether a connection has made no progress for 100 ms (R339): a chunk is outstanding, or no port can send. A counter add that waits at
the receiver is none (R221; assumption 104). -/
def State.stalled (s : State) (b : BulkOp) : Bool :=
  decide (b.seen + 100000000 ≤ s.time) &&
  ((b.sent.any fun c => c != b.len / 16) || (s.peer b.ctx b.die b.peer).any fun q => (s.ethPort q.ports 0).isNone)

/-- TRANSPORT_GIVE_UP (R223, R339): MEMFATAL, or a notice for a forward. -/
def execTransportGiveUp (id : Nat) (s : State) : Out :=
  clocked (fun s =>
    match s.remoteOp id with
    | some (core, b) => if s.stalled b then s.failRemote core b tMEMFATAL 3 else s
    | none =>
      match s.forwardOp id with
      | some b => if s.stalled b then s.failForward b 2 else s
      | none => s) s

/-- FABRIC_REFUSAL (R191, R221 to R223): a chunk, a read or the counter add was refused at the peer. -/
def execFabricRefusal (id chunk : Nat) (fatal : Bool) (counter : Bool) (s : State) : Out :=
  clocked (fun s =>
    match s.remoteOp id with
    | some (core, b) =>
      if (if counter then b.sig else b.sent.contains chunk) then
        if fatal then s.failRemote core b tMEMFATAL 3 else s.failRemote core b tMEMPERM (8 + (if b.dir then 1 else 2))
      else s
    | none =>
      match s.forwardOp id with
      | some b => if !counter && b.sent.contains chunk then s.failForward b (if fatal then 2 else 1) else s
      | none => s) s

end Sys2Proof.Machine
end

