-- ==== Sys2Proof/Machine/Crypto.lean ====
section
/-! DEFINITION. The two algorithms that firmware and attestation take from FIPS (R341 to R343): the SHA-384 digest (FIPS 180-4) and the
verification of an ECDSA signature over the curve P-384 (FIPS 186-5). Their constants are those of these standards. -/

namespace Sys2Proof.Machine

/-! ### SHA-384 -/

/-- The greatest number whose `k`-th power does not pass `n`, found bit by bit from bit 79 down. -/
def rootOf (k n : Nat) : Nat :=
  (List.range 80).foldl (fun r i => if (r + 2 ^ (79 - i)) ^ k ≤ n then r + 2 ^ (79 - i) else r) 0

/-- The first 64 bits of the fraction of a prime's `k`-th root. -/
def rootFraction (k p : Nat) : BitVec 64 := BitVec.ofNat 64 (rootOf k (p * 2 ^ (64 * k)))

/-- The primes to 409, 80 of them. -/
def primes80 : List Nat := (List.range 410).filter fun n => decide (2 ≤ n) && (List.range n).all fun d => decide (d < 2) || n % d != 0

/-- The number of bytes, the most significant first. -/
def beNat (bs : List Byte) : Nat := bs.foldl (fun n b => 256 * n + b.toNat) 0

/-- The words of a padded message, taken as one number: its bits, a bit 1, zeros, and in the last 128 bits its length in bits. -/
def messageWords (m : List Byte) : List (BitVec 64) :=
  let len := 8 * m.length
  let size := (len + 1152) / 1024 * 1024
  let whole := (2 * beNat m + 1) * 2 ^ (size - len - 1) + len
  (List.range (size / 64)).map fun i => BitVec.ofNat 64 (whole / 2 ^ (size - 64 * (i + 1)))

/-- A word's rotations to the right by some amounts, in exclusive or. -/
def spun (by_ : List Nat) (x : BitVec 64) : BitVec 64 := by_.foldl (fun y n => y ^^^ x.rotateRight n) 0

/-- The 80 words of a block's schedule from its 16. -/
def schedule (w : List (BitVec 64)) : List (BitVec 64) :=
  (List.range 64).foldl (fun w i =>
    let far := w.getD (i + 1) 0
    let near := w.getD (i + 14) 0
    w ++ [w.getD i 0 + w.getD (i + 9) 0 + (spun [1, 8] far ^^^ far.ushiftRight 7) + (spun [19, 61] near ^^^ near.ushiftRight 6)]) w

/-- The working words as two histories of four, the newest first: what the standard calls a to d, and e to h. -/
structure Working where
  upper : List (BitVec 64)
  lower : List (BitVec 64)

/-- A round, with its constant and its word of the schedule added together. -/
def Working.round (v : Working) (kw : BitVec 64) : Working :=
  let u := fun i => v.upper.getD i 0
  let l := fun i => v.lower.getD i 0
  let choice := l 2 ^^^ (l 0 &&& (l 1 ^^^ l 2))
  let majority := (u 0 &&& (u 1 ||| u 2)) ||| (u 1 &&& u 2)
  let t := kw + choice + spun [14, 18, 41] (l 0) + l 3
  ⟨(majority + spun [28, 34, 39] (u 0) + t) :: v.upper.take 3, (u 3 + t) :: v.lower.take 3⟩

/-- A hash value after the 16 words of a block. -/
def absorbBlock (consts h block : List (BitVec 64)) : List (BitVec 64) :=
  let v := ((schedule block).zip consts).foldl (fun (v : Working) e => v.round (e.1 + e.2)) ⟨h.take 4, h.drop 4⟩
  (v.upper ++ v.lower).mapIdx fun i x => h.getD i 0 + x

/-- The SHA-384 digest as a number, its first byte the most significant. The rounds take the fractions of the cube roots of the first 80
primes, the hash begins with those of the square roots of the ninth to the sixteenth. -/
def sha384 (m : List Byte) : BitVec 384 :=
  let consts := primes80.map (rootFraction 3)
  let words := messageWords m
  let h := (List.range (words.length / 16)).foldl (fun h i => absorbBlock consts h ((words.drop (16 * i)).take 16))
    (((primes80.drop 8).take 8).map (rootFraction 2))
  BitVec.ofNat 384 ((h.take 6).foldl (fun n w => 2 ^ 64 * n + w.toNat) 0)

/-- A digest's bytes, in the order of the standard. -/
def digestBytes (d : BitVec 384) : List Byte := (List.range 48).map fun i => BitVec.ofNat 8 (d.toNat / 256 ^ (47 - i))

/-! ### ECDSA over P-384 -/

/-- The prime of the field, the order of the group and the base point of P-384. -/
def p384P : Nat := 2 ^ 384 - 2 ^ 128 - 2 ^ 96 + 2 ^ 32 - 1
def p384N : Nat := 0xffffffffffffffffffffffffffffffffffffffffffffffffc7634d81f4372ddf581a0db248b0a77aecec196accc52973
def p384G : Nat × Nat :=
  (0xaa87ca22be8b05378eb1c71ef320ad746e1d3b628ba79b9859f741e082542a385502f25dbf55296c3a545e3872760ab7,
   0x3617de4a96262c6f5d9e98bf9292dc29f8f41dbd289a147ce9da3113b5f0b8c00a60b1ce1d7e819d7a431d7c90ea0e5f)

/-- A power modulo `m`, by `n` bits of the exponent. -/
def powMod (m : Nat) : Nat → Nat → Nat → Nat → Nat
  | 0, _, _, acc => acc
  | n + 1, b, e, acc => powMod m n (b * b % m) (e / 2) (if e % 2 = 1 then acc * b % m else acc)

/-- The inverse modulo a prime of 384 bits. -/
def invMod (m a : Nat) : Nat := powMod m 384 (a % m) (m - 2) 1

/-- The sum of two points of the curve; none is the point at infinity. -/
def p384Add (a b : Option (Nat × Nat)) : Option (Nat × Nat) :=
  match a, b with
  | none, q => q
  | p, none => p
  | some (x1, y1), some (x2, y2) =>
    if x1 = x2 ∧ (y1 + y2) % p384P = 0 then none
    else
      let l :=
        if x1 = x2 then (3 * x1 * x1 + (p384P - 3)) * invMod p384P (2 * y1) % p384P
        else (y2 + p384P - y1) * invMod p384P (x2 + p384P - x1) % p384P
      let x := (l * l + (p384P - x1) + (p384P - x2)) % p384P
      some (x, (l * (x1 + p384P - x) + (p384P - y1)) % p384P)

/-- A multiple of a point, by `n` bits of the factor, the least significant first. -/
def p384Mul : Nat → Nat → Option (Nat × Nat) → Option (Nat × Nat) → Option (Nat × Nat)
  | 0, _, _, acc => acc
  | n + 1, k, q, acc => p384Mul n (k / 2) (p384Add q q) (if k % 2 = 1 then p384Add acc q else acc)

/-- Whether a signature `(r, s)` verifies under the public point over a digest (FIPS 186-5). -/
def ecdsaOk (key : Nat × Nat) (digest : BitVec 384) (sig : Nat × Nat) : Bool :=
  if sig.1 = 0 ∨ p384N ≤ sig.1 ∨ sig.2 = 0 ∨ p384N ≤ sig.2 then false
  else
    let w := invMod p384N sig.2
    match p384Add (p384Mul 384 (digest.toNat * w % p384N) (some p384G) none) (p384Mul 384 (sig.1 * w % p384N) (some key) none) with
    | none => false
    | some q => q.1 % p384N == sig.1

end Sys2Proof.Machine
end

