-- ==== Sys2Proof/Machine/EvHost.lean ====
section
/-! DEFINITION. Events of the host's ports (R331 to R335, R340 to R343): authority, resets, the apertures, firmware, identity and
attestation. -/

namespace Sys2Proof.Machine

/-! ### Authority and resets (R333, R335) -/

/-- A write of AUTH by a port. -/
def State.authority (s : State) (p to_ : Port) : State := s.guarded (s.pkg.auth == p) { s with pkg := { s.pkg with auth := to_ } }

/-- AUTHORITY_MOVE: once the port's earlier writes have been performed. -/
def execAuthorityMove (p to_ : Port) (s : State) : Out := clocked (fun s => s.posted p (.authority to_) (s.authority p to_)) s

/-- A write of 1 to bit 0 of RESET by a port. -/
def State.resetWrite (s : State) (p : Port) : State := s.guarded (s.pkg.auth == p) s.askReset

/-- DEVICE_RESET. Where the clocks stand nothing waits. -/
def execDeviceReset (p : Port) (s : State) : Out :=
  .next (if s.live then s.posted p .deviceReset (s.resetWrite p) else s.resetWrite p)

/-- Every context that a port owns destroyed (R310, R335). -/
def State.destroyOwned (s : State) (p : Port) : State :=
  ((List.range 64).filter fun c => (s.ctx c).owner == p).foldl (fun (s : State) c => s.destroyCtx c) s

/-- PERST: PERST# on the authority port resets the device, on the other port it destroys that port's contexts. -/
def execPerst (p : Port) (s : State) : Out :=
  .next (if s.pkg.auth = p then s.askReset else if s.live then s.destroyOwned p else s)

/-- PORT_RESET: PERST#, a hot reset or a Function Level Reset on the port without the authority. -/
def execPortReset (p : Port) (s : State) : Out :=
  clocked (fun s => if s.pkg.auth = p then s else s.destroyOwned p) s

/-! ### Apertures (R334, R361) -/

/-- CONTEXT_APERTURE_ACCESS. While a purge holds the range, the access waits, and with it what the port's ordering puts behind it (R184,
R326; assumption 85). -/
def execContextApertureAccess (p : Port) (off : BitVec 34) (a : HostAcc) (s : State) : Out :=
  clocked (fun s => s.hostArrive p (.aperture off a)) s

/-- PHYSICAL_APERTURE_ACCESS: directly at the DRAM array. -/
def execPhysicalApertureAccess (p : Port) (off : BitVec 32) (a : HostAcc) (s : State) : Out :=
  clocked (fun s => s.hostArrive p (.physical off a)) s

/-! ### Firmware (R341) -/

/-- The staging area's bytes for an image, and the whole area. -/
def imageBytes : Nat := 8 * 2 ^ 20 - 4096

/-- FWCTL.GO: the staged image is to be verified; the helper data is taken from the area's last 4 KiB. -/
def State.firmwareGo (s : State) : State :=
  match s.pkg.fw with
  | .empty | .failed =>
    { s with pkg := { s.pkg with fw := .verifying, fwReason := 0, helper := s.pkg.staging.bytes imageBytes 4096 } }
  | _ => s

/-- FIRMWARE_GO. -/
def execFirmwareGo (p : Port) (s : State) : Out :=
  clocked (fun s => s.posted p .firmware (s.guarded (s.pkg.auth == p) s.firmwareGo)) s

/-- What the boot ROM finds in the staging area: the reason of a failure as FWSTAT codes it, or the image. The order of the checks
is that of the steps of R341, the length with the header. -/
def verifyImage (m : Memory) : Except Nat (BitVec 32 × List Byte) :=
  let at_ := Config.fwField
  let len := m.num (at_ 2) 4
  let key := m.bytes (at_ 3) Config.fwKeyBytes
  let image := m.bytes 0 len
  let signed := image.take (at_ 4) ++ image.drop (at_ 4 + 96)
  if m.num (at_ 0) 4 ≠ 0x46575A41 then .error 1
  else if imageBytes < len then .error 4
  else if sha384 key ≠ Config.rootDigest then .error 2
  else if !ecdsaOk (Config.keyPoint key) (sha384 signed) (Config.sigParts (m.bytes (at_ 4) 96)) then .error 3
  else .ok (BitVec.ofNat 32 (m.num (at_ 1) 4), image)

/-- FIRMWARE_VERIFY_DONE. -/
def execFirmwareVerifyDone (s : State) : Out :=
  clocked (fun s =>
    match s.pkg.fw with
    | .verifying =>
      match verifyImage s.pkg.staging with
      | .ok (svn, image) => { s with pkg := { s.pkg with fw := .running, svn := svn, fwDigest := sha384 image } }
      | .error r => { s with pkg := { s.pkg with fw := .failed, fwReason := r } }
    | _ => s) s

/-! ### Identity and attestation (R342, R343) -/

/-- IDENTITY_DERIVATION: once the helper data is there, IDSTAT becomes PRESENT or ABSENT. -/
def execIdentityDerivation (s : State) : Out :=
  clocked (fun s =>
    if s.pkg.idStat = 0 ∧ s.pkg.fw ≠ .empty then
      { s with pkg := { s.pkg with idStat := if Config.identityPresent s.pkg.helper then 1 else 2 } }
    else s) s

/-- Whether the device can sign. -/
def State.signs (s : State) : Bool := s.pkg.idStat == 1

/-- An SPDM response, by its code; 0x7F is ERROR. -/
def State.spdm (s : State) (p : Port) (code : Nat) (bytes : List Byte) : State := s.emit (.spdm p code bytes)
def State.spdmError (s : State) (p : Port) : State := s.spdm p 0x7F []

/-- The chain of slot 0. -/
def State.chain (s : State) : List Byte := Config.certChain s.pkg.helper s.pkg.fwDigest s.pkg.svn

/-- A nonce of the device: 256 bits of its own choice. -/
def State.nonce (s : State) : List Byte × State :=
  (List.range 4).foldl (fun (acc : List Byte × State) _ =>
    let v := acc.2.free
    (acc.1 ++ numBytes v.1.toNat 8, v.2)) ([], s)

/-- The measurements of R343, from index 1. -/
def State.measurement (s : State) (i : Nat) : List Byte :=
  match i with
  | 1 => digestBytes (sha384 Config.bootRomVersion)
  | 2 => digestBytes s.pkg.fwDigest
  | 3 => numBytes s.pkg.svn.toNat 4
  | _ =>
    numBytes s.pkg.straps.toNat 4 ++ numBytes (if s.pkg.auth = .b then 1 else 0) 4 ++
    numBytes ((List.range 64).foldl (fun n c => n + (if (s.ctx c).owner = .b then 2 ^ c else 0)) 0) 8

/-- GET_VERSION: SPDM 1.2. -/
def execGetVersion (p : Port) (s : State) : Out := clocked (fun s => s.spdm p 0x04 [0x12]) s

/-- GET_CAPABILITIES: certificates, challenges and signed measurements. -/
def execGetCapabilities (p : Port) (s : State) : Out := clocked (fun s => s.spdm p 0x61 (numBytes 0x16 4)) s

/-- NEGOTIATE_ALGORITHMS: ECDSA P-384 and SHA-384 alone. -/
def execNegotiateAlgorithms (p : Port) (s : State) : Out := clocked (fun s => s.spdm p 0x63 (numBytes 0x80 4 ++ numBytes 2 4)) s

/-- GET_DIGESTS: the digest of slot 0's chain. -/
def execGetDigests (p : Port) (s : State) : Out :=
  clocked (fun s => if s.signs then s.spdm p 0x01 (1 :: digestBytes (sha384 s.chain)) else s.spdmError p) s

/-- GET_CERTIFICATE: a portion of slot 0's chain. -/
def execGetCertificate (p : Port) (slot : Fin 16) (off len : BitVec 16) (s : State) : Out :=
  clocked (fun s =>
    if s.signs && slot.val == 0 then s.spdm p 0x02 ((s.chain.drop off.toNat).take len.toNat) else s.spdmError p) s

/-- CHALLENGE: signed by the attestation key. -/
def execChallenge (p : Port) (slot : Fin 16) (nonce : BitVec 256) (s : State) : Out :=
  clocked (fun s =>
    if s.signs && slot.val == 0 then
      let n := s.nonce
      let body := digestBytes (sha384 s.chain) ++ n.1
      n.2.spdm p 0x03 (body ++ Config.attest s.pkg.fwDigest (numBytes nonce.toNat 32 ++ body))
    else s.spdmError p) s

/-- GET_MEASUREMENTS: index 0 asks for their number, 255 for all; signed by the attestation key where asked. -/
def execGetMeasurements (p : Port) (idx : BitVec 8) (sign : Bool) (nonce : BitVec 256) (s : State) : Out :=
  clocked (fun s =>
    let i := idx.toNat
    if (sign && !s.signs) || (4 < i && i != 255) then s.spdmError p
    else
      let body := if i = 0 then [4] else if i = 255 then (List.range 4).flatMap fun k => s.measurement (k + 1) else s.measurement i
      if sign then
        let n := s.nonce
        n.2.spdm p 0x60 (body ++ n.1 ++ Config.attest s.pkg.fwDigest (numBytes nonce.toNat 32 ++ body ++ n.1))
      else s.spdm p 0x60 body) s

end Sys2Proof.Machine
end

