-- ==== Sys2Proof/Machine/EvReg.lean ====
section
/-! DEFINITION. Host writes to the control space, BAR0 (R7, R239, R288, R297, R299, R307 to R309, R315, R316, R324, R326, R332,
R333, R356, R367, R381). A write is of 4 bytes, or of 8 bytes at an aligned offset. -/

namespace Sys2Proof.Machine

/-- A write to the 8 bytes at an aligned offset: the halves that it brings. -/
structure Halves where
  lo : Option (BitVec 32)
  hi : Option (BitVec 32)
  deriving DecidableEq, Repr

/-- A 64-bit register after a write. -/
def Halves.over (h : Halves) (cur : BitVec 64) : BitVec 64 :=
  (h.hi.getD (cur.extractLsb' 32 32)) ++ (h.lo.getD (cur.extractLsb' 0 32))

/-- The whole value, where both halves are written. -/
def Halves.whole (h : Halves) : Option (BitVec 64) :=
  match h.lo, h.hi with
  | some l, some u => some (u ++ l)
  | _, _ => none

/-- The effects of the 32-bit registers at an offset and 4 bytes on. -/
def State.low (s : State) (h : Halves) (f : BitVec 32 → State → State) : State := match h.lo with | some v => f v s | none => s
def State.high (s : State) (h : Halves) (f : BitVec 32 → State → State) : State := match h.hi with | some v => f v s | none => s

/-- A value kept where it is as R315 or R316 demands. -/
def keepIf (ok : BitVec 64 → Bool) (v old : BitVec 64) : BitVec 64 := if ok v then v else old

/-! ### Purge registers (R307, R326, R333) -/

/-- MCTL and WMCTL: MSIZE, ERR and GO. -/
def State.writeMctl (s : State) (w : Option Nat) (v : BitVec 32) : State :=
  if v.getLsbD 31 && (s.purgeOf w).busy then s.updPurge w fun p => { p with err := true }
  else
    let s := s.updPurge w fun p => { p with msize := v.extractLsb' 0 6, err := p.err && !v.getLsbD 29 }
    if v.getLsbD 31 then s.goPurge w else s

/-- The purge registers at their offsets from MVA, MPTE, MVAL and MCTL. -/
def State.writePurge (s : State) (w : Option Nat) (i : Nat) (h : Halves) : State :=
  match i with
  | 0 => s.updPurge w fun p => { p with mva := h.over p.mva }
  | 1 => s.updPurge w fun p => { p with mpte := keepIf (fun v => entryOk v 8) (h.over p.mpte) p.mpte }
  | 2 => s.updPurge w fun p => { p with mval := h.over p.mval }
  | _ => s.low h fun v s => s.writeMctl w v

/-! ### The package registers (R333) -/

def State.updPkg (s : State) (f : Pkg → Pkg) : State := { s with pkg := f s.pkg }

/-- RESET: bit 0 starts a device reset. -/
def State.writeReset (s : State) (v : BitVec 32) : State := if v.getLsbD 0 then s.askReset else s

def State.writePkg (s : State) (p : Port) (o : Nat) (h : Halves) : State :=
  let auth := s.pkg.auth == p
  match o with
  | 0x008 => s.low h fun v s => s.guarded auth (s.updPkg fun k => { k with auth := if v.getLsbD 0 then .b else .a })
  | 0x010 => s.high h fun v s => s.guarded auth (s.writeReset v)
  | 0x018 =>
    (s.low h fun v s => s.guarded auth (s.updPort p fun r => { r with physwin := v.extractLsb' 0 7 })).high h fun v s =>
      s.updPort p fun r => { r with apctx := v.extractLsb' 0 6 }
  | 0x020 => s.updPort p fun r => { r with apbase := (h.over (r.apbase.setWidth 64)).extractLsb' 0 23 }
  | 0x028 => s.guarded auth (s.updPkg fun k => { k with wroot := keepIf ptrOk (h.over k.wroot) k.wroot })
  | 0x030 => s.guarded auth (s.writePurge none 0 h)
  | 0x038 => s.guarded auth (s.writePurge none 1 h)
  | 0x040 => s.guarded auth (s.writePurge none 2 h)
  | 0x048 => s.low h fun _ s => s.guarded auth (s.writePurge none 3 h)
  | 0x050 => s.low h fun v s => s.guarded auth (if v.getLsbD 0 then s.firmwareGo else s)
  | _ => s

/-! ### Context blocks (R307 to R309) -/

/-- CTXCTL: ENABLE, the fields, then RESET, RESUME and PREEMPT. OWNER is written by the authority port alone. -/
def State.writeCtxctl (s : State) (p : Port) (c : Nat) (v : BitVec 32) : State :=
  let r := s.ctx c
  let s := if v.getLsbD 31 then s.enableCtx c else s.destroyCtx c
  let owner : Port := if v.getLsbD 30 then .b else .a
  let s := s.updCtx c fun r => { r with window := v.extractLsb' 28 2, cntrs := v.getLsbD 27 }
  let s := if owner = r.owner then s else s.guarded (s.pkg.auth == p) (s.updCtx c fun r => { r with owner := owner })
  let s := if v.getLsbD 24 then s.resetCtx c else s
  let s := if v.getLsbD 25 then s.resumeCtx c else s
  if v.getLsbD 26 then s.startDrain c else s

/-- FREPLY (R324). -/
def State.writeFreply (s : State) (c : Nat) (v : BitVec 64) : State :=
  match (v.extractLsb' 62 2).toNat with
  | 0 => s.replyRetry c (v.extractLsb' 0 62).toNat
  | 1 => s.replyDecline c (v.extractLsb' 0 62).toNat
  | _ => s

def State.writeCtx (s : State) (p : Port) (c o : Nat) (h : Halves) : State :=
  let keep32 := keepIf fun v => entryOk v 32
  match o with
  | 0x00 => (s.low h fun v s => s.writeCtxctl p c v).high h fun v s => s.updCtx c fun r => { r with deadline := v }
  | 0x08 => s.updCtx c fun r => { r with root := keepIf ptrOk (h.over r.root) r.root }
  | 0x10 => s.updCtx c fun r => { r with fqbase := keep32 (h.over r.fqbase) r.fqbase }
  | 0x18 =>
    (s.low h fun v s => s.updCtx c fun r => { r with fqctl := v &&& 0x80003F0F }).high h fun v s =>
      s.updCtx c fun r => { r with fqhead := v }
  | 0x20 => s.high h fun v s => s.updCtx c fun r => { r with jobid := v &&& 0x80FFFFFF }
  | 0x28 => match h.whole with | some v => s.writeFreply c v | none => s
  | 0x30 => s.updCtx c fun r => { r with peerbase := keep32 (h.over r.peerbase) r.peerbase }
  | 0x38 => s.low h fun v s => s.updCtx c fun r => { r with peercnt := v }
  | 0x60 => s.writePurge (some c) 0 h
  | 0x68 => s.writePurge (some c) 1 h
  | 0x70 => s.writePurge (some c) 2 h
  | 0x78 => s.writePurge (some c) 3 h
  | _ =>
    if 0x40 ≤ o ∧ o < 0x60 then
      s.updCtx c fun r =>
        let at_ := 8 * (o - 0x40)
        let v := h.over (r.chain.extractLsb' at_ 64)
        { r with chain := (r.chain &&& ~~~((BitVec.allOnes 64).setWidth 256 <<< at_)) ||| (v.setWidth 256 <<< at_) }
    else s

/-- The recovery block of a context (R356): TRAPDESC is 64-byte aligned and TRAPBASE 128-byte aligned. -/
def State.writeRecovery (s : State) (c o : Nat) (h : Halves) : State :=
  match o with
  | 0x00 => s.updCtx c fun r => { r with trapdesc := h.over r.trapdesc &&& ~~~(63 : BitVec 64) }
  | 0x08 => s.updCtx c fun r => { r with trapbase := h.over r.trapbase &&& ~~~(127 : BitVec 64) }
  | 0x10 => s.low h fun v s => s.updCtx c fun r => { r with trapctl := v &&& 0x800000FF }
  | _ => s

/-! ### The thermal block (R381) -/

def State.writeThermal (s : State) (o : Nat) (h : Halves) : State :=
  let upd := fun (s : State) (f : Thermal → Thermal) => { s with thermal := f s.thermal }
  match o with
  | 0x00 =>
    (s.low h fun v s => upd s fun t => { t with err := t.err && !v.getLsbD 11 }).high h fun v s =>
      let s := upd s fun t => { t with thvec := v.extractLsb' 2 6 }
      match (v.extractLsb' 0 2).toNat with
      | 1 => s.cool
      | 2 => s.warm
      | _ => s
  | 0x08 =>
    (s.low h fun v s => upd s fun t => { t with tbath := v.extractLsb' 0 12 }).high h fun v s =>
      upd s fun t => { t with evt := t.evt &&& ~~~(v.extractLsb' 0 5) }
  | _ => s

/-! ### Die regions (R239, R297, R299, R367) -/

/-- An event ring's registers after a write by the authority port. -/
def Ring.write (r : Ring) (o : Nat) (h : Halves) : Ring :=
  match o with
  | 0x00 => { r with rbase := keepIf ptrOk (h.over r.rbase) r.rbase }
  | 0x08 => { r with rsize := (h.lo.map fun v => v.extractLsb' 0 5).getD r.rsize }
  | 0x10 => { r with rhead := h.lo.getD r.rhead, rcnt := (h.hi.map fun v => v.extractLsb' 0 9).getD r.rcnt }
  | 0x18 => { r with rtmo := (h.lo.map fun v => v.extractLsb' 0 16).getD r.rtmo, rvec := (h.hi.map fun v => v &&& 0x8000013F).getD r.rvec }
  | _ => r

/-- A write to an event ring (R297): the port that the ring names may write RHEAD, and what else it writes is ignored and counts
once. -/
def State.writeRing (s : State) (p : Port) (d k o : Nat) (h : Halves) : State :=
  let head := decide (o = 0x10) && (s.ring d k).port == p
  let s :=
    if s.pkg.auth = p then s.updRing d k fun r => r.write o h
    else
      let s := if head then s.updRing d k fun r => r.write 0x10 ⟨h.lo, none⟩ else s
      if head && h.hi.isNone then s else s.foreign
  (s.ringCheck d k).ringGo d k

/-- A link-status register of a die: its link, and whether the die stands at the link's first end. -/
def linkOf (d : Nat) (pred : Bool) : Nat := if pred then (ringPos d + 3) % 4 else ringPos d

/-- DOWNEV of a die's link cleared by a 1. -/
def State.clearDown (s : State) (d : Nat) (pred : Bool) (v : BitVec 32) : State :=
  if !v.getLsbD 29 then s
  else s.updLink (linkOf d pred) fun k => if pred then { k with evB := false } else { k with evA := false }

def State.writeDie (s : State) (p : Port) (d o : Nat) (h : Halves) : State :=
  let auth := s.pkg.auth == p
  if o < 0x10000 then
    let q := o / 16
    let k := s.queue q
    let cur : BitVec 64 := match k.active with | some a => BitVec.ofNat 64 a.tail | none => k.stail
    if o % 16 = 0 then s.tailWrite d q (h.over cur) else s
  else if o < 0x10400 then s.writeRing p d ((o - 0x10000) / 64) (o % 64) h
  else
    match o with
    | 0x20000 =>
      s.guarded auth ((s.low h fun v s => s.updDie d fun r => { r with enlnext := v &&& 0x3FFFFFFC }).high h fun v s =>
        s.updDie d fun r => { r with plctl := v &&& 0xFFFFFF00 })
    | 0x30000 => s.updDie d fun r => { r with csbase := keepIf ptrOk (h.over r.csbase) r.csbase }
    | 0x30008 => s.low h fun v s => s.updDie d fun r => { r with csctl := v &&& 0x8000001F }
    | 0x30018 => s.high h fun v s => s.updDie d fun r => { r with rctl := v.extractLsb' 0 6 }
    | 0x30020 => (s.low h fun v s => s.clearDown d false v).high h fun v s => s.clearDown d true v
    | _ => s

/-! ### The space (R332) -/

/-- A write to the 8 bytes at an aligned offset of BAR0. -/
def State.ctlWrite (s : State) (p : Port) (o : Nat) (h : Halves) : State :=
  let auth := s.pkg.auth == p
  if o < 0x10000 then s.writePkg p o h
  else if o < 0x14000 then
    let c := (o - 0x10000) / 256
    s.guarded (s.mayCtx p c) (s.writeCtx p c (o % 256) h)
  else if o < 0x20000 then s
  else if o < 0x40000 then
    let q := (o - 0x20000) / 32
    let w := o % 32 / 8
    s.queueWrite p q w (h.over ((s.queue q).word w))
  else if o < 0x40800 then
    let c := (o - 0x40000) / 32
    s.guarded (s.mayCtx p c) (s.writeRecovery c (o % 32) h)
  else if 0x50000 ≤ o ∧ o < 0x50018 then s.guarded auth (s.writeThermal (o - 0x50000) h)
  else if o < 0x800000 then s
  else if o < 0x1000000 then
    let put := fun (m : Memory) at_ (v : Option (BitVec 32)) =>
      match v with
      | some v => m.storeBytes at_ (numBytes v.toNat 4)
      | none => m
    let a := o - 0x800000
    s.guarded auth (s.updPkg fun k => { k with staging := put (put k.staging a h.lo) (a + 4) h.hi })
  else
    let d := o / 0x1000000 - 1
    if 4 ≤ d then s
    else if s.portReach p d then s.writeDie p d (o % 0x1000000) h
    else s.emit (.abort p)

/-- A write of 8 bytes at an offset aligned to them, else of 4 bytes at an offset aligned to 4. -/
def State.regWrite (s : State) (p : Port) (off : BitVec 27) (wide : Bool) (v : BitVec 64) : State :=
  let o := off.toNat
  let lo := v.extractLsb' 0 32
  let hi := v.extractLsb' 32 32
  if o % 4 ≠ 0 then s
  else if o % 8 = 0 then s.ctlWrite p o ⟨some lo, if wide then some hi else none⟩
  else
    let s := s.ctlWrite p (o - 4) ⟨none, some lo⟩
    if wide then s.ctlWrite p (o + 4) ⟨some hi, none⟩ else s

/-- REGISTER_WRITE. -/
def execRegisterWrite (p : Port) (off : BitVec 27) (wide : Bool) (v : BitVec 64) (s : State) : Out :=
  clocked (fun s => s.posted p (.reg off wide v) (s.regWrite p off wide v)) s

/-! ### What waits at a port (R184) -/

/-- A host operation performed, or what of it a purge holds. -/
def State.hostPerform (s : State) (p : Port) (op : HostOp) : Except HostOp State :=
  match op with
  | .aperture _ _ | .physical _ _ | .mem _ _ _ => s.memAccess p op
  | .reg off wide v => .ok (s.regWrite p off wide v)
  | .tail d q v => .ok (s.tailArrive p d q v)
  | .table q w v => .ok (s.queueWrite p q w v)
  | .reply c seq decline => .ok (s.replyArrive p c seq decline)
  | .purge w => .ok (s.purgeWrite p w)
  | .ctx c act => .ok (s.ctxAct p c act)
  | .authority to_ => .ok (s.authority p to_)
  | .firmware => .ok (s.guarded (s.pkg.auth == p) s.firmwareGo)
  | .deviceReset => .ok (s.resetWrite p)
  | .cool => .ok (s.coolWrite p)
  | .warm => .ok (s.warmWrite p)

/-- The waiting operation at a place, performed if nothing before it holds it (R184). -/
def State.hostStep (s : State) (i : Nat) : State :=
  match s.hostQ[i]? with
  | none => s
  | some w =>
    if w.waits (s.hostQ.take i) then s
    else match { s with hostQ := s.hostQ.eraseIdx i }.hostPerform w.port w.op with
      | .ok s => s
      | .error op => { s with hostQ := s.hostQ.set i ⟨w.port, op⟩ }

end Sys2Proof.Machine
end

