-- ==== Sys2Proof/Machine/MomentOps.lean ====
section
/-! DEFINITION. Conversions and the moment and sample-set instructions (R111 to R121). -/

namespace Sys2Proof.Machine

/-! ### Conversions (R111 to R113) -/

/-- A word or a pair as a number. -/
def wordsNat (ws : List Word) : Nat := (ws.getD 0 0).toNat + 4294967296 * (ws.getD 1 0).toNat

/-- A number as the words of a shape P or M operand. -/
def natWords (sh : Shape) (n : Nat) : List Word := if sh = .M then [Word.ofNat n, Word.ofNat (n / 4294967296)] else [Word.ofNat n]

/-- Whether a NaN becomes +0 in a format (R68). -/
def dropsNan (dst : Fmt) : Bool :=
  match fmtLayout dst with
  | some l => l.special == 0
  | none => true

/-- CVT of a moment (R72, R75, R83, R91). -/
def convertMom (sh : Shape) (dst : Fmt) (m : Rm) (d : Nat) (x : Mom) : List Word :=
  if x.mean.isNan && dropsNan dst then momWords sh 0 (inf32 false) []
  else
    let mean := convertF dst m d x.mean
    let der : Der := match x.mean with | .inf _ => .limit false | _ => .rat Frac.one
    (propagate [(x, der)]).finish sh mean ((Pre.of x.mean).qv (fmtTarget dst) m mean)

/-- CVT (R111). -/
def execCvt (h : Hd) (sh : Shape) (rd : LDst) (ra : Src) (dst : Fmt) (src : Fmt) (rm : Rm) (s : State) : Out :=
  perLaneSt (formOf (.cvt h sh rd ra dst src rm)) (fun e l =>
    let d := l.dithers e rm (draws sh)
    (d.2, match sh with
      | .P => natWords (fmtShape dst) (convertP dst rm (d.1 0) (fmtDecode src (wordsNat (l.op 0))))
      | .S => (List.range 8).map fun j => word32 (convertF dst rm (d.1 j) (f32 (l.w 0 j)))
      | _ => convertMom sh dst rm (d.1 0) (readMom (l.op 0)))) s

/-- QPK's block: the executing lanes' means, and +0 for the others (R112). -/
def packBlock (sh : Shape) (rm : Rm) (f : EFmt) (e : Env) (ins : List LaneIn) : Block :=
  quantise f rm (ins.map fun l =>
    if l.ex then ((if sh = .M then (readMom (l.op 0)).mean else f32 (l.w 0 0)), (l.dithers e rm 1).1 0)
    else (.num false Frac.zero, 0))

/-- The words of one lane of QPK. -/
def packWords (sh : Shape) (rm : Rm) (f : EFmt) (b : Block) (l : LaneIn) : List Word :=
  let q := b.elems.getD l.n (0, .nan)
  let w0 := Word.ofNat (b.scale * 256 + q.1)
  if sh = .M then
    let x := readMom (l.op 0)
    match b.k with
    | none => [w0, nan32]
    | some k =>
      match elemQv f rm k x.mean q.2 with
      | none => [w0, inf32 false]
      | some v => [w0, addUp (rup32 (x.res.map Rl.q)) (rup32 (some v))]
  else [w0]

/-- QPK (R112): no dither is drawn for a block whose scale is NaN (R76). -/
def execQpk (h : Hd) (sh : Shape) (rd : LDst) (ra : Src) (rm : Rm) (f : EFmt) (s : State) : Out :=
  laneInstr (formOf (.qpk h sh rd ra rm f)) noOwn (fun e ins i =>
    let b := packBlock sh rm f e ins
    match ins[i]? with
    | some l => (if b.k.isSome then (l.dithers e rm 1).2 else l.lane, packWords sh rm f b l)
    | none => (Lane.none, [])) s

/-- QUPK (R113). -/
def execQupk (h : Hd) (rd : LDst) (ra : Src) (f : EFmt) (s : State) : Out :=
  perLane (formOf (.qupk h rd ra f)) (fun _ l =>
    let w := (l.w 0 0).toNat
    [elemWord f (w / 256 % 256) (w % 2 ^ elemWidth f)]) s

/-! ### Moments (R114 to R119) -/

/-- A variance word that a mean word goes with, as MMK writes it (R114). -/
def builtVar (mean var : Word) : Word :=
  match f32 mean with
  | .nan => nan32
  | .inf _ => inf32 false
  | .num _ _ => rup32 ((readVar var).map Rl.q)

/-- MMK (R114). -/
def execMmk (h : Hd) (sh : Shape) (rd : LDst) (ra : Src) (rb : Src) (s : State) : Out :=
  perLane (formOf (.mmk h sh rd ra rb)) (fun _ l =>
    momWords sh (if (f32 (l.w 0 0)).isNan then nan32 else l.w 0 0) (builtVar (l.w 0 0) (l.w 1 0)) []) s

/-- MSPL (R93, R115). -/
def execMspl (h : Hd) (sh : Shape) (rd : LDst) (ra : Src) (s : State) : Out :=
  perLane (formOf (.mspl h sh rd ra)) (fun _ l =>
    let x := readMom (l.op 0)
    [if x.mean.isNan then nan32 else rup32 (x.var.map Rl.q)]) s

/-- MADDV (R116). -/
def execMaddv (h : Hd) (sh : Shape) (rd : LDst) (ra : Src) (rb : Src) (s : State) : Out :=
  perLane (formOf (.maddv h sh rd ra rb)) (fun _ l =>
    let x := readMom (l.op 0)
    ({ x with res := addInf x.res (readVar (l.w 1 0)) } : Mom).words sh) s

/-- MTAG (R117): the residual of a moment moved under a tag, as far as BF16 holds it. -/
def tagMom (x : Mom) (t : Nat) (neg : Bool) : Mom :=
  match x.mean, x.res with
  | .num _ _, some v =>
    if t = 0 || v.isZero then x
    else
      let w := (Rl.sqrt v).settle fun r => Layout.bf16.encode (Layout.bf16.target.round .rdn 0 false (.q r))
      let cb := (Layout.bf16.decode w).frac
      if cb.isZero then x
      else { x with cs := mergeCoef x.cs t (if neg then cb.neg else cb), res := some (v.sub cb.sq) }
  | _, _ => x

def execMtag (h : Hd) (rd : LDst) (ra : Src) (rb : Src) (neg : Bool) (s : State) : Out :=
  perLane (formOf (.mtag h rd ra rb neg)) (fun _ l =>
    (tagMom (readMom (l.op 0)) ((l.w 1 0).toNat % 65536) neg).words .Q) s

/-- The covariance of two moments (R78, R118). An exact cancellation is +0 (assumption 88). -/
def covWord (x y : Mom) : Word :=
  if x.mean.isNan || y.mean.isNan then nan32
  else
    round32 .rne 0 false (.q (x.cs.foldl (fun a c =>
      match y.cs.find? fun e => e.1 == c.1 with
      | some e => a.add (c.2.mul e.2)
      | none => a) Frac.zero))

def execMcov (h : Hd) (rd : LDst) (ra : Src) (rb : Src) (s : State) : Out :=
  perLane (formOf (.mcov h rd ra rb)) (fun _ l => [covWord (readMom (l.op 0)) (readMom (l.op 1))]) s

/-- The tags that MFOLD folds: those that the selected slots hold with a coefficient (R119). -/
def foldTags (sel : FoldSel) (ws : List Word) : List Nat :=
  let c := ws.getD 2 0
  let t := ws.getD 3 0
  let a := (readCoef (c.toNat % 65536) (t.toNat % 65536)).2.map (·.1)
  let b := (readCoef (c.toNat / 65536) (t.toNat / 65536)).2.map (·.1)
  match sel with
  | .all => a ++ b
  | .a => a
  | .b => b

/-- MFOLD (R119). -/
def foldMom (sel : FoldSel) (ws : List Word) : Mom :=
  let x := readMom ws
  let ts := foldTags sel ws
  { x with cs := x.cs.filter (fun c => !ts.contains c.1)
           res := (x.cs.filter fun c => ts.contains c.1).foldl (fun v c => addInf v (some c.2.sq)) x.res }

def execMfold (h : Hd) (rd : LDst) (ra : Src) (sel : FoldSel) (s : State) : Out :=
  perLane (formOf (.mfold h rd ra sel)) (fun _ l => (foldMom sel (l.op 0)).words .Q) s

/-! ### Sample sets (R120, R121) -/

/-- One sample of SDRAW (R120). An exact 0 is +0 (assumption 87). -/
def drawSample (x : Mom) (root : Rl) (z : Fl) : Word :=
  match x.mean, x.res with
  | .nan, _ => nan32
  | .inf s, _ => inf32 s
  | .num s m, some v =>
    if v.isZero then word32 (.num s m)
    else if z.frac.isZero then (addPre .rne (.num s m) z).word .rne 0
    else round32 .rne 0 false ((root.scale z.frac).add (.q m))
  | .num s m, none => if z.frac.isZero then word32 (.num s m) else inf32 (decide (z.frac.num < 0))

/-- SDRAW: eight Gaussian values from slot 2. -/
def execSdraw (h : Hd) (rd : LDst) (ra : Src) (s : State) : Out :=
  perLaneSt (formOf (.sdraw h rd ra)) (fun e l =>
    let x := readMom (l.op 0)
    let root := Rl.sqrt (x.res.getD Frac.zero)
    (l.lane.consume 2 2, (gauss8 (l.lane.words8 e l.n 2)).map fun z => drawSample x root (f32 z))) s

/-- SSTAT's pair (R121). -/
def sampleStats (noise : Bool) (ws : List Word) : List Word :=
  let xs := ws.map f32
  let infs := xs.filterMap fun v => match v with | .inf s => some s | _ => none
  if xs.any Fl.isNan || (infs.contains true && infs.contains false) then [nan32, nan32]
  else
    match infs with
    | s :: _ => [inf32 s, inf32 false]
    | [] =>
      let mu := (xs.foldl (fun a v => a.add v.frac) Frac.zero).mul ⟨1, 8⟩
      let ss := xs.foldl (fun a v => a.add (v.frac.sub mu).sq) Frac.zero
      let mean := Layout.f32.target.round .rne 0 false (.q mu)
      let v := rup32 (some (.q (ss.mul ⟨1, 7⟩)))
      [word32 mean, if noise then addUp v (rup32 (some (Layout.f32.target.qv .rne (.q mu) mean.frac))) else v]

def execSstat (h : Hd) (rd : LDst) (ra : Src) (s : State) : Out :=
  perLane (formOf (.sstat h rd ra)) (fun e l => sampleStats e.noise (l.op 0)) s

end Sys2Proof.Machine
end

