-- ==== Sys2Proof/Machine/LaneNet.lean ====
section
/-! DEFINITION. Lane-network instructions: SHFL, VOTE, MATCH, LRED, LSCN, VRD and VWR (R122 to R127). -/

namespace Sys2Proof.Machine

/-- The width of a segment (R123). -/
def segWidth (wl : Fin 6) : Nat := 32 / 2 ^ wl.val

/-- SHFL's source lane (R123). -/
def shflSrc (m : ShMode) (w i k : Nat) : Nat :=
  let base := i - i % w
  match m with
  | .idx => base + k % w
  | .up => if k ≤ i - base then i - k else i
  | .down => if i - base + k < w then i + k else i
  | .xor => base + Nat.xor (i - base) (k % w)

/-- Lane `j` of the operands. -/
def laneAt (ins : List LaneIn) (j : Nat) : LaneIn := ins.getD j ⟨j, false, Lane.none, [], []⟩

/-- SHFL (R123). -/
def execShfl (h : Hd) (sh : Shape) (rd : LDst) (ra : Src) (rb : Src) (m : ShMode) (wl : Fin 6) (s : State) : Out :=
  let src := fun (ins : List LaneIn) i => shflSrc m (segWidth wl) i ((laneAt ins i).w 1 0).toNat
  laneInstr (formOf (.shfl h sh rd ra rb m wl)) (gatherPoison fun ins i => [src ins i]) (fun _ ins i =>
    ((laneAt ins i).lane, (laneAt ins (src ins i)).op 0)) s

/-- VOTE's word over the executing lanes' predicates (R124). -/
def voteWord (m : VoteMode) (ps : List (Nat × Bool)) : Word :=
  match m with
  | .all => boolWord (ps.all (·.2))
  | .any => boolWord (ps.any (·.2))
  | .eq => boolWord (ps.all (·.2) || !(ps.any (·.2)))
  | .ballot => maskOf ((ps.filter (·.2)).map (·.1))

/-- VOTE (R124). -/
def execVote (h : Hd) (rd : LDst) (ra : Pred) (m : VoteMode) (s : State) : Out :=
  laneInstr (formOf (.vote h rd ra m)) noOwn (fun _ ins i =>
    ((laneAt ins i).lane, [voteWord m ((ins.filter (·.ex)).map fun l => (l.n, l.lane.pred ra.val))])) s

/-- MATCH (R124). -/
def execMatch (h : Hd) (rd : LDst) (ra : Src) (s : State) : Out :=
  laneInstr (formOf (.match h rd ra)) (gatherPoison gatherAll) (fun _ ins i =>
    ((laneAt ins i).lane,
     [maskOf ((ins.filter fun l => l.ex && l.w 0 0 == (laneAt ins i).w 0 0).map (·.n))])) s

/-! ### Reduction and scan (R125) -/

/-- One node of the tree, the left operand from the lower lanes. -/
def netNode (op : RedOp) (sh : Shape) (noise : Bool) (a b : List Word) : List Word :=
  let x := a.getD 0 0
  let y := b.getD 0 0
  match op with
  | .add => [x + y]
  | .min => [iminOp false x y]
  | .max => [imaxOp false x y]
  | .umin => [iminOp true x y]
  | .umax => [imaxOp true x y]
  | .and => [x &&& y]
  | .or => [x ||| y]
  | .xor => [x ^^^ y]
  | .fadd => shaped sh .rne noise (fun l => addPre .rne (fl0 l) (fl1 l)) (addProp false) (fun _ => 0) [a, b]
  | .fmin => [chooseWord false x y]
  | .fmax => [chooseWord true x y]

/-- A node where an operand may be absent. -/
def netJoin (op : RedOp) (sh : Shape) (noise : Bool) (a b : Option (List Word)) : Option (List Word) :=
  match a, b with
  | some x, some y => some (netNode op sh noise x y)
  | some x, none => some x
  | none, y => y

/-- One level: neighbours combined. -/
def netLevel (op : RedOp) (sh : Shape) (noise : Bool) : List (Option (List Word)) → List (Option (List Word))
  | a :: b :: r => netJoin op sh noise a b :: netLevel op sh noise r
  | l => l

/-- The values after a number of levels. -/
def netTree (op : RedOp) (sh : Shape) (noise : Bool) : Nat → List (Option (List Word)) → List (Option (List Word))
  | 0, l => l
  | n + 1, l => netTree op sh noise n (netLevel op sh noise l)

/-- The executing lanes' words. -/
def netInputs (ins : List LaneIn) : List (Option (List Word)) := ins.map fun l => if l.ex then some (l.op 0) else none

/-- The executing lanes of a lane's segment, up to a lane. -/
def gatherSeg (w : Nat) (upTo : Bool) (ins : List LaneIn) (i : Nat) : List Nat :=
  (gatherAll ins i).filter fun j => j / w == i / w && (!upTo || decide (j ≤ i))

/-- LRED (R125). -/
def execLred (h : Hd) (sh : Shape) (rd : LDst) (ra : Src) (op : RedOp) (wl : Fin 6) (s : State) : Out :=
  laneInstr (formOf (.lred h sh rd ra op wl)) (gatherPoison (gatherSeg (segWidth wl) false)) (fun e ins i =>
    let l := netTree op sh e.noise (5 - wl.val) (netInputs ins)
    ((laneAt ins i).lane, ((l.getD (i / segWidth wl) none).getD []))) s

/-- The steps of the scan from step `k` on, in segments of `w` lanes. -/
def netScan (op : RedOp) (sh : Shape) (noise : Bool) (w : Nat) : Nat → Nat → List (Option (List Word)) → List (Option (List Word))
  | 0, _, l => l
  | n + 1, k, l =>
    netScan op sh noise w n (k + 1) (l.mapIdx fun i x =>
      if 2 ^ k ≤ i % w then netJoin op sh noise (l.getD (i - 2 ^ k) none) x else x)

/-- The identities of the scan. -/
def netIdentity (op : RedOp) (sh : Shape) : List Word :=
  match op with
  | .min => [0x7FFFFFFF]
  | .max => [0x80000000]
  | .umin | .and => [0xFFFFFFFF]
  | .fadd => if sh = .M then [0, 0] else [0]
  | .fmin => [inf32 false]
  | .fmax => [inf32 true]
  | _ => [0]

/-- LSCN (R125). -/
def execLscn (h : Hd) (sh : Shape) (rd : LDst) (ra : Src) (op : RedOp) (wl : Fin 6) (x : Bool) (s : State) : Out :=
  let w := segWidth wl
  laneInstr (formOf (.lscn h sh rd ra op wl x)) (gatherPoison (gatherSeg w true)) (fun e ins i =>
    let l := netScan op sh e.noise w (5 - wl.val) 0 (netInputs ins)
    let v := if x then (if i % w = 0 then none else l.getD (i - 1) none) else l.getD i none
    ((laneAt ins i).lane, v.getD (netIdentity op sh))) s

/-! ### Registers by index (R126) -/

/-- The own traps of VRD and VWR: ILLREG for an index that is misaligned or beyond the allocation, then POISON for the index,
the data, and for VRD the words reached. -/
def indexTrap (sh : Shape) (code : Nat) (reach : Bool) : Env → List LaneIn → Option (Nat × Nat × List Nat) :=
  fun e ins =>
    let ex := ins.filter (·.ex)
    match (ex.filter fun l => badSpan (l.w 0 0).toNat sh.words e.alloc).map (·.n) with
    | [] =>
      match (ex.filter fun l => l.marked.contains true ||
          (reach && (l.lane.words (l.w 0 0).toNat sh.words).any (·.poison))).map (·.n) with
      | [] => none
      | ls => some (tPOISON, 0, ls)
    | ls => some (tILLREG, code + 1024, ls)

/-- VRD (R126). -/
def execVrd (h : Hd) (sh : Shape) (rd : LDst) (ra : Src) (s : State) : Out :=
  laneInstr (formOf (.vrd h sh rd ra)) (indexTrap sh ra.code true) (fun _ ins i =>
    let l := laneAt ins i
    (l.lane, (l.lane.words (l.w 0 0).toNat sh.words).map (·.bits))) s

/-- VWR (R126, R127). The words that it writes have no other producer from then on (assumption 71). -/
def execVwr (h : Hd) (sh : Shape) (ra : Src) (rb : Src) (s : State) : Out :=
  let f := formOf (.vwr h sh ra rb)
  match s.begin f with
  | .error s' => .next s'
  | .ok x =>
    let ins := x.ins f
    match indexTrap sh ra.code false x.env ins with
    | some (code, detail, ls) => .next (s.raise x.t x.g code detail x.pc (maskOf ls) 0)
    | none =>
      .next (s.finish x f noJump fun g =>
        { (g.mapLanes fun i l =>
            if x.ex.contains i then l.setRegs ((laneAt ins i).w 0 0).toNat (((laneAt ins i).op 1).map RWord.clean) else l) with
          prods := g.prods.filter fun p => !((g.indexed x.at_ f).contains p.reg) })

end Sys2Proof.Machine
end

