-- ==== Sys2Proof/Machine/Dispatch.lean ====
section
/-! DEFINITION. The meaning of each instruction, one arm per constructor. -/

namespace Sys2Proof.Machine

def exec (i : Instr) (s : State) : Host.Outcome State Fault Refusal :=
  match i with
  | .nop h => Sys2Proof.Machine.execNop h s
  | .bra h imm => Sys2Proof.Machine.execBra h imm s
  | .brx h ra => Sys2Proof.Machine.execBrx h ra s
  | .call h rd imm => Sys2Proof.Machine.execCall h rd imm s
  | .callx h rd ra => Sys2Proof.Machine.execCallx h rd ra s
  | .ret h ra => Sys2Proof.Machine.execRet h ra s
  | .exit h => Sys2Proof.Machine.execExit h s
  | .waitl h => Sys2Proof.Machine.execWaitl h s
  | .yield h => Sys2Proof.Machine.execYield h s
  | .trap h n => Sys2Proof.Machine.execTrap h n s
  | .bkpt h => Sys2Proof.Machine.execBkpt h s
  | .srd h rd reg => Sys2Proof.Machine.execSrd h rd reg s
  | .swr h ra reg => Sys2Proof.Machine.execSwr h ra reg s
  | .develop h => Sys2Proof.Machine.execDevelop h s
  | .budget h ra => Sys2Proof.Machine.execBudget h ra s
  | .launch h rd opt => Sys2Proof.Machine.execLaunch h rd opt s
  | .ill rest => Sys2Proof.Machine.execIll rest s
  | .iadd h rd ra rb => Sys2Proof.Machine.execIadd h rd ra rb s
  | .isub h rd ra rb => Sys2Proof.Machine.execIsub h rd ra rb s
  | .imul h rd ra rb => Sys2Proof.Machine.execImul h rd ra rb s
  | .imulh h rd ra rb sg => Sys2Proof.Machine.execImulh h rd ra rb sg s
  | .imad h rd ra rb rc => Sys2Proof.Machine.execImad h rd ra rb rc s
  | .imin h rd ra rb u => Sys2Proof.Machine.execImin h rd ra rb u s
  | .imax h rd ra rb u => Sys2Proof.Machine.execImax h rd ra rb u s
  | .iabs h rd ra => Sys2Proof.Machine.execIabs h rd ra s
  | .and h rd ra rb => Sys2Proof.Machine.execAnd h rd ra rb s
  | .or h rd ra rb => Sys2Proof.Machine.execOr h rd ra rb s
  | .xor h rd ra rb => Sys2Proof.Machine.execXor h rd ra rb s
  | .andn h rd ra rb => Sys2Proof.Machine.execAndn h rd ra rb s
  | .shl h rd ra rb => Sys2Proof.Machine.execShl h rd ra rb s
  | .shr h rd ra rb => Sys2Proof.Machine.execShr h rd ra rb s
  | .sar h rd ra rb => Sys2Proof.Machine.execSar h rd ra rb s
  | .rotl h rd ra rb => Sys2Proof.Machine.execRotl h rd ra rb s
  | .bfe h rd ra rb rc sg => Sys2Proof.Machine.execBfe h rd ra rb rc sg s
  | .bfi h rd ra rb rc => Sys2Proof.Machine.execBfi h rd ra rb rc s
  | .popc h rd ra => Sys2Proof.Machine.execPopc h rd ra s
  | .clz h rd ra => Sys2Proof.Machine.execClz h rd ra s
  | .brev h rd ra => Sys2Proof.Machine.execBrev h rd ra s
  | .icmp h rd ra rb cond u => Sys2Proof.Machine.execIcmp h rd ra rb cond u s
  | .sel h sh rd ra rb rc => Sys2Proof.Machine.execSel h sh rd ra rb rc s
  | .mov h sh rd ra => Sys2Proof.Machine.execMov h sh rd ra s
  | .movi h rd imm => Sys2Proof.Machine.execMovi h rd imm s
  | .lea h rd ra rb n sx => Sys2Proof.Machine.execLea h rd ra rb n sx s
  | .plop h rd ra rb rc table => Sys2Proof.Machine.execPlop h rd ra rb rc table s
  | .pset h rd ra t => Sys2Proof.Machine.execPset h rd ra t s
  | .iaddImm h rd ra imm => Sys2Proof.Machine.execIaddImm h rd ra imm s
  | .imulImm h rd ra imm => Sys2Proof.Machine.execImulImm h rd ra imm s
  | .andImm h rd ra imm => Sys2Proof.Machine.execAndImm h rd ra imm s
  | .orImm h rd ra imm => Sys2Proof.Machine.execOrImm h rd ra imm s
  | .xorImm h rd ra imm => Sys2Proof.Machine.execXorImm h rd ra imm s
  | .shlImm h rd ra imm => Sys2Proof.Machine.execShlImm h rd ra imm s
  | .shrImm h rd ra imm => Sys2Proof.Machine.execShrImm h rd ra imm s
  | .sarImm h rd ra imm => Sys2Proof.Machine.execSarImm h rd ra imm s
  | .fadd h sh rd ra rb rm => Sys2Proof.Machine.execFadd h sh rd ra rb rm s
  | .fsub h sh rd ra rb rm => Sys2Proof.Machine.execFsub h sh rd ra rb rm s
  | .fmul h sh rd ra rb rm sec => Sys2Proof.Machine.execFmul h sh rd ra rb rm sec s
  | .ffma h sh rd ra rb rc rm sec => Sys2Proof.Machine.execFfma h sh rd ra rb rc rm sec s
  | .fmin h sh rd ra rb rm => Sys2Proof.Machine.execFmin h sh rd ra rb rm s
  | .fmax h sh rd ra rb rm => Sys2Proof.Machine.execFmax h sh rd ra rb rm s
  | .fcmp h sh rd ra rb cond => Sys2Proof.Machine.execFcmp h sh rd ra rb cond s
  | .frelu h sh rd ra rm => Sys2Proof.Machine.execFrelu h sh rd ra rm s
  | .fsqrelu h sh rd ra rm => Sys2Proof.Machine.execFsqrelu h sh rd ra rm s
  | .fclass h sh rd ra => Sys2Proof.Machine.execFclass h sh rd ra s
  | .cvt h sh rd ra dst src rm => Sys2Proof.Machine.execCvt h sh rd ra dst src rm s
  | .qpk h sh rd ra rm f => Sys2Proof.Machine.execQpk h sh rd ra rm f s
  | .qupk h rd ra f => Sys2Proof.Machine.execQupk h rd ra f s
  | .frcp h sh rd ra rm => Sys2Proof.Machine.execFrcp h sh rd ra rm s
  | .fdiv h sh rd ra rb rm => Sys2Proof.Machine.execFdiv h sh rd ra rb rm s
  | .fsqrt h sh rd ra rm => Sys2Proof.Machine.execFsqrt h sh rd ra rm s
  | .frsq h sh rd ra rm => Sys2Proof.Machine.execFrsq h sh rd ra rm s
  | .fexp2 h sh rd ra rm => Sys2Proof.Machine.execFexp2 h sh rd ra rm s
  | .flog2 h sh rd ra rm => Sys2Proof.Machine.execFlog2 h sh rd ra rm s
  | .fsinpi h sh rd ra rm => Sys2Proof.Machine.execFsinpi h sh rd ra rm s
  | .fcospi h sh rd ra rm => Sys2Proof.Machine.execFcospi h sh rd ra rm s
  | .ftanh h sh rd ra rm => Sys2Proof.Machine.execFtanh h sh rd ra rm s
  | .fsigm h sh rd ra rm => Sys2Proof.Machine.execFsigm h sh rd ra rm s
  | .mmk h sh rd ra rb => Sys2Proof.Machine.execMmk h sh rd ra rb s
  | .mspl h sh rd ra => Sys2Proof.Machine.execMspl h sh rd ra s
  | .maddv h sh rd ra rb => Sys2Proof.Machine.execMaddv h sh rd ra rb s
  | .mtag h rd ra rb neg => Sys2Proof.Machine.execMtag h rd ra rb neg s
  | .mcov h rd ra rb => Sys2Proof.Machine.execMcov h rd ra rb s
  | .mfold h rd ra sel => Sys2Proof.Machine.execMfold h rd ra sel s
  | .sdraw h rd ra => Sys2Proof.Machine.execSdraw h rd ra s
  | .sstat h rd ra => Sys2Proof.Machine.execSstat h rd ra s
  | .shfl h sh rd ra rb m wl => Sys2Proof.Machine.execShfl h sh rd ra rb m wl s
  | .vote h rd ra m => Sys2Proof.Machine.execVote h rd ra m s
  | .lred h sh rd ra op wl => Sys2Proof.Machine.execLred h sh rd ra op wl s
  | .lscn h sh rd ra op wl x => Sys2Proof.Machine.execLscn h sh rd ra op wl x s
  | .match h rd ra => Sys2Proof.Machine.execMatch h rd ra s
  | .vrd h sh rd ra => Sys2Proof.Machine.execVrd h sh rd ra s
  | .vwr h sh ra rb => Sys2Proof.Machine.execVwr h sh ra rb s
  | .gseed h ra sl form => Sys2Proof.Machine.execGseed h ra sl form s
  | .guni h sh rd sl form => Sys2Proof.Machine.execGuni h sh rd sl form s
  | .gnorm h sh rd sl => Sys2Proof.Machine.execGnorm h sh rd sl s
  | .ggum h sh rd sl => Sys2Proof.Machine.execGgum h sh rd sl s
  | .gber h rd ra sl => Sys2Proof.Machine.execGber h rd ra sl s
  | .gcat h rd ra sl => Sys2Proof.Machine.execGcat h rd ra sl s
  | .ld h rd ra wd sc esc sx off => Sys2Proof.Machine.execLd h rd ra wd sc esc sx off s
  | .st h rd ra wd sc esc off => Sys2Proof.Machine.execSt h rd ra wd sc esc off s
  | .ldp h rd ra rb sc esc => Sys2Proof.Machine.execLdp h rd ra rb sc esc s
  | .stp h rd ra rb sc esc => Sys2Proof.Machine.execStp h rd ra rb sc esc s
  | .atom h op rd ra rb => Sys2Proof.Machine.execAtom h op rd ra rb s
  | .fence h k sc paths => Sys2Proof.Machine.execFence h k sc paths s
  | .cctlWb h ra rb => Sys2Proof.Machine.execCctlWb h ra rb s
  | .cctlInv h ra rb => Sys2Proof.Machine.execCctlInv h ra rb s
  | .cctlDrain h ra rb => Sys2Proof.Machine.execCctlDrain h ra rb s
  | .cctlRepl h ra rb => Sys2Proof.Machine.execCctlRepl h ra rb s
  | .cctlPf1 h ra rb => Sys2Proof.Machine.execCctlPf1 h ra rb s
  | .cctlPf2 h ra rb => Sys2Proof.Machine.execCctlPf2 h ra rb s
  | .txbeg h pn => Sys2Proof.Machine.execTxbeg h pn s
  | .txend h rd => Sys2Proof.Machine.execTxend h rd s
  | .txabt h => Sys2Proof.Machine.execTxabt h s
  | .cpy h ra rb n j esc na => Sys2Proof.Machine.execCpy h ra rb n j esc na s
  | .cpyb h ra j esc => Sys2Proof.Machine.execCpyb h ra j esc s
  | .binit h ra j => Sys2Proof.Machine.execBinit h ra j s
  | .barv h j => Sys2Proof.Machine.execBarv h j s
  | .bexp h ra j dec => Sys2Proof.Machine.execBexp h ra j dec s
  | .bwait h j q => Sys2Proof.Machine.execBwait h j q s
  | .btest h rd j form => Sys2Proof.Machine.execBtest h rd j form s
  | .bsync h j => Sys2Proof.Machine.execBsync h j s
  | .tloop h ra k j mode z => Sys2Proof.Machine.execTloop h ra k j mode z s
  | .thad h ra pts j sr => Sys2Proof.Machine.execThad h ra pts j sr s
  | .taccRd h rd ra k f => Sys2Proof.Machine.execTaccRd h rd ra k f s
  | .taccWr h sh rd ra k => Sys2Proof.Machine.execTaccWr h sh rd ra k s
  | .taccZero h k => Sys2Proof.Machine.execTaccZero h k s
  | .tqnt h ra k j sr vr => Sys2Proof.Machine.execTqnt h ra k j sr vr s
  | .movC16 d b => Sys2Proof.Machine.execMovC16 d b s
  | .iaddC16 d b => Sys2Proof.Machine.execIaddC16 d b s
  | .isubC16 d b => Sys2Proof.Machine.execIsubC16 d b s
  | .andC16 d b => Sys2Proof.Machine.execAndC16 d b s
  | .orC16 d b => Sys2Proof.Machine.execOrC16 d b s
  | .xorC16 d b => Sys2Proof.Machine.execXorC16 d b s
  | .shlC16 d b => Sys2Proof.Machine.execShlC16 d b s
  | .shrC16 d b => Sys2Proof.Machine.execShrC16 d b s
  | .iaddiC16 d imm => Sys2Proof.Machine.execIaddiC16 d imm s
  | .moviC16 d imm => Sys2Proof.Machine.execMoviC16 d imm s
  | .faddC16 d b => Sys2Proof.Machine.execFaddC16 d b s
  | .fmulC16 d b => Sys2Proof.Machine.execFmulC16 d b s
  | .faddMC16 d b => Sys2Proof.Machine.execFaddMC16 d b s
  | .fmulMC16 d b => Sys2Proof.Machine.execFmulMC16 d b s
  | .braS e => Sys2Proof.Machine.execBraS e s
  | .nopC16 => Sys2Proof.Machine.execNopC16 s
  | .iaddS32 st rd ra rb => Sys2Proof.Machine.execIaddS32 st rd ra rb s
  | .isubS32 st rd ra rb => Sys2Proof.Machine.execIsubS32 st rd ra rb s
  | .imulS32 st rd ra rb => Sys2Proof.Machine.execImulS32 st rd ra rb s
  | .imulhS32 st rd ra rb => Sys2Proof.Machine.execImulhS32 st rd ra rb s
  | .iminS32 st rd ra rb => Sys2Proof.Machine.execIminS32 st rd ra rb s
  | .imaxS32 st rd ra rb => Sys2Proof.Machine.execImaxS32 st rd ra rb s
  | .andS32 st rd ra rb => Sys2Proof.Machine.execAndS32 st rd ra rb s
  | .orS32 st rd ra rb => Sys2Proof.Machine.execOrS32 st rd ra rb s
  | .xorS32 st rd ra rb => Sys2Proof.Machine.execXorS32 st rd ra rb s
  | .andnS32 st rd ra rb => Sys2Proof.Machine.execAndnS32 st rd ra rb s
  | .shlS32 st rd ra rb => Sys2Proof.Machine.execShlS32 st rd ra rb s
  | .shrS32 st rd ra rb => Sys2Proof.Machine.execShrS32 st rd ra rb s
  | .sarS32 st rd ra rb => Sys2Proof.Machine.execSarS32 st rd ra rb s
  | .rotlS32 st rd ra rb => Sys2Proof.Machine.execRotlS32 st rd ra rb s
  | .faddS32 st m rd ra rb => Sys2Proof.Machine.execFaddS32 st m rd ra rb s
  | .fsubS32 st m rd ra rb => Sys2Proof.Machine.execFsubS32 st m rd ra rb s
  | .fmulS32 st m rd ra rb => Sys2Proof.Machine.execFmulS32 st m rd ra rb s
  | .fminS32 st m rd ra rb => Sys2Proof.Machine.execFminS32 st m rd ra rb s
  | .fmaxS32 st m rd ra rb => Sys2Proof.Machine.execFmaxS32 st m rd ra rb s
  | .fdivS32 st m rd ra rb => Sys2Proof.Machine.execFdivS32 st m rd ra rb s
  | .movS32 st m rd ra => Sys2Proof.Machine.execMovS32 st m rd ra s
  | .popcS32 st rd ra => Sys2Proof.Machine.execPopcS32 st rd ra s
  | .clzS32 st rd ra => Sys2Proof.Machine.execClzS32 st rd ra s
  | .freluS32 st m rd ra => Sys2Proof.Machine.execFreluS32 st m rd ra s
  | .fsqreluS32 st m rd ra => Sys2Proof.Machine.execFsqreluS32 st m rd ra s
  | .frcpS32 st m rd ra => Sys2Proof.Machine.execFrcpS32 st m rd ra s
  | .fsqrtS32 st m rd ra => Sys2Proof.Machine.execFsqrtS32 st m rd ra s
  | .frsqS32 st m rd ra => Sys2Proof.Machine.execFrsqS32 st m rd ra s
  | .fexp2S32 st m rd ra => Sys2Proof.Machine.execFexp2S32 st m rd ra s
  | .flog2S32 st m rd ra => Sys2Proof.Machine.execFlog2S32 st m rd ra s
  | .ftanhS32 st m rd ra => Sys2Proof.Machine.execFtanhS32 st m rd ra s
  | .fsigmS32 st m rd ra => Sys2Proof.Machine.execFsigmS32 st m rd ra s
  | .tailWrite p d q v => Sys2Proof.Machine.execTailWrite p d q v s
  | .queueTableWrite p q w v => Sys2Proof.Machine.execQueueTableWrite p q w v s
  | .queueSwitchIn q => Sys2Proof.Machine.execQueueSwitchIn q s
  | .queueSwitchOut q => Sys2Proof.Machine.execQueueSwitchOut q s
  | .commandAccept q => Sys2Proof.Machine.execCommandAccept q s
  | .launchEntryAccept c d => Sys2Proof.Machine.execLaunchEntryAccept c d s
  | .launchQueueSpace t g => Sys2Proof.Machine.execLaunchQueueSpace t g s
  | .descriptorCheck g => Sys2Proof.Machine.execDescriptorCheck g s
  | .predecessorDecrement n => Sys2Proof.Machine.execPredecessorDecrement n s
  | .teamHandOut g => Sys2Proof.Machine.execTeamHandOut g s
  | .teamEnd t => Sys2Proof.Machine.execTeamEnd t s
  | .gridCompletion g => Sys2Proof.Machine.execGridCompletion g s
  | .completionRecord g => Sys2Proof.Machine.execCompletionRecord g s
  | .eventRingTimeout d k => Sys2Proof.Machine.execEventRingTimeout d k s
  | .preempt p c => Sys2Proof.Machine.execPreempt p c s
  | .resume p c => Sys2Proof.Machine.execResume p c s
  | .contextReset p c => Sys2Proof.Machine.execContextReset p c s
  | .contextDestroy p c => Sys2Proof.Machine.execContextDestroy p c s
  | .contextPurgeComplete c => Sys2Proof.Machine.execContextPurgeComplete c s
  | .contextEnable p c => Sys2Proof.Machine.execContextEnable p c s
  | .deadlineExpiry c => Sys2Proof.Machine.execDeadlineExpiry c s
  | .drainEnd c => Sys2Proof.Machine.execDrainEnd c s
  | .purgeGo p w => Sys2Proof.Machine.execPurgeGo p w s
  | .purgeComplete w => Sys2Proof.Machine.execPurgeComplete w s
  | .freplyRetry p c seq => Sys2Proof.Machine.execFreplyRetry p c seq s
  | .freplyDecline p c seq => Sys2Proof.Machine.execFreplyDecline p c seq s
  | .faultRecordWrite c => Sys2Proof.Machine.execFaultRecordWrite c s
  | .pageWalk n => Sys2Proof.Machine.execPageWalk n s
  | .authorityMove p dst => Sys2Proof.Machine.execAuthorityMove p dst s
  | .deviceReset p => Sys2Proof.Machine.execDeviceReset p s
  | .perst p => Sys2Proof.Machine.execPerst p s
  | .portReset p => Sys2Proof.Machine.execPortReset p s
  | .pcieLinkDown p => Sys2Proof.Machine.execPcieLinkDown p s
  | .contextApertureAccess p off a => Sys2Proof.Machine.execContextApertureAccess p off a s
  | .physicalApertureAccess p off a => Sys2Proof.Machine.execPhysicalApertureAccess p off a s
  | .registerWrite p off wide v => Sys2Proof.Machine.execRegisterWrite p off wide v s
  | .firmwareGo p => Sys2Proof.Machine.execFirmwareGo p s
  | .firmwareVerifyDone => Sys2Proof.Machine.execFirmwareVerifyDone s
  | .identityDerivation => Sys2Proof.Machine.execIdentityDerivation s
  | .getVersion p => Sys2Proof.Machine.execGetVersion p s
  | .getCapabilities p => Sys2Proof.Machine.execGetCapabilities p s
  | .negotiateAlgorithms p => Sys2Proof.Machine.execNegotiateAlgorithms p s
  | .getDigests p => Sys2Proof.Machine.execGetDigests p s
  | .getCertificate p slot off len => Sys2Proof.Machine.execGetCertificate p slot off len s
  | .challenge p slot nonce => Sys2Proof.Machine.execChallenge p slot nonce s
  | .getMeasurements p idx sign nonce => Sys2Proof.Machine.execGetMeasurements p idx sign nonce s
  | .cool p => Sys2Proof.Machine.execCool p s
  | .warm p => Sys2Proof.Machine.execWarm p s
  | .sensorSample temps => Sys2Proof.Machine.execSensorSample temps s
  | .bandHoldExpiry => Sys2Proof.Machine.execBandHoldExpiry s
  | .coldHoldExpiry => Sys2Proof.Machine.execColdHoldExpiry s
  | .runIdleExpiry => Sys2Proof.Machine.execRunIdleExpiry s
  | .warmingHoldExpiry => Sys2Proof.Machine.execWarmingHoldExpiry s
  | .sweepComplete k => Sys2Proof.Machine.execSweepComplete k s
  | .haltDrainExpiry => Sys2Proof.Machine.execHaltDrainExpiry s
  | .powerOn => Sys2Proof.Machine.execPowerOn s
  | .tripResetRelease => Sys2Proof.Machine.execTripResetRelease s
  | .scrubRead k e => Sys2Proof.Machine.execScrubRead k e s
  | .dramHashChange k => Sys2Proof.Machine.execDramHashChange k s
  | .migrationRowMove k rows e => Sys2Proof.Machine.execMigrationRowMove k rows e s
  | .droopEvent core => Sys2Proof.Machine.execDroopEvent core s
  | .droopMarkExpiry core => Sys2Proof.Machine.execDroopMarkExpiry core s
  | .storeDrain t g => Sys2Proof.Machine.execStoreDrain t g s
  | .loadComplete t g id => Sys2Proof.Machine.execLoadComplete t g id s
  | .dramAccess k a => Sys2Proof.Machine.execDramAccess k a s
  | .getS m => Sys2Proof.Machine.execGetS m s
  | .getM m => Sys2Proof.Machine.execGetM m s
  | .upgrade m => Sys2Proof.Machine.execUpgrade m s
  | .putM m => Sys2Proof.Machine.execPutM m s
  | .putS m => Sys2Proof.Machine.execPutS m s
  | .forwardedWrite m => Sys2Proof.Machine.execForwardedWrite m s
  | .inv m => Sys2Proof.Machine.execInv m s
  | .ack m => Sys2Proof.Machine.execAck m s
  | .fwd m => Sys2Proof.Machine.execFwd m s
  | .data m => Sys2Proof.Machine.execData m s
  | .enlargerEpoch d => Sys2Proof.Machine.execEnlargerEpoch d s
  | .atomPerform t g id => Sys2Proof.Machine.execAtomPerform t g id s
  | .atomicopCompletion t g id ur => Sys2Proof.Machine.execAtomicopCompletion t g id ur s
  | .fenceComplete t g => Sys2Proof.Machine.execFenceComplete t g s
  | .txOpen t g => Sys2Proof.Machine.execTxOpen t g s
  | .txConflictAbort t g lane => Sys2Proof.Machine.execTxConflictAbort t g lane s
  | .developPerform t => Sys2Proof.Machine.execDevelopPerform t s
  | .copyChunk t id lane => Sys2Proof.Machine.execCopyChunk t id lane s
  | .bulkChunk core id chunk => Sys2Proof.Machine.execBulkChunk core id chunk s
  | .bulkQueueAccept t g => Sys2Proof.Machine.execBulkQueueAccept t g s
  | .barrierArrivalApply t g => Sys2Proof.Machine.execBarrierArrivalApply t g s
  | .remoteWriteArrival pkt => Sys2Proof.Machine.execRemoteWriteArrival pkt s
  | .remoteWriteAck id chunk => Sys2Proof.Machine.execRemoteWriteAck id chunk s
  | .remoteReadArrival pkt => Sys2Proof.Machine.execRemoteReadArrival pkt s
  | .remoteReadResponse id chunk bytes poison => Sys2Proof.Machine.execRemoteReadResponse id chunk bytes poison s
  | .remoteRetry id chunk => Sys2Proof.Machine.execRemoteRetry id chunk s
  | .transportGiveUp id => Sys2Proof.Machine.execTransportGiveUp id s
  | .tileQueueAccept t g => Sys2Proof.Machine.execTileQueueAccept t g s
  | .tloopStep core id => Sys2Proof.Machine.execTloopStep core id s
  | .thadRow core id => Sys2Proof.Machine.execThadRow core id s
  | .tqntRow core id => Sys2Proof.Machine.execTqntRow core id s
  | .waitlPassEnd t g lane => Sys2Proof.Machine.execWaitlPassEnd t g lane s
  | .yieldHoldEnd t g => Sys2Proof.Machine.execYieldHoldEnd t g s
  | .budgetExpiry t => Sys2Proof.Machine.execBudgetExpiry t s
  | .trapDelivery t => Sys2Proof.Machine.execTrapDelivery t s
  | .trapRecordWrite t => Sys2Proof.Machine.execTrapRecordWrite t s
  | .flitReplay l ok => Sys2Proof.Machine.execFlitReplay l ok s
  | .linkDown l => Sys2Proof.Machine.execLinkDown l s
  | .sramUncorrectable site => Sys2Proof.Machine.execSramUncorrectable site s
  | .fabricRefusal id chunk fatal counter => Sys2Proof.Machine.execFabricRefusal id chunk fatal counter s
  | .faultWaitPauseEnd c => Sys2Proof.Machine.execFaultWaitPauseEnd c s
  | .pcieLinkUp p => Sys2Proof.Machine.execPcieLinkUp p s
  | .ethernetLinkDown n => Sys2Proof.Machine.execEthernetLinkDown n s
  | .corePowerRemoval => Sys2Proof.Machine.execCorePowerRemoval s

end Sys2Proof.Machine
end

