-- ==== Sys2Proof/Machine/Sched.lean ====
section
/-! DEFINITION. What happens next: the agenda, the events that are due, the issue selection (R300), and the passing of cycles. -/

namespace Sys2Proof.Machine

/-- What a step does: stop, run an instruction or an event in a state, or go to a state. -/
inductive Plan where
  | stop (f : Fault)
  | run (i : Instr) (s : State)
  | goes (s : State)

/-- The cycles of a partition that an issue occupies: two in shape S (R300). -/
def issueSlots (core part : Nat) (i : Instr) : List (Nat × Nat) := List.replicate (if (formOf i).wide then 2 else 1) (core, part)

/-- The issue cycles still occupied when a cycle ends. -/
def slotsLeft : List (Nat × Nat) → List (Nat × Nat)
  | [] => []
  | e :: r => if r.contains e then e :: slotsLeft r else slotsLeft r

/-- A group issues: its instruction is fetched and decoded (R19, R20). Where it cannot be, the group traps ILLOP. -/
def State.issueGroup (s : State) (t g core part : Nat) : Plan :=
  match s.team t with
  | none => .goes s
  | some r =>
    match (r.groups.find g).bind Group.issueAddr with
    | none => .goes s
    | some a =>
      let s := { (s.unyield t g) with issuing := some ⟨t, g⟩ }
      match r.fetch a.toNat with
      | .instr i _ => .run i { s with spent := issueSlots core part i ++ s.spent }
      | .bad _ => .goes { s with spent := (core, part) :: s.spent }.illop
      | .need _ => .goes { s with issuing := none, spent := (core, part) :: s.spent }

/-- How long a group has been ready. -/
def Group.waited (g : Group) (cycle : Nat) : Nat :=
  match g.readySince with
  | some c => cycle - c
  | none => 0

/-- Whether the first of two ready groups issues before the second (R300): urgent groups by their wait, then the class, the
order of placement, GROUP. -/
def Group.before (cycle : Nat) (p q : Nat) (a b : Group) (i j : Nat) : Bool :=
  let ua := decide (32 ≤ a.waited cycle)
  let ub := decide (32 ≤ b.waited cycle)
  if ua != ub then ua
  else if ua && a.waited cycle != b.waited cycle then decide (b.waited cycle < a.waited cycle)
  else if p != q then decide (q < p)
  else if a.order != b.order then decide (a.order < b.order)
  else decide (i < j)

/-- The group that a partition issues for (R300). -/
def State.select (s : State) (core part : Nat) : Option (Nat × Nat) :=
  (((s.resident core part).filter fun e => s.ready e.1 e.2).foldl
    (fun (m : Option (Nat × Nat × Nat × Group)) e =>
      match s.team e.1, s.group e.1 e.2 with
      | some r, some g =>
        match m with
        | none => some (e.1, e.2, r.prio, g)
        | some (t, n, p, b) => if Group.before s.clock.cycle r.prio p g b e.2 n then some (e.1, e.2, r.prio, g) else some (t, n, p, b)
      | _, _ => m) none).map fun m => (m.1, m.2.1)

/-! ### What the device does by itself -/

/-- An event of the opcode table, as its meaning. -/
abbrev Act := State → Out

/-- The events of a group that may be due. -/
def Group.events (g : Group) (t n : Nat) : List Act :=
  (if g.storeQ.isEmpty then [] else [execStoreDrain t n]) ++
  (g.loads.map fun l => execLoadComplete t n l.id) ++ (g.atoms.map fun a => execAtomPerform t n a.id) ++
  (if g.fences.isEmpty then [] else [execFenceComplete t n]) ++
  (if g.arrivals.isEmpty then [] else [execBarrierArrivalApply t n]) ++
  (match g.held with
   | .none => []
   | .tile _ => [execTileQueueAccept t n]
   | .bulk _ _ _ _ => [execBulkQueueAccept t n]
   | .launch _ _ _ _ _ _ _ => [execLaunchQueueSpace t n]
   | .txbeg _ _ _ _ => [execTxOpen t n]) ++
  (if g.yield.isSome then [execYieldHoldEnd t n] else []) ++
  (List.range 32).flatMap fun i =>
    (if (g.lane i).tx.isSome then [execTxConflictAbort t n i] else []) ++
    (if (g.lane i).pass = some 0 then [execWaitlPassEnd t n i] else [])

/-- The events of a team that may be due. -/
def TeamRec.events (r : TeamRec) (t : Nat) : List Act :=
  (r.groups.flatMap fun (e : Nat × Group) => e.2.events t e.1) ++
  (r.copies.flatMap fun c => c.lanes.map fun l => execCopyChunk t c.id l.1) ++
  [execDevelopPerform t, execBudgetExpiry t, execTeamEnd t]

/-- The events of a core's engines that may be due. -/
def State.coreEvents (s : State) (core : Nat) (k : CoreRec) : List Act :=
  let c : Fin 160 := Fin.ofNat 160 core
  (k.tileQ.map fun o =>
    match o.kind with
    | .loop _ _ _ => execTloopStep c o.id
    | .had _ _ => execThadRow c o.id
    | .qnt _ _ => execTqntRow c o.id) ++
  (k.bulkQ.flatMap fun b =>
    ((s.bulkNext core b).map fun e => execBulkChunk c b.id e) ++ [execTransportGiveUp b.id]) ++
  (if k.droop.isSome then [execDroopMarkExpiry c] else [])

/-- The event of a message. -/
def Msg.event (m : Msg) : Act :=
  match m.kind with
  | .getS => execGetS m.id
  | .getM => execGetM m.id
  | .upgrade => execUpgrade m.id
  | .putM | .putO => execPutM m.id
  | .putE | .putS => execPutS m.id
  | .fwdWrite => execForwardedWrite m.id
  | .inv => execInv m.id
  | .ack => execAck m.id
  | .fwd => execFwd m.id
  | .data => execData m.id

/-- The events of a context that may be due. -/
def ctxEvents (c : Nat) : List Act :=
  let c : Ctx := Fin.ofNat 64 c
  [execFaultRecordWrite c, execPurgeComplete (some c), execContextPurgeComplete c, execFaultWaitPauseEnd c]

/-- The end of a context's drain: its deadline comes after what ends in the same cycle (R304). -/
def drainEvents (c : Nat) : List Act :=
  let c : Ctx := Fin.ofNat 64 c
  [execDeadlineExpiry c, execDrainEnd c]

/-- The events of a grid that may be due. -/
def gridEvents (g : Nat) : List Act := [execDescriptorCheck g, execTeamHandOut g, execGridCompletion g, execCompletionRecord g]

/-- The events of a queue that may be due. -/
def queueEvents (q : Nat) : List Act :=
  let q : Fin 4096 := Fin.ofNat 4096 q
  [execQueueSwitchIn q, execCommandAccept q, execQueueSwitchOut q]

/-- The events of a die that may be due. -/
def DieRec.events (r : DieRec) (d : Nat) : List Act :=
  let d : Die := Fin.ofNat 4 d
  execEnlargerEpoch d :: r.rings.map fun (e : Nat × Ring) => execEventRingTimeout d (Fin.ofNat 16 e.1)

/-- The events of the package that may be due. A sweep ends within 16 ms (R377). -/
def State.pkgEvents (s : State) : List Act :=
  [execFirmwareVerifyDone, execIdentityDerivation, execPurgeComplete none, execBandHoldExpiry, execColdHoldExpiry, execRunIdleExpiry,
   execWarmingHoldExpiry, execHaltDrainExpiry] ++
  ((s.stackTab.filter fun (e : Nat × StackRec) => e.2.sweep.any fun t => decide (t + 16000000 * nsTicks ≤ s.clock.ticks)).map
    fun (e : Nat × StackRec) => execSweepComplete (Fin.ofNat 8 e.1))

/-- A host operation that waits, performed where it can be. -/
def hostEvent (i : Nat) : Act := clocked fun s => s.hostStep i

/-- Every event that may be due, in the order in which they are taken: memory first, then the engines, then the command
processors. A trap record comes after a deadline that expires in its cycle (R304, R354). -/
def State.candidates (s : State) : List Act :=
  ((List.range s.hostQ.length).map hostEvent) ++ (s.net.map Msg.event) ++ (s.walks.map fun w => execPageWalk w.id) ++
  (s.teams.flatMap fun (e : Nat × TeamRec) => e.2.events e.1) ++
  (s.cores.flatMap fun (e : Nat × CoreRec) => s.coreEvents e.1 e.2) ++
  (s.forwards.map fun b => execTransportGiveUp b.id) ++
  (s.ctxs.flatMap fun (e : Nat × CtxRec) => ctxEvents e.1) ++
  (s.decs.map fun d => execPredecessorDecrement d.id) ++
  (s.grids.flatMap fun (e : Nat × GridRec) => gridEvents e.1) ++
  (s.queues.flatMap fun (e : Nat × QueueRec) => queueEvents e.1) ++
  (s.ctxs.flatMap fun (e : Nat × CtxRec) => drainEvents e.1) ++ (s.teams.map fun (e : Nat × TeamRec) => execTrapRecordWrite e.1) ++
  (s.launchQ.map fun (e : Nat × List LaunchEnt) => execLaunchEntryAccept (Fin.ofNat 64 (e.1 / 4)) (Fin.ofNat 4 e.1)) ++
  ((List.range 4).flatMap fun d => (s.die d).events d) ++ s.pkgEvents

/-- The state after the next event that is due: the first that changes something. -/
def State.nextEvent (s : State) : Option State :=
  s.candidates.findSome? fun f =>
    match f s with
    | .next t => if t ≠ s then some t else none
    | _ => none

/-! ### Issue slots and fetching -/

/-- The next partition that issues in this cycle. -/
def State.nextIssue (s : State) : Option (Nat × Nat × Nat × Nat) :=
  (s.teams.flatMap fun (e : Nat × TeamRec) => e.2.groups.map fun (k : Nat × Group) => (e.2.core, k.2.part)).findSome? fun c =>
    if s.spent.contains c then none else (s.select c.1 c.2).map fun g => (g.1, g.2, c.1, c.2)

/-- The code that a group waits for. -/
def State.codeNeed (s : State) (t g : Nat) : Option Nat :=
  match s.team t, s.group t g with
  | some r, some k =>
    if !s.unheld t g r k then none
    else match k.issueAddr with
      | none => none
      | some a => match r.fetch a.toNat with | .need c => some c | _ => none
  | _, _ => none

/-- A fetch that would change something. -/
def State.nextFetch (s : State) : Option State :=
  (s.teams.flatMap fun (e : Nat × TeamRec) => e.2.groups.map fun (k : Nat × Group) => (e.1, k.1)).findSome? fun e =>
    match s.codeNeed e.1 e.2 with
    | none => none
    | some c => let t := s.fetchCode e.1 e.2 c; if t ≠ s then some t else none

/-! ### The end of a cycle -/

/-- Whether an access is one at which a group of a team waits: an engine's is not, and a develop is where a DEVELOP began it (R191). -/
def Req.standsGroup (q : Req) (r : TeamRec) (t : Nat) : Bool :=
  match q with
  | .load t' _ _ | .store t' _ | .atom t' _ _ | .fetch t' _ | .tx t' _ => t' == t
  | .develop t' => t' == t && r.dev.any fun d => d.grp.isSome
  | _ => false

/-- Whether a group of a team waits on a replayable fault, or is held by a purge (R272, R326). -/
def State.groupWaits (s : State) (t : Nat) (r : TeamRec) : Bool :=
  (s.faults.any fun f => f.status == 0 && f.reqs.any fun q => q.1.standsGroup r t) || s.holds.any fun h => h.req.standsGroup r t

/-- Whether a cycle counts against a team's budget (R272): a group is live, and none waits on a replayable fault or a purge. -/
def State.budgetCounts (s : State) (t : Nat) (r : TeamRec) : Bool := r.trap.isNone && r.lowestLive.isSome && !s.groupWaits t r

/-- A group at the end of a cycle: how long it has been ready (R262), and whom its YIELD waits for (R269). -/
def State.groupCycle (s : State) (t n : Nat) (g : Group) : Group :=
  { g with readySince := if s.ready t n then some (g.readySince.getD s.clock.cycle) else none
           yield := g.yield.map fun y => (y.1, y.2.filter fun e => s.ready e.1 e.2) }

/-- A team at the end of a cycle. -/
def State.teamCycle (s : State) (t : Nat) (r : TeamRec) : TeamRec :=
  { r with budget := if s.budgetCounts t r then r.budget.map fun b => b - 1 else r.budget
           groups := r.groups.mapv fun n g => s.groupCycle t n g }

/-- The deadline timer of a context at the end of a cycle (R303). -/
def State.ctxCycle (s : State) (c : Nat) (r : CtxRec) : CtxRec :=
  if r.draining && !s.paused c then { r with left := r.left - s.thermal.band.cycleTicks } else r

/-- A team's trap delivered, where one is due (R354). -/
def State.deliverTrap (s : State) (t : Nat) : State :=
  match execTrapDelivery t s with
  | .next s => s
  | _ => s

/-- One cycle ends: the barrier events that fell in it are taken (R258), traps are delivered (R354), timers count. -/
def State.tick (s : State) : State :=
  let s := s.teams.keys.foldl (fun (s : State) t => s.barCycle t) s
  let s := s.teams.keys.foldl (fun (s : State) t => s.deliverTrap t) s
  { s with
    clock := ⟨s.clock.ticks + s.thermal.band.cycleTicks, s.clock.cycle + 1⟩, spent := slotsLeft s.spent
    teams := s.teams.mapv fun t r => s.teamCycle t r
    ctxs := s.ctxs.mapv fun c r => s.ctxCycle c r }

/-! ### The plan -/

/-- What happens without an entry of the agenda: an event that is due, an issue, a fetch, or the end of the cycle. Where the
clocks stand nothing does (R372), but for a held reset that is due (R373). -/
def State.alone (s : State) : Plan :=
  match s.thermal.state with
  | .off => .stop .powerOff
  | .tripped => if s.thermal.heldReset && s.coolEnough then .goes s.deviceReset else .stop .clocksStopped
  | _ =>
    match s.nextEvent with
    | some t => .goes t
    | none =>
      match s.nextIssue with
      | some (t, g, core, part) => s.issueGroup t g core part
      | none =>
        match s.nextFetch with
        | some t => .goes t
        | none => .goes s.tick

/-- An L1 line evicted: its dirty bytes go home first (R169). -/
def State.evictL1 (s : State) (core line : Nat) : State :=
  (s.l1WriteBack core line).l1Drop core fun l => l == line

/-- An entry of the agenda that runs the device, where the clocks run. -/
def State.clockedPlan (s : State) (p : State → Plan) : Plan := if s.live then p s else .goes s

/-- What the next step does. The agenda comes first: what the outside does, and the choices that the device is free to make. -/
def State.plan (s : State) : Plan :=
  match s.agenda with
  | [] => s.alone
  | turn :: rest =>
    let s := { s with agenda := rest }
    match turn with
    | .event i => .run i s
    | .issue core part =>
      s.clockedPlan fun s =>
        match s.select core part with
        | some (t, g) => if s.spent.contains (core, part) then .goes s else s.issueGroup t g core part
        | none => .goes s
    | .cycles n => s.clockedPlan fun s =>
        match n with
        | 0 => .goes s
        | n + 1 => .goes ({ s with agenda := if n = 0 then rest else .cycles n :: rest }.tick)
    | .evictL1 core line => s.clockedPlan fun s => .goes (s.evictL1 core line)
    | .evictSlice die line => s.clockedPlan fun s => .goes (s.evictCopy die line)

/-! ### A word placed where the next step fetches it -/

/-- A chunk of code with bytes placed from `lo` on. -/
def codeChunk (old : BitVec 128) (chunk lo w n : Nat) : BitVec 128 :=
  (List.range 16).foldl (fun (acc : BitVec 128) i =>
    let a := 16 * chunk + i
    let b := if lo ≤ a ∧ a < lo + n then w / 256 ^ (a - lo) % 256 else (old.extractLsb' (8 * i) 8).toNat
    acc ||| (BitVec.ofNat 128 b <<< (8 * i))) 0

/-- A team's code with an instruction of `n` bytes at `lo`. -/
def TeamRec.place (r : TeamRec) (lo w n : Nat) : TeamRec :=
  let put := fun (c : Tab (BitVec 128)) k => c.ins k (codeChunk (Tab.get 0 c k) k lo w n)
  { r with icode := put (put r.icode (lo / 16)) ((lo + n - 1) / 16), d := { r.d with clen := max r.d.clen (lo + n) } }

/-- A group at its start (R248) with 32 live lanes at LPC 0. -/
def Group.fresh : Group :=
  { role := 0, part := 0, order := 0, lanes := List.replicate 32 ⟨0, true, none, [], 0, [], List.replicate 4 ⟨0, 0, false, 0⟩, none⟩,
    gregs := [], nctl := 0, stalls := 0, latch := none, dist := 0, notBefore := 0, prods := [], storeQ := [], loads := [],
    atoms := [], fences := [], arrivals := [], wait := .none, held := .none, yield := none, readySince := none }

/-- The team that stands for a loaded program: one group of 512 words on core 0, with 16 barriers and 4 banks. -/
def TeamRec.loaded : TeamRec :=
  { ctx := 0, grid := 0, num := 0, gx := 0, gy := 0, gz := 0, core := 0,
    d := { code := 0, clen := 0, gregs := 0, barriers := 16, banks := 4, latent := false, prio := 0, seed := 0, nx := 1, ny := 1,
           nz := 1, pred := 0, args := 0, budget := 0, roles := [⟨0, 512, 1⟩], succs := [] },
    task := 0, prio := 0, budget := none, groups := [(0, Group.fresh)], bars := List.replicate 16 ⟨1, 0, 0, false, 0⟩,
    banks := [0, 1, 2, 3], ver := .empty, dev := none, partDev := false, escapes := 0, dispatches := 1, handler := none, icode := [],
    barq := [], ports := [], copies := [], conds := [], trap := none }

/-- The state with an instruction placed at the issue address of the group that issues next, which then issues (assumption
5). Where no group is ready on the first partition of core 0, the loaded team stands there. -/
def State.placeNext (s : State) (w n : Nat) : State :=
  let s := { s with agenda := [.issue 0 0], spent := s.spent.filter fun e => e != (0, 0) }
  match s.select 0 0 with
  | some (t, g) =>
    match (s.group t g).bind Group.issueAddr with
    | some a => s.updTeam t fun r => r.place a.toNat w n
    | none => s
  | none =>
    { s with teams := Tab.ins (s.teams.filter fun e => decide (e.2.core ≠ 0)) s.nextId (TeamRec.loaded.place 0 w n),
             nextId := s.nextId + 1 }

end Sys2Proof.Machine
end

