-- ==== Sys2Proof/Machine/Step.lean ====
section
/-! DEFINITION. The step: what comes next by `State.plan`, and the meaning of what is run. -/

namespace Sys2Proof.Machine

/-- One step of the machine. -/
def step (s : State) : Host.Outcome State Fault Refusal :=
  match s.plan with
  | .stop f => .fault f
  | .run i s' => exec i s'
  | .goes s' => .next s'

/-- The state with the instruction of an opcode-table word placed where the next step fetches (assumption 5). The
instruction's bits above `nbits` are 0, up to eight bytes. -/
def State.withFetchWord (s : State) (_nbits w : Nat) : State := s.placeNext (w % 2 ^ 64) 8

end Sys2Proof.Machine
end

