-- ==== Sys2Proof/Safety.lean ====
section
/-! DEFINITION. What counts as a safe run, and the terms in which claims about an issue are stated: when an instruction issues
without a trap, and what an instruction that only writes its destination leaves behind. -/

namespace Sys2Proof.Machine

/-- `n` steps, as long as each answers a next state. -/
def steps : Nat → State → Host.Outcome State Fault Refusal
  | 0, s => .next s
  | n + 1, s =>
    match step s with
    | .next t => steps n t
    | .fault f => .fault f
    | .refused r => .refused r

/-- No run of any length stops. -/
def Safe (s : State) : Prop := ∀ n, ∃ t, steps n s = .next t

/-! ### Issuing -/

/-- The group `x` of `s` issues an instruction of form `f`, and no check of R46 that its operands face stops it: its register names
are aligned and inside the allocation (R30), under STRICT no result is read too early, but by a tile instruction (R40, R154), and every
relay source holds an entry of its class in the executing lanes (R38). -/
structure Admits (f : Form) (s : State) (x : Ix) : Prop where
  here : s.ix f = some x
  names : f.illreg (x.team.alloc x.grp) = none
  timely : x.grp.strict = true → f.loose = false → f.shortfall x.grp x.at_ = none
  relays : ∀ u ∈ f.uses, u.relayFails x.grp x.ex = []

/-- The same, and no executing lane reads a mark (R95). -/
structure Issues (f : Form) (s : State) (x : Ix) : Prop extends Admits f s x where
  clean : x.poisoned f = []

/-- No lane, executing or not, reads a mark: what the lane network asks for (R95). -/
def Ix.Unmarked (x : Ix) (f : Form) : Prop := ∀ l ∈ x.ins f, ∀ b ∈ l.marked, b = false

/-! ### The operands of a lane, by name -/

/-- The words of a source in a lane. -/
def Ix.span (x : Ix) (i : Nat) (r : Src) (sh : Shape) : List Word := ((use 0 r sh).read x.grp i).map (·.bits)

/-- The first word of a source in a lane. -/
def Ix.word (x : Ix) (i : Nat) (r : Src) : Word := (x.span i r .P).getD 0 0

/-- Predicate `p` of a lane. -/
def Ix.pred (x : Ix) (i : Nat) (p : Pred) : Bool := (x.grp.lane i).pred p.val

/-- The slots a lane has. -/
def Ix.slots (x : Ix) (i : Nat) : List Slot := (x.grp.lane i).slots

/-- The dither of draw `j` in a lane under a mode: the word of Grain slot 3 under SR, none otherwise (R67). -/
def Ix.dither (x : Ix) (i : Nat) (m : Rm) (j : Nat) : Nat := if m = .sr then (x.grp.lane i).grain x.env i 3 j 0 else 0

/-- A lane's slots after `n` blocks of slot `k` have been taken. -/
def Ix.taken (x : Ix) (i k n : Nat) : List Slot := ((x.grp.lane i).consume k n).slots

/-- A lane's slots after `n` dithers under a mode. -/
def Ix.drawn (x : Ix) (i : Nat) (m : Rm) (n : Nat) : List Slot := if m = .sr then x.taken i 3 n else x.slots i

/-! ### What an issue leaves behind -/

/-- Word `n` of a lane that executes, after the words `ws` have gone to `d`. -/
def Dest.laneWord (d : Dest) (ws : List Word) (n : Nat) (old : RWord) : RWord :=
  match d with
  | .lane (.v k) _ => if k.val ≤ n ∧ n < k.val + ws.length then RWord.clean (ws.getD (n - k.val) 0) else old
  | _ => old

/-- Predicate `n` of a lane that executes, after the words `ws` have gone to `d`. -/
def Dest.lanePred (d : Dest) (ws : List Word) (n : Nat) (old : Bool) : Bool :=
  match d with
  | .pred k => if n = k.val ∧ n < 7 then ws.getD 0 0 != 0 else old
  | _ => old

/-- Scalar word `n`, after the words `ws` of the lowest executing lane have gone to `d` (R34). -/
def Dest.scalarWord (d : Dest) (ws : List Word) (n : Nat) (old : RWord) : RWord :=
  match d with
  | .scalar k _ => if k.val ≤ n ∧ n < k.val + ws.length then RWord.clean (ws.getD (n - k.val) 0) else old
  | _ => old

/-- The relay of a lane that executes: a lane destination pushes its result, even one written to `z` (R36). -/
def Dest.relayAfter (d : Dest) (f : Form) (born cyc : Nat) (ws : List Word) (old : List RelayEnt) : List RelayEnt :=
  match d with
  | .lane _ sh => (⟨sh, ws.map RWord.clean, f.lat, born, cyc, Option.none⟩ :: old).take 8
  | _ => old

/-- Lane `i` after an instruction that writes the words `ws` to `d` and leaves the slots `sl`. -/
structure LaneAfter (f : Form) (s : State) (x : Ix) (d : Dest) (i : Nat) (ws : List Word) (sl : List Slot) (l' : Lane) : Prop where
  live : l'.live = (x.grp.lane i).live
  tx : l'.tx = (x.grp.lane i).tx
  lpc : l'.lpc = if i ∈ x.at_ then x.pc + Word.ofNat f.len else (x.grp.lane i).lpc
  reg : ∀ n, l'.reg n = if i ∈ x.ex then d.laneWord ws n ((x.grp.lane i).reg n) else (x.grp.lane i).reg n
  pred : ∀ n, l'.pred n = if i ∈ x.ex then d.lanePred ws n ((x.grp.lane i).pred n) else (x.grp.lane i).pred n
  relay : l'.relay =
    if i ∈ x.ex then d.relayAfter f x.grp.dist s.clock.cycle ws (x.grp.lane i).relay else (x.grp.lane i).relay
  slots : l'.slots = if i ∈ x.ex then sl else (x.grp.lane i).slots
  pass : ∀ k, l'.pass = some k → ∃ m, (x.grp.lane i).pass = some m ∧ (k = m ∨ k = m - 1)

/-- A fixed-latency result that the scoreboard lists after an issue in the group `e` (R39, R40): a word of the instruction's
destination with its latency, or an earlier one that the instruction does not name again and that a consumer could still read too
early. That the instruction counts whichever lanes executed it is assumption 71. -/
def Listed (f : Form) (s : State) (e : Group) (p : Producer) : Prop :=
  (f.lat ≠ 0 ∧ ∃ r ∈ f.dest.refs, p = ⟨r, f.lat, e.dist, s.clock.cycle⟩) ∨
  (p ∈ e.prods ∧ p.reg ∉ f.dest.refs ∧ (e.dist + f.stall + 1 + f.wide.toNat < p.born + 8 ∨ s.clock.cycle < p.cyc + 8))

/-- A group after an instruction that only writes its destination: its lanes, its scalar registers and its scoreboard, and nothing
else. -/
structure GroupAfter (f : Form) (s : State) (x : Ix) (d : Dest) (val : Nat → List Word) (sl : Nat → List Slot) (g' : Group) :
    Prop where
  lanes : ∀ i, LaneAfter f s x d i (val i) (sl i) (g'.lane i)
  scalars : ∀ n, g'.greg n =
    match x.ex with
    | [] => x.grp.greg n
    | i :: _ => d.scalarWord (val i) n (x.grp.greg n)
  stalls : g'.stalls = if (f.shortfall x.grp x.at_).isSome then satInc x.grp.stalls else x.grp.stalls
  dist : g'.dist = x.grp.dist + f.stall + 1 + f.wide.toNat
  notBefore : g'.notBefore = s.clock.cycle + f.stall + 1 + f.wide.toNat
  prods : ∀ p, p ∈ g'.prods ↔ Listed f s x.grp p
  frame : { g' with lanes := x.grp.lanes, gregs := x.grp.gregs, stalls := x.grp.stalls, dist := x.grp.dist,
                    notBefore := x.grp.notBefore, prods := x.grp.prods, readySince := x.grp.readySince } = x.grp

/-- The state after an issue by the group of `x` that ends in the group `g'`: no group is issuing, and nothing else has changed. -/
def State.withGroup (s : State) (x : Ix) (g' : Group) : State :=
  { s with issuing := none, teams := s.teams.upd x.t fun r => { r with groups := r.groups.upd x.g fun _ => g' } }

/-- The state after an instruction of form `f` that wrote the words `val i` of each executing lane `i` to `d` and left the slots
`sl i`. -/
def Lands (f : Form) (s : State) (x : Ix) (d : Dest) (val : Nat → List Word) (sl : Nat → List Slot) (s' : State) : Prop :=
  ∃ g', s' = s.withGroup x g' ∧ GroupAfter f s x d val sl g'

/-- Wherever `i` issues, it answers a next state, in which the words `val` stand in the destination `d` and nothing else has
changed but the group's advance. -/
def Gives (i : Instr) (d : Dest) (val : Ix → Nat → List Word) : Prop :=
  ∀ s x, Issues (formOf i) s x → ∃ s', exec i s = .next s' ∧ Lands (formOf i) s x d (val x) x.slots s'

/-- The same for an instruction that moves its Grain slots. -/
def GivesSlots (i : Instr) (d : Dest) (val : Ix → Nat → List Word) (sl : Ix → Nat → List Slot) : Prop :=
  ∀ s x, Issues (formOf i) s x → ∃ s', exec i s = .next s' ∧ Lands (formOf i) s x d (val x) (sl x) s'

/-! ### Instructions that do more than write their destination -/

/-- The number in an address pair of a lane. -/
def Ix.addr (x : Ix) (i : Nat) (r : Base) : Nat := pairNat (x.span i (srcOfB r) .M)

/-- The address past the instruction. -/
def Ix.past (x : Ix) (f : Form) : Nat → Word := fun _ => x.pc + Word.ofNat f.len

/-- The issues left of a lane's pass once its group has issued (R251): a lane at the issue address keeps a pass that it has just
taken, and any other lane counts one off. -/
def Lane.passAfter (l : Lane) (here : Bool) : Option Nat :=
  match l.pass with
  | Option.none => Option.none
  | some k => if here then (if k = 0 then Option.none else some k) else some (k - 1)

/-- Whether a lane may be issued for after the issue. -/
def Group.open_ (e : Group) (x : Ix) (i : Nat) : Prop :=
  (e.lane i).live = true ∧
    ((e.lane i).passAfter (x.at_.contains i) = none ∨ (e.lane i).passAfter (x.at_.contains i) = some 0)

/-- The group `g'` is `e`, the group after the instruction's own effect, moved on: each executing lane to `jump`, the other lanes at
the address past the instruction, with the passes counted (R251), the scoreboard (R33, R40), and nothing else. -/
structure Advanced (f : Form) (s : State) (x : Ix) (jump : Nat → Word) (e g' : Group) : Prop where
  lanes : ∀ i, { g'.lane i with lpc := (e.lane i).lpc, pass := (e.lane i).pass } = e.lane i
  lpc : ∀ i, (g'.lane i).lpc =
    if i ∈ x.at_ then (if i ∈ x.ex then jump i else x.pc + Word.ofNat f.len) else (e.lane i).lpc
  pass : (∃ j, e.open_ x j) → ∀ i, (g'.lane i).pass = (e.lane i).passAfter (x.at_.contains i)
  freed : (¬ ∃ j, e.open_ x j) → ∀ i, (g'.lane i).pass = none
  stalls : g'.stalls = if (f.shortfall x.grp x.at_).isSome then satInc e.stalls else e.stalls
  dist : g'.dist = e.dist + f.stall + 1 + f.wide.toNat
  notBefore : g'.notBefore = s.clock.cycle + f.stall + 1 + f.wide.toNat
  prods : ∀ p, p ∈ g'.prods ↔ Listed f s e p
  frame : { g' with lanes := e.lanes, stalls := e.stalls, dist := e.dist, notBefore := e.notBefore, prods := e.prods,
                    readySince := e.readySince } = e

/-- The state `s'` is `s` with the group of `x` as `e`, moved on. -/
def Moved (f : Form) (s : State) (x : Ix) (jump : Nat → Word) (e : Group) (s' : State) : Prop :=
  ∃ g', s' = s.withGroup x g' ∧ Advanced f s x jump e g'

end Sys2Proof.Machine
end

