-- ==== Sys2Proof/Certificates/Slice0/Obligations.lean ====
section
/-! DEFINITION. The statements of this model, for the provers. -/

open Sys2Proof Sys2Proof.Machine

/-! ## Lane instructions (R98 to R127, R155 to R166) -/

/-- The integer instructions of R98 that add, multiply, compare and combine. -/
def IntegerArithmeticPart : Prop :=
  ∀ (h : Hd) (rd : Dst) (ra rb rc : Src) (u : Bool),
    Gives (.iadd h rd ra rb) (destOf rd .P) (fun x i => [x.word i ra + x.word i rb]) ∧
    Gives (.isub h rd ra rb) (destOf rd .P) (fun x i => [x.word i ra - x.word i rb]) ∧
    Gives (.imul h rd ra rb) (destOf rd .P) (fun x i => [x.word i ra * x.word i rb]) ∧
    Gives (.imulh h rd ra rb .s) (destOf rd .P) (fun x i =>
      [((x.word i ra).signExtend 64 * (x.word i rb).signExtend 64).extractLsb' 32 32]) ∧
    Gives (.imulh h rd ra rb .u) (destOf rd .P) (fun x i =>
      [((x.word i ra).zeroExtend 64 * (x.word i rb).zeroExtend 64).extractLsb' 32 32]) ∧
    Gives (.imulh h rd ra rb .su) (destOf rd .P) (fun x i =>
      [((x.word i ra).signExtend 64 * (x.word i rb).zeroExtend 64).extractLsb' 32 32]) ∧
    Gives (.imad h rd ra rb rc) (destOf rd .P) (fun x i => [x.word i ra * x.word i rb + x.word i rc]) ∧
    Gives (.imin h rd ra rb u) (destOf rd .P) (fun x i =>
      [if (if u then (x.word i ra).ult (x.word i rb) else (x.word i ra).slt (x.word i rb)) then x.word i ra else x.word i rb]) ∧
    Gives (.imax h rd ra rb u) (destOf rd .P) (fun x i =>
      [if (if u then (x.word i ra).ult (x.word i rb) else (x.word i ra).slt (x.word i rb)) then x.word i rb else x.word i ra]) ∧
    Gives (.iabs h rd ra) (destOf rd .P) (fun x i => [if (x.word i ra).toInt < 0 then -x.word i ra else x.word i ra]) ∧
    Gives (.and h rd ra rb) (destOf rd .P) (fun x i => [x.word i ra &&& x.word i rb]) ∧
    Gives (.or h rd ra rb) (destOf rd .P) (fun x i => [x.word i ra ||| x.word i rb]) ∧
    Gives (.xor h rd ra rb) (destOf rd .P) (fun x i => [x.word i ra ^^^ x.word i rb]) ∧
    Gives (.andn h rd ra rb) (destOf rd .P) (fun x i => [x.word i ra &&& ~~~x.word i rb])

/-- Bit `i` of the field that BFE extracts from `a` at `pos` with length `len` (R98). -/
def bfeBit (sg : Bool) (a pos len : Word) (i : Nat) : Bool :=
  if i < len.toNat then a.getLsbD (pos.toNat + i)
  else sg && decide (0 < len.toNat) && decide (len.toNat < 32) && a.getLsbD (pos.toNat + len.toNat - 1)

/-- Bit `i` of what BFI makes of `a` and `b` under `c` (R98). -/
def bfiBit (a b c : Word) (i : Nat) : Bool :=
  let pos := (c.extractLsb' 0 8).toNat
  let len := min (c.extractLsb' 8 8).toNat 32
  if pos ≤ i ∧ i < pos + len then a.getLsbD (i - pos) else b.getLsbD i

/-- `i` gives a word whose bits are `bit`, in the destination `d`. -/
def GivesBits (i : Instr) (d : Dest) (bit : Ix → Nat → Nat → Bool) : Prop :=
  ∃ w : Ix → Nat → Word, (∀ x l j, j < 32 → (w x l).getLsbD j = bit x l j) ∧ Gives i d fun x l => [w x l]

/-- The shifts, the fields and the bit counts of R98. -/
def Obligations.ShiftAndFieldResults : Prop :=
  ∀ (h : Hd) (rd : Dst) (ra rb rc : Src) (sg : Bool),
    Gives (.shl h rd ra rb) (destOf rd .P) (fun x i => [x.word i ra <<< (x.word i rb).toNat]) ∧
    Gives (.shr h rd ra rb) (destOf rd .P) (fun x i => [x.word i ra >>> (x.word i rb).toNat]) ∧
    GivesBits (.sar h rd ra rb) (destOf rd .P) (fun x i j =>
      if j + (x.word i rb).toNat < 32 then (x.word i ra).getLsbD (j + (x.word i rb).toNat) else (x.word i ra).getLsbD 31) ∧
    GivesBits (.rotl h rd ra rb) (destOf rd .P) (fun x i j =>
      (x.word i ra).getLsbD ((j + 32 - (x.word i rb).toNat % 32) % 32)) ∧
    GivesBits (.bfe h rd ra rb rc sg) (destOf rd .P) (fun x i j => bfeBit sg (x.word i ra) (x.word i rb) (x.word i rc) j) ∧
    GivesBits (.bfi h rd ra rb rc) (destOf rd .P) (fun x i j => bfiBit (x.word i ra) (x.word i rb) (x.word i rc) j) ∧
    Gives (.popc h rd ra) (destOf rd .P) (fun x i =>
      [BitVec.ofNat 32 ((List.range 32).filter fun j => (x.word i ra).getLsbD j).length]) ∧
    Gives (.clz h rd ra) (destOf rd .P) (fun x i =>
      [BitVec.ofNat 32 ((List.range 32).takeWhile fun j => !(x.word i ra).getLsbD (31 - j)).length]) ∧
    GivesBits (.brev h rd ra) (destOf rd .P) (fun x i j => (x.word i ra).getLsbD (31 - j))

/-- The immediate forms of R99: R98's results with the immediate sign-extended. -/
def ImmediateFormPart : Prop :=
  ∀ (h : Hd) (rd : LDst) (ra : LSrc) (imm : BitVec 28),
    let a := fun (x : Ix) i => x.word i (srcOfL ra)
    let e : Word := imm.signExtend 32
    Gives (.iaddImm h rd ra imm) (.lane rd .P) (fun x i => [a x i + e]) ∧
    Gives (.imulImm h rd ra imm) (.lane rd .P) (fun x i => [a x i * e]) ∧
    Gives (.andImm h rd ra imm) (.lane rd .P) (fun x i => [a x i &&& e]) ∧
    Gives (.orImm h rd ra imm) (.lane rd .P) (fun x i => [a x i ||| e]) ∧
    Gives (.xorImm h rd ra imm) (.lane rd .P) (fun x i => [a x i ^^^ e]) ∧
    Gives (.shlImm h rd ra imm) (.lane rd .P) (fun x i => [if imm.msb then 0 else a x i <<< imm.toNat]) ∧
    Gives (.shrImm h rd ra imm) (.lane rd .P) (fun x i => [if imm.msb then 0 else a x i >>> imm.toNat]) ∧
    Gives (.sarImm h rd ra imm) (.lane rd .P) (fun x i =>
      [(a x i).sshiftRight (if imm.msb then 31 else min imm.toNat 31)])

/-- The integer instructions with three registers, and the forms with an immediate (R98, R99). -/
def Obligations.IntegerArithmeticResults : Prop := IntegerArithmeticPart ∧ ImmediateFormPart

/-- ICMP, PLOP and PSET write a predicate, and p7 keeps reading true (R100, R101). -/
def PredicatePart : Prop :=
  ∀ (h : Hd) (pd pa pb pc : Pred) (ra rb : Src) (table : Fin 256) (k : Fin 32),
    let b := fun (v : Bool) => ([if v then 1 else 0] : List Word)
    (∀ u, Gives (.icmp h pd ra rb .eq u) (.pred pd) (fun x i => b (x.word i ra == x.word i rb))) ∧
    (∀ u, Gives (.icmp h pd ra rb .ne u) (.pred pd) (fun x i => b (x.word i ra != x.word i rb))) ∧
    Gives (.icmp h pd ra rb .lt false) (.pred pd) (fun x i => b ((x.word i ra).slt (x.word i rb))) ∧
    Gives (.icmp h pd ra rb .le false) (.pred pd) (fun x i => b ((x.word i ra).sle (x.word i rb))) ∧
    Gives (.icmp h pd ra rb .gt false) (.pred pd) (fun x i => b ((x.word i rb).slt (x.word i ra))) ∧
    Gives (.icmp h pd ra rb .ge false) (.pred pd) (fun x i => b ((x.word i rb).sle (x.word i ra))) ∧
    Gives (.icmp h pd ra rb .lt true) (.pred pd) (fun x i => b ((x.word i ra).ult (x.word i rb))) ∧
    Gives (.icmp h pd ra rb .le true) (.pred pd) (fun x i => b ((x.word i ra).ule (x.word i rb))) ∧
    Gives (.icmp h pd ra rb .gt true) (.pred pd) (fun x i => b ((x.word i rb).ult (x.word i ra))) ∧
    Gives (.icmp h pd ra rb .ge true) (.pred pd) (fun x i => b ((x.word i rb).ule (x.word i ra))) ∧
    Gives (.plop h pd pa pb pc table) (.pred pd) (fun x i =>
      b ((BitVec.ofNat 8 table.val).getLsbD (4 * (x.pred i pa).toNat + 2 * (x.pred i pb).toNat + (x.pred i pc).toNat))) ∧
    Gives (.pset h pd ra .nz) (.pred pd) (fun x i => b (x.word i ra != 0)) ∧
    Gives (.pset h pd ra .z) (.pred pd) (fun x i => b (x.word i ra == 0)) ∧
    Gives (.pset h pd ra (.bit k)) (.pred pd) (fun x i => b ((x.word i ra).getLsbD k.val)) ∧
    ∀ l : Lane, l.pred 7 = true

/-- A base register pair of a lane as one 64-bit number. -/
def Sys2Proof.Machine.Ix.base (x : Ix) (i : Nat) (r : Base) : BitVec 64 :=
  (x.span i (srcOfB r) .M).getD 1 0 ++ (x.span i (srcOfB r) .M).getD 0 0

/-- MOV, SEL, MOVI and LEA (R102): whole operands move bit for bit, and LEA's sum wraps at 64 bits. -/
def MovePart : Prop :=
  ∀ (h : Hd) (sh : Shape) (rd : Dst) (ra rb : Src) (pc : Pred) (imm : Word) (base : Base) (n : Fin 8) (sx : Bool),
    Gives (.mov h sh rd ra) (destOf rd sh) (fun x i => x.span i ra sh) ∧
    Gives (.sel h sh rd ra rb pc) (destOf rd sh) (fun x i => if x.pred i pc then x.span i ra sh else x.span i rb sh) ∧
    Gives (.movi h rd imm) (destOf rd .P) (fun _ _ => [imm]) ∧
    Gives (.lea h rd base rb n sx) (destOf rd .M) (fun x i =>
      let e : BitVec 64 := if sx then (x.word i rb).signExtend 64 else (x.word i rb).zeroExtend 64
      let v := x.base i base + e <<< n.val
      [v.extractLsb' 0 32, v.extractLsb' 32 32])

/-- The instructions that write a predicate, and those that move words (R100 to R102). -/
def Obligations.PredicateAndMoveResults : Prop := PredicatePart ∧ MovePart

/-! The compact and short forms (R43, R44). -/

/-- The compact integer forms do what R43's 64-bit instructions do: the first source is the destination register. -/
def CompactIntegerPart : Prop :=
  ∀ (d : Fin 64) (b : CSrc) (i5 : BitVec 5),
    let rd : Dest := .lane (.v (regOf6 d)) .P
    let p := fun (x : Ix) i => x.word i (.v (regOf6 d))
    let q := fun (x : Ix) i => x.word i (srcOfC b)
    Gives (.movC16 d b) rd (fun x i => x.span i (srcOfC b) .P) ∧
    Gives (.iaddC16 d b) rd (fun x i => [p x i + q x i]) ∧
    Gives (.isubC16 d b) rd (fun x i => [p x i - q x i]) ∧
    Gives (.andC16 d b) rd (fun x i => [p x i &&& q x i]) ∧
    Gives (.orC16 d b) rd (fun x i => [p x i ||| q x i]) ∧
    Gives (.xorC16 d b) rd (fun x i => [p x i ^^^ q x i]) ∧
    Gives (.shlC16 d b) rd (fun x i => [p x i <<< (q x i).toNat]) ∧
    Gives (.shrC16 d b) rd (fun x i => [p x i >>> (q x i).toNat]) ∧
    Gives (.iaddiC16 d i5) rd (fun x i => [p x i + i5.signExtend 32]) ∧
    Gives (.moviC16 d i5) rd (fun _ _ => [i5.signExtend 32])

/-- The short integer forms do what R44's 64-bit instructions do with modifier 0: IMULH and the minima are signed. -/
def ShortIntegerPart : Prop :=
  ∀ (st : Fin 4) (m : Bool) (rd : LDst) (ra : LSrc) (rb : SSrc),
    let p := fun (x : Ix) i => x.word i (srcOfL ra)
    let q := fun (x : Ix) i => x.word i (srcOfS rb)
    Gives (.iaddS32 st rd ra rb) (.lane rd .P) (fun x i => [p x i + q x i]) ∧
    Gives (.isubS32 st rd ra rb) (.lane rd .P) (fun x i => [p x i - q x i]) ∧
    Gives (.imulS32 st rd ra rb) (.lane rd .P) (fun x i => [p x i * q x i]) ∧
    Gives (.imulhS32 st rd ra rb) (.lane rd .P) (fun x i => [((p x i).signExtend 64 * (q x i).signExtend 64).extractLsb' 32 32]) ∧
    Gives (.iminS32 st rd ra rb) (.lane rd .P) (fun x i => [if (p x i).slt (q x i) then p x i else q x i]) ∧
    Gives (.imaxS32 st rd ra rb) (.lane rd .P) (fun x i => [if (p x i).slt (q x i) then q x i else p x i]) ∧
    Gives (.andS32 st rd ra rb) (.lane rd .P) (fun x i => [p x i &&& q x i]) ∧
    Gives (.orS32 st rd ra rb) (.lane rd .P) (fun x i => [p x i ||| q x i]) ∧
    Gives (.xorS32 st rd ra rb) (.lane rd .P) (fun x i => [p x i ^^^ q x i]) ∧
    Gives (.andnS32 st rd ra rb) (.lane rd .P) (fun x i => [p x i &&& ~~~q x i]) ∧
    Gives (.shlS32 st rd ra rb) (.lane rd .P) (fun x i => [p x i <<< (q x i).toNat]) ∧
    Gives (.shrS32 st rd ra rb) (.lane rd .P) (fun x i => [p x i >>> (q x i).toNat]) ∧
    Gives (.sarS32 st rd ra rb) (.lane rd .P) (fun x i => [(p x i).sshiftRight (min (q x i).toNat 31)]) ∧
    Gives (.rotlS32 st rd ra rb) (.lane rd .P) (fun x i => [(p x i).rotateLeft ((q x i).toNat % 32)]) ∧
    Gives (.movS32 st m rd ra) (.lane rd (mshape m)) (fun x i => x.span i (srcOfL ra) (mshape m)) ∧
    Gives (.popcS32 st rd ra) (.lane rd .P) (fun x i =>
      [BitVec.ofNat 32 ((List.range 32).filter fun j => (p x i).getLsbD j).length]) ∧
    Gives (.clzS32 st rd ra) (.lane rd .P) (fun x i =>
      [BitVec.ofNat 32 ((List.range 32).takeWhile fun j => !(p x i).getLsbD (31 - j)).length])

/-! Floats (R84, R103 to R110). -/

/-- A float instruction of a shape under a rounding mode: its value by `shaped`, and a dither for each mean or sample under SR
(R96). -/
def GivesFloat (i : Instr) (rd : LDst) (sh : Shape) (rm : Rm) (pre : List Fl → Pre) (prop : Env → List Mom → Prop1)
    (args : Ix → Nat → List (List Word)) : Prop :=
  GivesSlots i (.lane rd sh)
    (fun x l => shaped sh rm x.env.noise pre (prop x.env) (x.dither l rm) (args x l)) (fun x l => x.drawn l rm (draws sh))

/-- FADD, FSUB, FMUL, FFMA and FDIV: the exact result of the mean is rounded once, and the variance follows the derivatives of
R84 (R83, R103, R109). -/
def Obligations.FloatArithmeticResults : Prop :=
  ∀ (h : Hd) (sh : Shape) (rd : LDst) (ra rb rc : Src) (rm : Rm) (sec : Sec),
    let two := fun (x : Ix) l => [x.span l ra sh, x.span l rb sh]
    let three := fun (x : Ix) l => [x.span l ra sh, x.span l rb sh, x.span l rc sh]
    GivesFloat (.fadd h sh rd ra rb rm) rd sh rm (fun l => addPre rm (fl0 l) (fl1 l)) (fun _ => addProp false) two ∧
    GivesFloat (.fsub h sh rd ra rb rm) rd sh rm (fun l => addPre rm (fl0 l) (fl1 l).neg) (fun _ => addProp true) two ∧
    GivesFloat (.fmul h sh rd ra rb rm sec) rd sh rm (fun l => mulPre (fl0 l) (fl1 l)) (mulProp sec) two ∧
    GivesFloat (.ffma h sh rd ra rb rc rm sec) rd sh rm (fun l => addPre rm (mulFl (fl0 l) (fl1 l)) (fl2 l)) (fmaProp sec) three ∧
    GivesFloat (.fdiv h sh rd ra rb rm) rd sh rm (fun l => divPre (fl0 l) (fl1 l)) (fun _ => divProp) two

/-- The functions of one operand (R106, R109). -/
def FloatFunctionPart : Prop :=
  ∀ (h : Hd) (sh : Shape) (rd : LDst) (ra : Src) (rm : Rm),
    let fn := fun (i : Instr) (f : UnFn) =>
      GivesFloat i rd sh rm (fun l => f.pre (fl0 l)) (fun _ l => propagate [(mom0 l, f.der (mom0 l).mean)])
        (fun x l => [x.span l ra sh])
    fn (.frelu h sh rd ra rm) .relu ∧
    fn (.fsqrelu h sh rd ra rm) .sqrelu ∧
    fn (.frcp h sh rd ra rm) .rcp ∧
    fn (.fsqrt h sh rd ra rm) .sqrt ∧
    fn (.frsq h sh rd ra rm) .rsq ∧
    fn (.fexp2 h sh rd ra rm) .exp2 ∧
    fn (.flog2 h sh rd ra rm) .log2 ∧
    fn (.fsinpi h sh rd ra rm) .sinpi ∧
    fn (.fcospi h sh rd ra rm) .cospi ∧
    fn (.ftanh h sh rd ra rm) .tanh ∧
    fn (.fsigm h sh rd ra rm) .sigm

/-- The compact and short float forms: RNE, and the second order as NCTL sets it (R43, R44). -/
def ShortFloatPart : Prop :=
  ∀ (d : Fin 64) (b : CSrc) (st : Fin 4) (m : Bool) (rd : LDst) (ra : LSrc) (rb : SSrc),
    let c := fun (sh : Shape) (x : Ix) l => [x.span l (.v (regOf6 d)) sh, x.span l (srcOfC b) sh]
    let one := fun (x : Ix) l => [x.span l (srcOfL ra) (mshape m)]
    let two := fun (x : Ix) l => [x.span l (srcOfL ra) (mshape m), x.span l (srcOfS rb) (mshape m)]
    let add := fun (l : List Fl) => addPre .rne (fl0 l) (fl1 l)
    let fn := fun (i : Instr) (f : UnFn) =>
      GivesFloat i rd (mshape m) .rne (fun l => f.pre (fl0 l)) (fun _ l => propagate [(mom0 l, f.der (mom0 l).mean)]) one
    GivesFloat (.faddC16 d b) (.v (regOf6 d)) .P .rne add (fun _ => addProp false) (c .P) ∧
    GivesFloat (.faddMC16 d b) (.v (regOf6 d)) .M .rne add (fun _ => addProp false) (c .M) ∧
    GivesFloat (.fmulC16 d b) (.v (regOf6 d)) .P .rne (fun l => mulPre (fl0 l) (fl1 l)) (mulProp .nctl) (c .P) ∧
    GivesFloat (.fmulMC16 d b) (.v (regOf6 d)) .M .rne (fun l => mulPre (fl0 l) (fl1 l)) (mulProp .nctl) (c .M) ∧
    GivesFloat (.faddS32 st m rd ra rb) rd (mshape m) .rne add (fun _ => addProp false) two ∧
    GivesFloat (.fsubS32 st m rd ra rb) rd (mshape m) .rne (fun l => addPre .rne (fl0 l) (fl1 l).neg) (fun _ => addProp true) two ∧
    GivesFloat (.fmulS32 st m rd ra rb) rd (mshape m) .rne (fun l => mulPre (fl0 l) (fl1 l)) (mulProp .nctl) two ∧
    GivesFloat (.fdivS32 st m rd ra rb) rd (mshape m) .rne (fun l => divPre (fl0 l) (fl1 l)) (fun _ => divProp) two ∧
    fn (.freluS32 st m rd ra) .relu ∧
    fn (.fsqreluS32 st m rd ra) .sqrelu ∧
    fn (.frcpS32 st m rd ra) .rcp ∧
    fn (.fsqrtS32 st m rd ra) .sqrt ∧
    fn (.frsqS32 st m rd ra) .rsq ∧
    fn (.fexp2S32 st m rd ra) .exp2 ∧
    fn (.flog2S32 st m rd ra) .log2 ∧
    fn (.ftanhS32 st m rd ra) .tanh ∧
    fn (.fsigmS32 st m rd ra) .sigm

/-- The compact and the short forms give what their 64-bit equivalents give (R43, R44). -/
def Obligations.CompactAndShortResults : Prop := CompactIntegerPart ∧ ShortIntegerPart ∧ ShortFloatPart

/-- FMIN and FMAX choose an operand (R86, R105); FCMP compares means (R107) and FCLASS sets one bit for each word (R108); where its bits for the
variance word stand is assumption 86. -/
def FloatChoicePart : Prop :=
  ∀ (h : Hd) (sh : Shape) (st : Fin 4) (m : Bool) (pd : Pred) (rd : LDst) (ra rb : Src) (sa : LSrc) (sb : SSrc) (rm : Rm)
    (cond : FCond),
    let pick := fun (sh : Shape) (mx : Bool) (a b : List Word) =>
      match sh with
      | .P => [chooseWord mx (a.getD 0 0) (b.getD 0 0)]
      | .S => (List.range 8).map fun j => chooseWord mx (a.getD j 0) (b.getD j 0)
      | _ => (chooseMom mx (readMom a) (readMom b)).words sh
    GivesSlots (.fmin h sh rd ra rb rm) (.lane rd sh) (fun x l => pick sh false (x.span l ra sh) (x.span l rb sh))
      (fun x l => x.drawn l rm (draws sh)) ∧
    GivesSlots (.fmax h sh rd ra rb rm) (.lane rd sh) (fun x l => pick sh true (x.span l ra sh) (x.span l rb sh))
      (fun x l => x.drawn l rm (draws sh)) ∧
    Gives (.fminS32 st m rd sa sb) (.lane rd (mshape m)) (fun x l =>
      pick (mshape m) false (x.span l (srcOfL sa) (mshape m)) (x.span l (srcOfS sb) (mshape m))) ∧
    Gives (.fmaxS32 st m rd sa sb) (.lane rd (mshape m)) (fun x l =>
      pick (mshape m) true (x.span l (srcOfL sa) (mshape m)) (x.span l (srcOfS sb) (mshape m))) ∧
    Gives (.fcmp h sh pd ra rb cond) (.pred pd) (fun x l =>
      [if fcmp cond (f32 ((x.span l ra sh).getD 0 0)) (f32 ((x.span l rb sh).getD 0 0)) then 1 else 0]) ∧
    Gives (.fclass h sh rd ra) (.lane rd .P) (fun x l =>
      [BitVec.ofNat 32 (classMean ((x.span l ra sh).getD 0 0) + if sh = .M then classVar ((x.span l ra sh).getD 1 0) else 0)])

/-- Division and the functions, and the choices between two values (R104 to R111; assumptions 6 and 86). -/
def Obligations.FloatFunctionResults : Prop := FloatFunctionPart ∧ FloatChoicePart

/-! Conversions, moments and sample sets (R111 to R121). -/

/-- CVT and QUPK: one value or eight in their lane, by the formats and the mode (R66 to R75, R111, R113). A zero element of MXINT8 reads as
+0 (assumption 65). -/
def Obligations.ConversionResults : Prop :=
  ∀ (h : Hd) (sh : Shape) (rd : LDst) (ra : Src) (dst src : Fmt) (rm : Rm) (f : EFmt),
    GivesSlots (.cvt h sh rd ra dst src rm) (.lane rd (if sh = .P then fmtShape dst else sh)) (fun x l =>
        let a := x.span l ra (if sh = .P then fmtShape src else sh)
        match sh with
        | .P => natWords (fmtShape dst) (convertP dst rm (x.dither l rm 0) (fmtDecode src (wordsNat a)))
        | .S => (List.range 8).map fun j => word32 (convertF dst rm (x.dither l rm j) (f32 (a.getD j 0)))
        | _ => convertMom sh dst rm (x.dither l rm 0) (readMom a))
      (fun x l => x.drawn l rm (draws sh)) ∧
    Gives (.qupk h rd ra f) (.lane rd .P) (fun x l =>
      [elemWord f ((x.word l ra).toNat / 256 % 256) ((x.word l ra).toNat % 2 ^ elemWidth f)])

/-- The moment instructions (R114 to R119) and SSTAT (R121). An exact cancellation in MCOV gives +0 (assumption 88). -/
def MomentPart : Prop :=
  ∀ (h : Hd) (sh : Shape) (rd : LDst) (ra rb : Src) (neg : Bool) (sel : FoldSel),
    Gives (.mmk h sh rd ra rb) (.lane rd sh) (fun x l =>
      momWords sh (if (f32 (x.word l ra)).isNan then nan32 else x.word l ra) (builtVar (x.word l ra) (x.word l rb)) []) ∧
    Gives (.mspl h sh rd ra) (.lane rd .P) (fun x l =>
      let m := readMom (x.span l ra sh)
      [if m.mean.isNan then nan32 else rup32 (m.var.map Rl.q)]) ∧
    Gives (.maddv h sh rd ra rb) (.lane rd sh) (fun x l =>
      let m := readMom (x.span l ra sh)
      ({ m with res := addInf m.res (readVar (x.word l rb)) } : Mom).words sh) ∧
    Gives (.mtag h rd ra rb neg) (.lane rd .Q) (fun x l =>
      (tagMom (readMom (x.span l ra .Q)) ((x.word l rb).toNat % 65536) neg).words .Q) ∧
    Gives (.mcov h rd ra rb) (.lane rd .P) (fun x l => [covWord (readMom (x.span l ra .Q)) (readMom (x.span l rb .Q))]) ∧
    Gives (.mfold h rd ra sel) (.lane rd .Q) (fun x l => (foldMom sel (x.span l ra .Q)).words .Q) ∧
    Gives (.sstat h rd ra) (.lane rd .M) (fun x l => sampleStats x.env.noise (x.span l ra .S))

/-! The Grain unit (R155 to R166). -/

/-- A word of a lane's own stream: word `j` of the block `b` after the lane's index in slot `k`. -/
def Sys2Proof.Machine.Ix.grainWord (x : Ix) (l k b j : Nat) : Nat := (x.grp.lane l).grain x.env l k b j

/-- A lane's eight words of two blocks of a slot. -/
def Sys2Proof.Machine.Ix.grain8 (x : Ix) (l k : Nat) : List Nat :=
  (List.range 8).map fun j => x.grainWord l k (j / 4) (j % 4)

/-- A slot replaced. -/
def putSlot (sl : List Slot) (k : Nat) (q : Slot) : List Slot := sl.modify k fun _ => q

/-- GSEED, GUNI, GNORM, GGUM, GBER and SDRAW: each takes the blocks of R158 from its lane's slot, and the index moves past them
(R120, R158 to R162). An exact zero of SDRAW is +0 (assumption 87). -/
def GrainPart : Prop :=
  ∀ (h : Hd) (rd : LDst) (ra rs : Src) (k : Fin 4) (weyl hi : Bool),
    let pair := fun (x : Ix) l => ((x.span l ra .M).getD 1 0 ++ (x.span l ra .M).getD 0 0 : BitVec 64)
    GivesSlots (.gseed h ra k (.seed weyl rs)) .none (fun _ _ => [])
      (fun x l => putSlot (x.slots l) k.val ⟨pair x l, (x.word l rs).truncate 16, weyl, 0⟩) ∧
    GivesSlots (.gseed h ra k .pos) .none (fun _ _ => [])
      (fun x l => (x.slots l).modify k.val fun q => { q with idx := pair x l }) ∧
    Gives (.guni h .P rd k (.idx hi)) (.lane rd .P) (fun x l =>
      [((x.grp.lane l).slot k.val).idx.extractLsb' (if hi then 32 else 0) 32]) ∧
    GivesSlots (.guni h .P rd k .draw) (.lane rd .P) (fun x l => [word32 (.num false (uniform (x.grainWord l k.val 0 0)))])
      (fun x l => x.taken l k.val 1) ∧
    GivesSlots (.guni h .S rd k .draw) (.lane rd .S) (fun x l =>
      (x.grain8 l k.val).map fun w => word32 (.num false (uniform w))) (fun x l => x.taken l k.val 2) ∧
    GivesSlots (.gnorm h .P rd k) (.lane rd .P) (fun x l => [(gauss (x.grainWord l k.val 0 0) (x.grainWord l k.val 0 1)).1])
      (fun x l => x.taken l k.val 1) ∧
    GivesSlots (.gnorm h .S rd k) (.lane rd .S) (fun x l => gauss8 (x.grain8 l k.val)) (fun x l => x.taken l k.val 2) ∧
    GivesSlots (.ggum h .P rd k) (.lane rd .P) (fun x l => [gumbel (x.grainWord l k.val 0 0)]) (fun x l => x.taken l k.val 1) ∧
    GivesSlots (.ggum h .S rd k) (.lane rd .S) (fun x l => (x.grain8 l k.val).map gumbel) (fun x l => x.taken l k.val 2) ∧
    GivesSlots (.gber h rd ra k) (.lane rd .P) (fun x l => [bernoulli (f32 (x.word l ra)) (x.grainWord l k.val 0 0)])
      (fun x l => x.taken l k.val 1) ∧
    GivesSlots (.sdraw h rd ra) (.lane rd .S) (fun x l =>
      let m := readMom (x.span l ra .M)
      (gauss8 (x.grain8 l 2)).map fun z => drawSample m (Rl.sqrt (m.res.getD Frac.zero)) (f32 z))
      (fun x l => x.taken l 2 2)

/-- The instructions that build and read moments, and the draws from the Grain (R113 to R121, R155 to R166; assumptions 65, 87,
88). -/
def Obligations.MomentAndGrainResults : Prop := MomentPart ∧ GrainPart

/-! The lane network (R122 to R127). -/

/-- Wherever `i` issues and no lane reads a mark, it gives the words `val`. -/
def GivesNet (i : Instr) (d : Dest) (val : Ix → Nat → List Word) (sl : Ix → Nat → List Slot) : Prop :=
  ∀ s x, Issues (formOf i) s x → x.Unmarked (formOf i) →
    ∃ s', exec i s = .next s' ∧ Lands (formOf i) s x d (val x) (sl x) s'

/-- The words of the executing lanes in lane order, and nothing for the others. -/
def Sys2Proof.Machine.Ix.given (x : Ix) (ra : Src) (sh : Shape) : List (Option (List Word)) :=
  (List.range 32).map fun j => if j ∈ x.ex then some (x.span j ra sh) else none

/-- SHFL, VOTE, MATCH, LRED and LSCN gather from the lanes of the group in a fixed order (R122 to R125). -/
def LaneNetworkPart : Prop :=
  ∀ (h : Hd) (sh : Shape) (rd : LDst) (ra rb : Src) (pa : Pred) (m : ShMode) (wl : Fin 6) (op : RedOp) (excl : Bool),
    let w := 32 / 2 ^ wl.val
    GivesNet (.shfl h sh rd ra rb m wl) (.lane rd sh) (fun x l =>
      x.span (shflSrc m w l (x.word l rb).toNat) ra sh) Ix.slots ∧
    GivesNet (.vote h rd pa .all) (.lane rd .P) (fun x _ => [if x.ex.all fun j => x.pred j pa then 1 else 0]) Ix.slots ∧
    GivesNet (.vote h rd pa .any) (.lane rd .P) (fun x _ => [if x.ex.any fun j => x.pred j pa then 1 else 0]) Ix.slots ∧
    GivesNet (.vote h rd pa .eq) (.lane rd .P) (fun x _ =>
      [if (x.ex.all fun j => x.pred j pa) || (x.ex.all fun j => !x.pred j pa) then 1 else 0]) Ix.slots ∧
    GivesNet (.vote h rd pa .ballot) (.lane rd .P) (fun x _ => [maskOf (x.ex.filter fun j => x.pred j pa)]) Ix.slots ∧
    GivesNet (.match h rd ra) (.lane rd .P) (fun x l => [maskOf (x.ex.filter fun j => x.word j ra == x.word l ra)]) Ix.slots ∧
    GivesNet (.lred h sh rd ra op wl) (.lane rd sh) (fun x l =>
      ((netTree op sh x.env.noise (5 - wl.val) (x.given ra sh)).getD (l / w) none).getD []) Ix.slots ∧
    GivesNet (.lscn h sh rd ra op wl excl) (.lane rd sh) (fun x l =>
      let v := netScan op sh x.env.noise w (5 - wl.val) 0 (x.given ra sh)
      ((if excl then (if l % w = 0 then none else v.getD (l - 1) none) else v.getD l none).getD (netIdentity op sh))) Ix.slots

/-- QPK and GCAT, which also gather from every executing lane (R73, R112, R163). -/
def BlockAndCategoryPart : Prop :=
  ∀ (h : Hd) (sh : Shape) (rd : LDst) (ra : Src) (rm : Rm) (f : EFmt) (k : Fin 4),
    let mean := fun (x : Ix) j => if sh = .M then (readMom (x.span j ra sh)).mean else f32 ((x.span j ra sh).getD 0 0)
    let block := fun (x : Ix) => quantise f rm ((List.range 32).map fun j =>
      if j ∈ x.ex then (mean x j, x.dither j rm 0) else (.num false Frac.zero, 0))
    let prefixes := fun (x : Ix) => catPrefix ((List.range 32).map fun j =>
      if j ∈ x.ex then catWeight (f32 (x.word j ra)) else .num false Frac.zero)
    GivesNet (.qpk h sh rd ra rm f) (.lane rd sh)
      (fun x l => packWords sh rm f (block x) ⟨l, true, x.grp.lane l, [x.span l ra sh], []⟩)
      (fun x l => if (block x).k.isSome then x.drawn l rm 1 else x.slots l) ∧
    GivesNet (.gcat h rd ra k) (.lane rd .P)
      (fun x _ => [catChoice (prefixes x) ((x.ex.head?.map fun j => x.grainWord j k.val 0 0).getD 0)])
      (fun x l => x.taken l k.val 1)

/-- The lane network, and the instructions that gather from every executing lane (R73, R112, R122 to R125, R163). -/
def Obligations.LaneNetworkResults : Prop := LaneNetworkPart ∧ BlockAndCategoryPart

/-- VRD and VWR reach the allocation by a lane's own index, where it is aligned and inside the allocation and no mark is read
(R126): VWR replaces the registers from the index on in each executing lane, pushes nothing, and leaves them without a fixed-latency
producer (R127; assumption 71). -/
def Obligations.IndexedRegisterResults : Prop :=
  ∀ (h : Hd) (sh : Shape) (rd : LDst) (ra rb : Src) (s : State) (x : Ix),
    let at_ := fun l => (x.word l ra).toNat
    let inside := ∀ l ∈ x.ex, at_ l % sh.words = 0 ∧ at_ l + sh.words ≤ x.team.alloc x.grp
    let traps := fun (c : Instr) => Issues (formOf c) s x → ∀ (i : Nat) (ls : List Nat),
      (x.ex.filter fun l => at_ l % sh.words != 0 || decide (x.team.alloc x.grp < at_ l + sh.words)) = i :: ls →
      exec c s = .next (s.raise x.t x.g 2 (ra.code + 1024) x.pc (maskOf (i :: ls)) 0)
    traps (.vrd h sh rd ra) ∧ traps (.vwr h sh ra rb) ∧
    (Issues (formOf (.vrd h sh rd ra)) s x → x.Unmarked (formOf (.vrd h sh rd ra)) → inside →
      (∀ l ∈ x.ex, ∀ w ∈ (x.grp.lane l).words (at_ l) sh.words, w.poison = false) →
      ∃ s', exec (.vrd h sh rd ra) s = .next s' ∧
        Lands (formOf (.vrd h sh rd ra)) s x (.lane rd sh) (fun l => ((x.grp.lane l).words (at_ l) sh.words).map (·.bits))
          x.slots s') ∧
    (Issues (formOf (.vwr h sh ra rb)) s x → x.Unmarked (formOf (.vwr h sh ra rb)) → inside →
      let f := formOf (.vwr h sh ra rb)
      let reached := fun (p : Producer) => x.ex.any fun l => (List.range sh.words).any fun k => p.reg == .v (at_ l + k)
      ∃ g', exec (.vwr h sh ra rb) s = .next (s.withGroup x g') ∧
        Advanced f s x (x.past f)
          { (x.grp.mapLanes fun l k => if x.ex.contains l then k.setRegs (at_ l) ((x.span l rb sh).map RWord.clean) else k) with
            prods := x.grp.prods.filter fun p => !reached p } g' ∧
        ∀ l n, (g'.lane l).reg n =
          if l ∈ x.ex ∧ at_ l ≤ n ∧ n < at_ l + (x.span l rb sh).length
          then RWord.clean ((x.span l rb sh).getD (n - at_ l) 0) else (x.grp.lane l).reg n)

/-! Control and system (R37, R250, R251, R264 to R272, R328 to R330, R350, R359). -/

/-- The group with each executing lane changed. -/
def Sys2Proof.Machine.Ix.each (x : Ix) (fn : Nat → Lane → Lane) : Group :=
  x.grp.mapLanes fun i l => if x.ex.contains i then fn i l else l

/-- `i` completes: it answers a next state in which the group is `e`, each executing lane at `jump`, and nothing else has changed. -/
def Completes (i : Instr) (s : State) (x : Ix) (jump : Nat → Word) (e : Group) : Prop :=
  ∃ s', exec i s = .next s' ∧ Moved (formOf i) s x jump e s'

/-- A lane's relay emptied, and the address past a 64-bit branch in its link register, if it has one (R37, R265). -/
def linked (rd : LDst) (x : Ix) (l : Lane) : Lane :=
  match rd with
  | .v n => { l.setReg n.val (RWord.clean (x.pc + 8)) with relay := [] }
  | .z => { l with relay := [] }

/-- The branches (R265, R266): every executing lane goes to its target, the others past the instruction; CALL and CALLX write the
link; the executing lanes' relays empty (R37). -/
def BranchPart : Prop :=
  ∀ (h : Hd) (rd : LDst) (ra : Src) (imm : BitVec 32) (off : BitVec 11) (s : State) (x : Ix),
    let plain := x.each fun _ l => { l with relay := [] }
    let link := x.each fun _ l => linked rd x l
    let even := ∀ i ∈ x.ex, (x.word i ra).getLsbD 0 = false
    (Issues (formOf (.bra h imm)) s x → Completes (.bra h imm) s x (fun _ => x.pc + imm) plain) ∧
    (Issues (formOf (.braS off)) s x → Completes (.braS off) s x (fun _ => x.pc + (off.signExtend 32 <<< 1)) plain) ∧
    (Issues (formOf (.call h rd imm)) s x → Completes (.call h rd imm) s x (fun _ => x.pc + imm) link) ∧
    (Issues (formOf (.brx h ra)) s x → even → Completes (.brx h ra) s x (fun i => x.word i ra) plain) ∧
    (Issues (formOf (.ret h ra)) s x → even → Completes (.ret h ra) s x (fun i => x.word i ra) plain) ∧
    (Issues (formOf (.callx h rd ra)) s x → even → Completes (.callx h rd ra) s x (fun i => x.word i ra) link)

/-- A register branch with an odd target in an executing lane traps ALIGN and branches nowhere (R264, R265). -/
def OddTargetTrapsPart : Prop :=
  ∀ (h : Hd) (rd : LDst) (ra : Src) (s : State) (x : Ix) (i : Nat) (ls : List Nat),
    let traps := fun (j : Instr) => Issues (formOf j) s x → (x.ex.filter fun k => (x.word k ra).getLsbD 0) = i :: ls →
      exec j s = .next (s.raise x.t x.g 4 0 x.pc (maskOf (i :: ls)) (x.word i ra).toNat)
    traps (.brx h ra) ∧ traps (.callx h rd ra) ∧ traps (.ret h ra)

/-- The branches, and the odd targets that trap (R264 to R266). -/
def Obligations.BranchResults : Prop := BranchPart ∧ OddTargetTrapsPart

/-- EXIT, whose open transaction ends with its loads and ATOMs, NOP, WAITL, YIELD and BUDGET (R211, R251, R268, R269, R271). -/
def Obligations.LaneControlResults : Prop :=
  ∀ (h : Hd) (ra : Src) (s : State) (x : Ix) (i : Nat) (ls : List Nat),
    (Issues (formOf (.exit h)) s x →
      Completes (.exit h) s x (x.past (hdForm h))
        ((x.each fun _ l => { l with live := false, tx := none, pass := none }).forget x.inTx)) ∧
    (Issues (formOf (.nop h)) s x → Completes (.nop h) s x (x.past (hdForm h)) x.grp) ∧
    (Issues (formOf .nopC16) s x → Completes .nopC16 s x (x.past c16Form) x.grp) ∧
    (Issues (formOf (.waitl h)) s x →
      Completes (.waitl h) s x (x.past (hdForm h)) (x.each fun _ l => { l with pass := some 64 })) ∧
    (Issues (formOf (.yield h)) s x → x.ex = [] → Completes (.yield h) s x (x.past (hdForm h)) x.grp) ∧
    (Issues (formOf (.yield h)) s x → x.ex = i :: ls →
      Completes (.yield h) s x (x.past (hdForm h)) { x.grp with yield := some (s.clock.cycle, s.otherReady x.t x.g) }) ∧
    (Issues (formOf (.budget h ra)) s x → x.ex = [] → Completes (.budget h ra) s x (x.past (hdForm h)) x.grp) ∧
    (Issues (formOf (.budget h ra)) s x → x.ex = i :: ls →
      ∃ s', Moved (formOf (.budget h ra)) s x (x.past (hdForm h)) x.grp s' ∧
        exec (.budget h ra) s = .next (s'.updTeam x.t fun r =>
          { r with budget :=
              if (x.word i ra).toNat = 0 then r.budget
              else some ((r.budget.map fun b => min b (x.word i ra).toNat).getD (x.word i ra).toNat) }))

/-- TRAP and BKPT trap SOFTWARE for the lanes that execute, with DETAIL the immediate or 256 (R359); ILL traps ILLOP whatever the
guards (R42). -/
def Obligations.SoftwareTraps : Prop :=
  ∀ (h : Hd) (n : Fin 256) (rest : BitVec 53) (s : State) (x : Ix) (i : Nat) (ls : List Nat),
    (Issues (formOf (.trap h n)) s x → x.ex = i :: ls →
      exec (.trap h n) s = .next (s.raise x.t x.g 12 n.val x.pc (maskOf x.ex) 0)) ∧
    (Issues (formOf (.bkpt h)) s x → x.ex = i :: ls →
      exec (.bkpt h) s = .next (s.raise x.t x.g 12 256 x.pc (maskOf x.ex) 0)) ∧
    (Issues (formOf (.trap h n)) s x → x.ex = [] → Completes (.trap h n) s x (x.past (hdForm h)) x.grp) ∧
    (Issues (formOf (.bkpt h)) s x → x.ex = [] → Completes (.bkpt h) s x (x.past (hdForm h)) x.grp) ∧
    (s.ix (formOf (.ill rest)) = some x → exec (.ill rest) s = .next (s.raise x.t x.g 1 0 x.pc 0 0))

/-- SRD writes the register's value in each executing lane, a 64-bit register's low half with its high half left in the group's
latch (R328, R330); SWR writes NCTL without its reserved bit, or STALLS (R82, R328). -/
def SpecialRegisterPart : Prop :=
  ∀ (h : Hd) (rd : LDst) (ra : Src) (reg : Fin 512) (s : State) (x : Ix) (i : Nat) (ls : List Nat),
    (srdNumber reg.val = true → Issues (formOf (.srd h rd reg)) s x →
      ∃ g', exec (.srd h rd reg) s = .next (s.withGroup x g') ∧
        GroupAfter (formOf (.srd h rd reg)) s x (.lane rd .P) (fun l => [s.specialReg x reg.val l]) x.slots
          { g' with latch := x.grp.latch } ∧
        g'.latch = if x.ex = [] then x.grp.latch
          else match s.wideReg x reg.val with
            | some v => some (reg.val, BitVec.ofNat 32 (v / 2 ^ 32))
            | none => x.grp.latch) ∧
    (Issues (formOf (.swr h ra 8)) s x → x.ex = i :: ls →
      Completes (.swr h ra 8) s x (x.past (hdForm h)) { x.grp with nctl := (x.word i ra &&& 7).setWidth 4 }) ∧
    (Issues (formOf (.swr h ra 14)) s x → x.ex = i :: ls →
      Completes (.swr h ra 14) s x (x.past (hdForm h)) { x.grp with stalls := x.word i ra }) ∧
    (swrNumber reg.val = true → Issues (formOf (.swr h ra reg)) s x → x.ex = [] →
      Completes (.swr h ra reg) s x (x.past (hdForm h)) x.grp)

/-- What every special register reads as (R144, R242, R302, R329, R330, R380): LANE to PC, NCTL, TBAND with the hottest sensor of the
reading die, TASK, CTX, HOMEDIE, PREEMPT, STALLS, CYCLE, TIME, TSTEP of each bank of the team, the die counters with their high halves,
and DHVER, which read 0 where CNTRS is 0. -/
def SpecialRegisterValuesPart : Prop :=
  ∀ (s : State) (x : Ix) (l : Nat),
    let die := x.team.core / 40
    let c := s.ctx x.team.ctx
    s.specialReg x 0x000 l = BitVec.ofNat 32 l ∧ s.specialReg x 0x001 l = BitVec.ofNat 32 x.g ∧
    s.specialReg x 0x002 l = BitVec.ofNat 32 x.team.num ∧ s.specialReg x 0x003 l = BitVec.ofNat 32 x.team.gx ∧
    s.specialReg x 0x004 l = BitVec.ofNat 32 x.team.gy ∧ s.specialReg x 0x005 l = BitVec.ofNat 32 x.team.gz ∧
    s.specialReg x 0x006 l = BitVec.ofNat 32 x.grp.role ∧ s.specialReg x 0x007 l = x.pc ∧
    s.specialReg x 0x008 l = x.grp.nctl.setWidth 32 ∧ s.specialReg x 0x00A l = BitVec.ofNat 32 x.team.task ∧
    s.specialReg x 0x00B l = BitVec.ofNat 32 x.team.ctx ∧ s.specialReg x 0x00C l = BitVec.ofNat 32 (x.team.core / 40) ∧
    s.specialReg x 0x00E l = x.grp.stalls ∧ s.wideReg x 0x010 = some s.clock.cycle ∧
    s.wideReg x 0x012 = some (s.clock.ticks / 198) ∧ s.specialReg x 0x010 l = BitVec.ofNat 32 s.clock.cycle ∧
    s.specialReg x 0x012 l = BitVec.ofNat 32 (s.clock.ticks / 198) ∧
    (∀ n hi, n ∈ [0x011, 0x013] → x.grp.latch = some (n - 1, hi) → s.specialReg x n l = hi) ∧
    (∀ sw : Bool, (sw = true ↔ ∃ k, k < 8 ∧ (s.stack k).sweep.isSome = true) →
      s.specialReg x 0x009 l = BitVec.ofNat 32 ((Tab.get 0 s.thermal.temps die).toNat * 2 ^ 20 + s.thermal.state.code * 2 ^ 16 +
        s.thermal.sense.code * 16 + sw.toNat * 8 + s.thermal.band.code)) ∧
    (c.draining = false → s.specialReg x 0x00D l = 0) ∧
    (c.draining = true →
      s.specialReg x 0x00D l = BitVec.ofNat 32 (2 ^ 31 + (s.paused x.team.ctx).toNat * 2 ^ 30 + c.left / 198000 % 2 ^ 30)) ∧
    (∀ k, k < 4 → (x.team.banks[k]? = none → s.specialReg x (0x020 + k) l = 0) ∧
      ∀ p, x.team.banks[k]? = some p →
        let b := Tab.get ⟨false, 0, 0⟩ (s.core x.team.core).stepped p
        s.specialReg x (0x020 + k) l = BitVec.ofNat 32 (b.run.toNat * 2 ^ 31 + (s.loopWaits x.team.core p).toNat * 2 ^ 30 +
          b.kend.toNat * 2 ^ 12 + b.done.toNat)) ∧
    (∀ n, n < 16 →
      let v := if c.cntrs then (Tab.get 0 (s.die die).cnt n).toNat else 0
      s.wideReg x (0x040 + 2 * n) = some v ∧ s.specialReg x (0x040 + 2 * n) l = BitVec.ofNat 32 v ∧
      ∀ hi, x.grp.latch = some (0x040 + 2 * n, hi) → s.specialReg x (0x041 + 2 * n) l = if c.cntrs then hi else 0) ∧
    s.specialReg x 0x060 l =
      if c.cntrs then BitVec.ofNat 32 ((s.stack (2 * die)).ver.toNat + 16 * (s.stack (2 * die + 1)).ver.toNat) else 0

/-- A special-register number that the spec does not list traps ILLOP (R328). -/
def UnlistedRegisterTrapsPart : Prop :=
  ∀ (h : Hd) (rd : LDst) (ra : Src) (reg : Fin 512) (s : State) (x : Ix),
    (srdNumber reg.val = false → s.ix (formOf (.srd h rd reg)) = some x →
      exec (.srd h rd reg) s = .next (s.raise x.t x.g 1 0 x.pc 0 0)) ∧
    (swrNumber reg.val = false → s.ix (formOf (.swr h ra reg)) = some x →
      exec (.swr h ra reg) s = .next (s.raise x.t x.g 1 0 x.pc 0 0))

/-- SRD and SWR, the values that they read, and the numbers that trap (R82, R328 to R330). -/
def Obligations.SpecialRegisterResults : Prop := SpecialRegisterPart ∧ SpecialRegisterValuesPart ∧ UnlistedRegisterTrapsPart

/-- Where a lane goes that executes an instruction which it may not perform inside a transaction: to its resume point (R210,
R211). -/
def Sys2Proof.Machine.Ix.back (x : Ix) (f : Form) (i : Nat) : Word :=
  ((x.grp.lane i).tx.map fun t => t.resume).getD (x.pc + BitVec.ofNat 32 f.len)

/-- DEVELOP makes its group wait for the develop of its task, and outside a task does nothing (R350). LAUNCH holds its entries until
its release is complete, as one operation with a serial number, with the lanes' words in lane order (R279); what escapes is counted
when it is performed (R284, R349). A descriptor address that is no multiple of 64 traps ALIGN, and one with bits above 56 MEMPERM (R277;
the access bits of the latter are assumption 90). -/
def Obligations.DevelopAndLaunchResults : Prop :=
  ∀ (h : Hd) (rd : Base) (opt : LaunchOpt) (s : State) (x : Ix) (i : Nat) (ls : List Nat),
    let at_ := fun j => pairNat (x.span j (srcOfB rd) (launchShape opt))
    (Issues (formOf (.launch h rd opt)) s x →
      ((x.ex.filter fun j => at_ j % 64 != 0) = i :: ls →
        exec (.launch h rd opt) s = .next (s.raise x.t x.g 4 0 x.pc (maskOf (i :: ls)) (at_ i))) ∧
      ((∀ j ∈ x.ex, at_ j % 64 = 0) → (x.ex.filter fun j => decide (2 ^ 57 ≤ at_ j)) = i :: ls →
        exec (.launch h rd opt) s = .next (s.raise x.t x.g 5 513 x.pc (maskOf (i :: ls)) (at_ i)))) ∧
    (Issues (formOf (.develop h)) s x → x.ex = i :: ls → x.inTx = [] →
      ∃ g', exec (.develop h) s = .next { s.withGroup x g' with nextId := s.nextId + 1 } ∧
        Advanced (formOf (.develop h)) s x (x.past (hdForm h))
          (if x.team.d.latent then { x.grp with wait := .develop s.nextId s.clock.cycle } else x.grp) g') ∧
    (Issues (formOf (.develop h)) s x → x.ex = [] → Completes (.develop h) s x (x.past (hdForm h)) x.grp) ∧
    (Issues (formOf (.launch h rd opt)) s x → x.ex = [] → Completes (.launch h rd opt) s x (x.past (hdForm h)) x.grp) ∧
    (Issues (formOf (.launch h rd opt)) s x → x.ex = i :: ls → x.inTx = [] →
      (∀ j ∈ x.ex, at_ j % 64 = 0 ∧ at_ j < 2 ^ 57) →
      let lanes := match rd with | .g _ => [i] | .v _ => x.ex
      let ent := fun j =>
        let w := x.span j (srcOfB rd) (launchShape opt)
        (⟨s.nextId, pairNat w, BitVec.ofNat 32 opt.code, w.getD 2 0, w.getD 3 0, x.team.grid, (s.grid x.team.grid).elim 0 (·.ring)⟩ : LaunchEnt)
      ∃ g', exec (.launch h rd opt) s = .next { s.withGroup x g' with nextId := s.nextId + 1 } ∧
        Advanced (formOf (.launch h rd opt)) s x (x.past (hdForm h))
          { x.grp with held := .launch s.nextId (lanes.map ent) opt.wait opt.esc x.pc (maskOf x.ex)
                                (s.fencePre x .rel .sys ⟨true, true, true, true⟩)
                       wait := .launch } g')

/-- The executing lanes outside a transaction. -/
def Sys2Proof.Machine.Ix.outTx (x : Ix) : List Nat := x.ex.filter fun i => (x.grp.lane i).tx.isNone

/-- A group instruction that may not act inside a transaction is not performed at all where a lane is inside one: that lane aborts, the
others advance (R211); the issue of a BWAIT or a BSYNC ends the group's passes even then (R251). The traps at issue come first, so each
holds for the operands that meet none. -/
def NotPerformedPart : Prop :=
  ∀ (h : Hd) (ra : Src) (rd : Base) (rg : Fin 64) (n : Fin 4) (j : Fin 16) (q dec esc z sr vr : Bool) (opt : LaunchOpt) (mode : LoopMode)
    (pts : HadPts) (s : State) (x : Ix) (i k : Nat) (ls ls' : List Nat),
    let stays := fun (c : Instr) (g : Group) => Issues (formOf c) s x → Completes c s x (x.back (formOf c)) (g.abort x.inTx)
    let ended := x.grp.mapLanes fun _ l => { l with pass := none }
    let at_ := fun l => pairNat (x.span l (srcOfB rd) (launchShape opt))
    let w8 := x.span i (.g rg) .S
    let w7 := w8.take 7
    let w4 := x.span i (.g rg) .Q
    let even := fun (l : List Nat) => ∀ a ∈ l, a % 8 = 0
    x.ex = i :: ls → x.inTx = k :: ls' →
    (j.val < x.team.d.barriers →
      stays (.binit h ra j) x.grp ∧ stays (.barv h j) x.grp ∧ stays (.bexp h ra j dec) x.grp ∧ stays (.bwait h j q) ended ∧
      stays (.bsync h j) ended ∧
      (bulkTrap w8 (min (s.ctx x.team.ctx).peercnt.toNat 65536) = none → stays (.cpyb h rg j esc) x.grp) ∧
      (hadIll pts w7 = false → even [dbase w7 0, dbase w7 2] → stays (.thad h rg pts j sr) x.grp) ∧
      (n.val < x.team.banks.length →
        (loopIll w8 = false → even [dbase w8 0, dbase w8 2] → stays (.tloop h rg n j mode z) x.grp) ∧
        (qntIll w4 = false → even [dbase w4 0] → stays (.tqnt h rg n j sr vr) x.grp))) ∧
    (n.val < x.team.banks.length → stays (.taccZero h n) x.grp) ∧
    ((∀ l ∈ x.ex, at_ l % 64 = 0 ∧ at_ l < 2 ^ 57) → stays (.launch h rd opt) x.grp) ∧
    stays (.txabt h) x.grp

/-- A lane instruction that may not act inside a transaction is performed for the other executing lanes alone, and the lanes inside abort
(R211): CPY, TACC.RD and TACC.WR, and CCTL. DEVELOP is performed where some executing lane is outside (R350). -/
def PartlyPerformedPart : Prop :=
  ∀ (h : Hd) (rd : LDst) (ra rb : Base) (rs : Src) (sz : CpySize) (n : Fin 4) (j : Fin 16) (esc na : Bool) (fm : AccForm) (sh : Shape)
    (s : State) (x : Ix) (i k p : Nat) (ls ls' : List Nat),
    let gone := x.grp.abort x.inTx
    let aborts := fun (g' : Group) => ∀ l ∈ x.inTx, (g'.lane l).tx = none ∧ (g'.lane l).relay = [] ∧ (g'.lane l).regs = (x.grp.lane l).regs
    x.ex = i :: ls → x.inTx = k :: ls' →
    (let f := formOf (.cpy h ra rb sz j esc na)
     let b := cpyBytes sz
     Issues f s x → j.val < x.team.d.barriers →
     (∀ l ∈ x.ex, x.addr l ra % b = 0 ∧ x.addr l rb % b = 0 ∧ x.addr l ra + b ≤ 2 ^ 57 ∧ x.addr l rb + b ≤ 2 ^ 57) →
     ∃ g', Advanced f s x (x.back f) gone g' ∧
       let op : CopyOp := ⟨s.nextId, x.g, x.pc, b, j.val, esc, x.outTx.map fun l => (l, x.addr l ra, x.addr l rb), false, []⟩
       let t := { s.withGroup x g' with nextId := s.nextId + 1 }
       let u := t.updTeam x.t fun r => { r with copies := r.copies ++ [op] }
       let u := if esc then u.escape x.t x.outTx.length else u
       (x.outTx = [] → exec (.cpy h ra rb sz j esc na) s = .next t) ∧
       (x.outTx ≠ [] → exec (.cpy h ra rb sz j esc na) s =
         .next (u.barEvent x.t x.g j.val x.pc (.arrive (b * x.outTx.length) false na)))) ∧
    (let queued := fun (c : Instr) (act : Nat → StoreAct) => Issues (formOf c) s x →
       ∃ g' : Group, exec c s = .next { s.withGroup x g' with nextId := if x.outTx = [] then s.nextId else s.nextId + 1 } ∧
         Advanced (formOf c) s x (x.back (formOf c))
           { gone with storeQ := x.grp.storeQ ++ x.outTx.map fun l =>
               (⟨s.nextId, act (x.word l rs).toNat, l, x.pc, x.addr l ra, [], [], .team, false⟩ : StoreEnt) } g'
     queued (.cctlWb h ra rs) .wb ∧ queued (.cctlInv h ra rs) .inv ∧ queued (.cctlDrain h ra rs) .drain) ∧
    (let acts := fun (c : Instr) (t : State) => Issues (formOf c) s x →
       ∃ g' : Group → Group, exec c s = .next (({ t with issuing := none }).updGroup x.t x.g g') ∧
         ∀ g, g.lanes.length = x.grp.lanes.length → Advanced (formOf c) t x (x.back (formOf c)) (g.abort x.inTx) (g' g)
     let fetch := fun (l1 : Bool) => x.outTx.foldl (fun (t : State) l =>
       t.prefetch x.t x.g x.team l1 (x.addr l ra) (x.word l rs).toNat) s
     let key := fun l => byteKey x.team.ctx (x.addr l ra)
     let below := x.outTx.filter fun l => decide (x.addr l ra < 2 ^ 57)
     let decides := fun l => below.all fun m => !(decide (l < m) && key m / 2 ^ 21 == key l / 2 ^ 21)
     acts (.cctlPf1 h ra rs) (fetch true) ∧ acts (.cctlPf2 h ra rs) (fetch false) ∧
     (x.outTx ≠ [] → acts (.cctlRepl h ra rs)
       ((below.filter decides).foldl (fun (t : State) l => t.pinRegion (key l) ((x.word l rs).toNat % 8)) s).settle) ∧
     (x.outTx = [] → Issues (formOf (.cctlRepl h ra rs)) s x →
       Completes (.cctlRepl h ra rs) s x (x.back (formOf (.cctlRepl h ra rs))) gone)) ∧
    (x.team.banks[n.val]? = some p →
      let landed := fun (c : Instr) (t : State) (d : Dest) (val : Nat → List Word) => ∃ g', exec c s = .next (t.withGroup x g') ∧ aborts g' ∧
        ∀ l, l ∉ x.inTx → LaneAfter (formOf c) s { x with ex := x.outTx } d l (val l) (x.slots l) (g'.lane l)
      let cell := fun l => (s.core x.team.core).cell p (cellOf (x.word l rs))
      (Issues (formOf (.taccRd h rd rs n fm)) s x → (∀ l ∈ x.outTx, (cell l).poison = false) →
        landed (.taccRd h rd rs n fm) s (.lane rd (if fm = .m then .M else .P)) fun l =>
          match fm with | .p => [(cell l).mean] | .pvar => [(cell l).var] | .m => [(cell l).mean, (cell l).var]) ∧
      (sh = .P ∨ sh = .M → Issues (formOf (.taccWr h sh rd rs n)) s x →
        let out := taccWrites sh p (x.ins (formOf (.taccWr h sh rd rs n))) x.outTx (s.core x.team.core)
        landed (.taccWr h sh rd rs n) (if x.outTx = [] then s else s.setCore x.team.core out.1) (.lane rd sh) fun l =>
          ((out.2.find? fun e => e.1 == l).map (·.2)).getD [])) ∧
    (Issues (formOf (.develop h)) s x →
      ∃ g', exec (.develop h) s = .next { s.withGroup x g' with nextId := s.nextId + 1 } ∧
        Advanced (formOf (.develop h)) s x (x.back (hdForm h))
          (if x.team.d.latent = true ∧ x.outTx ≠ [] then { gone with wait := .develop s.nextId s.clock.cycle } else gone) g')

/-- What the instructions that may not act inside a transaction do where a lane is inside one (R211, R251, R273, R350). -/
def Obligations.NotInsideTransactions : Prop := NotPerformedPart ∧ PartlyPerformedPart

/-! Memory (R190 to R215). -/

/-- The byte that stands at a key where its line is coherent: its owner's, else its home's, else memory's (R167, R231). -/
def Sys2Proof.Machine.State.standing (s : State) (key : Nat) (leaf : Leaf) : Byte :=
  (s.peek (key / 128) leaf).1.extractLsb' (8 * (key % 128)) 8

/-- The mark of the chunk of a key there (R193). -/
def Sys2Proof.Machine.State.standingMark (s : State) (key : Nat) (leaf : Leaf) : Bool :=
  (s.peek (key / 128) leaf).2.getLsbD (key % 128 / 16)

/-- The line of a key of device memory is at rest for a core: no message and no write is on its way, no link is cut, no other die than
its home holds it, the core has none of its bytes dirty, and the tables have room. -/
def Sys2Proof.Machine.State.AtRest (s : State) (core key : Nat) (leaf : Leaf) : Prop :=
  let e := s.dir (key / 128) leaf
  core < 160 ∧ s.net = [] ∧ s.outw = [] ∧ leaf.host = false ∧ (∀ a b, a < 4 → b < 4 → s.reach a b = true) ∧
  e.home = leaf.home (key / 128 * 128 % 2 ^ 57) ∧ e.txn = none ∧ e.holders = [] ∧ e.st.length = 4 ∧
  (∀ l, s.l1 core (key / 128) = some l → l.dirty = 0) ∧ (s.die e.home).shares.length < 8000 ∧
  (s.filterSet (key / 128) e.home).length < 15 ∧ s.copies.length < 32000 ∧ (s.core core).l1.length < 2048

/-- In `u` the bytes `bs` stand from `key` on, and everywhere else what stood in `s`. -/
def Stands (u s : State) (key : Nat) (leaf : Leaf) (bs : List Byte) : Prop :=
  (∀ n, n / 128 = key / 128 →
    u.standing n leaf = if key ≤ n ∧ n < key + bs.length then bs.getD (n - key) 0 else s.standing n leaf) ∧
  ∀ n l, n / 128 ≠ key / 128 → u.standing n l = s.standing n l

/-- In `u` the `n` bytes that stood from `ks` on in `s` stand from `kd` on too, and everywhere else what stood in `s`. -/
def Copied (u s : State) (ks : Nat) (lf : Leaf) (kd : Nat) (lt : Leaf) (n : Nat) : Prop :=
  (∀ m, m / 128 = kd / 128 →
    u.standing m lt = if kd ≤ m ∧ m < kd + n then s.standing (ks + (m - kd)) lf else s.standing m lt) ∧
  (∀ m, m / 128 = ks / 128 → u.standing m lf = s.standing m lf) ∧
  ∀ m l, m / 128 ≠ kd / 128 → m / 128 ≠ ks / 128 → u.standing m l = s.standing m l

/-- A lane with a result of a shape pending on its relay, for the operation with a serial number (R36, R38). -/
def Sys2Proof.Machine.Ix.pend (x : Ix) (s : State) (sh : Shape) (l : Lane) : Lane :=
  l.push ⟨sh, List.replicate sh.words RWord.zero, 0, x.grp.dist, s.clock.cycle, some s.nextId⟩

/-- Where a lane's load or store goes: its base plus the offset. -/
def Sys2Proof.Machine.Ix.dest (x : Ix) (ra : Base) (off : BitVec 18) (i : Nat) : Nat := plusOff (x.addr i ra) off

/-- Where a lane's variance word stands for LDP and STP: its base plus the distance, modulo 2^64 (R197). -/
def Sys2Proof.Machine.Ix.plane (x : Ix) (ra : Base) (rb : Src) (i : Nat) : Nat := (x.addr i ra + (x.word i rb).toNat) % 2 ^ 64

/-- The sets of the open transactions keep within the limits of R212 when the lanes inside one add the lines `rd` and `wr`: 16 lines
read and 8 written in a lane, 256 in the group. -/
def Sys2Proof.Machine.Ix.Fits (x : Ix) (rd wr : Nat → List Nat) : Prop :=
  (∀ i ∈ x.inTx, ∀ t, (x.grp.lane i).tx = some t → (t.touch (rd i) (wr i)).readLines.length ≤ 16 ∧
    (t.touch (rd i) (wr i)).writeLines.length ≤ 8) ∧ (x.grp.touchTx x.inTx rd wr).txLines ≤ 256

/-- A lane with a change of its transaction, where one is open. -/
def Sys2Proof.Machine.Lane.inside (l : Lane) (fn : TxState → TxState) : Lane := { l with tx := l.tx.map fn }

/-- LD and LDP issue one load for the executing lanes, each with its own address, and push a pending result on their relays; where
the load escapes, a task counts it (R195 to R197, R349). In a lane inside a transaction the read is tracked and its lines enter the
read set, unless it escapes (R211, R212). -/
def LoadIssuePart : Prop :=
  ∀ (h : Hd) (rd : LDst) (ra : Base) (rb : Src) (wd : Width) (sc : Scope) (esc sx : Bool) (off : BitVec 18) (s : State) (x : Ix)
    (j : Nat) (ls : List Nat),
    let s' := if esc then s.escape x.t x.ex.length else s
    let after := fun (i : Instr) (sh : Shape) (k : LoadKind) (lines : Nat → List Nat) (lanes : List (Nat × Nat)) =>
      ∃ g', exec i s = .next { s'.withGroup x g' with nextId := s.nextId + 1 } ∧
        Advanced (formOf i) s x (x.past (hdForm h))
          { (x.each fun i l => (x.pend s sh l).inside fun t => if esc then t else t.touch (lines i) []) with
            loads := x.grp.loads ++ [⟨s.nextId, x.pc, k, sc, esc, dstNum rd, lanes, if esc then [] else x.inTx, []⟩] } g'
    let one := fun i => linesAt x.team.ctx (x.dest ra off i) (widthBytes wd)
    let two := fun i => linesAt x.team.ctx (x.addr i ra) 4 ++ linesAt x.team.ctx (x.plane ra rb i) 4
    x.ex = j :: ls →
    (Issues (formOf (.ld h rd ra wd sc esc sx off)) s x → (esc = true ∨ x.Fits one fun _ => []) →
      (∀ i ∈ x.ex, x.dest ra off i % widthBytes wd = 0 ∧ x.dest ra off i + widthBytes wd ≤ 2 ^ 57) →
      after (.ld h rd ra wd sc esc sx off) wd.shape (.ld wd sx) one (x.ex.map fun i => (i, x.dest ra off i))) ∧
    (Issues (formOf (.ldp h rd ra rb sc esc)) s x → (esc = true ∨ x.Fits two fun _ => []) →
      (∀ i ∈ x.ex, x.addr i ra % 4 = 0 ∧ (x.word i rb).toNat % 4 = 0 ∧ x.addr i ra + 4 ≤ 2 ^ 57 ∧ x.plane ra rb i + 4 ≤ 2 ^ 57) →
      after (.ldp h rd ra rb sc esc) .M .ldp two (x.ex.flatMap fun i => [(i, x.addr i ra), (i, x.plane ra rb i)]))

/-- The bytes that a store brings: the source's words as bytes in rising order, each with its word's mark (R6, R195). -/
def Sys2Proof.Machine.Ix.stored (x : Ix) (rd : LSrc) (sh : Shape) (i : Nat) : List (Byte × Bool) :=
  ((use 0 (srcOfL rd) sh).read x.grp i).flatMap wordBytes

/-- The bytes of the mean word (0) or the variance word (1) that STP stores (R197). -/
def Sys2Proof.Machine.Ix.half (x : Ix) (rd : LSrc) (i k : Nat) : List (Byte × Bool) :=
  wordBytes (((use 0 (srcOfL rd) .M).read x.grp i).getD k RWord.zero)

/-- ST and STP put one entry for each executing lane, in lane order, at the end of the group's store queue, with the address and
the bytes (R172, R195 to R197); memory itself is as before. A lane inside a transaction holds the bytes in it, and its lines enter
the write set; one that escapes is kept there until TXEND (R211, R212). -/
def StoreIssuePart : Prop :=
  ∀ (h : Hd) (rd : LSrc) (ra : Base) (rb : Src) (wd : Width) (sc : Scope) (esc : Bool) (off : BitVec 18) (s : State) (x : Ix)
    (j : Nat) (ls : List Nat),
    let s' := if esc then s.escape x.t x.outTx.length else s
    let ent := fun i a (bs : List (Byte × Bool)) =>
      (⟨s.nextId, .store, i, x.pc, a, bs.map (·.1), bs.map (·.2), sc, esc⟩ : StoreEnt)
    let after := fun (i : Instr) (lines : Nat → List Nat) (pieces : Nat → List (Nat × List (Byte × Bool))) =>
      let es := fun l => (pieces l).map fun p => ent l p.1 p.2
      let held := fun l (t : TxState) => (pieces l).foldl (fun t p => t.hold s.nextId (byteKey x.team.ctx p.1) p.2) t
      ∃ g', exec i s = .next { s'.withGroup x g' with nextId := s.nextId + 1 } ∧
        Advanced (formOf i) s x (x.past (hdForm h))
          { (x.each fun l k => k.inside fun t => if esc then { t with escs := t.escs ++ es l } else held l (t.touch [] (lines l))) with
            storeQ := x.grp.storeQ ++ x.outTx.flatMap es } g'
    let one := fun i => linesAt x.team.ctx (x.dest ra off i) (widthBytes wd)
    let two := fun i => linesAt x.team.ctx (x.addr i ra) 4 ++ linesAt x.team.ctx (x.plane ra rb i) 4
    x.ex = j :: ls →
    (Issues (formOf (.st h rd ra wd sc esc off)) s x → (esc = true ∨ x.Fits (fun _ => []) one) →
      (∀ i ∈ x.ex, x.dest ra off i % widthBytes wd = 0 ∧ x.dest ra off i + widthBytes wd ≤ 2 ^ 57) →
      after (.st h rd ra wd sc esc off) one
        (fun i => [(x.dest ra off i, (x.stored rd wd.shape i).take (widthBytes wd))])) ∧
    (Issues (formOf (.stp h rd ra rb sc esc)) s x → (esc = true ∨ x.Fits (fun _ => []) two) →
      (∀ i ∈ x.ex, x.addr i ra % 4 = 0 ∧ (x.word i rb).toNat % 4 = 0 ∧ x.addr i ra + 4 ≤ 2 ^ 57 ∧ x.plane ra rb i + 4 ≤ 2 ^ 57) →
      after (.stp h rd ra rb sc esc) two
        (fun i => [(x.addr i ra, x.half rd i 0), (x.plane ra rb i, x.half rd i 1)]))

/-- The loads and the stores at their issue (R172, R195 to R198, R211). -/
def Obligations.LoadAndStoreIssueResults : Prop := LoadIssuePart ∧ StoreIssuePart

/-- ATOM issues one operation for the executing lanes, with each lane's address and operands, and with a destination pushes its
pending result (R199); a task counts an escape for each lane outside a transaction. Inside one the lane's word is a tracked read and
a held write (R211, R212). -/
def Obligations.AtomIssueResults : Prop :=
  ∀ (h : Hd) (op : AtomOp) (rd : Option LDst) (ra : Base) (rb : Src) (s : State) (x : Ix) (j : Nat) (ls : List Nat),
    let f := formOf (.atom h op rd ra rb)
    let third := fun i => match op with | .cas y => x.word i y | .addb y => x.word i y | _ => 0
    let line := fun i => linesAt x.team.ctx (x.addr i ra) 4
    Issues f s x → x.ex = j :: ls → x.Fits line line →
    (∀ i ∈ x.ex, x.addr i ra % 4 = 0 ∧ x.addr i ra + 4 ≤ 2 ^ 57) →
    ∃ g', exec (.atom h op rd ra rb) s = .next { (s.escape x.t x.outTx.length).withGroup x g' with nextId := s.nextId + 1 } ∧
      Advanced f s x (x.past f)
        { (x.each fun i l => (if rd.isSome then x.pend s .P l else l).inside fun t => t.touch (line i) (line i)) with
          atoms := x.grp.atoms ++ [⟨s.nextId, x.pc, atomCode op, rd.map dstNum,
            x.ex.map fun i => (i, x.addr i ra, x.word i rb, third i), x.inTx, [], none⟩] } g'

/-- The new value of each ATOM operation from the old value and the lane's operands (R200, R202, R203). -/
def Obligations.AtomValues : Prop :=
  ∀ (old a b : Word) (y : Src),
    atomFn (atomCode .add) old a b = old + a ∧
    [atomFn (atomCode .fadd) old a b] =
      shaped .P .rne false (fun l => addPre .rne (fl0 l) (fl1 l)) (addProp false) (fun _ => 0) [[old], [a]] ∧
    atomFn (atomCode (.min false)) old a b = (if old.slt a then old else a) ∧
    atomFn (atomCode (.min true)) old a b = (if old.ult a then old else a) ∧
    atomFn (atomCode (.max false)) old a b = (if old.slt a then a else old) ∧
    atomFn (atomCode (.max true)) old a b = (if old.ult a then a else old) ∧
    atomFn (atomCode .and) old a b = old &&& a ∧
    atomFn (atomCode .or) old a b = old ||| a ∧
    atomFn (atomCode .xor) old a b = old ^^^ a ∧
    atomFn (atomCode .exch) old a b = a ∧
    atomFn (atomCode (.cas y)) old a b = (if old = a then b else old) ∧
    atomFn (atomCode .incw) old a b = (if a.toNat ≤ old.toNat then 0 else old + 1) ∧
    atomFn (atomCode .decw) old a b = (if old = 0 ∨ a.toNat < old.toNat then a else old - 1) ∧
    atomFn (atomCode (.addb y)) old a b = (if old.toNat + a.toNat ≤ b.toNat then old + a else old)

/-- An access whose address is not a multiple of its size in some executing lane traps ALIGN for those lanes, with the lowest one's
address, and accesses nothing; one that is aligned and reaches past 2^57 traps MEMPERM with the bits of the access (R190). LDP and STP
check both of their words, and the distance between them, and CPY both ends (assumption 79); the access bits of these traps at
issue are assumption 90. -/
def AddressTrapsPart : Prop :=
  ∀ (h : Hd) (rd : LDst) (rs : LSrc) (ra : Base) (rb : Src) (wd : Width) (sc : Scope) (esc sx : Bool) (off : BitVec 18) (op : AtomOp)
    (ro : Option LDst) (rd2 : Base) (n : CpySize) (b : Fin 16) (na : Bool) (s : State) (x : Ix) (j : Nat) (ls : List Nat),
    let traps := fun (i : Instr) (n acc : Nat) (at_ : Nat → Nat) => Issues (formOf i) s x →
      ((x.ex.filter fun l => at_ l % n != 0) = j :: ls →
        exec i s = .next (s.raise x.t x.g 4 0 x.pc (maskOf (j :: ls)) (at_ j))) ∧
      ((∀ l ∈ x.ex, at_ l % n = 0) → (x.ex.filter fun l => decide (2 ^ 57 < at_ l + n)) = j :: ls →
        exec i s = .next (s.raise x.t x.g 5 (acc + 512) x.pc (maskOf (j :: ls)) (at_ j)))
    let planes := fun (i : Instr) (acc : Nat) => Issues (formOf i) s x →
      let odd := fun l => x.addr l ra % 4 != 0 || (x.word l rb).toNat % 4 != 0
      ((x.ex.filter odd) = j :: ls → exec i s = .next (s.raise x.t x.g 4 0 x.pc (maskOf (j :: ls)) (x.addr j ra))) ∧
      ((∀ l ∈ x.ex, odd l = false) →
        (x.ex.filter fun l => decide (2 ^ 57 < x.addr l ra + 4 ∨ 2 ^ 57 < x.plane ra rb l + 4)) = j :: ls →
        exec i s = .next (s.raise x.t x.g 5 (acc + 512) x.pc (maskOf (j :: ls)) (x.addr j ra)))
    traps (.ld h rd ra wd sc esc sx off) (widthBytes wd) 1 (x.dest ra off) ∧
    planes (.ldp h rd ra rb sc esc) 1 ∧ planes (.stp h rs ra rb sc esc) 2 ∧
    (b.val < x.team.d.barriers → Issues (formOf (.cpy h rd2 ra n b esc na)) s x →
      let k := cpyBytes n
      let ends := fun l => (x.addr l rd2, x.addr l ra)
      let odd := fun (a : Nat) => a % k != 0
      let far := fun (a : Nat) => decide (2 ^ 57 < a + k)
      let raised := fun (code detail : Nat) (a : Nat) =>
        exec (.cpy h rd2 ra n b esc na) s = .next (s.raise x.t x.g code detail x.pc (maskOf (j :: ls)) a)
      ((x.ex.filter fun l => odd (ends l).1 || odd (ends l).2) = j :: ls →
        raised 4 0 (if odd (ends j).1 then (ends j).1 else (ends j).2)) ∧
      ((∀ l ∈ x.ex, odd (ends l).1 = false ∧ odd (ends l).2 = false) →
        (x.ex.filter fun l => far (ends l).1 || far (ends l).2) = j :: ls →
        raised 5 (if far (ends j).1 then 514 else 513) (if far (ends j).1 then (ends j).1 else (ends j).2))) ∧
    traps (.st h rs ra wd sc esc off) (widthBytes wd) 2 (x.dest ra off) ∧
    traps (.atom h op ro ra rb) 4 3 fun l => x.addr l ra

/-- An access inside a transaction that would take a set past its limit traps TXCAP: 16 lines read in a lane, then 8 lines written in a lane,
each for those lanes, then 256 lines over the group (R212). The access is otherwise well-formed, and does not escape. -/
def CapacityTrapsPart : Prop :=
  ∀ (h : Hd) (rd : LDst) (rs : LSrc) (ra : Base) (rb : Src) (wd : Width) (sc : Scope) (sx : Bool) (off : BitVec 18) (op : AtomOp)
    (ro : Option LDst) (s : State) (x : Ix) (j : Nat) (ls : List Nat),
    let traps := fun (i : Instr) (rd wr : Nat → List Nat) => Issues (formOf i) s x →
      let beyond := fun (p : TxState → Bool) => x.inTx.filter fun l => (x.grp.lane l).tx.any fun t => p (t.touch (rd l) (wr l))
      let read := beyond fun t => decide (16 < t.readLines.length)
      let wrote := beyond fun t => decide (8 < t.writeLines.length)
      (read = j :: ls → exec i s = .next (s.raise x.t x.g 9 1 x.pc (maskOf (j :: ls)) 0)) ∧
      (read = [] → wrote = j :: ls → exec i s = .next (s.raise x.t x.g 9 2 x.pc (maskOf (j :: ls)) 0)) ∧
      (read = [] → wrote = [] → x.inTx = j :: ls → 256 < (x.grp.touchTx x.inTx rd wr).txLines →
        exec i s = .next (s.raise x.t x.g 9 3 x.pc 0 0))
    let no := fun (_ : Nat) => ([] : List Nat)
    let one := fun l => linesAt x.team.ctx (x.dest ra off l) (widthBytes wd)
    let two := fun l => linesAt x.team.ctx (x.addr l ra) 4 ++ linesAt x.team.ctx (x.plane ra rb l) 4
    let word := fun l => linesAt x.team.ctx (x.addr l ra) 4
    let aligned := ∀ l ∈ x.ex, x.dest ra off l % widthBytes wd = 0 ∧ x.dest ra off l + widthBytes wd ≤ 2 ^ 57
    let planes := ∀ l ∈ x.ex, x.addr l ra % 4 = 0 ∧ (x.word l rb).toNat % 4 = 0 ∧ x.addr l ra + 4 ≤ 2 ^ 57 ∧ x.plane ra rb l + 4 ≤ 2 ^ 57
    (aligned → traps (.ld h rd ra wd sc false sx off) one no ∧ traps (.st h rs ra wd sc false off) no one) ∧
    (planes → traps (.ldp h rd ra rb sc false) two no ∧ traps (.stp h rs ra rb sc false) no two) ∧
    ((∀ l ∈ x.ex, x.addr l ra % 4 = 0 ∧ x.addr l ra + 4 ≤ 2 ^ 57) → traps (.atom h op ro ra rb) word word)

/-- What an access's addresses and a transaction's sets make it trap with (R190, R197, R212, R216). -/
def Obligations.AddressTraps : Prop := AddressTrapsPart ∧ CapacityTrapsPart

/-- FENCE waits for the accesses that stand before it on its paths, and where it acquires for every earlier read of its group (R174,
R175); the cache operations WB, INV and DRAIN follow the
group's stores (R206). -/
def FenceAndCachePart : Prop :=
  ∀ (h : Hd) (k : FenceKind) (sc : Scope) (paths : Paths) (ra : Base) (rb : Src) (s : State) (x : Ix) (j : Nat) (ls : List Nat),
    let queued := fun (i : Instr) (act : Nat → StoreAct) => Issues (formOf i) s x → x.inTx = [] →
      ∃ g', exec i s = .next { s.withGroup x g' with nextId := s.nextId + 1 } ∧
        Advanced (formOf i) s x (x.past (hdForm h))
          { x.grp with storeQ := x.grp.storeQ ++ x.ex.map fun l =>
              (⟨s.nextId, act (x.word l rb).toNat, l, x.pc, x.addr l ra, [], [], .team, false⟩ : StoreEnt) } g'
    x.ex = j :: ls →
    (Issues (formOf (.fence h k sc paths)) s x →
      Completes (.fence h k sc paths) s x (x.past (hdForm h))
        { x.grp with fences := x.grp.fences ++
            [⟨k, sc, paths, s.fencePre x k sc paths, if k = .rel then [] else s.pendingReads x.t x.g⟩] }) ∧
    queued (.cctlWb h ra rb) .wb ∧ queued (.cctlInv h ra rb) .inv ∧ queued (.cctlDrain h ra rb) .drain

/-- The hints act at issue on the caches alone: REPL asks every die for each region that a lane names below 2^57, the last lane of
a region deciding, and PF1 and PF2 fetch each lane's range in lane order (R206, R238). -/
def CacheHintPart : Prop :=
  ∀ (h : Hd) (ra : Base) (rb : Src) (s : State) (x : Ix) (j : Nat) (ls : List Nat),
    let acts := fun (i : Instr) (t : State) => Issues (formOf i) s x → x.ex = j :: ls → x.inTx = [] →
      ∃ g' : Group → Group, exec i s = .next (({ t with issuing := none }).updGroup x.t x.g g') ∧
        ∀ g, g.lanes.length = x.grp.lanes.length → Advanced (formOf i) t x (x.past (hdForm h)) g (g' g)
    let fetch := fun (l1 : Bool) => x.ex.foldl (fun (t : State) l =>
      t.prefetch x.t x.g x.team l1 (x.addr l ra) (x.word l rb).toNat) s
    let key := fun l => byteKey x.team.ctx (x.addr l ra)
    let below := x.ex.filter fun l => decide (x.addr l ra < 2 ^ 57)
    let decides := fun l => below.all fun m => !(decide (l < m) && key m / 2 ^ 21 == key l / 2 ^ 21)
    acts (.cctlPf1 h ra rb) (fetch true) ∧
    acts (.cctlPf2 h ra rb) (fetch false) ∧
    acts (.cctlRepl h ra rb)
      ((below.filter decides).foldl (fun (t : State) l => t.pinRegion (key l) ((x.word l rb).toNat % 8)) s).settle

/-- FENCE and CCTL at their issue, and the hints of CCTL (R174, R205, R206). -/
def Obligations.FenceAndCacheResults : Prop := FenceAndCachePart ∧ CacheHintPart

/-- TXBEG waits for the group's stores and then opens a transaction in each executing lane; inside one it traps TXCAP (R207, R212);
TXABT aborts every executing lane's transaction (R209, R210). -/
def TransactionBeginPart : Prop :=
  ∀ (h : Hd) (pn : Fin 7) (s : State) (x : Ix) (j : Nat) (ls : List Nat),
    (Issues (formOf (.txbeg h pn)) s x → x.ex = j :: ls → x.inTx = [] →
      Completes (.txbeg h pn) s x (x.past (hdForm h))
        { x.grp with held := .txbeg pn.val (maskOf x.ex) (x.pc + 8) (x.grp.storeQ.map (·.id)), wait := .txOpen }) ∧
    (Issues (formOf (.txbeg h pn)) s x → x.inTx = j :: ls →
      exec (.txbeg h pn) s = .next (s.raise x.t x.g 9 0 x.pc (maskOf (j :: ls)) 0)) ∧
    (Issues (formOf (.txabt h)) s x →
      Completes (.txabt h) s x (x.back (hdForm h)) (x.grp.abort x.inTx)) ∧
    ∀ (g : Group) (i : Nat) (t : TxState), i < g.lanes.length → (g.lane i).tx = some t →
      let l := (g.abort [i]).lane i
      l.tx = none ∧ l.lpc = t.resume ∧ l.relay = [] ∧ (t.pred < 7 → l.pred t.pred = false) ∧ l.regs = (g.lane i).regs

/-- What a lane's transaction holds, the lines that it writes, and the escapes that it has put off. -/
def Sys2Proof.Machine.Ix.writesOf (x : Ix) (i : Nat) : List TxWrite := ((x.grp.lane i).tx.map fun t => t.writes).getD []
def Sys2Proof.Machine.Ix.wroteLines (x : Ix) (i : Nat) : List Nat := ((x.grp.lane i).tx.map fun t => t.writeLines).getD []
def Sys2Proof.Machine.Ix.escapesOf (x : Ix) (i : Nat) : List StoreEnt := ((x.grp.lane i).tx.map fun t => t.escs).getD []

/-- `won` names the lanes of a TXEND that meet no write of a lane which comes before them and is named too (R214). -/
def MeetNone (x : Ix) (won : Nat → Bool) : Prop :=
  ∀ i ∈ x.inTx, ∀ t, (x.grp.lane i).tx = some t →
    (won i = true ↔ ∀ j ∈ x.inTx, j < i → won j = true → ∀ u, (x.grp.lane j).tx = some u →
      ∀ c ∈ t.readChunks ++ t.writeChunks, c ∉ u.writeChunks)

/-- The reads that transactions record are of chunks of memory, or of their task's own order of chunks that they have read, and their
writes are to bytes of memory. -/
def RecordsWell (x : Ix) : Prop :=
  ∀ i ∈ x.inTx, ∀ t, (x.grp.lane i).tx = some t →
    (∀ e ∈ t.reads, e.1 < 2 ^ 64 ∨ ∃ c ∈ t.readChunks, e.1 = verKey x.t c) ∧ ∀ w ∈ t.writes, w.bytes ≠ [] ∧ w.key + w.bytes.length ≤ 2 ^ 64

/-- TXEND (R208, R213, R214). Outside every transaction it answers false; where every lane inside one has read nothing and written nothing
it answers true and the transactions end; where every such lane has read what another agent has since written it answers false and the
lanes' relays empty. In general a lane commits where it meets no write of an earlier lane that does not itself meet one, and where
every read of it still holds; the others lose, and the escapes that all of them have put off join the store queue. In an ordinary team
what is committed stands at the lines' homes, several writes of a lane in its program order; a page that is not present makes the
TXEND wait, and a violation traps (R191, R417). In a task it is held in the version under the name of the TXEND, each escape is
counted, and where a limit forbids it a develop is forced first; an empty version takes it (R187, R347, R349; assumption 92). -/
def TransactionEndPart : Prop :=
  ∀ (h : Hd) (rd : Pred) (s : State) (x : Ix),
    let f := formOf (.txend h rd)
    let ends := fun (e : Nat → Lane → Lane) => Completes (.txend h rd) s x (x.past f) (x.each e)
    Issues f s x →
    (x.inTx = [] → ends fun _ l => l.setPred rd.val false) ∧
    let clean := s.net = [] ∧ ∀ e ∈ (s.core x.team.core).l1, e.2.dirty = 0
    (x.team.d.latent = false → clean →
      (∀ l ∈ x.ex, ∃ t, (x.grp.lane l).tx = some t ∧ t.reads = [] ∧ t.writes = [] ∧ t.writeLines = [] ∧ t.escs = []) →
      ends fun _ l => { l.setPred rd.val true with tx := none }) ∧
    (x.team.d.latent = false → clean →
      (∀ l ∈ x.ex, ∃ t, (x.grp.lane l).tx = some t ∧ s.txValid t = false ∧ t.escs = []) →
      ends fun _ l => { (l.setPred rd.val false).drop with tx := none }) ∧
    ∀ (won : Nat → Bool), MeetNone x won → RecordsWell x ∨ (∃ i, x.inTx = [i]) → x.inTx ≠ [] → clean →
      let wins := fun i => won i && (x.grp.lane i).tx.any s.txValid
      let winners := x.inTx.filter wins
      let es := x.inTx.flatMap x.escapesOf
      let ended := fun (u : State) => ∃ (g' : Group) (fresh : Nat → Nat), u.group x.t x.g = some g' ∧ u.issuing = none ∧
        (∀ e ∈ es, s.nextId ≤ fresh e.id ∧ fresh e.id < u.nextId ∧ ∀ e' ∈ es, fresh e'.id = fresh e.id → e'.id = e.id) ∧
        Advanced f s x (x.past f)
          { (x.each fun n l =>
              if l.tx.isNone then l.setPred rd.val false
              else if wins n then { l.setPred rd.val true with tx := none } else { (l.setPred rd.val false).drop with tx := none }) with
            storeQ := x.grp.storeQ ++ es.map fun e => { e with id := fresh e.id } } g'
      let acc := groupAcc x.team (.tx x.t x.g) 0 2
      let keys := (winners.flatMap x.wroteLines).map fun l => l * 128
      let v := winners.foldl (fun (v : Version) i => (x.writesOf i).foldl (fun (v : Version) w => v.add w.key w.bytes) v) x.team.ver
      let fits := v.lines ≤ 32768 ∧ s.heldLines (x.team.core / 40) + v.lines ≤ 393216 + x.team.ver.lines
      (x.team.d.latent = false →
        (∀ key code d st, s.xlates acc keys = .bad key code d st →
          exec (.txend h rd) s = .next ((s.notice acc key st).failAccess (.tx x.t x.g) key code d)) ∧
        (∀ s1, s.xlates acc keys = .wait s1 → exec (.txend h rd) s = .next { s1 with issuing := none }) ∧
        (∀ leaves, s.xlates acc keys = .ok leaves → ∃ u, exec (.txend h rd) s = .next u ∧ ended u ∧
          ((∀ i ∈ winners, x.writesOf i = []) → u.dram = s.dram ∧ u.copies = s.copies) ∧
          (∀ (i line : Nat) (leaf : Leaf), winners = [i] → x.wroteLines i = [line] → leaves = [leaf] →
            (∀ w ∈ x.writesOf i, w.key / 128 = line ∧ w.key % 128 + w.bytes.length ≤ 128) → s.AtRest x.team.core (line * 128) leaf →
            let byte := fun (n : Nat) => (x.writesOf i).foldl (fun (b : Byte) w =>
              if w.key ≤ n ∧ n < w.key + w.bytes.length then (w.bytes.getD (n - w.key) (0, false)).1 else b) (s.standing n leaf)
            (∀ n, n / 128 = line → u.standing n leaf = byte n) ∧ ∀ n l, n / 128 ≠ line → u.standing n l = s.standing n l) ∧
          (∀ (i j a b ka kb : Nat) (ba bb : List (Byte × Bool)) (la lb : Leaf), winners = [i, j] → x.writesOf i = [⟨a, ka, ba⟩] →
            x.writesOf j = [⟨b, kb, bb⟩] → x.wroteLines i = [ka / 128] → x.wroteLines j = [kb / 128] → leaves = [la, lb] →
            ka / 128 ≠ kb / 128 → ka % 128 + ba.length ≤ 128 → kb % 128 + bb.length ≤ 128 → s.AtRest x.team.core ka la →
            s.AtRest x.team.core kb lb →
            (∀ n, n / 128 = ka / 128 →
              u.standing n la = if ka ≤ n ∧ n < ka + ba.length then (ba.getD (n - ka) (0, false)).1 else s.standing n la) ∧
            (∀ n, n / 128 = kb / 128 →
              u.standing n lb = if kb ≤ n ∧ n < kb + bb.length then (bb.getD (n - kb) (0, false)).1 else s.standing n lb) ∧
            ∀ n l, n / 128 ≠ ka / 128 → n / 128 ≠ kb / 128 → u.standing n l = s.standing n l))) ∧
      (x.team.d.latent = true → fits ∨ (x.team.ver.isEmpty = true ∧ x.team.dev = none) →
        ∃ u r', exec (.txend h rd) s = .next u ∧ ended u ∧ u.team x.t = some r' ∧ u.copies = s.copies ∧ u.dram = s.dram ∧
          r'.ver = { v with writers := r'.ver.writers } ∧ r'.escapes = x.team.escapes + escCount es ∧
          ∀ i ∈ winners, ∀ w ∈ x.writesOf i, ∀ n, w.key / 128 ≤ n → 128 * n < w.key + w.bytes.length →
            ∃ y ∈ Tab.get [] r'.ver.writers n, y.team = x.t ∧ y.grp = x.g ∧ y.lpc = x.pc ∧ y.grid = x.team.grid) ∧
      (x.team.d.latent = true → ¬ fits → (x.team.ver.isEmpty && x.team.dev.isNone) = false →
        exec (.txend h rd) s = .next ({ s with issuing := none }.forceDevelop x.t))

/-- The instructions of a lane transaction (R207 to R214). -/
def Obligations.TransactionResults : Prop := TransactionBeginPart ∧ TransactionEndPart

/-! Copies, barriers and the tile unit (R131 to R153, R216 to R219, R256 to R260, R273 to R276). -/

/-- A barrier register beyond the team's traps BARMISUSE with its number, and nothing is done (R219, R273). -/
def BarrierNumberTrapsPart : Prop :=
  ∀ (h : Hd) (ra : Src) (rs rt : Base) (rg : Fin 64) (k : Fin 4) (rd : Pred) (j : Fin 16) (q dec esc na z sr vr : Bool) (form : BTestForm)
    (n : CpySize) (mode : LoopMode) (pts : HadPts) (s : State) (x : Ix) (i : Nat) (ls : List Nat),
    let traps := fun (c : Instr) => Issues (formOf c) s x → exec c s = .next (s.raise x.t x.g 11 j.val x.pc 0 0)
    x.ex = i :: ls → x.team.d.barriers ≤ j.val →
    traps (.binit h ra j) ∧ traps (.barv h j) ∧ traps (.bexp h ra j dec) ∧ traps (.bwait h j q) ∧ traps (.btest h rd j form) ∧
    traps (.bsync h j) ∧ traps (.cpy h rs rt n j esc na) ∧ traps (.cpyb h rg j esc) ∧ traps (.thad h rg pts j sr) ∧
    (k.val < x.team.banks.length → traps (.tloop h rg k j mode z) ∧ traps (.tqnt h rg k j sr vr))

/-- The six barrier instructions: their events are taken at the end of the cycle, BARV and BSYNC owe an arrival, and a group that
waits ends its passes and empties its executing lanes' relays (R37, R251, R258, R274, R275). -/
def BarrierIssuePart : Prop :=
  ∀ (h : Hd) (ra : Src) (rd : Pred) (j : Fin 16) (q dec : Bool) (form : BTestForm) (s : State) (x : Ix) (i : Nat) (ls : List Nat),
    let posts := fun (c : Instr) (e : Group) (k : BarKind) => Issues (formOf c) s x →
      ∃ g', exec c s = .next ((s.withGroup x g').barEvent x.t x.g j.val x.pc k) ∧
        Advanced (formOf c) s x (x.past (hdForm h)) e g'
    let owed := fun (sync : Bool) => x.grp.arrivals ++ [⟨s.nextId, j.val, x.pc, sync, x.grp.lsIds⟩]
    let stands := fun (w : Wait) =>
      { (x.grp.mapLanes fun l k => { k with relay := if x.ex.contains l then [] else k.relay, pass := none }) with wait := w }
    x.ex = i :: ls → j.val < x.team.d.barriers →
    posts (.btest h rd j form) x.grp
      (match form with | .par p => .test false p rd.val x.ex | .get => .test true false rd.val x.ex) ∧
    (x.inTx = [] →
      posts (.binit h ra j) x.grp (.init (x.word i ra).toNat) ∧
      posts (.bexp h ra j dec) x.grp (.post (x.word i ra).toNat dec) ∧
      posts (.bwait h j q) (stands (.barrier j.val q)) (.wait q) ∧
      (Issues (formOf (.barv h j)) s x →
        Completes (.barv h j) s x (x.past (hdForm h)) { x.grp with arrivals := owed false }) ∧
      (Issues (formOf (.bsync h j)) s x →
        Completes (.bsync h j) s x (x.past (hdForm h)) { stands (.arrival j.val) with arrivals := owed true }))

/-- The barrier instructions, and the numbers that trap (R253 to R262). -/
def Obligations.BarrierIssueResults : Prop := BarrierNumberTrapsPart ∧ BarrierIssuePart

/-- A register's fields stay where R256 has them: 1 ≤ TARGET ≤ 65,535, ARR at most TARGET, EXP below 2^40, and no register stands
with its phase complete. -/
def Sys2Proof.Machine.TeamRec.barsOk (r : TeamRec) : Prop :=
  ∀ b ∈ r.bars, 0 < b.target ∧ b.target ≤ 65535 ∧ b.arr ≤ b.target ∧ b.exp < 2 ^ 40 ∧ ¬(b.arr = b.target ∧ b.exp = 0)

/-- Every event on a register keeps that: an event that would break it traps (R256, R257, R260, R274). -/
def Obligations.BarrierRegistersStayInRange : Prop :=
  ∀ (r r' : TeamRec) (e : BarEv), r.barsOk → r.barStep e = .ok r' → r'.barsOk

/-- What each event does to its register `b`, below the number of the team's registers: arrivals, posts, landed data, targets and
waits, and the completion of a phase; BSYNC's arrival, after which its group waits for the phase that it arrived in, and BTEST's read of
the parity, by itself or against its own, into a predicate of its lanes (R256 to R260, R274). -/
def Obligations.BarrierEventRules : Prop :=
  ∀ (r : TeamRec) (id j g : Nat) (lpc : Word) (n dst : Nat) (lanes : List Nat) (get q na : Bool) (b : Bar), j < r.bars.length → r.bar j = b →
    let does := fun (k : BarKind) (b' : Bar) => ∃ r', r.barStep ⟨id, j, g, lpc, k⟩ = .ok r' ∧
      r'.bar j = if b'.arr = b'.target ∧ b'.exp = 0 then { b' with arr := 0, parity := !b'.parity, waiters := 0 } else b'
    let traps := fun (k : BarKind) (d : Nat) => r.barStep ⟨id, j, g, lpc, k⟩ = .error (j + 16 * d)
    does (.land n) { b with exp := b.exp - n } ∧
    (b.arr + 1 ≤ b.target → b.exp + n < 2 ^ 40 → does (.arrive n false false) { b with arr := b.arr + 1, exp := b.exp + n }) ∧
    (b.arr ≤ b.target → b.exp + n < 2 ^ 40 → does (.arrive n false true) { b with exp := b.exp + n }) ∧
    (b.target < b.arr + 1 → traps (.arrive n false false) 3) ∧
    (b.arr + (!na).toNat ≤ b.target → 2 ^ 40 ≤ b.exp + n → traps (.arrive n false na) 4) ∧
    (b.exp + n < 2 ^ 40 → does (.post n false) { b with exp := b.exp + n }) ∧
    (2 ^ 40 ≤ b.exp + n → traps (.post n false) 4) ∧
    (n ≤ b.exp → does (.post n true) { b with exp := b.exp - n }) ∧
    (b.exp < n → traps (.post n true) 5) ∧
    (n = 0 ∨ 65535 < n → traps (.init n) 1) ∧
    (0 < n → n ≤ 65535 → b.arr ≠ 0 ∨ b.exp ≠ 0 ∨ b.waiters ≠ 0 → traps (.init n) 2) ∧
    (0 < n → n ≤ 65535 → b.arr = 0 → b.exp = 0 → b.waiters = 0 → does (.init n) { b with target := n }) ∧
    (b.parity ≠ q → ∃ r', r.barStep ⟨id, j, g, lpc, .wait q⟩ = .ok r' ∧ r'.bar j = b ∧
      ∀ k, r.groups.find g = some k → r'.groups.find g = some { k with wait := .none }) ∧
    (b.parity = q → ∃ r', r.barStep ⟨id, j, g, lpc, .wait q⟩ = .ok r' ∧
      r'.bar j = { b with waiters := b.waiters ||| BitVec.ofNat 32 (2 ^ g) } ∧
      ∀ k, r.groups.find g = some k → r'.groups.find g = some { k with wait := .barrier j q }) ∧
    (b.target < b.arr + 1 → traps (.arrive 0 true false) 3) ∧
    (b.arr + 1 ≤ b.target → 2 ^ 40 ≤ b.exp → traps (.arrive 0 true false) 4) ∧
    (b.arr + 1 ≤ b.target → b.exp < 2 ^ 40 → ∃ r', r.barStep ⟨id, j, g, lpc, .arrive 0 true false⟩ = .ok r' ∧
      if b.arr + 1 = b.target ∧ b.exp = 0 then
        r'.bar j = { b with arr := 0, parity := !b.parity, waiters := 0 } ∧
        ∀ k, r.groups.find g = some k → r'.groups.find g = some { k with wait := .none }
      else
        r'.bar j = { b with arr := b.arr + 1, waiters := b.waiters ||| BitVec.ofNat 32 (2 ^ g) } ∧
        ∀ k, r.groups.find g = some k → r'.groups.find g = some { k with wait := .barrier j b.parity }) ∧
    (∃ r', r.barStep ⟨id, j, g, lpc, .test get q dst lanes⟩ = .ok r' ∧ r'.bars = r.bars ∧
      ∀ k, r.groups.find g = some k → r'.groups.find g = some (k.mapLanes fun i l =>
        if lanes.contains i then l.setPred dst (if get then b.parity else b.parity != q) else l))

/-- CPY is accepted with one source and one destination for each executing lane: it arrives on its register with the bytes that it
brings (R216, R217). -/
def CopyIssuePart : Prop :=
  ∀ (h : Hd) (ra rb : Base) (n : CpySize) (j : Fin 16) (esc na : Bool) (s : State) (x : Ix) (i : Nat) (ls : List Nat),
    let f := formOf (.cpy h ra rb n j esc na)
    let k := cpyBytes n
    Issues f s x → x.ex = i :: ls → x.inTx = [] → j.val < x.team.d.barriers →
    (∀ l ∈ x.ex, x.addr l ra % k = 0 ∧ x.addr l rb % k = 0 ∧ x.addr l ra + k ≤ 2 ^ 57 ∧ x.addr l rb + k ≤ 2 ^ 57) →
    ∃ g', Advanced f s x (x.past f) x.grp g' ∧
      let op : CopyOp := ⟨s.nextId, x.g, x.pc, k, j.val, esc, x.ex.map fun l => (l, x.addr l ra, x.addr l rb), false, []⟩
      let t := { s.withGroup x g' with nextId := s.nextId + 1 }.updTeam x.t fun r => { r with copies := r.copies ++ [op] }
      let t := if esc then t.escape x.t x.ex.length else t
      exec (.cpy h ra rb n j esc na) s = .next (t.barEvent x.t x.g j.val x.pc (.arrive (k * x.ex.length) false na))

/-- CPYB enters its core's bulk queue with the fields of its descriptor, or waits while 16 entries stand there; a descriptor that
R218 forbids, or a range that is misaligned or not reachable, traps (R218, R219). -/
def BulkCopyIssuePart : Prop :=
  ∀ (h : Hd) (ra : Fin 64) (j : Fin 16) (esc : Bool) (s : State) (x : Ix) (i : Nat) (ls : List Nat),
    let c : Instr := .cpyb h ra j esc
    let w := x.span i (.g ra) .S
    let peers := min (s.ctx x.team.ctx).peercnt.toNat 65536
    Issues (formOf c) s x → x.ex = i :: ls → j.val < x.team.d.barriers →
    (∀ code d a, bulkTrap w peers = some (code, d, a) → exec c s = .next (s.raise x.t x.g code d x.pc 0 a)) ∧
    (bulkTrap w peers = none → x.inTx = [] → (s.core x.team.core).bulkQ.length < 16 →
      ∃ g', Advanced (formOf c) s x (x.past (hdForm h)) x.grp g' ∧
        exec c s = .next ((s.withGroup x g').bulkAccept x.t x.g x.team w j.val esc x.pc)) ∧
    (bulkTrap w peers = none → x.inTx = [] → 16 ≤ (s.core x.team.core).bulkQ.length →
      Completes c s x (x.past (hdForm h)) { x.grp with held := .bulk w j.val esc x.pc, wait := .bulk }) ∧
    ∀ (t : State), (bulkDesc w).len ≠ 0 →
      let q := ((t.bulkAccept x.t x.g x.team w j.val esc x.pc).core x.team.core).bulkQ
      ∃ b : BulkOp, q = (t.core x.team.core).bulkQ ++ [b] ∧ b.src = (bulkDesc w).src ∧ b.dst = (bulkDesc w).dst ∧
        b.len = (bulkDesc w).len ∧ b.remote = (bulkDesc w).remote ∧ b.dir = (bulkDesc w).dir ∧ b.bar = j.val ∧
        b.todo = [(0, b.len / 16)] ∧ b.sent = []

/-- CPY and CPYB at their issue (R216 to R219). -/
def Obligations.CopyIssueResults : Prop := CopyIssuePart ∧ BulkCopyIssuePart

/-- TLOOP, THAD and TQNT enter their core's tile queue with the words of their descriptors, or wait while it is full; a descriptor
that is ill-formed traps ILLOP, and a base that is no multiple of 8 traps ALIGN (R133, R136, R142, R147, R149). -/
def TileIssuePart : Prop :=
  ∀ (h : Hd) (ra : Fin 64) (k : Fin 4) (j : Fin 16) (mode : LoopMode) (z sr vr : Bool) (pts : HadPts) (s : State) (x : Ix) (i : Nat)
    (ls : List Nat),
    let tile := fun (c : Instr) (w : List Word) (ill : List Word → Bool) (bases : List Nat) (bank : Nat) (kind : TileKind) =>
      Issues (formOf c) s x →
      let o : TileOp := ⟨0, x.t, x.g, x.pc, kind, w, bank, j.val, [], 0, false, none, []⟩
      (ill w = true → exec c s = .next (s.raise x.t x.g 1 0 x.pc 0 0)) ∧
      (∀ a, ill w = false → (bases.find? fun a => a % 8 != 0) = some a →
        exec c s = .next (s.raise x.t x.g 4 0 x.pc (maskOf x.ex) a)) ∧
      (ill w = false → (∀ a ∈ bases, a % 8 = 0) → x.inTx = [] → (s.core x.team.core).tileQ.length < 8 →
        ∃ g', Advanced (formOf c) s x (x.past (hdForm h)) x.grp g' ∧
          exec c s = .next ((s.withGroup x g').tileAccept x.t x.g x.team o)) ∧
      (ill w = false → (∀ a ∈ bases, a % 8 = 0) → x.inTx = [] → 8 ≤ (s.core x.team.core).tileQ.length →
        Completes c s x (x.past (hdForm h)) { x.grp with held := .tile o, wait := .tile })
    let w8 := x.span i (.g ra) .S
    let w4 := x.span i (.g ra) .Q
    x.ex = i :: ls → j.val < x.team.d.barriers →
    (∀ p, x.team.banks[k.val]? = some p →
      tile (.tloop h ra k j mode z) w8 loopIll [dbase w8 0, dbase w8 2] p (.loop mode z x.grp.noise) ∧
      tile (.tqnt h ra k j sr vr) w4 qntIll [dbase w4 0] p (.qnt sr vr)) ∧
    (x.team.banks.length ≤ 4 →
      tile (.thad h ra pts j sr) (w8.take 7) (hadIll pts) [dbase (w8.take 7) 0, dbase (w8.take 7) 2] (x.team.banks.getD 4 4)
        (.had pts sr))

/-- An accepted tile instruction posts its steps on its register, keeps the slot-3 streams as they stand for its dithers, and joins
the queue with them (R133, R135, R151). -/
def TileAcceptancePart : Prop :=
  ∀ (s : State) (t g : Nat) (r : TeamRec) (o : TileOp) (k : Group), s.team t = some r → r.groups.find g = some k → o.steps ≠ 0 →
    let s' := s.tileAccept t g r o
    (s'.core r.core).tileQ = (s.core r.core).tileQ ++ [{ o with id := s.nextId, dith := k.lanes.map fun l => l.slot 3 }] ∧
    (∃ r', s'.team t = some r' ∧ r'.barq = r.barq ++ [⟨s.nextId, o.bar, g, o.lpc, .arrive o.steps false false⟩] ∧
      r'.groups.find g = some (k.mapLanes fun i l => l.consume 3 (o.draws i)))

/-- The tile instructions at their issue, and what their acceptance does (R133, R136, R142, R147, R149). -/
def Obligations.TileIssueResults : Prop := TileIssuePart ∧ TileAcceptancePart

/-- TACC reads and writes one cell of its bank for each executing lane, in lane order; TACC.ZERO clears the bank (R148). -/
def Obligations.TileCellResults : Prop :=
  ∀ (h : Hd) (rd : LDst) (ra : Src) (k : Fin 4) (fm : AccForm) (sh : Shape) (s : State) (x : Ix) (i : Nat) (ls : List Nat) (p : Nat),
    let at_ := fun l => cellOf (x.word l ra)
    let cell := fun l => (s.core x.team.core).cell p (at_ l)
    x.ex = i :: ls → x.inTx = [] → x.team.banks[k.val]? = some p →
    (Issues (formOf (.taccRd h rd ra k fm)) s x → (∀ l ∈ x.ex, (cell l).poison = false) →
      ∃ s', exec (.taccRd h rd ra k fm) s = .next s' ∧
        Lands (formOf (.taccRd h rd ra k fm)) s x (.lane rd (if fm = .m then .M else .P))
          (fun l => match fm with | .p => [(cell l).mean] | .pvar => [(cell l).var] | .m => [(cell l).mean, (cell l).var]) x.slots s') ∧
    (Issues (formOf (.taccWr h .P rd ra k)) s x → ls = [] →
      let w := x.span i ra .M
      let c := (s.core x.team.core).cell p (cellOf (w.getD 1 0))
      let k' := (s.core x.team.core).setCell p (cellOf (w.getD 1 0)) ⟨w.getD 0 0, c.var, false⟩
      ∃ s', exec (.taccWr h .P rd ra k) s = .next s' ∧
        Lands (formOf (.taccWr h .P rd ra k)) (s.setCore x.team.core k') x (.lane rd .P) (fun _ => [c.mean]) x.slots s') ∧
    (Issues (formOf (.taccWr h .M rd ra k)) s x → ls = [] →
      let w := x.span i ra .Q
      let c := (s.core x.team.core).cell p (cellOf (w.getD 2 0))
      let k' := (s.core x.team.core).setCell p (cellOf (w.getD 2 0)) ⟨w.getD 0 0, w.getD 1 0, false⟩
      ∃ s', exec (.taccWr h .M rd ra k) s = .next s' ∧
        Lands (formOf (.taccWr h .M rd ra k)) (s.setCore x.team.core k') x (.lane rd .M) (fun _ => [c.mean, c.var]) x.slots s') ∧
    (sh = .P ∨ sh = .M → Issues (formOf (.taccWr h sh rd ra k)) s x →
      let out := taccWrites sh p (x.ins (formOf (.taccWr h sh rd ra k))) x.ex (s.core x.team.core)
      ∃ s', exec (.taccWr h sh rd ra k) s = .next s' ∧
        Lands (formOf (.taccWr h sh rd ra k)) (s.setCore x.team.core out.1) x (.lane rd sh)
          (fun l => ((out.2.find? fun e => e.1 == l).map (·.2)).getD []) x.slots s') ∧
    (Issues (formOf (.taccZero h k)) s x →
      ∃ g' c', exec (.taccZero h k) s = .next ((s.setCore x.team.core c').withGroup x g') ∧
        Advanced (formOf (.taccZero h k)) s x (x.past (hdForm h)) x.grp g' ∧
        (∀ n, c'.cell p n = ⟨0, 0, false⟩) ∧ (∀ b n, b ≠ p → c'.cell b n = (s.core x.team.core).cell b n) ∧
        { c' with bank := (s.core x.team.core).bank } = s.core x.team.core)

/-! Queues and grids (R17, R248, R252, R279 to R299). -/

/-- No ordered operation of a port waits behind a purge, so that what the port writes takes effect as it arrives (R184;
assumption 85). -/
def Sys2Proof.Machine.State.freeFor (s : State) (p : Port) : Prop := ∀ e ∈ s.hostQ, e.port = p → e.op.ordered = false

/-- An event on a queue: it leaves `k` in the queue's table entry, and nothing else has changed but the serial numbers. -/
def QueueBecomes (i : Instr) (s : State) (q n : Nat) (k : QueueRec) : Prop :=
  ∃ t, exec i s = .next t ∧ t.queue q = k ∧ (∀ j, j ≠ q → t.queue j = s.queue j) ∧
    { t with queues := s.queues } = { s with nextId := n }

/-- TAIL, the queue table and the active slots: a TAIL write counts where it is honoured, in an active queue's slot or for another
queue as its saved TAIL, and any other is a QUEUE event (assumption 23); a TAIL lowered to the accepted count starts the idle time; the
table takes BASE and its fields from the owner alone; a queue is switched in with its saved TAIL and switched out with
TAIL and PROGRESS saved; an event ring whose oldest record has waited TMO raises its vector (R288 to R291, R296). What a port writes
while an ordered operation of it waits is not stated here (R184). -/
def QueueEventPart : Prop :=
  ∀ (p : Port) (d : Die) (q : Fin 4096) (v : BitVec 64) (w : Fin 4) (n : Fin 16) (s : State) (a : Active), s.live = true →
    let k := s.queue q.val
    let r := s.ring d.val n.val
    let good := fun (size : Nat) => k.accepted ≤ v.toNat ∧ v.toNat ≤ k.progress + 2 ^ size
    let stored := { k with stail := v, first := some (k.first.getD s.nextId) }
    (s.freeFor p → s.portReach p d.val = true → k.active = none → k.cp.toNat = d.val → k.enable = false ∨ s.neverIn k = false →
      (good k.size.toNat → QueueBecomes (.tailWrite p d q v) s q.val (s.nextId + 1) stored) ∧
      (¬good k.size.toNat → exec (.tailWrite p d q v) s = .next (s.queueEvent d.val k.ring.toNat q.val v.toNat))) ∧
    (s.freeFor p → s.portReach p d.val = true → k.active = none → k.cp.toNat = d.val → k.enable = true → s.neverIn k = true →
      ∃ t : State, exec (.tailWrite p d q v) s = .next (t.queueEvent d.val k.ring.toNat q.val v.toNat) ∧ t.queue q.val = stored ∧
        (∀ j, j ≠ q.val → t.queue j = s.queue j) ∧ { t with queues := s.queues } = { s with nextId := s.nextId + 1 }) ∧
    (s.freeFor p → s.portReach p d.val = true → k.active = some a → a.cp = d.val →
      (good a.size → QueueBecomes (.tailWrite p d q v) s q.val s.nextId { k with active := some { a with
        tail := v.toNat, idleSince := if v.toNat = k.accepted ∧ a.tail ≠ k.accepted then s.time else a.idleSince } }) ∧
      (¬good a.size → exec (.tailWrite p d q v) s = .next (s.queueEvent d.val a.ring q.val v.toNat))) ∧
    (s.freeFor p → s.portReach p d.val = true → k.active = some a → a.cp ≠ d.val → exec (.tailWrite p d q v) s = .next s) ∧
    (s.freeFor p → s.portReach p d.val = false → exec (.tailWrite p d q v) s = .next (s.emit (.abort p))) ∧
    (s.freeFor p → (s.ctx k.ctx.toNat).owner = p →
      QueueBecomes (.queueTableWrite p q 0 v) s q.val s.nextId { k with base := v.extractLsb' 12 45 }) ∧
    (s.freeFor p → (s.ctx k.ctx.toNat).owner = p → (s.ctx (v.extractLsb' 8 6).toNat).owner = p →
      QueueBecomes (.queueTableWrite p q 1 v) s q.val s.nextId
        { k with size := v.extractLsb' 0 5, ctx := v.extractLsb' 8 6, cp := v.extractLsb' 16 2, ring := v.extractLsb' 20 4,
                 enable := v.getLsbD 24 }) ∧
    (s.freeFor p → (s.ctx k.ctx.toNat).owner ≠ p → exec (.queueTableWrite p q w v) s = .next s.foreign) ∧
    (s.fwRuns = true → s.isolated k.cp.toNat = false → s.nextIn k.cp.toNat = some q.val → s.activeCount k.cp.toNat < 64 →
      k.accepted ≤ k.stail.toNat → k.stail.toNat ≤ k.progress + 2 ^ k.size.toNat →
      QueueBecomes (.queueSwitchIn q) s q.val s.nextId
        { k with first := none
                 active := some ⟨k.base.toNat * 4096, k.size.toNat, k.ctx.toNat, k.cp.toNat, k.ring.toNat, k.stail.toNat, s.time,
                   false⟩ }) ∧
    (k.active = some a → a.tail = k.accepted → a.idleSince + 100000 ≤ s.time →
      QueueBecomes (.queueSwitchOut q) s q.val s.nextId
        { k with active := none, stail := BitVec.ofNat 64 a.tail, sprog := BitVec.ofNat 63 k.progress }) ∧
    (∀ t0, r.oldest = some t0 → t0 + 1000 * max r.rtmo.toNat 1 ≤ s.time → r.rvec.getLsbD 31 = true →
      ∃ t, exec (.eventRingTimeout d n) s = .next t ∧ t.out = s.out ++ [.msix r.port (r.rvec.toNat % 64)] ∧
        t.ring d.val n.val = { r with since := 0, oldest := none })

/-- A grid as R287 and R279 have it accepted: it takes the next sequence number of its CP, and waits for the check of its
descriptor, or fails, or has no descriptor at all; its hash is that of R368, and its entry on the contact sheet is in state 1. -/
def AcceptsGrid (t s : State) (cp desc status : Nat) (phase : Phase) (src : Source) (tail : Option Nat) : Prop :=
  ∃ g, t.grid s.nextId = some g ∧ g.seq = (s.die cp).csseq.toNat ∧ g.cp = cp ∧ g.desc = desc ∧ g.status = status ∧ g.phase = phase ∧
    g.src = src ∧ g.tail = tail ∧ g.tAccept = s.time ∧ (t.die cp).csseq = (s.die cp).csseq + 1 ∧
    g.hash = (match src with
      | .queue _ _ cmd => crc64 cmd
      | .launch e => crc64 (numBytes e.addr 8 ++ numBytes e.w2.toNat 4 ++ numBytes e.w3.toNat 4 ++ numBytes e.imm.toNat 4)) ∧
    ∃ u : State, u.grid s.nextId = some g ∧ t = u.sheet g 1

/-- A CP accepts the next command of an active queue, by the 64 bytes that it reads: a command that R287 forbids, or whose read was
refused, makes a grid with status INVALID; and the oldest launch entry of a context on its die, with the launching grid as its
parent under TAIL (R279, R287, R291). -/
def AcceptancePart : Prop :=
  ∀ (q : Fin 4096) (c : Ctx) (d : Die) (s s1 : State) (a : Active) (bs : List (Byte × Bool)) (e : LaunchEnt) (rest : List LaunchEnt),
    let k := s.queue q.val
    let raw := bs.map (·.1)
    let src := fun (l : List Byte) => Source.queue q.val (BitVec.ofNat 64 (fieldOf l 16 8)) l
    let takes := fun (s0 t : State) => (t.queue q.val).accepted = (s0.queue q.val).accepted + 1
    (k.active = some a → k.enable = true → s.accepts a.cp a.ctx = true → k.accepted < a.tail → s.blocked (.cmd q.val) = false →
      (a.refused = true → ∃ t, exec (.commandAccept q) s = .next t ∧ takes s t ∧
        AcceptsGrid t s a.cp 0 4 .waiting (src []) none) ∧
      (a.refused = false →
        s.cpRead ⟨.cmd q.val, a.ctx, 4, 1, a.cp, 255⟩ ((a.base + 64 * (k.accepted % 2 ^ a.size)) % 2 ^ 57) 64 = .ok bs s1 →
        (∀ b ∈ bs, b.2 = false) →
        ∃ t, exec (.commandAccept q) s = .next t ∧ takes s1 t ∧
          (∀ x, commandKind raw = some (some x) → AcceptsGrid t s1 a.cp x 0 .accepted (src raw) none) ∧
          (commandKind raw = some none → AcceptsGrid t s1 a.cp 0 0 .waiting (src raw) none) ∧
          (commandKind raw = none → AcceptsGrid t s1 a.cp 0 4 .waiting (src raw) none))) ∧
    (Tab.get [] s.launchQ (c.val * 4 + d.val) = e :: rest → s.accepts d.val c.val = true →
      ∃ t, exec (.launchEntryAccept c d) s = .next t ∧ Tab.get [] t.launchQ (c.val * 4 + d.val) = rest ∧
        AcceptsGrid t s d.val e.addr 0 .accepted (.launch e) (if e.imm.getLsbD 8 then some e.parent else none))

/-- Events of queues, and the acceptance of commands and launch entries (R279, R287 to R291, R296). -/
def Obligations.QueueAndAcceptanceResults : Prop := QueueEventPart ∧ AcceptancePart

/-- How many credits for an address a context holds. -/
def Sys2Proof.Machine.CtxRec.creditsFor (c : CtxRec) (a : Nat) : Nat := (c.credits.filter fun x => x == a).length

/-- Group `i` of a descriptor is one of role `j` (R246): its number follows those of the roles before it. -/
def OfRole (d : Desc) (i j : Nat) (ro : Role) : Prop :=
  d.roles[j]? = some ro ∧ ((d.roles.take j).map (·.groups)).sum ≤ i ∧ i < ((d.roles.take j).map (·.groups)).sum + ro.groups

/-- A group at its start, as R248 has it: every lane at its role's entry with nothing else, the scalar registers from the argument
words, and nothing under way. -/
def Starts (k : Group) (j part : Nat) (ro : Role) (d : Desc) (args : List Word) : Prop :=
  k.role = j ∧ k.part = part ∧
  k.lanes = List.replicate 32 ⟨ro.entry, true, none, [], 0, [], List.replicate 4 ⟨d.seed, 0, false, 0⟩, none⟩ ∧
  (∀ n, k.greg n = if n < args.length then RWord.clean (args.getD n 0) else RWord.zero) ∧
  k.nctl = 0 ∧ k.stalls = 0 ∧ k.latch = none ∧ k.prods = [] ∧ k.storeQ = [] ∧ k.loads = [] ∧ k.atoms = [] ∧ k.fences = [] ∧
  k.arrivals = [] ∧ k.wait = .none ∧ k.held = .none ∧ k.yield = none

/-- DESCRIPTOR_CHECK, PREDECESSOR_DECREMENT and TEAM_HAND_OUT: a legal descriptor, with the argument words that it asks for, puts its
grid into the graph with PRED less the credits held for it, and under TAIL behind its live parent; an illegal one fails it with INVALID
and one that no core could hold with UNPLACEABLE, and where the argument words cannot be read the descriptor stays for its successors; a
decrement lowers its grid or becomes a credit, and the parent's own frees a grid under TAIL; the next team in TEAM order starts on the
core that is chosen, every group of its role and as R248 says, with banks at +0 (R132, R246, R248, R254, R283, R292 to R299; the choices
of assumptions 24, 27, 28, 29 and 105 stand behind it). -/
def GridStartPart : Prop :=
  ∀ (g n : Nat) (s s1 s2 : State) (r : GridRec) (bs as : List (Byte × Bool)) (dec : Dec) (d : Desc) (core : Nat) (parts banks : List Nat),
    let raw := bs.map (·.1)
    let d1 := descOf raw
    let dims := gridDims r.src d1
    s.live = true → s.isolated r.cp = false → s.grid g = some r →
    let acc : Acc := ⟨.desc g, r.ctx, 4, 1, r.cp, 255⟩
    let failed := fun status : Nat => { r with phase := .waiting, status := status, d := some d1, preds := 0, tailed := false }
    let enters := fun (s0 : State) (args : List Word) =>
      let held := (s0.ctx r.ctx).creditsFor r.desc
      ∃ t r', exec (.descriptorCheck g) s = .next t ∧ t.grid g = some r' ∧ r'.phase = .waiting ∧ r'.status = r.status ∧ r'.d = some d1 ∧
        r'.args = args ∧ (r'.nx, r'.ny, r'.nz) = dims ∧ r'.preds = d1.pred - held ∧ (t.ctx r.ctx).creditsFor r.desc = held - d1.pred ∧
        (r'.tailed = true ↔ ∃ n p, r.tail = some n ∧ s0.grid n = some p ∧ p.phase ≠ .finished ∧ p.phase ≠ .recorded) ∧
        r'.tReady = (if r'.preds = 0 ∧ r'.tailed = false then s0.time else r.tReady) ∧
        (r'.preds = 0 → r'.tailed = false → ∃ u : State, u.grid g = some r' ∧ t = u.sheet r' 2)
    (r.phase = .accepted → s.blocked (.desc g) = false → s.cpRead acc r.desc 128 = .ok bs s1 →
      s1.grid g = some r → (∀ b ∈ bs, b.2 = false) →
      (descBad raw = false → d1.succBad = false → dims.1 * dims.2.1 * dims.2.2 < 2 ^ 32 → (d1.fit Parts.empty).isSome = true →
        (d1.gregs = 0 → enters s1 []) ∧
        (0 < d1.gregs → s1.cpRead acc d1.args (4 * d1.gregs) = .ok as s2 → s2.grid g = some r → (∀ b ∈ as, b.2 = false) →
          enters s2 (argWords (as.map (·.1)) d1.gregs)) ∧
        (0 < d1.gregs → s1.cpRead acc d1.args (4 * d1.gregs) = .wait s2 →
          exec (.descriptorCheck g) s = .next (s2.updGrid g fun r => { r with d := some d1 })) ∧
        (∀ key st, 0 < d1.gregs → s1.cpRead acc d1.args (4 * d1.gregs) = .bad key st →
          ∃ t, exec (.descriptorCheck g) s = .next t ∧ t.grid g = some (failed 4))) ∧
      (descBad raw = true ∨ d1.succBad = true ∨ 2 ^ 32 ≤ dims.1 * dims.2.1 * dims.2.2 →
        ∃ t, exec (.descriptorCheck g) s = .next t ∧ t.grid g = some (failed 4)) ∧
      (descBad raw = false → d1.succBad = false → dims.1 * dims.2.1 * dims.2.2 < 2 ^ 32 → d1.fit Parts.empty = none →
        ∃ t, exec (.descriptorCheck g) s = .next t ∧ t.grid g = some (failed 5))) ∧
    ((s.decs.find? fun x => x.id == n) = some dec →
      (dec.grid = none → s.decTarget dec.ctx dec.addr = some (g, r) → r.phase = .waiting → 0 < r.preds →
        ∃ t r', exec (.predecessorDecrement n) s = .next t ∧ t.grid g = some r' ∧ r'.preds = r.preds - 1 ∧ r'.tailed = r.tailed ∧
          r'.tReady = (if r.preds = 1 ∧ r.tailed = false then s.time else r.tReady) ∧ t.decs = s.decs.filter fun x => x.id != n) ∧
      (dec.grid = some g →
        ∃ t r', exec (.predecessorDecrement n) s = .next t ∧ t.grid g = some r' ∧ r'.preds = r.preds ∧ r'.tailed = false ∧
          r'.tReady = (if r.preds = 0 then s.time else r.tReady) ∧ t.decs = s.decs.filter fun x => x.id != n) ∧
      (dec.grid = none → s.decTarget dec.ctx dec.addr = none → (s.ctx dec.ctx).credits.length < 1024 →
        ∃ t, exec (.predecessorDecrement n) s = .next t ∧ (t.ctx dec.ctx).credits = (s.ctx dec.ctx).credits ++ [dec.addr] ∧
          t.grids = s.grids ∧ t.decs = s.decs.filter fun x => x.id != n)) ∧
    (r.d = some d → s.dispatches r = true → r.status = 0 → r.preds = 0 → r.tailed = false → r.phase = .waiting ∨ r.phase = .running →
      r.handlers = [] → r.retry = [] → r.next < r.nx * r.ny * r.nz →
      s.pickDie d r.ctx r.cp (match r.last with | none => r.cp | some x => ringNext x) = some (core, parts, banks) →
      ∃ t m r', exec (.teamHandOut g) s = .next t ∧ t.team s.nextId = some m ∧ t.grid g = some r' ∧ r'.next = r.next + 1 ∧
        r'.phase = .running ∧ r'.last = some (core / 40) ∧ m.ctx = r.ctx ∧ m.grid = g ∧ m.core = core ∧ m.banks = banks ∧
        m.num = r.next ∧ (m.gx, m.gy, m.gz) = (r.next % r.nx, r.next / r.nx % r.ny, r.next / r.nx / r.ny) ∧
        m.d = d ∧ m.task = (if d.latent then (s.ctx r.ctx).task else 0) ∧ m.ver = .empty ∧ m.dev = none ∧ m.trap = none ∧ m.conds = [] ∧
        (∀ e ∈ (t.core core).l1, lineOfCtx r.ctx e.1 = true → e.2.dirty ≠ 0) ∧
        (∀ b ∈ banks, ∀ n, (t.core core).cell b n = ⟨0, 0, false⟩) ∧ r'.tRun = (if r.phase = .waiting then s.time else r.tRun) ∧
        (r.phase = .waiting → ∃ u : State, u.grid g = some r' ∧ t = u.sheet r' 3) ∧
        m.bars = List.replicate d.barriers ⟨d.groups.length, 0, 0, false, 0⟩ ∧ m.groups.length = (d.roles.map (·.groups)).sum ∧
        (∀ i j ro, OfRole d i j ro → ∃ k, m.groups.find i = some k ∧ Starts k j (parts.getD i 0) ro d r.args) ∧
        (∀ u, u ≠ s.nextId → t.team u = s.team u))

/-- TEAM_END frees a team whose groups have exited with every store, ATOM, arrival and copy complete, after a task has developed what
it holds; GRID_COMPLETION releases at `.sys` and sends one decrement for each successor and each grid under TAIL; COMPLETION_RECORD writes the record into
the ring, advances PROGRESS and ends the grid (R17, R252, R294 to R297). -/
def GridEndPart : Prop :=
  ∀ (t g : Nat) (s : State) (m : TeamRec) (r r1 : GridRec) (rest : List (Nat × Nat)), s.live = true →
    (s.team t = some m → s.teamOver t m = true →
      (m.dev = none → m.ver.bytes = [] → m.ver.launches = [] →
        ∃ s', exec (.teamEnd t) s = .next s' ∧ s'.team t = none ∧ (∀ u, u ≠ t → s'.team u = s.team u) ∧
          (s'.core m.core).tileQ = (s.core m.core).tileQ ∧ s'.dram = s.dram ∧ s'.host = s.host) ∧
      (m.dev = none → m.ver.bytes ≠ [] ∨ m.ver.launches ≠ [] →
        exec (.teamEnd t) s = .next { s.updTeam t fun m =>
          { m with dev := some ⟨m.ver, false, none, s.nextId⟩, ver := .empty } with nextId := s.nextId + 1 }) ∧
      (m.dev.isSome = true → exec (.teamEnd t) s = .next s)) ∧
    (s.grid g = some r → s.isolated r.cp = false →
      (s.gridOver g r = true → (s.flushAll r.ctx).stillOut r.ctx = true →
        exec (.gridCompletion g) s = .next (s.flushAll r.ctx)) ∧
      (s.gridOver g r = true → (s.flushAll r.ctx).stillOut r.ctx = false → (s.releaseSys r.ctx r.ports).grid g = some r1 →
        ∃ s', exec (.gridCompletion g) s = .next s' ∧ s'.grid g = some { r1 with phase := .finished } ∧
          (∀ d, r.d = some d → ∀ a ∈ d.succs, a ≠ 0 →
            ∃ x ∈ s'.decs, x.src = g ∧ x.ctx = r.ctx ∧ x.addr = a ∧ x.grid = none) ∧
          (∀ n q, n ≠ g → (s.releaseSys r.ctx r.ports).grid n = some q → q.tail = some g → q.phase = .waiting → q.tailed = true →
            ∃ x ∈ s'.decs, x.src = g ∧ x.grid = some n)) ∧
      ((s.ring r.cp r.ring).waiting = (4096, g) :: rest → s.ringOpen r.cp r.ring = true →
        ∃ s', exec (.completionRecord g) s = .next s' ∧ s'.grid g = none ∧
          (∀ q tag cmd, r.src = .queue q tag cmd → (s'.queue q).progress = (s.queue q).progress + 1) ∧
          (rest = [] → (s'.ring r.cp r.ring).rtail = (s.ring r.cp r.ring).rtail + 1) ∧
          (rest = [] → (s.ring r.cp r.ring).rvec.getLsbD 31 = false →
            ∃ u : State, s' = { u.sheet { (r.stamps s.time) with status := r.statusCode } 4 with grids := s.grids.del g }) ∧
          (rest = [] → (s.die r.cp).csctl.getLsbD 31 = false → (s.ring r.cp r.ring).rbase.getLsbD 63 = true →
            s.reach r.cp (physOf (s.ring r.cp r.ring).rbase).die = true → s'.physRead ((physOf (s.ring r.cp r.ring).rbase).plus
              (32 * ((s.ring r.cp r.ring).rtail.toNat % (s.ring r.cp r.ring).size))) 32 = r.record s.time)))

/-- The contact sheet (R367, R368), for a sheet in host memory: the entry of sequence number `s` lies in slot `s` mod the entry count;
with enable 0, or at an isolated CP, nothing is written; each state writes STATE, HASH, QUEUE, STATUS in state 4 alone, and CTX, with
its stamps, and no other byte; a grid that ends without teams has equal stamps, and the hash is the CRC-64 of the polynomial, bit by bit
from the most significant; a slot whose entry is not yet COMPLETED holds back acceptance. -/
def ContactSheetPart : Prop :=
  ∀ (s : State) (g : GridRec) (state time : Nat) (cs : BitVec 32) (bs : List Byte) (b : Byte),
    let r := s.die g.cp
    let p := (physOf r.csbase).plus (64 * (g.seq % sheetSlots r.csctl))
    let t := s.sheet g state
    let rd := fun (u : State) (o n : Nat) => u.physRead (p.plus o) n
    let ends := { g with tDone := time }
    (cs.toNat % 32 ∈ [6, 7, 8, 9, 10, 11, 12, 13, 14, 15, 16] → sheetSlots cs = 2 ^ (cs.toNat % 32)) ∧
    (cs.toNat % 32 < 6 ∨ 16 < cs.toNat % 32 → sheetSlots cs = 64) ∧
    (r.csctl.getLsbD 31 = false ∨ s.isolated g.cp = true → t = s) ∧
    (r.csctl.getLsbD 31 = true → s.isolated g.cp = false → r.csbase.getLsbD 63 = true → r.csbase.toNat % 256 = 0 →
      p.addr + 64 ≤ 2 ^ 55 → s.physUp p = true → s.reach g.cp p.die = true → s.host.wf = true → 1 ≤ state → state ≤ 4 →
      rd t 0 16 = (if state = 1 then numBytes g.seq 8 ++ numBytes g.tag 8 else rd s 0 16) ∧
      rd t 16 16 = numBytes g.hash.toNat 8 ++ numBytes g.queueNo 2 ++ numBytes state 1 ++
        numBytes (if state = 4 then g.status else 0) 1 ++ numBytes g.ctx 1 ++ numBytes 0 3 ∧
      rd t 32 16 = (if state = 3 then rd s 32 16 else numBytes g.tAccept 8 ++ numBytes g.tReady 8) ∧
      rd t 48 16 = (if state = 2 then rd s 48 16 else numBytes g.tRun 8 ++ numBytes g.tDone 8) ∧
      (∀ q : Phys, q.host = true → q.addr < 2 ^ 55 → q.port ≠ p.port ∨ q.addr < p.addr ∨ p.addr + 64 ≤ q.addr →
        t.physRead q 1 = s.physRead q 1) ∧
      t.dram = s.dram) ∧
    ((∃ q tag cmd, g.src = .queue q tag cmd ∧ g.tag = tag.toNat ∧ g.queueNo = q) ∨
      (∃ e, g.src = .launch e ∧ g.tag = 0 ∧ g.queueNo = 65535)) ∧
    (g.phase = .finished → g.reset = false → g.d = none ∨ g.status ≠ 0 ∨ g.nx * g.ny * g.nz = 0 →
      g.stamps time = { ends with tAccept := time, tReady := time, tRun := time }) ∧
    (g.reset = true ∨ (g.d.isSome = true ∧ g.status = 0 ∧ 0 < g.nx * g.ny * g.nz) → g.stamps time = ends) ∧
    crc64 [] = 0 ∧
    crc64 (bs ++ [b]) = (List.range 8).foldl (fun (c : BitVec 64) (_ : Nat) =>
      (c <<< 1) ^^^ (if c.getLsbD 63 then 0x42F0E1EBA9EA3693 else 0)) (crc64 bs ^^^ (b.setWidth 64 <<< 56)) ∧
    (∀ n x, s.grid n = some x → x.cp = g.cp → r.csctl.getLsbD 31 = true →
      x.seq % sheetSlots r.csctl = r.csseq.toNat % sheetSlots r.csctl → ∀ c, s.accepts g.cp c = false)

/-- The start and the end of a grid, and its entry on the contact sheet (R17, R248, R293 to R296, R367, R368). -/
def Obligations.GridLifeResults : Prop := GridStartPart ∧ GridEndPart ∧ ContactSheetPart

/-! Contexts, purges and translation faults (R302 to R310, R319 to R326). -/

/-- An event on a context: it leaves `r` in the context's record, and nothing else has changed. -/
def CtxBecomes (i : Instr) (s : State) (c : Nat) (r : CtxRec) : Prop :=
  ∃ t, exec i s = .next t ∧ t.ctx c = r ∧ (∀ k, k ≠ c → t.ctx k = s.ctx k) ∧ { t with ctxs := s.ctxs } = s

/-- PREEMPT, RESUME, RESET, DESTROY and ENABLE by the context's owner or the authority port, the deadline, the end of a drain and of
a purge (R302 to R304, R308 to R310): any other port's event is ignored and counted. A reset ends every grid of its context, with the
records of R304, and leaves no decrement of it on its way (assumption 95). ENABLE sets the task number to 1 (assumption 35). -/
def Obligations.ContextEventResults : Prop :=
  ∀ (p : Port) (c : Ctx) (s : State), s.live = true →
    let r := s.ctx c.val
    let wasReset := fun (t : State) => (t.ctx c.val).draining = false ∧ (t.ctx c.val).halting = false ∧ (t.ctx c.val).left = 0 ∧
      (t.ctx c.val).stopped = true
    (s.freeFor p → s.mayCtx p c.val = true →
      (r.enable = true → r.draining = false →
        CtxBecomes (.preempt p c) s c.val
          { r with draining := true, left := min (max r.deadline.toNat 10) 4000000 * 198000 }) ∧
      (r.draining = false → CtxBecomes (.resume p c) s c.val { r with stopped := false }) ∧
      (r.enable = false → r.purging = false →
        CtxBecomes (.contextEnable p c) s c.val
          { r with enable := true, draining := false, halting := false, stopped := false, left := 0, task := 1,
                   credits := [] }) ∧
      (∃ t, exec (.contextReset p c) s = .next t ∧ wasReset t) ∧
      (r.draining = true → r.left = 0 → (∃ e ∈ s.teams, e.2.ctx = c.val) →
        exec (.deadlineExpiry c) s = exec (.contextReset p c) s) ∧
      (r.enable = true → ∃ t, exec (.contextDestroy p c) s = .next t ∧ wasReset t ∧ (t.ctx c.val).enable = false ∧
        (t.ctx c.val).purging = true)) ∧
    (∀ u : State, (∀ e ∈ (u.resetGrids c.val).grids, e.2.ctx = c.val → e.2.phase = .finished) ∧
      (∀ e ∈ u.grids, Tab.rising 0 u.grids = true → e.2.ctx = c.val → e.2.phase ≠ .finished → ∃ x ∈ (u.resetGrids c.val).grids, x.1 = e.1 ∧ x.2.reset = true) ∧
      ∀ x ∈ (u.resetGrids c.val).decs, x.ctx ≠ c.val) ∧
    (s.freeFor p → s.mayCtx p c.val = false →
      exec (.preempt p c) s = .next s.foreign ∧ exec (.resume p c) s = .next s.foreign ∧
      exec (.contextReset p c) s = .next s.foreign ∧ exec (.contextDestroy p c) s = .next s.foreign ∧
      exec (.contextEnable p c) s = .next s.foreign) ∧
    (r.draining = true → (∀ e ∈ s.teams, e.2.ctx ≠ c.val) →
      exec (.deadlineExpiry c) s = .next s ∧
      CtxBecomes (.drainEnd c) s c.val { r with draining := false, halting := false, left := 0, stopped := true }) ∧
    (r.purging = true →
      ∃ t, exec (.contextPurgeComplete c) s = .next t ∧ (t.ctx c.val).purging = false ∧ (t.ctx c.val).jobid.getLsbD 31 = false ∧
        (∀ e ∈ t.copies, keyTag (e.1 / 4 * 128) ≠ c.val) ∧ ∀ d, ∀ e ∈ (t.die d).tlb, keyTag e.1 ≠ c.val) ∧
    (∃ t, exec (.faultWaitPauseEnd c) s = .next t ∧ { t with faults := s.faults } = s ∧
      t.faults = s.faults.map fun f => if f.ctx = c.val ∧ f.time + 100000000 ≤ s.time then { f with young := false } else f)

/-- GO latches the job of a purge and makes the tasks that hold writes in its range develop by force, into a version of its own, with
an empty one for what they write from then on (R346); PURGE_COMPLETE waits for the
ATOMs that host memory has been asked for, and for those tasks, those that have come to hold a write among them, rewrites the entry, and
leaves no translation that meets the range behind (R326), where nothing that its end lets go on brings one back; ERR
is all that an illegal GO, or one on a purge that runs, leaves. -/
def Obligations.PurgeResults : Prop :=
  ∀ (p : Port) (w : Option Ctx) (s : State), s.live = true →
    let v := w.map (·.val)
    let q := s.purgeOf v
    let n := q.msize.toNat
    let ok := match w with | some c => s.mayCtx p c.val | none => s.pkg.auth == p
    (s.freeFor p → ok = false → exec (.purgeGo p w) s = .next s.foreign) ∧
    (s.freeFor p → ok = true → q.busy = true ∨ n < 16 ∨ 57 < n →
      ∃ t, exec (.purgeGo p w) s = .next t ∧ t.purgeOf v = { q with err := true } ∧ t.teams = s.teams) ∧
    (s.freeFor p → ok = true → q.busy = false → 16 ≤ n → n ≤ 57 →
      ∃ t, exec (.purgeGo p w) s = .next t ∧
        t.purgeOf v = { q with busy := true, job := some (q.mva.toNat % 2 ^ 57, n, q.mpte.toNat, q.mval.toNat) } ∧
        ∀ u r, Tab.rising 0 s.teams = true → s.team u = some r → ∃ r', t.team u = some r' ∧
          if r.trap = none ∧ r.dev = none ∧ r.ver.holdsIn (t.purgeOf v) (purgeTag v) = true
          then ∃ b, r' = { r with dev := some ⟨r.ver, true, none, b⟩, ver := .empty } else r' = r) ∧
    ∀ base size mpte mval, q.busy = true → q.job = some (base, size, mpte, mval) →
      (s.askedIn q (purgeTag v) = true → exec (.purgeComplete w) s = .next s) ∧
      (s.askedIn q (purgeTag v) = false → (∃ e ∈ s.teams, e.2.holdsIn q (purgeTag v) = true) →
        exec (.purgeComplete w) s = .next (s.forcePurged v)) ∧
      (s.askedIn q (purgeTag v) = false → (∀ e ∈ s.teams, e.2.holdsIn q (purgeTag v) = false) → s.arrivals = [] →
        ∃ t, exec (.purgeComplete w) s = .next t ∧ (t.purgeOf v).busy = false ∧ (t.purgeOf v).job = none ∧
          (∀ d, ∀ e ∈ (t.die d).tlb, q.meets (purgeTag v) e.1 e.2.size = false) ∧
          (∀ e ∈ t.copies, q.hits (purgeTag v) (e.1 / 4 * 128) = false) ∧
          ((physOf (BitVec.ofNat 64 mpte)).host = false → (physOf (BitVec.ofNat 64 mpte)).addr % 2 ^ 37 + 8 ≤ 120 * 2 ^ 30 →
            s.reach (portDie (match v with | some c => (s.ctx c).owner | none => s.pkg.auth)) (physOf (BitVec.ofNat 64 mpte)).die = true →
            mval < 2 ^ 64 → t.physNum (physOf (BitVec.ofNat 64 mpte)) 8 = mval))

/-- A page walk that finds its leaf fills the translation cache; one that finds nothing present forms a record that waits for the
host's reply, which takes its place in the fault queue and raises its vector (R319 to R324). RETRY retires the record; DECLINE ends a
load that waits on it in MEMPERM, and fails a grid whose descriptor or argument words waited on it, with what has been read of its
descriptor (R293). -/
def Obligations.TranslationFaultResults : Prop :=
  ∀ (p : Port) (c : Ctx) (seq : BitVec 62) (n : Nat) (s : State) (w : WalkReq) (l : Leaf) (f : FaultRec) (t0 g id key : Nat), s.live = true →
    ((s.walks.find? fun x => x.id == n) = some w → s.purging w.key = false → s.walkerFree w = true →
      (s.walk w.die w.key = .leaf l →
        ∃ t, exec (.pageWalk n) s = .next t ∧ tlbFind (t.die w.die).tlb w.key = some l ∧
          t.walks = s.walks.filter (fun x => x.key / 2 ^ 16 != w.key / 2 ^ 16) ∧ t.faults = s.faults ∧ t.teams = s.teams) ∧
      (s.walk w.die w.key = .absent → (∀ e ∈ s.faults, e.status = 0 → e.page ≠ w.key / 2 ^ 16) →
        ∃ t e, exec (.pageWalk n) s = .next t ∧ t.faults = s.faults ++ [e] ∧ e.status = 0 ∧ e.page = w.key / 2 ^ 16 ∧
          e.written = false ∧ e.time = s.time ∧ e.die = w.die ∧ e.kind = w.kind ∧ e.seq = (s.ctx e.ctx).seq ∧
          (w.req, w.key) ∈ e.reqs ∧ (t.ctx e.ctx).seq = (s.ctx e.ctx).seq + 1) ∧
      (∀ d t1 g1 id1, s.walk w.die w.key = .fatal d → w.req = .load t1 g1 id1 →
        ∃ t e, exec (.pageWalk n) s = .next t ∧ t.faults = s.faults ++ [e] ∧ e.status = 2)) ∧
    (s.firstFault c.val = some f → s.faultRoom (s.ctx c.val) = true →
      ∃ t, exec (.faultRecordWrite c) s = .next t ∧ (t.ctx c.val).fqtail = (s.ctx c.val).fqtail + 1 ∧
        t.out = s.out ++ [.msix (s.ctx c.val).owner ((s.ctx c.val).fqctl.toNat / 2 ^ 8 % 64)] ∧
        (f.status = 0 → { f with written := true } ∈ t.faults) ∧
        (f.status ≠ 0 → ∀ e ∈ t.faults, e.ctx = c.val → e.seq = f.seq → e.status = 0) ∧
        ((physOf (s.ctx c.val).fqbase).host = true → s.reach f.die (physOf (s.ctx c.val).fqbase).die = true →
          t.physRead ((physOf (s.ctx c.val).fqbase).plus
            (32 * ((s.ctx c.val).fqtail.toNat % faultSlots (s.ctx c.val)))) 32 = f.bytes)) ∧
    (s.freeFor p → s.mayCtx p c.val = false →
      exec (.freplyRetry p c seq) s = .next s.foreign ∧ exec (.freplyDecline p c seq) s = .next s.foreign) ∧
    (s.freeFor p → s.mayCtx p c.val = true → s.pendingFault c.val seq.toNat = none →
      exec (.freplyRetry p c seq) s = .next s ∧ exec (.freplyDecline p c seq) s = .next s) ∧
    (s.freeFor p → s.mayCtx p c.val = true → s.pendingFault c.val seq.toNat = some f →
      let rest := { s with faults := s.faults.filter fun e => !(e.ctx == c.val && e.seq == seq.toNat) }
      ((∀ e ∈ f.reqs, ∀ i, e.1 ≠ .arrival i) → exec (.freplyRetry p c seq) s = .next rest) ∧
      (f.reqs = [(.load t0 g id, key)] →
        exec (.freplyDecline p c seq) s = .next (rest.failAccess (.load t0 g id) key 5 (f.acc % 16 + 256))) ∧
      (∀ gr, f.reqs = [(.desc g, key)] → s.grid g = some gr → gr.phase = .accepted →
        ∃ t, exec (.freplyDecline p c seq) s = .next t ∧
          t.grid g = some { gr with phase := .waiting, status := 4, preds := 0, tailed := false }))

/-! The host, resets and links (R331 to R343, R361 to R367, R373). -/

/-- What a device reset leaves: nothing resident, no context, no line and nothing in device memory; the straps, the sensors, host
memory and the port links stay (R333, R335, R373). -/
def WasReset (s t : State) : Prop :=
  t.teams = [] ∧ t.grids = [] ∧ t.ctxs = [] ∧ t.queues = [] ∧ t.dies = [] ∧ t.cores = [] ∧ t.copies = [] ∧ t.dirs = [] ∧
  t.dram = [] ∧ t.faults = [] ∧ t.links = [] ∧ t.hostQ = [] ∧ t.host = s.host ∧ t.clock = ⟨0, 0⟩ ∧ t.pkg.straps = s.pkg.straps ∧
  t.pkg.auth = (if s.pkg.straps.getLsbD 0 then .b else .a) ∧ t.pkg.fw = .empty ∧ t.pkg.pa.up = s.pkg.pa.up ∧
  t.pkg.pb.up = s.pkg.pb.up ∧ t.thermal = { Thermal.reset with sensors := s.thermal.sensors }

/-- Authority, resets and power (R333, R335, R372, R373, R378): RESET, PERST# on the authority port, power and the release of a held
reset each reset the device; in TRIPPED a reset is held while a sensor lies above 330 K. PERST# on the other port, and its reset,
destroy that port's contexts; PORT_RESET on the authority port leaves the state as it is (assumption 46). -/
def Obligations.ResetAndAuthorityResults : Prop :=
  ∀ (p dst : Port) (c : Ctx) (s : State),
    let resets := fun (i : Instr) => ∃ t, exec i s = .next t ∧ WasReset s t
    (s.live = true → s.pkg.auth = p →
      (s.freeFor p → exec (.authorityMove p dst) s = .next { s with pkg := { s.pkg with auth := dst } } ∧ resets (.deviceReset p)) ∧
      resets (.perst p) ∧ exec (.portReset p) s = .next s) ∧
    (s.live = true → s.freeFor p → s.pkg.auth ≠ p →
      exec (.authorityMove p dst) s = .next s.foreign ∧ exec (.deviceReset p) s = .next s.foreign) ∧
    (s.live = true → s.pkg.auth ≠ p → (List.range 64).filter (fun k => (s.ctx k).owner == p) = [c.val] → (s.ctx c.val).enable = true →
      ∃ t, exec (.perst p) s = .next t ∧ exec (.portReset p) s = .next t ∧ (t.ctx c.val).enable = false ∧
        (t.ctx c.val).purging = true) ∧
    (s.thermal.state = .off → resets .powerOn) ∧
    (s.thermal.state ≠ .off → exec .powerOn s = .next s) ∧
    (s.thermal.state = .tripped →
      (s.pkg.auth = p → s.coolEnough = false →
        exec (.deviceReset p) s = .next { s with thermal := { s.thermal with heldReset := true } }) ∧
      (s.pkg.auth = p → s.coolEnough = true → resets (.deviceReset p)) ∧
      (s.thermal.heldReset = true → s.coolEnough = true → resets .tripResetRelease) ∧
      (s.coolEnough = false → exec .tripResetRelease s = .next s) ∧
      ∃ t, exec .corePowerRemoval s = .next t ∧ t.thermal.state = .off ∧ t.teams = [] ∧ t.ctxs = [] ∧ t.host = s.host) ∧
    (s.thermal.state ≠ .tripped → exec .corePowerRemoval s = .next s ∧ exec .tripResetRelease s = .next s)

/-- Accesses through the apertures: by the owner of the context, under its translation, and by the authority port directly at the
DRAM array; every other access is answered with Unsupported Request, and one that reaches beyond 2^57 or whose translation fails, for
a read or a write, with Completer Abort (R325, R334, R361). Across a cut a read is poisoned and a write is lost (R366). What a purge
holds waits (R326). -/
def AperturePart : Prop :=
  ∀ (p : Port) (off : BitVec 34) (o32 : BitVec 32) (n st k2 : Nat) (bs : List Byte) (a : HostAcc) (ep ro : Bool) (s s1 : State)
    (ls : List Leaf) (l : Leaf), s.live = true →
    let c := (s.port p).apctx.toNat
    let va := (s.port p).apbase.toNat * 2 ^ 34 + off.toNat
    let key := byteKey c va
    let at_ : Phys := ⟨false, .a, (s.port p).physwin.toNat * 2 ^ 32 + o32.toNat⟩
    let passes := (∃ bs ep, a = .write bs ep true) ∨ s.freeFor p
    let here := exec (.contextApertureAccess p off a) s
    let there := exec (.physicalApertureAccess p o32 a) s
    let met := State.meet ⟨.outw 0, c, 0, match a with | .read _ => 1 | .write _ _ _ => 2, portDie p, 255⟩ (lineKeys key (hostSize a)) s
    (passes →
      ((s.ctx c).owner ≠ p → here = .next (s.emit (.unsupported p))) ∧
      ((s.ctx c).owner = p → 2 ^ 57 < va + hostSize a → here = .next (s.emit (.abort p))) ∧
      ((s.ctx c).owner = p → va + hostSize a ≤ 2 ^ 57 →
        (met = .bad k2 st s1 ∨ met = .wait k2 s1 → here = .next (s1.emit (.abort p))) ∧
        (met = .held s1 → here = .next (s.hostWait p (.mem c va a))) ∧
        (met = .ok ls s1 → a = .read n →
          let v := s1.fabricRead (portDie p) key n ls
          here = .next (v.2.emit (.readData p (v.1.map (·.1)) (v.1.any (·.2))))) ∧
        (met = .ok ls s1 → a = .write bs ep ro → here = .next (s1.fabricWrite (portDie p) key bs ep ls)) ∧
        (met = .ok [l] s1 → l.host = false → s1.net = [] → s1.reach (portDie p) (s1.dir (key / 128) l).home = false →
          0 < hostSize a → key % 128 + hostSize a ≤ 128 →
          (a = .read n → here = .next (s1.emit (.readData p (List.replicate n 0) true))) ∧
          (a = .write bs ep ro → here = .next (s1.updDie (portDie p) fun r => { r with lostw := r.lostw + 1 })))) ∧
      (s.pkg.auth ≠ p → there = .next (s.emit (.unsupported p))) ∧
      (s.pkg.auth = p → s.reach (portDie p) (at_.addr / 2 ^ 37) = true →
        (a = .read n → there = .next (s.emit (.readData p (s.physRead at_ n) (s.physMark at_ n)))) ∧
        (a = .write bs false ro → at_.addr % 2 ^ 37 + bs.length ≤ 120 * 2 ^ 30 →
          ∃ t, there = .next t ∧ t.physRead at_ bs.length = bs ∧
            ∀ k, k < at_.addr ∨ at_.addr + bs.length ≤ k → t.dram.byte k = s.dram.byte k)) ∧
      (s.pkg.auth = p → s.reach (portDie p) (at_.addr / 2 ^ 37) = false →
        (a = .read n → there = .next (s.emit (.readData p (List.replicate n 0) true))) ∧
        (a = .write bs ep ro → there = .next (s.updDie (portDie p) fun r => { r with lostw := r.lostw + 1 })))) ∧
    (¬passes → here = .next (s.hostWait p (.aperture off a)) ∧ there = .next (s.hostWait p (.physical o32 a)))

/-- While an ordered operation of a port waits behind a purge, every later write of the port to a register waits behind it, whatever the
register (R184; assumption 85): the doorbell, the queue table, FREPLY, a purge's GO, the fields of CTXCTL, AUTH, FWCTL, RESET, THCTL, and
every other. -/
def HostOrderPart : Prop :=
  ∀ (p dst : Port) (c : Ctx) (w : Option Ctx) (d : Die) (q : Fin 4096) (k : Fin 4) (v : BitVec 64) (seq : BitVec 62) (off : BitVec 27)
    (wide : Bool) (s : State), s.live = true → ¬s.freeFor p →
    let waits := fun (i : Instr) (op : HostOp) => exec i s = .next (s.hostWait p op)
    waits (.tailWrite p d q v) (.tail d.val q.val v) ∧ waits (.queueTableWrite p q k v) (.table q.val k.val v) ∧
    waits (.freplyRetry p c seq) (.reply c.val seq.toNat false) ∧ waits (.freplyDecline p c seq) (.reply c.val seq.toNat true) ∧
    waits (.purgeGo p w) (.purge (w.map (·.val))) ∧ waits (.preempt p c) (.ctx c.val .preempt) ∧
    waits (.resume p c) (.ctx c.val .resume) ∧ waits (.contextReset p c) (.ctx c.val .reset) ∧
    waits (.contextDestroy p c) (.ctx c.val .destroy) ∧ waits (.contextEnable p c) (.ctx c.val .enable) ∧
    waits (.authorityMove p dst) (.authority dst) ∧ waits (.firmwareGo p) .firmware ∧ waits (.deviceReset p) .deviceReset ∧
    waits (.cool p) .cool ∧ waits (.warm p) .warm ∧ waits (.registerWrite p off wide v) (.reg off wide v)

/-- The host's accesses through the apertures, and what waits at a port (R184, R325, R326, R334, R361, R366). -/
def Obligations.ApertureResults : Prop := AperturePart ∧ HostOrderPart

/-- In `t` a context's record is `r`, and nothing else differs from `s`. -/
def CtxIs (s t : State) (c : Nat) (r : CtxRec) : Prop :=
  t.ctx c = r ∧ (∀ k, k ≠ c → t.ctx k = s.ctx k) ∧ { t with ctxs := s.ctxs } = s

/-- An event leaves a die's record as `r`, and nothing else has changed. -/
def DieBecomes (i : Instr) (s : State) (d : Nat) (r : DieRec) : Prop :=
  ∃ t, exec i s = .next t ∧ t.die d = r ∧ (∀ k, k ≠ d → t.die k = s.die k) ∧ { t with dies := s.dies } = s

/-- CTXCTL: WINDOW and CNTRS are taken as they stand; OWNER by a write of the authority port alone; ENABLE that rises enables and that
falls destroys; RESET, RESUME and PREEMPT act as their events (R302, R304, R307 to R310). -/
def ContextControlPart : Prop :=
  ∀ (p : Port) (c : Ctx) (v : BitVec 32) (s : State), s.live = true → s.freeFor p → s.mayCtx p c.val = true →
    let w : Instr := .registerWrite p (BitVec.ofNat 27 (0x10000 + 256 * c.val)) false (v.setWidth 64)
    let owner : Port := if v.getLsbD 30 then .b else .a
    let fields := fun (r : CtxRec) => { r with window := v.extractLsb' 28 2, cntrs := v.getLsbD 27 }
    let same := (s.ctx c.val).enable = v.getLsbD 31
    let quiet := v.extractLsb' 24 3 = 0
    (same → s.pkg.auth = p → quiet →
      CtxBecomes w s c.val { fields (s.ctx c.val) with owner := owner }) ∧
    (same → s.pkg.auth ≠ p → owner ≠ (s.ctx c.val).owner → quiet →
      ∃ t, exec w s = .next t.foreign ∧ CtxIs s t c.val (fields (s.ctx c.val))) ∧
    (owner = (s.ctx c.val).owner → same →
      ∃ t, CtxIs s t c.val (fields (s.ctx c.val)) ∧
        (v.extractLsb' 24 3 = 1 → exec w s = exec (.contextReset p c) t) ∧
        (v.extractLsb' 24 3 = 2 → exec w s = exec (.resume p c) t) ∧
        (v.extractLsb' 24 3 = 4 → exec w s = exec (.preempt p c) t)) ∧
    (owner = (s.ctx c.val).owner → quiet → (s.ctx c.val).enable = false → v.getLsbD 31 = true →
      ∃ t u, exec (.contextEnable p c) s = .next t ∧ exec w s = .next u ∧ CtxIs t u c.val (fields (t.ctx c.val))) ∧
    (owner = (s.ctx c.val).owner → quiet → (s.ctx c.val).enable = true → v.getLsbD 31 = false →
      ∃ t u, exec (.contextDestroy p c) s = .next t ∧ exec w s = .next u ∧
        CtxIs t u c.val (fields (t.ctx c.val)))

/-- The other registers of a context's block and of its recovery block (R307, R308, R315, R316, R324, R326, R338, R356): a register takes its
fields and nothing else, and a pointer that R315 or R316 forbids is not taken; a write of GO or of FREPLY acts as its event; any other
port's write is ignored and counted. That TRAPBASE and TRAPDESC drop the low bits of what is written is assumption 47. -/
def ContextRegisterPart : Prop :=
  ∀ (p : Port) (c : Ctx) (k : Fin 4) (v : BitVec 32) (x : BitVec 64) (o : Nat) (s : State), s.live = true → s.freeFor p →
    let w4 := fun (o : Nat) => (.registerWrite p (BitVec.ofNat 27 o) false (v.setWidth 64) : Instr)
    let w8 := fun (o : Nat) => (.registerWrite p (BitVec.ofNat 27 o) true x : Instr)
    let ctx := 0x10000 + 256 * c.val
    let rec_ := 0x40000 + 32 * c.val
    let r := s.ctx c.val
    (s.mayCtx p c.val = true →
      CtxBecomes (w4 (ctx + 4)) s c.val { r with deadline := v } ∧
      CtxBecomes (w8 (ctx + 8)) s c.val { r with root := if ptrOk x then x else r.root } ∧
      CtxBecomes (w8 (ctx + 0x10)) s c.val { r with fqbase := if entryOk x 32 then x else r.fqbase } ∧
      CtxBecomes (w4 (ctx + 0x18)) s c.val { r with fqctl := v &&& 0x80003F0F } ∧
      CtxBecomes (w4 (ctx + 0x1C)) s c.val { r with fqhead := v } ∧
      CtxBecomes (w4 (ctx + 0x24)) s c.val { r with jobid := v &&& 0x80FFFFFF } ∧
      CtxBecomes (w8 (ctx + 0x30)) s c.val { r with peerbase := if entryOk x 32 then x else r.peerbase } ∧
      CtxBecomes (w4 (ctx + 0x38)) s c.val { r with peercnt := v } ∧
      (∃ b, CtxBecomes (w8 (ctx + 0x40 + 8 * k.val)) s c.val { r with chain := b } ∧
        ∀ j, j < 4 → b.extractLsb' (64 * j) 64 = if j = k.val then x else r.chain.extractLsb' (64 * j) 64) ∧
      CtxBecomes (w8 (ctx + 0x60)) s c.val { r with purge := { r.purge with mva := x } } ∧
      CtxBecomes (w8 (ctx + 0x68)) s c.val { r with purge := { r.purge with mpte := if entryOk x 8 then x else r.purge.mpte } } ∧
      CtxBecomes (w8 (ctx + 0x70)) s c.val { r with purge := { r.purge with mval := x } } ∧
      (let set := { r.purge with msize := v.extractLsb' 0 6, err := r.purge.err && !v.getLsbD 29 }
       (v.getLsbD 31 = false → CtxBecomes (w4 (ctx + 0x78)) s c.val { r with purge := set }) ∧
       (v.getLsbD 31 = true → r.purge.busy = true → CtxBecomes (w4 (ctx + 0x78)) s c.val { r with purge := { r.purge with err := true } }) ∧
       (v.getLsbD 31 = true → r.purge.busy = false →
         ∃ t, CtxIs s t c.val { r with purge := set } ∧ exec (w4 (ctx + 0x78)) s = exec (.purgeGo p (some c)) t)) ∧
      CtxBecomes (w8 rec_) s c.val { r with trapdesc := x &&& ~~~(63 : BitVec 64) } ∧
      CtxBecomes (w8 (rec_ + 8)) s c.val { r with trapbase := x &&& ~~~(127 : BitVec 64) } ∧
      CtxBecomes (w4 (rec_ + 0x10)) s c.val { r with trapctl := v &&& 0x800000FF }) ∧
    (x.extractLsb' 62 2 = 0 → exec (w8 (ctx + 0x28)) s = exec (.freplyRetry p c (x.extractLsb' 0 62)) s) ∧
    (x.extractLsb' 62 2 = 1 → exec (w8 (ctx + 0x28)) s = exec (.freplyDecline p c (x.extractLsb' 0 62)) s) ∧
    (s.mayCtx p c.val = true → 2 ≤ (x.extractLsb' 62 2).toNat → exec (w8 (ctx + 0x28)) s = .next s) ∧
    (s.mayCtx p c.val = false →
      (o < 256 → o % 4 = 0 → exec (w4 (ctx + o)) s = .next s.foreign) ∧
      (o < 256 → o % 8 = 0 → exec (w8 (ctx + o)) s = .next s.foreign) ∧
      (o < 32 → o % 4 = 0 → exec (w4 (rec_ + o)) s = .next s.foreign) ∧
      (o < 32 → o % 8 = 0 → exec (w8 (rec_ + o)) s = .next s.foreign)) ∧
    exec (w4 0x00A) s = .next s

/-- The package registers, the staging area, the queue table, the doorbells and the thermal block (R288, R289, R333, R334, R341, R381): the
authority port alone writes what R333 and R381 give it, and any other port's write is ignored and counted; AUTH, RESET, FWCTL, GO and
the commands act as their events. -/
def PackageRegisterPart : Prop :=
  ∀ (p : Port) (d : Die) (q : Fin 4096) (k : Fin 4) (v : BitVec 32) (x : BitVec 64) (o : Nat) (s : State), s.live = true → s.freeFor p →
    let w4 := fun (o : Nat) => (.registerWrite p (BitVec.ofNat 27 o) false (v.setWidth 64) : Instr)
    let w8 := fun (o : Nat) => (.registerWrite p (BitVec.ofNat 27 o) true x : Instr)
    let g := s.pkg
    let th := s.thermal
    let pkg := fun (i : Instr) (k : Pkg) => exec i s = .next { s with pkg := k }
    exec (w4 0x01C) s = .next (s.updPort p fun r => { r with apctx := v.extractLsb' 0 6 }) ∧
    exec (w8 0x020) s = .next (s.updPort p fun r => { r with apbase := x.extractLsb' 0 23 }) ∧
    exec (w4 0x008) s = exec (.authorityMove p (if v.getLsbD 0 then .b else .a)) s ∧
    (v.getLsbD 0 = true → exec (w4 0x014) s = exec (.deviceReset p) s ∧ exec (w4 0x050) s = exec (.firmwareGo p) s) ∧
    (s.pkg.auth = p →
      (v.getLsbD 0 = false → exec (w4 0x014) s = .next s ∧ exec (w4 0x050) s = .next s) ∧
      exec (w4 0x018) s = .next (s.updPort p fun r => { r with physwin := v.extractLsb' 0 7 }) ∧
      pkg (w8 0x028) { g with wroot := if ptrOk x then x else g.wroot } ∧
      pkg (w8 0x030) { g with wpurge := { g.wpurge with mva := x } } ∧
      pkg (w8 0x038) { g with wpurge := { g.wpurge with mpte := if entryOk x 8 then x else g.wpurge.mpte } } ∧
      pkg (w8 0x040) { g with wpurge := { g.wpurge with mval := x } } ∧
      (let set := { g.wpurge with msize := v.extractLsb' 0 6, err := g.wpurge.err && !v.getLsbD 29 }
       (v.getLsbD 31 = false → pkg (w4 0x048) { g with wpurge := set }) ∧
       (v.getLsbD 31 = true → g.wpurge.busy = true → pkg (w4 0x048) { g with wpurge := { g.wpurge with err := true } }) ∧
       (v.getLsbD 31 = true → g.wpurge.busy = false →
         exec (w4 0x048) s = exec (.purgeGo p none) { s with pkg := { g with wpurge := set } })) ∧
      (o < 2 ^ 23 → o % 4 = 0 →
        ∃ m, pkg (w4 (0x800000 + o)) { g with staging := m } ∧ m.num o 4 = v.toNat ∧
          ∀ n, n < o ∨ o + 4 ≤ n → m.byte n = g.staging.byte n) ∧
      (let thermal := fun (i : Instr) (t : Thermal) => exec i s = .next { s with thermal := t }
       thermal (w4 0x50000) { th with err := th.err && !v.getLsbD 11 } ∧
       thermal (w4 0x50008) { th with tbath := v.extractLsb' 0 12 } ∧
       thermal (w4 0x5000C) { th with evt := th.evt &&& ~~~(v.extractLsb' 0 5) } ∧
       let vec := { s with thermal := { th with thvec := v.extractLsb' 2 6 } }
       (v.extractLsb' 0 2 = 0 ∨ v.extractLsb' 0 2 = 3 → exec (w4 0x50004) s = .next vec) ∧
       (v.extractLsb' 0 2 = 1 → exec (w4 0x50004) s = exec (.cool p) vec) ∧
       (v.extractLsb' 0 2 = 2 → exec (w4 0x50004) s = exec (.warm p) vec))) ∧
    (s.pkg.auth ≠ p →
      (∀ o ∈ [0x008, 0x014, 0x018, 0x028, 0x02C, 0x030, 0x034, 0x038, 0x03C, 0x040, 0x044, 0x048, 0x050, 0x50000, 0x50004, 0x50008, 0x5000C],
        exec (w4 o) s = .next s.foreign) ∧
      (o < 2 ^ 23 → o % 4 = 0 → exec (w4 (0x800000 + o)) s = .next s.foreign)) ∧
    exec (w8 (0x20000 + 32 * q.val + 8 * k.val)) s = exec (.queueTableWrite p q k x) s ∧
    exec (w8 (0x1000000 * (d.val + 1) + 16 * q.val)) s = exec (.tailWrite p d q x) s

/-- The registers of a die's region (R7, R239, R297, R299, R367): the event rings, ENLCTL, whose settings come into force at the next
boundary, PLCTL, the contact sheet, RCTL and DOWNEV; over a cut a write ends with Completer Abort. -/
def DieRegisterPart : Prop :=
  ∀ (p : Port) (d : Die) (n : Fin 16) (v : BitVec 32) (x : BitVec 64) (o : Nat) (s : State), s.live = true → s.freeFor p →
    let w4 := fun (o : Nat) => (.registerWrite p (BitVec.ofNat 27 o) false (v.setWidth 64) : Instr)
    let w8 := fun (o : Nat) => (.registerWrite p (BitVec.ofNat 27 o) true x : Instr)
    let die := 0x1000000 * (d.val + 1)
    let r := s.die d.val
    (s.portReach p d.val = false → o < 0x1000000 → o % 4 = 0 → exec (w4 (die + o)) s = .next (s.emit (.abort p))) ∧
    (s.portReach p d.val = true →
      (s.pkg.auth = p →
        DieBecomes (w4 (die + 0x20000)) s d.val { r with enlnext := v &&& 0x3FFFFFFC } ∧
        DieBecomes (w4 (die + 0x20004)) s d.val { r with plctl := v &&& 0xFFFFFF00 }) ∧
      (s.pkg.auth ≠ p → exec (w4 (die + 0x20000)) s = .next s.foreign ∧ exec (w4 (die + 0x20004)) s = .next s.foreign) ∧
      DieBecomes (w8 (die + 0x30000)) s d.val { r with csbase := if ptrOk x then x else r.csbase } ∧
      DieBecomes (w4 (die + 0x30008)) s d.val { r with csctl := v &&& 0x8000001F } ∧
      DieBecomes (w4 (die + 0x3001C)) s d.val { r with rctl := v.extractLsb' 0 6 } ∧
      (v.getLsbD 29 = true →
        exec (w4 (die + 0x30020)) s = .next (s.updLink (linkOf d.val false) fun l => { l with evA := false }) ∧
        exec (w4 (die + 0x30024)) s = .next (s.updLink (linkOf d.val true) fun l => { l with evB := false })) ∧
      (v.getLsbD 29 = false → exec (w4 (die + 0x30020)) s = .next s ∧ exec (w4 (die + 0x30024)) s = .next s) ∧
      (let ring := die + 0x10000 + 64 * n.val
       let sets := fun (i : Instr) (f : Ring → Ring) =>
         exec i s = .next (((s.updRing d.val n.val f).ringCheck d.val n.val).ringGo d.val n.val)
       (s.pkg.auth = p →
         sets (w8 ring) (fun r => { r with rbase := if ptrOk x then x else r.rbase }) ∧
         sets (w4 (ring + 8)) (fun r => { r with rsize := v.extractLsb' 0 5 }) ∧
         sets (w4 (ring + 0x10)) (fun r => { r with rhead := v }) ∧
         sets (w4 (ring + 0x14)) (fun r => { r with rcnt := v.extractLsb' 0 9 }) ∧
         sets (w4 (ring + 0x18)) (fun r => { r with rtmo := v.extractLsb' 0 16 }) ∧
         sets (w4 (ring + 0x1C)) (fun r => { r with rvec := v &&& 0x8000013F })) ∧
       (s.pkg.auth ≠ p →
         ((s.ring d.val n.val).port = p → sets (w4 (ring + 0x10)) (fun r => { r with rhead := v })) ∧
         ∀ o, o < 32 → o % 4 = 0 → (s.ring d.val n.val).port ≠ p ∨ (o ≠ 0x10 ∧ o ≠ 0x14) →
           exec (w4 (ring + o)) s = .next ((s.foreign.ringCheck d.val n.val).ringGo d.val n.val))))

/-- Writes of the registers of every block of BAR0: each takes its fields and nothing else, where the port may write it (R239, R288, R289,
R297, R299, R302, R307 to R310, R324, R333, R356, R367, R381). -/
def Obligations.RegisterWriteResults : Prop :=
  ContextControlPart ∧ ContextRegisterPart ∧ PackageRegisterPart ∧ DieRegisterPart

/-- What a link that goes down takes with it (R188, R352, R364): a load whose home lies across it returns poison, an ATOM there is
dropped, written data on it is poison where it arrives, and every lost write counts in LOSTW, marks its grid's record, and traps
LINKLOST with the link in its team, or where the team takes another trap sets the grid FAULTED. -/
def LostOnLinkPart : Prop :=
  ∀ (l t g die i va : Nat) (on : Nat → Nat → Bool) (s : State) (r : TeamRec) (k : Group) (gr : GridRec) (w : Writer) (o : LoadOp) (a : AtomOpn),
    let far := fun va => on (r.core / 40) (s.homeOf (byteKey r.ctx va))
    (s.team t = some r → r.groups.find g = some k → (∀ e ∈ r.groups, ∀ a ∈ e.2.atoms, ∀ e ∈ a.lanes, far e.2.1 = false) →
      ∃ k', (s.cutTeam t l on).group t g = some k' ∧ { k' with loads := k.loads } = k ∧
        k'.loads = k.loads.map fun o => { o with cut := (o.lanes.filter fun e => o.cut.contains e.1 ||
          (far e.2 && (s.l1 r.core (byteKey r.ctx e.2 / 128)).isNone)).map (·.1) }) ∧
    (s.team t = some r → r.groups = [(g, k)] → r.trap = none → k.loads = [] → k.atoms = [a] → (∃ e ∈ a.lanes, far e.2.1 = true) →
      s.grid r.grid = some gr →
      ∃ r', (s.cutTeam t l on).team t = some r' ∧ r'.groups = [(g, { k with atoms := [] })] ∧
        r'.conds = r.conds ++ [⟨a.id, g, 13, l, a.lpc, 0, 0, s.clock.cycle⟩] ∧ (s.cutTeam t l on).grid r.grid = some { gr with lost := true } ∧
        ((s.cutTeam t l on).die (r.core / 40)).lostw = (s.die (r.core / 40)).lostw + 1) ∧
    (∀ m ∈ (s.cutMsgs l on).net, ∃ m0 ∈ s.net,
      m = if on m0.src m0.dst then { m0 with poison := m0.poison ||| m0.valid } else m0) ∧
    (s.grid w.grid = some gr →
      ((s.loseWrite die l [w]).die die).lostw = (s.die die).lostw + 1 ∧
      (s.team w.team = some r → r.trap = none →
        (s.loseWrite die l [w]).grid w.grid = some { gr with lost := true } ∧
        ∃ r', (s.loseWrite die l [w]).team w.team = some r' ∧ r'.conds = r.conds ++ [⟨w.id, w.grp, 13, l, w.lpc, 0, 0, s.clock.cycle⟩]) ∧
      (s.team w.team = none → (s.loseWrite die l [w]).grid w.grid = some { gr with lost := true, faulted := true })) ∧
    (o.cut.contains i = true → o.tx = [] → o.lanes = [(i, va)] → ∀ (lines : List (Nat × LineData × BitVec 8)),
      ∃ ws, (s.laneLoad t r k o lines i).2 = some ws ∧ (o.kind = .ld .w32 false → ∀ v ∈ ws, v.poison = true))

/-- The dies that continue after a link has failed (R365, R366): those of the larger part, or of the half that holds the authority
die, and with three or four links down only a pair that holds it. The others are isolated; authority moves where its die is
isolated and the other port's is not. -/
def SplitPart : Prop :=
  ∀ (l : Link) (s : State) (d : Die), s.live = true → (s.link (linkNum l)).state ≠ 2 → s.net = [] → s.outw = [] → s.teams = [] →
    s.dirs = [] → (∀ c, s.touches c [0, 1, 2, 3] = false) →
    let t := s.updLink (linkNum l) fun x => { x with state := 2, evA := true, evB := true, retry := 0 }
    let before := (List.range 4).filter fun d => !s.isolated d
    let part := (t.component d.val).filter before.contains
    let down := ((List.range 4).filter fun i => !t.linkUp i).length
    let goes := if 3 ≤ down then part.length = 2 ∧ portDie s.pkg.auth ∈ part
      else before.length < 2 * part.length ∨ (before.length = 2 * part.length ∧ portDie s.pkg.auth ∈ part)
    ∃ u, exec (.linkDown l) s = .next u ∧ (u.die d.val).grp = dieMask (t.component d.val) ∧
      ((∃ x ∈ before, ∃ y ∈ before, y ∉ t.component x) → s.isolated d.val = false →
        (u.die d.val).mode = (if goes then 1 else 2) ∧
        (s.isolated (portDie s.pkg.auth) = false → u.pkg.auth =
          if u.isolated (portDie s.pkg.auth) ∧ ¬u.isolated (portDie (otherPort s.pkg.auth)) then otherPort s.pkg.auth
          else s.pkg.auth)) ∧
      ((∀ x ∈ before, ∀ y ∈ before, y ∈ t.component x) → (u.die d.val).mode = (s.die d.val).mode)

/-- Port and die links, replays and uncorrectable errors of on-die storage (R335, R339, R361 to R364): the mark of a chunk with dirty bytes
in an L1 goes home with them. -/
def LinkEventPart : Prop :=
  ∀ (p : Port) (n : Fin 8) (l : Link) (s : State) (core : Fin 160) (d : Die) (line t g lane k : Nat) (chunk : Fin 8) (e : L1Line)
    (cp : Copy) (r : TeamRec) (gr : Group),
    let k0 := s.link (linkNum l)
    (∃ u, exec (.ethernetLinkDown n) s = .next u ∧ (∀ i : Fin 8, u.pkg.eth.getLsbD i.val = (s.pkg.eth.getLsbD i.val && i != n)) ∧
      { u with pkg := s.pkg } = s) ∧
    (s.askedOver p = [] → exec (.pcieLinkDown p) s = .next (s.updPort p fun r => { r with up := false })) ∧
    (∃ u, exec (.pcieLinkUp p) s = .next u ∧ (u.port p).up = true ∧ u.teams = s.teams) ∧
    (s.live = true → k0.state ≠ 2 →
      (∃ u, exec (.flitReplay l true) s = .next u ∧ (u.link (linkNum l)).retry = 0 ∧ (u.link (linkNum l)).state = 0 ∧
        { u with links := s.links } = s) ∧
      (k0.retry + 1 < 16 →
        ∃ u, exec (.flitReplay l false) s = .next u ∧ (u.link (linkNum l)).retry = k0.retry + 1 ∧ (u.link (linkNum l)).state = 1 ∧
          { u with links := s.links } = s) ∧
      (s.net = [] → s.outw = [] → s.teams = [] → (∀ i : Link, i ≠ l → (s.link (linkNum i)).state ≠ 2) →
        let u := (s.updLink (linkNum l) fun x => { x with state := 2, evA := true, evB := true, retry := 0 }).regroup
        exec (.linkDown l) s = .next (u.raiseRctl [0, 1, 2, 3]) ∧ u.die d.val = { s.die d.val with grp := 15 })) ∧
    (s.live = true →
      (s.l1 core.val line = some e →
        ∃ u e', exec (.sramUncorrectable (.l1 core line chunk)) s = .next u ∧ u.l1 core.val line = some e' ∧
          e'.poison.getLsbD chunk.val = true ∧ e'.data = e.data ∧
          (∀ n, n < 8 → e'.marks.getLsbD n = (e.marks.getLsbD n || (n == chunk.val && (chunksOf e.dirty).getLsbD n))) ∧ (u.die (core.val / 40)).sramue = (s.die (core.val / 40)).sramue + 1) ∧
      (s.copyAt line d.val = some cp →
        ∃ u c', exec (.sramUncorrectable (.slice d line chunk)) s = .next u ∧ u.copyAt line d.val = some c' ∧
          c'.poison.getLsbD chunk.val = true ∧ c'.data = cp.data ∧ (u.die d.val).sramue = (s.die d.val).sramue + 1) ∧
      (s.team t = some r → r.groups.find g = some gr → lane < gr.lanes.length →
        ∃ u gr', exec (.sramUncorrectable (.laneReg t g lane k)) s = .next u ∧ u.group t g = some gr' ∧
          (gr'.lane lane).reg k = ⟨((gr.lane lane).reg k).bits, true⟩ ∧
          (∀ m, m ≠ k → (gr'.lane lane).reg m = (gr.lane lane).reg m)) ∧
      ∃ u, exec (.sramUncorrectable (.corrected d)) s = .next u ∧ (u.die d.val).sramce = (s.die d.val).sramce + 1 ∧
        u.teams = s.teams ∧ u.copies = s.copies)

/-- Link and storage events, what a link takes with it, and the dies that continue (R335, R339, R352, R361 to R367). -/
def Obligations.LinkAndStorageResults : Prop := LinkEventPart ∧ LostOnLinkPart ∧ SplitPart

/-- Firmware, identity and attestation (R341 to R343): GO takes the helper data and starts the verification, which the signed image
decides; the certificate requests need an identity, and only slot 0 is there. -/
def Obligations.FirmwareAndIdentityResults : Prop :=
  ∀ (p : Port) (slot : Fin 16) (off len : BitVec 16) (nonce : BitVec 256) (idx : BitVec 8) (s : State), s.live = true →
    let tells := fun (i : Instr) (code : Nat) (bs : List Byte) => exec i s = .next (s.emit (.spdm p code bs))
    let chain := Config.certChain s.pkg.helper s.pkg.fwDigest s.pkg.svn
    (s.freeFor p → s.pkg.auth = p → s.pkg.fw = .empty ∨ s.pkg.fw = .failed →
      exec (.firmwareGo p) s = .next { s with pkg := { s.pkg with
        fw := .verifying, fwReason := 0, helper := s.pkg.staging.bytes (8 * 2 ^ 20 - 4096) 4096 } }) ∧
    (s.freeFor p → s.pkg.auth = p → s.pkg.fw = .running ∨ s.pkg.fw = .verifying → exec (.firmwareGo p) s = .next s) ∧
    (s.freeFor p → s.pkg.auth ≠ p → exec (.firmwareGo p) s = .next s.foreign) ∧
    (s.pkg.fw = .verifying →
      exec .firmwareVerifyDone s = .next { s with pkg := match verifyImage s.pkg.staging with
        | .ok (svn, image) => { s.pkg with fw := .running, svn := svn, fwDigest := sha384 image }
        | .error n => { s.pkg with fw := .failed, fwReason := n } }) ∧
    (s.pkg.idStat = 0 → s.pkg.fw ≠ .empty →
      exec .identityDerivation s = .next { s with pkg := { s.pkg with
        idStat := if Config.identityPresent s.pkg.helper then 1 else 2 } }) ∧
    tells (.getVersion p) 0x04 [0x12] ∧ tells (.getCapabilities p) 0x61 (numBytes 0x16 4) ∧
    tells (.negotiateAlgorithms p) 0x63 (numBytes 0x80 4 ++ numBytes 2 4) ∧
    (s.pkg.idStat = 1 →
      tells (.getDigests p) 0x01 (1 :: digestBytes (sha384 chain)) ∧
      tells (.getCertificate p 0 off len) 0x02 ((chain.drop off.toNat).take len.toNat) ∧
      (slot ≠ 0 → tells (.getCertificate p slot off len) 0x7F [] ∧ tells (.challenge p slot nonce) 0x7F []) ∧
      ∃ t own, exec (.challenge p 0 nonce) s = .next t ∧
        t.out = s.out ++ [.spdm p 0x03 (digestBytes (sha384 chain) ++ own ++
          Config.attest s.pkg.fwDigest (numBytes nonce.toNat 32 ++ (digestBytes (sha384 chain) ++ own)))] ∧
        own.length = 32 ∧ { t with freeCtr := s.freeCtr, out := s.out } = s) ∧
    (s.pkg.idStat ≠ 1 → tells (.getDigests p) 0x7F [] ∧ tells (.getCertificate p slot off len) 0x7F [] ∧
      tells (.challenge p slot nonce) 0x7F [] ∧ tells (.getMeasurements p idx true nonce) 0x7F []) ∧
    tells (.getMeasurements p 0 false nonce) 0x60 [4] ∧
    tells (.getMeasurements p 2 false nonce) 0x60 (digestBytes s.pkg.fwDigest) ∧
    tells (.getMeasurements p 3 false nonce) 0x60 (numBytes s.pkg.svn.toNat 4) ∧
    (4 < idx.toNat → idx.toNat ≠ 255 → tells (.getMeasurements p idx false nonce) 0x7F [])

/-! Operation at 77 K, the memory controllers and the Enlarger (R236 to R241, R299, R360, R371 to R381). -/

/-- The thermal state machine and the settings in force (R371 to R375, R377, R378, R381). -/
def ThermalPart : Prop :=
  ∀ (p : Port) (temps : List (Nat × BitVec 12)) (k : Fin 8) (s : State) (t0 : Nat) (b : Band) (a : DramReq),
    let th := s.thermal
    let goes := fun (i : Instr) (f : Thermal → Prop) => ∃ t, exec i s = .next t ∧ f t.thermal
    let heat := ((s.takeSample temps).markHot temps).hottest
    (s.live = true → s.freeFor p → s.pkg.auth = p →
      (th.state = .warmIdle → s.pkg.straps.getLsbD 24 = true → s.pkg.fw = .running →
        exec (.cool p) s = .next { s with thermal := { th with state := .cooling } }) ∧
      (th.state = .warmIdle → s.pkg.straps.getLsbD 24 = false ∨ s.pkg.fw ≠ .running →
        exec (.cool p) s = .next { s with thermal := { th with err := true } }) ∧
      (th.state = .warming → exec (.cool p) s = .next { s with thermal := { th with state := .cooling } }) ∧
      (th.state = .cooling ∨ th.state = .coldIdle ∨ th.state = .run ∨ th.state = .safelight →
        goes (.warm p) fun u => u.state = .warming ∧ u.band = .warm)) ∧
    (s.live = true → s.freeFor p → s.pkg.auth ≠ p → exec (.cool p) s = .next s.foreign ∧ exec (.warm p) s = .next s.foreign) ∧
    (th.state = .run ∨ th.state = .coldIdle →
      (720 < heat → heat ≤ 2760 →
        goes (.sensorSample temps) fun u => u.state = .safelight ∧ u.band = bandOf heat ∧ u.evt.getLsbD 0 = true) ∧
      (heat ≤ 720 → goes (.sensorSample temps) fun u => u.state = th.state ∧ u.band = th.band)) ∧
    (s.live = true →
      (2880 < heat → goes (.sensorSample temps) fun u => u.state = .tripped ∧ u.thtrip = true ∧ u.band = .warm) ∧
      (2760 < heat → heat ≤ 2880 → th.haltAt = none →
        goes (.sensorSample temps) fun u => u.haltAt = some s.clock.ticks ∧ u.band = .warm ∧ u.evt.getLsbD 4 = true ∧
          u.state = (if th.state = .run ∨ th.state = .coldIdle then .safelight else th.state))) ∧
    (th.state = .cooling ∨ th.state = .safelight → (th.bandHold.find? fun h => s.held (some h.1) 1) = some (t0, b) →
      b.code < th.band.code → goes .bandHoldExpiry fun u => u.band = b ∧ u.state = th.state) ∧
    (th.state = .cooling ∨ th.state = .safelight → s.held th.coldHold 10 = true →
      goes .coldHoldExpiry fun u => u.band = .cold ∧ u.state = (if s.teams = [] then .coldIdle else .run)) ∧
    (th.state = .run → s.teams = [] → s.held th.idleSince 1 = true →
      exec .runIdleExpiry s = .next { s with thermal := { th with state := .coldIdle } }) ∧
    (th.state = .warming → s.held th.warmHold 10 = true →
      exec .warmingHoldExpiry s = .next { s with thermal := { th with state := .warmIdle } }) ∧
    (s.live = true → (s.stack k.val).sweep.isSome = true →
      (∃ t, exec (.sweepComplete k) s = .next t ∧ t.stack k.val = { s.stack k.val with sweep := none } ∧
        t.thermal.evt.getLsbD 3 = true ∧ t.dram = s.dram ∧ t.dramPoison = s.dramPoison) ∧
      (a.sweep = true → a.line < stackLines → ∃ t, exec (.dramAccess k a) s = .next t ∧
        (a.errs = [] → t = s) ∧
        (errCount a.errs ≤ 4 → (∃ c, c < 8 ∧ crc16 (errChunk a.errs c) ≠ 0) → t.dram = s.dram ∧ t.dramPoison = s.dramPoison ∧
          (t.die (k.val / 2)).cecnt = (s.die (k.val / 2)).cecnt + 1) ∧
        (4 < errCount a.errs → ∀ c, c < 8 → crc16 (errChunk a.errs c) ≠ 0 →
          marked t.dramPoison (k.val / 2 * 2 ^ 37 + (k.val % 2 * stackLines + a.line) * 128 + 16 * c) 16 = true))) ∧
    (s.live = true → th.haltAt.isSome = true → (∀ c, c < 64 → (s.ctx c).draining = false) →
      goes .haltDrainExpiry fun u => u.state = .tripped ∧ u.thtrip = true)

/-- Requests of the memory controllers and the scrub: a line without wrong bits is only counted; up to four wrong bytes are
corrected, and beyond them each chunk that fails its check is marked; a crowded stack changes its hash, and migrates row by row in
COLD and CHILL (R240, R241, R360, R376). Marks of cores for droops last 10 ms (R299). -/
def DramAndDroopPart : Prop :=
  ∀ (k : Fin 8) (core : Fin 160) (errs : List LineErr) (a : DramReq) (lines b : Nat) (s : State), s.live = true →
    let x := s.stack k.val
    let d := k.val / 2
    let line := k.val / 2 * 2 ^ 37 + (k.val % 2 * stackLines + x.scrub) * 128
    let bad := (List.range 8).filter fun c => crc16 (errChunk errs c) != 0
    let now := s.clock.ticks
    let n := (s.die (core.val / 40)).plctl.toNat / 2 ^ 8 % 256
    let recent := ((s.core core.val).droops.filter fun t => decide (now < t + 198000000)) ++ [now]
    (errs = [] → ∃ t, exec (.scrubRead k errs) s = .next t ∧ t.stack k.val = { x with scrub := (x.scrub + 1) % stackLines } ∧
      { t with stackTab := s.stackTab } = s) ∧
    (bad ≠ [] → errCount errs ≤ 4 → ∃ t, exec (.scrubRead k errs) s = .next t ∧ t.dram = s.dram ∧ t.dramPoison = s.dramPoison ∧
      (t.die d).cecnt = (s.die d).cecnt + 1 ∧ (t.stack k.val).scrub = (x.scrub + 1) % stackLines) ∧
    (bad ≠ [] → 4 < errCount errs → ∃ t, exec (.scrubRead k errs) s = .next t ∧ (t.die d).uecnt = (s.die d).uecnt + 1 ∧
      ∀ c ∈ bad, marked t.dramPoison (line + 16 * c) 16 = true) ∧
    (a.errs = [] → a.sweep = false → a.line * 128 < 120 * 2 ^ 30 → stackOf (k.val / 2 * 2 ^ 37 + a.line * 128) = k.val → a.conflict = false →
      ∃ t, exec (.dramAccess k a) s = .next t ∧ t.dram = s.dram ∧
        Tab.get 0 (t.die d).cnt (10 + a.grain.val) = Tab.get 0 (s.die d).cnt (10 + a.grain.val) + 1) ∧
    (4 ≤ x.hotWindows → (s.die d).enlctl.getLsbD 3 = false → x.migrating = none → x.changed = none →
      ∃ t, exec (.dramHashChange k) s = .next t ∧
        t.stack k.val = { x with ver := x.ver + 1, migrating := some 0, moved := 0, hotWindows := 0, changed := some now } ∧
        Tab.get 0 (t.die d).cnt 15 = 0 ∧ t.dram = s.dram) ∧
    (errs = [] → x.migrating = some b → b < stackLines → s.thermal.band = .cold ∨ s.thermal.band = .chill →
      let m := min lines (stackLines - b)
      ∃ t, exec (.migrationRowMove k lines errs) s = .next t ∧ t.dram = s.dram ∧
        t.stack k.val = { x with moved := x.moved + m, migrating := if b + m < stackLines then some (b + m) else none } ∧
        Tab.get 0 (t.die d).cnt 15 = Tab.get 0 (s.die d).cnt 15 + BitVec.ofNat 48 (128 * m)) ∧
    (∃ t, exec (.droopEvent core) s = .next t ∧ t.core core.val =
        { s.core core.val with droops := recent, droop := if n ≠ 0 ∧ n ≤ recent.length then some now else (s.core core.val).droop } ∧
      { t with cores := s.cores } = s) ∧
    (∀ t0, (s.core core.val).droop = some t0 → t0 + 1980000000 ≤ now →
      ∃ t, exec (.droopMarkExpiry core) s = .next t ∧ t.core core.val = { s.core core.val with droop := none } ∧
        { t with cores := s.cores } = s)

/-- Events of the thermal states, of DRAM and of the droop mark (R299, R360, R371 to R381). -/
def Obligations.ThermalAndDramResults : Prop := ThermalPart ∧ DramAndDroopPart

/-- ENLARGER_EPOCH: every share of the die's table takes its epoch, by the settings in force: writes lower its degree, many reads raise
it after two epochs, and a cold one falls after DN, unless it is held (R237; assumption 89); the settings written since the last
boundary come into force (R239). -/
def Obligations.EnlargerResults : Prop :=
  ∀ (d : Die) (s : State) (region : Nat) (x : Share) (c : BitVec 32),
    let tup := 8 * max (c.toNat / 2 ^ 16 % 256) 1
    let tw := 4 * max (c.toNat / 2 ^ 8 % 256) 1
    let dn := max (c.toNat / 2 ^ 4 % 16) 1
    let y := x.epoch c false
    (s.live = true → (s.die d.val).epoch + epochCycles (s.die d.val).enlctl ≤ s.clock.cycle →
      ((s.die d.val).shares = [] → (s.die d.val).enlctl.toNat / 2 ^ 28 % 4 ≤ (s.die d.val).enlnext.toNat / 2 ^ 28 % 4 ∨ s.dirs = [] →
        ∃ t, exec (.enlargerEpoch d) s = .next t ∧
          t.die d.val = { s.die d.val with epoch := s.clock.cycle, enlctl := (s.die d.val).enlnext } ∧
          { t with dies := s.dies } = s) ∧
      (Tab.rising 0 (s.die d.val).shares = true → (s.die d.val).shares.find region = some x →
        ∃ t, exec (.enlargerEpoch d) s = .next t ∧ (t.die d.val).enlctl = (s.die d.val).enlnext ∧
          (t.die d.val).shares.find region = some (x.epoch (s.die d.val).enlctl (s.shareHeld d.val region))) ∧
      (∀ n, (s.die d.val).shares.find n = none →
        ∃ t, exec (.enlargerEpoch d) s = .next t ∧ (t.die d.val).shares.find n = none)) ∧
    (s.clock.cycle < (s.die d.val).epoch + epochCycles (s.die d.val).enlctl → exec (.enlargerEpoch d) s = .next s) ∧
    (tw ≤ x.w → 2 ≤ x.since → 0 < x.d → y.d = x.d - 1) ∧
    (tw ≤ x.w → x.since < 2 → y.d = x.d) ∧
    (x.w < tw → tup ≤ x.r → 16 * x.w ≤ x.r → 2 ≤ x.since → 1 ≤ x.cup → x.d < 3 → y.d = x.d + 1) ∧
    (x.w < tw → tup ≤ x.r → 16 * x.w ≤ x.r → x.cup = 0 → y.d = x.d ∧ y.cup = 1) ∧
    (x.w < tw → 8 * x.r < tup → 2 ≤ x.since → dn ≤ x.ccold + 1 → x.ccold < 15 → 0 < x.d → y.d = x.d - 1) ∧
    (x.w < tw → 8 * x.r < tup → x.ccold + 1 < dn → y.d = x.d ∧ y.ccold = x.ccold + 1) ∧
    ((x.epoch c true).d = x.d) ∧ y.r = 0 ∧ y.w = 0 ∧ (x.d ≤ 3 → y.d ≤ 3)

/-! Accesses, engines and the protocol between the dies (R172 to R175, R185, R196 to R204, R207 to R220, R231 to R234). -/

/-- The group `k` of team `t` becomes `k'`, and nothing else has changed. -/
def GroupBecomes (i : Instr) (s : State) (t g : Nat) (k' : Group) : Prop :=
  ∃ u, exec i s = .next u ∧ u.group t g = some k' ∧ (∀ v n, v ≠ t ∨ n ≠ g → u.group v n = s.group v n) ∧
    { u with teams := s.teams } = s

/-- STORE_DRAIN: the oldest store of a task is held in its version; where a limit forbids the held write a develop is forced, but an
empty version takes it and the task is marked (R346, R347; assumption 92), and each line that it holds names its writers. A store that no version holds goes into the L1 at the scopes `.grp` and
`.team`, and at the wider ones on to its home, where its bytes stand once the messages have been handled (R169, R172, R231). A store
stays in its queue while earlier accesses hold it (assumption 76). -/
def StoreDrainPart : Prop :=
  ∀ (t g : Nat) (s : State) (r : TeamRec) (k : Group) (e : StoreEnt) (q : List StoreEnt) (leaf : Leaf),
    s.live = true → s.team t = some r → r.groups.find g = some k → k.storeQ = e :: q → e.act = .store →
    (∀ x ∈ q, x.id ≠ e.id) →
    let key := byteKey r.ctx e.va
    let w : Writer := ⟨t, g, e.lpc, r.grid, e.id⟩
    let v := r.ver.addBy w key (e.bytes.zip e.marks)
    let fits := v.lines ≤ 32768 ∧ s.heldLines (r.core / 40) + v.lines ≤ 393216 + r.ver.lines
    let o := storeWrite r w e [e] leaf
    let popped := fun (u : State) => ∃ k', u.group t g = some k' ∧ k'.storeQ = q
    (k.storeWaits r g e = true → exec (.storeDrain t g) s = .next s) ∧
    (k.storeWaits r g e = false →
      (r.d.latent = true → e.esc = false → e.marks.length = e.bytes.length →
        (fits ∨ (r.ver.isEmpty = true ∧ r.dev = none) →
          ∃ u r', exec (.storeDrain t g) s = .next u ∧ popped u ∧ u.team t = some r' ∧ r'.ver = v ∧
            (∀ n, key / 128 ≤ n → 128 * n < key + e.bytes.length → ∃ y ∈ Tab.get [] v.writers n, y.same w = true) ∧
            (r'.partDev = true ↔ r.partDev = true ∨ ¬ fits) ∧
            (∀ n, (v.bytes.find n).map (·.1) =
              if key ≤ n ∧ n < key + e.bytes.length then e.bytes[n - key]? else (r.ver.bytes.find n).map (·.1)) ∧
            u.dram = s.dram ∧ u.copies = s.copies ∧ ∀ c l, u.l1 c l = s.l1 c l) ∧
        (¬ fits → r.ver.isEmpty = false → r.dev = none → (∀ x ∈ q, x.act = .store ∧ x.esc = false) →
          exec (.storeDrain t g) s = .next (s.forceDevelop t) ∧
          ∃ r', (s.forceDevelop t).team t = some r' ∧ r'.dev = some ⟨r.ver, true, none, s.nextId⟩ ∧ r'.ver = .empty ∧
            r'.groups = r.groups)) ∧
      (r.d.latent = false ∨ e.esc = true → s.blocked (.store t g) = false →
        s.xlate (groupAcc r (.store t g) 0 2) key = .ok leaf →
        (e.scope = .grp ∨ e.scope = .team → leaf.host = false →
          (s.core r.core).l1.length < 2048 ∨ (s.l1 r.core (key / 128)).isSome = true →
          ∃ u, exec (.storeDrain t g) s = .next u ∧ popped u ∧
            u.l1 r.core (key / 128) = some (((s.l1 r.core (key / 128)).getD (L1Line.none leaf)).store o) ∧
            u.dram = s.dram ∧ u.copies = s.copies) ∧
        (e.scope ≠ .grp → e.scope ≠ .team → s.AtRest r.core key leaf → key % 128 + e.bytes.length ≤ 128 →
          ∃ u, exec (.storeDrain t g) s = .next u ∧ popped u ∧ Stands u.settle s key leaf e.bytes ∧
            ∀ l, s.l1 r.core (key / 128) = some l → u.l1 r.core (key / 128) = some (l.through o))))

/-- LOAD_COMPLETE: the result lands in each lane's register and relay entry, with the group's earlier stores and what its task holds
over the bytes that its L1 line serves, or that stand at the home where the L1 has no line (R169, R172, R186, R196). A load stays
pending while earlier accesses hold it (assumption 76). -/
def LoadCompletePart : Prop :=
  ∀ (t g id : Nat) (s : State) (r : TeamRec) (k : Group) (l : LoadOp) (wd : Width) (sx : Bool), s.live = true → s.team t = some r →
    r.groups.find g = some k → (k.loads.find? fun x => x.id == id) = some l → l.kind = .ld wd sx → l.tx = [] → l.cut = [] →
    s.blocked (.load t g id) = false →
    let key := fun (e : Nat × Nat) => byteKey r.ctx e.2
    let acc := groupAcc r (.load t g id) 0 1
    let lands := fun (e : Nat × Nat) (base : Nat → Byte × Bool) =>
      (k.lane e.1).deliver l.dst l.id
        (loadWords (.ld wd sx) (laneBytes r k l.id (!l.esc) none (key e) ((List.range (widthBytes wd)).map base)))
    (s.loadWaits r k l = true → exec (.loadComplete t g id) s = .next s) ∧
    (s.loadWaits r k l = false → l.scope = .grp ∨ l.scope = .team →
      (∀ ln : Nat → L1Line, (l.lanes.map (·.1)).Nodup →
        (∀ e ∈ l.lanes, e.1 < k.lanes.length ∧ s.purging (key e) = false ∧ s.l1 r.core (key e / 128) = some (ln (key e / 128)) ∧
          (let c := touched (key e % 128) (widthBytes wd)
           (ln (key e / 128)).valid &&& c = c) ∧ ∃ leaf, s.judge acc (key e) (ln (key e / 128)).leaf = .ok leaf) →
        ∃ k', GroupBecomes (.loadComplete t g id) s t g k' ∧ k'.loads = k.loads.filter (fun x => x.id != id) ∧
          (∀ e ∈ l.lanes, k'.lane e.1 = lands e fun j =>
            ((ln (key e / 128)).data.extractLsb' (8 * (key e % 128 + j)) 8,
             (ln (key e / 128)).poison.getLsbD ((key e % 128 + j) / 16))) ∧
          ∀ j, (∀ e ∈ l.lanes, e.1 ≠ j) → k'.lane j = k.lane j) ∧
      (∀ (i a : Nat) (leaf : Leaf), l.lanes = [(i, a)] → i < k.lanes.length → a % widthBytes wd = 0 →
        s.l1 r.core (byteKey r.ctx a / 128) = none → s.xlate acc (byteKey r.ctx a) = .ok leaf → s.AtRest r.core (byteKey r.ctx a) leaf →
        ∃ u k', exec (.loadComplete t g id) s = .next u ∧ u.group t g = some k' ∧ k'.loads = k.loads.filter (fun x => x.id != id) ∧
          (k'.lane i = lands (i, a) fun j =>
            (s.standing (byteKey r.ctx a + j) leaf, s.standingMark (byteKey r.ctx a + j) leaf)) ∧
          (∀ j, j ≠ i → k'.lane j = k.lane j) ∧ Stands u s (byteKey r.ctx a) leaf []))

/-- What a store puts into its line: each byte at its place, dirty, and no other byte changed; the request of one store carries the
same; what a load sees of a byte: an earlier store of its group that no version holds, else, in a task, what the version holds, else
the byte in memory; a result that lands in a lane: its words in the registers from the destination on, and nowhere else (R169, R172,
R186, R195, R196). -/
def StoredAndLoadedBytesPart : Prop :=
  ∀ (line : L1Line) (die key t g n w : Nat) (leaf : Leaf) (bs : List Byte) (marks : List Bool) (lpc : Word) (grid : Nat)
    (lane : Lane) (dst id : Nat) (ws : List RWord) (b0 b1 b2 b3 : Byte) (r : TeamRec) (k : Group) (e : StoreEnt)
    (base : List (Byte × Bool)),
    let l' := line.store (lineWrite die key leaf bs marks [⟨t, g, lpc, grid, id⟩])
    (key % 128 + bs.length ≤ 128 → n < 128 →
      (∀ (h : key % 128 ≤ n ∧ n < key % 128 + bs.length),
        l'.data.extractLsb' (8 * n) 8 = bs[n - key % 128]'(by omega) ∧ l'.dirty.getLsbD n = true) ∧
      (n < key % 128 ∨ key % 128 + bs.length ≤ n →
        l'.data.extractLsb' (8 * n) 8 = line.data.extractLsb' (8 * n) 8 ∧ l'.dirty.getLsbD n = line.dirty.getLsbD n)) ∧
    (let kb := byteKey r.ctx e.va
     let o := storeWrite r ⟨t, g, lpc, grid, id⟩ e [e] leaf
     let o' := lineWrite (r.core / 40) kb leaf e.bytes e.marks [⟨t, g, lpc, grid, id⟩]
     kb % 128 + e.bytes.length ≤ 128 → o = { o' with id := e.id }) ∧
    (n < base.length → e.marks.length = e.bytes.length → e.act = .store → k.storeQ = [e] → e.id < id →
      let kb := byteKey r.ctx e.va
      let hit := kb ≤ key + n ∧ key + n < kb + e.bytes.length
      let byte := fun (plain : Bool) => ((laneBytes r k id plain none key base).getD n (0, false)).1
      let old := (base.getD n (0, false)).1
      (r.d.latent = false ∨ e.esc = true → r.ver.bytes = [] → r.dev = none → ∀ plain,
        byte plain = if hit then e.bytes.getD (key + n - kb) 0 else old) ∧
      (r.d.latent = true → e.esc = false → r.dev = none →
        byte true = (if hit then e.bytes.getD (key + n - kb) 0 else (((r.ver.bytes.find (key + n)).map (·.1)).getD old)) ∧
        byte false = old)) ∧
    ((lane.deliver (some dst) id ws).reg w = if dst ≤ w ∧ w < dst + ws.length then ws.getD (w - dst) RWord.zero else lane.reg w) ∧
    (loadWords (.ld .w32 false) [(b0, false), (b1, false), (b2, false), (b3, false)] = [⟨b3 ++ b2 ++ b1 ++ b0, false⟩]) ∧
    (loadWords (.ld .w8 true) [(b0, false)] = [⟨b0.signExtend 32, false⟩]) ∧
    (loadWords (.ld .w8 false) [(b0, false)] = [⟨b0.zeroExtend 32, false⟩]) ∧
    (loadWords (.ld .w16 true) [(b0, false), (b1, false)] = [⟨(b1 ++ b0).signExtend 32, false⟩])

/-- Stores drain and loads complete, and what they do to bytes and words (R169, R172, R195, R196, R346, R347). -/
def Obligations.StoreAndLoadEventResults : Prop := StoreDrainPart ∧ LoadCompletePart ∧ StoredAndLoadedBytesPart

/-- ATOM_PERFORM and ATOMICOP_COMPLETION. At the home of a device word the lanes of one address follow one another as one sequence: the
word then holds the last value, every other byte of memory stands as before, and each lane gets the value that it found (R182, R199 to
R203). Inside a transaction the word is read and the new one held (R211; assumption 78). On a host page a request goes out over PCI
Express, its completion writes the word under the leaf of the request, and its port counts as written; an Unsupported Request, and an
operation that PCI Express lacks, traps MEMPERM, a marked word or one across a cut POISON (R193, R204, R366). -/
def AtomEventPart : Prop :=
  ∀ (t g id i : Nat) (s : State) (r : TeamRec) (k : Group) (o : AtomOpn) (va : Nat) (a b : Word) (rest : List (Nat × Nat × Word × Word))
    (leaf : Leaf) (x : TxState), s.live = true → s.team t = some r → r.groups.find g = some k →
    let key := byteKey r.ctx va
    let acc := groupAcc r (.atom t g id) 0 3
    let poison := fun (lanes : List Nat) =>
      (s.updGroup t g fun k => { k with atoms := k.atoms.filter fun y => y.id != o.id }).raiseAt t g o.id 7 1 o.lpc (maskOf lanes) va
    let old := BitVec.ofNat 32 (leNat ((List.range 4).map fun j => s.standing (key + j) leaf))
    let set := (i, va, a, b) :: rest.filter fun e => e.2.1 == va && !o.tx.contains e.1
    let run := set.foldl (fun (m : Word × List (Nat × Word)) e => (atomFn o.code m.1 e.2.2.1 e.2.2.2, m.2 ++ [(e.1, m.1)])) (old, [])
    ((k.atoms.find? fun y => y.id == id) = some o → o.lanes = (i, va, a, b) :: rest → s.blocked acc.req = false → o.asked = none →
      (k.atomWaits r g o = true → exec (.atomPerform t g id) s = .next s) ∧
      (k.atomWaits r g o = false → o.tx.contains i = true → (k.lane i).tx = some x → x.writes = [] → s.txValid x = true → k.storeQ = [] →
        va % 4 = 0 → s.xlate (groupAcc r (.atom t g id) 0 1) key = .ok leaf → s.AtRest r.core key leaf → s.standingMark key leaf = false →
        i < k.lanes.length →
        ∃ u k', exec (.atomPerform t g id) s = .next u ∧ u.group t g = some k' ∧ Stands u s key leaf [] ∧
          (k'.lane i).tx = some ((s.track t r.d.latent x key 4).hold o.id key ((bytesOf (atomFn o.code old a b)).map fun c => (c, false))) ∧
          ∀ j, j ≠ i → k'.lane j = k.lane j) ∧
      (k.atomWaits r g o = false → o.tx.contains i = false → s.xlate acc key = .ok leaf →
        (leaf.host = false → exec (.atomPerform t g id) s = .next (s.atomSet t g r o va set leaf)) ∧
        (va % 4 = 0 → s.AtRest r.core key leaf → s.standingMark key leaf = false →
          ∃ u, exec (.atomPerform t g id) s = .next u ∧ u.group t g = some (k.atomDone o run.2) ∧ Stands u s key leaf (bytesOf run.1)) ∧
        (leaf.host = true → s.reach (r.core / 40) (portDie leaf.port) = false → exec (.atomPerform t g id) s = .next (poison [i])) ∧
        (leaf.host = true → s.reach (r.core / 40) (portDie leaf.port) = true →
          (o.code = 0 ∨ o.code = 7 ∨ o.code = 8 →
            ∃ u k', exec (.atomPerform t g id) s = .next u ∧ u.group t g = some k' ∧
              k'.atoms = k.atoms.map (fun y => if y.id = id then { y with asked := some leaf } else y) ∧
              u.out = s.out ++ [.atomic leaf.port t g id i o.code (leaf.phys va).addr a b]) ∧
          (o.code ≠ 0 ∧ o.code ≠ 7 ∧ o.code ≠ 8 →
            exec (.atomPerform t g id) s = .next ((s.notice acc key 1).failAccess (.atom t g id) key 5 3))))) ∧
    ((k.atoms.find? fun y => y.id == id) = some o → o.lanes = (i, va, a, b) :: rest → o.asked = some leaf →
      (leaf.host = true → s.physMark (leaf.phys va) 4 = false →
        ∃ u r', exec (.atomicopCompletion t g id false) s = .next u ∧
          u.physRead (leaf.phys va) 4 = bytesOf (atomFn o.code (BitVec.ofNat 32 (s.physNum (leaf.phys va) 4)) a b) ∧
          u.group t g = some (k.atomDone { o with asked := none } [(i, BitVec.ofNat 32 (s.physNum (leaf.phys va) 4))]) ∧
          u.team t = some r' ∧ r'.ports.contains leaf.port = true) ∧
      (s.physMark (leaf.phys va) 4 = true → exec (.atomicopCompletion t g id false) s = .next (poison [i])) ∧
      exec (.atomicopCompletion t g id true) s = .next ((s.notice acc key 1).failAccess (.atom t g id) key 5 3))

/-- FENCE_COMPLETE waits for the accesses that stood before its fence, and for the reads that it noted at its issue; a release at `.die` or wider also for the writes that it sends
home, and an acquire there leaves no clean line of the context in the L1 (R173 to R175, R234). TX_OPEN likewise waits for the stores and
then opens the transactions (R207). A lane whose reads hold no longer aborts (R213). A pass and a hold end (R251, R269). -/
def FenceEventPart : Prop :=
  ∀ (t g i : Nat) (s : State) (r : TeamRec) (k : Group) (fk : FenceKind) (sc : Scope) (paths : Paths) (pre reads : List Nat)
    (rest : List FenceOp) (pn : Nat) (ls : BitVec 32) (resume : Word) (x : TxState), s.live = true → s.team t = some r →
    r.groups.find g = some k →
    let s1 := s.l1Flush r.core r.ctx
    (k.fences = ⟨fk, sc, paths, pre, reads⟩ :: rest →
      ((∃ n ∈ pre, (s.pendingIds t g).contains n = true) ∨ (∃ n ∈ reads, (s.pendingReads t g).contains n = true) →
        exec (.fenceComplete t g) s = .next s) ∧
      ((∀ n ∈ pre, (s.pendingIds t g).contains n = false) → (∀ n ∈ reads, (s.pendingReads t g).contains n = false) → (paths.ce || paths.nx || paths.tu) = false →
        (sc = .grp ∨ sc = .team → GroupBecomes (.fenceComplete t g) s t g { k with fences := rest }) ∧
        (fk = .acq → sc ≠ .grp → sc ≠ .team →
          ∃ u, exec (.fenceComplete t g) s = .next u ∧ u.group t g = some { k with fences := rest } ∧
            (∀ e ∈ (u.core r.core).l1, lineOfCtx r.ctx e.1 = true → e.2.dirty ≠ 0) ∧ u.dram = s.dram) ∧
        (fk ≠ .acq → sc ≠ .grp → sc ≠ .team →
          (s1.outPending r.core r.ctx = true → exec (.fenceComplete t g) s = .next s1) ∧
          (s1.outPending r.core r.ctx = false → s1.group t g = some k →
            ∃ u, exec (.fenceComplete t g) s = .next u ∧ u.group t g = some { k with fences := rest } ∧ u.dram = s1.dram ∧
              u.copies = s1.copies ∧ (∀ o ∈ u.outw, o.die = r.core / 40 → lineOfCtx r.ctx o.line = false))))) ∧
    (k.held = .txbeg pn ls resume pre →
      ((∃ e ∈ k.storeQ, pre.contains e.id = true) → exec (.txOpen t g) s = .next s) ∧
      ((∀ e ∈ k.storeQ, pre.contains e.id = false) →
        (s1.outPending r.core r.ctx = true → exec (.txOpen t g) s = .next s1) ∧
        (s1.outPending r.core r.ctx = false → s1.group t g = some k →
          ∃ u k', exec (.txOpen t g) s = .next u ∧ u.group t g = some k' ∧ k'.held = .none ∧ k'.wait = .none ∧
            ∀ j, j < k.lanes.length → k'.lane j =
              if ls.getLsbD j then { ((k.lane j).setPred pn true) with tx := some ⟨pn, resume, [], [], [], [], []⟩ } else k.lane j))) ∧
    ((k.lane i).tx = some x →
      (s.txValid x = true → exec (.txConflictAbort t g i) s = .next s) ∧
      (s.txValid x = false → GroupBecomes (.txConflictAbort t g i) s t g (k.abort [i]))) ∧
    ((k.lane i).pass = some 0 → i < k.lanes.length →
      ∃ k', GroupBecomes (.waitlPassEnd t g i) s t g k' ∧ k'.lane i = { k.lane i with pass := none } ∧
        ∀ j, j ≠ i → k'.lane j = k.lane j) ∧
    (∀ y, k.yield = some y →
      (s.yieldOver y = true → GroupBecomes (.yieldHoldEnd t g) s t g { k with yield := none }) ∧
      (s.yieldOver y = false → exec (.yieldHoldEnd t g) s = .next s))

/-- DEVELOP_PERFORM waits for what comes before the develop (R185, R186); then, as one event, the core's dirty bytes of the context go
home, the held writes after them under the names of those who wrote them, and the held launches enter the device launch queue of the die; the version that developed is gone, a
forced develop marks its task, and a group that waited at DEVELOP goes on (R284, R346, R347, R350). -/
def DevelopEventPart : Prop :=
  ∀ (t : Nat) (s : State) (r r2 : TeamRec) (d : Develop) (leaves : List Leaf), s.live = true → s.team t = some r →
    let r1 := r.developing s.clock.cycle s.nextId
    let s1 := { (s.updTeam t fun _ => r1) with nextId := s.nextId + 1 }
    let leafOf := fun line => (((d.ver.firsts.zip leaves).find? fun e => e.1 / 128 == line).map (·.2)).getD ⟨0, 0, none⟩
    let os := heldWrites (r.core / 40) leafOf (Tab.get [] d.ver.writers) d.ver.bytes d.ver.whole
    let s2 := os.foldl (fun (s : State) o => (s.engineWrite r.core o).updTeam t fun r => r.wrotePort o.leaf) (s1.l1Flush r.core r.ctx)
    let q := r.ctx * 4 + r.core / 40
    (s.developReady t r = false → exec (.developPerform t) s = .next s) ∧
    (s.developReady t r = true → r1.dev = some d →
      s1.xlates (groupAcc r1 (.develop t) 0 2) d.ver.firsts = .ok leaves → s2.team t = some r2 →
      ∃ u r3, exec (.developPerform t) s = .next u ∧ u.team t = some r3 ∧ r3.dev = none ∧ r3.ver = r2.ver ∧ r3.ports = [] ∧
        (r3.partDev = true ↔ r2.partDev = true ∨ d.forced = true) ∧
        (∀ n k, d.grp = some n → r2.groups.find n = some k → r3.groups.find n = some { k with wait := .none }) ∧
        Tab.get [] u.launchQ q = Tab.get [] s2.launchQ q ++ d.ver.launches ∧ u.dram = s2.dram ∧ u.copies = s2.copies)

/-- The events of a group's accesses after their issue: ATOMs, fences, transactions, develops, passes and holds (R173 to R175, R185,
R199 to R204, R207, R213, R251, R269, R284, R346 to R350). -/
def Obligations.AccessEventResults : Prop := AtomEventPart ∧ FenceEventPart ∧ DevelopEventPart

/-- What waits at a group's instruction is accepted, and barrier arrivals are applied (R133, R219, R275, R279, R284). A LAUNCH whose
release is done queues its entries, or holds them in a task's version, among whose 16 those of a develop in progress count; where they do
not fit it waits or traps LAUNCHFULL, and one that escapes is counted as it is performed (R349). Behind a trap condition of its group it
does nothing (R97). -/
def EngineAcceptPart : Prop :=
  ∀ (t g id : Nat) (s : State) (r : TeamRec) (k : Group) (a : Arrival) (rest : List Arrival) (w : List Word) (j : Nat) (esc wait : Bool)
    (lpc : Word) (lanes : BitVec 32) (ents : List LaunchEnt) (pre : List Nat) (op : TileOp), s.live = true → s.team t = some r →
    r.groups.find g = some k →
    let freed := s.updGroup t g fun k => { k with held := .none, wait := .none }
    (k.arrivals = a :: rest →
      ((∃ n ∈ a.pre, k.lsIds.contains n = true) → exec (.barrierArrivalApply t g) s = .next s) ∧
      ((∀ n ∈ a.pre, k.lsIds.contains n = false) →
        exec (.barrierArrivalApply t g) s =
          .next ((s.updGroup t g fun k => { k with arrivals := rest }).barEventAt a.id t g a.j a.lpc (.arrive 0 a.sync false)))) ∧
    (k.held = .bulk w j esc lpc →
      (16 ≤ (s.core r.core).bulkQ.length → exec (.bulkQueueAccept t g) s = .next s) ∧
      ((s.core r.core).bulkQ.length < 16 →
        exec (.bulkQueueAccept t g) s = .next (freed.bulkAccept t g r w j esc lpc))) ∧
    (k.held = .tile op →
      (8 ≤ (s.core r.core).tileQ.length → exec (.tileQueueAccept t g) s = .next s) ∧
      ((s.core r.core).tileQ.length < 8 → exec (.tileQueueAccept t g) s = .next (freed.tileAccept t g r op))) ∧
    (k.held = .launch id ents wait esc lpc lanes pre →
      (r.barred g id = true ∨ (∃ n ∈ pre, (s.pendingIds t g).contains n = true) → exec (.launchQueueSpace t g) s = .next s) ∧
      (r.barred g id = false → (∀ n ∈ pre, (s.pendingIds t g).contains n = false) →
        let s2 := s.l1Flush r.core r.ctx
        let held := s2.outPending r.core r.ctx || (esc && (r.dev.any fun d => decide (d.born ≤ id)))
        let q := Tab.get [] s2.launchQ (r.ctx * 4 + r.core / 40)
        let stood := r.ver.launches.length + (r.dev.map fun d => d.ver.launches.length).getD 0
        (held = true → exec (.launchQueueSpace t g) s = .next s2) ∧
        (held = false →
          (r.d.latent = false ∨ esc = true → q.length + ents.length ≤ 256 →
            ∃ u, exec (.launchQueueSpace t g) s = .next u ∧ Tab.get [] u.launchQ (r.ctx * 4 + r.core / 40) = q ++ ents ∧
              u.teams = (if esc then (s2.launched t g).escape t ents.length else s2.launched t g).teams) ∧
          (r.d.latent = false ∨ esc = true → 256 < q.length + ents.length → wait = true →
            exec (.launchQueueSpace t g) s = .next s2) ∧
          (r.d.latent = false ∨ esc = true → 256 < q.length + ents.length → wait = false →
            exec (.launchQueueSpace t g) s = .next ((s2.launched t g).raiseAt t g id 10 0 lpc lanes 0)) ∧
          (r.d.latent = true → esc = false → stood + ents.length ≤ 16 →
            exec (.launchQueueSpace t g) s = .next ((s2.launched t g).updTeam t fun r => { r with ver := r.ver.addLaunches ents })) ∧
          (r.d.latent = true → esc = false → 16 < stood + ents.length →
            exec (.launchQueueSpace t g) s = .next ((s2.launched t g).raiseAt t g id 10 1 lpc lanes 0)))))

/-- A CPY's lane and a bulk copy's chunk are read and written as one, and lower their barrier; afterwards the source's bytes stand at the
destination and every other byte as before. Where a limit of a task holds the write back, what has been read is kept and written later,
without a second read. A lane or a chunk whose pages are awaited, or before which something comes, stays, and a remote chunk goes out
over a port, with its bytes or as a request for them (R185, R216, R217, R219, R220, R413). -/
def CopyEventPart : Prop :=
  ∀ (t id lane chunk dst src : Nat) (core : Fin 160) (s s1 : State) (ok : Bool) (r : TeamRec) (c : CopyOp) (b : BulkOp) (ls : List Leaf)
    (lf lt : Leaf) (p : Peer) (port : Fin 8) (n : Nat) (bs : List (Byte × Bool)), s.live = true → s.team t = some r →
    let none_ : Leaf := ⟨0, 0, none⟩
    let plain := r.ver = .empty ∧ r.dev = none
    ((r.copies.find? fun x => x.id == id) = some c → (c.lanes.find? fun e => e.1 == lane) = some (lane, dst, src) →
      let ks := byteKey r.ctx src
      let kd := byteKey r.ctx dst
      let copied := fun (u : State) => (u.barEvent t c.grp c.bar c.lpc (.land c.n)).updTeam t fun r =>
        let cs := r.copies.map fun y =>
          if y.id = id then { y with bad := false, lanes := y.lanes.filter (fun e => e.1 != lane), got := y.got.filter fun e => e.1 != lane }
          else y
        { r with copies := cs.filter fun y => !y.lanes.isEmpty }
      let read := fun (bs : List (Byte × Bool)) => s1.updTeam t fun r =>
        { r with copies := r.copies.map fun y => if y.id = id then { y with bad := false, got := y.got ++ [(lane, bs)] } else y }
      ((c.got.find? fun e => e.1 == lane) = none → s.attachedAt (.copy t id) [ks, kd] = true ∨ r.engineWaits c.grp id c.lpc = true →
        exec (.copyChunk t id lane) s = .next s) ∧
      ((c.got.find? fun e => e.1 == lane) = none → s.attachedAt (.copy t id) [ks, kd] = false → r.engineWaits c.grp id c.lpc = false →
        s.copyLeaves (fun acc => groupAcc r (.copy t id) 1 acc) ks kd (r.d.latent && !c.esc) = .ok ls →
        (let v := s.engineRead r src c.n (ls.getD 0 none_) (c.asks r.ctx (ks / 128) fun e => e.2.2)
         v.2.engineStore t c.grp id c.lpc r c.esc dst (spoil c.bad v.1) (ls.getD 1 none_) (c.asks r.ctx (kd / 128) fun e => e.2.1) =
           (ok, s1) →
         (ok = false → exec (.copyChunk t id lane) s = .next (read (spoil c.bad v.1))) ∧
         (ok = true → exec (.copyChunk t id lane) s = .next (copied s1))) ∧
        (ls = [lf, lt] → r.d.latent = false ∨ c.esc = true → plain → ks / 128 ≠ kd / 128 → ks % 128 + c.n ≤ 128 → kd % 128 + c.n ≤ 128 →
          s.AtRest r.core ks lf → s.AtRest r.core kd lt →
          ∃ u, exec (.copyChunk t id lane) s = .next u ∧ Copied u s ks lf kd lt c.n)) ∧
      ((c.got.find? fun e => e.1 == lane) = some (n, bs) → r.barred c.grp id = false →
        s.engineStore t c.grp id c.lpc r c.esc dst bs none_ 0 = (ok, s1) →
        (ok = false → exec (.copyChunk t id lane) s = .next s1) ∧ (ok = true → exec (.copyChunk t id lane) s = .next (copied s1)))) ∧
    (((s.core core.val).bulkQ.find? fun y => y.id == id) = some b → b.team = t → hasChunk b.todo chunk = true →
      let ks := byteKey b.ctx (b.src + 16 * chunk)
      let kd := byteKey b.ctx (b.dst + 16 * chunk)
      let sent := fun (u : State) => u.updBulk core.val id fun b =>
        { b with todo := dropChunk b.todo chunk, sent := b.sent ++ [chunk], seen := u.time, bad := false }
      let moved := fun (u : State) => (u.barEvent t b.grp b.bar b.lpc (.land 16)).updBulk core.val id fun b =>
        { b with todo := dropChunk b.todo chunk, bad := false, got := b.got.filter fun e => e.1 != chunk }
      (b.ord = true → (b.todo.head?.map (·.1)) = some chunk) →
      ((b.got.find? fun e => e.1 == chunk) = none →
        s.attachedAt (.bulk core.val id) (b.keys chunk) = true ∨ r.engineWaits b.grp id b.lpc = true →
        exec (.bulkChunk core id chunk) s = .next s) ∧
      ((b.got.find? fun e => e.1 == chunk) = none → s.attachedAt (.bulk core.val id) (b.keys chunk) = false →
        r.engineWaits b.grp id b.lpc = false →
        (b.remote = false → s.copyLeaves (fun acc => groupAcc r (.bulk core.val id) 1 acc) ks kd (r.d.latent && !b.esc) = .ok ls →
          (let v := s.engineRead r (b.src + 16 * chunk) 16 (ls.getD 0 none_) 0
           v.2.engineStore t b.grp id b.lpc r b.esc (b.dst + 16 * chunk) (spoil b.bad v.1) (ls.getD 1 none_) 0 = (ok, s1) →
           (ok = false → exec (.bulkChunk core id chunk) s = .next (s1.updBulk core.val id fun y =>
              { y with bad := false, got := y.got ++ [(chunk, spoil b.bad v.1)] })) ∧
           (ok = true → exec (.bulkChunk core id chunk) s = .next (moved s1))) ∧
          (ls = [lf, lt] → b.ctx = r.ctx → r.d.latent = false ∨ b.esc = true → plain → ks / 128 ≠ kd / 128 → ks % 16 = 0 → kd % 16 = 0 →
            s.AtRest r.core ks lf → s.AtRest r.core kd lt →
            ∃ u, exec (.bulkChunk core id chunk) s = .next u ∧ Copied u s ks lf kd lt 16)) ∧
        (b.remote = true → s.peer b.ctx b.die b.peer = some p → s.ethPort p.ports chunk = some port →
          (b.dir = true → exec (.bulkChunk core id chunk) s = .next ((sent s).emit (b.packet p port chunk 0 false))) ∧
          (b.dir = false → s.xlates (groupAcc r (.bulk core.val id) 1 1) [ks] = .ok [lf] →
            let v := s.engineRead r (b.src + 16 * chunk) 16 lf 0
            exec (.bulkChunk core id chunk) s = .next ((sent v.2).emit
              (b.packet p port chunk (BitVec.ofNat 128 (leNat (v.1.map (·.1)))) ((spoil b.bad v.1).any (·.2)))))) ∧
        (b.remote = true → s.peer b.ctx b.die b.peer = none →
          exec (.bulkChunk core id chunk) s = .next ((s.updCore core.val fun k =>
            { k with bulkQ := k.bulkQ.filter fun y => y.id != id }).raiseAt t b.grp id 5 768 b.lpc 0 b.dst))) ∧
      (b.remote = false → (b.got.find? fun e => e.1 == chunk) = some (n, bs) → r.barred b.grp id = false →
        s.engineStore t b.grp id b.lpc r b.esc (b.dst + 16 * chunk) bs none_ 0 = (ok, s1) →
        (ok = false → exec (.bulkChunk core id chunk) s = .next s1) ∧ (ok = true → exec (.bulkChunk core id chunk) s = .next (moved s1)))) ∧
    ∀ (l : List (Nat × Nat)) (n m : Nat), hasChunk (dropChunk l n) m = (hasChunk l m && m != n) ∧
      hasChunk (putChunk l n) m = (hasChunk l m || m == n)

/-- The events of what groups owe and of the copy engines (R133, R216 to R220, R275, R279, R284). -/
def Obligations.EngineEventResults : Prop := EngineAcceptPart ∧ CopyEventPart

/-- A step of TLOOP reads the ranges of its planes row by row, forms a block from each, applies R138's rule to every cell of its window and
lowers its barrier by 1; its first one opens the window (R62, R137, R142, R144). -/
def LoopStepPart : Prop :=
  ∀ (core : Fin 160) (id : Nat) (s s1 : State) (o : TileOp) (r : TeamRec) (mode : LoopMode) (z noise : Bool)
    (bs : List (List (Byte × Bool))) (blocks : List (List TBlock)) (p : Bool × Nat) (ps : List (Bool × Nat)),
    let w := o.desc
    let rows := fun (p : Bool × Nat) => if p.1 then loopN w else loopM w
    let code := fun (p : Bool × Nat) => dfield w (if p.1 then 3 else 1) 25 4
    let per := fun (p : Bool × Nat) => if isMx (code p) then 2 else 1
    let s0 := if o.begun then s else s.loopBegin core.val o z
    let due := s.live = true ∧ ((s.core core.val).tileQ.find? fun y => y.id == id) = some o ∧ s.team o.team = some r ∧
      o.kind = .loop mode z noise ∧ s.tileReady core.val r o = true ∧ tileHead (s.core core.val).tileQ o = true
    (due → loopStart w = loopEnd w → exec (.tloopStep core id) s = .next s0) ∧
    (due → loopStart w < loopEnd w →
      s0.tileRead r (groupAcc r (.tile core.val id) 2 1)
        ((stepPlanes mode).flatMap fun p => (List.range (rows p)).flatMap fun i => blockRanges w p.1 p.2 i (loopStart w + o.next)) =
          .ok bs s1 →
      ((∀ l ∈ bs, ∀ b ∈ l, b.2 = false) →
        exec (.tloopStep core id) s =
          .next (((s1.loopApply core.val o mode noise (stepBlocks w (stepPlanes mode) bs)).barEvent o.team o.grp o.bar o.lpc (.land 1)).updTile
            core.val id (loopEnd w - loopStart w) fun o => { o with next := o.next + 1 })) ∧
      ((∃ l ∈ bs, ∃ b ∈ l, b.2 = true) → exec (.tloopStep core id) s = .next (s1.tileTrap core.val o 7 0))) ∧
    ((∀ i, i < rows p →
        ((stepBlocks w (p :: ps) bs).getD 0 []).getD i ⟨[], some 0⟩ = blockOf (code p) ((bs.drop (per p * i)).take (per p))) ∧
      (stepBlocks w (p :: ps) bs).drop 1 = stepBlocks w ps (bs.drop (per p * rows p)) ∧ stepBlocks w [] bs = []) ∧
    (∀ (c k : Nat) (l : List (List (Byte × Bool))), k < 32 →
      let elems := leNat ((l.getD 0 []).map (·.1))
      let scale := leNat ((l.getD 1 []).map (·.1))
      (blockOf c l).elems.getD k .nan = fmtDecode (tileFmt c) (elems / 2 ^ (tileWidth c * k) % 2 ^ tileWidth c) ∧
      (isMx c = false → (blockOf c l).scale = some 0) ∧
      (isMx c = true → (blockOf c l).scale = if scale = 255 then none else some ((scale : Int) - 127))) ∧
    (∀ i j, i < loopM w → j < loopN w →
      let blk := fun p n => (blocks.getD p []).getD n ⟨[], some 0⟩
      ((s.loopApply core.val o mode noise blocks).core core.val).cell o.bank (cellNo i j) =
        stepCell mode noise (blk 0 i) (blk 1 j) (blk 3 i) (blk 2 j) ((s.core core.val).cell o.bank (cellNo i j))) ∧
    (∀ n, loopM w ≤ n / 128 ∨ loopN w ≤ n % 128 →
      ((s.loopApply core.val o mode noise blocks).core core.val).cell o.bank n = (s.core core.val).cell o.bank n)

/-- A row of THAD or TQNT once it has been computed. Outside a task it is written whole under the leaves of its lines, and its bytes stand
there; a page that is absent, or one that may not be written, comes first, and the row is kept. In a task what its version cannot take
before it develops is kept. A row that is done lowers its barrier by 1, and the next one follows (R145, R147, R149; assumption 82). -/
def RowIsWritten (i : Instr) (s : State) (core : Nat) (o : TileOp) (r : TeamRec) (u : State) (ps : List (Nat × List Byte)) : Prop :=
  let acc := groupAcc r (.tile core o.id) 2 2
  let keys := ps.map fun p => byteKey r.ctx p.1
  let keep := fun (v : State) (left : List (Nat × List Byte)) => v.updTile core o.id o.steps fun o => { o with row := left }
  let done := fun (v : State) => (v.barEvent o.team o.grp o.bar o.lpc (.land 1)).updTile core o.id o.steps fun o =>
    { o with begun := true, next := o.next + 1, row := [] }
  (r.d.latent = false →
    (∀ leaves, (keep u ps).xlates acc keys = .ok leaves →
      ∃ v, u.tilePieces o r (ps.zip leaves) = ([], v) ∧ exec i s = .next (done v) ∧
        ∀ a bytes leaf, ps = [(a, bytes)] → leaves = [leaf] → u.AtRest r.core (byteKey r.ctx a) leaf →
          byteKey r.ctx a % 128 + bytes.length ≤ 128 → Stands v u (byteKey r.ctx a) leaf bytes) ∧
    (∀ v, (keep u ps).xlates acc keys = .wait v → exec i s = .next v) ∧
    (∀ key code detail st, (keep u ps).xlates acc keys = .bad key code detail st →
      exec i s = .next ((u.notice acc key st).failAccess (.tile core o.id) key code detail))) ∧
  (r.d.latent = true → ∀ left v, u.tilePieces o r (ps.map fun p => (p, ⟨0, 0, none⟩)) = (left, v) →
    (left = [] → exec i s = .next (done v)) ∧ (left ≠ [] → exec i s = .next (keep v left)))

/-- What THAD and TQNT make of a row: the first row of a TQNT reads every cell, which frees its bank; a row is read, transformed or
quantised, and written, its planes in the order of elements, scales, variance elements, variance scales (assumption 96); a row of which a
part is still to be written goes on with that and is not computed again (R134, R145, R147 to R150). -/
def RowEventPart : Prop :=
  ∀ (core : Fin 160) (id : Nat) (s s1 : State) (o : TileOp) (r : TeamRec) (sr vr : Bool) (pts : HadPts) (bs : List (List (Byte × Bool))),
    let w := o.desc
    s.live = true → ((s.core core.val).tileQ.find? fun y => y.id == id) = some o → s.team o.team = some r →
    s.tileReady core.val r o = true →
    (∀ i, i < qntM w →
      ((s.core core.val).window o).getD i [] = (List.range (qntN w)).map fun j => (s.core core.val).cell o.bank (cellNo i j)) ∧
    (o.kind = .qnt sr vr → o.cells.isSome = true ∨ tileHead (s.core core.val).tileQ o = true →
      let n := qntN w
      let rows := o.cells.getD ((s.core core.val).window o)
      let s0 := s.updTile core.val id o.steps fun o => { o with begun := true, cells := some rows }
      let cells := rows.getD o.next []
      let m : Rm := if sr then .sr else .rne
      let p := dfield w 2 16 16 * 65536
      let str := dfield w 2 0 16 * o.next
      let mean := rowMean (dfield w 1 25 4) m (cells.mapIdx fun j x => (x.mean, if sr then o.dither r.num n o.next j else 0))
      let ranges := rowRanges (dbase w 0 + 16 * str) (dbase w 0 + p + str) (mean.1, mean.2.1) ++
        (if vr then rowRanges (dbase w 0 + 2 * p + 16 * str) (dbase w 0 + 3 * p + str)
          (rowVar (dfield w 1 25 4) ((cells.zip mean.2.2).map fun x => qntVar (dfield w 1 25 4) m x.1.mean x.1.var x.2)) else [])
      (o.row ≠ [] → RowIsWritten (.tqntRow core id) s core.val o r s o.row) ∧
      (o.row = [] → (∃ c ∈ cells, c.poison = true) → exec (.tqntRow core id) s = .next (s0.tileTrap core.val o 7 2)) ∧
      (o.row = [] → (∀ c ∈ cells, c.poison = false) → RowIsWritten (.tqntRow core id) s core.val o r s0 (cutLines ranges))) ∧
    (o.kind = .had pts sr →
      let bf := dfield w 1 25 1 == 1
      let row := bs.getD 0 []
      let elem := fun n => if bf then fmtDecode .bf16 (leNat (((row.drop (2 * n)).take 2).map (·.1)))
        else fmtDecode .f32 (leNat (((row.drop (4 * n)).take 4).map (·.1)))
      let words := (List.range (32 * dfield w 5 16 12 / hadPoints pts)).flatMap fun b =>
        hadBlock pts ((List.range (hadPoints pts)).map fun n => elem (b * hadPoints pts + n))
      let v := rowMean (dfield w 3 25 4) (if sr then .sr else .rne)
        (words.mapIdx fun j x => (x, if sr then o.dither r.num (32 * dfield w 5 16 12) o.next j else 0))
      let ranges := rowRanges (dbase w 2 + 16 * dfield w 4 16 16 * o.next)
        (dbase w 2 + 65536 * dfield w 6 0 16 + dfield w 4 16 16 * o.next) (v.1, v.2.1)
      (o.row ≠ [] → RowIsWritten (.thadRow core id) s core.val o r s o.row) ∧
      (o.row = [] →
        s.tileRead r (groupAcc r (.tile core.val id) 2 1)
          [((dbase w 0 + 16 * dfield w 4 0 16 * o.next) % 2 ^ 57, 32 * dfield w 5 16 12 * (if bf then 2 else 4))] = .ok bs s1 →
        ((∃ b ∈ row, b.2 = true) → exec (.thadRow core id) s = .next (s1.tileTrap core.val o 7 0)) ∧
        ((∀ b ∈ row, b.2 = false) → RowIsWritten (.thadRow core id) s core.val o r s1 (cutLines ranges))))

/-- The steps and rows of the tile unit (R62, R134, R137, R138, R142, R144, R145, R147 to R150; assumptions 82, 96). -/
def Obligations.TileEventResults : Prop := LoopStepPart ∧ RowEventPart

/-- The protocol's messages (R231 to R234). A GetS of an admitted die is answered with data in S, and of another with data once; a GetM
or an Upgrade first invalidates the other dies; returning copies leave their state at the home; an acknowledgement counts, and the
last one lets a recall end; the owner answers a forwarded request and keeps O. A request that needs an entry in a full set of the snoop
filter stays where it is, while the least recently used entry of the set is recalled (R235). -/
def Obligations.ProtocolResults : Prop :=
  ∀ (n : Nat) (s : State) (m : Msg) (e : DirEnt) (tx : DirTxn) (cp : Copy), s.live = true →
    (s.net.find? fun y => y.id == n) = some m → s.dirs.find m.line = some e → e.st.length = 4 → m.src < 4 → m.dst < 4 →
    e.home = m.leaf.home (m.line * 128 % 2 ^ 57) → (s.die e.home).shares.length < 8192 → s.copies.length < 32768 →
    let rest := s.net.filter fun y => y.id != m.id
    let idle := e.txn = none ∧ (∀ y ∈ s.net, y.line = m.line → y.kind.put = false)
    let sends := fun (u : State) (kind : MsgKind) (src dst : Nat) => ∃ y ∈ u.net, y.kind = kind ∧ y.line = m.line ∧ y.src = src ∧ y.dst = dst
    (m.kind = .getS → idle → m.src ≠ e.home → e.owner = none →
      (e.state m.src = .i → e.holders.length < s.degree e.home m.line m.leaf → s.filterFull m = false →
        ∃ u, exec (.getS n) s = .next u ∧ (∃ y ∈ u.net, y.kind = .data ∧ y.line = m.line ∧ y.dst = m.src ∧ y.grant = .s) ∧
          (u.dir m.line m.leaf).txn = some ⟨0, m.src, [m.src], true⟩) ∧
      (e.state m.src = .i → s.degree e.home m.line m.leaf = 0 →
        ∃ u, exec (.getS n) s = .next u ∧ (∃ y ∈ u.net, y.kind = .data ∧ y.line = m.line ∧ y.dst = m.src ∧ y.grant = .i) ∧
          (u.dir m.line m.leaf).state m.src = .i ∧ (u.dir m.line m.leaf).txn = none)) ∧
    (m.kind = .getS → idle → s.filterFull m = true →
      (s.victim m = none → exec (.getS n) s = .next s) ∧
      ∀ l2 e2, s.victim m = some (l2, e2) →
        ∃ u, exec (.getS n) s = .next u ∧ m ∈ u.net ∧ u.dirs.find l2 = some { e2 with txn := some ⟨3, e2.home, e2.holders, false⟩ } ∧
          (∀ d ∈ e2.holders, ∃ y ∈ u.net, y.kind = .inv ∧ y.line = l2 ∧ y.src = e2.home ∧ y.dst = d) ∧ u.copies = s.copies) ∧
    (∀ (up : Bool), m.kind = (if up then .upgrade else .getM) → idle → e.state m.src ≠ .m → e.state m.src ≠ .e →
      (e.holders.filter fun d => d != m.src) ≠ [] →
      ∃ u, exec (if up then .upgrade n else .getM n) s = .next u ∧
        (u.dir m.line m.leaf).txn = some ⟨1, m.src, e.holders.filter (fun d => d != m.src), false⟩ ∧
        ∀ d ∈ e.holders, d ≠ m.src → sends u .inv e.home d) ∧
    (m.kind = .fwdWrite → idle → e.holders ≠ [] →
      ∃ u, exec (.forwardedWrite n) s = .next u ∧ (u.dir m.line m.leaf).txn = some ⟨2, m.src, e.holders, false⟩ ∧
        ∀ d ∈ e.holders, sends u .inv e.home d) ∧
    (m.kind = .putM ∨ m.kind = .putO →
      ∃ u, exec (.putM n) s = .next u ∧ u.net = rest ∧ (u.dir m.line m.leaf).state m.src = .i ∧
        (m.valid ≠ 0 → e.state e.home ≠ .i → m.src ≠ e.home → ∃ c, u.copyAt m.line e.home = some c ∧ c.valid &&& m.valid = m.valid)) ∧
    (m.kind = .putE ∨ m.kind = .putS →
      ∃ u, exec (.putS n) s = .next u ∧ u.net = rest ∧ (u.dir m.line m.leaf).state m.src = .i ∧ u.copies = s.copies) ∧
    (m.kind = .inv → s.copyAt m.line m.dst = some cp →
      ∃ u y, exec (.inv n) s = .next u ∧ u.copyAt m.line m.dst = none ∧ u.net = rest ++ [y] ∧ y.kind = .ack ∧ y.line = m.line ∧
        y.src = m.dst ∧ y.dst = e.home ∧
        (e.state m.dst = .m ∨ e.state m.dst = .o → y.data = cp.data ∧ y.valid = cp.valid ∧ y.poison = cp.poison)) ∧
    (m.kind = .ack → m.valid = 0 → e.txn = some tx → (tx.acks.filter fun d => d != m.src) ≠ [] →
      ∃ u, exec (.ack n) s = .next u ∧ (u.dir m.line m.leaf).txn = some { tx with acks := tx.acks.filter fun d => d != m.src } ∧
        (u.dir m.line m.leaf).state m.src = .i ∧ u.net = rest) ∧
    (m.kind = .fwd → e.txn = some tx → tx.src ≠ e.home → tx.acks.contains e.home = false → s.copyAt m.line m.dst = some cp →
      ∃ u y, exec (.fwd n) s = .next u ∧ (u.dir m.line m.leaf).state m.dst = .o ∧ u.net = rest ++ [y] ∧ y.kind = .data ∧
        y.dst = tx.src ∧ y.grant = .s ∧ y.data = cp.data ∧ y.valid = cp.valid) ∧
    (m.kind = .data → m.grant = .s → e.txn = some tx → tx.acks.contains m.dst = true → (tx.acks.filter fun d => d != m.dst) ≠ [] →
      ∃ u c, exec (.data n) s = .next u ∧ u.copyAt m.line m.dst = some c ∧ c.valid &&& m.valid = m.valid ∧
        (u.dir m.line m.leaf).state m.dst = .s ∧ (u.dir m.line m.leaf).txn = some { tx with acks := tx.acks.filter fun d => d != m.dst } ∧
        u.net = rest)

/-! The fabric and traps (R191, R220 to R223, R272, R338, R339, R353 to R358). -/

/-- What arrives from the fabric: a packet without a job is dropped and counted, an operation that the endpoint does not take is refused, a
write is performed and acknowledged, a read is answered with its bytes, and a refused access is answered so; one that waits for a page or
for a purge, or that is not the next of an ordered copy, is sent again; and what comes back: an acknowledgement lowers the barrier by 16,
a retry puts the chunk back and counts as progress, and for a counter add only shows that the receiver still waits, a refusal and a
transport that gives up end the copy in MEMPERM or MEMFATAL. That a retry counts as progress, and that an ordered chunk before its turn is
sent again, is assumption 44; the kinds of the replies are assumptions 41 and 43, and the wait of a counter add is assumption 104. -/
def Obligations.FabricResults : Prop :=
  ∀ (pkt : Packet) (id chunk core : Nat) (poison : Bool) (bytes : BitVec 128) (s s1 s2 : State) (ctx key st : Nat)
    (ls : List Leaf) (b : BulkOp) (r : TeamRec), s.live = true →
    let va := pkt.addr.toNat
    let k := byteKey ctx (va % 2 ^ 57)
    let acc := fun n => packetAcc pkt 0 ctx n
    let rest := b.sent.filter fun c => c != chunk
    let fails := fun (code detail : Nat) => (s.updCore core fun k => { k with bulkQ := k.bulkQ.filter fun k => k.id != b.id }).raiseAt
      b.team b.grp b.id code detail b.lpc 0 b.dst
    let write := fun (u : State) => exec (.remoteWriteArrival pkt) s = .next u
    let read := fun (u : State) => exec (.remoteReadArrival pkt) s = .next u
    let reply := fun (u : State) (n : Nat) => u.emit (.reply pkt.msg pkt.addr n 0 false)
    (s.pkg.eth.getLsbD pkt.port.val = false → write s ∧ read s) ∧
    (s.pkg.eth.getLsbD pkt.port.val = true →
      (s.jobCtx pkt.job = none → (pkt.op ≠ .read → write (s.dropJob pkt)) ∧ (pkt.op = .read → read (s.dropJob pkt))) ∧
      (s.jobCtx pkt.job = some ctx →
        (pkt.ri ≠ 0 ∨ (pkt.op ≠ .write ∧ pkt.op ≠ .read) →
          (pkt.op ≠ .read → write (reply s 2)) ∧ (pkt.op = .read → read (reply s 2))) ∧
        (pkt.ri = 0 → pkt.op = .write → va + 16 ≤ 2 ^ 57 →
          (pkt.ord = true → s.nextChunk pkt ctx ≠ packetChunk pkt → write (reply s 1)) ∧
          (pkt.ord = false ∨ s.nextChunk pkt ctx = packetChunk pkt →
            (State.meet (acc 2) (lineKeys k 16) s = .ok ls s1 → pkt.hops = 0 →
              let done := reply (s1.fabricWrite (pkt.port.val / 2) k (numBytes pkt.bytes.toNat 16) pkt.poison ls) 0
              (pkt.sig = false → pkt.ord = false → write done) ∧ write (done.countChunk pkt ctx ls)) ∧
            (State.meet (acc 2) (lineKeys k 16) s = .bad key st s1 → write (reply (s1.notice (acc 2) key st) (st + 1))) ∧
            (State.meet (acc 2) (lineKeys k 16) s = .held s1 → write (reply s1 1)) ∧
            (State.meet (acc 2) (lineKeys k 16) s = .wait key s1 → s1.attached pkt = true → write (reply s1 1)) ∧
            (State.meet (acc 2) (lineKeys k 16) s = .wait key s1 → s1.attached pkt = false →
              write (reply (s1.arrivalFault pkt ctx 2 key) 1)))) ∧
        (pkt.ri = 0 → pkt.op = .read → va + 16 ≤ 2 ^ 57 →
          (State.meet (acc 1) (lineKeys k 16) s = .ok ls s1 →
            let v := s1.fabricRead (pkt.port.val / 2) k 16 ls
            read (v.2.emit (.reply pkt.msg pkt.addr 4 (BitVec.ofNat 128 (leNat (v.1.map (·.1)))) (v.1.any (·.2))))) ∧
          (State.meet (acc 1) (lineKeys k 16) s = .bad key st s1 → read (reply (s1.notice (acc 1) key st) (st + 1))) ∧
          (State.meet (acc 1) (lineKeys k 16) s = .held s1 → read (reply s1 1))) ∧
        (pkt.ri = 0 → 2 ^ 57 < va + 16 →
          (pkt.op = .write → write (reply (s.notice (acc 2) k 1) 2)) ∧ (pkt.op = .read → read (reply (s.notice (acc 1) k 1) 2))))) ∧
    (s.remoteOp id = some (core, b) → b.id = id →
      (b.dir = false → b.sent.contains chunk = true → chunk < b.len / 16 → b.sig = false ∨ b.todo ≠ [] ∨ rest ≠ [] →
        exec (.remoteWriteAck id chunk) s = .next ((s.updBulk core id fun b =>
          { b with sent := rest, seen := s.time }).barEvent b.team b.grp b.bar b.lpc (.land 16))) ∧
      (b.dir = true → b.sent.contains chunk = true → s.team b.team = some r → r.barred b.grp id = false →
        (b.inTurn chunk = false → exec (.remoteReadResponse id chunk bytes poison) s =
          .next (s.updBulk core id fun b => { b with todo := putChunk b.todo chunk, sent := b.sent.filter (fun c => c != chunk), seen := s.time })) ∧
        (b.inTurn chunk = true →
          s.xlates (groupAcc r (.bulk core b.id) 1 2) [byteKey b.ctx (b.dst + 16 * chunk)] = .ok ls →
          s.engineStore b.team b.grp b.id b.lpc r true (b.dst + 16 * chunk)
            (spoil b.bad ((numBytes bytes.toNat 16).map fun x => (x, poison))) (ls.getD 0 ⟨0, 0, none⟩) 0 = (true, s2) →
          exec (.remoteReadResponse id chunk bytes poison) s =
            .next ((s2.barEvent b.team b.grp b.bar b.lpc (.land 16)).updBulk core b.id fun b =>
              { b with sent := b.sent.filter fun c => c != chunk, seen := s2.time, bad := false }))) ∧
      (b.sent.contains chunk = true → chunk ≠ b.len / 16 →
        exec (.remoteRetry id chunk) s = .next (s.updBulk core id fun b =>
          { b with todo := putChunk b.todo chunk, sent := b.sent.filter fun c => c != chunk, seen := s.time })) ∧
      (b.sent.contains (b.len / 16) = true →
        exec (.remoteRetry id (b.len / 16)) s = .next (s.updBulk core id fun b => { b with seen := s.time })) ∧
      (s.stalled b = true → exec (.transportGiveUp id) s = .next (fails 6 3)) ∧
      (s.stalled b = false → exec (.transportGiveUp id) s = .next s) ∧
      (b.sent.contains chunk = true → exec (.fabricRefusal id chunk true false) s = .next (fails 6 3)) ∧
      (b.sent.contains chunk = true →
        exec (.fabricRefusal id chunk false false) s = .next (fails 5 (8 + (if b.dir then 1 else 2)))) ∧
      (b.sig = true → exec (.fabricRefusal id chunk true true) s = .next (fails 6 3)))

/-- BUDGET_EXPIRY raises BUDGET; TRAP_DELIVERY takes the condition of the earliest cycle and the lowest GROUP, and discards the open
transactions with their ATOMs, the relays and the loads of the whole team, while the other stores and ATOMs stay and the LAUNCH or DEVELOP
at which a group waits, of the trapping group only those issued before the instruction that traps; once nothing of that is left the version is discarded and its lines are noted; TRAP_RECORD_WRITE, after the release of
the team's writes, ends the team with a record, with a retry, with a handler, or with TRAPLOST (R97, R272, R286, R353 to R358). -/
def Obligations.TrapEventResults : Prop :=
  ∀ (t g : Nat) (s : State) (r : TeamRec) (k : Group) (c : Cond) (i : TrapInfo) (leaf : Leaf), s.team t = some r →
    let cx := s.ctx r.ctx
    let slot := cx.traptail.toNat % trapSlots cx
    let record := cx.trapbase.toNat + 128 * slot
    (r.trap = none → r.budget = some 0 → r.lowestLive = some (g, k) →
      ∃ u r', exec (.budgetExpiry t) s = .next u ∧ u.team t = some r' ∧ r'.budget = none ∧ r'.groups = r.groups ∧
        r'.conds = r.conds ++ [⟨s.nextId, g, 8, 0, k.issueAddr.getD (k.lane 0).lpc, 0, 0, s.clock.cycle⟩] ∧
        { u with teams := s.teams, issuing := s.issuing } = s) ∧
    (r.trap = none → firstCond r.conds = some c →
      (c ∈ r.conds ∧ ∀ b ∈ r.conds, c.cyc < b.cyc ∨ (c.cyc = b.cyc ∧ c.grp ≤ b.grp)) ∧
      ∃ u r' i', exec (.trapDelivery t) s = .next u ∧ u.team t = some r' ∧ r'.trap = some i' ∧ i'.cond = c ∧ i'.time = s.time ∧
        r'.conds = [] ∧ r'.copies = [] ∧ r'.barq = [] ∧ r'.dev = r.dev ∧
        (∀ n h, r.groups.find n = some h →
          let before := fun (id : Nat) => n != c.grp || decide (id < c.id)
          ∃ h', r'.groups.find n = some h' ∧ h'.loads = [] ∧ h'.fences = [] ∧ h'.arrivals = [] ∧
          h'.storeQ = h.storeQ.filter (fun e => before e.id) ∧
          h'.atoms = (((h.atoms.filter fun a => before a.id).map fun a => { a with lanes := a.lanes.filter fun e => !a.tx.contains e.1 }).filter
            fun a => !a.lanes.isEmpty) ∧
          h'.gregs = h.gregs ∧ h'.lanes.length = h.lanes.length ∧
          ((∃ id, h.waitsAt = some id ∧ before id = true) → h'.wait = h.wait ∧ h'.held = h.held) ∧
          ((∀ id, h.waitsAt = some id → before id = false) → h'.wait = .none ∧ h'.held = .none) ∧
          ∀ j, j < h.lanes.length → h'.lane j = { h.lane j with tx := none, relay := [] }) ∧
        (let done := r.dev = none ∧ ∀ e ∈ r'.groups, e.2.storeQ = [] ∧ e.2.atoms = [] ∧ e.2.waitsAt = none
         (done → r'.ver = .empty ∧ i'.gone = some (!r.ver.isEmpty, r.ver.lines) ∧ i'.since = s.time) ∧
         (¬ done → r'.ver = r.ver ∧ i'.gone = none)) ∧
        (∀ o ∈ (u.core r.core).tileQ, o.team ≠ t) ∧ (∀ b ∈ (u.core r.core).bulkQ, b.team ≠ t) ∧
        u.dram = s.dram ∧ u.copies = s.copies ∧
        (∀ q, s.grid r.grid = some q → ∃ q', u.grid r.grid = some q' ∧ q'.traps = q.traps + 1)) ∧
    (r.trap = some i → i.gone = none →
      (r.drained = false → exec (.trapRecordWrite t) s = .next s) ∧
      (r.drained = true → ∃ u, exec (.trapDelivery t) s = .next u ∧
        u.team t = some { r with trap := some { i with gone := some (!r.ver.isEmpty, r.ver.lines), since := s.time }, ver := .empty } ∧
        { u with teams := s.teams } = s)) ∧
    (r.trap = some i → s.live = true → i.gone.isSome = true → s.blocked (.trapRec t) = false →
      (cx.trapctl.getLsbD 31 = false →
        ∃ u, exec (.trapRecordWrite t) s = .next u ∧ u.team t = none ∧ (u.ctx r.ctx).traplost = satInc cx.traplost ∧
          u.dram = s.dram) ∧
      (cx.trapctl.getLsbD 31 = true → record + 128 ≤ 2 ^ 57 → s.slotBusy r.ctx slot = false →
        s.xlate ⟨.trapRec t, r.ctx, 4, 2, r.core / 40, 255⟩ (byteKey r.ctx record) = .ok leaf →
        let s2 := s.l1Flush r.core r.ctx
        let rec_ := fun retry lost => trapBytes r i ((s.grid r.grid).elim 0 (·.desc)) ((s.grid r.grid).elim 0 (·.seq)) (trapFlags r i retry lost)
        let ends := fun (bytes : List Byte) (retry : Bool) (h : Option HandlerReq) =>
          ∃ u, exec (.trapRecordWrite t) s = .next u ∧ u.team t = none ∧ u = (s2.putTrap t r i leaf record bytes).afterTrap t r i retry h
        (s2.outPending r.core r.ctx = true → exec (.trapRecordWrite t) s = .next s2) ∧
        (s2.outPending r.core r.ctx = false →
          (s.retries r i = true → ends (rec_ true false) true none) ∧
          (s.retries r i = false → cx.trapdesc = 0 ∨ r.handler.isSome = true → ends (rec_ false true) false none) ∧
          (s.retries r i = false → cx.trapdesc ≠ 0 → r.handler = none →
            ends (rec_ false false) false (some ⟨cx.trapdesc.toNat, none, false, record, slot, rec_ false true, r.core / 40, []⟩)))))

/-! Words, fetching and the step (R6, R19, R20, R24 to R30, R38, R40, R42, R46, R95, R250, R262, R300, R352, R354, R372). -/

/-- Words that the spec writes out, in each length and format, decode to the instructions that it writes beside them. -/
def Obligations.DecodesSpecWords : Prop :=
  decodeTableWord 16 0xA062 = some (.iaddC16 3 (.v 20)) ∧
  decodeTableWord 32 0x181023B9 = some (.faddS32 3 true (.v 8) (.v 4) (.v 6)) ∧
  decodeTableWord 64 0x018E10C0810AF20F = some (.ffma ⟨7, 2, true⟩ .Q (.v 16) (.v 8) (.v 12) (.d 1) .rup .nctl) ∧
  decodeTableWord 64 0x0010212040570703 = some (.ld ⟨0, 7, false⟩ (.v 5) (.g 4) .w32 .die false false 0x40) ∧
  decodeTableWord 64 0xFFFFFFC000010007 = some (.bra ⟨0, 1, false⟩ (-64)) ∧
  decodeTableWord 64 0x0000000500376163 = some (.movi ⟨3, 7, false⟩ (.v 3) 5) ∧
  decodeTableWord 64 0x0200001060272403 = some (.cvt ⟨1, 7, false⟩ .P (.v 2) (.v 6) .bf16 .f32 .sr) ∧
  decodeTableWord 64 0x0120002040870603 = some (.shfl ⟨0, 7, false⟩ .P (.v 8) (.v 4) (.g 2) .down 0) ∧
  decodeTableWord 64 0x0080000001071E8B = some (.gnorm ⟨0, 7, false⟩ .S (.v 16) 1) ∧
  decodeTableWord 64 0x26100000800707C3 = some (.tloop ⟨0, 7, false⟩ 8 0 3 .var1 false) ∧
  decodeTableWord 64 0x0000011A1087003F = some (.launch ⟨0, 7, false⟩ (.g 8) ⟨false, true, false, .div 6⟩) ∧
  decodeTableWord 64 0x090000000057002F = some (.srd ⟨0, 7, false⟩ (.v 5) 18) ∧
  decodeTableWord 64 0x0000000500070027 = some (.trap ⟨0, 7, false⟩ 5)

/-- An instruction that keeps the rules of its fields is read back from its own bytes, with every operand and modifier, and with
nothing of what follows it (R19, R24 to R26, R43, R44). -/
def Obligations.DecodeEncodeRoundTrip : Prop :=
  ∀ (i : Instr) (bs rest : List Byte), i.check = .ok () → encode i = some bs → decode (bs ++ rest) = .ok (i, bs.length)

/-- The low bits of an instruction's first byte fix its length, wherever it stands (R19). -/
def Obligations.LengthByLowBits : Prop :=
  ∀ (r : TeamRec) (lpc w n : Nat) (i : Instr) (b : Byte) (bs : List Byte),
    (decode (b :: bs) = .ok (i, n) →
      n = if b.getLsbD 0 = false then 2 else if b.getLsbD 1 = false then 4 else 8) ∧
    (r.fetch lpc = .instr i w → ∃ cs, r.codeBytes lpc cs.length = .ok cs ∧ leNat cs = w ∧ decode cs = .ok (i, cs.length))

/-- Fetching (R20): an instruction is fetched where all its bytes lie below the code length, and none is where its first or its last
byte does not. -/
def FetchStaysBelowCodeLengthPart : Prop :=
  ∀ (r : TeamRec) (lpc n : Nat) (i : Instr) (b : Byte) (bs : List Byte),
    (r.d.clen ≤ lpc → r.fetch lpc = .bad 0) ∧
    (r.codeByte lpc = some b → r.d.clen < lpc + lengthOf b → r.fetch lpc = .bad 0) ∧
    (r.codeBytes lpc n = .ok bs → decode bs = .ok (i, n) → lpc + n ≤ r.d.clen → r.fetch lpc = .instr i (leNat bs))

/-- What a step runs. The agenda comes first: an event, or the issue of the selected group, at most once a cycle in a partition and for
two cycles in shape S. Without it an event that is due comes, then the issue of the next ready group, then a fetch of code, then the
next cycle. An issue runs the instruction that stands at the group's issue address, and one that cannot be decoded traps ILLOP (R20,
R45, R300). -/
def StepRunsTheNextThingPart : Prop :=
  ∀ (s u : State) (t g core part : Nat) (r : TeamRec) (k : Group) (a : Word) (i : Instr) (w c : Nat) (rest : List Turn),
    let base := { s with agenda := rest }
    let one := (core, part)
    let from_ := fun (s0 : State) (n : Nat) =>
      { (s0.unyield t g) with issuing := some ⟨t, g⟩, spent := List.replicate n one ++ s0.spent }
    let runs := fun (s0 : State) =>
      (r.fetch a.toNat = .instr i w → step s = exec i (from_ s0 (if (formOf i).wide then 2 else 1))) ∧
      (r.fetch a.toNat = .bad w → step s = .next (from_ s0 1).illop) ∧
      (r.fetch a.toNat = .need c → step s = .next { (from_ s0 1) with issuing := none })
    let clocks := s.thermal.state ≠ .off ∧ s.thermal.state ≠ .tripped
    s.team t = some r → r.groups.find g = some k → k.issueAddr = some a →
    (s.agenda = .event i :: rest → step s = exec i base) ∧
    (s.agenda = .issue core part :: rest → s.live = true → base.select core part = some (t, g) →
      (one ∈ s.spent → step s = .next base) ∧ (one ∉ s.spent → runs base)) ∧
    (s.agenda = .issue core part :: rest → s.live = true → base.select core part = none → step s = .next base) ∧
    (s.agenda = [] → clocks → s.nextEvent = some u → step s = .next u) ∧
    (s.agenda = [] → clocks → s.nextEvent = none → s.nextIssue = some (t, g, core, part) → runs s) ∧
    (s.agenda = [] → clocks → s.nextEvent = none → s.nextIssue = none → s.nextFetch = some u → step s = .next u) ∧
    (s.agenda = [] → clocks → s.nextEvent = none → s.nextIssue = none → s.nextFetch = none → step s = .next s.tick)

/-- What a step runs, and what a fetch finds (R20, R45, R300). -/
def Obligations.StepRunsTheNextThing : Prop := StepRunsTheNextThingPart ∧ FetchStaysBelowCodeLengthPart

/-- Nothing that is issued and no event stops the machine: each answers a next state. A step stops only where nothing is left to run
and the clocks stand (R372); a reset that was held is then made once every sensor is cool (R373). That an event which is not enabled leaves
the state as it is, and so answers a next state too, is assumption 20. -/
def Obligations.NothingStops : Prop :=
  (∀ i s, ∃ t, exec i s = .next t) ∧
  (∀ s e, step s = .refused e → False) ∧
  (∀ s f, step s = .fault f ↔ s.agenda = [] ∧
    ((s.thermal.state = .off ∧ f = .powerOff) ∨
     (s.thermal.state = .tripped ∧ (s.thermal.heldReset && s.coolEnough) = false ∧ f = .clocksStopped))) ∧
  ∀ s, s.agenda = [] → s.thermal.state = .tripped → (s.thermal.heldReset && s.coolEnough) = true → step s = .next s.deviceReset

/-- What reset leaves, where the rules state it (R81, R239, R288, R297, R299, R307, R308, R333, R367, R373, R380). -/
def Obligations.ResetState : Prop :=
  let s := State.reset
  (∀ c, (s.ctx c).enable = false ∧ (s.ctx c).owner = .a ∧ (s.ctx c).window = 0 ∧ (s.ctx c).cntrs = false ∧ (s.ctx c).deadline = 2000) ∧
  (∀ q, (s.queue q).enable = false ∧ (s.queue q).active = none) ∧
  (∀ d, (s.die d).csseq = 1 ∧ (s.die d).grp = 0xF ∧ (s.die d).lostw = 0) ∧
  (∀ d n, (s.ring d n).rbase = 0 ∧ (s.ring d n).rsize = 4 ∧ (s.ring d n).rcnt = 1 ∧ (s.ring d n).rtmo = 1) ∧
  (∀ l, (s.link l).state = 0) ∧
  s.thermal.state = .warmIdle ∧ s.thermal.band = .warm ∧ s.thermal.err = false ∧ s.pkg.fw = .empty ∧ s.clock.cycle = 0 ∧
  s.teams = [] ∧ s.grids = [] ∧ s.faults = [] ∧ s.copies = []

/-- Both memories keep their canonical form: addresses rise and no zero byte is listed. Reset has it, and every step keeps it. -/
def Obligations.MemoryStaysCanonical : Prop :=
  (State.reset.dram.wf = true ∧ State.reset.host.wf = true) ∧
  ∀ s t, s.dram.wf = true → s.host.wf = true → step s = .next t → t.dram.wf = true ∧ t.host.wf = true

/-- The bank that an instruction names. -/
def bankOf (i : Instr) : Option (Fin 4) :=
  match i with
  | .tloop _ _ k _ _ _ => some k
  | .tqnt _ _ k _ _ _ => some k
  | .taccRd _ _ _ k _ => some k
  | .taccWr _ _ _ _ k => some k
  | .taccZero _ k => some k
  | _ => none

/-- What an issue checks before an instruction's own effect, in this order: the names of its registers (R30), under STRICT the stall
contract (R40), and the relay entries that it reads (R38); then, of TLOOP, TQNT and TACC, the number of the bank (R142, R148, R149). The
instruction does nothing but trap, whatever its guards. -/
def IssueChecksPart : Prop :=
  ∀ (i : Instr) (bs : List Byte) (s : State) (x : Ix) (d c : Nat) (u : Use) (k : Fin 4),
    let f := formOf i
    let traps := fun code detail lanes => exec i s = .next (s.raise x.t x.g code detail x.pc lanes 0)
    let timely := x.grp.strict = true → f.loose = false → f.shortfall x.grp x.at_ = none
    let failing := f.uses.find? fun u => u.relayFails x.grp x.ex != []
    i.check = .ok () → encode i = some bs → s.ix f = some x → (∀ rest, i ≠ .ill rest) →
    (f.illreg (x.team.alloc x.grp) = some d → traps 2 d 0) ∧
    (f.illreg (x.team.alloc x.grp) = none → x.grp.strict = true → f.loose = false → f.shortfall x.grp x.at_ = some c → traps 3 c 0) ∧
    (f.illreg (x.team.alloc x.grp) = none → timely → failing = some u →
      traps 2 (u.src.code + 256 * u.fld + 2048) (maskOf (u.relayFails x.grp x.ex))) ∧
    (f.illreg (x.team.alloc x.grp) = none → timely → failing = none → bankOf i = some k → x.team.banks.length ≤ k.val →
      traps 2 (k.val + 1280) 0)

/-- The names that R30 rejects: a lane register whose number is no multiple of its operand's words or that ends beyond the role's
allocation, and a scalar register that is no multiple or that ends beyond g63. -/
def Obligations.RegisterNameRules : Prop :=
  ∀ (fld alloc : Nat) (v : Fin 224) (g : Fin 64) (sh : Shape) (f : Form),
    ((use fld (.v v) sh).bad alloc = true ↔ v.val % sh.words ≠ 0 ∨ alloc ≤ v.val + sh.words - 1) ∧
    ((use fld (.g g) sh).bad alloc = true ↔ g.val % sh.words ≠ 0 ∨ 63 < g.val + sh.words - 1) ∧
    ((Dest.lane (.v v) sh).bad alloc = true ↔ v.val % sh.words ≠ 0 ∨ alloc ≤ v.val + sh.words - 1) ∧
    ((Dest.scalar g sh).bad alloc = true ↔ g.val % sh.words ≠ 0 ∨ 63 < g.val + sh.words - 1) ∧
    (f.illreg alloc = none ↔ f.dest.bad alloc = false ∧ ∀ u ∈ f.uses, u.bad alloc = false) ∧
    Shape.P.words = 1 ∧ Shape.M.words = 2 ∧ Shape.Q.words = 4 ∧ Shape.S.words = 8

/-- Where no lane at the address has a true guard, an instruction does nothing: every lane at the address goes past it, and no
register, relay entry, predicate or byte changes (R32). ILL alone traps whatever the guards, and the issue of a BWAIT or a BSYNC ends
the group's passes (R251). -/
def Obligations.IdleInstructionAdvances : Prop :=
  ∀ (i : Instr) (bs : List Byte) (s : State) (x : Ix), i.check = .ok () → encode i = some bs → (∀ rest, i ≠ .ill rest) →
    (∀ n, bankOf i = some n → n.val < x.team.banks.length) → Issues (formOf i) s x → x.ex = [] →
    Completes i s x (x.past (formOf i))
      (match i with
       | .bwait _ _ _ | .bsync _ _ => x.grp.mapLanes fun _ l => { l with pass := none }
       | _ => x.grp)

/-- Operands (R29): z reads 0 in every word, a scalar reads the same words in every lane, a shaped scalar reads consecutive words; and
a result for z goes to no register but is pushed to the relay. -/
def Obligations.ScalarAndZeroOperands : Prop :=
  ∀ (fld i j n born cyc : Nat) (g : Group) (k : Fin 64) (sh : Shape) (l : Lane) (f : Form) (ws : List Word),
    (use fld .z sh).read g i = List.replicate sh.words RWord.zero ∧
    (use fld (.g k) sh).read g i = (use fld (.g k) sh).read g j ∧
    (use fld (.g k) sh).read g i = (List.range sh.words).map (fun m => g.greg (k.val + m)) ∧
    (l.commit (.lane .z sh) f born cyc ws).reg n = l.reg n ∧
    (l.commit (.lane .z sh) f born cyc ws).relay = (⟨sh, ws.map RWord.clean, f.lat, born, cyc, none⟩ :: l.relay).take 8

/-- Whether a lane of an instruction meets only the marks of its own sources, before any trap of the instruction's own but that of a bank
or barrier number: not so a group instruction, one that reads other lanes' words, one that takes its words by an index, and one that
reads a descriptor (R95, R128, R264). -/
def ownMarks (i : Instr) : Bool :=
  match i with
  | .swr _ _ _ | .srd _ _ _ | .budget _ _ | .binit _ _ _ | .bexp _ _ _ _ | .cpyb _ _ _ _ | .tloop _ _ _ _ _ _ | .thad _ _ _ _ _
  | .tqnt _ _ _ _ _ _ | .shfl _ _ _ _ _ _ _ | .lred _ _ _ _ _ _ | .lscn _ _ _ _ _ _ _ | .match _ _ _ | .gcat _ _ _ _ | .vrd _ _ _ _
  | .vwr _ _ _ _ | .ill _ => false
  | _ => true

/-- The number of the barrier register that a copy names. -/
def barOf (i : Instr) : Option (Fin 16) :=
  match i with
  | .cpy _ _ _ _ j _ _ => some j
  | _ => none

/-- POISON (R95): an executing lane that reads a mark traps its group, and the instruction writes nothing, whatever it is: arithmetic,
float functions, conversions, branches, addresses of loads, stores, ATOMs, copies and launches. Of a group instruction's lane register
only the lowest executing lane's word is read; a marked word of a tile descriptor or of CPYB's traps with every executing lane. -/
def MarkedOperandsTrapPart : Prop :=
  ∀ (h : Hd) (i : Instr) (bs : List Byte) (ra : Src) (rg : Fin 64) (reg : Fin 512) (k : Fin 4) (j : Fin 16) (esc dec sr vr z : Bool)
    (mode : LoopMode) (pts : HadPts) (s : State) (x : Ix) (l : Nat) (ls : List Nat),
    let poison := fun (i : Instr) (ls : List Nat) => exec i s = .next (s.raise x.t x.g 7 0 x.pc (maskOf ls) 0)
    let grouped := fun (i : Instr) => Admits (formOf i) s x → x.groupPoisoned (formOf i) = l :: ls → poison i (l :: ls)
    let tile := fun (i : Instr) (n : Nat) => Admits (formOf i) s x → j.val < x.team.d.barriers → x.ex = l :: ls →
      (∃ w ∈ (x.source (formOf i) 0 l).take n, w.poison = true) → poison i (l :: ls)
    (i.check = .ok () → encode i = some bs → ownMarks i = true → (∀ n, bankOf i = some n → n.val < x.team.banks.length) →
      (∀ n, barOf i = some n → n.val < x.team.d.barriers) →
      Admits (formOf i) s x → x.poisoned (formOf i) = l :: ls → poison i (l :: ls)) ∧
    (swrNumber reg.val = true → grouped (.swr h ra reg)) ∧ grouped (.budget h ra) ∧ grouped (.binit h ra j) ∧ grouped (.bexp h ra j dec) ∧
    (j.val < x.team.d.barriers → Admits (formOf (.cpyb h rg j esc)) s x → x.poisoned (formOf (.cpyb h rg j esc)) = l :: ls →
      poison (.cpyb h rg j esc) (l :: ls)) ∧
    (k.val < x.team.banks.length → tile (.tloop h rg k j mode z) 8 ∧ tile (.tqnt h rg k j sr vr) 4) ∧ tile (.thad h rg pts j sr) 7

/-- The checks of an issue in the order of R46, and the marks that trap (R30, R38, R40, R46, R95). -/
def Obligations.IssueChecks : Prop := IssueChecksPart ∧ MarkedOperandsTrapPart

/-- The issue address and readiness (R250, R262, R300, R354): the smallest LPC of the lanes that count; a ready group has no trap
condition, its stall is over, and nothing holds it; a partition issues for a ready group of its own; and a group that has raised a
condition is ready no more. The latencies that an issue enters in the scoreboard are those of R39, by the shape, of a multiplication, and
none of what takes variably long. -/
def Obligations.ReadinessRules : Prop :=
  ∀ (s : State) (t g core part code detail addr : Nat) (r : TeamRec) (k : Group) (a lpc : Word) (lanes : BitVec 32),
    s.team t = some r → r.groups.find g = some k →
    (k.issueAddr = some a → (∃ l ∈ k.lanes, l.counts = true ∧ l.lpc = a) ∧ ∀ l ∈ k.lanes, l.counts = true → a.toNat ≤ l.lpc.toNat) ∧
    (k.issueAddr = none → ∀ l ∈ k.lanes, l.counts = false) ∧
    (s.ready t g = true → r.trap = none ∧ (∀ c ∈ r.conds, c.grp ≠ g) ∧ k.notBefore ≤ s.clock.cycle ∧ k.wait = .none ∧
      k.held = .none ∧ k.yield = none ∧ k.issueAddr ≠ none) ∧
    (s.select core part = some (t, g) → s.ready t g = true ∧ (t, g) ∈ s.resident core part) ∧
    (s.raise t g code detail lpc lanes addr).ready t g = false ∧
    ∀ (h : Hd) (sh : Shape) (rd : Dst) (ld : LDst) (ra rb rc : Src) (rs : LSrc) (base : Base) (wd : Width) (sc : Scope) (esc sx : Bool)
      (off : BitVec 18) (rm : Rm) (pd : Pred) (cd : ICond) (imm : BitVec 28) (sg : MulSign),
      let shaped := match sh with | .P => 4 | .M => 5 | .Q => 7 | .S => 6
      (formOf (.iadd h rd ra rb)).lat = 4 ∧ (formOf (.icmp h pd ra rb cd sx)).lat = 4 ∧ (formOf (.fadd h sh ld ra rb rm)).lat = shaped ∧
      (formOf (.mov h sh rd ra)).lat = shaped ∧ (formOf (.mcov h ld ra rb)).lat = 7 ∧ (formOf (.imul h rd ra rb)).lat = 6 ∧
      (formOf (.imulh h rd ra rb sg)).lat = 6 ∧ (formOf (.imad h rd ra rb rc)).lat = 6 ∧ (formOf (.imulImm h ld rs imm)).lat = 6 ∧
      (formOf (.frcp h sh ld ra rm)).lat = 0 ∧ (formOf (.sdraw h ld ra)).lat = 0 ∧
      (formOf (.ld h ld base wd sc esc sx off)).lat = 0

/-! Home addresses (R226 to R228). -/

/-- The home die of a granule, the place of its bytes on that die and its slice (R226, R227, R228). Each die homes four granules of a
64 KiB page, and no two addresses of a page share their place on a die. -/
def Obligations.HomeAddresses : Prop :=
  ∀ (va vb p d : Nat) (l : Leaf), va < 2 ^ 57 → vb < 2 ^ 57 → l.host = false → l.pinned = false →
    let o := va % l.size
    let x := va / 128
    hashHome va < 4 ∧
    (hashHome va).testBit 0 = (List.range 22).foldl (fun b i => b ^^ va.testBit (12 + 2 * i)) (va.testBit 56) ∧
    (hashHome va).testBit 1 = (List.range 22).foldl (fun b i => b ^^ va.testBit (13 + 2 * i)) false ∧
    l.home va = hashHome va ∧
    (l.phys va).addr = hashHome va * 2 ^ 37 + (l.frame * (l.size / 4) + o / 16384 * 4096 + o % 4096) % 2 ^ 37 ∧
    sliceOf va = (x % 65536 ^^^ x / 65536 % 65536 ^^^ x / 2 ^ 32 % 65536 ^^^ x / 2 ^ 48 % 4) * 48 / 65536 ∧ sliceOf va < 48 ∧
    (d < 4 → ((List.range 16).filter fun i => hashHome (p * 2 ^ 16 + 4096 * i) == d).length = 4) ∧
    (va / l.size = vb / l.size → l.phys va = l.phys vb → va = vb)
end

