-- ==== Sys2Proof/Laws/Codes.lean ====
section
/-! SUPPORT. Codes and fields: every code reads back as what it stands for, and the fields of a word built by the encoder are the
values given. -/

namespace Sys2Proof

/-- A decoder's answer passed on. -/
theorem Dec.ok_bind {α β : Type} (a : α) (f : α → Dec β) : ((Except.ok a : Dec α) >>= f) = f a := rfl
theorem Dec.pure_ok {α : Type} (a : α) : (pure a : Dec α) = Except.ok a := rfl

/-! ### Enumerations -/

theorem Rm.ofCode_code (x : Rm) : Rm.ofCode x.code = some x := by cases x <;> rfl
theorem Rm.code_lt (x : Rm) : x.code < 8 := by cases x <;> decide
theorem Sec.ofCode_code (x : Sec) : Sec.ofCode x.code = some x := by cases x <;> rfl
theorem Sec.code_lt (x : Sec) : x.code < 4 := by cases x <;> decide
theorem MulSign.ofCode_code (x : MulSign) : MulSign.ofCode x.code = some x := by cases x <;> rfl
theorem MulSign.code_lt (x : MulSign) : x.code < 4 := by cases x <;> decide
theorem ICond.ofCode_code (x : ICond) : ICond.ofCode x.code = some x := by cases x <;> rfl
theorem ICond.code_lt (x : ICond) : x.code < 8 := by cases x <;> decide
theorem FCond.ofCode_code (x : FCond) : FCond.ofCode x.code = some x := by cases x <;> rfl
theorem FCond.code_lt (x : FCond) : x.code < 8 := by cases x <;> decide
theorem ShMode.ofCode_code (x : ShMode) : ShMode.ofCode x.code = some x := by cases x <;> rfl
theorem ShMode.code_lt (x : ShMode) : x.code < 4 := by cases x <;> decide
theorem VoteMode.ofCode_code (x : VoteMode) : VoteMode.ofCode x.code = some x := by cases x <;> rfl
theorem VoteMode.code_lt (x : VoteMode) : x.code < 4 := by cases x <;> decide
theorem RedOp.ofCode_code (x : RedOp) : RedOp.ofCode x.code = some x := by cases x <;> rfl
theorem RedOp.code_lt (x : RedOp) : x.code < 16 := by cases x <;> decide
theorem FoldSel.ofCode_code (x : FoldSel) : FoldSel.ofCode x.code = some x := by cases x <;> rfl
theorem FoldSel.code_lt (x : FoldSel) : x.code < 4 := by cases x <;> decide
theorem Scope.ofCode_code (x : Scope) : Scope.ofCode x.code = some x := by cases x <;> rfl
theorem Scope.code_lt (x : Scope) : x.code < 8 := by cases x <;> decide
theorem Width.ofCode_code (x : Width) : Width.ofCode x.code = some x := by cases x <;> rfl
theorem Width.code_lt (x : Width) : x.code < 8 := by cases x <;> decide
theorem FenceKind.ofCode_code (x : FenceKind) : FenceKind.ofCode x.code = some x := by cases x <;> rfl
theorem FenceKind.code_lt (x : FenceKind) : x.code < 4 := by cases x <;> decide
theorem CpySize.ofCode_code (x : CpySize) : CpySize.ofCode x.code = some x := by cases x <;> rfl
theorem CpySize.code_lt (x : CpySize) : x.code < 4 := by cases x <;> decide
theorem LoopMode.ofCode_code (x : LoopMode) : LoopMode.ofCode x.code = some x := by cases x <;> rfl
theorem LoopMode.code_lt (x : LoopMode) : x.code < 4 := by cases x <;> decide
theorem HadPts.ofCode_code (x : HadPts) : HadPts.ofCode x.code = some x := by cases x <;> rfl
theorem HadPts.code_lt (x : HadPts) : x.code < 4 := by cases x <;> decide
theorem Fmt.ofCode_code (x : Fmt) : Fmt.ofCode x.code = some x := by cases x <;> rfl
theorem Fmt.code_lt (x : Fmt) : x.code < 256 := by cases x <;> decide
theorem EFmt.ofCode_code (x : EFmt) : EFmt.ofCode x.code = some x := by cases x <;> rfl
theorem EFmt.code_lt (x : EFmt) : x.code < 16 := by cases x <;> decide
theorem UniForm.ofCode_code (x : UniForm) : UniForm.ofCode x.code = some x := by
  rcases x with _ | b
  · rfl
  · cases b <;> rfl
theorem UniForm.code_lt (x : UniForm) : x.code < 4 := by
  rcases x with _ | b
  · decide
  · cases b <;> decide
theorem BTestForm.ofCode_code (x : BTestForm) : BTestForm.ofCode x.code = some x := by
  rcases x with b | _
  · cases b <;> rfl
  · rfl
theorem BTestForm.code_lt (x : BTestForm) : x.code < 4 := by
  rcases x with b | _
  · cases b <;> decide
  · decide
theorem boolOf_toNat (b : Bool) : boolOf b.toNat = some b := by cases b <;> rfl
theorem beq_toNat (b : Bool) : (b.toNat == 1) = b := by cases b <;> rfl
theorem finOf_val {n : Nat} [NeZero n] (x : Fin n) : finOf n x.val = some x := by simp [finOf]
theorem Shape.ofCode_code (s : Shape) : Shape.ofCode s.code = s := by cases s <;> rfl
theorem Shape.code_lt (s : Shape) : s.code < 4 := by cases s <;> decide
theorem Paths.ofCode_code (p : Paths) : Paths.ofCode p.code = some p := by
  obtain ⟨a, b, c, d⟩ := p
  cases a <;> cases b <;> cases c <;> cases d <;> rfl
theorem Paths.code_lt (p : Paths) : p.code < 16 := by
  obtain ⟨a, b, c, d⟩ := p
  cases a <;> cases b <;> cases c <;> cases d <;> decide
theorem PTest.ofCode_code (t : PTest) : PTest.ofCode t.code = some t := by
  rcases t with _ | _ | k
  · rfl
  · rfl
  · have e : (2 + 16 * k.val) / 16 = k.val := by omega
    have e' : ¬(2 + 16 * k.val = 1) := by omega
    simp [PTest.ofCode, PTest.code, e, e', Fin.ofNat, Nat.mod_eq_of_lt k.isLt]
theorem PTest.code_lt (t : PTest) : t.code < 512 := by
  rcases t with _ | _ | k
  · decide
  · decide
  · simp only [PTest.code]; omega
theorem LaunchOpt.ofCode_code (o : LaunchOpt) : LaunchOpt.ofCode o.code = some o := by
  obtain ⟨a, b, c, s⟩ := o
  rcases s with _ | _ | sh | _ <;> (try revert sh) <;> cases a <;> cases b <;> cases c <;> decide
theorem LaunchOpt.code_lt (o : LaunchOpt) : o.code < 1024 := by
  obtain ⟨a, b, c, s⟩ := o
  rcases s with _ | _ | sh | _ <;> (try revert sh) <;> cases a <;> cases b <;> cases c <;> decide

/-! ### Operands -/

theorem Src.code_lt (a : Src) : a.code < 256 := by cases a <;> simp only [Src.code] <;> omega
theorem Src.sel_lt (a : Src) : a.sel < 2 := by cases a <;> simp [Src.sel]
theorem srcOf_code (a : Src) : srcOf a.code a.sel = .ok a := by
  rcases a with n | n | _ | _ | n
  · simp [srcOf, Src.code, Src.sel, Fin.ofNat, Nat.mod_eq_of_lt n.isLt]
  · have h1 : ¬(224 + n.val < 224) := by omega
    have h2 : 224 + n.val < 232 := by omega
    have h3 : n.val % 8 = n.val := by omega
    simp only [srcOf, Src.code, Src.sel, Nat.zero_ne_one, h1, h2, if_false, if_true, Fin.ofNat, Nat.add_sub_cancel_left, h3]
  · rfl
  · rfl
  · simp [srcOf, Src.code, Src.sel, Fin.ofNat, Nat.mod_eq_of_lt n.isLt]
theorem LSrc.code_lt (a : LSrc) : a.code < 256 := by cases a <;> simp only [LSrc.code] <;> omega
theorem lsrcOf_code (a : LSrc) : lsrcOf a.code = .ok a := by
  rcases a with n | n | _ | _
  · simp [lsrcOf, LSrc.code, Fin.ofNat, Nat.mod_eq_of_lt n.isLt]
  · have h1 : ¬(224 + n.val < 224) := by omega
    have h2 : 224 + n.val < 232 := by omega
    have h3 : n.val % 8 = n.val := by omega
    simp only [lsrcOf, LSrc.code, h1, h2, if_false, if_true, Fin.ofNat, Nat.add_sub_cancel_left, h3]
  · rfl
  · rfl
theorem LDst.code_lt (a : LDst) : a.code < 256 := by cases a <;> simp only [LDst.code] <;> omega
theorem ldstOf_code (a : LDst) : ldstOf a.code = .ok a := by
  rcases a with n | _
  · simp [ldstOf, LDst.code, Fin.ofNat, Nat.mod_eq_of_lt n.isLt]
  · rfl
theorem Dst.code_lt (a : Dst) : a.code < 256 := by cases a <;> simp only [Dst.code] <;> omega
theorem Dst.sd_lt (a : Dst) : a.sd < 2 := by cases a <;> simp [Dst.sd]
theorem dstOf_code (a : Dst) : dstOf a.code a.sd = .ok a := by
  rcases a with n | _ | n
  · simp [dstOf, Dst.code, Dst.sd, Fin.ofNat, Nat.mod_eq_of_lt n.isLt]
  · rfl
  · simp [dstOf, Dst.code, Dst.sd, Fin.ofNat, Nat.mod_eq_of_lt n.isLt]
theorem Base.code_lt (a : Base) : a.code < 256 := by cases a <;> simp only [Base.code] <;> omega
theorem Base.sel_lt (a : Base) : a.sel < 2 := by cases a <;> simp [Base.sel]
theorem baseOf_code (a : Base) : baseOf a.code a.sel = .ok a := by
  rcases a with n | n
  · simp [baseOf, Base.code, Base.sel, Fin.ofNat, Nat.mod_eq_of_lt n.isLt]
  · simp [baseOf, Base.code, Base.sel, Fin.ofNat, Nat.mod_eq_of_lt n.isLt]
theorem predOf_val (p : Pred) : predOf p.val 0 = .ok p := by simp [predOf]
theorem atomRdCode_lt (d : Option LDst) : atomRdCode d < 256 := by
  rcases d with _ | d
  · decide
  · exact d.code_lt
theorem AtomOp.code_lt (o : AtomOp) : o.code < 32 := by
  cases o <;> simp only [AtomOp.code] <;> (try decide) <;> (rename_i u; cases u <;> decide)
theorem AtomOp.rc_lt (o : AtomOp) : o.rc.1 < 256 ∧ o.rc.2 < 2 := by
  cases o <;> simp only [AtomOp.rc] <;> (try decide)
  · exact ⟨Src.code_lt _, Src.sel_lt _⟩
  · exact ⟨Src.code_lt _, Src.sel_lt _⟩
theorem SeedForm.rb_lt (o : SeedForm) : o.rb.1 < 256 ∧ o.rb.2 < 2 := by
  rcases o with ⟨b, r⟩ | _
  · exact ⟨Src.code_lt _, Src.sel_lt _⟩
  · decide
theorem SeedForm.code_lt (o : SeedForm) : o.code < 4 := by
  rcases o with ⟨b, r⟩ | _
  · cases b <;> simp [SeedForm.code]
  · decide
theorem AccForm.shape_lt (o : AccForm) : o.shape < 2 := by cases o <;> decide
theorem AccForm.var_lt (o : AccForm) : o.var < 2 := by cases o <;> decide

/-! ### The fields of a word -/

/-- Every field within its width. -/
def Raw.fits (r : Raw) : Prop :=
  r.op < 512 ∧ r.shape < 4 ∧ r.stall < 8 ∧ r.gp < 8 ∧ r.gn < 2 ∧ r.rd < 256 ∧ r.hi < 68719476736

/-- Fields within their widths are read back from the word (R24 to R26). -/
theorem rawOf_rawWord (r : Raw) (h : r.fits) : rawOf (rawWord r) = r := by
  obtain ⟨op, sh, st, gp, gn, rd, hi⟩ := r
  simp only [Raw.fits] at h
  simp only [rawOf, rawWord, Raw.mk.injEq]
  omega

/-- A word of fields within their widths is a 64-bit word with bits 1:0 set (R19). -/
theorem rawWord_lt (r : Raw) (h : r.fits) : rawWord r < 2 ^ 64 ∧ rawWord r % 4 = 3 := by
  obtain ⟨op, sh, st, gp, gn, rd, hi⟩ := r
  simp only [Raw.fits] at h
  simp only [rawWord]
  omega

section
variable {op sh rd ra sa rb sb rc sc md : Nat} {h : Hd}

theorem g64_hd : (g64 op sh h rd ra sa rb sb rc sc md).hd = .ok h := by
  obtain ⟨a, b, c⟩ := h; cases c <;> simp [Raw.hd, g64]
theorem g64_fits (h0 : op < 512) (hs : sh < 4) (hd : rd < 256) (h1 : ra < 256) (h2 : rb < 256) (h3 : rc < 256) (h4 : sa < 2)
    (h5 : sb < 2) (h6 : sc < 2) (h7 : md < 512) : (g64 op sh h rd ra sa rb sb rc sc md).fits := by
  obtain ⟨a, b, c⟩ := h
  have : c.toNat < 2 := by cases c <;> decide
  simp only [Raw.fits, g64]; omega
theorem g64_ra (h1 : ra < 256) : (g64 op sh h rd ra sa rb sb rc sc md).ra = ra := by simp only [Raw.ra, g64]; omega
theorem g64_rb (h1 : ra < 256) (h2 : rb < 256) : (g64 op sh h rd ra sa rb sb rc sc md).rb = rb := by
  simp only [Raw.rb, g64]; omega
theorem g64_rc (h1 : ra < 256) (h2 : rb < 256) (h3 : rc < 256) : (g64 op sh h rd ra sa rb sb rc sc md).rc = rc := by
  simp only [Raw.rc, g64]; omega
theorem g64_sa (h1 : ra < 256) (h2 : rb < 256) (h3 : rc < 256) (h4 : sa < 2) :
    (g64 op sh h rd ra sa rb sb rc sc md).sa = sa := by
  simp only [Raw.sa, g64]; omega
theorem g64_sb (h1 : ra < 256) (h2 : rb < 256) (h3 : rc < 256) (h4 : sa < 2) (h5 : sb < 2) :
    (g64 op sh h rd ra sa rb sb rc sc md).sb = sb := by
  simp only [Raw.sb, g64]; omega
theorem g64_sc (h1 : ra < 256) (h2 : rb < 256) (h3 : rc < 256) (h4 : sa < 2) (h5 : sb < 2) (h6 : sc < 2) :
    (g64 op sh h rd ra sa rb sb rc sc md).sc = sc := by
  simp only [Raw.sc, g64]; omega
theorem g64_md (h1 : ra < 256) (h2 : rb < 256) (h3 : rc < 256) (h4 : sa < 2) (h5 : sb < 2) (h6 : sc < 2) :
    (g64 op sh h rd ra sa rb sb rc sc md).md = md := by
  simp only [Raw.md, g64]; omega
theorem g64_m (lo n : Nat) (h1 : ra < 256) (h2 : rb < 256) (h3 : rc < 256) (h4 : sa < 2) (h5 : sb < 2) (h6 : sc < 2) :
    (g64 op sh h rd ra sa rb sb rc sc md).m lo n = md / 2 ^ lo % 2 ^ n := by
  rw [Raw.m, g64_md h1 h2 h3 h4 h5 h6]
theorem g64_srcA {a : Src} (h2 : rb < 256) (h3 : rc < 256) : (g64 op sh h rd a.code a.sel rb sb rc sc md).srcA = .ok a := by
  rw [Raw.srcA, g64_ra a.code_lt, g64_sa a.code_lt h2 h3 a.sel_lt, srcOf_code]
theorem g64_srcB {a : Src} (h1 : ra < 256) (h3 : rc < 256) (h4 : sa < 2) :
    (g64 op sh h rd ra sa a.code a.sel rc sc md).srcB = .ok a := by
  rw [Raw.srcB, g64_rb h1 a.code_lt, g64_sb h1 a.code_lt h3 h4 a.sel_lt, srcOf_code]
theorem g64_srcC {a : Src} (h1 : ra < 256) (h2 : rb < 256) (h4 : sa < 2) (h5 : sb < 2) :
    (g64 op sh h rd ra sa rb sb a.code a.sel md).srcC = .ok a := by
  rw [Raw.srcC, g64_rc h1 h2 a.code_lt, g64_sc h1 h2 a.code_lt h4 h5 a.sel_lt, srcOf_code]
theorem g64_baseA {a : Base} (h2 : rb < 256) (h3 : rc < 256) : (g64 op sh h rd a.code a.sel rb sb rc sc md).baseA = .ok a := by
  rw [Raw.baseA, g64_ra a.code_lt, g64_sa a.code_lt h2 h3 a.sel_lt, baseOf_code]
theorem g64_baseB {a : Base} (h1 : ra < 256) (h3 : rc < 256) (h4 : sa < 2) :
    (g64 op sh h rd ra sa a.code a.sel rc sc md).baseB = .ok a := by
  rw [Raw.baseB, g64_rb h1 a.code_lt, g64_sb h1 a.code_lt h3 h4 a.sel_lt, baseOf_code]
theorem g64_predA {p : Pred} (h2 : rb < 256) (h3 : rc < 256) : (g64 op sh h rd p.val 0 rb sb rc sc md).predA = .ok p := by
  have := p.isLt
  rw [Raw.predA, g64_ra (by omega), g64_sa (by omega) h2 h3 (by omega), predOf_val]
theorem g64_predB {p : Pred} (h1 : ra < 256) (h3 : rc < 256) (h4 : sa < 2) :
    (g64 op sh h rd ra sa p.val 0 rc sc md).predB = .ok p := by
  have := p.isLt
  rw [Raw.predB, g64_rb h1 (by omega), g64_sb h1 (by omega) h3 h4 (by omega), predOf_val]
theorem g64_predC {p : Pred} (h1 : ra < 256) (h2 : rb < 256) (h4 : sa < 2) (h5 : sb < 2) :
    (g64 op sh h rd ra sa rb sb p.val 0 md).predC = .ok p := by
  have := p.isLt
  rw [Raw.predC, g64_rc h1 h2 (by omega), g64_sc h1 h2 (by omega) h4 h5 (by omega), predOf_val]
theorem g64_gA {n : Fin 64} (h2 : rb < 256) (h3 : rc < 256) : (g64 op sh h rd n.val 1 rb sb rc sc md).gA = .ok n := by
  have := n.isLt
  rw [Raw.gA, g64_ra (by omega), g64_sa (by omega) h2 h3 (by omega), if_pos ⟨rfl, this⟩]
  simp
theorem g64_noA (h2 : rb < 256) (h3 : rc < 256) : (g64 op sh h rd 0 0 rb sb rc sc md).noA = .ok () := by
  rw [Raw.noA, g64_ra (by omega), g64_sa (by omega) h2 h3 (by omega)]; rfl
theorem g64_noB (h1 : ra < 256) (h3 : rc < 256) (h4 : sa < 2) : (g64 op sh h rd ra sa 0 0 rc sc md).noB = .ok () := by
  rw [Raw.noB, g64_rb h1 (by omega), g64_sb h1 (by omega) h3 h4 (by omega)]; rfl
theorem g64_noC (h1 : ra < 256) (h2 : rb < 256) (h4 : sa < 2) (h5 : sb < 2) :
    (g64 op sh h rd ra sa rb sb 0 0 md).noC = .ok () := by
  rw [Raw.noC, g64_rc h1 h2 (by omega), g64_sc h1 h2 (by omega) h4 h5 (by omega)]; rfl
theorem g64_noD : (g64 op sh h 0 ra sa rb sb rc sc md).noD = .ok () := rfl
theorem g64_ldst {d : LDst} : (g64 op sh h d.code ra sa rb sb rc sc md).ldst = .ok d := ldstOf_code d
theorem g64_rdSrc {d : LSrc} : (g64 op sh h d.code ra sa rb sb rc sc md).rdSrc = .ok d := lsrcOf_code d
theorem g64_pd {p : Pred} : (g64 op sh h p.val ra sa rb sb rc sc md).pd = .ok p := predOf_val p
theorem g64_shp {s : Shape} : (g64 op s.code h rd ra sa rb sb rc sc md).shp = .ok s := by
  rw [Raw.shp, show (g64 op s.code h rd ra sa rb sb rc sc md).shape = s.code from rfl, Shape.ofCode_code]
theorem g64_dst {d : Dst} (e : (g64 op sh h d.code ra sa rb sb rc sc md).md / 256 % 2 = d.sd) :
    (g64 op sh h d.code ra sa rb sb rc sc md).dst = .ok d := by
  rw [Raw.dst, e]; exact dstOf_code d
end

/-- A modifier field that holds the code of `x`. -/
theorem Raw.fld_of {α : Type} {w : Raw} {lo n c : Nat} {f : Nat → Option α} {x : α} (h : w.m lo n = c) (e : f c = some x) :
    w.fld lo n f = .ok x := by rw [Raw.fld, h, e]
theorem Raw.rsv_of {w : Raw} {lo n : Nat} (h : w.m lo n = 0) : w.rsv lo n = .ok () := by rw [Raw.rsv, if_pos h]

section
variable {op rd ra imm jctl : Nat} {h : Hd}

theorem i64_hd : (i64 op h rd ra imm).hd = .ok h := by
  obtain ⟨a, b, c⟩ := h; cases c <;> simp [Raw.hd, i64]
theorem i64_fits (h0 : op < 512) (hd : rd < 256) (h1 : ra < 256) (h2 : imm < 268435456) : (i64 op h rd ra imm).fits := by
  obtain ⟨a, b, c⟩ := h
  have : c.toNat < 2 := by cases c <;> decide
  simp only [Raw.fits, i64]; omega
theorem i64_ldst {d : LDst} : (i64 op h d.code ra imm).ldst = .ok d := ldstOf_code d
theorem i64_lsrcA {a : LSrc} : (i64 op h rd a.code imm).lsrcA = .ok a := by
  have := a.code_lt
  rw [Raw.lsrcA, Raw.ra, show (i64 op h rd a.code imm).hi % 256 = a.code by simp only [i64]; omega, lsrcOf_code]
theorem i64_imm (h1 : ra < 256) : (i64 op h rd ra imm).imm28 = imm := by simp only [Raw.imm28, i64]; omega

theorem j64_hd : (j64 op h rd jctl imm).hd = .ok h := by
  obtain ⟨a, b, c⟩ := h; cases c <;> simp [Raw.hd, j64]
theorem j64_fits (h0 : op < 512) (hd : rd < 256) (h1 : jctl < 16) (h2 : imm < 4294967296) : (j64 op h rd jctl imm).fits := by
  obtain ⟨a, b, c⟩ := h
  have : c.toNat < 2 := by cases c <;> decide
  simp only [Raw.fits, j64]; omega
theorem j64_ldst {d : LDst} : (j64 op h d.code jctl imm).ldst = .ok d := ldstOf_code d
theorem j64_noD : (j64 op h 0 jctl imm).noD = .ok () := rfl
theorem j64_jctl (h1 : jctl < 16) : (j64 op h rd jctl imm).jctl = jctl := by simp only [Raw.jctl, j64]; omega
theorem j64_imm (h1 : jctl < 16) : (j64 op h rd jctl imm).imm32 = imm := by simp only [Raw.imm32, j64]; omega
end

section
variable {op rd : Nat} {h : Hd} {ra : Base} {wd : Width} {sc : Scope} {esc sx : Bool} {off : BitVec 18}

theorem m64_hd : (m64 op h rd ra wd sc esc sx off).hd = .ok h := by
  obtain ⟨a, b, c⟩ := h; cases c <;> simp [Raw.hd, m64]
/-- The memory layout's fields (R25). -/
theorem m64_hi : (m64 op h rd ra wd sc esc sx off).hi % 256 = ra.code ∧ (m64 op h rd ra wd sc esc sx off).hi / 256 % 8 = wd.code ∧
    (m64 op h rd ra wd sc esc sx off).hi / 2048 % 8 = sc.code ∧ (m64 op h rd ra wd sc esc sx off).hi / 16384 % 2 = esc.toNat ∧
    (m64 op h rd ra wd sc esc sx off).hi / 32768 % 2 = sx.toNat ∧ (m64 op h rd ra wd sc esc sx off).hi / 65536 % 2 = 0 ∧
    (m64 op h rd ra wd sc esc sx off).hi / 131072 % 2 = ra.sel ∧ (m64 op h rd ra wd sc esc sx off).hi / 262144 = off.toNat ∧
    (m64 op h rd ra wd sc esc sx off).hi < 68719476736 := by
  have := ra.code_lt; have := ra.sel_lt; have := wd.code_lt; have := sc.code_lt
  have := Bool.toNat_lt esc; have := Bool.toNat_lt sx; have := off.isLt
  simp only [m64]
  omega
theorem m64_fits (h0 : op < 512) (hd : rd < 256) : (m64 op h rd ra wd sc esc sx off).fits := by
  have e := (m64_hi (op := op) (h := h) (rd := rd) (ra := ra) (wd := wd) (sc := sc) (esc := esc) (sx := sx) (off := off)).2.2.2.2.2.2.2.2
  obtain ⟨a, b, c⟩ := h
  have : c.toNat < 2 := by cases c <;> decide
  refine ⟨h0, ?_, ?_, ?_, ?_, hd, e⟩ <;> simp only [m64] <;> omega
theorem m64_base : (m64 op h rd ra wd sc esc sx off).memBase = .ok ra := by
  have e := m64_hi (op := op) (h := h) (rd := rd) (ra := ra) (wd := wd) (sc := sc) (esc := esc) (sx := sx) (off := off)
  rw [Raw.memBase, Raw.ra, e.1, show (2 : Nat) ^ 17 = 131072 from rfl, e.2.2.2.2.2.2.1, baseOf_code]
theorem m64_wd : (m64 op h rd ra wd sc esc sx off).memF 36 3 Width.ofCode = .ok wd := by
  have e := m64_hi (op := op) (h := h) (rd := rd) (ra := ra) (wd := wd) (sc := sc) (esc := esc) (sx := sx) (off := off)
  rw [Raw.memF, show (2 : Nat) ^ (36 - 28) = 256 from rfl, show (2 : Nat) ^ 3 = 8 from rfl, e.2.1, Width.ofCode_code]
theorem m64_sc : (m64 op h rd ra wd sc esc sx off).memF 39 3 Scope.ofCode = .ok sc := by
  have e := m64_hi (op := op) (h := h) (rd := rd) (ra := ra) (wd := wd) (sc := sc) (esc := esc) (sx := sx) (off := off)
  rw [Raw.memF, show (2 : Nat) ^ (39 - 28) = 2048 from rfl, show (2 : Nat) ^ 3 = 8 from rfl, e.2.2.1, Scope.ofCode_code]
theorem m64_esc : (m64 op h rd ra wd sc esc sx off).memF 42 1 boolOf = .ok esc := by
  have e := m64_hi (op := op) (h := h) (rd := rd) (ra := ra) (wd := wd) (sc := sc) (esc := esc) (sx := sx) (off := off)
  rw [Raw.memF, show (2 : Nat) ^ (42 - 28) = 16384 from rfl, show (2 : Nat) ^ 1 = 2 from rfl, e.2.2.2.1, boolOf_toNat]
theorem m64_sx : (m64 op h rd ra wd sc esc sx off).memF 43 1 boolOf = .ok sx := by
  have e := m64_hi (op := op) (h := h) (rd := rd) (ra := ra) (wd := wd) (sc := sc) (esc := esc) (sx := sx) (off := off)
  rw [Raw.memF, show (2 : Nat) ^ (43 - 28) = 32768 from rfl, show (2 : Nat) ^ 1 = 2 from rfl, e.2.2.2.2.1, boolOf_toNat]
theorem m64_43 : (m64 op h rd ra wd sc esc false off).mem43 = .ok () := by
  have e := m64_hi (op := op) (h := h) (rd := rd) (ra := ra) (wd := wd) (sc := sc) (esc := esc) (sx := false) (off := off)
  rw [Raw.mem43, show (2 : Nat) ^ 15 = 32768 from rfl, if_pos (by simpa using e.2.2.2.2.1)]
theorem m64_44 : (m64 op h rd ra wd sc esc sx off).mem44 = .ok () := by
  have e := m64_hi (op := op) (h := h) (rd := rd) (ra := ra) (wd := wd) (sc := sc) (esc := esc) (sx := sx) (off := off)
  rw [Raw.mem44, show (2 : Nat) ^ 16 = 65536 from rfl, if_pos e.2.2.2.2.2.1]
theorem m64_off : (m64 op h rd ra wd sc esc sx off).memOff = off.toNat := by
  have e := m64_hi (op := op) (h := h) (rd := rd) (ra := ra) (wd := wd) (sc := sc) (esc := esc) (sx := sx) (off := off)
  rw [Raw.memOff, show (2 : Nat) ^ 18 = 262144 from rfl, e.2.2.2.2.2.2.2.1]
end

/-! ### Short and compact forms -/

theorem CSrc.code_lt (a : CSrc) : a.code < 32 := by cases a <;> simp only [CSrc.code] <;> omega
theorem CSrc.ofCode_code (a : CSrc) : CSrc.ofCode a.code = a := by
  rcases a with n | n
  · simp [CSrc.ofCode, CSrc.code, Fin.ofNat, Nat.mod_eq_of_lt n.isLt]
  · have h1 : ¬(24 + n.val < 24) := by omega
    simp [CSrc.ofCode, CSrc.code, Fin.ofNat, Nat.mod_eq_of_lt n.isLt, h1]
theorem SSrc.code_lt (a : SSrc) : a.code < 64 := by cases a <;> simp only [SSrc.code] <;> omega
theorem SSrc.ofCode_code (a : SSrc) : SSrc.ofCode a.code = a := by
  rcases a with n | n
  · simp [SSrc.ofCode, SSrc.code, Fin.ofNat, Nat.mod_eq_of_lt n.isLt]
  · have h1 : ¬(56 + n.val < 56) := by omega
    simp [SSrc.ofCode, SSrc.code, Fin.ofNat, Nat.mod_eq_of_lt n.isLt, h1]
/-- A compact form's fields (R22). -/
theorem c16_fields {op d b : Nat} (h0 : op < 16) (h1 : d < 64) (h2 : b < 32) :
    c16 op d b < 65536 ∧ c16 op d b % 2 = 0 ∧ c16 op d b / 2 % 16 = op ∧ c16 op d b / 32 % 64 = d ∧ c16 op d b / 2048 = b := by
  simp only [c16]; omega
/-- A short form's fields (R23). -/
theorem s32_fields {op : Nat} {st : Fin 4} {m : Bool} {rd : LDst} {ra : LSrc} {rb : Nat} (h0 : op < 32) (h1 : rb < 64) :
    s32 op st m rd ra rb < 4294967296 ∧ s32 op st m rd ra rb % 4 = 1 ∧ s32 op st m rd ra rb / 4 % 32 = op ∧
    s32 op st m rd ra rb / 128 % 2 = m.toNat ∧ s32 op st m rd ra rb / 256 % 4 = st.val ∧
    s32 op st m rd ra rb / 1024 % 256 = rd.code ∧ s32 op st m rd ra rb / 262144 % 256 = ra.code ∧
    s32 op st m rd ra rb / 67108864 = rb := by
  have := rd.code_lt; have := ra.code_lt; have := Bool.toNat_lt m; have := st.isLt
  simp only [s32]; omega

end Sys2Proof
end

