-- ==== Sys2Proof/Laws/Tab.lean ====
section
/-! SUPPORT. The laws of finite maps and memories: a read after a write, that a write leaves every other place alone, and that
every operation keeps the canonical form. -/

namespace Sys2Proof.Machine

variable {α : Type}

/-! ### Reading after writing -/

@[simp] theorem Tab.find_nil (a : Nat) : Tab.find ([] : Tab α) a = none := rfl

theorem Tab.find_after_le (t : Tab α) {a k : Nat} (h : k ≤ a) : (Tab.after t a).find k = none := by
  induction t with
  | nil => rfl
  | cons e t ih =>
    obtain ⟨b, v⟩ := e
    by_cases hb : a < b
    · have h1 : ¬ b = k := by omega
      have h2 : k < b := by omega
      simp [Tab.after, Tab.find, hb, h1, h2]
    · simpa [Tab.after, hb] using ih

theorem Tab.find_after_gt (t : Tab α) {a k : Nat} (h : a < k) : (Tab.after t a).find k = t.find k := by
  induction t with
  | nil => rfl
  | cons e t ih =>
    obtain ⟨b, v⟩ := e
    by_cases hb : a < b
    · simp [Tab.after, hb]
    · have h1 : ¬ b = k := by omega
      have h2 : ¬ k < b := by omega
      simp [Tab.after, Tab.find, hb, h1, h2, ih]

/-- What a map holds after an entry is put: the entry at its key, and everything else as before. -/
theorem Tab.find_put (t : Tab α) (a k : Nat) (v : Option α) : (t.put a v).find k = if k = a then v else t.find k := by
  induction t with
  | nil =>
    cases v with
    | none => simp [Tab.put]
    | some x =>
      by_cases h : k = a
      · simp [Tab.put, Tab.find, h]
      · have h1 : ¬ a = k := fun e => h e.symm
        simp [Tab.put, Tab.find, h, h1]
  | cons e t ih =>
    obtain ⟨b, w⟩ := e
    by_cases hb : b < a
    · by_cases hk : b = k
      · subst hk
        have h1 : ¬ b = a := by omega
        simp [Tab.put, Tab.find, hb, h1]
      · by_cases hkb : k < b
        · have h1 : ¬ k = a := by omega
          simp [Tab.put, Tab.find, hb, hk, hkb, h1]
        · simp [Tab.put, Tab.find, hb, hk, hkb, ih]
    · clear ih
      have key : (Tab.after ((b, w) :: t) a).find k = if k ≤ a then none else Tab.find ((b, w) :: t) k := by
        by_cases h : k ≤ a
        · simp [h, Tab.find_after_le _ h]
        · simp [h, Tab.find_after_gt _ (Nat.lt_of_not_le h)]
      have hput : Tab.put ((b, w) :: t) a v =
          match v with
          | some x => (a, x) :: Tab.after ((b, w) :: t) a
          | none => Tab.after ((b, w) :: t) a := by
        cases v <;> simp [Tab.put, hb]
      rw [hput]
      by_cases hka : k = a
      · subst hka
        cases v with
        | none => simp [key]
        | some x => simp [Tab.find]
      · by_cases hle : k ≤ a
        · have hlt : k < a := by omega
          have h0 : Tab.find ((b, w) :: t) k = none := by
            have h1 : ¬ b = k := by omega
            have h2 : k < b := by omega
            simp [Tab.find, h1, h2]
          cases v with
          | none => simp [key, hka, hle, h0]
          | some x =>
            have h1 : ¬ a = k := fun e => hka e.symm
            simp [Tab.find, h1, hlt, hka] at h0 ⊢
            exact h0.symm
        · have h1 : ¬ a = k := fun e => hka e.symm
          have h2 : ¬ k < a := by omega
          cases v with
          | none => simp [key, hka, hle]
          | some x =>
            have : Tab.find ((a, x) :: Tab.after ((b, w) :: t) a) k = (Tab.after ((b, w) :: t) a).find k := by
              simp [Tab.find, h1, h2]
            simp [this, key, hka, hle]

@[simp] theorem Tab.find_ins_same (t : Tab α) (a : Nat) (v : α) : (t.ins a v).find a = some v := by
  simp [Tab.ins, Tab.find_put]
theorem Tab.find_ins_ne (t : Tab α) {a k : Nat} (v : α) (h : k ≠ a) : (t.ins a v).find k = t.find k := by
  simp [Tab.ins, Tab.find_put, h]
@[simp] theorem Tab.find_del_same (t : Tab α) (a : Nat) : (t.del a).find a = none := by simp [Tab.del, Tab.find_put]
theorem Tab.find_del_ne (t : Tab α) {a k : Nat} (h : k ≠ a) : (t.del a).find k = t.find k := by
  simp [Tab.del, Tab.find_put, h]

/-- A changed entry: the function's value where there was one, and every other entry as before. -/
theorem Tab.find_upd (t : Tab α) (a k : Nat) (f : α → α) :
    (t.upd a f).find k = if k = a then (t.find a).map f else t.find k := by
  unfold Tab.upd
  cases h : t.find a with
  | none => by_cases hk : k = a <;> simp [hk, h]
  | some v => by_cases hk : k = a <;> simp [Tab.find_put, hk]
@[simp] theorem Tab.find_upd_same (t : Tab α) (a : Nat) (f : α → α) : (t.upd a f).find a = (t.find a).map f := by
  simp [Tab.find_upd]
theorem Tab.find_upd_ne (t : Tab α) {a k : Nat} (f : α → α) (h : k ≠ a) : (t.upd a f).find k = t.find k := by
  simp [Tab.find_upd, h]
/-- A change of an entry depends on the function's value at that entry only. -/
theorem Tab.upd_congr {t : Tab α} {a : Nat} {v : α} {f g : α → α} (h : t.find a = some v) (e : f v = g v) :
    t.upd a f = t.upd a g := by simp [Tab.upd, h, e]

/-- A map with a default reads a value set, and everything else as before. -/
theorem Tab.get_set [DecidableEq α] (d : α) (t : Tab α) (a k : Nat) (v : α) :
    Tab.get d (Tab.set d t a v) k = if k = a then v else Tab.get d t k := by
  unfold Tab.get Tab.set
  rw [Tab.find_put]
  by_cases hk : k = a
  · by_cases hv : v = d <;> simp [hk, hv]
  · simp [hk]
@[simp] theorem Tab.get_set_same [DecidableEq α] (d : α) (t : Tab α) (a : Nat) (v : α) :
    Tab.get d (Tab.set d t a v) a = v := by simp [Tab.get_set]
theorem Tab.get_set_ne [DecidableEq α] (d : α) (t : Tab α) {a k : Nat} (v : α) (h : k ≠ a) :
    Tab.get d (Tab.set d t a v) k = Tab.get d t k := by simp [Tab.get_set, h]

/-- A map changed value by value. -/
theorem Tab.find_mapv (t : Tab α) (f : Nat → α → α) (k : Nat) : (t.mapv f).find k = (t.find k).map (f k) := by
  induction t with
  | nil => rfl
  | cons e t ih =>
    obtain ⟨b, w⟩ := e
    by_cases hb : b = k
    · subst hb; simp [Tab.mapv, Tab.find]
    · by_cases hk : k < b
      · simp [Tab.mapv, Tab.find, hb, hk]
      · simpa [Tab.mapv, Tab.find, hb, hk] using ih

/-! ### The canonical form -/

theorem Tab.rising_mono {t : Tab α} {b c : Nat} (h : c ≤ b) (hr : Tab.rising b t = true) : Tab.rising c t = true := by
  cases t with
  | nil => rfl
  | cons e t =>
    obtain ⟨k, v⟩ := e
    simp only [Tab.rising, Bool.and_eq_true, decide_eq_true_eq] at hr ⊢
    exact ⟨by omega, hr.2⟩

theorem Tab.rising_after {t : Tab α} {b a : Nat} (hr : Tab.rising b t = true) : Tab.rising (a + 1) (Tab.after t a) = true := by
  induction t generalizing b with
  | nil => rfl
  | cons e t ih =>
    obtain ⟨k, v⟩ := e
    simp only [Tab.rising, Bool.and_eq_true, decide_eq_true_eq] at hr
    by_cases ha : a < k
    · simp only [Tab.after, ha, if_true, Tab.rising, Bool.and_eq_true, decide_eq_true_eq]
      exact ⟨by omega, hr.2⟩
    · simpa [Tab.after, ha] using ih hr.2

theorem Tab.rising_put {t : Tab α} {b a : Nat} (v : Option α) (hb : b ≤ a) (hr : Tab.rising b t = true) :
    Tab.rising b (t.put a v) = true := by
  induction t generalizing b with
  | nil => cases v <;> simp [Tab.put, Tab.rising, hb]
  | cons e t ih =>
    obtain ⟨k, w⟩ := e
    have hr' := hr
    simp only [Tab.rising, Bool.and_eq_true, decide_eq_true_eq] at hr
    by_cases hk : k < a
    · simp only [Tab.put, hk, if_true, Tab.rising, Bool.and_eq_true, decide_eq_true_eq]
      exact ⟨hr.1, ih (by omega) hr.2⟩
    · have h1 := Tab.rising_after (a := a) hr'
      cases v with
      | none => simpa [Tab.put, hk] using Tab.rising_mono (by omega) h1
      | some x =>
        simp only [Tab.put, hk, if_false, Tab.rising, Bool.and_eq_true, decide_eq_true_eq]
        exact ⟨hb, h1⟩

theorem Tab.mem_after {t : Tab α} {a : Nat} {e : Nat × α} (h : e ∈ Tab.after t a) : e ∈ t := by
  induction t with
  | nil => exact h
  | cons x t ih =>
    obtain ⟨k, v⟩ := x
    by_cases ha : a < k
    · simpa [Tab.after, ha] using h
    · exact List.mem_cons_of_mem _ (ih (by simpa [Tab.after, ha] using h))

theorem Tab.mem_put {t : Tab α} {a : Nat} {v : Option α} {e : Nat × α} (h : e ∈ t.put a v) : e ∈ t ∨ v = some e.2 := by
  induction t with
  | nil =>
    cases v with
    | none => simp [Tab.put] at h
    | some x => simp [Tab.put] at h; simp [h]
  | cons x t ih =>
    obtain ⟨k, w⟩ := x
    by_cases hk : k < a
    · simp only [Tab.put, hk, if_true, List.mem_cons] at h
      rcases h with h | h
      · exact .inl (by simp [h])
      · rcases ih h with h | h
        · exact .inl (List.mem_cons_of_mem _ h)
        · exact .inr h
    · cases v with
      | none => exact .inl (Tab.mem_after (by simpa [Tab.put, hk] using h))
      | some y =>
        simp only [Tab.put, hk, if_false, List.mem_cons] at h
        rcases h with h | h
        · exact .inr (by simp [h])
        · exact .inl (Tab.mem_after h)

/-- Setting a value keeps the canonical form. -/
theorem Tab.wf_set [DecidableEq α] {d : α} {t : Tab α} (h : Tab.wf d t = true) (a : Nat) (v : α) :
    Tab.wf d (Tab.set d t a v) = true := by
  unfold Tab.wf at h ⊢
  rw [Bool.and_eq_true] at h ⊢
  refine ⟨Tab.rising_put _ (Nat.zero_le _) h.1, ?_⟩
  rw [List.all_eq_true] at h ⊢
  intro e he
  rcases Tab.mem_put he with he | he
  · exact h.2 e he
  · by_cases hv : v = d
    · simp [hv] at he
    · simp only [hv, if_false, Option.some.injEq] at he
      simp [← he, hv]

/-- The map that lists nothing is in canonical form. -/
theorem Tab.wf_nil [DecidableEq α] (d : α) : Tab.wf d ([] : Tab α) = true := rfl

/-! ### Memories -/

/-- A byte written is read back, and every other byte is as before. -/
theorem Memory.byte_store (m : Memory) (a k : Nat) (b : Byte) : (m.store a b).byte k = if k = a then b else m.byte k :=
  Tab.get_set (α := Byte) _ m a k b
@[simp] theorem Memory.byte_store_same (m : Memory) (a : Nat) (b : Byte) : (m.store a b).byte a = b := by
  simp [Memory.byte_store]
theorem Memory.byte_store_ne (m : Memory) {a k : Nat} (b : Byte) (h : k ≠ a) : (m.store a b).byte k = m.byte k := by
  simp [Memory.byte_store, h]

/-- Every store keeps a memory's canonical form. -/
theorem Memory.wf_store {m : Memory} (h : m.wf = true) (a : Nat) (b : Byte) : (m.store a b).wf = true :=
  Tab.wf_set (α := Byte) h a b
theorem Memory.wf_storeBytes {m : Memory} (h : m.wf = true) (a : Nat) (bs : List Byte) : (m.storeBytes a bs).wf = true := by
  induction bs generalizing m a with
  | nil => exact h
  | cons b bs ih => exact ih (Memory.wf_store h a b) (a + 1)

/-- What bytes stored from an address on change: those bytes and nothing else. -/
theorem Memory.byte_storeBytes (m : Memory) (a k : Nat) (bs : List Byte) :
    (m.storeBytes a bs).byte k = if a ≤ k ∧ k < a + bs.length then bs.getD (k - a) 0 else m.byte k := by
  induction bs generalizing m a with
  | nil => have : ¬ (a ≤ k ∧ k < a) := by omega
           simp [Memory.storeBytes, this]
  | cons b bs ih =>
    simp only [Memory.storeBytes, ih, List.length_cons, Memory.byte_store]
    by_cases h1 : k = a
    · subst h1
      have h2 : ¬ (k + 1 ≤ k) := by omega
      simp [h2]
    · by_cases h2 : a + 1 ≤ k ∧ k < a + 1 + bs.length
      · have h3 : a ≤ k ∧ k < a + (bs.length + 1) := by omega
        have h4 : k - a = (k - (a + 1)) + 1 := by omega
        simp [h2, h3, h4]
      · have h3 : ¬ (a ≤ k ∧ k < a + (bs.length + 1)) := by omega
        rw [if_neg h1, if_neg h2, if_neg h3]

end Sys2Proof.Machine
end

