-- ==== Sys2Proof/Laws/State.lean ====
section
/-! SUPPORT. What each update of the state leaves alone: one lemma per field and update, and the readers of what it changes. -/

namespace Sys2Proof.Machine

/-! setCtx -/
@[simp] theorem State.setCtx_clock (s : State) (c : Nat) (r : CtxRec) :
    (s.setCtx c r).clock = s.clock := rfl
@[simp] theorem State.setCtx_agenda (s : State) (c : Nat) (r : CtxRec) :
    (s.setCtx c r).agenda = s.agenda := rfl
@[simp] theorem State.setCtx_issuing (s : State) (c : Nat) (r : CtxRec) :
    (s.setCtx c r).issuing = s.issuing := rfl
@[simp] theorem State.setCtx_nextId (s : State) (c : Nat) (r : CtxRec) :
    (s.setCtx c r).nextId = s.nextId := rfl
@[simp] theorem State.setCtx_freeCtr (s : State) (c : Nat) (r : CtxRec) :
    (s.setCtx c r).freeCtr = s.freeCtr := rfl
@[simp] theorem State.setCtx_spent (s : State) (c : Nat) (r : CtxRec) :
    (s.setCtx c r).spent = s.spent := rfl
@[simp] theorem State.setCtx_pkg (s : State) (c : Nat) (r : CtxRec) :
    (s.setCtx c r).pkg = s.pkg := rfl
@[simp] theorem State.setCtx_thermal (s : State) (c : Nat) (r : CtxRec) :
    (s.setCtx c r).thermal = s.thermal := rfl
@[simp] theorem State.setCtx_ctxs (s : State) (c : Nat) (r : CtxRec) :
    (s.setCtx c r).ctxs = Tab.set CtxRec.reset s.ctxs c r := rfl
@[simp] theorem State.setCtx_queues (s : State) (c : Nat) (r : CtxRec) :
    (s.setCtx c r).queues = s.queues := rfl
@[simp] theorem State.setCtx_dies (s : State) (c : Nat) (r : CtxRec) :
    (s.setCtx c r).dies = s.dies := rfl
@[simp] theorem State.setCtx_grids (s : State) (c : Nat) (r : CtxRec) :
    (s.setCtx c r).grids = s.grids := rfl
@[simp] theorem State.setCtx_decs (s : State) (c : Nat) (r : CtxRec) :
    (s.setCtx c r).decs = s.decs := rfl
@[simp] theorem State.setCtx_launchQ (s : State) (c : Nat) (r : CtxRec) :
    (s.setCtx c r).launchQ = s.launchQ := rfl
@[simp] theorem State.setCtx_teams (s : State) (c : Nat) (r : CtxRec) :
    (s.setCtx c r).teams = s.teams := rfl
@[simp] theorem State.setCtx_cores (s : State) (c : Nat) (r : CtxRec) :
    (s.setCtx c r).cores = s.cores := rfl
@[simp] theorem State.setCtx_dirs (s : State) (c : Nat) (r : CtxRec) :
    (s.setCtx c r).dirs = s.dirs := rfl
@[simp] theorem State.setCtx_copies (s : State) (c : Nat) (r : CtxRec) :
    (s.setCtx c r).copies = s.copies := rfl
@[simp] theorem State.setCtx_net (s : State) (c : Nat) (r : CtxRec) :
    (s.setCtx c r).net = s.net := rfl
@[simp] theorem State.setCtx_outw (s : State) (c : Nat) (r : CtxRec) :
    (s.setCtx c r).outw = s.outw := rfl
@[simp] theorem State.setCtx_serials (s : State) (c : Nat) (r : CtxRec) :
    (s.setCtx c r).serials = s.serials := rfl
@[simp] theorem State.setCtx_walks (s : State) (c : Nat) (r : CtxRec) :
    (s.setCtx c r).walks = s.walks := rfl
@[simp] theorem State.setCtx_holds (s : State) (c : Nat) (r : CtxRec) :
    (s.setCtx c r).holds = s.holds := rfl
@[simp] theorem State.setCtx_faults (s : State) (c : Nat) (r : CtxRec) :
    (s.setCtx c r).faults = s.faults := rfl
@[simp] theorem State.setCtx_dram (s : State) (c : Nat) (r : CtxRec) :
    (s.setCtx c r).dram = s.dram := rfl
@[simp] theorem State.setCtx_dramPoison (s : State) (c : Nat) (r : CtxRec) :
    (s.setCtx c r).dramPoison = s.dramPoison := rfl
@[simp] theorem State.setCtx_host (s : State) (c : Nat) (r : CtxRec) :
    (s.setCtx c r).host = s.host := rfl
@[simp] theorem State.setCtx_hostPoison (s : State) (c : Nat) (r : CtxRec) :
    (s.setCtx c r).hostPoison = s.hostPoison := rfl
@[simp] theorem State.setCtx_stackTab (s : State) (c : Nat) (r : CtxRec) :
    (s.setCtx c r).stackTab = s.stackTab := rfl
@[simp] theorem State.setCtx_links (s : State) (c : Nat) (r : CtxRec) :
    (s.setCtx c r).links = s.links := rfl
@[simp] theorem State.setCtx_arrivals (s : State) (c : Nat) (r : CtxRec) :
    (s.setCtx c r).arrivals = s.arrivals := rfl
@[simp] theorem State.setCtx_hostQ (s : State) (c : Nat) (r : CtxRec) :
    (s.setCtx c r).hostQ = s.hostQ := rfl
@[simp] theorem State.setCtx_recvs (s : State) (c : Nat) (r : CtxRec) :
    (s.setCtx c r).recvs = s.recvs := rfl
@[simp] theorem State.setCtx_forwards (s : State) (c : Nat) (r : CtxRec) :
    (s.setCtx c r).forwards = s.forwards := rfl
@[simp] theorem State.setCtx_out (s : State) (c : Nat) (r : CtxRec) :
    (s.setCtx c r).out = s.out := rfl

/-! updCtx -/
@[simp] theorem State.updCtx_clock (s : State) (c : Nat) (f : CtxRec → CtxRec) :
    (s.updCtx c f).clock = s.clock := rfl
@[simp] theorem State.updCtx_agenda (s : State) (c : Nat) (f : CtxRec → CtxRec) :
    (s.updCtx c f).agenda = s.agenda := rfl
@[simp] theorem State.updCtx_issuing (s : State) (c : Nat) (f : CtxRec → CtxRec) :
    (s.updCtx c f).issuing = s.issuing := rfl
@[simp] theorem State.updCtx_nextId (s : State) (c : Nat) (f : CtxRec → CtxRec) :
    (s.updCtx c f).nextId = s.nextId := rfl
@[simp] theorem State.updCtx_freeCtr (s : State) (c : Nat) (f : CtxRec → CtxRec) :
    (s.updCtx c f).freeCtr = s.freeCtr := rfl
@[simp] theorem State.updCtx_spent (s : State) (c : Nat) (f : CtxRec → CtxRec) :
    (s.updCtx c f).spent = s.spent := rfl
@[simp] theorem State.updCtx_pkg (s : State) (c : Nat) (f : CtxRec → CtxRec) :
    (s.updCtx c f).pkg = s.pkg := rfl
@[simp] theorem State.updCtx_thermal (s : State) (c : Nat) (f : CtxRec → CtxRec) :
    (s.updCtx c f).thermal = s.thermal := rfl
@[simp] theorem State.updCtx_ctxs (s : State) (c : Nat) (f : CtxRec → CtxRec) :
    (s.updCtx c f).ctxs = Tab.set CtxRec.reset s.ctxs c (f (s.ctx c)) := rfl
@[simp] theorem State.updCtx_queues (s : State) (c : Nat) (f : CtxRec → CtxRec) :
    (s.updCtx c f).queues = s.queues := rfl
@[simp] theorem State.updCtx_dies (s : State) (c : Nat) (f : CtxRec → CtxRec) :
    (s.updCtx c f).dies = s.dies := rfl
@[simp] theorem State.updCtx_grids (s : State) (c : Nat) (f : CtxRec → CtxRec) :
    (s.updCtx c f).grids = s.grids := rfl
@[simp] theorem State.updCtx_decs (s : State) (c : Nat) (f : CtxRec → CtxRec) :
    (s.updCtx c f).decs = s.decs := rfl
@[simp] theorem State.updCtx_launchQ (s : State) (c : Nat) (f : CtxRec → CtxRec) :
    (s.updCtx c f).launchQ = s.launchQ := rfl
@[simp] theorem State.updCtx_teams (s : State) (c : Nat) (f : CtxRec → CtxRec) :
    (s.updCtx c f).teams = s.teams := rfl
@[simp] theorem State.updCtx_cores (s : State) (c : Nat) (f : CtxRec → CtxRec) :
    (s.updCtx c f).cores = s.cores := rfl
@[simp] theorem State.updCtx_dirs (s : State) (c : Nat) (f : CtxRec → CtxRec) :
    (s.updCtx c f).dirs = s.dirs := rfl
@[simp] theorem State.updCtx_copies (s : State) (c : Nat) (f : CtxRec → CtxRec) :
    (s.updCtx c f).copies = s.copies := rfl
@[simp] theorem State.updCtx_net (s : State) (c : Nat) (f : CtxRec → CtxRec) :
    (s.updCtx c f).net = s.net := rfl
@[simp] theorem State.updCtx_outw (s : State) (c : Nat) (f : CtxRec → CtxRec) :
    (s.updCtx c f).outw = s.outw := rfl
@[simp] theorem State.updCtx_serials (s : State) (c : Nat) (f : CtxRec → CtxRec) :
    (s.updCtx c f).serials = s.serials := rfl
@[simp] theorem State.updCtx_walks (s : State) (c : Nat) (f : CtxRec → CtxRec) :
    (s.updCtx c f).walks = s.walks := rfl
@[simp] theorem State.updCtx_holds (s : State) (c : Nat) (f : CtxRec → CtxRec) :
    (s.updCtx c f).holds = s.holds := rfl
@[simp] theorem State.updCtx_faults (s : State) (c : Nat) (f : CtxRec → CtxRec) :
    (s.updCtx c f).faults = s.faults := rfl
@[simp] theorem State.updCtx_dram (s : State) (c : Nat) (f : CtxRec → CtxRec) :
    (s.updCtx c f).dram = s.dram := rfl
@[simp] theorem State.updCtx_dramPoison (s : State) (c : Nat) (f : CtxRec → CtxRec) :
    (s.updCtx c f).dramPoison = s.dramPoison := rfl
@[simp] theorem State.updCtx_host (s : State) (c : Nat) (f : CtxRec → CtxRec) :
    (s.updCtx c f).host = s.host := rfl
@[simp] theorem State.updCtx_hostPoison (s : State) (c : Nat) (f : CtxRec → CtxRec) :
    (s.updCtx c f).hostPoison = s.hostPoison := rfl
@[simp] theorem State.updCtx_stackTab (s : State) (c : Nat) (f : CtxRec → CtxRec) :
    (s.updCtx c f).stackTab = s.stackTab := rfl
@[simp] theorem State.updCtx_links (s : State) (c : Nat) (f : CtxRec → CtxRec) :
    (s.updCtx c f).links = s.links := rfl
@[simp] theorem State.updCtx_arrivals (s : State) (c : Nat) (f : CtxRec → CtxRec) :
    (s.updCtx c f).arrivals = s.arrivals := rfl
@[simp] theorem State.updCtx_hostQ (s : State) (c : Nat) (f : CtxRec → CtxRec) :
    (s.updCtx c f).hostQ = s.hostQ := rfl
@[simp] theorem State.updCtx_recvs (s : State) (c : Nat) (f : CtxRec → CtxRec) :
    (s.updCtx c f).recvs = s.recvs := rfl
@[simp] theorem State.updCtx_forwards (s : State) (c : Nat) (f : CtxRec → CtxRec) :
    (s.updCtx c f).forwards = s.forwards := rfl
@[simp] theorem State.updCtx_out (s : State) (c : Nat) (f : CtxRec → CtxRec) :
    (s.updCtx c f).out = s.out := rfl

/-! setDie -/
@[simp] theorem State.setDie_clock (s : State) (d : Nat) (r : DieRec) :
    (s.setDie d r).clock = s.clock := rfl
@[simp] theorem State.setDie_agenda (s : State) (d : Nat) (r : DieRec) :
    (s.setDie d r).agenda = s.agenda := rfl
@[simp] theorem State.setDie_issuing (s : State) (d : Nat) (r : DieRec) :
    (s.setDie d r).issuing = s.issuing := rfl
@[simp] theorem State.setDie_nextId (s : State) (d : Nat) (r : DieRec) :
    (s.setDie d r).nextId = s.nextId := rfl
@[simp] theorem State.setDie_freeCtr (s : State) (d : Nat) (r : DieRec) :
    (s.setDie d r).freeCtr = s.freeCtr := rfl
@[simp] theorem State.setDie_spent (s : State) (d : Nat) (r : DieRec) :
    (s.setDie d r).spent = s.spent := rfl
@[simp] theorem State.setDie_pkg (s : State) (d : Nat) (r : DieRec) :
    (s.setDie d r).pkg = s.pkg := rfl
@[simp] theorem State.setDie_thermal (s : State) (d : Nat) (r : DieRec) :
    (s.setDie d r).thermal = s.thermal := rfl
@[simp] theorem State.setDie_ctxs (s : State) (d : Nat) (r : DieRec) :
    (s.setDie d r).ctxs = s.ctxs := rfl
@[simp] theorem State.setDie_queues (s : State) (d : Nat) (r : DieRec) :
    (s.setDie d r).queues = s.queues := rfl
@[simp] theorem State.setDie_dies (s : State) (d : Nat) (r : DieRec) :
    (s.setDie d r).dies = Tab.set DieRec.reset s.dies d r := rfl
@[simp] theorem State.setDie_grids (s : State) (d : Nat) (r : DieRec) :
    (s.setDie d r).grids = s.grids := rfl
@[simp] theorem State.setDie_decs (s : State) (d : Nat) (r : DieRec) :
    (s.setDie d r).decs = s.decs := rfl
@[simp] theorem State.setDie_launchQ (s : State) (d : Nat) (r : DieRec) :
    (s.setDie d r).launchQ = s.launchQ := rfl
@[simp] theorem State.setDie_teams (s : State) (d : Nat) (r : DieRec) :
    (s.setDie d r).teams = s.teams := rfl
@[simp] theorem State.setDie_cores (s : State) (d : Nat) (r : DieRec) :
    (s.setDie d r).cores = s.cores := rfl
@[simp] theorem State.setDie_dirs (s : State) (d : Nat) (r : DieRec) :
    (s.setDie d r).dirs = s.dirs := rfl
@[simp] theorem State.setDie_copies (s : State) (d : Nat) (r : DieRec) :
    (s.setDie d r).copies = s.copies := rfl
@[simp] theorem State.setDie_net (s : State) (d : Nat) (r : DieRec) :
    (s.setDie d r).net = s.net := rfl
@[simp] theorem State.setDie_outw (s : State) (d : Nat) (r : DieRec) :
    (s.setDie d r).outw = s.outw := rfl
@[simp] theorem State.setDie_serials (s : State) (d : Nat) (r : DieRec) :
    (s.setDie d r).serials = s.serials := rfl
@[simp] theorem State.setDie_walks (s : State) (d : Nat) (r : DieRec) :
    (s.setDie d r).walks = s.walks := rfl
@[simp] theorem State.setDie_holds (s : State) (d : Nat) (r : DieRec) :
    (s.setDie d r).holds = s.holds := rfl
@[simp] theorem State.setDie_faults (s : State) (d : Nat) (r : DieRec) :
    (s.setDie d r).faults = s.faults := rfl
@[simp] theorem State.setDie_dram (s : State) (d : Nat) (r : DieRec) :
    (s.setDie d r).dram = s.dram := rfl
@[simp] theorem State.setDie_dramPoison (s : State) (d : Nat) (r : DieRec) :
    (s.setDie d r).dramPoison = s.dramPoison := rfl
@[simp] theorem State.setDie_host (s : State) (d : Nat) (r : DieRec) :
    (s.setDie d r).host = s.host := rfl
@[simp] theorem State.setDie_hostPoison (s : State) (d : Nat) (r : DieRec) :
    (s.setDie d r).hostPoison = s.hostPoison := rfl
@[simp] theorem State.setDie_stackTab (s : State) (d : Nat) (r : DieRec) :
    (s.setDie d r).stackTab = s.stackTab := rfl
@[simp] theorem State.setDie_links (s : State) (d : Nat) (r : DieRec) :
    (s.setDie d r).links = s.links := rfl
@[simp] theorem State.setDie_arrivals (s : State) (d : Nat) (r : DieRec) :
    (s.setDie d r).arrivals = s.arrivals := rfl
@[simp] theorem State.setDie_hostQ (s : State) (d : Nat) (r : DieRec) :
    (s.setDie d r).hostQ = s.hostQ := rfl
@[simp] theorem State.setDie_recvs (s : State) (d : Nat) (r : DieRec) :
    (s.setDie d r).recvs = s.recvs := rfl
@[simp] theorem State.setDie_forwards (s : State) (d : Nat) (r : DieRec) :
    (s.setDie d r).forwards = s.forwards := rfl
@[simp] theorem State.setDie_out (s : State) (d : Nat) (r : DieRec) :
    (s.setDie d r).out = s.out := rfl

/-! updDie -/
@[simp] theorem State.updDie_clock (s : State) (d : Nat) (f : DieRec → DieRec) :
    (s.updDie d f).clock = s.clock := rfl
@[simp] theorem State.updDie_agenda (s : State) (d : Nat) (f : DieRec → DieRec) :
    (s.updDie d f).agenda = s.agenda := rfl
@[simp] theorem State.updDie_issuing (s : State) (d : Nat) (f : DieRec → DieRec) :
    (s.updDie d f).issuing = s.issuing := rfl
@[simp] theorem State.updDie_nextId (s : State) (d : Nat) (f : DieRec → DieRec) :
    (s.updDie d f).nextId = s.nextId := rfl
@[simp] theorem State.updDie_freeCtr (s : State) (d : Nat) (f : DieRec → DieRec) :
    (s.updDie d f).freeCtr = s.freeCtr := rfl
@[simp] theorem State.updDie_spent (s : State) (d : Nat) (f : DieRec → DieRec) :
    (s.updDie d f).spent = s.spent := rfl
@[simp] theorem State.updDie_pkg (s : State) (d : Nat) (f : DieRec → DieRec) :
    (s.updDie d f).pkg = s.pkg := rfl
@[simp] theorem State.updDie_thermal (s : State) (d : Nat) (f : DieRec → DieRec) :
    (s.updDie d f).thermal = s.thermal := rfl
@[simp] theorem State.updDie_ctxs (s : State) (d : Nat) (f : DieRec → DieRec) :
    (s.updDie d f).ctxs = s.ctxs := rfl
@[simp] theorem State.updDie_queues (s : State) (d : Nat) (f : DieRec → DieRec) :
    (s.updDie d f).queues = s.queues := rfl
@[simp] theorem State.updDie_dies (s : State) (d : Nat) (f : DieRec → DieRec) :
    (s.updDie d f).dies = Tab.set DieRec.reset s.dies d (f (s.die d)) := rfl
@[simp] theorem State.updDie_grids (s : State) (d : Nat) (f : DieRec → DieRec) :
    (s.updDie d f).grids = s.grids := rfl
@[simp] theorem State.updDie_decs (s : State) (d : Nat) (f : DieRec → DieRec) :
    (s.updDie d f).decs = s.decs := rfl
@[simp] theorem State.updDie_launchQ (s : State) (d : Nat) (f : DieRec → DieRec) :
    (s.updDie d f).launchQ = s.launchQ := rfl
@[simp] theorem State.updDie_teams (s : State) (d : Nat) (f : DieRec → DieRec) :
    (s.updDie d f).teams = s.teams := rfl
@[simp] theorem State.updDie_cores (s : State) (d : Nat) (f : DieRec → DieRec) :
    (s.updDie d f).cores = s.cores := rfl
@[simp] theorem State.updDie_dirs (s : State) (d : Nat) (f : DieRec → DieRec) :
    (s.updDie d f).dirs = s.dirs := rfl
@[simp] theorem State.updDie_copies (s : State) (d : Nat) (f : DieRec → DieRec) :
    (s.updDie d f).copies = s.copies := rfl
@[simp] theorem State.updDie_net (s : State) (d : Nat) (f : DieRec → DieRec) :
    (s.updDie d f).net = s.net := rfl
@[simp] theorem State.updDie_outw (s : State) (d : Nat) (f : DieRec → DieRec) :
    (s.updDie d f).outw = s.outw := rfl
@[simp] theorem State.updDie_serials (s : State) (d : Nat) (f : DieRec → DieRec) :
    (s.updDie d f).serials = s.serials := rfl
@[simp] theorem State.updDie_walks (s : State) (d : Nat) (f : DieRec → DieRec) :
    (s.updDie d f).walks = s.walks := rfl
@[simp] theorem State.updDie_holds (s : State) (d : Nat) (f : DieRec → DieRec) :
    (s.updDie d f).holds = s.holds := rfl
@[simp] theorem State.updDie_faults (s : State) (d : Nat) (f : DieRec → DieRec) :
    (s.updDie d f).faults = s.faults := rfl
@[simp] theorem State.updDie_dram (s : State) (d : Nat) (f : DieRec → DieRec) :
    (s.updDie d f).dram = s.dram := rfl
@[simp] theorem State.updDie_dramPoison (s : State) (d : Nat) (f : DieRec → DieRec) :
    (s.updDie d f).dramPoison = s.dramPoison := rfl
@[simp] theorem State.updDie_host (s : State) (d : Nat) (f : DieRec → DieRec) :
    (s.updDie d f).host = s.host := rfl
@[simp] theorem State.updDie_hostPoison (s : State) (d : Nat) (f : DieRec → DieRec) :
    (s.updDie d f).hostPoison = s.hostPoison := rfl
@[simp] theorem State.updDie_stackTab (s : State) (d : Nat) (f : DieRec → DieRec) :
    (s.updDie d f).stackTab = s.stackTab := rfl
@[simp] theorem State.updDie_links (s : State) (d : Nat) (f : DieRec → DieRec) :
    (s.updDie d f).links = s.links := rfl
@[simp] theorem State.updDie_arrivals (s : State) (d : Nat) (f : DieRec → DieRec) :
    (s.updDie d f).arrivals = s.arrivals := rfl
@[simp] theorem State.updDie_hostQ (s : State) (d : Nat) (f : DieRec → DieRec) :
    (s.updDie d f).hostQ = s.hostQ := rfl
@[simp] theorem State.updDie_recvs (s : State) (d : Nat) (f : DieRec → DieRec) :
    (s.updDie d f).recvs = s.recvs := rfl
@[simp] theorem State.updDie_forwards (s : State) (d : Nat) (f : DieRec → DieRec) :
    (s.updDie d f).forwards = s.forwards := rfl
@[simp] theorem State.updDie_out (s : State) (d : Nat) (f : DieRec → DieRec) :
    (s.updDie d f).out = s.out := rfl

/-! setCore -/
@[simp] theorem State.setCore_clock (s : State) (c : Nat) (r : CoreRec) :
    (s.setCore c r).clock = s.clock := rfl
@[simp] theorem State.setCore_agenda (s : State) (c : Nat) (r : CoreRec) :
    (s.setCore c r).agenda = s.agenda := rfl
@[simp] theorem State.setCore_issuing (s : State) (c : Nat) (r : CoreRec) :
    (s.setCore c r).issuing = s.issuing := rfl
@[simp] theorem State.setCore_nextId (s : State) (c : Nat) (r : CoreRec) :
    (s.setCore c r).nextId = s.nextId := rfl
@[simp] theorem State.setCore_freeCtr (s : State) (c : Nat) (r : CoreRec) :
    (s.setCore c r).freeCtr = s.freeCtr := rfl
@[simp] theorem State.setCore_spent (s : State) (c : Nat) (r : CoreRec) :
    (s.setCore c r).spent = s.spent := rfl
@[simp] theorem State.setCore_pkg (s : State) (c : Nat) (r : CoreRec) :
    (s.setCore c r).pkg = s.pkg := rfl
@[simp] theorem State.setCore_thermal (s : State) (c : Nat) (r : CoreRec) :
    (s.setCore c r).thermal = s.thermal := rfl
@[simp] theorem State.setCore_ctxs (s : State) (c : Nat) (r : CoreRec) :
    (s.setCore c r).ctxs = s.ctxs := rfl
@[simp] theorem State.setCore_queues (s : State) (c : Nat) (r : CoreRec) :
    (s.setCore c r).queues = s.queues := rfl
@[simp] theorem State.setCore_dies (s : State) (c : Nat) (r : CoreRec) :
    (s.setCore c r).dies = s.dies := rfl
@[simp] theorem State.setCore_grids (s : State) (c : Nat) (r : CoreRec) :
    (s.setCore c r).grids = s.grids := rfl
@[simp] theorem State.setCore_decs (s : State) (c : Nat) (r : CoreRec) :
    (s.setCore c r).decs = s.decs := rfl
@[simp] theorem State.setCore_launchQ (s : State) (c : Nat) (r : CoreRec) :
    (s.setCore c r).launchQ = s.launchQ := rfl
@[simp] theorem State.setCore_teams (s : State) (c : Nat) (r : CoreRec) :
    (s.setCore c r).teams = s.teams := rfl
@[simp] theorem State.setCore_cores (s : State) (c : Nat) (r : CoreRec) :
    (s.setCore c r).cores = Tab.set CoreRec.reset s.cores c r := rfl
@[simp] theorem State.setCore_dirs (s : State) (c : Nat) (r : CoreRec) :
    (s.setCore c r).dirs = s.dirs := rfl
@[simp] theorem State.setCore_copies (s : State) (c : Nat) (r : CoreRec) :
    (s.setCore c r).copies = s.copies := rfl
@[simp] theorem State.setCore_net (s : State) (c : Nat) (r : CoreRec) :
    (s.setCore c r).net = s.net := rfl
@[simp] theorem State.setCore_outw (s : State) (c : Nat) (r : CoreRec) :
    (s.setCore c r).outw = s.outw := rfl
@[simp] theorem State.setCore_serials (s : State) (c : Nat) (r : CoreRec) :
    (s.setCore c r).serials = s.serials := rfl
@[simp] theorem State.setCore_walks (s : State) (c : Nat) (r : CoreRec) :
    (s.setCore c r).walks = s.walks := rfl
@[simp] theorem State.setCore_holds (s : State) (c : Nat) (r : CoreRec) :
    (s.setCore c r).holds = s.holds := rfl
@[simp] theorem State.setCore_faults (s : State) (c : Nat) (r : CoreRec) :
    (s.setCore c r).faults = s.faults := rfl
@[simp] theorem State.setCore_dram (s : State) (c : Nat) (r : CoreRec) :
    (s.setCore c r).dram = s.dram := rfl
@[simp] theorem State.setCore_dramPoison (s : State) (c : Nat) (r : CoreRec) :
    (s.setCore c r).dramPoison = s.dramPoison := rfl
@[simp] theorem State.setCore_host (s : State) (c : Nat) (r : CoreRec) :
    (s.setCore c r).host = s.host := rfl
@[simp] theorem State.setCore_hostPoison (s : State) (c : Nat) (r : CoreRec) :
    (s.setCore c r).hostPoison = s.hostPoison := rfl
@[simp] theorem State.setCore_stackTab (s : State) (c : Nat) (r : CoreRec) :
    (s.setCore c r).stackTab = s.stackTab := rfl
@[simp] theorem State.setCore_links (s : State) (c : Nat) (r : CoreRec) :
    (s.setCore c r).links = s.links := rfl
@[simp] theorem State.setCore_arrivals (s : State) (c : Nat) (r : CoreRec) :
    (s.setCore c r).arrivals = s.arrivals := rfl
@[simp] theorem State.setCore_hostQ (s : State) (c : Nat) (r : CoreRec) :
    (s.setCore c r).hostQ = s.hostQ := rfl
@[simp] theorem State.setCore_recvs (s : State) (c : Nat) (r : CoreRec) :
    (s.setCore c r).recvs = s.recvs := rfl
@[simp] theorem State.setCore_forwards (s : State) (c : Nat) (r : CoreRec) :
    (s.setCore c r).forwards = s.forwards := rfl
@[simp] theorem State.setCore_out (s : State) (c : Nat) (r : CoreRec) :
    (s.setCore c r).out = s.out := rfl

/-! updCore -/
@[simp] theorem State.updCore_clock (s : State) (c : Nat) (f : CoreRec → CoreRec) :
    (s.updCore c f).clock = s.clock := rfl
@[simp] theorem State.updCore_agenda (s : State) (c : Nat) (f : CoreRec → CoreRec) :
    (s.updCore c f).agenda = s.agenda := rfl
@[simp] theorem State.updCore_issuing (s : State) (c : Nat) (f : CoreRec → CoreRec) :
    (s.updCore c f).issuing = s.issuing := rfl
@[simp] theorem State.updCore_nextId (s : State) (c : Nat) (f : CoreRec → CoreRec) :
    (s.updCore c f).nextId = s.nextId := rfl
@[simp] theorem State.updCore_freeCtr (s : State) (c : Nat) (f : CoreRec → CoreRec) :
    (s.updCore c f).freeCtr = s.freeCtr := rfl
@[simp] theorem State.updCore_spent (s : State) (c : Nat) (f : CoreRec → CoreRec) :
    (s.updCore c f).spent = s.spent := rfl
@[simp] theorem State.updCore_pkg (s : State) (c : Nat) (f : CoreRec → CoreRec) :
    (s.updCore c f).pkg = s.pkg := rfl
@[simp] theorem State.updCore_thermal (s : State) (c : Nat) (f : CoreRec → CoreRec) :
    (s.updCore c f).thermal = s.thermal := rfl
@[simp] theorem State.updCore_ctxs (s : State) (c : Nat) (f : CoreRec → CoreRec) :
    (s.updCore c f).ctxs = s.ctxs := rfl
@[simp] theorem State.updCore_queues (s : State) (c : Nat) (f : CoreRec → CoreRec) :
    (s.updCore c f).queues = s.queues := rfl
@[simp] theorem State.updCore_dies (s : State) (c : Nat) (f : CoreRec → CoreRec) :
    (s.updCore c f).dies = s.dies := rfl
@[simp] theorem State.updCore_grids (s : State) (c : Nat) (f : CoreRec → CoreRec) :
    (s.updCore c f).grids = s.grids := rfl
@[simp] theorem State.updCore_decs (s : State) (c : Nat) (f : CoreRec → CoreRec) :
    (s.updCore c f).decs = s.decs := rfl
@[simp] theorem State.updCore_launchQ (s : State) (c : Nat) (f : CoreRec → CoreRec) :
    (s.updCore c f).launchQ = s.launchQ := rfl
@[simp] theorem State.updCore_teams (s : State) (c : Nat) (f : CoreRec → CoreRec) :
    (s.updCore c f).teams = s.teams := rfl
@[simp] theorem State.updCore_cores (s : State) (c : Nat) (f : CoreRec → CoreRec) :
    (s.updCore c f).cores = Tab.set CoreRec.reset s.cores c (f (s.core c)) := rfl
@[simp] theorem State.updCore_dirs (s : State) (c : Nat) (f : CoreRec → CoreRec) :
    (s.updCore c f).dirs = s.dirs := rfl
@[simp] theorem State.updCore_copies (s : State) (c : Nat) (f : CoreRec → CoreRec) :
    (s.updCore c f).copies = s.copies := rfl
@[simp] theorem State.updCore_net (s : State) (c : Nat) (f : CoreRec → CoreRec) :
    (s.updCore c f).net = s.net := rfl
@[simp] theorem State.updCore_outw (s : State) (c : Nat) (f : CoreRec → CoreRec) :
    (s.updCore c f).outw = s.outw := rfl
@[simp] theorem State.updCore_serials (s : State) (c : Nat) (f : CoreRec → CoreRec) :
    (s.updCore c f).serials = s.serials := rfl
@[simp] theorem State.updCore_walks (s : State) (c : Nat) (f : CoreRec → CoreRec) :
    (s.updCore c f).walks = s.walks := rfl
@[simp] theorem State.updCore_holds (s : State) (c : Nat) (f : CoreRec → CoreRec) :
    (s.updCore c f).holds = s.holds := rfl
@[simp] theorem State.updCore_faults (s : State) (c : Nat) (f : CoreRec → CoreRec) :
    (s.updCore c f).faults = s.faults := rfl
@[simp] theorem State.updCore_dram (s : State) (c : Nat) (f : CoreRec → CoreRec) :
    (s.updCore c f).dram = s.dram := rfl
@[simp] theorem State.updCore_dramPoison (s : State) (c : Nat) (f : CoreRec → CoreRec) :
    (s.updCore c f).dramPoison = s.dramPoison := rfl
@[simp] theorem State.updCore_host (s : State) (c : Nat) (f : CoreRec → CoreRec) :
    (s.updCore c f).host = s.host := rfl
@[simp] theorem State.updCore_hostPoison (s : State) (c : Nat) (f : CoreRec → CoreRec) :
    (s.updCore c f).hostPoison = s.hostPoison := rfl
@[simp] theorem State.updCore_stackTab (s : State) (c : Nat) (f : CoreRec → CoreRec) :
    (s.updCore c f).stackTab = s.stackTab := rfl
@[simp] theorem State.updCore_links (s : State) (c : Nat) (f : CoreRec → CoreRec) :
    (s.updCore c f).links = s.links := rfl
@[simp] theorem State.updCore_arrivals (s : State) (c : Nat) (f : CoreRec → CoreRec) :
    (s.updCore c f).arrivals = s.arrivals := rfl
@[simp] theorem State.updCore_hostQ (s : State) (c : Nat) (f : CoreRec → CoreRec) :
    (s.updCore c f).hostQ = s.hostQ := rfl
@[simp] theorem State.updCore_recvs (s : State) (c : Nat) (f : CoreRec → CoreRec) :
    (s.updCore c f).recvs = s.recvs := rfl
@[simp] theorem State.updCore_forwards (s : State) (c : Nat) (f : CoreRec → CoreRec) :
    (s.updCore c f).forwards = s.forwards := rfl
@[simp] theorem State.updCore_out (s : State) (c : Nat) (f : CoreRec → CoreRec) :
    (s.updCore c f).out = s.out := rfl

/-! setQueue -/
@[simp] theorem State.setQueue_clock (s : State) (q : Nat) (r : QueueRec) :
    (s.setQueue q r).clock = s.clock := rfl
@[simp] theorem State.setQueue_agenda (s : State) (q : Nat) (r : QueueRec) :
    (s.setQueue q r).agenda = s.agenda := rfl
@[simp] theorem State.setQueue_issuing (s : State) (q : Nat) (r : QueueRec) :
    (s.setQueue q r).issuing = s.issuing := rfl
@[simp] theorem State.setQueue_nextId (s : State) (q : Nat) (r : QueueRec) :
    (s.setQueue q r).nextId = s.nextId := rfl
@[simp] theorem State.setQueue_freeCtr (s : State) (q : Nat) (r : QueueRec) :
    (s.setQueue q r).freeCtr = s.freeCtr := rfl
@[simp] theorem State.setQueue_spent (s : State) (q : Nat) (r : QueueRec) :
    (s.setQueue q r).spent = s.spent := rfl
@[simp] theorem State.setQueue_pkg (s : State) (q : Nat) (r : QueueRec) :
    (s.setQueue q r).pkg = s.pkg := rfl
@[simp] theorem State.setQueue_thermal (s : State) (q : Nat) (r : QueueRec) :
    (s.setQueue q r).thermal = s.thermal := rfl
@[simp] theorem State.setQueue_ctxs (s : State) (q : Nat) (r : QueueRec) :
    (s.setQueue q r).ctxs = s.ctxs := rfl
@[simp] theorem State.setQueue_queues (s : State) (q : Nat) (r : QueueRec) :
    (s.setQueue q r).queues = Tab.set QueueRec.reset s.queues q r := rfl
@[simp] theorem State.setQueue_dies (s : State) (q : Nat) (r : QueueRec) :
    (s.setQueue q r).dies = s.dies := rfl
@[simp] theorem State.setQueue_grids (s : State) (q : Nat) (r : QueueRec) :
    (s.setQueue q r).grids = s.grids := rfl
@[simp] theorem State.setQueue_decs (s : State) (q : Nat) (r : QueueRec) :
    (s.setQueue q r).decs = s.decs := rfl
@[simp] theorem State.setQueue_launchQ (s : State) (q : Nat) (r : QueueRec) :
    (s.setQueue q r).launchQ = s.launchQ := rfl
@[simp] theorem State.setQueue_teams (s : State) (q : Nat) (r : QueueRec) :
    (s.setQueue q r).teams = s.teams := rfl
@[simp] theorem State.setQueue_cores (s : State) (q : Nat) (r : QueueRec) :
    (s.setQueue q r).cores = s.cores := rfl
@[simp] theorem State.setQueue_dirs (s : State) (q : Nat) (r : QueueRec) :
    (s.setQueue q r).dirs = s.dirs := rfl
@[simp] theorem State.setQueue_copies (s : State) (q : Nat) (r : QueueRec) :
    (s.setQueue q r).copies = s.copies := rfl
@[simp] theorem State.setQueue_net (s : State) (q : Nat) (r : QueueRec) :
    (s.setQueue q r).net = s.net := rfl
@[simp] theorem State.setQueue_outw (s : State) (q : Nat) (r : QueueRec) :
    (s.setQueue q r).outw = s.outw := rfl
@[simp] theorem State.setQueue_serials (s : State) (q : Nat) (r : QueueRec) :
    (s.setQueue q r).serials = s.serials := rfl
@[simp] theorem State.setQueue_walks (s : State) (q : Nat) (r : QueueRec) :
    (s.setQueue q r).walks = s.walks := rfl
@[simp] theorem State.setQueue_holds (s : State) (q : Nat) (r : QueueRec) :
    (s.setQueue q r).holds = s.holds := rfl
@[simp] theorem State.setQueue_faults (s : State) (q : Nat) (r : QueueRec) :
    (s.setQueue q r).faults = s.faults := rfl
@[simp] theorem State.setQueue_dram (s : State) (q : Nat) (r : QueueRec) :
    (s.setQueue q r).dram = s.dram := rfl
@[simp] theorem State.setQueue_dramPoison (s : State) (q : Nat) (r : QueueRec) :
    (s.setQueue q r).dramPoison = s.dramPoison := rfl
@[simp] theorem State.setQueue_host (s : State) (q : Nat) (r : QueueRec) :
    (s.setQueue q r).host = s.host := rfl
@[simp] theorem State.setQueue_hostPoison (s : State) (q : Nat) (r : QueueRec) :
    (s.setQueue q r).hostPoison = s.hostPoison := rfl
@[simp] theorem State.setQueue_stackTab (s : State) (q : Nat) (r : QueueRec) :
    (s.setQueue q r).stackTab = s.stackTab := rfl
@[simp] theorem State.setQueue_links (s : State) (q : Nat) (r : QueueRec) :
    (s.setQueue q r).links = s.links := rfl
@[simp] theorem State.setQueue_arrivals (s : State) (q : Nat) (r : QueueRec) :
    (s.setQueue q r).arrivals = s.arrivals := rfl
@[simp] theorem State.setQueue_hostQ (s : State) (q : Nat) (r : QueueRec) :
    (s.setQueue q r).hostQ = s.hostQ := rfl
@[simp] theorem State.setQueue_recvs (s : State) (q : Nat) (r : QueueRec) :
    (s.setQueue q r).recvs = s.recvs := rfl
@[simp] theorem State.setQueue_forwards (s : State) (q : Nat) (r : QueueRec) :
    (s.setQueue q r).forwards = s.forwards := rfl
@[simp] theorem State.setQueue_out (s : State) (q : Nat) (r : QueueRec) :
    (s.setQueue q r).out = s.out := rfl

/-! updQueue -/
@[simp] theorem State.updQueue_clock (s : State) (q : Nat) (f : QueueRec → QueueRec) :
    (s.updQueue q f).clock = s.clock := rfl
@[simp] theorem State.updQueue_agenda (s : State) (q : Nat) (f : QueueRec → QueueRec) :
    (s.updQueue q f).agenda = s.agenda := rfl
@[simp] theorem State.updQueue_issuing (s : State) (q : Nat) (f : QueueRec → QueueRec) :
    (s.updQueue q f).issuing = s.issuing := rfl
@[simp] theorem State.updQueue_nextId (s : State) (q : Nat) (f : QueueRec → QueueRec) :
    (s.updQueue q f).nextId = s.nextId := rfl
@[simp] theorem State.updQueue_freeCtr (s : State) (q : Nat) (f : QueueRec → QueueRec) :
    (s.updQueue q f).freeCtr = s.freeCtr := rfl
@[simp] theorem State.updQueue_spent (s : State) (q : Nat) (f : QueueRec → QueueRec) :
    (s.updQueue q f).spent = s.spent := rfl
@[simp] theorem State.updQueue_pkg (s : State) (q : Nat) (f : QueueRec → QueueRec) :
    (s.updQueue q f).pkg = s.pkg := rfl
@[simp] theorem State.updQueue_thermal (s : State) (q : Nat) (f : QueueRec → QueueRec) :
    (s.updQueue q f).thermal = s.thermal := rfl
@[simp] theorem State.updQueue_ctxs (s : State) (q : Nat) (f : QueueRec → QueueRec) :
    (s.updQueue q f).ctxs = s.ctxs := rfl
@[simp] theorem State.updQueue_queues (s : State) (q : Nat) (f : QueueRec → QueueRec) :
    (s.updQueue q f).queues = Tab.set QueueRec.reset s.queues q (f (s.queue q)) := rfl
@[simp] theorem State.updQueue_dies (s : State) (q : Nat) (f : QueueRec → QueueRec) :
    (s.updQueue q f).dies = s.dies := rfl
@[simp] theorem State.updQueue_grids (s : State) (q : Nat) (f : QueueRec → QueueRec) :
    (s.updQueue q f).grids = s.grids := rfl
@[simp] theorem State.updQueue_decs (s : State) (q : Nat) (f : QueueRec → QueueRec) :
    (s.updQueue q f).decs = s.decs := rfl
@[simp] theorem State.updQueue_launchQ (s : State) (q : Nat) (f : QueueRec → QueueRec) :
    (s.updQueue q f).launchQ = s.launchQ := rfl
@[simp] theorem State.updQueue_teams (s : State) (q : Nat) (f : QueueRec → QueueRec) :
    (s.updQueue q f).teams = s.teams := rfl
@[simp] theorem State.updQueue_cores (s : State) (q : Nat) (f : QueueRec → QueueRec) :
    (s.updQueue q f).cores = s.cores := rfl
@[simp] theorem State.updQueue_dirs (s : State) (q : Nat) (f : QueueRec → QueueRec) :
    (s.updQueue q f).dirs = s.dirs := rfl
@[simp] theorem State.updQueue_copies (s : State) (q : Nat) (f : QueueRec → QueueRec) :
    (s.updQueue q f).copies = s.copies := rfl
@[simp] theorem State.updQueue_net (s : State) (q : Nat) (f : QueueRec → QueueRec) :
    (s.updQueue q f).net = s.net := rfl
@[simp] theorem State.updQueue_outw (s : State) (q : Nat) (f : QueueRec → QueueRec) :
    (s.updQueue q f).outw = s.outw := rfl
@[simp] theorem State.updQueue_serials (s : State) (q : Nat) (f : QueueRec → QueueRec) :
    (s.updQueue q f).serials = s.serials := rfl
@[simp] theorem State.updQueue_walks (s : State) (q : Nat) (f : QueueRec → QueueRec) :
    (s.updQueue q f).walks = s.walks := rfl
@[simp] theorem State.updQueue_holds (s : State) (q : Nat) (f : QueueRec → QueueRec) :
    (s.updQueue q f).holds = s.holds := rfl
@[simp] theorem State.updQueue_faults (s : State) (q : Nat) (f : QueueRec → QueueRec) :
    (s.updQueue q f).faults = s.faults := rfl
@[simp] theorem State.updQueue_dram (s : State) (q : Nat) (f : QueueRec → QueueRec) :
    (s.updQueue q f).dram = s.dram := rfl
@[simp] theorem State.updQueue_dramPoison (s : State) (q : Nat) (f : QueueRec → QueueRec) :
    (s.updQueue q f).dramPoison = s.dramPoison := rfl
@[simp] theorem State.updQueue_host (s : State) (q : Nat) (f : QueueRec → QueueRec) :
    (s.updQueue q f).host = s.host := rfl
@[simp] theorem State.updQueue_hostPoison (s : State) (q : Nat) (f : QueueRec → QueueRec) :
    (s.updQueue q f).hostPoison = s.hostPoison := rfl
@[simp] theorem State.updQueue_stackTab (s : State) (q : Nat) (f : QueueRec → QueueRec) :
    (s.updQueue q f).stackTab = s.stackTab := rfl
@[simp] theorem State.updQueue_links (s : State) (q : Nat) (f : QueueRec → QueueRec) :
    (s.updQueue q f).links = s.links := rfl
@[simp] theorem State.updQueue_arrivals (s : State) (q : Nat) (f : QueueRec → QueueRec) :
    (s.updQueue q f).arrivals = s.arrivals := rfl
@[simp] theorem State.updQueue_hostQ (s : State) (q : Nat) (f : QueueRec → QueueRec) :
    (s.updQueue q f).hostQ = s.hostQ := rfl
@[simp] theorem State.updQueue_recvs (s : State) (q : Nat) (f : QueueRec → QueueRec) :
    (s.updQueue q f).recvs = s.recvs := rfl
@[simp] theorem State.updQueue_forwards (s : State) (q : Nat) (f : QueueRec → QueueRec) :
    (s.updQueue q f).forwards = s.forwards := rfl
@[simp] theorem State.updQueue_out (s : State) (q : Nat) (f : QueueRec → QueueRec) :
    (s.updQueue q f).out = s.out := rfl

/-! updStack -/
@[simp] theorem State.updStack_clock (s : State) (k : Nat) (f : StackRec → StackRec) :
    (s.updStack k f).clock = s.clock := rfl
@[simp] theorem State.updStack_agenda (s : State) (k : Nat) (f : StackRec → StackRec) :
    (s.updStack k f).agenda = s.agenda := rfl
@[simp] theorem State.updStack_issuing (s : State) (k : Nat) (f : StackRec → StackRec) :
    (s.updStack k f).issuing = s.issuing := rfl
@[simp] theorem State.updStack_nextId (s : State) (k : Nat) (f : StackRec → StackRec) :
    (s.updStack k f).nextId = s.nextId := rfl
@[simp] theorem State.updStack_freeCtr (s : State) (k : Nat) (f : StackRec → StackRec) :
    (s.updStack k f).freeCtr = s.freeCtr := rfl
@[simp] theorem State.updStack_spent (s : State) (k : Nat) (f : StackRec → StackRec) :
    (s.updStack k f).spent = s.spent := rfl
@[simp] theorem State.updStack_pkg (s : State) (k : Nat) (f : StackRec → StackRec) :
    (s.updStack k f).pkg = s.pkg := rfl
@[simp] theorem State.updStack_thermal (s : State) (k : Nat) (f : StackRec → StackRec) :
    (s.updStack k f).thermal = s.thermal := rfl
@[simp] theorem State.updStack_ctxs (s : State) (k : Nat) (f : StackRec → StackRec) :
    (s.updStack k f).ctxs = s.ctxs := rfl
@[simp] theorem State.updStack_queues (s : State) (k : Nat) (f : StackRec → StackRec) :
    (s.updStack k f).queues = s.queues := rfl
@[simp] theorem State.updStack_dies (s : State) (k : Nat) (f : StackRec → StackRec) :
    (s.updStack k f).dies = s.dies := rfl
@[simp] theorem State.updStack_grids (s : State) (k : Nat) (f : StackRec → StackRec) :
    (s.updStack k f).grids = s.grids := rfl
@[simp] theorem State.updStack_decs (s : State) (k : Nat) (f : StackRec → StackRec) :
    (s.updStack k f).decs = s.decs := rfl
@[simp] theorem State.updStack_launchQ (s : State) (k : Nat) (f : StackRec → StackRec) :
    (s.updStack k f).launchQ = s.launchQ := rfl
@[simp] theorem State.updStack_teams (s : State) (k : Nat) (f : StackRec → StackRec) :
    (s.updStack k f).teams = s.teams := rfl
@[simp] theorem State.updStack_cores (s : State) (k : Nat) (f : StackRec → StackRec) :
    (s.updStack k f).cores = s.cores := rfl
@[simp] theorem State.updStack_dirs (s : State) (k : Nat) (f : StackRec → StackRec) :
    (s.updStack k f).dirs = s.dirs := rfl
@[simp] theorem State.updStack_copies (s : State) (k : Nat) (f : StackRec → StackRec) :
    (s.updStack k f).copies = s.copies := rfl
@[simp] theorem State.updStack_net (s : State) (k : Nat) (f : StackRec → StackRec) :
    (s.updStack k f).net = s.net := rfl
@[simp] theorem State.updStack_outw (s : State) (k : Nat) (f : StackRec → StackRec) :
    (s.updStack k f).outw = s.outw := rfl
@[simp] theorem State.updStack_serials (s : State) (k : Nat) (f : StackRec → StackRec) :
    (s.updStack k f).serials = s.serials := rfl
@[simp] theorem State.updStack_walks (s : State) (k : Nat) (f : StackRec → StackRec) :
    (s.updStack k f).walks = s.walks := rfl
@[simp] theorem State.updStack_holds (s : State) (k : Nat) (f : StackRec → StackRec) :
    (s.updStack k f).holds = s.holds := rfl
@[simp] theorem State.updStack_faults (s : State) (k : Nat) (f : StackRec → StackRec) :
    (s.updStack k f).faults = s.faults := rfl
@[simp] theorem State.updStack_dram (s : State) (k : Nat) (f : StackRec → StackRec) :
    (s.updStack k f).dram = s.dram := rfl
@[simp] theorem State.updStack_dramPoison (s : State) (k : Nat) (f : StackRec → StackRec) :
    (s.updStack k f).dramPoison = s.dramPoison := rfl
@[simp] theorem State.updStack_host (s : State) (k : Nat) (f : StackRec → StackRec) :
    (s.updStack k f).host = s.host := rfl
@[simp] theorem State.updStack_hostPoison (s : State) (k : Nat) (f : StackRec → StackRec) :
    (s.updStack k f).hostPoison = s.hostPoison := rfl
@[simp] theorem State.updStack_stackTab (s : State) (k : Nat) (f : StackRec → StackRec) :
    (s.updStack k f).stackTab = Tab.set StackRec.reset s.stackTab k (f (s.stack k)) := rfl
@[simp] theorem State.updStack_links (s : State) (k : Nat) (f : StackRec → StackRec) :
    (s.updStack k f).links = s.links := rfl
@[simp] theorem State.updStack_arrivals (s : State) (k : Nat) (f : StackRec → StackRec) :
    (s.updStack k f).arrivals = s.arrivals := rfl
@[simp] theorem State.updStack_hostQ (s : State) (k : Nat) (f : StackRec → StackRec) :
    (s.updStack k f).hostQ = s.hostQ := rfl
@[simp] theorem State.updStack_recvs (s : State) (k : Nat) (f : StackRec → StackRec) :
    (s.updStack k f).recvs = s.recvs := rfl
@[simp] theorem State.updStack_forwards (s : State) (k : Nat) (f : StackRec → StackRec) :
    (s.updStack k f).forwards = s.forwards := rfl
@[simp] theorem State.updStack_out (s : State) (k : Nat) (f : StackRec → StackRec) :
    (s.updStack k f).out = s.out := rfl

/-! updLink -/
@[simp] theorem State.updLink_clock (s : State) (k : Nat) (f : LinkRec → LinkRec) :
    (s.updLink k f).clock = s.clock := rfl
@[simp] theorem State.updLink_agenda (s : State) (k : Nat) (f : LinkRec → LinkRec) :
    (s.updLink k f).agenda = s.agenda := rfl
@[simp] theorem State.updLink_issuing (s : State) (k : Nat) (f : LinkRec → LinkRec) :
    (s.updLink k f).issuing = s.issuing := rfl
@[simp] theorem State.updLink_nextId (s : State) (k : Nat) (f : LinkRec → LinkRec) :
    (s.updLink k f).nextId = s.nextId := rfl
@[simp] theorem State.updLink_freeCtr (s : State) (k : Nat) (f : LinkRec → LinkRec) :
    (s.updLink k f).freeCtr = s.freeCtr := rfl
@[simp] theorem State.updLink_spent (s : State) (k : Nat) (f : LinkRec → LinkRec) :
    (s.updLink k f).spent = s.spent := rfl
@[simp] theorem State.updLink_pkg (s : State) (k : Nat) (f : LinkRec → LinkRec) :
    (s.updLink k f).pkg = s.pkg := rfl
@[simp] theorem State.updLink_thermal (s : State) (k : Nat) (f : LinkRec → LinkRec) :
    (s.updLink k f).thermal = s.thermal := rfl
@[simp] theorem State.updLink_ctxs (s : State) (k : Nat) (f : LinkRec → LinkRec) :
    (s.updLink k f).ctxs = s.ctxs := rfl
@[simp] theorem State.updLink_queues (s : State) (k : Nat) (f : LinkRec → LinkRec) :
    (s.updLink k f).queues = s.queues := rfl
@[simp] theorem State.updLink_dies (s : State) (k : Nat) (f : LinkRec → LinkRec) :
    (s.updLink k f).dies = s.dies := rfl
@[simp] theorem State.updLink_grids (s : State) (k : Nat) (f : LinkRec → LinkRec) :
    (s.updLink k f).grids = s.grids := rfl
@[simp] theorem State.updLink_decs (s : State) (k : Nat) (f : LinkRec → LinkRec) :
    (s.updLink k f).decs = s.decs := rfl
@[simp] theorem State.updLink_launchQ (s : State) (k : Nat) (f : LinkRec → LinkRec) :
    (s.updLink k f).launchQ = s.launchQ := rfl
@[simp] theorem State.updLink_teams (s : State) (k : Nat) (f : LinkRec → LinkRec) :
    (s.updLink k f).teams = s.teams := rfl
@[simp] theorem State.updLink_cores (s : State) (k : Nat) (f : LinkRec → LinkRec) :
    (s.updLink k f).cores = s.cores := rfl
@[simp] theorem State.updLink_dirs (s : State) (k : Nat) (f : LinkRec → LinkRec) :
    (s.updLink k f).dirs = s.dirs := rfl
@[simp] theorem State.updLink_copies (s : State) (k : Nat) (f : LinkRec → LinkRec) :
    (s.updLink k f).copies = s.copies := rfl
@[simp] theorem State.updLink_net (s : State) (k : Nat) (f : LinkRec → LinkRec) :
    (s.updLink k f).net = s.net := rfl
@[simp] theorem State.updLink_outw (s : State) (k : Nat) (f : LinkRec → LinkRec) :
    (s.updLink k f).outw = s.outw := rfl
@[simp] theorem State.updLink_serials (s : State) (k : Nat) (f : LinkRec → LinkRec) :
    (s.updLink k f).serials = s.serials := rfl
@[simp] theorem State.updLink_walks (s : State) (k : Nat) (f : LinkRec → LinkRec) :
    (s.updLink k f).walks = s.walks := rfl
@[simp] theorem State.updLink_holds (s : State) (k : Nat) (f : LinkRec → LinkRec) :
    (s.updLink k f).holds = s.holds := rfl
@[simp] theorem State.updLink_faults (s : State) (k : Nat) (f : LinkRec → LinkRec) :
    (s.updLink k f).faults = s.faults := rfl
@[simp] theorem State.updLink_dram (s : State) (k : Nat) (f : LinkRec → LinkRec) :
    (s.updLink k f).dram = s.dram := rfl
@[simp] theorem State.updLink_dramPoison (s : State) (k : Nat) (f : LinkRec → LinkRec) :
    (s.updLink k f).dramPoison = s.dramPoison := rfl
@[simp] theorem State.updLink_host (s : State) (k : Nat) (f : LinkRec → LinkRec) :
    (s.updLink k f).host = s.host := rfl
@[simp] theorem State.updLink_hostPoison (s : State) (k : Nat) (f : LinkRec → LinkRec) :
    (s.updLink k f).hostPoison = s.hostPoison := rfl
@[simp] theorem State.updLink_stackTab (s : State) (k : Nat) (f : LinkRec → LinkRec) :
    (s.updLink k f).stackTab = s.stackTab := rfl
@[simp] theorem State.updLink_links (s : State) (k : Nat) (f : LinkRec → LinkRec) :
    (s.updLink k f).links = Tab.set LinkRec.reset s.links k (f (s.link k)) := rfl
@[simp] theorem State.updLink_arrivals (s : State) (k : Nat) (f : LinkRec → LinkRec) :
    (s.updLink k f).arrivals = s.arrivals := rfl
@[simp] theorem State.updLink_hostQ (s : State) (k : Nat) (f : LinkRec → LinkRec) :
    (s.updLink k f).hostQ = s.hostQ := rfl
@[simp] theorem State.updLink_recvs (s : State) (k : Nat) (f : LinkRec → LinkRec) :
    (s.updLink k f).recvs = s.recvs := rfl
@[simp] theorem State.updLink_forwards (s : State) (k : Nat) (f : LinkRec → LinkRec) :
    (s.updLink k f).forwards = s.forwards := rfl
@[simp] theorem State.updLink_out (s : State) (k : Nat) (f : LinkRec → LinkRec) :
    (s.updLink k f).out = s.out := rfl

/-! updTeam -/
@[simp] theorem State.updTeam_clock (s : State) (t : Nat) (f : TeamRec → TeamRec) :
    (s.updTeam t f).clock = s.clock := rfl
@[simp] theorem State.updTeam_agenda (s : State) (t : Nat) (f : TeamRec → TeamRec) :
    (s.updTeam t f).agenda = s.agenda := rfl
@[simp] theorem State.updTeam_issuing (s : State) (t : Nat) (f : TeamRec → TeamRec) :
    (s.updTeam t f).issuing = s.issuing := rfl
@[simp] theorem State.updTeam_nextId (s : State) (t : Nat) (f : TeamRec → TeamRec) :
    (s.updTeam t f).nextId = s.nextId := rfl
@[simp] theorem State.updTeam_freeCtr (s : State) (t : Nat) (f : TeamRec → TeamRec) :
    (s.updTeam t f).freeCtr = s.freeCtr := rfl
@[simp] theorem State.updTeam_spent (s : State) (t : Nat) (f : TeamRec → TeamRec) :
    (s.updTeam t f).spent = s.spent := rfl
@[simp] theorem State.updTeam_pkg (s : State) (t : Nat) (f : TeamRec → TeamRec) :
    (s.updTeam t f).pkg = s.pkg := rfl
@[simp] theorem State.updTeam_thermal (s : State) (t : Nat) (f : TeamRec → TeamRec) :
    (s.updTeam t f).thermal = s.thermal := rfl
@[simp] theorem State.updTeam_ctxs (s : State) (t : Nat) (f : TeamRec → TeamRec) :
    (s.updTeam t f).ctxs = s.ctxs := rfl
@[simp] theorem State.updTeam_queues (s : State) (t : Nat) (f : TeamRec → TeamRec) :
    (s.updTeam t f).queues = s.queues := rfl
@[simp] theorem State.updTeam_dies (s : State) (t : Nat) (f : TeamRec → TeamRec) :
    (s.updTeam t f).dies = s.dies := rfl
@[simp] theorem State.updTeam_grids (s : State) (t : Nat) (f : TeamRec → TeamRec) :
    (s.updTeam t f).grids = s.grids := rfl
@[simp] theorem State.updTeam_decs (s : State) (t : Nat) (f : TeamRec → TeamRec) :
    (s.updTeam t f).decs = s.decs := rfl
@[simp] theorem State.updTeam_launchQ (s : State) (t : Nat) (f : TeamRec → TeamRec) :
    (s.updTeam t f).launchQ = s.launchQ := rfl
@[simp] theorem State.updTeam_teams (s : State) (t : Nat) (f : TeamRec → TeamRec) :
    (s.updTeam t f).teams = s.teams.upd t f := rfl
@[simp] theorem State.updTeam_cores (s : State) (t : Nat) (f : TeamRec → TeamRec) :
    (s.updTeam t f).cores = s.cores := rfl
@[simp] theorem State.updTeam_dirs (s : State) (t : Nat) (f : TeamRec → TeamRec) :
    (s.updTeam t f).dirs = s.dirs := rfl
@[simp] theorem State.updTeam_copies (s : State) (t : Nat) (f : TeamRec → TeamRec) :
    (s.updTeam t f).copies = s.copies := rfl
@[simp] theorem State.updTeam_net (s : State) (t : Nat) (f : TeamRec → TeamRec) :
    (s.updTeam t f).net = s.net := rfl
@[simp] theorem State.updTeam_outw (s : State) (t : Nat) (f : TeamRec → TeamRec) :
    (s.updTeam t f).outw = s.outw := rfl
@[simp] theorem State.updTeam_serials (s : State) (t : Nat) (f : TeamRec → TeamRec) :
    (s.updTeam t f).serials = s.serials := rfl
@[simp] theorem State.updTeam_walks (s : State) (t : Nat) (f : TeamRec → TeamRec) :
    (s.updTeam t f).walks = s.walks := rfl
@[simp] theorem State.updTeam_holds (s : State) (t : Nat) (f : TeamRec → TeamRec) :
    (s.updTeam t f).holds = s.holds := rfl
@[simp] theorem State.updTeam_faults (s : State) (t : Nat) (f : TeamRec → TeamRec) :
    (s.updTeam t f).faults = s.faults := rfl
@[simp] theorem State.updTeam_dram (s : State) (t : Nat) (f : TeamRec → TeamRec) :
    (s.updTeam t f).dram = s.dram := rfl
@[simp] theorem State.updTeam_dramPoison (s : State) (t : Nat) (f : TeamRec → TeamRec) :
    (s.updTeam t f).dramPoison = s.dramPoison := rfl
@[simp] theorem State.updTeam_host (s : State) (t : Nat) (f : TeamRec → TeamRec) :
    (s.updTeam t f).host = s.host := rfl
@[simp] theorem State.updTeam_hostPoison (s : State) (t : Nat) (f : TeamRec → TeamRec) :
    (s.updTeam t f).hostPoison = s.hostPoison := rfl
@[simp] theorem State.updTeam_stackTab (s : State) (t : Nat) (f : TeamRec → TeamRec) :
    (s.updTeam t f).stackTab = s.stackTab := rfl
@[simp] theorem State.updTeam_links (s : State) (t : Nat) (f : TeamRec → TeamRec) :
    (s.updTeam t f).links = s.links := rfl
@[simp] theorem State.updTeam_arrivals (s : State) (t : Nat) (f : TeamRec → TeamRec) :
    (s.updTeam t f).arrivals = s.arrivals := rfl
@[simp] theorem State.updTeam_hostQ (s : State) (t : Nat) (f : TeamRec → TeamRec) :
    (s.updTeam t f).hostQ = s.hostQ := rfl
@[simp] theorem State.updTeam_recvs (s : State) (t : Nat) (f : TeamRec → TeamRec) :
    (s.updTeam t f).recvs = s.recvs := rfl
@[simp] theorem State.updTeam_forwards (s : State) (t : Nat) (f : TeamRec → TeamRec) :
    (s.updTeam t f).forwards = s.forwards := rfl
@[simp] theorem State.updTeam_out (s : State) (t : Nat) (f : TeamRec → TeamRec) :
    (s.updTeam t f).out = s.out := rfl

/-! updGroup -/
@[simp] theorem State.updGroup_clock (s : State) (t g : Nat) (f : Group → Group) :
    (s.updGroup t g f).clock = s.clock := rfl
@[simp] theorem State.updGroup_agenda (s : State) (t g : Nat) (f : Group → Group) :
    (s.updGroup t g f).agenda = s.agenda := rfl
@[simp] theorem State.updGroup_issuing (s : State) (t g : Nat) (f : Group → Group) :
    (s.updGroup t g f).issuing = s.issuing := rfl
@[simp] theorem State.updGroup_nextId (s : State) (t g : Nat) (f : Group → Group) :
    (s.updGroup t g f).nextId = s.nextId := rfl
@[simp] theorem State.updGroup_freeCtr (s : State) (t g : Nat) (f : Group → Group) :
    (s.updGroup t g f).freeCtr = s.freeCtr := rfl
@[simp] theorem State.updGroup_spent (s : State) (t g : Nat) (f : Group → Group) :
    (s.updGroup t g f).spent = s.spent := rfl
@[simp] theorem State.updGroup_pkg (s : State) (t g : Nat) (f : Group → Group) :
    (s.updGroup t g f).pkg = s.pkg := rfl
@[simp] theorem State.updGroup_thermal (s : State) (t g : Nat) (f : Group → Group) :
    (s.updGroup t g f).thermal = s.thermal := rfl
@[simp] theorem State.updGroup_ctxs (s : State) (t g : Nat) (f : Group → Group) :
    (s.updGroup t g f).ctxs = s.ctxs := rfl
@[simp] theorem State.updGroup_queues (s : State) (t g : Nat) (f : Group → Group) :
    (s.updGroup t g f).queues = s.queues := rfl
@[simp] theorem State.updGroup_dies (s : State) (t g : Nat) (f : Group → Group) :
    (s.updGroup t g f).dies = s.dies := rfl
@[simp] theorem State.updGroup_grids (s : State) (t g : Nat) (f : Group → Group) :
    (s.updGroup t g f).grids = s.grids := rfl
@[simp] theorem State.updGroup_decs (s : State) (t g : Nat) (f : Group → Group) :
    (s.updGroup t g f).decs = s.decs := rfl
@[simp] theorem State.updGroup_launchQ (s : State) (t g : Nat) (f : Group → Group) :
    (s.updGroup t g f).launchQ = s.launchQ := rfl
@[simp] theorem State.updGroup_teams (s : State) (t g : Nat) (f : Group → Group) :
    (s.updGroup t g f).teams = s.teams.upd t fun r => { r with groups := r.groups.upd g f } := rfl
@[simp] theorem State.updGroup_cores (s : State) (t g : Nat) (f : Group → Group) :
    (s.updGroup t g f).cores = s.cores := rfl
@[simp] theorem State.updGroup_dirs (s : State) (t g : Nat) (f : Group → Group) :
    (s.updGroup t g f).dirs = s.dirs := rfl
@[simp] theorem State.updGroup_copies (s : State) (t g : Nat) (f : Group → Group) :
    (s.updGroup t g f).copies = s.copies := rfl
@[simp] theorem State.updGroup_net (s : State) (t g : Nat) (f : Group → Group) :
    (s.updGroup t g f).net = s.net := rfl
@[simp] theorem State.updGroup_outw (s : State) (t g : Nat) (f : Group → Group) :
    (s.updGroup t g f).outw = s.outw := rfl
@[simp] theorem State.updGroup_serials (s : State) (t g : Nat) (f : Group → Group) :
    (s.updGroup t g f).serials = s.serials := rfl
@[simp] theorem State.updGroup_walks (s : State) (t g : Nat) (f : Group → Group) :
    (s.updGroup t g f).walks = s.walks := rfl
@[simp] theorem State.updGroup_holds (s : State) (t g : Nat) (f : Group → Group) :
    (s.updGroup t g f).holds = s.holds := rfl
@[simp] theorem State.updGroup_faults (s : State) (t g : Nat) (f : Group → Group) :
    (s.updGroup t g f).faults = s.faults := rfl
@[simp] theorem State.updGroup_dram (s : State) (t g : Nat) (f : Group → Group) :
    (s.updGroup t g f).dram = s.dram := rfl
@[simp] theorem State.updGroup_dramPoison (s : State) (t g : Nat) (f : Group → Group) :
    (s.updGroup t g f).dramPoison = s.dramPoison := rfl
@[simp] theorem State.updGroup_host (s : State) (t g : Nat) (f : Group → Group) :
    (s.updGroup t g f).host = s.host := rfl
@[simp] theorem State.updGroup_hostPoison (s : State) (t g : Nat) (f : Group → Group) :
    (s.updGroup t g f).hostPoison = s.hostPoison := rfl
@[simp] theorem State.updGroup_stackTab (s : State) (t g : Nat) (f : Group → Group) :
    (s.updGroup t g f).stackTab = s.stackTab := rfl
@[simp] theorem State.updGroup_links (s : State) (t g : Nat) (f : Group → Group) :
    (s.updGroup t g f).links = s.links := rfl
@[simp] theorem State.updGroup_arrivals (s : State) (t g : Nat) (f : Group → Group) :
    (s.updGroup t g f).arrivals = s.arrivals := rfl
@[simp] theorem State.updGroup_hostQ (s : State) (t g : Nat) (f : Group → Group) :
    (s.updGroup t g f).hostQ = s.hostQ := rfl
@[simp] theorem State.updGroup_recvs (s : State) (t g : Nat) (f : Group → Group) :
    (s.updGroup t g f).recvs = s.recvs := rfl
@[simp] theorem State.updGroup_forwards (s : State) (t g : Nat) (f : Group → Group) :
    (s.updGroup t g f).forwards = s.forwards := rfl
@[simp] theorem State.updGroup_out (s : State) (t g : Nat) (f : Group → Group) :
    (s.updGroup t g f).out = s.out := rfl

/-! updGrid -/
@[simp] theorem State.updGrid_clock (s : State) (g : Nat) (f : GridRec → GridRec) :
    (s.updGrid g f).clock = s.clock := rfl
@[simp] theorem State.updGrid_agenda (s : State) (g : Nat) (f : GridRec → GridRec) :
    (s.updGrid g f).agenda = s.agenda := rfl
@[simp] theorem State.updGrid_issuing (s : State) (g : Nat) (f : GridRec → GridRec) :
    (s.updGrid g f).issuing = s.issuing := rfl
@[simp] theorem State.updGrid_nextId (s : State) (g : Nat) (f : GridRec → GridRec) :
    (s.updGrid g f).nextId = s.nextId := rfl
@[simp] theorem State.updGrid_freeCtr (s : State) (g : Nat) (f : GridRec → GridRec) :
    (s.updGrid g f).freeCtr = s.freeCtr := rfl
@[simp] theorem State.updGrid_spent (s : State) (g : Nat) (f : GridRec → GridRec) :
    (s.updGrid g f).spent = s.spent := rfl
@[simp] theorem State.updGrid_pkg (s : State) (g : Nat) (f : GridRec → GridRec) :
    (s.updGrid g f).pkg = s.pkg := rfl
@[simp] theorem State.updGrid_thermal (s : State) (g : Nat) (f : GridRec → GridRec) :
    (s.updGrid g f).thermal = s.thermal := rfl
@[simp] theorem State.updGrid_ctxs (s : State) (g : Nat) (f : GridRec → GridRec) :
    (s.updGrid g f).ctxs = s.ctxs := rfl
@[simp] theorem State.updGrid_queues (s : State) (g : Nat) (f : GridRec → GridRec) :
    (s.updGrid g f).queues = s.queues := rfl
@[simp] theorem State.updGrid_dies (s : State) (g : Nat) (f : GridRec → GridRec) :
    (s.updGrid g f).dies = s.dies := rfl
@[simp] theorem State.updGrid_grids (s : State) (g : Nat) (f : GridRec → GridRec) :
    (s.updGrid g f).grids = s.grids.upd g f := rfl
@[simp] theorem State.updGrid_decs (s : State) (g : Nat) (f : GridRec → GridRec) :
    (s.updGrid g f).decs = s.decs := rfl
@[simp] theorem State.updGrid_launchQ (s : State) (g : Nat) (f : GridRec → GridRec) :
    (s.updGrid g f).launchQ = s.launchQ := rfl
@[simp] theorem State.updGrid_teams (s : State) (g : Nat) (f : GridRec → GridRec) :
    (s.updGrid g f).teams = s.teams := rfl
@[simp] theorem State.updGrid_cores (s : State) (g : Nat) (f : GridRec → GridRec) :
    (s.updGrid g f).cores = s.cores := rfl
@[simp] theorem State.updGrid_dirs (s : State) (g : Nat) (f : GridRec → GridRec) :
    (s.updGrid g f).dirs = s.dirs := rfl
@[simp] theorem State.updGrid_copies (s : State) (g : Nat) (f : GridRec → GridRec) :
    (s.updGrid g f).copies = s.copies := rfl
@[simp] theorem State.updGrid_net (s : State) (g : Nat) (f : GridRec → GridRec) :
    (s.updGrid g f).net = s.net := rfl
@[simp] theorem State.updGrid_outw (s : State) (g : Nat) (f : GridRec → GridRec) :
    (s.updGrid g f).outw = s.outw := rfl
@[simp] theorem State.updGrid_serials (s : State) (g : Nat) (f : GridRec → GridRec) :
    (s.updGrid g f).serials = s.serials := rfl
@[simp] theorem State.updGrid_walks (s : State) (g : Nat) (f : GridRec → GridRec) :
    (s.updGrid g f).walks = s.walks := rfl
@[simp] theorem State.updGrid_holds (s : State) (g : Nat) (f : GridRec → GridRec) :
    (s.updGrid g f).holds = s.holds := rfl
@[simp] theorem State.updGrid_faults (s : State) (g : Nat) (f : GridRec → GridRec) :
    (s.updGrid g f).faults = s.faults := rfl
@[simp] theorem State.updGrid_dram (s : State) (g : Nat) (f : GridRec → GridRec) :
    (s.updGrid g f).dram = s.dram := rfl
@[simp] theorem State.updGrid_dramPoison (s : State) (g : Nat) (f : GridRec → GridRec) :
    (s.updGrid g f).dramPoison = s.dramPoison := rfl
@[simp] theorem State.updGrid_host (s : State) (g : Nat) (f : GridRec → GridRec) :
    (s.updGrid g f).host = s.host := rfl
@[simp] theorem State.updGrid_hostPoison (s : State) (g : Nat) (f : GridRec → GridRec) :
    (s.updGrid g f).hostPoison = s.hostPoison := rfl
@[simp] theorem State.updGrid_stackTab (s : State) (g : Nat) (f : GridRec → GridRec) :
    (s.updGrid g f).stackTab = s.stackTab := rfl
@[simp] theorem State.updGrid_links (s : State) (g : Nat) (f : GridRec → GridRec) :
    (s.updGrid g f).links = s.links := rfl
@[simp] theorem State.updGrid_arrivals (s : State) (g : Nat) (f : GridRec → GridRec) :
    (s.updGrid g f).arrivals = s.arrivals := rfl
@[simp] theorem State.updGrid_hostQ (s : State) (g : Nat) (f : GridRec → GridRec) :
    (s.updGrid g f).hostQ = s.hostQ := rfl
@[simp] theorem State.updGrid_recvs (s : State) (g : Nat) (f : GridRec → GridRec) :
    (s.updGrid g f).recvs = s.recvs := rfl
@[simp] theorem State.updGrid_forwards (s : State) (g : Nat) (f : GridRec → GridRec) :
    (s.updGrid g f).forwards = s.forwards := rfl
@[simp] theorem State.updGrid_out (s : State) (g : Nat) (f : GridRec → GridRec) :
    (s.updGrid g f).out = s.out := rfl

/-! bump -/
@[simp] theorem State.bump_clock (s : State) :
    (s.bump).clock = s.clock := rfl
@[simp] theorem State.bump_agenda (s : State) :
    (s.bump).agenda = s.agenda := rfl
@[simp] theorem State.bump_issuing (s : State) :
    (s.bump).issuing = s.issuing := rfl
@[simp] theorem State.bump_nextId (s : State) :
    (s.bump).nextId = s.nextId + 1 := rfl
@[simp] theorem State.bump_freeCtr (s : State) :
    (s.bump).freeCtr = s.freeCtr := rfl
@[simp] theorem State.bump_spent (s : State) :
    (s.bump).spent = s.spent := rfl
@[simp] theorem State.bump_pkg (s : State) :
    (s.bump).pkg = s.pkg := rfl
@[simp] theorem State.bump_thermal (s : State) :
    (s.bump).thermal = s.thermal := rfl
@[simp] theorem State.bump_ctxs (s : State) :
    (s.bump).ctxs = s.ctxs := rfl
@[simp] theorem State.bump_queues (s : State) :
    (s.bump).queues = s.queues := rfl
@[simp] theorem State.bump_dies (s : State) :
    (s.bump).dies = s.dies := rfl
@[simp] theorem State.bump_grids (s : State) :
    (s.bump).grids = s.grids := rfl
@[simp] theorem State.bump_decs (s : State) :
    (s.bump).decs = s.decs := rfl
@[simp] theorem State.bump_launchQ (s : State) :
    (s.bump).launchQ = s.launchQ := rfl
@[simp] theorem State.bump_teams (s : State) :
    (s.bump).teams = s.teams := rfl
@[simp] theorem State.bump_cores (s : State) :
    (s.bump).cores = s.cores := rfl
@[simp] theorem State.bump_dirs (s : State) :
    (s.bump).dirs = s.dirs := rfl
@[simp] theorem State.bump_copies (s : State) :
    (s.bump).copies = s.copies := rfl
@[simp] theorem State.bump_net (s : State) :
    (s.bump).net = s.net := rfl
@[simp] theorem State.bump_outw (s : State) :
    (s.bump).outw = s.outw := rfl
@[simp] theorem State.bump_serials (s : State) :
    (s.bump).serials = s.serials := rfl
@[simp] theorem State.bump_walks (s : State) :
    (s.bump).walks = s.walks := rfl
@[simp] theorem State.bump_holds (s : State) :
    (s.bump).holds = s.holds := rfl
@[simp] theorem State.bump_faults (s : State) :
    (s.bump).faults = s.faults := rfl
@[simp] theorem State.bump_dram (s : State) :
    (s.bump).dram = s.dram := rfl
@[simp] theorem State.bump_dramPoison (s : State) :
    (s.bump).dramPoison = s.dramPoison := rfl
@[simp] theorem State.bump_host (s : State) :
    (s.bump).host = s.host := rfl
@[simp] theorem State.bump_hostPoison (s : State) :
    (s.bump).hostPoison = s.hostPoison := rfl
@[simp] theorem State.bump_stackTab (s : State) :
    (s.bump).stackTab = s.stackTab := rfl
@[simp] theorem State.bump_links (s : State) :
    (s.bump).links = s.links := rfl
@[simp] theorem State.bump_arrivals (s : State) :
    (s.bump).arrivals = s.arrivals := rfl
@[simp] theorem State.bump_hostQ (s : State) :
    (s.bump).hostQ = s.hostQ := rfl
@[simp] theorem State.bump_recvs (s : State) :
    (s.bump).recvs = s.recvs := rfl
@[simp] theorem State.bump_forwards (s : State) :
    (s.bump).forwards = s.forwards := rfl
@[simp] theorem State.bump_out (s : State) :
    (s.bump).out = s.out := rfl

/-! emit -/
@[simp] theorem State.emit_clock (s : State) (e : OutEvt) :
    (s.emit e).clock = s.clock := rfl
@[simp] theorem State.emit_agenda (s : State) (e : OutEvt) :
    (s.emit e).agenda = s.agenda := rfl
@[simp] theorem State.emit_issuing (s : State) (e : OutEvt) :
    (s.emit e).issuing = s.issuing := rfl
@[simp] theorem State.emit_nextId (s : State) (e : OutEvt) :
    (s.emit e).nextId = s.nextId := rfl
@[simp] theorem State.emit_freeCtr (s : State) (e : OutEvt) :
    (s.emit e).freeCtr = s.freeCtr := rfl
@[simp] theorem State.emit_spent (s : State) (e : OutEvt) :
    (s.emit e).spent = s.spent := rfl
@[simp] theorem State.emit_pkg (s : State) (e : OutEvt) :
    (s.emit e).pkg = s.pkg := rfl
@[simp] theorem State.emit_thermal (s : State) (e : OutEvt) :
    (s.emit e).thermal = s.thermal := rfl
@[simp] theorem State.emit_ctxs (s : State) (e : OutEvt) :
    (s.emit e).ctxs = s.ctxs := rfl
@[simp] theorem State.emit_queues (s : State) (e : OutEvt) :
    (s.emit e).queues = s.queues := rfl
@[simp] theorem State.emit_dies (s : State) (e : OutEvt) :
    (s.emit e).dies = s.dies := rfl
@[simp] theorem State.emit_grids (s : State) (e : OutEvt) :
    (s.emit e).grids = s.grids := rfl
@[simp] theorem State.emit_decs (s : State) (e : OutEvt) :
    (s.emit e).decs = s.decs := rfl
@[simp] theorem State.emit_launchQ (s : State) (e : OutEvt) :
    (s.emit e).launchQ = s.launchQ := rfl
@[simp] theorem State.emit_teams (s : State) (e : OutEvt) :
    (s.emit e).teams = s.teams := rfl
@[simp] theorem State.emit_cores (s : State) (e : OutEvt) :
    (s.emit e).cores = s.cores := rfl
@[simp] theorem State.emit_dirs (s : State) (e : OutEvt) :
    (s.emit e).dirs = s.dirs := rfl
@[simp] theorem State.emit_copies (s : State) (e : OutEvt) :
    (s.emit e).copies = s.copies := rfl
@[simp] theorem State.emit_net (s : State) (e : OutEvt) :
    (s.emit e).net = s.net := rfl
@[simp] theorem State.emit_outw (s : State) (e : OutEvt) :
    (s.emit e).outw = s.outw := rfl
@[simp] theorem State.emit_serials (s : State) (e : OutEvt) :
    (s.emit e).serials = s.serials := rfl
@[simp] theorem State.emit_walks (s : State) (e : OutEvt) :
    (s.emit e).walks = s.walks := rfl
@[simp] theorem State.emit_holds (s : State) (e : OutEvt) :
    (s.emit e).holds = s.holds := rfl
@[simp] theorem State.emit_faults (s : State) (e : OutEvt) :
    (s.emit e).faults = s.faults := rfl
@[simp] theorem State.emit_dram (s : State) (e : OutEvt) :
    (s.emit e).dram = s.dram := rfl
@[simp] theorem State.emit_dramPoison (s : State) (e : OutEvt) :
    (s.emit e).dramPoison = s.dramPoison := rfl
@[simp] theorem State.emit_host (s : State) (e : OutEvt) :
    (s.emit e).host = s.host := rfl
@[simp] theorem State.emit_hostPoison (s : State) (e : OutEvt) :
    (s.emit e).hostPoison = s.hostPoison := rfl
@[simp] theorem State.emit_stackTab (s : State) (e : OutEvt) :
    (s.emit e).stackTab = s.stackTab := rfl
@[simp] theorem State.emit_links (s : State) (e : OutEvt) :
    (s.emit e).links = s.links := rfl
@[simp] theorem State.emit_arrivals (s : State) (e : OutEvt) :
    (s.emit e).arrivals = s.arrivals := rfl
@[simp] theorem State.emit_hostQ (s : State) (e : OutEvt) :
    (s.emit e).hostQ = s.hostQ := rfl
@[simp] theorem State.emit_recvs (s : State) (e : OutEvt) :
    (s.emit e).recvs = s.recvs := rfl
@[simp] theorem State.emit_forwards (s : State) (e : OutEvt) :
    (s.emit e).forwards = s.forwards := rfl
@[simp] theorem State.emit_out (s : State) (e : OutEvt) :
    (s.emit e).out = s.out ++ [e] := rfl

/-! foreign -/
@[simp] theorem State.foreign_clock (s : State) :
    (s.foreign).clock = s.clock := rfl
@[simp] theorem State.foreign_agenda (s : State) :
    (s.foreign).agenda = s.agenda := rfl
@[simp] theorem State.foreign_issuing (s : State) :
    (s.foreign).issuing = s.issuing := rfl
@[simp] theorem State.foreign_nextId (s : State) :
    (s.foreign).nextId = s.nextId := rfl
@[simp] theorem State.foreign_freeCtr (s : State) :
    (s.foreign).freeCtr = s.freeCtr := rfl
@[simp] theorem State.foreign_spent (s : State) :
    (s.foreign).spent = s.spent := rfl
@[simp] theorem State.foreign_pkg (s : State) :
    (s.foreign).pkg = { s.pkg with foreign := satInc s.pkg.foreign } := rfl
@[simp] theorem State.foreign_thermal (s : State) :
    (s.foreign).thermal = s.thermal := rfl
@[simp] theorem State.foreign_ctxs (s : State) :
    (s.foreign).ctxs = s.ctxs := rfl
@[simp] theorem State.foreign_queues (s : State) :
    (s.foreign).queues = s.queues := rfl
@[simp] theorem State.foreign_dies (s : State) :
    (s.foreign).dies = s.dies := rfl
@[simp] theorem State.foreign_grids (s : State) :
    (s.foreign).grids = s.grids := rfl
@[simp] theorem State.foreign_decs (s : State) :
    (s.foreign).decs = s.decs := rfl
@[simp] theorem State.foreign_launchQ (s : State) :
    (s.foreign).launchQ = s.launchQ := rfl
@[simp] theorem State.foreign_teams (s : State) :
    (s.foreign).teams = s.teams := rfl
@[simp] theorem State.foreign_cores (s : State) :
    (s.foreign).cores = s.cores := rfl
@[simp] theorem State.foreign_dirs (s : State) :
    (s.foreign).dirs = s.dirs := rfl
@[simp] theorem State.foreign_copies (s : State) :
    (s.foreign).copies = s.copies := rfl
@[simp] theorem State.foreign_net (s : State) :
    (s.foreign).net = s.net := rfl
@[simp] theorem State.foreign_outw (s : State) :
    (s.foreign).outw = s.outw := rfl
@[simp] theorem State.foreign_serials (s : State) :
    (s.foreign).serials = s.serials := rfl
@[simp] theorem State.foreign_walks (s : State) :
    (s.foreign).walks = s.walks := rfl
@[simp] theorem State.foreign_holds (s : State) :
    (s.foreign).holds = s.holds := rfl
@[simp] theorem State.foreign_faults (s : State) :
    (s.foreign).faults = s.faults := rfl
@[simp] theorem State.foreign_dram (s : State) :
    (s.foreign).dram = s.dram := rfl
@[simp] theorem State.foreign_dramPoison (s : State) :
    (s.foreign).dramPoison = s.dramPoison := rfl
@[simp] theorem State.foreign_host (s : State) :
    (s.foreign).host = s.host := rfl
@[simp] theorem State.foreign_hostPoison (s : State) :
    (s.foreign).hostPoison = s.hostPoison := rfl
@[simp] theorem State.foreign_stackTab (s : State) :
    (s.foreign).stackTab = s.stackTab := rfl
@[simp] theorem State.foreign_links (s : State) :
    (s.foreign).links = s.links := rfl
@[simp] theorem State.foreign_arrivals (s : State) :
    (s.foreign).arrivals = s.arrivals := rfl
@[simp] theorem State.foreign_hostQ (s : State) :
    (s.foreign).hostQ = s.hostQ := rfl
@[simp] theorem State.foreign_recvs (s : State) :
    (s.foreign).recvs = s.recvs := rfl
@[simp] theorem State.foreign_forwards (s : State) :
    (s.foreign).forwards = s.forwards := rfl
@[simp] theorem State.foreign_out (s : State) :
    (s.foreign).out = s.out := rfl

/-! count -/
@[simp] theorem State.count_clock (s : State) (d i n : Nat) :
    (s.count d i n).clock = s.clock := rfl
@[simp] theorem State.count_agenda (s : State) (d i n : Nat) :
    (s.count d i n).agenda = s.agenda := rfl
@[simp] theorem State.count_issuing (s : State) (d i n : Nat) :
    (s.count d i n).issuing = s.issuing := rfl
@[simp] theorem State.count_nextId (s : State) (d i n : Nat) :
    (s.count d i n).nextId = s.nextId := rfl
@[simp] theorem State.count_freeCtr (s : State) (d i n : Nat) :
    (s.count d i n).freeCtr = s.freeCtr := rfl
@[simp] theorem State.count_spent (s : State) (d i n : Nat) :
    (s.count d i n).spent = s.spent := rfl
@[simp] theorem State.count_pkg (s : State) (d i n : Nat) :
    (s.count d i n).pkg = s.pkg := rfl
@[simp] theorem State.count_thermal (s : State) (d i n : Nat) :
    (s.count d i n).thermal = s.thermal := rfl
@[simp] theorem State.count_ctxs (s : State) (d i n : Nat) :
    (s.count d i n).ctxs = s.ctxs := rfl
@[simp] theorem State.count_queues (s : State) (d i n : Nat) :
    (s.count d i n).queues = s.queues := rfl
@[simp] theorem State.count_dies (s : State) (d i n : Nat) :
    (s.count d i n).dies = (s.updDie d fun r => { r with cnt := Tab.set 0 r.cnt i (Tab.get 0 r.cnt i + BitVec.ofNat 48 n) }).dies := rfl
@[simp] theorem State.count_grids (s : State) (d i n : Nat) :
    (s.count d i n).grids = s.grids := rfl
@[simp] theorem State.count_decs (s : State) (d i n : Nat) :
    (s.count d i n).decs = s.decs := rfl
@[simp] theorem State.count_launchQ (s : State) (d i n : Nat) :
    (s.count d i n).launchQ = s.launchQ := rfl
@[simp] theorem State.count_teams (s : State) (d i n : Nat) :
    (s.count d i n).teams = s.teams := rfl
@[simp] theorem State.count_cores (s : State) (d i n : Nat) :
    (s.count d i n).cores = s.cores := rfl
@[simp] theorem State.count_dirs (s : State) (d i n : Nat) :
    (s.count d i n).dirs = s.dirs := rfl
@[simp] theorem State.count_copies (s : State) (d i n : Nat) :
    (s.count d i n).copies = s.copies := rfl
@[simp] theorem State.count_net (s : State) (d i n : Nat) :
    (s.count d i n).net = s.net := rfl
@[simp] theorem State.count_outw (s : State) (d i n : Nat) :
    (s.count d i n).outw = s.outw := rfl
@[simp] theorem State.count_serials (s : State) (d i n : Nat) :
    (s.count d i n).serials = s.serials := rfl
@[simp] theorem State.count_walks (s : State) (d i n : Nat) :
    (s.count d i n).walks = s.walks := rfl
@[simp] theorem State.count_holds (s : State) (d i n : Nat) :
    (s.count d i n).holds = s.holds := rfl
@[simp] theorem State.count_faults (s : State) (d i n : Nat) :
    (s.count d i n).faults = s.faults := rfl
@[simp] theorem State.count_dram (s : State) (d i n : Nat) :
    (s.count d i n).dram = s.dram := rfl
@[simp] theorem State.count_dramPoison (s : State) (d i n : Nat) :
    (s.count d i n).dramPoison = s.dramPoison := rfl
@[simp] theorem State.count_host (s : State) (d i n : Nat) :
    (s.count d i n).host = s.host := rfl
@[simp] theorem State.count_hostPoison (s : State) (d i n : Nat) :
    (s.count d i n).hostPoison = s.hostPoison := rfl
@[simp] theorem State.count_stackTab (s : State) (d i n : Nat) :
    (s.count d i n).stackTab = s.stackTab := rfl
@[simp] theorem State.count_links (s : State) (d i n : Nat) :
    (s.count d i n).links = s.links := rfl
@[simp] theorem State.count_arrivals (s : State) (d i n : Nat) :
    (s.count d i n).arrivals = s.arrivals := rfl
@[simp] theorem State.count_hostQ (s : State) (d i n : Nat) :
    (s.count d i n).hostQ = s.hostQ := rfl
@[simp] theorem State.count_recvs (s : State) (d i n : Nat) :
    (s.count d i n).recvs = s.recvs := rfl
@[simp] theorem State.count_forwards (s : State) (d i n : Nat) :
    (s.count d i n).forwards = s.forwards := rfl
@[simp] theorem State.count_out (s : State) (d i n : Nat) :
    (s.count d i n).out = s.out := rfl

/-! updPort and free -/
@[simp] theorem State.updPort_clock (s : State) (p : Port) (f : PortRec → PortRec) :
    (s.updPort p f).clock = s.clock := by cases p <;> rfl
@[simp] theorem State.updPort_agenda (s : State) (p : Port) (f : PortRec → PortRec) :
    (s.updPort p f).agenda = s.agenda := by cases p <;> rfl
@[simp] theorem State.updPort_issuing (s : State) (p : Port) (f : PortRec → PortRec) :
    (s.updPort p f).issuing = s.issuing := by cases p <;> rfl
@[simp] theorem State.updPort_nextId (s : State) (p : Port) (f : PortRec → PortRec) :
    (s.updPort p f).nextId = s.nextId := by cases p <;> rfl
@[simp] theorem State.updPort_freeCtr (s : State) (p : Port) (f : PortRec → PortRec) :
    (s.updPort p f).freeCtr = s.freeCtr := by cases p <;> rfl
@[simp] theorem State.updPort_spent (s : State) (p : Port) (f : PortRec → PortRec) :
    (s.updPort p f).spent = s.spent := by cases p <;> rfl
@[simp] theorem State.updPort_thermal (s : State) (p : Port) (f : PortRec → PortRec) :
    (s.updPort p f).thermal = s.thermal := by cases p <;> rfl
@[simp] theorem State.updPort_ctxs (s : State) (p : Port) (f : PortRec → PortRec) :
    (s.updPort p f).ctxs = s.ctxs := by cases p <;> rfl
@[simp] theorem State.updPort_queues (s : State) (p : Port) (f : PortRec → PortRec) :
    (s.updPort p f).queues = s.queues := by cases p <;> rfl
@[simp] theorem State.updPort_dies (s : State) (p : Port) (f : PortRec → PortRec) :
    (s.updPort p f).dies = s.dies := by cases p <;> rfl
@[simp] theorem State.updPort_grids (s : State) (p : Port) (f : PortRec → PortRec) :
    (s.updPort p f).grids = s.grids := by cases p <;> rfl
@[simp] theorem State.updPort_decs (s : State) (p : Port) (f : PortRec → PortRec) :
    (s.updPort p f).decs = s.decs := by cases p <;> rfl
@[simp] theorem State.updPort_launchQ (s : State) (p : Port) (f : PortRec → PortRec) :
    (s.updPort p f).launchQ = s.launchQ := by cases p <;> rfl
@[simp] theorem State.updPort_teams (s : State) (p : Port) (f : PortRec → PortRec) :
    (s.updPort p f).teams = s.teams := by cases p <;> rfl
@[simp] theorem State.updPort_cores (s : State) (p : Port) (f : PortRec → PortRec) :
    (s.updPort p f).cores = s.cores := by cases p <;> rfl
@[simp] theorem State.updPort_dirs (s : State) (p : Port) (f : PortRec → PortRec) :
    (s.updPort p f).dirs = s.dirs := by cases p <;> rfl
@[simp] theorem State.updPort_copies (s : State) (p : Port) (f : PortRec → PortRec) :
    (s.updPort p f).copies = s.copies := by cases p <;> rfl
@[simp] theorem State.updPort_net (s : State) (p : Port) (f : PortRec → PortRec) :
    (s.updPort p f).net = s.net := by cases p <;> rfl
@[simp] theorem State.updPort_outw (s : State) (p : Port) (f : PortRec → PortRec) :
    (s.updPort p f).outw = s.outw := by cases p <;> rfl
@[simp] theorem State.updPort_serials (s : State) (p : Port) (f : PortRec → PortRec) :
    (s.updPort p f).serials = s.serials := by cases p <;> rfl
@[simp] theorem State.updPort_walks (s : State) (p : Port) (f : PortRec → PortRec) :
    (s.updPort p f).walks = s.walks := by cases p <;> rfl
@[simp] theorem State.updPort_holds (s : State) (p : Port) (f : PortRec → PortRec) :
    (s.updPort p f).holds = s.holds := by cases p <;> rfl
@[simp] theorem State.updPort_faults (s : State) (p : Port) (f : PortRec → PortRec) :
    (s.updPort p f).faults = s.faults := by cases p <;> rfl
@[simp] theorem State.updPort_dram (s : State) (p : Port) (f : PortRec → PortRec) :
    (s.updPort p f).dram = s.dram := by cases p <;> rfl
@[simp] theorem State.updPort_dramPoison (s : State) (p : Port) (f : PortRec → PortRec) :
    (s.updPort p f).dramPoison = s.dramPoison := by cases p <;> rfl
@[simp] theorem State.updPort_host (s : State) (p : Port) (f : PortRec → PortRec) :
    (s.updPort p f).host = s.host := by cases p <;> rfl
@[simp] theorem State.updPort_hostPoison (s : State) (p : Port) (f : PortRec → PortRec) :
    (s.updPort p f).hostPoison = s.hostPoison := by cases p <;> rfl
@[simp] theorem State.updPort_stackTab (s : State) (p : Port) (f : PortRec → PortRec) :
    (s.updPort p f).stackTab = s.stackTab := by cases p <;> rfl
@[simp] theorem State.updPort_links (s : State) (p : Port) (f : PortRec → PortRec) :
    (s.updPort p f).links = s.links := by cases p <;> rfl
@[simp] theorem State.updPort_arrivals (s : State) (p : Port) (f : PortRec → PortRec) :
    (s.updPort p f).arrivals = s.arrivals := by cases p <;> rfl
@[simp] theorem State.updPort_hostQ (s : State) (p : Port) (f : PortRec → PortRec) :
    (s.updPort p f).hostQ = s.hostQ := by cases p <;> rfl
@[simp] theorem State.updPort_recvs (s : State) (p : Port) (f : PortRec → PortRec) :
    (s.updPort p f).recvs = s.recvs := by cases p <;> rfl
@[simp] theorem State.updPort_forwards (s : State) (p : Port) (f : PortRec → PortRec) :
    (s.updPort p f).forwards = s.forwards := by cases p <;> rfl
@[simp] theorem State.updPort_out (s : State) (p : Port) (f : PortRec → PortRec) :
    (s.updPort p f).out = s.out := by cases p <;> rfl
@[simp] theorem State.free_clock (s : State) : s.free.2.clock = s.clock := rfl
@[simp] theorem State.free_agenda (s : State) : s.free.2.agenda = s.agenda := rfl
@[simp] theorem State.free_issuing (s : State) : s.free.2.issuing = s.issuing := rfl
@[simp] theorem State.free_nextId (s : State) : s.free.2.nextId = s.nextId := rfl
@[simp] theorem State.free_freeCtr (s : State) : s.free.2.freeCtr = s.freeCtr + 1 := rfl
@[simp] theorem State.free_spent (s : State) : s.free.2.spent = s.spent := rfl
@[simp] theorem State.free_pkg (s : State) : s.free.2.pkg = s.pkg := rfl
@[simp] theorem State.free_thermal (s : State) : s.free.2.thermal = s.thermal := rfl
@[simp] theorem State.free_ctxs (s : State) : s.free.2.ctxs = s.ctxs := rfl
@[simp] theorem State.free_queues (s : State) : s.free.2.queues = s.queues := rfl
@[simp] theorem State.free_dies (s : State) : s.free.2.dies = s.dies := rfl
@[simp] theorem State.free_grids (s : State) : s.free.2.grids = s.grids := rfl
@[simp] theorem State.free_decs (s : State) : s.free.2.decs = s.decs := rfl
@[simp] theorem State.free_launchQ (s : State) : s.free.2.launchQ = s.launchQ := rfl
@[simp] theorem State.free_teams (s : State) : s.free.2.teams = s.teams := rfl
@[simp] theorem State.free_cores (s : State) : s.free.2.cores = s.cores := rfl
@[simp] theorem State.free_dirs (s : State) : s.free.2.dirs = s.dirs := rfl
@[simp] theorem State.free_copies (s : State) : s.free.2.copies = s.copies := rfl
@[simp] theorem State.free_net (s : State) : s.free.2.net = s.net := rfl
@[simp] theorem State.free_outw (s : State) : s.free.2.outw = s.outw := rfl
@[simp] theorem State.free_serials (s : State) : s.free.2.serials = s.serials := rfl
@[simp] theorem State.free_walks (s : State) : s.free.2.walks = s.walks := rfl
@[simp] theorem State.free_holds (s : State) : s.free.2.holds = s.holds := rfl
@[simp] theorem State.free_faults (s : State) : s.free.2.faults = s.faults := rfl
@[simp] theorem State.free_dram (s : State) : s.free.2.dram = s.dram := rfl
@[simp] theorem State.free_dramPoison (s : State) : s.free.2.dramPoison = s.dramPoison := rfl
@[simp] theorem State.free_host (s : State) : s.free.2.host = s.host := rfl
@[simp] theorem State.free_hostPoison (s : State) : s.free.2.hostPoison = s.hostPoison := rfl
@[simp] theorem State.free_stackTab (s : State) : s.free.2.stackTab = s.stackTab := rfl
@[simp] theorem State.free_links (s : State) : s.free.2.links = s.links := rfl
@[simp] theorem State.free_arrivals (s : State) : s.free.2.arrivals = s.arrivals := rfl
@[simp] theorem State.free_hostQ (s : State) : s.free.2.hostQ = s.hostQ := rfl
@[simp] theorem State.free_recvs (s : State) : s.free.2.recvs = s.recvs := rfl
@[simp] theorem State.free_forwards (s : State) : s.free.2.forwards = s.forwards := rfl
@[simp] theorem State.free_out (s : State) : s.free.2.out = s.out := rfl

/-! ### Readers of the maps -/

theorem State.ctx_setCtx (s : State) (c k : Nat) (r : CtxRec) : (s.setCtx c r).ctx k = if k = c then r else s.ctx k :=
  Tab.get_set _ _ _ _ _
theorem State.ctx_updCtx (s : State) (c k : Nat) (f : CtxRec → CtxRec) :
    (s.updCtx c f).ctx k = if k = c then f (s.ctx c) else s.ctx k := Tab.get_set _ _ _ _ _
@[simp] theorem State.ctx_updCtx_same (s : State) (c : Nat) (f : CtxRec → CtxRec) : (s.updCtx c f).ctx c = f (s.ctx c) := by
  simp [State.ctx_updCtx]
theorem State.die_updDie (s : State) (d k : Nat) (f : DieRec → DieRec) :
    (s.updDie d f).die k = if k = d then f (s.die d) else s.die k := Tab.get_set _ _ _ _ _
@[simp] theorem State.die_updDie_same (s : State) (d : Nat) (f : DieRec → DieRec) : (s.updDie d f).die d = f (s.die d) := by
  simp [State.die_updDie]
theorem State.core_updCore (s : State) (c k : Nat) (f : CoreRec → CoreRec) :
    (s.updCore c f).core k = if k = c then f (s.core c) else s.core k := Tab.get_set _ _ _ _ _
@[simp] theorem State.core_updCore_same (s : State) (c : Nat) (f : CoreRec → CoreRec) :
    (s.updCore c f).core c = f (s.core c) := by simp [State.core_updCore]
theorem State.queue_updQueue (s : State) (q k : Nat) (f : QueueRec → QueueRec) :
    (s.updQueue q f).queue k = if k = q then f (s.queue q) else s.queue k := Tab.get_set _ _ _ _ _
@[simp] theorem State.queue_updQueue_same (s : State) (q : Nat) (f : QueueRec → QueueRec) :
    (s.updQueue q f).queue q = f (s.queue q) := by simp [State.queue_updQueue]
theorem State.stack_updStack (s : State) (a k : Nat) (f : StackRec → StackRec) :
    (s.updStack a f).stack k = if k = a then f (s.stack a) else s.stack k := Tab.get_set _ _ _ _ _
theorem State.link_updLink (s : State) (a k : Nat) (f : LinkRec → LinkRec) :
    (s.updLink a f).link k = if k = a then f (s.link a) else s.link k := Tab.get_set _ _ _ _ _
theorem State.team_updTeam (s : State) (t k : Nat) (f : TeamRec → TeamRec) :
    (s.updTeam t f).team k = if k = t then (s.team t).map f else s.team k := Tab.find_upd _ _ _ _
@[simp] theorem State.team_updTeam_same (s : State) (t : Nat) (f : TeamRec → TeamRec) :
    (s.updTeam t f).team t = (s.team t).map f := by simp [State.team_updTeam]
theorem State.team_updTeam_ne (s : State) {t k : Nat} (f : TeamRec → TeamRec) (h : k ≠ t) : (s.updTeam t f).team k = s.team k := by
  simp [State.team_updTeam, h]
theorem State.grid_updGrid (s : State) (t k : Nat) (f : GridRec → GridRec) :
    (s.updGrid t f).grid k = if k = t then (s.grid t).map f else s.grid k := Tab.find_upd _ _ _ _

/-- A group after its change, and every other group as before. -/
@[simp] theorem State.group_updGroup_same (s : State) (t g : Nat) (f : Group → Group) :
    (s.updGroup t g f).group t g = (s.group t g).map f := by
  simp only [State.group, State.updGroup, State.team_updTeam_same]
  cases s.team t <;> simp [Tab.find_upd_same]
theorem State.group_updGroup_ne (s : State) {t g u k : Nat} (f : Group → Group) (h : u ≠ t ∨ k ≠ g) :
    (s.updGroup t g f).group u k = s.group u k := by
  simp only [State.group, State.updGroup]
  by_cases hu : u = t
  · subst hu
    have hk : k ≠ g := by simpa using h
    rw [State.team_updTeam_same]
    cases s.team u <;> simp [Tab.find_upd_ne _ _ hk]
  · rw [State.team_updTeam_ne _ _ hu]

/-! ### Lanes -/

@[simp] theorem Lane.setReg_lpc (l : Lane) (n : Nat) (w : RWord) : (l.setReg n w).lpc = l.lpc := rfl
@[simp] theorem Lane.setReg_live (l : Lane) (n : Nat) (w : RWord) : (l.setReg n w).live = l.live := rfl
@[simp] theorem Lane.setReg_pass (l : Lane) (n : Nat) (w : RWord) : (l.setReg n w).pass = l.pass := rfl
@[simp] theorem Lane.setReg_regs (l : Lane) (n : Nat) (w : RWord) : (l.setReg n w).regs = Tab.set RWord.zero l.regs n w := rfl
@[simp] theorem Lane.setReg_preds (l : Lane) (n : Nat) (w : RWord) : (l.setReg n w).preds = l.preds := rfl
@[simp] theorem Lane.setReg_relay (l : Lane) (n : Nat) (w : RWord) : (l.setReg n w).relay = l.relay := rfl
@[simp] theorem Lane.setReg_slots (l : Lane) (n : Nat) (w : RWord) : (l.setReg n w).slots = l.slots := rfl
@[simp] theorem Lane.setReg_tx (l : Lane) (n : Nat) (w : RWord) : (l.setReg n w).tx = l.tx := rfl
@[simp] theorem Lane.push_lpc (l : Lane) (e : RelayEnt) : (l.push e).lpc = l.lpc := rfl
@[simp] theorem Lane.push_live (l : Lane) (e : RelayEnt) : (l.push e).live = l.live := rfl
@[simp] theorem Lane.push_pass (l : Lane) (e : RelayEnt) : (l.push e).pass = l.pass := rfl
@[simp] theorem Lane.push_regs (l : Lane) (e : RelayEnt) : (l.push e).regs = l.regs := rfl
@[simp] theorem Lane.push_preds (l : Lane) (e : RelayEnt) : (l.push e).preds = l.preds := rfl
@[simp] theorem Lane.push_relay (l : Lane) (e : RelayEnt) : (l.push e).relay = (e :: l.relay).take 8 := rfl
@[simp] theorem Lane.push_slots (l : Lane) (e : RelayEnt) : (l.push e).slots = l.slots := rfl
@[simp] theorem Lane.push_tx (l : Lane) (e : RelayEnt) : (l.push e).tx = l.tx := rfl
@[simp] theorem Lane.drop_lpc (l : Lane) : (l.drop).lpc = l.lpc := rfl
@[simp] theorem Lane.drop_live (l : Lane) : (l.drop).live = l.live := rfl
@[simp] theorem Lane.drop_pass (l : Lane) : (l.drop).pass = l.pass := rfl
@[simp] theorem Lane.drop_regs (l : Lane) : (l.drop).regs = l.regs := rfl
@[simp] theorem Lane.drop_preds (l : Lane) : (l.drop).preds = l.preds := rfl
@[simp] theorem Lane.drop_relay (l : Lane) : (l.drop).relay = [] := rfl
@[simp] theorem Lane.drop_slots (l : Lane) : (l.drop).slots = l.slots := rfl
@[simp] theorem Lane.drop_tx (l : Lane) : (l.drop).tx = l.tx := rfl
@[simp] theorem Lane.setPred_lpc (l : Lane) (n : Nat) (b : Bool) : (l.setPred n b).lpc = l.lpc := by
  unfold Lane.setPred; split <;> rfl
@[simp] theorem Lane.setPred_live (l : Lane) (n : Nat) (b : Bool) : (l.setPred n b).live = l.live := by
  unfold Lane.setPred; split <;> rfl
@[simp] theorem Lane.setPred_pass (l : Lane) (n : Nat) (b : Bool) : (l.setPred n b).pass = l.pass := by
  unfold Lane.setPred; split <;> rfl
@[simp] theorem Lane.setPred_regs (l : Lane) (n : Nat) (b : Bool) : (l.setPred n b).regs = l.regs := by
  unfold Lane.setPred; split <;> rfl
@[simp] theorem Lane.setPred_relay (l : Lane) (n : Nat) (b : Bool) : (l.setPred n b).relay = l.relay := by
  unfold Lane.setPred; split <;> rfl
@[simp] theorem Lane.setPred_slots (l : Lane) (n : Nat) (b : Bool) : (l.setPred n b).slots = l.slots := by
  unfold Lane.setPred; split <;> rfl
@[simp] theorem Lane.setPred_tx (l : Lane) (n : Nat) (b : Bool) : (l.setPred n b).tx = l.tx := by
  unfold Lane.setPred; split <;> rfl
@[simp] theorem Lane.setRegs_lpc (l : Lane) (n : Nat) (ws : List RWord) : (l.setRegs n ws).lpc = l.lpc := by
  induction ws generalizing l n with
  | nil => rfl
  | cons w ws ih => simp [Lane.setRegs, ih]
@[simp] theorem Lane.setRegs_live (l : Lane) (n : Nat) (ws : List RWord) : (l.setRegs n ws).live = l.live := by
  induction ws generalizing l n with
  | nil => rfl
  | cons w ws ih => simp [Lane.setRegs, ih]
@[simp] theorem Lane.setRegs_pass (l : Lane) (n : Nat) (ws : List RWord) : (l.setRegs n ws).pass = l.pass := by
  induction ws generalizing l n with
  | nil => rfl
  | cons w ws ih => simp [Lane.setRegs, ih]
@[simp] theorem Lane.setRegs_preds (l : Lane) (n : Nat) (ws : List RWord) : (l.setRegs n ws).preds = l.preds := by
  induction ws generalizing l n with
  | nil => rfl
  | cons w ws ih => simp [Lane.setRegs, ih]
@[simp] theorem Lane.setRegs_relay (l : Lane) (n : Nat) (ws : List RWord) : (l.setRegs n ws).relay = l.relay := by
  induction ws generalizing l n with
  | nil => rfl
  | cons w ws ih => simp [Lane.setRegs, ih]
@[simp] theorem Lane.setRegs_slots (l : Lane) (n : Nat) (ws : List RWord) : (l.setRegs n ws).slots = l.slots := by
  induction ws generalizing l n with
  | nil => rfl
  | cons w ws ih => simp [Lane.setRegs, ih]
@[simp] theorem Lane.setRegs_tx (l : Lane) (n : Nat) (ws : List RWord) : (l.setRegs n ws).tx = l.tx := by
  induction ws generalizing l n with
  | nil => rfl
  | cons w ws ih => simp [Lane.setRegs, ih]

/-! ### Groups -/

@[simp] theorem Group.setG_role (g : Group) (n : Nat) (w : RWord) : (g.setG n w).role = g.role := rfl
@[simp] theorem Group.setG_part (g : Group) (n : Nat) (w : RWord) : (g.setG n w).part = g.part := rfl
@[simp] theorem Group.setG_order (g : Group) (n : Nat) (w : RWord) : (g.setG n w).order = g.order := rfl
@[simp] theorem Group.setG_lanes (g : Group) (n : Nat) (w : RWord) : (g.setG n w).lanes = g.lanes := rfl
@[simp] theorem Group.setG_gregs (g : Group) (n : Nat) (w : RWord) : (g.setG n w).gregs = Tab.set RWord.zero g.gregs n w := rfl
@[simp] theorem Group.setG_nctl (g : Group) (n : Nat) (w : RWord) : (g.setG n w).nctl = g.nctl := rfl
@[simp] theorem Group.setG_stalls (g : Group) (n : Nat) (w : RWord) : (g.setG n w).stalls = g.stalls := rfl
@[simp] theorem Group.setG_latch (g : Group) (n : Nat) (w : RWord) : (g.setG n w).latch = g.latch := rfl
@[simp] theorem Group.setG_dist (g : Group) (n : Nat) (w : RWord) : (g.setG n w).dist = g.dist := rfl
@[simp] theorem Group.setG_notBefore (g : Group) (n : Nat) (w : RWord) : (g.setG n w).notBefore = g.notBefore := rfl
@[simp] theorem Group.setG_prods (g : Group) (n : Nat) (w : RWord) : (g.setG n w).prods = g.prods := rfl
@[simp] theorem Group.setG_storeQ (g : Group) (n : Nat) (w : RWord) : (g.setG n w).storeQ = g.storeQ := rfl
@[simp] theorem Group.setG_loads (g : Group) (n : Nat) (w : RWord) : (g.setG n w).loads = g.loads := rfl
@[simp] theorem Group.setG_atoms (g : Group) (n : Nat) (w : RWord) : (g.setG n w).atoms = g.atoms := rfl
@[simp] theorem Group.setG_fences (g : Group) (n : Nat) (w : RWord) : (g.setG n w).fences = g.fences := rfl
@[simp] theorem Group.setG_arrivals (g : Group) (n : Nat) (w : RWord) : (g.setG n w).arrivals = g.arrivals := rfl
@[simp] theorem Group.setG_wait (g : Group) (n : Nat) (w : RWord) : (g.setG n w).wait = g.wait := rfl
@[simp] theorem Group.setG_held (g : Group) (n : Nat) (w : RWord) : (g.setG n w).held = g.held := rfl
@[simp] theorem Group.setG_yield (g : Group) (n : Nat) (w : RWord) : (g.setG n w).yield = g.yield := rfl
@[simp] theorem Group.setG_readySince (g : Group) (n : Nat) (w : RWord) : (g.setG n w).readySince = g.readySince := rfl
@[simp] theorem Group.updLane_role (g : Group) (i : Nat) (f : Lane → Lane) : (g.updLane i f).role = g.role := rfl
@[simp] theorem Group.updLane_part (g : Group) (i : Nat) (f : Lane → Lane) : (g.updLane i f).part = g.part := rfl
@[simp] theorem Group.updLane_order (g : Group) (i : Nat) (f : Lane → Lane) : (g.updLane i f).order = g.order := rfl
@[simp] theorem Group.updLane_lanes (g : Group) (i : Nat) (f : Lane → Lane) : (g.updLane i f).lanes = listUpd g.lanes i f := rfl
@[simp] theorem Group.updLane_gregs (g : Group) (i : Nat) (f : Lane → Lane) : (g.updLane i f).gregs = g.gregs := rfl
@[simp] theorem Group.updLane_nctl (g : Group) (i : Nat) (f : Lane → Lane) : (g.updLane i f).nctl = g.nctl := rfl
@[simp] theorem Group.updLane_stalls (g : Group) (i : Nat) (f : Lane → Lane) : (g.updLane i f).stalls = g.stalls := rfl
@[simp] theorem Group.updLane_latch (g : Group) (i : Nat) (f : Lane → Lane) : (g.updLane i f).latch = g.latch := rfl
@[simp] theorem Group.updLane_dist (g : Group) (i : Nat) (f : Lane → Lane) : (g.updLane i f).dist = g.dist := rfl
@[simp] theorem Group.updLane_notBefore (g : Group) (i : Nat) (f : Lane → Lane) : (g.updLane i f).notBefore = g.notBefore := rfl
@[simp] theorem Group.updLane_prods (g : Group) (i : Nat) (f : Lane → Lane) : (g.updLane i f).prods = g.prods := rfl
@[simp] theorem Group.updLane_storeQ (g : Group) (i : Nat) (f : Lane → Lane) : (g.updLane i f).storeQ = g.storeQ := rfl
@[simp] theorem Group.updLane_loads (g : Group) (i : Nat) (f : Lane → Lane) : (g.updLane i f).loads = g.loads := rfl
@[simp] theorem Group.updLane_atoms (g : Group) (i : Nat) (f : Lane → Lane) : (g.updLane i f).atoms = g.atoms := rfl
@[simp] theorem Group.updLane_fences (g : Group) (i : Nat) (f : Lane → Lane) : (g.updLane i f).fences = g.fences := rfl
@[simp] theorem Group.updLane_arrivals (g : Group) (i : Nat) (f : Lane → Lane) : (g.updLane i f).arrivals = g.arrivals := rfl
@[simp] theorem Group.updLane_wait (g : Group) (i : Nat) (f : Lane → Lane) : (g.updLane i f).wait = g.wait := rfl
@[simp] theorem Group.updLane_held (g : Group) (i : Nat) (f : Lane → Lane) : (g.updLane i f).held = g.held := rfl
@[simp] theorem Group.updLane_yield (g : Group) (i : Nat) (f : Lane → Lane) : (g.updLane i f).yield = g.yield := rfl
@[simp] theorem Group.updLane_readySince (g : Group) (i : Nat) (f : Lane → Lane) : (g.updLane i f).readySince = g.readySince := rfl
@[simp] theorem Group.mapLanes_role (g : Group) (f : Nat → Lane → Lane) : (g.mapLanes f).role = g.role := rfl
@[simp] theorem Group.mapLanes_part (g : Group) (f : Nat → Lane → Lane) : (g.mapLanes f).part = g.part := rfl
@[simp] theorem Group.mapLanes_order (g : Group) (f : Nat → Lane → Lane) : (g.mapLanes f).order = g.order := rfl
@[simp] theorem Group.mapLanes_lanes (g : Group) (f : Nat → Lane → Lane) : (g.mapLanes f).lanes = g.lanes.mapIdx f := rfl
@[simp] theorem Group.mapLanes_gregs (g : Group) (f : Nat → Lane → Lane) : (g.mapLanes f).gregs = g.gregs := rfl
@[simp] theorem Group.mapLanes_nctl (g : Group) (f : Nat → Lane → Lane) : (g.mapLanes f).nctl = g.nctl := rfl
@[simp] theorem Group.mapLanes_stalls (g : Group) (f : Nat → Lane → Lane) : (g.mapLanes f).stalls = g.stalls := rfl
@[simp] theorem Group.mapLanes_latch (g : Group) (f : Nat → Lane → Lane) : (g.mapLanes f).latch = g.latch := rfl
@[simp] theorem Group.mapLanes_dist (g : Group) (f : Nat → Lane → Lane) : (g.mapLanes f).dist = g.dist := rfl
@[simp] theorem Group.mapLanes_notBefore (g : Group) (f : Nat → Lane → Lane) : (g.mapLanes f).notBefore = g.notBefore := rfl
@[simp] theorem Group.mapLanes_prods (g : Group) (f : Nat → Lane → Lane) : (g.mapLanes f).prods = g.prods := rfl
@[simp] theorem Group.mapLanes_storeQ (g : Group) (f : Nat → Lane → Lane) : (g.mapLanes f).storeQ = g.storeQ := rfl
@[simp] theorem Group.mapLanes_loads (g : Group) (f : Nat → Lane → Lane) : (g.mapLanes f).loads = g.loads := rfl
@[simp] theorem Group.mapLanes_atoms (g : Group) (f : Nat → Lane → Lane) : (g.mapLanes f).atoms = g.atoms := rfl
@[simp] theorem Group.mapLanes_fences (g : Group) (f : Nat → Lane → Lane) : (g.mapLanes f).fences = g.fences := rfl
@[simp] theorem Group.mapLanes_arrivals (g : Group) (f : Nat → Lane → Lane) : (g.mapLanes f).arrivals = g.arrivals := rfl
@[simp] theorem Group.mapLanes_wait (g : Group) (f : Nat → Lane → Lane) : (g.mapLanes f).wait = g.wait := rfl
@[simp] theorem Group.mapLanes_held (g : Group) (f : Nat → Lane → Lane) : (g.mapLanes f).held = g.held := rfl
@[simp] theorem Group.mapLanes_yield (g : Group) (f : Nat → Lane → Lane) : (g.mapLanes f).yield = g.yield := rfl
@[simp] theorem Group.mapLanes_readySince (g : Group) (f : Nat → Lane → Lane) : (g.mapLanes f).readySince = g.readySince := rfl
@[simp] theorem Group.setGs_role (g : Group) (n : Nat) (ws : List RWord) : (g.setGs n ws).role = g.role := by
  induction ws generalizing g n with
  | nil => rfl
  | cons w ws ih => simp [Group.setGs, ih]
@[simp] theorem Group.setGs_part (g : Group) (n : Nat) (ws : List RWord) : (g.setGs n ws).part = g.part := by
  induction ws generalizing g n with
  | nil => rfl
  | cons w ws ih => simp [Group.setGs, ih]
@[simp] theorem Group.setGs_order (g : Group) (n : Nat) (ws : List RWord) : (g.setGs n ws).order = g.order := by
  induction ws generalizing g n with
  | nil => rfl
  | cons w ws ih => simp [Group.setGs, ih]
@[simp] theorem Group.setGs_lanes (g : Group) (n : Nat) (ws : List RWord) : (g.setGs n ws).lanes = g.lanes := by
  induction ws generalizing g n with
  | nil => rfl
  | cons w ws ih => simp [Group.setGs, ih]
@[simp] theorem Group.setGs_nctl (g : Group) (n : Nat) (ws : List RWord) : (g.setGs n ws).nctl = g.nctl := by
  induction ws generalizing g n with
  | nil => rfl
  | cons w ws ih => simp [Group.setGs, ih]
@[simp] theorem Group.setGs_stalls (g : Group) (n : Nat) (ws : List RWord) : (g.setGs n ws).stalls = g.stalls := by
  induction ws generalizing g n with
  | nil => rfl
  | cons w ws ih => simp [Group.setGs, ih]
@[simp] theorem Group.setGs_latch (g : Group) (n : Nat) (ws : List RWord) : (g.setGs n ws).latch = g.latch := by
  induction ws generalizing g n with
  | nil => rfl
  | cons w ws ih => simp [Group.setGs, ih]
@[simp] theorem Group.setGs_dist (g : Group) (n : Nat) (ws : List RWord) : (g.setGs n ws).dist = g.dist := by
  induction ws generalizing g n with
  | nil => rfl
  | cons w ws ih => simp [Group.setGs, ih]
@[simp] theorem Group.setGs_notBefore (g : Group) (n : Nat) (ws : List RWord) : (g.setGs n ws).notBefore = g.notBefore := by
  induction ws generalizing g n with
  | nil => rfl
  | cons w ws ih => simp [Group.setGs, ih]
@[simp] theorem Group.setGs_prods (g : Group) (n : Nat) (ws : List RWord) : (g.setGs n ws).prods = g.prods := by
  induction ws generalizing g n with
  | nil => rfl
  | cons w ws ih => simp [Group.setGs, ih]
@[simp] theorem Group.setGs_storeQ (g : Group) (n : Nat) (ws : List RWord) : (g.setGs n ws).storeQ = g.storeQ := by
  induction ws generalizing g n with
  | nil => rfl
  | cons w ws ih => simp [Group.setGs, ih]
@[simp] theorem Group.setGs_loads (g : Group) (n : Nat) (ws : List RWord) : (g.setGs n ws).loads = g.loads := by
  induction ws generalizing g n with
  | nil => rfl
  | cons w ws ih => simp [Group.setGs, ih]
@[simp] theorem Group.setGs_atoms (g : Group) (n : Nat) (ws : List RWord) : (g.setGs n ws).atoms = g.atoms := by
  induction ws generalizing g n with
  | nil => rfl
  | cons w ws ih => simp [Group.setGs, ih]
@[simp] theorem Group.setGs_fences (g : Group) (n : Nat) (ws : List RWord) : (g.setGs n ws).fences = g.fences := by
  induction ws generalizing g n with
  | nil => rfl
  | cons w ws ih => simp [Group.setGs, ih]
@[simp] theorem Group.setGs_arrivals (g : Group) (n : Nat) (ws : List RWord) : (g.setGs n ws).arrivals = g.arrivals := by
  induction ws generalizing g n with
  | nil => rfl
  | cons w ws ih => simp [Group.setGs, ih]
@[simp] theorem Group.setGs_wait (g : Group) (n : Nat) (ws : List RWord) : (g.setGs n ws).wait = g.wait := by
  induction ws generalizing g n with
  | nil => rfl
  | cons w ws ih => simp [Group.setGs, ih]
@[simp] theorem Group.setGs_held (g : Group) (n : Nat) (ws : List RWord) : (g.setGs n ws).held = g.held := by
  induction ws generalizing g n with
  | nil => rfl
  | cons w ws ih => simp [Group.setGs, ih]
@[simp] theorem Group.setGs_yield (g : Group) (n : Nat) (ws : List RWord) : (g.setGs n ws).yield = g.yield := by
  induction ws generalizing g n with
  | nil => rfl
  | cons w ws ih => simp [Group.setGs, ih]
@[simp] theorem Group.setGs_readySince (g : Group) (n : Nat) (ws : List RWord) : (g.setGs n ws).readySince = g.readySince := by
  induction ws generalizing g n with
  | nil => rfl
  | cons w ws ih => simp [Group.setGs, ih]

end Sys2Proof.Machine
end

