-- ==== Sys2Proof/Laws/Issue.lean ====
section
/-! SUPPORT. What an issue can do, said once: what `State.begin` answers, what a commit and an advance leave, and the result of an
instruction that only writes its destination. -/

namespace Sys2Proof.Machine

/-! ### Finding the group -/

/-- Where a group issues, its team and its record are those of the context. -/
theorem State.ix_team {s : State} {f : Form} {x : Ix} (h : s.ix f = some x) :
    s.teams.find x.t = some x.team ∧ x.team.groups.find x.g = some x.grp := by
  unfold State.ix at h
  split at h
  · cases h
  · split at h
    · cases h
    · split at h
      · cases h
      · split at h
        · cases h
        · rename_i _ r _ tm ht _ gr hg _ a _
          simp only [Option.some.injEq] at h
          subst h
          exact ⟨ht, hg⟩

/-- The issue address is the group's, and the lanes are those at it, of which those whose guard holds execute (R250, R32). -/
theorem State.ix_lanes {s : State} {f : Form} {x : Ix} (h : s.ix f = some x) :
    x.grp.issueAddr = some x.pc ∧ x.at_ = x.grp.lanesAt x.pc ∧ x.ex = x.grp.guarded x.at_ f.gp f.gn := by
  unfold State.ix at h
  split at h
  · cases h
  · split at h
    · cases h
    · split at h
      · cases h
      · split at h
        · cases h
        · rename_i _ r _ tm ht _ gr hg _ a ha
          simp only [Option.some.injEq] at h
          subst h
          exact ⟨ha, rfl, rfl⟩

theorem Ix.ex_sub {s : State} {f : Form} {x : Ix} (h : s.ix f = some x) {i : Nat} (hi : i ∈ x.ex) : i ∈ x.at_ := by
  rw [(State.ix_lanes h).2.2] at hi
  exact (List.mem_filter.mp hi).1

theorem Ix.at_lt {s : State} {f : Form} {x : Ix} (h : s.ix f = some x) {i : Nat} (hi : i ∈ x.at_) :
    i < 32 ∧ (x.grp.lane i).counts = true ∧ (x.grp.lane i).lpc = x.pc := by
  rw [(State.ix_lanes h).2.1] at hi
  have := List.mem_filter.mp hi
  simp at this
  exact ⟨this.1, this.2.1, this.2.2⟩

/-- A lane that counts is a lane of the group. -/
theorem Group.counts_lt {g : Group} {i : Nat} (h : (g.lane i).counts = true) : i < g.lanes.length := by
  by_cases hn : i < g.lanes.length
  · exact hn
  · have : g.lane i = Lane.none := by simp [Group.lane, List.getD, List.getElem?_eq_none (Nat.le_of_not_lt hn)]
    simp [this, Lane.counts, Lane.none] at h

/-! ### The checks of R46 -/

theorem State.begin_ok {s : State} {f : Form} {x : Ix} (h : Admits f s x) : s.begin f = .ok x := by
  have hr : (f.uses.find? fun u => u.relayFails x.grp x.ex != []) = none := by
    rw [List.find?_eq_none]; intro u hu; simp [h.relays u hu]
  unfold State.begin
  simp only [h.here, h.names]
  cases hs : x.grp.strict
  · simp [hr]
  · cases hl : f.loose
    · simp [h.timely hs hl, hr]
    · simp [hr]

/-- A register name that R30 rejects. -/
theorem State.begin_illreg {s : State} {f : Form} {x : Ix} {d : Nat} (h : s.ix f = some x)
    (hd : f.illreg (x.team.alloc x.grp) = some d) : s.begin f = .error (s.raise x.t x.g tILLREG d x.pc 0 0) := by
  simp [State.begin, h, hd]

/-- A result read too early under STRICT, but by a tile instruction (R154). -/
theorem State.begin_stallchk {s : State} {f : Form} {x : Ix} {c : Nat} (h : s.ix f = some x)
    (hn : f.illreg (x.team.alloc x.grp) = none) (hs : x.grp.strict = true) (hl : f.loose = false)
    (hc : f.shortfall x.grp x.at_ = some c) : s.begin f = .error (s.raise x.t x.g tSTALLCHK c x.pc 0 0) := by
  simp [State.begin, h, hn, hs, hl, hc]

/-- A relay source that is empty or of another class. -/
theorem State.begin_relay {s : State} {f : Form} {x : Ix} {u : Use} (h : s.ix f = some x)
    (hn : f.illreg (x.team.alloc x.grp) = none) (hs : x.grp.strict = true → f.loose = false → f.shortfall x.grp x.at_ = none)
    (hu : (f.uses.find? fun u => u.relayFails x.grp x.ex != []) = some u) :
    s.begin f = .error
      (s.raise x.t x.g tILLREG (u.src.code + 256 * u.fld + 2048) x.pc (maskOf (u.relayFails x.grp x.ex)) 0) := by
  unfold State.begin
  simp only [h, hn]
  cases hs' : x.grp.strict
  · simp [hu]
  · cases hl : f.loose
    · simp [hs hs' hl, hu]
    · simp [hu]

/-! ### Lanes and registers -/

theorem Lane.reg_setReg (l : Lane) (n k : Nat) (w : RWord) : (l.setReg n w).reg k = if k = n then w else l.reg k :=
  Tab.get_set _ _ _ _ _

/-- A lane with words written from `n` on reads them there, and every other word as before. -/
theorem Lane.reg_setRegs (l : Lane) (n k : Nat) (ws : List RWord) :
    (l.setRegs n ws).reg k = if n ≤ k ∧ k < n + ws.length then ws.getD (k - n) RWord.zero else l.reg k := by
  induction ws generalizing l n with
  | nil => have : ¬(n ≤ k ∧ k < n + 0) := by omega
           rw [Lane.setRegs, List.length_nil, if_neg this]
  | cons w ws ih =>
    simp only [Lane.setRegs, ih, List.length_cons, Lane.reg_setReg]
    by_cases h1 : k = n
    · subst h1
      have h2 : ¬ (k + 1 ≤ k) := by omega
      simp [h2]
    · by_cases h2 : n + 1 ≤ k ∧ k < n + 1 + ws.length
      · have h3 : n ≤ k ∧ k < n + (ws.length + 1) := by omega
        have h4 : k - n = (k - (n + 1)) + 1 := by omega
        simp [h2, h3, h4]
      · have h3 : ¬ (n ≤ k ∧ k < n + (ws.length + 1)) := by omega
        rw [if_neg h1, if_neg h2, if_neg h3]

theorem Group.greg_setG (g : Group) (n k : Nat) (w : RWord) : (g.setG n w).greg k = if k = n then w else g.greg k :=
  Tab.get_set _ _ _ _ _

/-- The same for scalar words. -/
theorem Group.greg_setGs (g : Group) (n k : Nat) (ws : List RWord) :
    (g.setGs n ws).greg k = if n ≤ k ∧ k < n + ws.length then ws.getD (k - n) RWord.zero else g.greg k := by
  induction ws generalizing g n with
  | nil => have : ¬(n ≤ k ∧ k < n + 0) := by omega
           rw [Group.setGs, List.length_nil, if_neg this]
  | cons w ws ih =>
    simp only [Group.setGs, ih, List.length_cons, Group.greg_setG]
    by_cases h1 : k = n
    · subst h1
      have h2 : ¬ (k + 1 ≤ k) := by omega
      simp [h2]
    · by_cases h2 : n + 1 ≤ k ∧ k < n + 1 + ws.length
      · have h3 : n ≤ k ∧ k < n + (ws.length + 1) := by omega
        have h4 : k - n = (k - (n + 1)) + 1 := by omega
        simp [h2, h3, h4]
      · have h3 : ¬ (n ≤ k ∧ k < n + (ws.length + 1)) := by omega
        rw [if_neg h1, if_neg h2, if_neg h3]

/-- A predicate after a write (R28). -/
theorem Lane.pred_setPred (l : Lane) (n k : Nat) (b : Bool) :
    (l.setPred n b).pred k = if k = n ∧ k < 7 then b else l.pred k := by
  unfold Lane.setPred Lane.pred
  by_cases hn : 7 ≤ n
  · have : ¬(k = n ∧ k < 7) := by omega
    simp [hn, this]
  · have hn' : n < 7 := by omega
    simp only [hn, if_false]
    by_cases hk : k < 7
    · have h7 : (k == 7) = false := by simp; omega
      simp only [h7, Bool.false_or]
      have hp : ∀ a b : Fin 7, (BitVec.ofNat 7 (2 ^ a.val)).getLsbD b.val = decide (b = a) := by decide
      have hb : (BitVec.ofNat 7 (2 ^ n)).getLsbD k = decide (k = n) := by
        have := hp ⟨n, hn'⟩ ⟨k, hk⟩
        simpa [Fin.ext_iff] using this
      by_cases h : k = n
      · subst h
        have hs : decide (k = k) = true := by simp
        rw [hs] at hb
        cases b <;> simp only [if_true, if_false, Bool.false_eq_true, true_and, hk, BitVec.getLsbD_or, BitVec.getLsbD_and,
          BitVec.getLsbD_not, hb, Bool.or_true, Bool.not_true, Bool.and_false]
      · have hf : decide (k = n) = false := by simp [h]
        rw [hf] at hb
        cases b <;> simp only [if_true, if_false, Bool.false_eq_true, h, false_and, BitVec.getLsbD_or, BitVec.getLsbD_and,
          BitVec.getLsbD_not, hb] <;> simp [hk]
    · have h1 : ¬(k = n ∧ k < 7) := by omega
      have h2 : ∀ v : BitVec 7, v.getLsbD k = false := fun v => BitVec.getLsbD_of_ge v k (by omega)
      simp only [h1, if_false, h2]

/-! ### A commit and an advance -/

theorem Group.lane_mapLanes (g : Group) (f : Nat → Lane → Lane) {i : Nat} (h : i < g.lanes.length) :
    (g.mapLanes f).lane i = f i (g.lane i) := by
  simp [Group.lane, Group.mapLanes, List.getD, List.getElem?_mapIdx, List.getElem?_eq_getElem h]

theorem Group.lane_mapLanes_ge (g : Group) (f : Nat → Lane → Lane) {i : Nat} (h : ¬ i < g.lanes.length) :
    (g.mapLanes f).lane i = Lane.none ∧ g.lane i = Lane.none := by
  have h' : g.lanes.length ≤ i := Nat.le_of_not_lt h
  constructor
  · have : (g.mapLanes f).lanes.length ≤ i := by simpa using h'
    simp only [Group.lane, List.getD, List.getElem?_eq_none this, Option.getD_none]
  · simp [Group.lane, List.getD, List.getElem?_eq_none h']

/-- What `commit` makes of a lane that executes. -/
theorem Lane.commit_spec (l : Lane) (d : Dest) (f : Form) (born cyc : Nat) (ws : List Word) :
    (l.commit d f born cyc ws).live = l.live ∧ (l.commit d f born cyc ws).tx = l.tx ∧
    (l.commit d f born cyc ws).lpc = l.lpc ∧ (l.commit d f born cyc ws).pass = l.pass ∧
    (l.commit d f born cyc ws).slots = l.slots ∧
    (∀ n, (l.commit d f born cyc ws).reg n = d.laneWord ws n (l.reg n)) ∧
    (∀ n, (l.commit d f born cyc ws).pred n = d.lanePred ws n (l.pred n)) ∧
    (l.commit d f born cyc ws).relay = d.relayAfter f born cyc ws l.relay := by
  cases d with
  | none => simp [Lane.commit, Dest.laneWord, Dest.lanePred, Dest.relayAfter]
  | scalar n sh => simp [Lane.commit, Dest.laneWord, Dest.lanePred, Dest.relayAfter]
  | pred k =>
    refine ⟨by simp [Lane.commit], by simp [Lane.commit], by simp [Lane.commit], by simp [Lane.commit], by simp [Lane.commit],
      fun n => by simp [Lane.commit, Dest.laneWord, Lane.reg], fun n => ?_, by simp [Lane.commit, Dest.relayAfter]⟩
    simp [Lane.commit, Dest.lanePred, Lane.pred_setPred]
  | lane r sh =>
    cases r with
    | z => simp [Lane.commit, Dest.laneWord, Dest.lanePred, Dest.relayAfter, Lane.reg, Lane.pred, Lane.push]
    | v k =>
      refine ⟨by simp [Lane.commit], by simp [Lane.commit], by simp [Lane.commit], by simp [Lane.commit], by simp [Lane.commit],
        fun n => ?_, fun n => ?_, by simp [Lane.commit, Dest.relayAfter]⟩
      · have := Lane.reg_setRegs l k.val n (ws.map RWord.clean)
        simp only [Lane.commit, Lane.reg, Lane.push_regs] at this ⊢
        rw [this]
        simp only [Dest.laneWord, List.length_map]
        split
        · rename_i h
          have hlt : n - k.val < ws.length := by omega
          simp [List.getD, List.getElem?_map, List.getElem?_eq_getElem hlt]
        · rfl
      · simp [Lane.commit, Dest.lanePred, Lane.pred]

/-- The lanes after a commit. -/
theorem Group.lane_commit (g : Group) (x : Ix) (f : Form) (cyc : Nat) (res : Nat → Lane × List Word) {i : Nat}
    (h : i < g.lanes.length) :
    (g.commit x f cyc res).lane i =
      if i ∈ x.ex then Lane.commit (res i).1 f.dest f g.dist cyc (res i).2 else g.lane i := by
  have hm := g.lane_mapLanes (fun i l =>
    if x.ex.contains i then Lane.commit (res i).1 f.dest f g.dist cyc (res i).2 else l) h
  have hl : ∀ (k : Group), (g.commit x f cyc res).lanes = (g.mapLanes fun i l =>
      if x.ex.contains i then Lane.commit (res i).1 f.dest f g.dist cyc (res i).2 else l).lanes := by
    intro _
    unfold Group.commit
    dsimp only
    split <;> simp
  simp only [Group.lane, hl g] at hm ⊢
  rw [hm]
  simp

/-- Everything of a group but its lanes and scalar registers is as before a commit. -/
theorem Group.commit_frame (g : Group) (x : Ix) (f : Form) (cyc : Nat) (res : Nat → Lane × List Word) :
    { g.commit x f cyc res with lanes := g.lanes, gregs := g.gregs } = g ∧
    (g.commit x f cyc res).lanes.length = g.lanes.length := by
  unfold Group.commit
  dsimp only
  split
  · constructor
    · cases g; simp [Group.mapLanes]
    · simp
  · constructor
    · cases g; simp [Group.mapLanes]
    · simp

/-- The scalar registers after a commit. -/
theorem Group.greg_commit (g : Group) (x : Ix) (f : Form) (cyc : Nat) (res : Nat → Lane × List Word) (n : Nat) :
    (g.commit x f cyc res).greg n =
      match x.ex with
      | [] => g.greg n
      | i :: _ => f.dest.scalarWord (res i).2 n (g.greg n) := by
  unfold Group.commit
  dsimp only
  cases hx : x.ex with
  | nil => cases f.dest <;> simp [Group.greg]
  | cons i r =>
    cases hd : f.dest with
    | scalar k sh =>
      simp only [Group.greg_setGs, Dest.scalarWord, List.length_map]
      split
      · rename_i h
        have hlt : n - k.val < (res i).2.length := by omega
        simp [List.getD, List.getElem?_map, List.getElem?_eq_getElem hlt]
      · rfl
    | _ => simp [Group.greg, Dest.scalarWord]

/-- The end of an issue: only the group of the context has changed, by its effect and its advance. -/
theorem State.finish_eq {s : State} {f : Form} {x : Ix} (h : s.ix f = some x) (k : Form) (jump : Nat → Option Word)
    (eff : Group → Group) :
    s.finish x k jump eff = s.withGroup x ((eff x.grp).advance x k s.clock.cycle jump) := by
  have ht := State.ix_team h
  unfold State.finish State.withGroup State.updGroup State.updTeam
  dsimp only
  congr 1
  exact Tab.upd_congr ht.1 (by congr 1; exact Tab.upd_congr ht.2 rfl)

/-- What an advance makes of a lane: its LPC, and the count of a WAITL. -/
theorem Group.lane_advance (g : Group) (x : Ix) (f : Form) (cyc : Nat) (jump : Nat → Option Word) {i : Nat}
    (h : i < g.lanes.length) :
    ∃ p, (g.advance x f cyc jump).lane i =
      { g.lane i with
        pass := p
        lpc := if i ∈ x.at_ then (if i ∈ x.ex then (jump i).getD (x.pc + Word.ofNat f.len) else x.pc + Word.ofNat f.len)
               else (g.lane i).lpc } ∧
      ∀ k, p = some k → ∃ m, (g.lane i).pass = some m ∧ (k = m ∨ k = m - 1) := by
  unfold Group.advance
  dsimp only
  have hg : g.lane i = g.lanes[i] := by simp [Group.lane, List.getD, List.getElem?_eq_getElem h]
  rw [hg]
  generalize hl : g.lanes[i] = l
  split
  · refine ⟨none, ?_, by simp⟩
    simp only [Group.lane, List.getD, List.getElem?_map, List.getElem?_mapIdx, List.getElem?_eq_getElem h, hl, Option.map_some,
      Option.getD_some, List.contains_iff_mem]
    cases hp : l.pass <;> by_cases ha : i ∈ x.at_ <;> by_cases he : i ∈ x.ex <;> simp [ha, he]
  · simp only [Group.lane, List.getD, List.getElem?_mapIdx, List.getElem?_eq_getElem h, hl, Option.map_some,
      Option.getD_some, List.contains_iff_mem]
    cases hp : l.pass with
    | none =>
      refine ⟨none, ?_, by simp⟩
      by_cases ha : i ∈ x.at_ <;> by_cases he : i ∈ x.ex <;> simp [ha, he, ← hp]
    | some m =>
      by_cases ha : i ∈ x.at_
      · refine ⟨if m = 0 then none else some m, ?_, ?_⟩
        · by_cases he : i ∈ x.ex <;> simp [ha, he]
        · intro k hk
          by_cases hm : m = 0
          · simp [hm] at hk
          · simp [hm] at hk; exact ⟨m, rfl, .inl hk.symm⟩
      · refine ⟨some (m - 1), by simp [ha], ?_⟩
        intro k hk
        simp at hk
        exact ⟨m, rfl, .inr hk.symm⟩

/-- The scoreboard after an advance, and everything else of the group as before. -/
theorem Group.advance_frame (g : Group) (x : Ix) (f : Form) (cyc : Nat) (jump : Nat → Option Word) :
    (g.advance x f cyc jump).dist = g.dist + f.stall + 1 + f.wide.toNat ∧
    (g.advance x f cyc jump).notBefore = cyc + f.stall + 1 + f.wide.toNat ∧
    (g.advance x f cyc jump).stalls = (if (f.shortfall x.grp x.at_).isSome then satInc g.stalls else g.stalls) ∧
    (g.advance x f cyc jump).gregs = g.gregs ∧
    (g.advance x f cyc jump).lanes.length = g.lanes.length ∧
    { g.advance x f cyc jump with
      lanes := g.lanes, stalls := g.stalls, dist := g.dist, notBefore := g.notBefore, prods := g.prods,
      readySince := g.readySince } = g := by
  refine ⟨by simp [Group.advance]; omega, by simp [Group.advance]; omega, rfl, rfl, ?_, rfl⟩
  unfold Group.advance
  dsimp only
  split <;> simp

/-- The producers after an advance. -/
theorem Group.advance_prods (g : Group) (x : Ix) (f : Form) (s : State) (jump : Nat → Option Word) (p : Producer) :
    p ∈ (g.advance x f s.clock.cycle jump).prods ↔ Listed f s g p := by
  have e : (g.advance x f s.clock.cycle jump).prods =
      (g.prods.filter fun p => decide (g.dist + (f.stall + 1 + f.wide.toNat) - p.born < 8 ∨ s.clock.cycle - p.cyc < 8) &&
        !(f.dest.refs.contains p.reg)) ++
      (if f.lat = 0 then [] else f.dest.refs.map fun r => ⟨r, f.lat, g.dist, s.clock.cycle⟩) := rfl
  have h1 : g.dist + (f.stall + 1 + f.wide.toNat) - p.born < 8 ↔ g.dist + f.stall + 1 + f.wide.toNat < p.born + 8 := by omega
  have h2 : s.clock.cycle - p.cyc < 8 ↔ s.clock.cycle < p.cyc + 8 := by omega
  rw [e, List.mem_append, List.mem_filter, or_comm, Listed]
  simp only [Bool.and_eq_true, decide_eq_true_eq, Bool.not_eq_true', h1, h2, ← Bool.not_eq_true, List.contains_iff_mem]
  refine or_congr ?_ ⟨fun h => ⟨h.1, h.2.2, h.2.1⟩, fun h => ⟨h.1, h.2.2, h.2.1⟩⟩
  by_cases hl : f.lat = 0
  · simp [hl]
  · simp [hl, List.mem_map, eq_comm]

/-- The scoreboard lists the same results where the producers and the count of issues are the same. -/
theorem Listed.congr {f : Form} {s : State} {a b : Group} (hp : a.prods = b.prods) (hd : a.dist = b.dist) (p : Producer) :
    Listed f s a p ↔ Listed f s b p := by
  unfold Listed
  rw [hp, hd]

/-- What an instruction that only writes its destination leaves: the results in the destination, the advance, and nothing else.
`res` gives each executing lane's record, changed in its slots alone, and its result. -/
theorem lands_of_commit {s : State} {f : Form} {x : Ix} (h : s.ix f = some x) (res : Nat → Lane × List Word)
    (sl : Nat → List Slot) (hres : ∀ i ∈ x.ex, (res i).1 = { x.grp.lane i with slots := sl i }) :
    Lands f s x f.dest (fun i => (res i).2) sl (s.finish x f noJump fun g => g.commit x f s.clock.cycle res) := by
  refine ⟨_, State.finish_eq h f noJump _, ?_⟩
  have hc := Group.commit_frame x.grp x f s.clock.cycle res
  have ha := Group.advance_frame (x.grp.commit x f s.clock.cycle res) x f s.clock.cycle noJump
  have hst : (x.grp.commit x f s.clock.cycle res).stalls = x.grp.stalls := by have := congrArg Group.stalls hc.1; exact this
  have hdi : (x.grp.commit x f s.clock.cycle res).dist = x.grp.dist := by have := congrArg Group.dist hc.1; exact this
  have hpr : (x.grp.commit x f s.clock.cycle res).prods = x.grp.prods := by have := congrArg Group.prods hc.1; exact this
  refine ⟨fun i => ?_, fun n => ?_, ?_, ?_, ha.2.1, fun p => (Group.advance_prods _ x f s noJump p).trans (Listed.congr hpr hdi p), ?_⟩
  · by_cases hi : i < x.grp.lanes.length
    · obtain ⟨p, hp, hk⟩ := Group.lane_advance (x.grp.commit x f s.clock.cycle res) x f s.clock.cycle noJump
        (i := i) (by rw [hc.2]; exact hi)
      rw [hp]
      rw [Group.lane_commit _ _ _ _ _ hi] at hk ⊢
      by_cases he : i ∈ x.ex
      · have hat := Ix.ex_sub h he
        simp only [he, if_true, hres i he] at hk ⊢
        have hs := Lane.commit_spec { x.grp.lane i with slots := sl i } f.dest f x.grp.dist s.clock.cycle (res i).2
        obtain ⟨h1, h2, h3, h4, h5, h6, h7, h8⟩ := hs
        refine ⟨h1, h2, by simp [hat, noJump], fun n => ?_, fun n => ?_, ?_, ?_, ?_⟩
        · simpa [he, Lane.reg] using h6 n
        · simpa [he, Lane.pred] using h7 n
        · simpa [he] using h8
        · simpa [he] using h5
        · intro k hk'
          obtain ⟨m, hm, ho⟩ := hk k hk'
          exact ⟨m, by rw [← hm, h4], ho⟩
      · simp only [he, if_false] at hk ⊢
        refine ⟨rfl, rfl, ?_, fun n => by simp [he, Lane.reg], fun n => by simp [he, Lane.pred], by simp [he], by simp [he], hk⟩
        by_cases hat : i ∈ x.at_ <;> simp [hat]
    · have hnot : i ∉ x.at_ := fun hm => hi (Group.counts_lt (Ix.at_lt h hm).2.1)
      have hne : i ∉ x.ex := fun hm => hnot (Ix.ex_sub h hm)
      have h1 : ((x.grp.commit x f s.clock.cycle res).advance x f s.clock.cycle noJump).lane i = Lane.none := by
        have hlen := ha.2.2.2.2.1
        have : ((x.grp.commit x f s.clock.cycle res).advance x f s.clock.cycle noJump).lanes.length ≤ i := by
          rw [hlen, hc.2]; omega
        simp only [Group.lane, List.getD, List.getElem?_eq_none this, Option.getD_none]
      have h2 : x.grp.lane i = Lane.none := by
        simp only [Group.lane, List.getD, List.getElem?_eq_none (Nat.le_of_not_lt hi), Option.getD_none]
      rw [h1]
      refine ⟨?_, ?_, ?_, fun n => ?_, fun n => ?_, ?_, ?_, ?_⟩ <;> simp [h2, hnot, hne, Lane.none]
  · have hg : ((x.grp.commit x f s.clock.cycle res).advance x f s.clock.cycle noJump).greg n =
        (x.grp.commit x f s.clock.cycle res).greg n := by simp only [Group.greg, ha.2.2.2.1]
    refine (hg.trans (Group.greg_commit ..)).trans ?_
    cases x.ex <;> rfl
  · rw [ha.2.2.1, hst]
  · rw [ha.1, hdi]
  · have h1 := ha.2.2.2.2.2
    have h2 := hc.1
    rw [← h1] at h2
    have e1 := congrArg Group.notBefore hc.1
    have e2 := congrArg Group.prods hc.1
    have e3 := congrArg Group.readySince hc.1
    dsimp only at e1 e2 e3
    simpa only [hst, hdi, e1, e2, e3] using h2

/-- Results that agree in the executing lanes are one result. -/
theorem Lands.congr {f : Form} {s s' : State} {x : Ix} {d : Dest} {val val' : Nat → List Word} {sl sl' : Nat → List Slot}
    (h : Lands f s x d val sl s') (hv : ∀ i ∈ x.ex, val i = val' i) (hs : ∀ i ∈ x.ex, sl i = sl' i) :
    Lands f s x d val' sl' s' := by
  obtain ⟨g', h1, h2⟩ := h
  refine ⟨g', h1, ⟨fun i => ?_, fun n => ?_, h2.stalls, h2.dist, h2.notBefore, h2.prods, h2.frame⟩⟩
  · have hl := h2.lanes i
    by_cases he : i ∈ x.ex
    · rw [hv i he, hs i he] at hl; exact hl
    · refine ⟨hl.live, hl.tx, hl.lpc, fun n => ?_, fun n => ?_, ?_, ?_, hl.pass⟩
      · simpa [he] using hl.reg n
      · simpa [he] using hl.pred n
      · simpa [he] using hl.relay
      · simpa [he] using hl.slots
  · rw [h2.scalars n]
    cases hx : x.ex with
    | nil => rfl
    | cons i r => simp only [hv i (by simp [hx])]

/-! ### Lane instructions -/

/-- What a lane brings to an instruction, from the context. -/
def Ix.laneIn (x : Ix) (f : Form) (i : Nat) : LaneIn :=
  let rs := f.uses.map fun u => u.read x.grp i
  ⟨i, x.ex.contains i, x.grp.lane i, rs.map fun r => r.map (·.bits), rs.map fun r => r.any (·.poison)⟩

theorem Ix.ins_get (x : Ix) (f : Form) {i : Nat} (h : i < 32) : (x.ins f)[i]? = some (x.laneIn f i) := by
  simp [Ix.ins, Ix.laneIn, h]

theorem Ix.laneAt_ins (x : Ix) (f : Form) {i : Nat} (h : i < 32) : laneAt (x.ins f) i = x.laneIn f i := by
  simp [laneAt, List.getD, Ix.ins_get x f h]

theorem Ix.ex_lt {s : State} {f : Form} {x : Ix} (h : s.ix f = some x) {i : Nat} (hi : i ∈ x.ex) : i < 32 :=
  (Ix.at_lt h (Ix.ex_sub h hi)).1

/-- Operand `k`, word `j`, of a lane. -/
def Ix.arg (x : Ix) (f : Form) (i k j : Nat) : Word := (x.laneIn f i).w k j

/-- A lane instruction that takes no trap answers a next state in which its results stand. -/
theorem laneInstr_lands {s : State} {f : Form} {x : Ix} (h : Issues f s x)
    {own : Env → List LaneIn → Option (Nat × Nat × List Nat)} {eff : Env → List LaneIn → Nat → Lane × List Word}
    {sl : Nat → List Slot} (ho : own x.env (x.ins f) = none)
    (hs : ∀ i ∈ x.ex, (eff x.env (x.ins f) i).1 = { x.grp.lane i with slots := sl i }) :
    ∃ s', laneInstr f own eff s = .next s' ∧ Lands f s x f.dest (fun i => (eff x.env (x.ins f) i).2) sl s' := by
  refine ⟨_, ?_, lands_of_commit h.here (eff x.env (x.ins f)) sl hs⟩
  simp only [laneInstr, State.begin_ok h.toAdmits, ho, h.clean]

/-- A lane instruction whose result depends on its lane alone. -/
theorem perLane_lands {s : State} {f : Form} {x : Ix} (h : Issues f s x) (fn : Env → LaneIn → List Word) :
    ∃ s', perLane f fn s = .next s' ∧ Lands f s x f.dest (fun i => fn x.env (x.laneIn f i)) x.slots s' := by
  obtain ⟨s', h1, h2⟩ := laneInstr_lands (own := noOwn) (eff := fun e ins i =>
    match ins[i]? with
    | some l => (l.lane, fn e l)
    | none => (Lane.none, [])) h (sl := x.slots) rfl (fun i hi => by
      simp [Ix.ins_get x f (Ix.ex_lt h.here hi), Ix.laneIn, Ix.slots])
  exact ⟨s', h1, h2.congr (fun i hi => by simp [Ix.ins_get x f (Ix.ex_lt h.here hi)]) (fun _ _ => rfl)⟩

/-- The same for one that changes its lane's slots. -/
theorem perLaneSt_lands {s : State} {f : Form} {x : Ix} (h : Issues f s x) (fn : Env → LaneIn → Lane × List Word)
    (sl : Nat → List Slot) (hs : ∀ i ∈ x.ex, (fn x.env (x.laneIn f i)).1 = { x.grp.lane i with slots := sl i }) :
    ∃ s', perLaneSt f fn s = .next s' ∧ Lands f s x f.dest (fun i => (fn x.env (x.laneIn f i)).2) sl s' := by
  obtain ⟨s', h1, h2⟩ := laneInstr_lands (own := noOwn) (eff := fun e ins i =>
    match ins[i]? with
    | some l => fn e l
    | none => (Lane.none, [])) h (sl := sl) rfl (fun i hi => by
      simp [Ix.ins_get x f (Ix.ex_lt h.here hi), hs i hi])
  exact ⟨s', h1, h2.congr (fun i hi => by simp [Ix.ins_get x f (Ix.ex_lt h.here hi)]) (fun _ _ => rfl)⟩

/-- An instruction of P words that gives one word. -/
theorem intOp_lands {s : State} {f : Form} {x : Ix} (h : Issues f s x) (fn : Word → Word → Word → Word) :
    ∃ s', intOp f fn s = .next s' ∧
      Lands f s x f.dest (fun i => [fn (x.arg f i 0 0) (x.arg f i 1 0) (x.arg f i 2 0)]) x.slots s' := perLane_lands h _

/-- An instruction of P words that gives a predicate. -/
theorem predOp_lands {s : State} {f : Form} {x : Ix} (h : Issues f s x) (fn : Word → Word → Bool) :
    ∃ s', predOp f fn s = .next s' ∧
      Lands f s x f.dest (fun i => [boolWord (fn (x.arg f i 0 0) (x.arg f i 1 0))]) x.slots s' := perLane_lands h _

/-! ### Gathering from the lanes -/

theorem Ix.ins_eq (x : Ix) (f : Form) : x.ins f = (List.range 32).map (x.laneIn f) := rfl

/-- The executing lanes in rising order. -/
theorem Ix.ex_eq {s : State} {f : Form} {x : Ix} (h : s.ix f = some x) :
    (List.range 32).filter (fun i => x.ex.contains i) = x.ex := by
  obtain ⟨_, ha, he⟩ := State.ix_lanes h
  have hf : x.ex = (List.range 32).filter fun i =>
      ((x.grp.lane i).counts && (x.grp.lane i).lpc == x.pc) && ((x.grp.lane i).pred f.gp.val != f.gn) := by
    rw [he, ha, Group.guarded, Group.lanesAt, List.filter_filter]
    congr 1; funext i; exact Bool.and_comm _ _
  have hm : ∀ i ∈ List.range 32, x.ex.contains i =
      (((x.grp.lane i).counts && (x.grp.lane i).lpc == x.pc) && ((x.grp.lane i).pred f.gp.val != f.gn)) := by
    intro i hi
    rw [Bool.eq_iff_iff, List.contains_iff_mem, hf, List.mem_filter]
    exact ⟨fun h => h.2, fun h => ⟨hi, h⟩⟩
  rw [List.filter_congr hm, ← hf]

/-- The operands of the executing lanes, in lane order. -/
theorem Ix.ins_filter {s : State} {f : Form} {x : Ix} (h : s.ix f = some x) (k : Form) :
    (x.ins k).filter (·.ex) = x.ex.map (x.laneIn k) := by
  rw [Ix.ins_eq, List.filter_map]
  exact congrArg (List.map (x.laneIn k)) (Ix.ex_eq h)

/-- Where no lane reads a mark, none is gathered. -/
theorem gatherPoison_none {x : Ix} {f : Form} (h : x.Unmarked f) (e : Env) (gather : List LaneIn → Nat → List Nat) :
    gatherPoison gather e (x.ins f) = none := by
  unfold gatherPoison
  have : (x.ins f).filter (fun l => l.ex && (l.marked.contains true ||
      (gather (x.ins f) l.n).any fun j => ((x.ins f)[j]?.map fun k => k.marked.getD 0 false).getD false)) = [] := by
    rw [List.filter_eq_nil_iff]
    intro l hl
    have h1 : l.marked.contains true = false := by
      rw [Bool.eq_false_iff]
      intro hc
      have := h l hl true (List.contains_iff_mem.mp hc)
      cases this
    have h2 : ((gather (x.ins f) l.n).any fun j =>
        ((x.ins f)[j]?.map fun k => k.marked.getD 0 false).getD false) = false := by
      rw [List.any_eq_false]
      intro j _
      cases hj : (x.ins f)[j]? with
      | none => simp
      | some k =>
        have hk : k ∈ x.ins f := List.mem_of_getElem? hj
        cases hm : k.marked with
        | nil => simp [hm]
        | cons b r =>
          have := h k hk b (by simp [hm])
          simp [hm, this]
    simp only [h1, h2, Bool.or_false, Bool.and_false, Bool.false_eq_true, not_false_eq_true]
  rw [this]
  rfl

/-- The inputs of the lane network: the executing lanes' words. -/
theorem netInputs_ins (x : Ix) (f : Form) :
    netInputs (x.ins f) = (List.range 32).map fun j => if x.ex.contains j then some ((x.laneIn f j).op 0) else none := by
  simp [netInputs, Ix.ins_eq, Ix.laneIn]

end Sys2Proof.Machine
end

