-- ==== Sys2Proof/Laws/Results.lean ====
section
/-! SUPPORT. The result of an issue from its meaning: the end of an issue as `Moved`, and the instructions that only write their
destination as `Gives`. -/

namespace Sys2Proof.Machine

/-- A lane whose group has advanced keeps a pass by R251. -/
theorem Group.advance_open (e : Group) (x : Ix) (i : Nat) (h : i < e.lanes.length) (cur : Lane) (hc : cur = e.lanes[i])
    (lpc : Word) :
    ({ cur with pass := cur.passAfter (x.at_.contains i), lpc := lpc } : Lane).counts = true ↔ e.open_ x i := by
  have hl : e.lane i = cur := by simp [Group.lane, List.getD, List.getElem?_eq_getElem h, hc]
  unfold Group.open_ Lane.counts
  rw [hl]
  cases cur.passAfter (x.at_.contains i) <;> simp

/-- The lane that an advance makes before stuck passes are freed. -/
def Lane.moved (l : Lane) (x : Ix) (f : Form) (jump : Nat → Option Word) (i : Nat) : Lane :=
  { l with
    pass := l.passAfter (x.at_.contains i)
    lpc := if x.at_.contains i then
        (if x.ex.contains i then (jump i).getD (x.pc + Word.ofNat f.len) else x.pc + Word.ofNat f.len)
      else l.lpc }

theorem Group.advance_lanes (e : Group) (x : Ix) (f : Form) (cyc : Nat) (jump : Nat → Option Word) :
    (e.advance x f cyc jump).lanes =
      if (e.lanes.mapIdx fun i l => l.moved x f jump i).all (fun l => !l.counts)
      then (e.lanes.mapIdx fun i l => l.moved x f jump i).map fun l => { l with pass := none }
      else e.lanes.mapIdx fun i l => l.moved x f jump i := by
  have hm : ∀ (i : Nat) (l : Lane),
      (let l' : Lane := match l.pass with
        | some k => if x.at_.contains i then { l with pass := if k = 0 then none else some k } else { l with pass := some (k - 1) }
        | none => l
       if x.at_.contains i then
        { l' with lpc := if x.ex.contains i then (jump i).getD (x.pc + Word.ofNat f.len) else x.pc + Word.ofNat f.len }
       else l') = l.moved x f jump i := by
    intro i l
    unfold Lane.moved Lane.passAfter
    cases hp : l.pass <;> cases ha : x.at_.contains i <;> simp [← hp]
  unfold Group.advance
  dsimp only
  congr 1
  · congr 3
    funext i l
    exact hm i l
  · congr 2
    funext i l
    exact hm i l
  · congr 1
    funext i l
    exact hm i l

/-- An advance moves its group on. -/
theorem Group.advanced {s : State} {f : Form} {x : Ix} (e : Group) (jump : Nat → Option Word) (to_ : Nat → Word)
    (hj : ∀ i ∈ x.ex, (jump i).getD (x.pc + Word.ofNat f.len) = to_ i)
    (ha : ∀ i ∈ x.at_, i < e.lanes.length) :
    Advanced f s x to_ e (e.advance x f s.clock.cycle jump) := by
  have hf := e.advance_frame x f s.clock.cycle jump
  have hL := e.advance_lanes x f s.clock.cycle jump
  have hopen : ((e.lanes.mapIdx fun i l => l.moved x f jump i).all (fun l => !l.counts)) = true ↔ ¬ ∃ j, e.open_ x j := by
    rw [List.all_eq_true]
    constructor
    · intro h ⟨j, hj'⟩
      have hlt : j < e.lanes.length := by
        refine Nat.lt_of_not_le fun hn => ?_
        have : e.lane j = Lane.none := by simp [Group.lane, List.getD, List.getElem?_eq_none hn]
        simp [Group.open_, this, Lane.none] at hj'
      have hm : (e.lanes[j].moved x f jump j) ∈ e.lanes.mapIdx fun i l => l.moved x f jump i :=
        List.mem_iff_getElem?.mpr ⟨j, by simp [List.getElem?_mapIdx, List.getElem?_eq_getElem hlt]⟩
      have := h _ hm
      have h2 := (e.advance_open x j hlt e.lanes[j] rfl
        (if x.at_.contains j then
        (if x.ex.contains j then (jump j).getD (x.pc + Word.ofNat f.len) else x.pc + Word.ofNat f.len)
        else e.lanes[j].lpc)).mpr hj'
      have h3 : (e.lanes[j].moved x f jump j).counts = true := h2
      rw [h3] at this
      exact absurd this (by decide)
    · intro h l hl
      obtain ⟨j, hj'⟩ := List.mem_iff_getElem?.mp hl
      rw [List.getElem?_mapIdx] at hj'
      by_cases hlt : j < e.lanes.length
      · rw [List.getElem?_eq_getElem hlt] at hj'
        simp only [Option.map_some, Option.some.injEq] at hj'
        subst hj'
        cases hc : (e.lanes[j].moved x f jump j).counts
        · rfl
        · exact absurd ⟨j, (e.advance_open x j hlt e.lanes[j] rfl _).mp hc⟩ h
      · simp [List.getElem?_eq_none (Nat.le_of_not_lt hlt)] at hj'
  have hlane : ∀ i, (e.advance x f s.clock.cycle jump).lane i =
      if i < e.lanes.length then
        { (e.lane i).moved x f jump i with
          pass := if (e.lanes.mapIdx fun i l => l.moved x f jump i).all (fun l => !l.counts) then none
            else (e.lane i).passAfter (x.at_.contains i) }
      else Lane.none := by
    intro i
    by_cases hi : i < e.lanes.length
    · have hg : e.lane i = e.lanes[i] := by simp [Group.lane, List.getD, List.getElem?_eq_getElem hi]
      rw [if_pos hi, hg]
      unfold Group.lane
      rw [hL]
      split
      · rename_i hc
        simp [List.getD, List.getElem?_mapIdx, List.getElem?_eq_getElem hi]
      · rename_i hc
        simp [List.getD, List.getElem?_mapIdx, List.getElem?_eq_getElem hi, Lane.moved]
    · rw [if_neg hi]
      have : (e.advance x f s.clock.cycle jump).lanes.length ≤ i := by rw [hf.2.2.2.2.1]; omega
      simp [Group.lane, List.getD, List.getElem?_eq_none this]
  have hout : ∀ i, ¬ i < e.lanes.length → e.lane i = Lane.none := by
    intro i hi
    simp [Group.lane, List.getD, List.getElem?_eq_none (Nat.le_of_not_lt hi)]
  refine ⟨?_, ?_, ?_, ?_, hf.2.2.1, hf.1, hf.2.1, e.advance_prods x f s jump, ?_⟩
  · intro i
    rw [hlane i]
    by_cases hi : i < e.lanes.length
    · simp [hi, Lane.moved]
    · simp [hi, hout i hi]
  · intro i
    rw [hlane i]
    by_cases hi : i < e.lanes.length
    · simp only [hi, if_true, Lane.moved, List.contains_iff_mem]
      by_cases h1 : i ∈ x.at_ <;> by_cases h2 : i ∈ x.ex <;> simp [h1, h2]
      exact hj i h2
    · have : i ∉ x.at_ := fun hm => hi (ha i hm)
      simp [hi, this, hout i hi]
  · intro ho i
    rw [hlane i]
    have hc : ((e.lanes.mapIdx fun i l => l.moved x f jump i).all (fun l => !l.counts)) = false := by
      cases hb : ((e.lanes.mapIdx fun i l => l.moved x f jump i).all (fun l => !l.counts))
      · rfl
      · exact absurd ho (hopen.mp hb)
    by_cases hi : i < e.lanes.length
    · simp [hi, hc]
    · simp [hi, hout i hi, Lane.none, Lane.passAfter]
  · intro ho i
    rw [hlane i]
    have hc := hopen.mpr ho
    by_cases hi : i < e.lanes.length
    · simp [hi, hc]
    · simp [hi, Lane.none]
  · exact hf.2.2.2.2.2

/-- The end of an issue moves its group on, from the group after its effect. -/
theorem State.finish_moved {s : State} {f : Form} {x : Ix} (h : s.ix f = some x) (k : Form) (jump : Nat → Option Word)
    (to_ : Nat → Word) (eff : Group → Group) (hj : ∀ i ∈ x.ex, (jump i).getD (x.pc + Word.ofNat k.len) = to_ i)
    (hl : (eff x.grp).lanes.length = x.grp.lanes.length) : Moved k s x to_ (eff x.grp) (s.finish x k jump eff) := by
  refine ⟨_, State.finish_eq h k jump eff, Group.advanced _ jump to_ hj fun i hi => ?_⟩
  rw [hl]
  exact Group.counts_lt (Ix.at_lt h hi).2.1

/-- The same where no lane jumps. -/
theorem State.finish_past {s : State} {f : Form} {x : Ix} (h : s.ix f = some x) (k : Form) (eff : Group → Group)
    (hl : (eff x.grp).lanes.length = x.grp.lanes.length) : Moved k s x (x.past k) (eff x.grp) (s.finish x k noJump eff) :=
  State.finish_moved h k noJump _ eff (fun _ _ => rfl) hl

@[simp] theorem Group.length_mapLanes (g : Group) (f : Nat → Lane → Lane) : (g.mapLanes f).lanes.length = g.lanes.length := by
  simp [Group.mapLanes]

theorem Group.lane_eq (g : Group) {i : Nat} (h : i < g.lanes.length) : g.lane i = g.lanes[i] := by
  simp [Group.lane, List.getD, List.getElem?_eq_getElem h]

/-- Two changes of the lanes that agree on every lane are one. -/
theorem Group.mapLanes_congr (g : Group) (a b : Nat → Lane → Lane) (h : ∀ i, i < g.lanes.length → a i (g.lane i) = b i (g.lane i)) :
    g.mapLanes a = g.mapLanes b := by
  unfold Group.mapLanes
  congr 1
  apply List.ext_getElem?
  intro i
  simp only [List.getElem?_mapIdx]
  by_cases hi : i < g.lanes.length
  · simp only [List.getElem?_eq_getElem hi, Option.map_some, ← g.lane_eq hi, h i hi]
  · simp [List.getElem?_eq_none (Nat.le_of_not_lt hi)]

theorem Group.mapLanes_mapLanes (g : Group) (a b : Nat → Lane → Lane) :
    (g.mapLanes a).mapLanes b = g.mapLanes fun i l => b i (a i l) := by
  simp only [Group.mapLanes, List.mapIdx_mapIdx]
  rfl

theorem Group.mapLanes_id (g : Group) (a : Nat → Lane → Lane) (h : ∀ i, i < g.lanes.length → a i (g.lane i) = g.lane i) :
    g.mapLanes a = g := by
  rw [g.mapLanes_congr a (fun _ l => l) h]
  cases g
  simp [Group.mapLanes, List.mapIdx_eq_iff]

/-! ### The pipeline where nothing stops an issue -/

theorem ownInstr_issues {s : State} {f : Form} {x : Ix} (h : Issues f s x) (body : Ix → List LaneIn → Out) :
    ownInstr f body s = body x (x.ins f) := by
  simp [ownInstr, State.begin_ok h.toAdmits, h.clean]

/-- Where no executing lane reads a mark, a group instruction meets none (R264). -/
theorem Ix.groupPoisoned_nil {x : Ix} {f : Form} (h : x.poisoned f = []) : x.groupPoisoned f = [] := by
  rw [Ix.poisoned, List.filter_eq_nil_iff] at h
  rw [Ix.groupPoisoned, List.filter_eq_nil_iff]
  intro i hi hp
  apply h i hi
  rw [List.any_eq_true] at hp ⊢
  obtain ⟨u, hu, hq⟩ := hp
  refine ⟨u, hu, ?_⟩
  simp only [Bool.and_eq_true] at hq ⊢
  exact ⟨hq.1.1, hq.2⟩

theorem groupInstr_issues {s : State} {f : Form} {x : Ix} (h : Issues f s x) (body : Ix → List LaneIn → Nat → Out)
    {i : Nat} {ls : List Nat} (he : x.ex = i :: ls) : groupInstr f body s = body x (x.ins f) i := by
  simp [groupInstr, groupInstrIdle, State.begin_ok h.toAdmits, Ix.groupPoisoned_nil h.clean, he]

theorem groupInstr_idle {s : State} {f : Form} {x : Ix} (h : Issues f s x) (body : Ix → List LaneIn → Nat → Out)
    (he : x.ex = []) : groupInstr f body s = .next (s.finish x f noJump id) := by
  simp [groupInstr, groupInstrIdle, State.begin_ok h.toAdmits, Ix.groupPoisoned_nil h.clean, he]

/-- The words of an operand of an executing lane, as the pipeline hands them over. -/
theorem Ix.ins_getD {s : State} {f : Form} {x : Ix} (h : s.ix f = some x) {i : Nat} (hi : i ∈ x.ex) (d : LaneIn) :
    (x.ins f).getD i d = x.laneIn f i := by
  have := Ix.ex_lt h hi
  simp [List.getD, Ix.ins_get x f this]

/-- An operand of an executing lane as a word. -/
theorem laneWord_ins {s : State} {f : Form} {x : Ix} (h : s.ix f = some x) {i : Nat} (hi : i ∈ x.ex) (k : Nat) :
    laneWord (x.ins f) k i = x.arg f i k 0 := by
  unfold laneWord
  rw [Ix.ins_getD h hi]
  rfl

/-- An operand of an executing lane as an address. -/
theorem laneAddr_ins {s : State} {f : Form} {x : Ix} (h : s.ix f = some x) {i : Nat} (hi : i ∈ x.ex) (k : Nat) :
    laneAddr (x.ins f) k i = pairNat ((x.laneIn f i).op k) := by
  unfold laneAddr
  rw [Ix.ins_getD h hi]

/-! ### Instructions that only write their destination -/

theorem gives_int {i : Instr} {fn : Word → Word → Word → Word} {d : Dest} {val : Ix → Nat → List Word}
    (he : ∀ s, exec i s = intOp (formOf i) fn s) (hd : (formOf i).dest = d)
    (hv : ∀ x l, [fn (x.arg (formOf i) l 0 0) (x.arg (formOf i) l 1 0) (x.arg (formOf i) l 2 0)] = val x l) : Gives i d val := by
  intro s x h
  obtain ⟨s', h1, h2⟩ := intOp_lands h fn
  refine ⟨s', by rw [he]; exact h1, ?_⟩
  rw [hd] at h2
  exact h2.congr (fun l _ => hv x l) (fun _ _ => rfl)

theorem gives_lane {i : Instr} {fn : Env → LaneIn → List Word} {d : Dest} {val : Ix → Nat → List Word}
    (he : ∀ s, exec i s = perLane (formOf i) fn s) (hd : (formOf i).dest = d)
    (hv : ∀ x l, fn x.env (x.laneIn (formOf i) l) = val x l) : Gives i d val := by
  intro s x h
  obtain ⟨s', h1, h2⟩ := perLane_lands h fn
  refine ⟨s', by rw [he]; exact h1, ?_⟩
  rw [hd] at h2
  exact h2.congr (fun l _ => hv x l) (fun _ _ => rfl)

theorem gives_slots {i : Instr} {fn : Env → LaneIn → Lane × List Word} {d : Dest} {val : Ix → Nat → List Word}
    {sl : Ix → Nat → List Slot} (he : ∀ s, exec i s = perLaneSt (formOf i) fn s) (hd : (formOf i).dest = d)
    (hs : ∀ (x : Ix) l, (fn x.env (x.laneIn (formOf i) l)).1 = { x.grp.lane l with slots := sl x l })
    (hv : ∀ (x : Ix) l, (fn x.env (x.laneIn (formOf i) l)).2 = val x l) : GivesSlots i d val sl := by
  intro s x h
  obtain ⟨s', h1, h2⟩ := perLaneSt_lands h fn (sl x) (fun l _ => hs x l)
  refine ⟨s', by rw [he]; exact h1, ?_⟩
  rw [hd] at h2
  exact h2.congr (fun l _ => hv x l) (fun _ _ => rfl)

/-- A lane instruction with a trap of its own, where that trap does not stand. -/
theorem laneInstr_gives {f : Form} {s : State} {x : Ix} {own : Env → List LaneIn → Option (Nat × Nat × List Nat)}
    {eff : Env → List LaneIn → Nat → Lane × List Word} {d : Dest} {val : Nat → List Word} {sl : Nat → List Slot}
    (hI : Issues f s x) (hd : f.dest = d) (ho : own x.env (x.ins f) = none)
    (hs : ∀ l ∈ x.ex, l < 32 → (eff x.env (x.ins f) l).1 = { x.grp.lane l with slots := sl l })
    (hv : ∀ l ∈ x.ex, l < 32 → (eff x.env (x.ins f) l).2 = val l) :
    ∃ s', laneInstr f own eff s = .next s' ∧ Lands f s x d val sl s' := by
  obtain ⟨s', h1, h2⟩ := laneInstr_lands hI (sl := sl) ho (fun l hl => hs l hl (Ix.ex_lt hI.here hl))
  refine ⟨s', h1, ?_⟩
  rw [hd] at h2
  exact h2.congr (fun l hl => hv l hl (Ix.ex_lt hI.here hl)) (fun _ _ => rfl)

/-- The dithers of a lane. -/
theorem dithers_eq (x : Ix) (f : Form) (l : Nat) (rm : Rm) (n : Nat) :
    (x.laneIn f l).dithers x.env rm n = (x.dither l rm, { x.grp.lane l with slots := x.drawn l rm n }) := by
  unfold LaneIn.dithers Ix.drawn
  by_cases h : rm = .sr
  · subst h; rfl
  · simp only [h, if_false]
    have : x.dither l rm = fun _ => 0 := by funext j; simp [Ix.dither, h]
    rw [this]; rfl

end Sys2Proof.Machine
end

