-- ==== Sys2Proof/Laws/Effects.lean ====
section
/-! SUPPORT. What the shared operations of the families do where an instruction issues: an issue without an executing lane, the
branches, accesses that trap for no lane, and aborts of no lane. -/

namespace Sys2Proof.Machine

/-! ### No executing lane -/

/-- A group instruction that no lane executes only advances. -/
theorem groupInstr_idle_moved {f : Form} {s : State} {x : Ix} (h : Issues f s x) (body : Ix → List LaneIn → Nat → Out) (he : x.ex = []) :
    ∃ s', groupInstr f body s = .next s' ∧ Moved f s x (x.past f) x.grp s' := by
  rw [groupInstr_idle h _ he]
  exact ⟨_, rfl, State.finish_past h.here f id rfl⟩

/-- The end of an issue that no lane executes only advances, where its effect is none. -/
theorem State.finish_idle {f : Form} {s : State} {x : Ix} (h : s.ix f = some x) (hx : x.ex = []) (jump : Nat → Option Word)
    (eff : Group → Group) (he : eff x.grp = x.grp) : Moved f s x (x.past f) x.grp (s.finish x f jump eff) := by
  have := State.finish_moved h f jump (x.past f) eff (by simp [hx]) (by rw [he])
  rwa [he] at this

/-- Results of no lane change nothing. -/
theorem Group.commit_idle {x : Ix} (hx : x.ex = []) (g : Group) (f : Form) (cyc : Nat) (res : Nat → Lane × List Word) :
    g.commit x f cyc res = g := by
  simp only [Group.commit, hx]
  rw [Group.mapLanes_id]
  · split <;> first | rfl | simp_all
  · intro i _; simp

/-- A change of the executing lanes is none where there are none. -/
theorem Group.mapLanes_idle {x : Ix} (hx : x.ex = []) (g : Group) (a : Nat → Lane → Lane) :
    (g.mapLanes fun i l => if x.ex.contains i then a i l else l) = g := by
  rw [Group.mapLanes_id]
  intro i _
  simp [hx]

theorem Ix.inTx_idle {x : Ix} (hx : x.ex = []) : x.inTx = [] := by simp [Ix.inTx, hx]

/-- No lane reads a mark where none executes. -/
theorem gatherPoison_idle {x : Ix} {f : Form} (hx : x.ex = []) (e : Env) (g : List LaneIn → Nat → List Nat) :
    gatherPoison g e (x.ins f) = none := by
  have : (x.ins f).filter (fun l => l.ex && (l.marked.contains true ||
        (g (x.ins f) l.n).any fun j => ((x.ins f)[j]?.map fun k => k.marked.getD 0 false).getD false)) = [] := by
    rw [List.filter_eq_nil_iff]
    intro a ha
    simp [Ix.ins, hx] at ha
    obtain ⟨i, _, rfl⟩ := ha
    simp
  simp only [gatherPoison, this, List.map_nil]

/-- An abort of no lane changes nothing. -/
theorem Group.abort_nil (g : Group) : g.abort [] = g := by
  simp only [Group.abort]
  rw [Group.mapLanes_id]
  · have e1 : ∀ l : List LoadOp,
        (l.map fun l => { l with
          lanes := l.lanes.filter fun e => !(([] : List Nat).contains e.1 && l.tx.contains e.1)
          tx := l.tx.filter fun i => !(([] : List Nat).contains i && l.tx.contains i) }) = l := by
      intro l
      conv => rhs; rw [← List.map_id l]
      apply List.map_congr_left
      intro a _
      cases a
      simp
    have e2 : ∀ l : List AtomOpn, (l.map fun a => { a with
        lanes := a.lanes.filter fun e => !(([] : List Nat).contains e.1 && a.tx.contains e.1)
        tx := a.tx.filter fun i => !(([] : List Nat).contains i && a.tx.contains i) }) = l := by
      intro l
      conv => rhs; rw [← List.map_id l]
      apply List.map_congr_left
      intro a _
      cases a
      simp
    simp only [Group.forget, List.filter_nil, e1, e2]
  · intro i _; simp

/-- The lanes inside a transaction take up nothing where there are none (R209). -/
theorem Group.touchTx_nil (g : Group) (rd wr : Nat → List Nat) : g.touchTx [] rd wr = g := by
  unfold Group.touchTx
  rw [Group.mapLanes_id]
  simp

/-! ### Accesses -/

/-- An access whose own traps do not stand does its effect. -/
theorem memInstr_issues {s : State} {f : Form} {x : Ix} (h : Issues f s x) {own : Ix → List LaneIn → Option (Nat × Nat × List Nat × Nat)}
    {body : Ix → List LaneIn → Out} (ho : own x (x.ins f) = none) : memInstr f own body s = body x (x.ins f) := by
  simp [memInstr, ownInstr_issues h, ho]

/-- A check that no lane fails does not trap. -/
theorem failing_none (c d : Nat) (ls : List (Nat × Nat)) (p : Nat → Bool) (h : ∀ e ∈ ls, p e.2 = false) : failing c d ls p = none := by
  unfold failing
  have : ls.filter (fun e => p e.2) = [] := by
    rw [List.filter_eq_nil_iff]
    intro e he
    simp [h e he]
  rw [this]

/-- Aligned accesses below 2^57 trap for no lane (R190). -/
theorem addrTrap_none {ls : List (Nat × Nat)} {n acc : Nat} (h : ∀ e ∈ ls, e.2 % n = 0 ∧ e.2 + n ≤ 2 ^ 57) : addrTrap ls n acc = none := by
  unfold addrTrap
  rw [failing_none]
  · exact failing_none _ _ _ _ fun e he => by simpa [beyond] using (h e he).2
  · exact fun e he => by simpa using (h e he).1

/-- Outside transactions nothing is counted against their limits (R212). -/
theorem txcap_none {x : Ix} (h : x.inTx = []) (rd wr : Nat → List Nat) : txcap x rd wr = none := by
  unfold txcap
  simp [h]

/-- An address operand of an executing lane, as the pipeline hands it over. -/
theorem laneAddr_eq {s : State} {f : Form} {x : Ix} (h : s.ix f = some x) {i k : Nat} (hi : i ∈ x.ex) {r : Base} {u : Use}
    (hu : f.uses[k]? = some u) (e : u.src = srcOfB r) (e2 : u.sh = .M) (e3 : u.skip = 0) : laneAddr (x.ins f) k i = x.addr i r := by
  rw [laneAddr_ins h hi]
  unfold Ix.addr Ix.span
  congr 1
  simp only [Ix.laneIn, LaneIn.op, List.getD, List.getElem?_map, hu, Option.map_some, Option.getD_some]
  unfold Use.read Use.count
  rw [e, e2, e3]
  rfl

/-! ### Branches (R264 to R266) -/

/-- The target operand of a register branch. -/
theorem branchWord_eq {f : Form} {x : Ix} {ra : Src} (hu : f.uses = [use 1 ra .P]) (i : Nat) : (x.laneIn f i).w 0 0 = x.word i ra := by
  simp only [Ix.laneIn, LaneIn.w, hu, Ix.word, Ix.span, List.map_cons, List.map_nil, List.getD_cons_zero]
  rfl

/-- A branch moves its executing lanes to their targets and writes their links. -/
theorem branchTo_moved {f : Form} {s : State} {x : Ix} (h : Issues f s x) (link : List Word) (target : Nat → Word) (e : Lane → Lane)
    (hd : f.dest = .none ∨ ∃ r sh, f.dest = .lane r sh) (he : ∀ l b c, (Lane.commit l f.dest f b c link).drop = e l) :
    ∃ s', branchTo x f link target s = .next s' ∧
      Moved f s x target (x.grp.mapLanes fun i l => if x.ex.contains i then e l else l) s' := by
  refine ⟨_, rfl, ?_⟩
  have := State.finish_moved h.here f (fun i => some (target i)) target (fun g =>
    (g.commit x f s.clock.cycle fun i => (x.grp.lane i, link)).mapLanes fun i l => if x.ex.contains i then l.drop else l) (fun _ _ => rfl) ?_
  · have e2 : (x.grp.commit x f s.clock.cycle fun i => (x.grp.lane i, link)).mapLanes (fun i l => if x.ex.contains i then l.drop else l)
        = x.grp.mapLanes fun i l => if x.ex.contains i then e l else l := by
      have hc : (x.grp.commit x f s.clock.cycle fun i => (x.grp.lane i, link)) = x.grp.mapLanes fun i l =>
          if x.ex.contains i then Lane.commit (x.grp.lane i) f.dest f x.grp.dist s.clock.cycle link else l := by
        rcases hd with hd | ⟨r, sh, hd⟩ <;> (unfold Group.commit; rw [hd])
      rw [hc, Group.mapLanes_mapLanes]
      apply Group.mapLanes_congr
      intro i hi
      cases hx : x.ex.contains i
      · simp only [if_false, Bool.false_eq_true]
      · simp only [if_true]
        exact he _ _ _
    rw [e2] at this
    exact this
  · simp only [Group.length_mapLanes]
    exact (Group.commit_frame _ _ _ _ _).2

/-- A register branch goes to its targets, or traps ALIGN for the lanes whose target is odd. -/
theorem branchReg_eq {f : Form} {s : State} {x : Ix} {ra : Src} (hI : Issues f s x) (hu : f.uses = [use 1 ra .P]) :
    branchReg f s = (match x.ex.filter fun k => (x.word k ra).getLsbD 0 with
      | [] => branchTo x f [x.pc + Word.ofNat f.len] (fun i => ((x.ins f).getD i ⟨0, false, Lane.none, [], []⟩).w 0 0) s
      | i :: ls => .next (s.raise x.t x.g tALIGN 0 x.pc (maskOf (i :: ls)) (x.word i ra).toNat)) := by
  unfold branchReg
  rw [ownInstr_issues hI]
  dsimp only
  have hw : ∀ i ∈ x.ex, ((x.ins f).getD i ⟨0, false, Lane.none, [], []⟩).w 0 0 = x.word i ra := by
    intro i hi
    rw [Ix.ins_getD hI.here hi]
    exact branchWord_eq hu i
  have : (x.ex.filter fun i => (((x.ins f).getD i ⟨0, false, Lane.none, [], []⟩).w 0 0).getLsbD 0) =
      x.ex.filter fun k => (x.word k ra).getLsbD 0 := by
    apply List.filter_congr
    intro i hi
    rw [hw i hi]
  rw [this]
  cases he : x.ex.filter fun k => (x.word k ra).getLsbD 0 with
  | nil => rfl
  | cons i ls =>
    have hm : i ∈ x.ex := by
      have : i ∈ x.ex.filter fun k => (x.word k ra).getLsbD 0 := by rw [he]; simp
      exact (List.mem_filter.mp this).1
    dsimp only
    rw [hw i hm]

/-! ### Traps and memory -/

/-- A trap condition joins its team's list, and nothing else changes but that no issue is under way (R354). -/
theorem State.raiseAt_spec (s : State) (t g id code detail : Nat) (lpc : Word) (lanes : BitVec 32) (addr : Nat) {r : TeamRec}
    (ht : s.team t = some r) (hr : r.trap = none) :
    (s.raiseAt t g id code detail lpc lanes addr).team t =
        some { r with conds := r.conds ++ [⟨id, g, code, detail, lpc, lanes, addr, s.clock.cycle⟩] } ∧
      (∀ u, u ≠ t → (s.raiseAt t g id code detail lpc lanes addr).team u = s.team u) ∧
      { s.raiseAt t g id code detail lpc lanes addr with teams := s.teams, issuing := s.issuing } = s := by
  refine ⟨?_, ?_, rfl⟩
  · unfold State.team at ht
    simp [State.raiseAt, State.updTeam, State.team, ht, hr]
  · intro u hu
    simp [State.raiseAt, State.updTeam, State.team, Tab.find_upd_ne _ _ hu]

/-- The same at the instruction that a group has next. -/
theorem State.raise_spec (s : State) (t g code detail : Nat) (lpc : Word) (lanes : BitVec 32) (addr : Nat) {r : TeamRec}
    (ht : s.team t = some r) (hr : r.trap = none) :
    (s.raise t g code detail lpc lanes addr).team t =
        some { r with conds := r.conds ++ [⟨s.nextId, g, code, detail, lpc, lanes, addr, s.clock.cycle⟩] } ∧
      (∀ u, u ≠ t → (s.raise t g code detail lpc lanes addr).team u = s.team u) ∧
      { s.raise t g code detail lpc lanes addr with teams := s.teams, issuing := s.issuing } = s :=
  s.raiseAt_spec t g s.nextId code detail lpc lanes addr ht hr

/-- A condition bars what its group has issued from its instruction on, and nothing earlier and no other group (R97). -/
theorem TeamRec.barred_conds (r : TeamRec) (c : Cond) (g id : Nat) :
    ({ r with conds := r.conds ++ [c] } : TeamRec).barred g id = (r.barred g id || (c.grp == g && decide (c.id ≤ id))) := by
  simp [TeamRec.barred]

/-- A register write with nothing ordered before it at its port is performed as it arrives. -/
theorem State.posted_now (s : State) (p : Port) (op : HostOp) (t : State) (h : ∀ e ∈ s.hostQ, e.port = p → e.op.ordered = false) :
    s.posted p op t = t := by
  have hw : (⟨p, op⟩ : HostWait).waits s.hostQ = false := by
    have : (s.hostQ.any fun e => e.port == p && e.op.ordered) = false := by
      rw [List.any_eq_false]; intro e he
      by_cases hp : e.port = p
      · simp [h e he hp]
      · simp [hp]
    unfold HostWait.waits
    split
    · rfl
    · exact this
  simp [State.posted, hw]

/-- Behind an ordered one it joins the end of the queue, and nothing else happens. -/
theorem State.posted_later (s : State) (p : Port) (op : HostOp) (t : State) (h : (⟨p, op⟩ : HostWait).waits s.hostQ = true) :
    s.posted p op t = { s with hostQ := s.hostQ ++ [⟨p, op⟩] } := by
  simp [State.posted, h, State.hostWait]

/-- A tile bank of the team's is no trap. -/
theorem State.beginBank_ok {f : Form} {k : Nat} {s : State} {x : Ix} (h : s.begin f = .ok x) (hk : k < x.team.banks.length) :
    s.beginBank f (some k) = .ok x := by
  simp [State.beginBank, h, Nat.not_le.mpr hk]

/-- Writing at a physical address keeps both memories' canonical form. -/
theorem State.physWrite_wf {s : State} (p : Phys) (bs : List Byte) (h : s.dram.wf = true ∧ s.host.wf = true) :
    (s.physWrite p bs).dram.wf = true ∧ (s.physWrite p bs).host.wf = true := by
  have fold : ∀ (l : List (Byte × Nat)) (m : Memory), m.wf = true →
      (l.foldl (fun m b => if p.there b.2 then m.store (p.addr + b.2) b.1 else m) m).wf = true := by
    intro l
    induction l with
    | nil => exact fun _ hm => hm
    | cons b l ih =>
      intro m hm
      simp only [List.foldl_cons]
      apply ih
      split
      · exact Memory.wf_store hm _ _
      · exact hm
  unfold State.physWrite
  dsimp only
  split
  · exact h
  · split
    · exact ⟨h.1, Memory.wf_storeBytes h.2 _ _⟩
    · exact ⟨fold _ _ h.1, h.2⟩

/-- Reset memory lists nothing. -/
theorem State.reset_wf : State.reset.dram.wf = true ∧ State.reset.host.wf = true := ⟨rfl, rfl⟩

end Sys2Proof.Machine
end

