-- ==== Sys2Proof/Laws/Exec.lean ====
section
/-! SUPPORT. Each arm of `exec` as an equation, so that no proof unfolds the dispatch. -/

namespace Sys2Proof.Machine

@[simp] theorem exec_nop (h : Hd) (s : State) :
    exec (.nop h) s = execNop h s := rfl
@[simp] theorem exec_bra (h : Hd) (imm : BitVec 32) (s : State) :
    exec (.bra h imm) s = execBra h imm s := rfl
@[simp] theorem exec_brx (h : Hd) (ra : Src) (s : State) :
    exec (.brx h ra) s = execBrx h ra s := rfl
@[simp] theorem exec_call (h : Hd) (rd : LDst) (imm : BitVec 32) (s : State) :
    exec (.call h rd imm) s = execCall h rd imm s := rfl
@[simp] theorem exec_callx (h : Hd) (rd : LDst) (ra : Src) (s : State) :
    exec (.callx h rd ra) s = execCallx h rd ra s := rfl
@[simp] theorem exec_ret (h : Hd) (ra : Src) (s : State) :
    exec (.ret h ra) s = execRet h ra s := rfl
@[simp] theorem exec_exit (h : Hd) (s : State) :
    exec (.exit h) s = execExit h s := rfl
@[simp] theorem exec_waitl (h : Hd) (s : State) :
    exec (.waitl h) s = execWaitl h s := rfl
@[simp] theorem exec_yield (h : Hd) (s : State) :
    exec (.yield h) s = execYield h s := rfl
@[simp] theorem exec_trap (h : Hd) (n : Fin 256) (s : State) :
    exec (.trap h n) s = execTrap h n s := rfl
@[simp] theorem exec_bkpt (h : Hd) (s : State) :
    exec (.bkpt h) s = execBkpt h s := rfl
@[simp] theorem exec_srd (h : Hd) (rd : LDst) (reg : Fin 512) (s : State) :
    exec (.srd h rd reg) s = execSrd h rd reg s := rfl
@[simp] theorem exec_swr (h : Hd) (ra : Src) (reg : Fin 512) (s : State) :
    exec (.swr h ra reg) s = execSwr h ra reg s := rfl
@[simp] theorem exec_develop (h : Hd) (s : State) :
    exec (.develop h) s = execDevelop h s := rfl
@[simp] theorem exec_budget (h : Hd) (ra : Src) (s : State) :
    exec (.budget h ra) s = execBudget h ra s := rfl
@[simp] theorem exec_launch (h : Hd) (rd : Base) (opt : LaunchOpt) (s : State) :
    exec (.launch h rd opt) s = execLaunch h rd opt s := rfl
@[simp] theorem exec_ill (rest : BitVec 53) (s : State) :
    exec (.ill rest) s = execIll rest s := rfl
@[simp] theorem exec_iadd (h : Hd) (rd : Dst) (ra : Src) (rb : Src) (s : State) :
    exec (.iadd h rd ra rb) s = execIadd h rd ra rb s := rfl
@[simp] theorem exec_isub (h : Hd) (rd : Dst) (ra : Src) (rb : Src) (s : State) :
    exec (.isub h rd ra rb) s = execIsub h rd ra rb s := rfl
@[simp] theorem exec_imul (h : Hd) (rd : Dst) (ra : Src) (rb : Src) (s : State) :
    exec (.imul h rd ra rb) s = execImul h rd ra rb s := rfl
@[simp] theorem exec_imulh (h : Hd) (rd : Dst) (ra : Src) (rb : Src) (sg : MulSign) (s : State) :
    exec (.imulh h rd ra rb sg) s = execImulh h rd ra rb sg s := rfl
@[simp] theorem exec_imad (h : Hd) (rd : Dst) (ra : Src) (rb : Src) (rc : Src) (s : State) :
    exec (.imad h rd ra rb rc) s = execImad h rd ra rb rc s := rfl
@[simp] theorem exec_imin (h : Hd) (rd : Dst) (ra : Src) (rb : Src) (u : Bool) (s : State) :
    exec (.imin h rd ra rb u) s = execImin h rd ra rb u s := rfl
@[simp] theorem exec_imax (h : Hd) (rd : Dst) (ra : Src) (rb : Src) (u : Bool) (s : State) :
    exec (.imax h rd ra rb u) s = execImax h rd ra rb u s := rfl
@[simp] theorem exec_iabs (h : Hd) (rd : Dst) (ra : Src) (s : State) :
    exec (.iabs h rd ra) s = execIabs h rd ra s := rfl
@[simp] theorem exec_and (h : Hd) (rd : Dst) (ra : Src) (rb : Src) (s : State) :
    exec (.and h rd ra rb) s = execAnd h rd ra rb s := rfl
@[simp] theorem exec_or (h : Hd) (rd : Dst) (ra : Src) (rb : Src) (s : State) :
    exec (.or h rd ra rb) s = execOr h rd ra rb s := rfl
@[simp] theorem exec_xor (h : Hd) (rd : Dst) (ra : Src) (rb : Src) (s : State) :
    exec (.xor h rd ra rb) s = execXor h rd ra rb s := rfl
@[simp] theorem exec_andn (h : Hd) (rd : Dst) (ra : Src) (rb : Src) (s : State) :
    exec (.andn h rd ra rb) s = execAndn h rd ra rb s := rfl
@[simp] theorem exec_shl (h : Hd) (rd : Dst) (ra : Src) (rb : Src) (s : State) :
    exec (.shl h rd ra rb) s = execShl h rd ra rb s := rfl
@[simp] theorem exec_shr (h : Hd) (rd : Dst) (ra : Src) (rb : Src) (s : State) :
    exec (.shr h rd ra rb) s = execShr h rd ra rb s := rfl
@[simp] theorem exec_sar (h : Hd) (rd : Dst) (ra : Src) (rb : Src) (s : State) :
    exec (.sar h rd ra rb) s = execSar h rd ra rb s := rfl
@[simp] theorem exec_rotl (h : Hd) (rd : Dst) (ra : Src) (rb : Src) (s : State) :
    exec (.rotl h rd ra rb) s = execRotl h rd ra rb s := rfl
@[simp] theorem exec_bfe (h : Hd) (rd : Dst) (ra : Src) (rb : Src) (rc : Src) (sg : Bool) (s : State) :
    exec (.bfe h rd ra rb rc sg) s = execBfe h rd ra rb rc sg s := rfl
@[simp] theorem exec_bfi (h : Hd) (rd : Dst) (ra : Src) (rb : Src) (rc : Src) (s : State) :
    exec (.bfi h rd ra rb rc) s = execBfi h rd ra rb rc s := rfl
@[simp] theorem exec_popc (h : Hd) (rd : Dst) (ra : Src) (s : State) :
    exec (.popc h rd ra) s = execPopc h rd ra s := rfl
@[simp] theorem exec_clz (h : Hd) (rd : Dst) (ra : Src) (s : State) :
    exec (.clz h rd ra) s = execClz h rd ra s := rfl
@[simp] theorem exec_brev (h : Hd) (rd : Dst) (ra : Src) (s : State) :
    exec (.brev h rd ra) s = execBrev h rd ra s := rfl
@[simp] theorem exec_icmp (h : Hd) (rd : Pred) (ra : Src) (rb : Src) (cond : ICond) (u : Bool) (s : State) :
    exec (.icmp h rd ra rb cond u) s = execIcmp h rd ra rb cond u s := rfl
@[simp] theorem exec_sel (h : Hd) (sh : Shape) (rd : Dst) (ra : Src) (rb : Src) (rc : Pred) (s : State) :
    exec (.sel h sh rd ra rb rc) s = execSel h sh rd ra rb rc s := rfl
@[simp] theorem exec_mov (h : Hd) (sh : Shape) (rd : Dst) (ra : Src) (s : State) :
    exec (.mov h sh rd ra) s = execMov h sh rd ra s := rfl
@[simp] theorem exec_movi (h : Hd) (rd : Dst) (imm : Word) (s : State) :
    exec (.movi h rd imm) s = execMovi h rd imm s := rfl
@[simp] theorem exec_lea (h : Hd) (rd : Dst) (ra : Base) (rb : Src) (n : Fin 8) (sx : Bool) (s : State) :
    exec (.lea h rd ra rb n sx) s = execLea h rd ra rb n sx s := rfl
@[simp] theorem exec_plop (h : Hd) (rd : Pred) (ra : Pred) (rb : Pred) (rc : Pred) (table : Fin 256) (s : State) :
    exec (.plop h rd ra rb rc table) s = execPlop h rd ra rb rc table s := rfl
@[simp] theorem exec_pset (h : Hd) (rd : Pred) (ra : Src) (t : PTest) (s : State) :
    exec (.pset h rd ra t) s = execPset h rd ra t s := rfl
@[simp] theorem exec_iaddImm (h : Hd) (rd : LDst) (ra : LSrc) (imm : BitVec 28) (s : State) :
    exec (.iaddImm h rd ra imm) s = execIaddImm h rd ra imm s := rfl
@[simp] theorem exec_imulImm (h : Hd) (rd : LDst) (ra : LSrc) (imm : BitVec 28) (s : State) :
    exec (.imulImm h rd ra imm) s = execImulImm h rd ra imm s := rfl
@[simp] theorem exec_andImm (h : Hd) (rd : LDst) (ra : LSrc) (imm : BitVec 28) (s : State) :
    exec (.andImm h rd ra imm) s = execAndImm h rd ra imm s := rfl
@[simp] theorem exec_orImm (h : Hd) (rd : LDst) (ra : LSrc) (imm : BitVec 28) (s : State) :
    exec (.orImm h rd ra imm) s = execOrImm h rd ra imm s := rfl
@[simp] theorem exec_xorImm (h : Hd) (rd : LDst) (ra : LSrc) (imm : BitVec 28) (s : State) :
    exec (.xorImm h rd ra imm) s = execXorImm h rd ra imm s := rfl
@[simp] theorem exec_shlImm (h : Hd) (rd : LDst) (ra : LSrc) (imm : BitVec 28) (s : State) :
    exec (.shlImm h rd ra imm) s = execShlImm h rd ra imm s := rfl
@[simp] theorem exec_shrImm (h : Hd) (rd : LDst) (ra : LSrc) (imm : BitVec 28) (s : State) :
    exec (.shrImm h rd ra imm) s = execShrImm h rd ra imm s := rfl
@[simp] theorem exec_sarImm (h : Hd) (rd : LDst) (ra : LSrc) (imm : BitVec 28) (s : State) :
    exec (.sarImm h rd ra imm) s = execSarImm h rd ra imm s := rfl
@[simp] theorem exec_fadd (h : Hd) (sh : Shape) (rd : LDst) (ra : Src) (rb : Src) (rm : Rm) (s : State) :
    exec (.fadd h sh rd ra rb rm) s = execFadd h sh rd ra rb rm s := rfl
@[simp] theorem exec_fsub (h : Hd) (sh : Shape) (rd : LDst) (ra : Src) (rb : Src) (rm : Rm) (s : State) :
    exec (.fsub h sh rd ra rb rm) s = execFsub h sh rd ra rb rm s := rfl
@[simp] theorem exec_fmul (h : Hd) (sh : Shape) (rd : LDst) (ra : Src) (rb : Src) (rm : Rm) (sec : Sec) (s : State) :
    exec (.fmul h sh rd ra rb rm sec) s = execFmul h sh rd ra rb rm sec s := rfl
@[simp] theorem exec_ffma (h : Hd) (sh : Shape) (rd : LDst) (ra : Src) (rb : Src) (rc : Src) (rm : Rm) (sec : Sec) (s : State) :
    exec (.ffma h sh rd ra rb rc rm sec) s = execFfma h sh rd ra rb rc rm sec s := rfl
@[simp] theorem exec_fmin (h : Hd) (sh : Shape) (rd : LDst) (ra : Src) (rb : Src) (rm : Rm) (s : State) :
    exec (.fmin h sh rd ra rb rm) s = execFmin h sh rd ra rb rm s := rfl
@[simp] theorem exec_fmax (h : Hd) (sh : Shape) (rd : LDst) (ra : Src) (rb : Src) (rm : Rm) (s : State) :
    exec (.fmax h sh rd ra rb rm) s = execFmax h sh rd ra rb rm s := rfl
@[simp] theorem exec_fcmp (h : Hd) (sh : Shape) (rd : Pred) (ra : Src) (rb : Src) (cond : FCond) (s : State) :
    exec (.fcmp h sh rd ra rb cond) s = execFcmp h sh rd ra rb cond s := rfl
@[simp] theorem exec_frelu (h : Hd) (sh : Shape) (rd : LDst) (ra : Src) (rm : Rm) (s : State) :
    exec (.frelu h sh rd ra rm) s = execFrelu h sh rd ra rm s := rfl
@[simp] theorem exec_fsqrelu (h : Hd) (sh : Shape) (rd : LDst) (ra : Src) (rm : Rm) (s : State) :
    exec (.fsqrelu h sh rd ra rm) s = execFsqrelu h sh rd ra rm s := rfl
@[simp] theorem exec_fclass (h : Hd) (sh : Shape) (rd : LDst) (ra : Src) (s : State) :
    exec (.fclass h sh rd ra) s = execFclass h sh rd ra s := rfl
@[simp] theorem exec_cvt (h : Hd) (sh : Shape) (rd : LDst) (ra : Src) (dst : Fmt) (src : Fmt) (rm : Rm) (s : State) :
    exec (.cvt h sh rd ra dst src rm) s = execCvt h sh rd ra dst src rm s := rfl
@[simp] theorem exec_qpk (h : Hd) (sh : Shape) (rd : LDst) (ra : Src) (rm : Rm) (f : EFmt) (s : State) :
    exec (.qpk h sh rd ra rm f) s = execQpk h sh rd ra rm f s := rfl
@[simp] theorem exec_qupk (h : Hd) (rd : LDst) (ra : Src) (f : EFmt) (s : State) :
    exec (.qupk h rd ra f) s = execQupk h rd ra f s := rfl
@[simp] theorem exec_frcp (h : Hd) (sh : Shape) (rd : LDst) (ra : Src) (rm : Rm) (s : State) :
    exec (.frcp h sh rd ra rm) s = execFrcp h sh rd ra rm s := rfl
@[simp] theorem exec_fdiv (h : Hd) (sh : Shape) (rd : LDst) (ra : Src) (rb : Src) (rm : Rm) (s : State) :
    exec (.fdiv h sh rd ra rb rm) s = execFdiv h sh rd ra rb rm s := rfl
@[simp] theorem exec_fsqrt (h : Hd) (sh : Shape) (rd : LDst) (ra : Src) (rm : Rm) (s : State) :
    exec (.fsqrt h sh rd ra rm) s = execFsqrt h sh rd ra rm s := rfl
@[simp] theorem exec_frsq (h : Hd) (sh : Shape) (rd : LDst) (ra : Src) (rm : Rm) (s : State) :
    exec (.frsq h sh rd ra rm) s = execFrsq h sh rd ra rm s := rfl
@[simp] theorem exec_fexp2 (h : Hd) (sh : Shape) (rd : LDst) (ra : Src) (rm : Rm) (s : State) :
    exec (.fexp2 h sh rd ra rm) s = execFexp2 h sh rd ra rm s := rfl
@[simp] theorem exec_flog2 (h : Hd) (sh : Shape) (rd : LDst) (ra : Src) (rm : Rm) (s : State) :
    exec (.flog2 h sh rd ra rm) s = execFlog2 h sh rd ra rm s := rfl
@[simp] theorem exec_fsinpi (h : Hd) (sh : Shape) (rd : LDst) (ra : Src) (rm : Rm) (s : State) :
    exec (.fsinpi h sh rd ra rm) s = execFsinpi h sh rd ra rm s := rfl
@[simp] theorem exec_fcospi (h : Hd) (sh : Shape) (rd : LDst) (ra : Src) (rm : Rm) (s : State) :
    exec (.fcospi h sh rd ra rm) s = execFcospi h sh rd ra rm s := rfl
@[simp] theorem exec_ftanh (h : Hd) (sh : Shape) (rd : LDst) (ra : Src) (rm : Rm) (s : State) :
    exec (.ftanh h sh rd ra rm) s = execFtanh h sh rd ra rm s := rfl
@[simp] theorem exec_fsigm (h : Hd) (sh : Shape) (rd : LDst) (ra : Src) (rm : Rm) (s : State) :
    exec (.fsigm h sh rd ra rm) s = execFsigm h sh rd ra rm s := rfl
@[simp] theorem exec_mmk (h : Hd) (sh : Shape) (rd : LDst) (ra : Src) (rb : Src) (s : State) :
    exec (.mmk h sh rd ra rb) s = execMmk h sh rd ra rb s := rfl
@[simp] theorem exec_mspl (h : Hd) (sh : Shape) (rd : LDst) (ra : Src) (s : State) :
    exec (.mspl h sh rd ra) s = execMspl h sh rd ra s := rfl
@[simp] theorem exec_maddv (h : Hd) (sh : Shape) (rd : LDst) (ra : Src) (rb : Src) (s : State) :
    exec (.maddv h sh rd ra rb) s = execMaddv h sh rd ra rb s := rfl
@[simp] theorem exec_mtag (h : Hd) (rd : LDst) (ra : Src) (rb : Src) (neg : Bool) (s : State) :
    exec (.mtag h rd ra rb neg) s = execMtag h rd ra rb neg s := rfl
@[simp] theorem exec_mcov (h : Hd) (rd : LDst) (ra : Src) (rb : Src) (s : State) :
    exec (.mcov h rd ra rb) s = execMcov h rd ra rb s := rfl
@[simp] theorem exec_mfold (h : Hd) (rd : LDst) (ra : Src) (sel : FoldSel) (s : State) :
    exec (.mfold h rd ra sel) s = execMfold h rd ra sel s := rfl
@[simp] theorem exec_sdraw (h : Hd) (rd : LDst) (ra : Src) (s : State) :
    exec (.sdraw h rd ra) s = execSdraw h rd ra s := rfl
@[simp] theorem exec_sstat (h : Hd) (rd : LDst) (ra : Src) (s : State) :
    exec (.sstat h rd ra) s = execSstat h rd ra s := rfl
@[simp] theorem exec_shfl (h : Hd) (sh : Shape) (rd : LDst) (ra : Src) (rb : Src) (m : ShMode) (wl : Fin 6) (s : State) :
    exec (.shfl h sh rd ra rb m wl) s = execShfl h sh rd ra rb m wl s := rfl
@[simp] theorem exec_vote (h : Hd) (rd : LDst) (ra : Pred) (m : VoteMode) (s : State) :
    exec (.vote h rd ra m) s = execVote h rd ra m s := rfl
@[simp] theorem exec_lred (h : Hd) (sh : Shape) (rd : LDst) (ra : Src) (op : RedOp) (wl : Fin 6) (s : State) :
    exec (.lred h sh rd ra op wl) s = execLred h sh rd ra op wl s := rfl
@[simp] theorem exec_lscn (h : Hd) (sh : Shape) (rd : LDst) (ra : Src) (op : RedOp) (wl : Fin 6) (x : Bool) (s : State) :
    exec (.lscn h sh rd ra op wl x) s = execLscn h sh rd ra op wl x s := rfl
@[simp] theorem exec_match (h : Hd) (rd : LDst) (ra : Src) (s : State) :
    exec (.match h rd ra) s = execMatch h rd ra s := rfl
@[simp] theorem exec_vrd (h : Hd) (sh : Shape) (rd : LDst) (ra : Src) (s : State) :
    exec (.vrd h sh rd ra) s = execVrd h sh rd ra s := rfl
@[simp] theorem exec_vwr (h : Hd) (sh : Shape) (ra : Src) (rb : Src) (s : State) :
    exec (.vwr h sh ra rb) s = execVwr h sh ra rb s := rfl
@[simp] theorem exec_gseed (h : Hd) (ra : Src) (sl : Fin 4) (form : SeedForm) (s : State) :
    exec (.gseed h ra sl form) s = execGseed h ra sl form s := rfl
@[simp] theorem exec_guni (h : Hd) (sh : Shape) (rd : LDst) (sl : Fin 4) (form : UniForm) (s : State) :
    exec (.guni h sh rd sl form) s = execGuni h sh rd sl form s := rfl
@[simp] theorem exec_gnorm (h : Hd) (sh : Shape) (rd : LDst) (sl : Fin 4) (s : State) :
    exec (.gnorm h sh rd sl) s = execGnorm h sh rd sl s := rfl
@[simp] theorem exec_ggum (h : Hd) (sh : Shape) (rd : LDst) (sl : Fin 4) (s : State) :
    exec (.ggum h sh rd sl) s = execGgum h sh rd sl s := rfl
@[simp] theorem exec_gber (h : Hd) (rd : LDst) (ra : Src) (sl : Fin 4) (s : State) :
    exec (.gber h rd ra sl) s = execGber h rd ra sl s := rfl
@[simp] theorem exec_gcat (h : Hd) (rd : LDst) (ra : Src) (sl : Fin 4) (s : State) :
    exec (.gcat h rd ra sl) s = execGcat h rd ra sl s := rfl
@[simp] theorem exec_ld (h : Hd) (rd : LDst) (ra : Base) (wd : Width) (sc : Scope) (esc : Bool) (sx : Bool) (off : BitVec 18) (s : State) :
    exec (.ld h rd ra wd sc esc sx off) s = execLd h rd ra wd sc esc sx off s := rfl
@[simp] theorem exec_st (h : Hd) (rd : LSrc) (ra : Base) (wd : Width) (sc : Scope) (esc : Bool) (off : BitVec 18) (s : State) :
    exec (.st h rd ra wd sc esc off) s = execSt h rd ra wd sc esc off s := rfl
@[simp] theorem exec_ldp (h : Hd) (rd : LDst) (ra : Base) (rb : Src) (sc : Scope) (esc : Bool) (s : State) :
    exec (.ldp h rd ra rb sc esc) s = execLdp h rd ra rb sc esc s := rfl
@[simp] theorem exec_stp (h : Hd) (rd : LSrc) (ra : Base) (rb : Src) (sc : Scope) (esc : Bool) (s : State) :
    exec (.stp h rd ra rb sc esc) s = execStp h rd ra rb sc esc s := rfl
@[simp] theorem exec_atom (h : Hd) (op : AtomOp) (rd : Option LDst) (ra : Base) (rb : Src) (s : State) :
    exec (.atom h op rd ra rb) s = execAtom h op rd ra rb s := rfl
@[simp] theorem exec_fence (h : Hd) (k : FenceKind) (sc : Scope) (paths : Paths) (s : State) :
    exec (.fence h k sc paths) s = execFence h k sc paths s := rfl
@[simp] theorem exec_cctlWb (h : Hd) (ra : Base) (rb : Src) (s : State) :
    exec (.cctlWb h ra rb) s = execCctlWb h ra rb s := rfl
@[simp] theorem exec_cctlInv (h : Hd) (ra : Base) (rb : Src) (s : State) :
    exec (.cctlInv h ra rb) s = execCctlInv h ra rb s := rfl
@[simp] theorem exec_cctlDrain (h : Hd) (ra : Base) (rb : Src) (s : State) :
    exec (.cctlDrain h ra rb) s = execCctlDrain h ra rb s := rfl
@[simp] theorem exec_cctlRepl (h : Hd) (ra : Base) (rb : Src) (s : State) :
    exec (.cctlRepl h ra rb) s = execCctlRepl h ra rb s := rfl
@[simp] theorem exec_cctlPf1 (h : Hd) (ra : Base) (rb : Src) (s : State) :
    exec (.cctlPf1 h ra rb) s = execCctlPf1 h ra rb s := rfl
@[simp] theorem exec_cctlPf2 (h : Hd) (ra : Base) (rb : Src) (s : State) :
    exec (.cctlPf2 h ra rb) s = execCctlPf2 h ra rb s := rfl
@[simp] theorem exec_txbeg (h : Hd) (pn : Fin 7) (s : State) :
    exec (.txbeg h pn) s = execTxbeg h pn s := rfl
@[simp] theorem exec_txend (h : Hd) (rd : Pred) (s : State) :
    exec (.txend h rd) s = execTxend h rd s := rfl
@[simp] theorem exec_txabt (h : Hd) (s : State) :
    exec (.txabt h) s = execTxabt h s := rfl
@[simp] theorem exec_cpy (h : Hd) (ra : Base) (rb : Base) (n : CpySize) (j : Fin 16) (esc : Bool) (na : Bool) (s : State) :
    exec (.cpy h ra rb n j esc na) s = execCpy h ra rb n j esc na s := rfl
@[simp] theorem exec_cpyb (h : Hd) (ra : Fin 64) (j : Fin 16) (esc : Bool) (s : State) :
    exec (.cpyb h ra j esc) s = execCpyb h ra j esc s := rfl
@[simp] theorem exec_binit (h : Hd) (ra : Src) (j : Fin 16) (s : State) :
    exec (.binit h ra j) s = execBinit h ra j s := rfl
@[simp] theorem exec_barv (h : Hd) (j : Fin 16) (s : State) :
    exec (.barv h j) s = execBarv h j s := rfl
@[simp] theorem exec_bexp (h : Hd) (ra : Src) (j : Fin 16) (dec : Bool) (s : State) :
    exec (.bexp h ra j dec) s = execBexp h ra j dec s := rfl
@[simp] theorem exec_bwait (h : Hd) (j : Fin 16) (q : Bool) (s : State) :
    exec (.bwait h j q) s = execBwait h j q s := rfl
@[simp] theorem exec_btest (h : Hd) (rd : Pred) (j : Fin 16) (form : BTestForm) (s : State) :
    exec (.btest h rd j form) s = execBtest h rd j form s := rfl
@[simp] theorem exec_bsync (h : Hd) (j : Fin 16) (s : State) :
    exec (.bsync h j) s = execBsync h j s := rfl
@[simp] theorem exec_tloop (h : Hd) (ra : Fin 64) (k : Fin 4) (j : Fin 16) (mode : LoopMode) (z : Bool) (s : State) :
    exec (.tloop h ra k j mode z) s = execTloop h ra k j mode z s := rfl
@[simp] theorem exec_thad (h : Hd) (ra : Fin 64) (pts : HadPts) (j : Fin 16) (sr : Bool) (s : State) :
    exec (.thad h ra pts j sr) s = execThad h ra pts j sr s := rfl
@[simp] theorem exec_taccRd (h : Hd) (rd : LDst) (ra : Src) (k : Fin 4) (f : AccForm) (s : State) :
    exec (.taccRd h rd ra k f) s = execTaccRd h rd ra k f s := rfl
@[simp] theorem exec_taccWr (h : Hd) (sh : Shape) (rd : LDst) (ra : Src) (k : Fin 4) (s : State) :
    exec (.taccWr h sh rd ra k) s = execTaccWr h sh rd ra k s := rfl
@[simp] theorem exec_taccZero (h : Hd) (k : Fin 4) (s : State) :
    exec (.taccZero h k) s = execTaccZero h k s := rfl
@[simp] theorem exec_tqnt (h : Hd) (ra : Fin 64) (k : Fin 4) (j : Fin 16) (sr : Bool) (vr : Bool) (s : State) :
    exec (.tqnt h ra k j sr vr) s = execTqnt h ra k j sr vr s := rfl
@[simp] theorem exec_movC16 (d : Fin 64) (b : CSrc) (s : State) :
    exec (.movC16 d b) s = execMovC16 d b s := rfl
@[simp] theorem exec_iaddC16 (d : Fin 64) (b : CSrc) (s : State) :
    exec (.iaddC16 d b) s = execIaddC16 d b s := rfl
@[simp] theorem exec_isubC16 (d : Fin 64) (b : CSrc) (s : State) :
    exec (.isubC16 d b) s = execIsubC16 d b s := rfl
@[simp] theorem exec_andC16 (d : Fin 64) (b : CSrc) (s : State) :
    exec (.andC16 d b) s = execAndC16 d b s := rfl
@[simp] theorem exec_orC16 (d : Fin 64) (b : CSrc) (s : State) :
    exec (.orC16 d b) s = execOrC16 d b s := rfl
@[simp] theorem exec_xorC16 (d : Fin 64) (b : CSrc) (s : State) :
    exec (.xorC16 d b) s = execXorC16 d b s := rfl
@[simp] theorem exec_shlC16 (d : Fin 64) (b : CSrc) (s : State) :
    exec (.shlC16 d b) s = execShlC16 d b s := rfl
@[simp] theorem exec_shrC16 (d : Fin 64) (b : CSrc) (s : State) :
    exec (.shrC16 d b) s = execShrC16 d b s := rfl
@[simp] theorem exec_iaddiC16 (d : Fin 64) (i : BitVec 5) (s : State) :
    exec (.iaddiC16 d i) s = execIaddiC16 d i s := rfl
@[simp] theorem exec_moviC16 (d : Fin 64) (i : BitVec 5) (s : State) :
    exec (.moviC16 d i) s = execMoviC16 d i s := rfl
@[simp] theorem exec_faddC16 (d : Fin 64) (b : CSrc) (s : State) :
    exec (.faddC16 d b) s = execFaddC16 d b s := rfl
@[simp] theorem exec_fmulC16 (d : Fin 64) (b : CSrc) (s : State) :
    exec (.fmulC16 d b) s = execFmulC16 d b s := rfl
@[simp] theorem exec_faddMC16 (d : Fin 64) (b : CSrc) (s : State) :
    exec (.faddMC16 d b) s = execFaddMC16 d b s := rfl
@[simp] theorem exec_fmulMC16 (d : Fin 64) (b : CSrc) (s : State) :
    exec (.fmulMC16 d b) s = execFmulMC16 d b s := rfl
@[simp] theorem exec_braS (e : BitVec 11) (s : State) :
    exec (.braS e) s = execBraS e s := rfl
@[simp] theorem exec_nopC16 (s : State) :
    exec (.nopC16) s = execNopC16 s := rfl
@[simp] theorem exec_iaddS32 (st : Fin 4) (rd : LDst) (ra : LSrc) (rb : SSrc) (s : State) :
    exec (.iaddS32 st rd ra rb) s = execIaddS32 st rd ra rb s := rfl
@[simp] theorem exec_isubS32 (st : Fin 4) (rd : LDst) (ra : LSrc) (rb : SSrc) (s : State) :
    exec (.isubS32 st rd ra rb) s = execIsubS32 st rd ra rb s := rfl
@[simp] theorem exec_imulS32 (st : Fin 4) (rd : LDst) (ra : LSrc) (rb : SSrc) (s : State) :
    exec (.imulS32 st rd ra rb) s = execImulS32 st rd ra rb s := rfl
@[simp] theorem exec_imulhS32 (st : Fin 4) (rd : LDst) (ra : LSrc) (rb : SSrc) (s : State) :
    exec (.imulhS32 st rd ra rb) s = execImulhS32 st rd ra rb s := rfl
@[simp] theorem exec_iminS32 (st : Fin 4) (rd : LDst) (ra : LSrc) (rb : SSrc) (s : State) :
    exec (.iminS32 st rd ra rb) s = execIminS32 st rd ra rb s := rfl
@[simp] theorem exec_imaxS32 (st : Fin 4) (rd : LDst) (ra : LSrc) (rb : SSrc) (s : State) :
    exec (.imaxS32 st rd ra rb) s = execImaxS32 st rd ra rb s := rfl
@[simp] theorem exec_andS32 (st : Fin 4) (rd : LDst) (ra : LSrc) (rb : SSrc) (s : State) :
    exec (.andS32 st rd ra rb) s = execAndS32 st rd ra rb s := rfl
@[simp] theorem exec_orS32 (st : Fin 4) (rd : LDst) (ra : LSrc) (rb : SSrc) (s : State) :
    exec (.orS32 st rd ra rb) s = execOrS32 st rd ra rb s := rfl
@[simp] theorem exec_xorS32 (st : Fin 4) (rd : LDst) (ra : LSrc) (rb : SSrc) (s : State) :
    exec (.xorS32 st rd ra rb) s = execXorS32 st rd ra rb s := rfl
@[simp] theorem exec_andnS32 (st : Fin 4) (rd : LDst) (ra : LSrc) (rb : SSrc) (s : State) :
    exec (.andnS32 st rd ra rb) s = execAndnS32 st rd ra rb s := rfl
@[simp] theorem exec_shlS32 (st : Fin 4) (rd : LDst) (ra : LSrc) (rb : SSrc) (s : State) :
    exec (.shlS32 st rd ra rb) s = execShlS32 st rd ra rb s := rfl
@[simp] theorem exec_shrS32 (st : Fin 4) (rd : LDst) (ra : LSrc) (rb : SSrc) (s : State) :
    exec (.shrS32 st rd ra rb) s = execShrS32 st rd ra rb s := rfl
@[simp] theorem exec_sarS32 (st : Fin 4) (rd : LDst) (ra : LSrc) (rb : SSrc) (s : State) :
    exec (.sarS32 st rd ra rb) s = execSarS32 st rd ra rb s := rfl
@[simp] theorem exec_rotlS32 (st : Fin 4) (rd : LDst) (ra : LSrc) (rb : SSrc) (s : State) :
    exec (.rotlS32 st rd ra rb) s = execRotlS32 st rd ra rb s := rfl
@[simp] theorem exec_faddS32 (st : Fin 4) (m : Bool) (rd : LDst) (ra : LSrc) (rb : SSrc) (s : State) :
    exec (.faddS32 st m rd ra rb) s = execFaddS32 st m rd ra rb s := rfl
@[simp] theorem exec_fsubS32 (st : Fin 4) (m : Bool) (rd : LDst) (ra : LSrc) (rb : SSrc) (s : State) :
    exec (.fsubS32 st m rd ra rb) s = execFsubS32 st m rd ra rb s := rfl
@[simp] theorem exec_fmulS32 (st : Fin 4) (m : Bool) (rd : LDst) (ra : LSrc) (rb : SSrc) (s : State) :
    exec (.fmulS32 st m rd ra rb) s = execFmulS32 st m rd ra rb s := rfl
@[simp] theorem exec_fminS32 (st : Fin 4) (m : Bool) (rd : LDst) (ra : LSrc) (rb : SSrc) (s : State) :
    exec (.fminS32 st m rd ra rb) s = execFminS32 st m rd ra rb s := rfl
@[simp] theorem exec_fmaxS32 (st : Fin 4) (m : Bool) (rd : LDst) (ra : LSrc) (rb : SSrc) (s : State) :
    exec (.fmaxS32 st m rd ra rb) s = execFmaxS32 st m rd ra rb s := rfl
@[simp] theorem exec_fdivS32 (st : Fin 4) (m : Bool) (rd : LDst) (ra : LSrc) (rb : SSrc) (s : State) :
    exec (.fdivS32 st m rd ra rb) s = execFdivS32 st m rd ra rb s := rfl
@[simp] theorem exec_movS32 (st : Fin 4) (m : Bool) (rd : LDst) (ra : LSrc) (s : State) :
    exec (.movS32 st m rd ra) s = execMovS32 st m rd ra s := rfl
@[simp] theorem exec_popcS32 (st : Fin 4) (rd : LDst) (ra : LSrc) (s : State) :
    exec (.popcS32 st rd ra) s = execPopcS32 st rd ra s := rfl
@[simp] theorem exec_clzS32 (st : Fin 4) (rd : LDst) (ra : LSrc) (s : State) :
    exec (.clzS32 st rd ra) s = execClzS32 st rd ra s := rfl
@[simp] theorem exec_freluS32 (st : Fin 4) (m : Bool) (rd : LDst) (ra : LSrc) (s : State) :
    exec (.freluS32 st m rd ra) s = execFreluS32 st m rd ra s := rfl
@[simp] theorem exec_fsqreluS32 (st : Fin 4) (m : Bool) (rd : LDst) (ra : LSrc) (s : State) :
    exec (.fsqreluS32 st m rd ra) s = execFsqreluS32 st m rd ra s := rfl
@[simp] theorem exec_frcpS32 (st : Fin 4) (m : Bool) (rd : LDst) (ra : LSrc) (s : State) :
    exec (.frcpS32 st m rd ra) s = execFrcpS32 st m rd ra s := rfl
@[simp] theorem exec_fsqrtS32 (st : Fin 4) (m : Bool) (rd : LDst) (ra : LSrc) (s : State) :
    exec (.fsqrtS32 st m rd ra) s = execFsqrtS32 st m rd ra s := rfl
@[simp] theorem exec_frsqS32 (st : Fin 4) (m : Bool) (rd : LDst) (ra : LSrc) (s : State) :
    exec (.frsqS32 st m rd ra) s = execFrsqS32 st m rd ra s := rfl
@[simp] theorem exec_fexp2S32 (st : Fin 4) (m : Bool) (rd : LDst) (ra : LSrc) (s : State) :
    exec (.fexp2S32 st m rd ra) s = execFexp2S32 st m rd ra s := rfl
@[simp] theorem exec_flog2S32 (st : Fin 4) (m : Bool) (rd : LDst) (ra : LSrc) (s : State) :
    exec (.flog2S32 st m rd ra) s = execFlog2S32 st m rd ra s := rfl
@[simp] theorem exec_ftanhS32 (st : Fin 4) (m : Bool) (rd : LDst) (ra : LSrc) (s : State) :
    exec (.ftanhS32 st m rd ra) s = execFtanhS32 st m rd ra s := rfl
@[simp] theorem exec_fsigmS32 (st : Fin 4) (m : Bool) (rd : LDst) (ra : LSrc) (s : State) :
    exec (.fsigmS32 st m rd ra) s = execFsigmS32 st m rd ra s := rfl
@[simp] theorem exec_tailWrite (p : Port) (d : Die) (q : Fin 4096) (v : BitVec 64) (s : State) :
    exec (.tailWrite p d q v) s = execTailWrite p d q v s := rfl
@[simp] theorem exec_queueTableWrite (p : Port) (q : Fin 4096) (w : Fin 4) (v : BitVec 64) (s : State) :
    exec (.queueTableWrite p q w v) s = execQueueTableWrite p q w v s := rfl
@[simp] theorem exec_queueSwitchIn (q : Fin 4096) (s : State) :
    exec (.queueSwitchIn q) s = execQueueSwitchIn q s := rfl
@[simp] theorem exec_queueSwitchOut (q : Fin 4096) (s : State) :
    exec (.queueSwitchOut q) s = execQueueSwitchOut q s := rfl
@[simp] theorem exec_commandAccept (q : Fin 4096) (s : State) :
    exec (.commandAccept q) s = execCommandAccept q s := rfl
@[simp] theorem exec_launchEntryAccept (c : Ctx) (d : Die) (s : State) :
    exec (.launchEntryAccept c d) s = execLaunchEntryAccept c d s := rfl
@[simp] theorem exec_launchQueueSpace (t : Nat) (g : Nat) (s : State) :
    exec (.launchQueueSpace t g) s = execLaunchQueueSpace t g s := rfl
@[simp] theorem exec_descriptorCheck (g : Nat) (s : State) :
    exec (.descriptorCheck g) s = execDescriptorCheck g s := rfl
@[simp] theorem exec_predecessorDecrement (n : Nat) (s : State) :
    exec (.predecessorDecrement n) s = execPredecessorDecrement n s := rfl
@[simp] theorem exec_teamHandOut (g : Nat) (s : State) :
    exec (.teamHandOut g) s = execTeamHandOut g s := rfl
@[simp] theorem exec_teamEnd (t : Nat) (s : State) :
    exec (.teamEnd t) s = execTeamEnd t s := rfl
@[simp] theorem exec_gridCompletion (g : Nat) (s : State) :
    exec (.gridCompletion g) s = execGridCompletion g s := rfl
@[simp] theorem exec_completionRecord (g : Nat) (s : State) :
    exec (.completionRecord g) s = execCompletionRecord g s := rfl
@[simp] theorem exec_eventRingTimeout (d : Die) (k : Fin 16) (s : State) :
    exec (.eventRingTimeout d k) s = execEventRingTimeout d k s := rfl
@[simp] theorem exec_preempt (p : Port) (c : Ctx) (s : State) :
    exec (.preempt p c) s = execPreempt p c s := rfl
@[simp] theorem exec_resume (p : Port) (c : Ctx) (s : State) :
    exec (.resume p c) s = execResume p c s := rfl
@[simp] theorem exec_contextReset (p : Port) (c : Ctx) (s : State) :
    exec (.contextReset p c) s = execContextReset p c s := rfl
@[simp] theorem exec_contextDestroy (p : Port) (c : Ctx) (s : State) :
    exec (.contextDestroy p c) s = execContextDestroy p c s := rfl
@[simp] theorem exec_contextPurgeComplete (c : Ctx) (s : State) :
    exec (.contextPurgeComplete c) s = execContextPurgeComplete c s := rfl
@[simp] theorem exec_contextEnable (p : Port) (c : Ctx) (s : State) :
    exec (.contextEnable p c) s = execContextEnable p c s := rfl
@[simp] theorem exec_deadlineExpiry (c : Ctx) (s : State) :
    exec (.deadlineExpiry c) s = execDeadlineExpiry c s := rfl
@[simp] theorem exec_drainEnd (c : Ctx) (s : State) :
    exec (.drainEnd c) s = execDrainEnd c s := rfl
@[simp] theorem exec_purgeGo (p : Port) (w : Option Ctx) (s : State) :
    exec (.purgeGo p w) s = execPurgeGo p w s := rfl
@[simp] theorem exec_purgeComplete (w : Option Ctx) (s : State) :
    exec (.purgeComplete w) s = execPurgeComplete w s := rfl
@[simp] theorem exec_freplyRetry (p : Port) (c : Ctx) (seq : BitVec 62) (s : State) :
    exec (.freplyRetry p c seq) s = execFreplyRetry p c seq s := rfl
@[simp] theorem exec_freplyDecline (p : Port) (c : Ctx) (seq : BitVec 62) (s : State) :
    exec (.freplyDecline p c seq) s = execFreplyDecline p c seq s := rfl
@[simp] theorem exec_faultRecordWrite (c : Ctx) (s : State) :
    exec (.faultRecordWrite c) s = execFaultRecordWrite c s := rfl
@[simp] theorem exec_pageWalk (n : Nat) (s : State) :
    exec (.pageWalk n) s = execPageWalk n s := rfl
@[simp] theorem exec_authorityMove (p : Port) (dst : Port) (s : State) :
    exec (.authorityMove p dst) s = execAuthorityMove p dst s := rfl
@[simp] theorem exec_deviceReset (p : Port) (s : State) :
    exec (.deviceReset p) s = execDeviceReset p s := rfl
@[simp] theorem exec_perst (p : Port) (s : State) :
    exec (.perst p) s = execPerst p s := rfl
@[simp] theorem exec_portReset (p : Port) (s : State) :
    exec (.portReset p) s = execPortReset p s := rfl
@[simp] theorem exec_pcieLinkDown (p : Port) (s : State) :
    exec (.pcieLinkDown p) s = execPcieLinkDown p s := rfl
@[simp] theorem exec_contextApertureAccess (p : Port) (off : BitVec 34) (a : HostAcc) (s : State) :
    exec (.contextApertureAccess p off a) s = execContextApertureAccess p off a s := rfl
@[simp] theorem exec_physicalApertureAccess (p : Port) (off : BitVec 32) (a : HostAcc) (s : State) :
    exec (.physicalApertureAccess p off a) s = execPhysicalApertureAccess p off a s := rfl
@[simp] theorem exec_registerWrite (p : Port) (off : BitVec 27) (wide : Bool) (v : BitVec 64) (s : State) :
    exec (.registerWrite p off wide v) s = execRegisterWrite p off wide v s := rfl
@[simp] theorem exec_firmwareGo (p : Port) (s : State) :
    exec (.firmwareGo p) s = execFirmwareGo p s := rfl
@[simp] theorem exec_firmwareVerifyDone (s : State) :
    exec (.firmwareVerifyDone) s = execFirmwareVerifyDone s := rfl
@[simp] theorem exec_identityDerivation (s : State) :
    exec (.identityDerivation) s = execIdentityDerivation s := rfl
@[simp] theorem exec_getVersion (p : Port) (s : State) :
    exec (.getVersion p) s = execGetVersion p s := rfl
@[simp] theorem exec_getCapabilities (p : Port) (s : State) :
    exec (.getCapabilities p) s = execGetCapabilities p s := rfl
@[simp] theorem exec_negotiateAlgorithms (p : Port) (s : State) :
    exec (.negotiateAlgorithms p) s = execNegotiateAlgorithms p s := rfl
@[simp] theorem exec_getDigests (p : Port) (s : State) :
    exec (.getDigests p) s = execGetDigests p s := rfl
@[simp] theorem exec_getCertificate (p : Port) (slot : Fin 16) (off : BitVec 16) (len : BitVec 16) (s : State) :
    exec (.getCertificate p slot off len) s = execGetCertificate p slot off len s := rfl
@[simp] theorem exec_challenge (p : Port) (slot : Fin 16) (nonce : BitVec 256) (s : State) :
    exec (.challenge p slot nonce) s = execChallenge p slot nonce s := rfl
@[simp] theorem exec_getMeasurements (p : Port) (idx : BitVec 8) (sign : Bool) (nonce : BitVec 256) (s : State) :
    exec (.getMeasurements p idx sign nonce) s = execGetMeasurements p idx sign nonce s := rfl
@[simp] theorem exec_cool (p : Port) (s : State) :
    exec (.cool p) s = execCool p s := rfl
@[simp] theorem exec_warm (p : Port) (s : State) :
    exec (.warm p) s = execWarm p s := rfl
@[simp] theorem exec_sensorSample (temps : List (Nat × BitVec 12)) (s : State) :
    exec (.sensorSample temps) s = execSensorSample temps s := rfl
@[simp] theorem exec_bandHoldExpiry (s : State) :
    exec (.bandHoldExpiry) s = execBandHoldExpiry s := rfl
@[simp] theorem exec_coldHoldExpiry (s : State) :
    exec (.coldHoldExpiry) s = execColdHoldExpiry s := rfl
@[simp] theorem exec_runIdleExpiry (s : State) :
    exec (.runIdleExpiry) s = execRunIdleExpiry s := rfl
@[simp] theorem exec_warmingHoldExpiry (s : State) :
    exec (.warmingHoldExpiry) s = execWarmingHoldExpiry s := rfl
@[simp] theorem exec_sweepComplete (k : Fin 8) (s : State) :
    exec (.sweepComplete k) s = execSweepComplete k s := rfl
@[simp] theorem exec_haltDrainExpiry (s : State) :
    exec (.haltDrainExpiry) s = execHaltDrainExpiry s := rfl
@[simp] theorem exec_powerOn (s : State) :
    exec (.powerOn) s = execPowerOn s := rfl
@[simp] theorem exec_tripResetRelease (s : State) :
    exec (.tripResetRelease) s = execTripResetRelease s := rfl
@[simp] theorem exec_scrubRead (k : Fin 8) (e : List LineErr) (s : State) :
    exec (.scrubRead k e) s = execScrubRead k e s := rfl
@[simp] theorem exec_dramHashChange (k : Fin 8) (s : State) :
    exec (.dramHashChange k) s = execDramHashChange k s := rfl
@[simp] theorem exec_migrationRowMove (k : Fin 8) (rows : Nat) (e : List LineErr) (s : State) :
    exec (.migrationRowMove k rows e) s = execMigrationRowMove k rows e s := rfl
@[simp] theorem exec_droopEvent (core : Fin 160) (s : State) :
    exec (.droopEvent core) s = execDroopEvent core s := rfl
@[simp] theorem exec_droopMarkExpiry (core : Fin 160) (s : State) :
    exec (.droopMarkExpiry core) s = execDroopMarkExpiry core s := rfl
@[simp] theorem exec_storeDrain (t : Nat) (g : Nat) (s : State) :
    exec (.storeDrain t g) s = execStoreDrain t g s := rfl
@[simp] theorem exec_loadComplete (t : Nat) (g : Nat) (id : Nat) (s : State) :
    exec (.loadComplete t g id) s = execLoadComplete t g id s := rfl
@[simp] theorem exec_dramAccess (k : Fin 8) (a : DramReq) (s : State) :
    exec (.dramAccess k a) s = execDramAccess k a s := rfl
@[simp] theorem exec_getS (m : Nat) (s : State) :
    exec (.getS m) s = execGetS m s := rfl
@[simp] theorem exec_getM (m : Nat) (s : State) :
    exec (.getM m) s = execGetM m s := rfl
@[simp] theorem exec_upgrade (m : Nat) (s : State) :
    exec (.upgrade m) s = execUpgrade m s := rfl
@[simp] theorem exec_putM (m : Nat) (s : State) :
    exec (.putM m) s = execPutM m s := rfl
@[simp] theorem exec_putS (m : Nat) (s : State) :
    exec (.putS m) s = execPutS m s := rfl
@[simp] theorem exec_forwardedWrite (m : Nat) (s : State) :
    exec (.forwardedWrite m) s = execForwardedWrite m s := rfl
@[simp] theorem exec_inv (m : Nat) (s : State) :
    exec (.inv m) s = execInv m s := rfl
@[simp] theorem exec_ack (m : Nat) (s : State) :
    exec (.ack m) s = execAck m s := rfl
@[simp] theorem exec_fwd (m : Nat) (s : State) :
    exec (.fwd m) s = execFwd m s := rfl
@[simp] theorem exec_data (m : Nat) (s : State) :
    exec (.data m) s = execData m s := rfl
@[simp] theorem exec_enlargerEpoch (d : Die) (s : State) :
    exec (.enlargerEpoch d) s = execEnlargerEpoch d s := rfl
@[simp] theorem exec_atomPerform (t : Nat) (g : Nat) (id : Nat) (s : State) :
    exec (.atomPerform t g id) s = execAtomPerform t g id s := rfl
@[simp] theorem exec_atomicopCompletion (t : Nat) (g : Nat) (id : Nat) (ur : Bool) (s : State) :
    exec (.atomicopCompletion t g id ur) s = execAtomicopCompletion t g id ur s := rfl
@[simp] theorem exec_fenceComplete (t : Nat) (g : Nat) (s : State) :
    exec (.fenceComplete t g) s = execFenceComplete t g s := rfl
@[simp] theorem exec_txOpen (t : Nat) (g : Nat) (s : State) :
    exec (.txOpen t g) s = execTxOpen t g s := rfl
@[simp] theorem exec_txConflictAbort (t : Nat) (g : Nat) (lane : Nat) (s : State) :
    exec (.txConflictAbort t g lane) s = execTxConflictAbort t g lane s := rfl
@[simp] theorem exec_developPerform (t : Nat) (s : State) :
    exec (.developPerform t) s = execDevelopPerform t s := rfl
@[simp] theorem exec_copyChunk (t : Nat) (id : Nat) (lane : Nat) (s : State) :
    exec (.copyChunk t id lane) s = execCopyChunk t id lane s := rfl
@[simp] theorem exec_bulkChunk (core : Fin 160) (id : Nat) (chunk : Nat) (s : State) :
    exec (.bulkChunk core id chunk) s = execBulkChunk core id chunk s := rfl
@[simp] theorem exec_bulkQueueAccept (t : Nat) (g : Nat) (s : State) :
    exec (.bulkQueueAccept t g) s = execBulkQueueAccept t g s := rfl
@[simp] theorem exec_barrierArrivalApply (t : Nat) (g : Nat) (s : State) :
    exec (.barrierArrivalApply t g) s = execBarrierArrivalApply t g s := rfl
@[simp] theorem exec_remoteWriteArrival (pkt : Packet) (s : State) :
    exec (.remoteWriteArrival pkt) s = execRemoteWriteArrival pkt s := rfl
@[simp] theorem exec_remoteWriteAck (id : Nat) (chunk : Nat) (s : State) :
    exec (.remoteWriteAck id chunk) s = execRemoteWriteAck id chunk s := rfl
@[simp] theorem exec_remoteReadArrival (pkt : Packet) (s : State) :
    exec (.remoteReadArrival pkt) s = execRemoteReadArrival pkt s := rfl
@[simp] theorem exec_remoteReadResponse (id : Nat) (chunk : Nat) (bytes : BitVec 128) (poison : Bool) (s : State) :
    exec (.remoteReadResponse id chunk bytes poison) s = execRemoteReadResponse id chunk bytes poison s := rfl
@[simp] theorem exec_remoteRetry (id : Nat) (chunk : Nat) (s : State) :
    exec (.remoteRetry id chunk) s = execRemoteRetry id chunk s := rfl
@[simp] theorem exec_transportGiveUp (id : Nat) (s : State) :
    exec (.transportGiveUp id) s = execTransportGiveUp id s := rfl
@[simp] theorem exec_tileQueueAccept (t : Nat) (g : Nat) (s : State) :
    exec (.tileQueueAccept t g) s = execTileQueueAccept t g s := rfl
@[simp] theorem exec_tloopStep (core : Fin 160) (id : Nat) (s : State) :
    exec (.tloopStep core id) s = execTloopStep core id s := rfl
@[simp] theorem exec_thadRow (core : Fin 160) (id : Nat) (s : State) :
    exec (.thadRow core id) s = execThadRow core id s := rfl
@[simp] theorem exec_tqntRow (core : Fin 160) (id : Nat) (s : State) :
    exec (.tqntRow core id) s = execTqntRow core id s := rfl
@[simp] theorem exec_waitlPassEnd (t : Nat) (g : Nat) (lane : Nat) (s : State) :
    exec (.waitlPassEnd t g lane) s = execWaitlPassEnd t g lane s := rfl
@[simp] theorem exec_yieldHoldEnd (t : Nat) (g : Nat) (s : State) :
    exec (.yieldHoldEnd t g) s = execYieldHoldEnd t g s := rfl
@[simp] theorem exec_budgetExpiry (t : Nat) (s : State) :
    exec (.budgetExpiry t) s = execBudgetExpiry t s := rfl
@[simp] theorem exec_trapDelivery (t : Nat) (s : State) :
    exec (.trapDelivery t) s = execTrapDelivery t s := rfl
@[simp] theorem exec_trapRecordWrite (t : Nat) (s : State) :
    exec (.trapRecordWrite t) s = execTrapRecordWrite t s := rfl
@[simp] theorem exec_flitReplay (l : Link) (ok : Bool) (s : State) :
    exec (.flitReplay l ok) s = execFlitReplay l ok s := rfl
@[simp] theorem exec_linkDown (l : Link) (s : State) :
    exec (.linkDown l) s = execLinkDown l s := rfl
@[simp] theorem exec_sramUncorrectable (site : SramSite) (s : State) :
    exec (.sramUncorrectable site) s = execSramUncorrectable site s := rfl
@[simp] theorem exec_fabricRefusal (id : Nat) (chunk : Nat) (fatal : Bool) (counter : Bool) (s : State) :
    exec (.fabricRefusal id chunk fatal counter) s = execFabricRefusal id chunk fatal counter s := rfl
@[simp] theorem exec_faultWaitPauseEnd (c : Ctx) (s : State) :
    exec (.faultWaitPauseEnd c) s = execFaultWaitPauseEnd c s := rfl
@[simp] theorem exec_pcieLinkUp (p : Port) (s : State) :
    exec (.pcieLinkUp p) s = execPcieLinkUp p s := rfl
@[simp] theorem exec_ethernetLinkDown (n : Fin 8) (s : State) :
    exec (.ethernetLinkDown n) s = execEthernetLinkDown n s := rfl
@[simp] theorem exec_corePowerRemoval (s : State) :
    exec (.corePowerRemoval) s = execCorePowerRemoval s := rfl

end Sys2Proof.Machine
end

