-- ==== Sys2Proof/Laws/PerInstr.lean ====
section
/-! SUPPORT. The per-instruction family `Fields`: the fields that the encoder gives an instruction are within their widths and
decode to it, and the same of the halfwords and words of the compact and short forms. An event has no word. -/

set_option linter.unusedSimpArgs false

namespace Sys2Proof.Laws.Fields

/-- The encoder's fields, word or halfword of an instruction decode to it. -/
def Statement (i : Instr) : Prop :=
  (∀ r, enc64 i = some r → r.fits ∧ dec64 r = .ok i) ∧
  (∀ w, enc32 i = some w → w < 2 ^ 32 ∧ w % 4 = 1 ∧ dec32 w = .ok i) ∧
  (∀ w, enc16 i = some w → w < 2 ^ 16 ∧ w % 2 = 0 ∧ dec16 w = .ok i)

theorem of64 {i : Instr} {r : Raw} (e : enc64 i = some r) (e32 : enc32 i = none) (e16 : enc16 i = none) (h : r.fits)
    (d : dec64 r = .ok i) : Statement i :=
  ⟨fun _ h' => by rw [e] at h'; cases h'; exact ⟨h, d⟩, fun _ h' => by simp [e32] at h', fun _ h' => by simp [e16] at h'⟩
theorem of32 {i : Instr} {w : Nat} (e : enc64 i = none) (e32 : enc32 i = some w) (e16 : enc16 i = none) (h : w < 2 ^ 32)
    (h4 : w % 4 = 1) (d : dec32 w = .ok i) : Statement i :=
  ⟨fun _ h' => by simp [e] at h', fun _ h' => by rw [e32] at h'; cases h'; exact ⟨h, h4, d⟩, fun _ h' => by simp [e16] at h'⟩
theorem of16 {i : Instr} {w : Nat} (e : enc64 i = none) (e32 : enc32 i = none) (e16 : enc16 i = some w) (h : w < 2 ^ 16)
    (h2 : w % 2 = 0) (d : dec16 w = .ok i) : Statement i :=
  ⟨fun _ h' => by simp [e] at h', fun _ h' => by simp [e32] at h', fun _ h' => by rw [e16] at h'; cases h'; exact ⟨h, h2, d⟩⟩
theorem ofNone {i : Instr} (e : enc64 i = none) (e32 : enc32 i = none) (e16 : enc16 i = none) : Statement i :=
  ⟨fun _ h' => by simp [e] at h', fun _ h' => by simp [e32] at h', fun _ h' => by simp [e16] at h'⟩

theorem nop (h : Hd) : Statement (.nop h) := by
  refine of64 (r := g64 0x000 0 h 0 0 0 0 0 0 0 (0)) rfl rfl rfl (by apply g64_fits <;> omega) ?_
  have f0 : (g64 0x000 0 h 0 0 0 0 0 0 0 (0)).rsv 0 9 = .ok () := Raw.rsv_of (by rw [g64_m] <;> omega)
  simp (disch := omega) [dec64, decCtl, show (g64 0x000 0 h 0 0 0 0 0 0 0 (0)).op = 0x000 from rfl, show (g64 0x000 0 h 0 0 0 0 0 0 0 (0)).shapeIs .P = .ok () from rfl, g64_hd, g64_noD, g64_noA, g64_noB, g64_noC, f0, Dec.ok_bind, Dec.pure_ok]

theorem bra (h : Hd) (imm : BitVec 32) : Statement (.bra h imm) := by
  have := imm.isLt
  refine of64 (r := j64 0x001 h 0 0 imm.toNat) rfl rfl rfl (by apply j64_fits <;> omega) ?_
  simp (disch := omega) [dec64, decCtl, show (j64 0x001 h 0 0 imm.toNat).op = 0x001 from rfl, show (j64 0x001 h 0 0 imm.toNat).shapeIs .P = .ok () from rfl, j64_hd, j64_jctl, j64_imm, Raw.jctlIs, j64_noD, Dec.ok_bind, Dec.pure_ok]

theorem brx (h : Hd) (ra : Src) : Statement (.brx h ra) := by
  have := ra.code_lt; have := ra.sel_lt
  refine of64 (r := g64 0x002 0 h 0 ra.code ra.sel 0 0 0 0 (0)) rfl rfl rfl (by apply g64_fits <;> omega) ?_
  have f0 : (g64 0x002 0 h 0 ra.code ra.sel 0 0 0 0 (0)).rsv 0 9 = .ok () := Raw.rsv_of (by rw [g64_m] <;> omega)
  simp (disch := omega) [dec64, decCtl, show (g64 0x002 0 h 0 ra.code ra.sel 0 0 0 0 (0)).op = 0x002 from rfl, show (g64 0x002 0 h 0 ra.code ra.sel 0 0 0 0 (0)).shapeIs .P = .ok () from rfl, g64_hd, g64_noD, g64_srcA, g64_noB, g64_noC, f0, Dec.ok_bind, Dec.pure_ok]

theorem call (h : Hd) (rd : LDst) (imm : BitVec 32) : Statement (.call h rd imm) := by
  have := rd.code_lt
  have := imm.isLt
  refine of64 (r := j64 0x003 h rd.code 0 imm.toNat) rfl rfl rfl (by apply j64_fits <;> omega) ?_
  simp (disch := omega) [dec64, decCtl, show (j64 0x003 h rd.code 0 imm.toNat).op = 0x003 from rfl, show (j64 0x003 h rd.code 0 imm.toNat).shapeIs .P = .ok () from rfl, j64_hd, j64_jctl, j64_imm, Raw.jctlIs, j64_ldst, Dec.ok_bind, Dec.pure_ok]

theorem callx (h : Hd) (rd : LDst) (ra : Src) : Statement (.callx h rd ra) := by
  have := rd.code_lt; have := ra.code_lt; have := ra.sel_lt
  refine of64 (r := g64 0x004 0 h rd.code ra.code ra.sel 0 0 0 0 (0)) rfl rfl rfl (by apply g64_fits <;> omega) ?_
  have f0 : (g64 0x004 0 h rd.code ra.code ra.sel 0 0 0 0 (0)).rsv 0 9 = .ok () := Raw.rsv_of (by rw [g64_m] <;> omega)
  simp (disch := omega) [dec64, decCtl, show (g64 0x004 0 h rd.code ra.code ra.sel 0 0 0 0 (0)).op = 0x004 from rfl, show (g64 0x004 0 h rd.code ra.code ra.sel 0 0 0 0 (0)).shapeIs .P = .ok () from rfl, g64_hd, g64_ldst, g64_srcA, g64_noB, g64_noC, f0, Dec.ok_bind, Dec.pure_ok]

theorem ret (h : Hd) (ra : Src) : Statement (.ret h ra) := by
  have := ra.code_lt; have := ra.sel_lt
  refine of64 (r := g64 0x005 0 h 0 ra.code ra.sel 0 0 0 0 (0)) rfl rfl rfl (by apply g64_fits <;> omega) ?_
  have f0 : (g64 0x005 0 h 0 ra.code ra.sel 0 0 0 0 (0)).rsv 0 9 = .ok () := Raw.rsv_of (by rw [g64_m] <;> omega)
  simp (disch := omega) [dec64, decCtl, show (g64 0x005 0 h 0 ra.code ra.sel 0 0 0 0 (0)).op = 0x005 from rfl, show (g64 0x005 0 h 0 ra.code ra.sel 0 0 0 0 (0)).shapeIs .P = .ok () from rfl, g64_hd, g64_noD, g64_srcA, g64_noB, g64_noC, f0, Dec.ok_bind, Dec.pure_ok]

theorem exit (h : Hd) : Statement (.exit h) := by
  refine of64 (r := g64 0x006 0 h 0 0 0 0 0 0 0 (0)) rfl rfl rfl (by apply g64_fits <;> omega) ?_
  have f0 : (g64 0x006 0 h 0 0 0 0 0 0 0 (0)).rsv 0 9 = .ok () := Raw.rsv_of (by rw [g64_m] <;> omega)
  simp (disch := omega) [dec64, decCtl, show (g64 0x006 0 h 0 0 0 0 0 0 0 (0)).op = 0x006 from rfl, show (g64 0x006 0 h 0 0 0 0 0 0 0 (0)).shapeIs .P = .ok () from rfl, g64_hd, g64_noD, g64_noA, g64_noB, g64_noC, f0, Dec.ok_bind, Dec.pure_ok]

theorem waitl (h : Hd) : Statement (.waitl h) := by
  refine of64 (r := g64 0x007 0 h 0 0 0 0 0 0 0 (0)) rfl rfl rfl (by apply g64_fits <;> omega) ?_
  have f0 : (g64 0x007 0 h 0 0 0 0 0 0 0 (0)).rsv 0 9 = .ok () := Raw.rsv_of (by rw [g64_m] <;> omega)
  simp (disch := omega) [dec64, decCtl, show (g64 0x007 0 h 0 0 0 0 0 0 0 (0)).op = 0x007 from rfl, show (g64 0x007 0 h 0 0 0 0 0 0 0 (0)).shapeIs .P = .ok () from rfl, g64_hd, g64_noD, g64_noA, g64_noB, g64_noC, f0, Dec.ok_bind, Dec.pure_ok]

theorem yield (h : Hd) : Statement (.yield h) := by
  refine of64 (r := g64 0x008 0 h 0 0 0 0 0 0 0 (0)) rfl rfl rfl (by apply g64_fits <;> omega) ?_
  have f0 : (g64 0x008 0 h 0 0 0 0 0 0 0 (0)).rsv 0 9 = .ok () := Raw.rsv_of (by rw [g64_m] <;> omega)
  simp (disch := omega) [dec64, decCtl, show (g64 0x008 0 h 0 0 0 0 0 0 0 (0)).op = 0x008 from rfl, show (g64 0x008 0 h 0 0 0 0 0 0 0 (0)).shapeIs .P = .ok () from rfl, g64_hd, g64_noD, g64_noA, g64_noB, g64_noC, f0, Dec.ok_bind, Dec.pure_ok]

theorem trap (h : Hd) (n : Fin 256) : Statement (.trap h n) := by
  refine of64 (r := j64 0x009 h 0 0 n.val) rfl rfl rfl (by apply j64_fits <;> omega) ?_
  simp (disch := omega) [dec64, decCtl, show (j64 0x009 h 0 0 n.val).op = 0x009 from rfl, show (j64 0x009 h 0 0 n.val).shapeIs .P = .ok () from rfl, j64_hd, j64_jctl, j64_imm, Raw.jctlIs, j64_noD, Raw.trapNo, Fin.ofNat, Nat.mod_eq_of_lt n.isLt, Dec.ok_bind, Dec.pure_ok]

theorem bkpt (h : Hd) : Statement (.bkpt h) := by
  refine of64 (r := g64 0x00A 0 h 0 0 0 0 0 0 0 (0)) rfl rfl rfl (by apply g64_fits <;> omega) ?_
  have f0 : (g64 0x00A 0 h 0 0 0 0 0 0 0 (0)).rsv 0 9 = .ok () := Raw.rsv_of (by rw [g64_m] <;> omega)
  simp (disch := omega) [dec64, decCtl, show (g64 0x00A 0 h 0 0 0 0 0 0 0 (0)).op = 0x00A from rfl, show (g64 0x00A 0 h 0 0 0 0 0 0 0 (0)).shapeIs .P = .ok () from rfl, g64_hd, g64_noD, g64_noA, g64_noB, g64_noC, f0, Dec.ok_bind, Dec.pure_ok]

theorem srd (h : Hd) (rd : LDst) (reg : Fin 512) : Statement (.srd h rd reg) := by
  have := rd.code_lt
  refine of64 (r := g64 0x00B 0 h rd.code 0 0 0 0 0 0 (reg.val)) rfl rfl rfl (by apply g64_fits <;> omega) ?_
  have f0 : (g64 0x00B 0 h rd.code 0 0 0 0 0 0 (reg.val)).fld 0 9 (finOf 512) = .ok reg := Raw.fld_of (c := reg.val) (by rw [g64_m] <;> omega) (finOf_val reg)
  simp (disch := omega) [dec64, decCtl, show (g64 0x00B 0 h rd.code 0 0 0 0 0 0 (reg.val)).op = 0x00B from rfl, show (g64 0x00B 0 h rd.code 0 0 0 0 0 0 (reg.val)).shapeIs .P = .ok () from rfl, g64_hd, g64_ldst, g64_noA, g64_noB, g64_noC, f0, Dec.ok_bind, Dec.pure_ok]

theorem swr (h : Hd) (ra : Src) (reg : Fin 512) : Statement (.swr h ra reg) := by
  have := ra.code_lt; have := ra.sel_lt
  refine of64 (r := g64 0x00C 0 h 0 ra.code ra.sel 0 0 0 0 (reg.val)) rfl rfl rfl (by apply g64_fits <;> omega) ?_
  have f0 : (g64 0x00C 0 h 0 ra.code ra.sel 0 0 0 0 (reg.val)).fld 0 9 (finOf 512) = .ok reg := Raw.fld_of (c := reg.val) (by rw [g64_m] <;> omega) (finOf_val reg)
  simp (disch := omega) [dec64, decCtl, show (g64 0x00C 0 h 0 ra.code ra.sel 0 0 0 0 (reg.val)).op = 0x00C from rfl, show (g64 0x00C 0 h 0 ra.code ra.sel 0 0 0 0 (reg.val)).shapeIs .P = .ok () from rfl, g64_hd, g64_noD, g64_srcA, g64_noB, g64_noC, f0, Dec.ok_bind, Dec.pure_ok]

theorem develop (h : Hd) : Statement (.develop h) := by
  refine of64 (r := g64 0x00D 0 h 0 0 0 0 0 0 0 (0)) rfl rfl rfl (by apply g64_fits <;> omega) ?_
  have f0 : (g64 0x00D 0 h 0 0 0 0 0 0 0 (0)).rsv 0 9 = .ok () := Raw.rsv_of (by rw [g64_m] <;> omega)
  simp (disch := omega) [dec64, decCtl, show (g64 0x00D 0 h 0 0 0 0 0 0 0 (0)).op = 0x00D from rfl, show (g64 0x00D 0 h 0 0 0 0 0 0 0 (0)).shapeIs .P = .ok () from rfl, g64_hd, g64_noD, g64_noA, g64_noB, g64_noC, f0, Dec.ok_bind, Dec.pure_ok]

theorem budget (h : Hd) (ra : Src) : Statement (.budget h ra) := by
  have := ra.code_lt; have := ra.sel_lt
  refine of64 (r := g64 0x00E 0 h 0 ra.code ra.sel 0 0 0 0 (0)) rfl rfl rfl (by apply g64_fits <;> omega) ?_
  have f0 : (g64 0x00E 0 h 0 ra.code ra.sel 0 0 0 0 (0)).rsv 0 9 = .ok () := Raw.rsv_of (by rw [g64_m] <;> omega)
  simp (disch := omega) [dec64, decCtl, show (g64 0x00E 0 h 0 ra.code ra.sel 0 0 0 0 (0)).op = 0x00E from rfl, show (g64 0x00E 0 h 0 ra.code ra.sel 0 0 0 0 (0)).shapeIs .P = .ok () from rfl, g64_hd, g64_noD, g64_srcA, g64_noB, g64_noC, f0, Dec.ok_bind, Dec.pure_ok]

theorem launch (h : Hd) (rd : Base) (opt : LaunchOpt) : Statement (.launch h rd opt) := by
  have := rd.code_lt; have := rd.sel_lt; have := opt.code_lt
  refine of64 (r := j64 0x00F h rd.code rd.sel opt.code) rfl rfl rfl (by apply j64_fits <;> omega) ?_
  have fr : (j64 0x00F h rd.code rd.sel opt.code).rd = rd.code := rfl
  have := opt.code_lt
  simp (disch := omega) [dec64, decCtl, show (j64 0x00F h rd.code rd.sel opt.code).op = 0x00F from rfl, show (j64 0x00F h rd.code rd.sel opt.code).shapeIs .P = .ok () from rfl, j64_hd, j64_jctl, j64_imm, Raw.jctlIs, Raw.launchRd, Raw.launchOpt, baseOf_code, LaunchOpt.ofCode_code, fr, rd.sel_lt, Dec.ok_bind, Dec.pure_ok]

theorem iadd (h : Hd) (rd : Dst) (ra : Src) (rb : Src) : Statement (.iadd h rd ra rb) := by
  have := rd.code_lt; have := rd.sd_lt; have := ra.code_lt; have := ra.sel_lt; have := rb.code_lt; have := rb.sel_lt
  refine of64 (r := g64 0x040 0 h rd.code ra.code ra.sel rb.code rb.sel 0 0 (256 * rd.sd)) rfl rfl rfl (by apply g64_fits <;> omega) ?_
  have f0 : (g64 0x040 0 h rd.code ra.code ra.sel rb.code rb.sel 0 0 (256 * rd.sd)).dst = .ok rd := g64_dst (by rw [g64_md] <;> omega)
  have f1 : (g64 0x040 0 h rd.code ra.code ra.sel rb.code rb.sel 0 0 (256 * rd.sd)).rsv 0 8 = .ok () := Raw.rsv_of (by rw [g64_m] <;> omega)
  simp (disch := omega) [dec64, decInt, show (g64 0x040 0 h rd.code ra.code ra.sel rb.code rb.sel 0 0 (256 * rd.sd)).op = 0x040 from rfl, show (g64 0x040 0 h rd.code ra.code ra.sel rb.code rb.sel 0 0 (256 * rd.sd)).shapeIs .P = .ok () from rfl, g64_hd, g64_srcA, g64_srcB, g64_noC, f0, f1, Dec.ok_bind, Dec.pure_ok]

theorem isub (h : Hd) (rd : Dst) (ra : Src) (rb : Src) : Statement (.isub h rd ra rb) := by
  have := rd.code_lt; have := rd.sd_lt; have := ra.code_lt; have := ra.sel_lt; have := rb.code_lt; have := rb.sel_lt
  refine of64 (r := g64 0x041 0 h rd.code ra.code ra.sel rb.code rb.sel 0 0 (256 * rd.sd)) rfl rfl rfl (by apply g64_fits <;> omega) ?_
  have f0 : (g64 0x041 0 h rd.code ra.code ra.sel rb.code rb.sel 0 0 (256 * rd.sd)).dst = .ok rd := g64_dst (by rw [g64_md] <;> omega)
  have f1 : (g64 0x041 0 h rd.code ra.code ra.sel rb.code rb.sel 0 0 (256 * rd.sd)).rsv 0 8 = .ok () := Raw.rsv_of (by rw [g64_m] <;> omega)
  simp (disch := omega) [dec64, decInt, show (g64 0x041 0 h rd.code ra.code ra.sel rb.code rb.sel 0 0 (256 * rd.sd)).op = 0x041 from rfl, show (g64 0x041 0 h rd.code ra.code ra.sel rb.code rb.sel 0 0 (256 * rd.sd)).shapeIs .P = .ok () from rfl, g64_hd, g64_srcA, g64_srcB, g64_noC, f0, f1, Dec.ok_bind, Dec.pure_ok]

theorem imul (h : Hd) (rd : Dst) (ra : Src) (rb : Src) : Statement (.imul h rd ra rb) := by
  have := rd.code_lt; have := rd.sd_lt; have := ra.code_lt; have := ra.sel_lt; have := rb.code_lt; have := rb.sel_lt
  refine of64 (r := g64 0x042 0 h rd.code ra.code ra.sel rb.code rb.sel 0 0 (256 * rd.sd)) rfl rfl rfl (by apply g64_fits <;> omega) ?_
  have f0 : (g64 0x042 0 h rd.code ra.code ra.sel rb.code rb.sel 0 0 (256 * rd.sd)).dst = .ok rd := g64_dst (by rw [g64_md] <;> omega)
  have f1 : (g64 0x042 0 h rd.code ra.code ra.sel rb.code rb.sel 0 0 (256 * rd.sd)).rsv 0 8 = .ok () := Raw.rsv_of (by rw [g64_m] <;> omega)
  simp (disch := omega) [dec64, decInt, show (g64 0x042 0 h rd.code ra.code ra.sel rb.code rb.sel 0 0 (256 * rd.sd)).op = 0x042 from rfl, show (g64 0x042 0 h rd.code ra.code ra.sel rb.code rb.sel 0 0 (256 * rd.sd)).shapeIs .P = .ok () from rfl, g64_hd, g64_srcA, g64_srcB, g64_noC, f0, f1, Dec.ok_bind, Dec.pure_ok]

theorem imulh (h : Hd) (rd : Dst) (ra : Src) (rb : Src) (sg : MulSign) : Statement (.imulh h rd ra rb sg) := by
  have := rd.code_lt; have := rd.sd_lt; have := ra.code_lt; have := ra.sel_lt; have := rb.code_lt; have := rb.sel_lt; have := sg.code_lt
  refine of64 (r := g64 0x043 0 h rd.code ra.code ra.sel rb.code rb.sel 0 0 (sg.code + 256 * rd.sd)) rfl rfl rfl (by apply g64_fits <;> omega) ?_
  have f0 : (g64 0x043 0 h rd.code ra.code ra.sel rb.code rb.sel 0 0 (sg.code + 256 * rd.sd)).dst = .ok rd := g64_dst (by rw [g64_md] <;> omega)
  have f1 : (g64 0x043 0 h rd.code ra.code ra.sel rb.code rb.sel 0 0 (sg.code + 256 * rd.sd)).fld 0 2 MulSign.ofCode = .ok sg := Raw.fld_of (c := sg.code) (by rw [g64_m] <;> omega) (MulSign.ofCode_code sg)
  have f2 : (g64 0x043 0 h rd.code ra.code ra.sel rb.code rb.sel 0 0 (sg.code + 256 * rd.sd)).rsv 2 6 = .ok () := Raw.rsv_of (by rw [g64_m] <;> omega)
  simp (disch := omega) [dec64, decInt, show (g64 0x043 0 h rd.code ra.code ra.sel rb.code rb.sel 0 0 (sg.code + 256 * rd.sd)).op = 0x043 from rfl, show (g64 0x043 0 h rd.code ra.code ra.sel rb.code rb.sel 0 0 (sg.code + 256 * rd.sd)).shapeIs .P = .ok () from rfl, g64_hd, g64_srcA, g64_srcB, g64_noC, f0, f1, f2, Dec.ok_bind, Dec.pure_ok]

theorem imad (h : Hd) (rd : Dst) (ra : Src) (rb : Src) (rc : Src) : Statement (.imad h rd ra rb rc) := by
  have := rd.code_lt; have := rd.sd_lt; have := ra.code_lt; have := ra.sel_lt; have := rb.code_lt; have := rb.sel_lt; have := rc.code_lt; have := rc.sel_lt
  refine of64 (r := g64 0x044 0 h rd.code ra.code ra.sel rb.code rb.sel rc.code rc.sel (256 * rd.sd)) rfl rfl rfl (by apply g64_fits <;> omega) ?_
  have f0 : (g64 0x044 0 h rd.code ra.code ra.sel rb.code rb.sel rc.code rc.sel (256 * rd.sd)).dst = .ok rd := g64_dst (by rw [g64_md] <;> omega)
  have f1 : (g64 0x044 0 h rd.code ra.code ra.sel rb.code rb.sel rc.code rc.sel (256 * rd.sd)).rsv 0 8 = .ok () := Raw.rsv_of (by rw [g64_m] <;> omega)
  simp (disch := omega) [dec64, decInt, show (g64 0x044 0 h rd.code ra.code ra.sel rb.code rb.sel rc.code rc.sel (256 * rd.sd)).op = 0x044 from rfl, show (g64 0x044 0 h rd.code ra.code ra.sel rb.code rb.sel rc.code rc.sel (256 * rd.sd)).shapeIs .P = .ok () from rfl, g64_hd, g64_srcA, g64_srcB, g64_srcC, f0, f1, Dec.ok_bind, Dec.pure_ok]

theorem imin (h : Hd) (rd : Dst) (ra : Src) (rb : Src) (u : Bool) : Statement (.imin h rd ra rb u) := by
  have := rd.code_lt; have := rd.sd_lt; have := ra.code_lt; have := ra.sel_lt; have := rb.code_lt; have := rb.sel_lt; have := Bool.toNat_lt u
  refine of64 (r := g64 0x045 0 h rd.code ra.code ra.sel rb.code rb.sel 0 0 (u.toNat + 256 * rd.sd)) rfl rfl rfl (by apply g64_fits <;> omega) ?_
  have f0 : (g64 0x045 0 h rd.code ra.code ra.sel rb.code rb.sel 0 0 (u.toNat + 256 * rd.sd)).dst = .ok rd := g64_dst (by rw [g64_md] <;> omega)
  have f1 : (g64 0x045 0 h rd.code ra.code ra.sel rb.code rb.sel 0 0 (u.toNat + 256 * rd.sd)).fld 0 1 boolOf = .ok u := Raw.fld_of (c := u.toNat) (by rw [g64_m] <;> omega) (boolOf_toNat u)
  have f2 : (g64 0x045 0 h rd.code ra.code ra.sel rb.code rb.sel 0 0 (u.toNat + 256 * rd.sd)).rsv 1 7 = .ok () := Raw.rsv_of (by rw [g64_m] <;> omega)
  simp (disch := omega) [dec64, decInt, show (g64 0x045 0 h rd.code ra.code ra.sel rb.code rb.sel 0 0 (u.toNat + 256 * rd.sd)).op = 0x045 from rfl, show (g64 0x045 0 h rd.code ra.code ra.sel rb.code rb.sel 0 0 (u.toNat + 256 * rd.sd)).shapeIs .P = .ok () from rfl, g64_hd, g64_srcA, g64_srcB, g64_noC, f0, f1, f2, Dec.ok_bind, Dec.pure_ok]

theorem imax (h : Hd) (rd : Dst) (ra : Src) (rb : Src) (u : Bool) : Statement (.imax h rd ra rb u) := by
  have := rd.code_lt; have := rd.sd_lt; have := ra.code_lt; have := ra.sel_lt; have := rb.code_lt; have := rb.sel_lt; have := Bool.toNat_lt u
  refine of64 (r := g64 0x046 0 h rd.code ra.code ra.sel rb.code rb.sel 0 0 (u.toNat + 256 * rd.sd)) rfl rfl rfl (by apply g64_fits <;> omega) ?_
  have f0 : (g64 0x046 0 h rd.code ra.code ra.sel rb.code rb.sel 0 0 (u.toNat + 256 * rd.sd)).dst = .ok rd := g64_dst (by rw [g64_md] <;> omega)
  have f1 : (g64 0x046 0 h rd.code ra.code ra.sel rb.code rb.sel 0 0 (u.toNat + 256 * rd.sd)).fld 0 1 boolOf = .ok u := Raw.fld_of (c := u.toNat) (by rw [g64_m] <;> omega) (boolOf_toNat u)
  have f2 : (g64 0x046 0 h rd.code ra.code ra.sel rb.code rb.sel 0 0 (u.toNat + 256 * rd.sd)).rsv 1 7 = .ok () := Raw.rsv_of (by rw [g64_m] <;> omega)
  simp (disch := omega) [dec64, decInt, show (g64 0x046 0 h rd.code ra.code ra.sel rb.code rb.sel 0 0 (u.toNat + 256 * rd.sd)).op = 0x046 from rfl, show (g64 0x046 0 h rd.code ra.code ra.sel rb.code rb.sel 0 0 (u.toNat + 256 * rd.sd)).shapeIs .P = .ok () from rfl, g64_hd, g64_srcA, g64_srcB, g64_noC, f0, f1, f2, Dec.ok_bind, Dec.pure_ok]

theorem iabs (h : Hd) (rd : Dst) (ra : Src) : Statement (.iabs h rd ra) := by
  have := rd.code_lt; have := rd.sd_lt; have := ra.code_lt; have := ra.sel_lt
  refine of64 (r := g64 0x047 0 h rd.code ra.code ra.sel 0 0 0 0 (256 * rd.sd)) rfl rfl rfl (by apply g64_fits <;> omega) ?_
  have f0 : (g64 0x047 0 h rd.code ra.code ra.sel 0 0 0 0 (256 * rd.sd)).dst = .ok rd := g64_dst (by rw [g64_md] <;> omega)
  have f1 : (g64 0x047 0 h rd.code ra.code ra.sel 0 0 0 0 (256 * rd.sd)).rsv 0 8 = .ok () := Raw.rsv_of (by rw [g64_m] <;> omega)
  simp (disch := omega) [dec64, decInt, show (g64 0x047 0 h rd.code ra.code ra.sel 0 0 0 0 (256 * rd.sd)).op = 0x047 from rfl, show (g64 0x047 0 h rd.code ra.code ra.sel 0 0 0 0 (256 * rd.sd)).shapeIs .P = .ok () from rfl, g64_hd, g64_srcA, g64_noB, g64_noC, f0, f1, Dec.ok_bind, Dec.pure_ok]

theorem and (h : Hd) (rd : Dst) (ra : Src) (rb : Src) : Statement (.and h rd ra rb) := by
  have := rd.code_lt; have := rd.sd_lt; have := ra.code_lt; have := ra.sel_lt; have := rb.code_lt; have := rb.sel_lt
  refine of64 (r := g64 0x048 0 h rd.code ra.code ra.sel rb.code rb.sel 0 0 (256 * rd.sd)) rfl rfl rfl (by apply g64_fits <;> omega) ?_
  have f0 : (g64 0x048 0 h rd.code ra.code ra.sel rb.code rb.sel 0 0 (256 * rd.sd)).dst = .ok rd := g64_dst (by rw [g64_md] <;> omega)
  have f1 : (g64 0x048 0 h rd.code ra.code ra.sel rb.code rb.sel 0 0 (256 * rd.sd)).rsv 0 8 = .ok () := Raw.rsv_of (by rw [g64_m] <;> omega)
  simp (disch := omega) [dec64, decInt, show (g64 0x048 0 h rd.code ra.code ra.sel rb.code rb.sel 0 0 (256 * rd.sd)).op = 0x048 from rfl, show (g64 0x048 0 h rd.code ra.code ra.sel rb.code rb.sel 0 0 (256 * rd.sd)).shapeIs .P = .ok () from rfl, g64_hd, g64_srcA, g64_srcB, g64_noC, f0, f1, Dec.ok_bind, Dec.pure_ok]

theorem or (h : Hd) (rd : Dst) (ra : Src) (rb : Src) : Statement (.or h rd ra rb) := by
  have := rd.code_lt; have := rd.sd_lt; have := ra.code_lt; have := ra.sel_lt; have := rb.code_lt; have := rb.sel_lt
  refine of64 (r := g64 0x049 0 h rd.code ra.code ra.sel rb.code rb.sel 0 0 (256 * rd.sd)) rfl rfl rfl (by apply g64_fits <;> omega) ?_
  have f0 : (g64 0x049 0 h rd.code ra.code ra.sel rb.code rb.sel 0 0 (256 * rd.sd)).dst = .ok rd := g64_dst (by rw [g64_md] <;> omega)
  have f1 : (g64 0x049 0 h rd.code ra.code ra.sel rb.code rb.sel 0 0 (256 * rd.sd)).rsv 0 8 = .ok () := Raw.rsv_of (by rw [g64_m] <;> omega)
  simp (disch := omega) [dec64, decInt, show (g64 0x049 0 h rd.code ra.code ra.sel rb.code rb.sel 0 0 (256 * rd.sd)).op = 0x049 from rfl, show (g64 0x049 0 h rd.code ra.code ra.sel rb.code rb.sel 0 0 (256 * rd.sd)).shapeIs .P = .ok () from rfl, g64_hd, g64_srcA, g64_srcB, g64_noC, f0, f1, Dec.ok_bind, Dec.pure_ok]

theorem xor (h : Hd) (rd : Dst) (ra : Src) (rb : Src) : Statement (.xor h rd ra rb) := by
  have := rd.code_lt; have := rd.sd_lt; have := ra.code_lt; have := ra.sel_lt; have := rb.code_lt; have := rb.sel_lt
  refine of64 (r := g64 0x04A 0 h rd.code ra.code ra.sel rb.code rb.sel 0 0 (256 * rd.sd)) rfl rfl rfl (by apply g64_fits <;> omega) ?_
  have f0 : (g64 0x04A 0 h rd.code ra.code ra.sel rb.code rb.sel 0 0 (256 * rd.sd)).dst = .ok rd := g64_dst (by rw [g64_md] <;> omega)
  have f1 : (g64 0x04A 0 h rd.code ra.code ra.sel rb.code rb.sel 0 0 (256 * rd.sd)).rsv 0 8 = .ok () := Raw.rsv_of (by rw [g64_m] <;> omega)
  simp (disch := omega) [dec64, decInt, show (g64 0x04A 0 h rd.code ra.code ra.sel rb.code rb.sel 0 0 (256 * rd.sd)).op = 0x04A from rfl, show (g64 0x04A 0 h rd.code ra.code ra.sel rb.code rb.sel 0 0 (256 * rd.sd)).shapeIs .P = .ok () from rfl, g64_hd, g64_srcA, g64_srcB, g64_noC, f0, f1, Dec.ok_bind, Dec.pure_ok]

theorem andn (h : Hd) (rd : Dst) (ra : Src) (rb : Src) : Statement (.andn h rd ra rb) := by
  have := rd.code_lt; have := rd.sd_lt; have := ra.code_lt; have := ra.sel_lt; have := rb.code_lt; have := rb.sel_lt
  refine of64 (r := g64 0x04B 0 h rd.code ra.code ra.sel rb.code rb.sel 0 0 (256 * rd.sd)) rfl rfl rfl (by apply g64_fits <;> omega) ?_
  have f0 : (g64 0x04B 0 h rd.code ra.code ra.sel rb.code rb.sel 0 0 (256 * rd.sd)).dst = .ok rd := g64_dst (by rw [g64_md] <;> omega)
  have f1 : (g64 0x04B 0 h rd.code ra.code ra.sel rb.code rb.sel 0 0 (256 * rd.sd)).rsv 0 8 = .ok () := Raw.rsv_of (by rw [g64_m] <;> omega)
  simp (disch := omega) [dec64, decInt, show (g64 0x04B 0 h rd.code ra.code ra.sel rb.code rb.sel 0 0 (256 * rd.sd)).op = 0x04B from rfl, show (g64 0x04B 0 h rd.code ra.code ra.sel rb.code rb.sel 0 0 (256 * rd.sd)).shapeIs .P = .ok () from rfl, g64_hd, g64_srcA, g64_srcB, g64_noC, f0, f1, Dec.ok_bind, Dec.pure_ok]

theorem shl (h : Hd) (rd : Dst) (ra : Src) (rb : Src) : Statement (.shl h rd ra rb) := by
  have := rd.code_lt; have := rd.sd_lt; have := ra.code_lt; have := ra.sel_lt; have := rb.code_lt; have := rb.sel_lt
  refine of64 (r := g64 0x04C 0 h rd.code ra.code ra.sel rb.code rb.sel 0 0 (256 * rd.sd)) rfl rfl rfl (by apply g64_fits <;> omega) ?_
  have f0 : (g64 0x04C 0 h rd.code ra.code ra.sel rb.code rb.sel 0 0 (256 * rd.sd)).dst = .ok rd := g64_dst (by rw [g64_md] <;> omega)
  have f1 : (g64 0x04C 0 h rd.code ra.code ra.sel rb.code rb.sel 0 0 (256 * rd.sd)).rsv 0 8 = .ok () := Raw.rsv_of (by rw [g64_m] <;> omega)
  simp (disch := omega) [dec64, decInt, show (g64 0x04C 0 h rd.code ra.code ra.sel rb.code rb.sel 0 0 (256 * rd.sd)).op = 0x04C from rfl, show (g64 0x04C 0 h rd.code ra.code ra.sel rb.code rb.sel 0 0 (256 * rd.sd)).shapeIs .P = .ok () from rfl, g64_hd, g64_srcA, g64_srcB, g64_noC, f0, f1, Dec.ok_bind, Dec.pure_ok]

theorem shr (h : Hd) (rd : Dst) (ra : Src) (rb : Src) : Statement (.shr h rd ra rb) := by
  have := rd.code_lt; have := rd.sd_lt; have := ra.code_lt; have := ra.sel_lt; have := rb.code_lt; have := rb.sel_lt
  refine of64 (r := g64 0x04D 0 h rd.code ra.code ra.sel rb.code rb.sel 0 0 (256 * rd.sd)) rfl rfl rfl (by apply g64_fits <;> omega) ?_
  have f0 : (g64 0x04D 0 h rd.code ra.code ra.sel rb.code rb.sel 0 0 (256 * rd.sd)).dst = .ok rd := g64_dst (by rw [g64_md] <;> omega)
  have f1 : (g64 0x04D 0 h rd.code ra.code ra.sel rb.code rb.sel 0 0 (256 * rd.sd)).rsv 0 8 = .ok () := Raw.rsv_of (by rw [g64_m] <;> omega)
  simp (disch := omega) [dec64, decInt, show (g64 0x04D 0 h rd.code ra.code ra.sel rb.code rb.sel 0 0 (256 * rd.sd)).op = 0x04D from rfl, show (g64 0x04D 0 h rd.code ra.code ra.sel rb.code rb.sel 0 0 (256 * rd.sd)).shapeIs .P = .ok () from rfl, g64_hd, g64_srcA, g64_srcB, g64_noC, f0, f1, Dec.ok_bind, Dec.pure_ok]

theorem sar (h : Hd) (rd : Dst) (ra : Src) (rb : Src) : Statement (.sar h rd ra rb) := by
  have := rd.code_lt; have := rd.sd_lt; have := ra.code_lt; have := ra.sel_lt; have := rb.code_lt; have := rb.sel_lt
  refine of64 (r := g64 0x04E 0 h rd.code ra.code ra.sel rb.code rb.sel 0 0 (256 * rd.sd)) rfl rfl rfl (by apply g64_fits <;> omega) ?_
  have f0 : (g64 0x04E 0 h rd.code ra.code ra.sel rb.code rb.sel 0 0 (256 * rd.sd)).dst = .ok rd := g64_dst (by rw [g64_md] <;> omega)
  have f1 : (g64 0x04E 0 h rd.code ra.code ra.sel rb.code rb.sel 0 0 (256 * rd.sd)).rsv 0 8 = .ok () := Raw.rsv_of (by rw [g64_m] <;> omega)
  simp (disch := omega) [dec64, decInt, show (g64 0x04E 0 h rd.code ra.code ra.sel rb.code rb.sel 0 0 (256 * rd.sd)).op = 0x04E from rfl, show (g64 0x04E 0 h rd.code ra.code ra.sel rb.code rb.sel 0 0 (256 * rd.sd)).shapeIs .P = .ok () from rfl, g64_hd, g64_srcA, g64_srcB, g64_noC, f0, f1, Dec.ok_bind, Dec.pure_ok]

theorem rotl (h : Hd) (rd : Dst) (ra : Src) (rb : Src) : Statement (.rotl h rd ra rb) := by
  have := rd.code_lt; have := rd.sd_lt; have := ra.code_lt; have := ra.sel_lt; have := rb.code_lt; have := rb.sel_lt
  refine of64 (r := g64 0x04F 0 h rd.code ra.code ra.sel rb.code rb.sel 0 0 (256 * rd.sd)) rfl rfl rfl (by apply g64_fits <;> omega) ?_
  have f0 : (g64 0x04F 0 h rd.code ra.code ra.sel rb.code rb.sel 0 0 (256 * rd.sd)).dst = .ok rd := g64_dst (by rw [g64_md] <;> omega)
  have f1 : (g64 0x04F 0 h rd.code ra.code ra.sel rb.code rb.sel 0 0 (256 * rd.sd)).rsv 0 8 = .ok () := Raw.rsv_of (by rw [g64_m] <;> omega)
  simp (disch := omega) [dec64, decInt, show (g64 0x04F 0 h rd.code ra.code ra.sel rb.code rb.sel 0 0 (256 * rd.sd)).op = 0x04F from rfl, show (g64 0x04F 0 h rd.code ra.code ra.sel rb.code rb.sel 0 0 (256 * rd.sd)).shapeIs .P = .ok () from rfl, g64_hd, g64_srcA, g64_srcB, g64_noC, f0, f1, Dec.ok_bind, Dec.pure_ok]

theorem bfe (h : Hd) (rd : Dst) (ra : Src) (rb : Src) (rc : Src) (sg : Bool) : Statement (.bfe h rd ra rb rc sg) := by
  have := rd.code_lt; have := rd.sd_lt; have := ra.code_lt; have := ra.sel_lt; have := rb.code_lt; have := rb.sel_lt; have := rc.code_lt; have := rc.sel_lt; have := Bool.toNat_lt sg
  refine of64 (r := g64 0x050 0 h rd.code ra.code ra.sel rb.code rb.sel rc.code rc.sel (sg.toNat + 256 * rd.sd)) rfl rfl rfl (by apply g64_fits <;> omega) ?_
  have f0 : (g64 0x050 0 h rd.code ra.code ra.sel rb.code rb.sel rc.code rc.sel (sg.toNat + 256 * rd.sd)).dst = .ok rd := g64_dst (by rw [g64_md] <;> omega)
  have f1 : (g64 0x050 0 h rd.code ra.code ra.sel rb.code rb.sel rc.code rc.sel (sg.toNat + 256 * rd.sd)).fld 0 1 boolOf = .ok sg := Raw.fld_of (c := sg.toNat) (by rw [g64_m] <;> omega) (boolOf_toNat sg)
  have f2 : (g64 0x050 0 h rd.code ra.code ra.sel rb.code rb.sel rc.code rc.sel (sg.toNat + 256 * rd.sd)).rsv 1 7 = .ok () := Raw.rsv_of (by rw [g64_m] <;> omega)
  simp (disch := omega) [dec64, decInt, show (g64 0x050 0 h rd.code ra.code ra.sel rb.code rb.sel rc.code rc.sel (sg.toNat + 256 * rd.sd)).op = 0x050 from rfl, show (g64 0x050 0 h rd.code ra.code ra.sel rb.code rb.sel rc.code rc.sel (sg.toNat + 256 * rd.sd)).shapeIs .P = .ok () from rfl, g64_hd, g64_srcA, g64_srcB, g64_srcC, f0, f1, f2, Dec.ok_bind, Dec.pure_ok]

theorem bfi (h : Hd) (rd : Dst) (ra : Src) (rb : Src) (rc : Src) : Statement (.bfi h rd ra rb rc) := by
  have := rd.code_lt; have := rd.sd_lt; have := ra.code_lt; have := ra.sel_lt; have := rb.code_lt; have := rb.sel_lt; have := rc.code_lt; have := rc.sel_lt
  refine of64 (r := g64 0x051 0 h rd.code ra.code ra.sel rb.code rb.sel rc.code rc.sel (256 * rd.sd)) rfl rfl rfl (by apply g64_fits <;> omega) ?_
  have f0 : (g64 0x051 0 h rd.code ra.code ra.sel rb.code rb.sel rc.code rc.sel (256 * rd.sd)).dst = .ok rd := g64_dst (by rw [g64_md] <;> omega)
  have f1 : (g64 0x051 0 h rd.code ra.code ra.sel rb.code rb.sel rc.code rc.sel (256 * rd.sd)).rsv 0 8 = .ok () := Raw.rsv_of (by rw [g64_m] <;> omega)
  simp (disch := omega) [dec64, decInt, show (g64 0x051 0 h rd.code ra.code ra.sel rb.code rb.sel rc.code rc.sel (256 * rd.sd)).op = 0x051 from rfl, show (g64 0x051 0 h rd.code ra.code ra.sel rb.code rb.sel rc.code rc.sel (256 * rd.sd)).shapeIs .P = .ok () from rfl, g64_hd, g64_srcA, g64_srcB, g64_srcC, f0, f1, Dec.ok_bind, Dec.pure_ok]

theorem popc (h : Hd) (rd : Dst) (ra : Src) : Statement (.popc h rd ra) := by
  have := rd.code_lt; have := rd.sd_lt; have := ra.code_lt; have := ra.sel_lt
  refine of64 (r := g64 0x052 0 h rd.code ra.code ra.sel 0 0 0 0 (256 * rd.sd)) rfl rfl rfl (by apply g64_fits <;> omega) ?_
  have f0 : (g64 0x052 0 h rd.code ra.code ra.sel 0 0 0 0 (256 * rd.sd)).dst = .ok rd := g64_dst (by rw [g64_md] <;> omega)
  have f1 : (g64 0x052 0 h rd.code ra.code ra.sel 0 0 0 0 (256 * rd.sd)).rsv 0 8 = .ok () := Raw.rsv_of (by rw [g64_m] <;> omega)
  simp (disch := omega) [dec64, decInt, show (g64 0x052 0 h rd.code ra.code ra.sel 0 0 0 0 (256 * rd.sd)).op = 0x052 from rfl, show (g64 0x052 0 h rd.code ra.code ra.sel 0 0 0 0 (256 * rd.sd)).shapeIs .P = .ok () from rfl, g64_hd, g64_srcA, g64_noB, g64_noC, f0, f1, Dec.ok_bind, Dec.pure_ok]

theorem clz (h : Hd) (rd : Dst) (ra : Src) : Statement (.clz h rd ra) := by
  have := rd.code_lt; have := rd.sd_lt; have := ra.code_lt; have := ra.sel_lt
  refine of64 (r := g64 0x053 0 h rd.code ra.code ra.sel 0 0 0 0 (256 * rd.sd)) rfl rfl rfl (by apply g64_fits <;> omega) ?_
  have f0 : (g64 0x053 0 h rd.code ra.code ra.sel 0 0 0 0 (256 * rd.sd)).dst = .ok rd := g64_dst (by rw [g64_md] <;> omega)
  have f1 : (g64 0x053 0 h rd.code ra.code ra.sel 0 0 0 0 (256 * rd.sd)).rsv 0 8 = .ok () := Raw.rsv_of (by rw [g64_m] <;> omega)
  simp (disch := omega) [dec64, decInt, show (g64 0x053 0 h rd.code ra.code ra.sel 0 0 0 0 (256 * rd.sd)).op = 0x053 from rfl, show (g64 0x053 0 h rd.code ra.code ra.sel 0 0 0 0 (256 * rd.sd)).shapeIs .P = .ok () from rfl, g64_hd, g64_srcA, g64_noB, g64_noC, f0, f1, Dec.ok_bind, Dec.pure_ok]

theorem brev (h : Hd) (rd : Dst) (ra : Src) : Statement (.brev h rd ra) := by
  have := rd.code_lt; have := rd.sd_lt; have := ra.code_lt; have := ra.sel_lt
  refine of64 (r := g64 0x054 0 h rd.code ra.code ra.sel 0 0 0 0 (256 * rd.sd)) rfl rfl rfl (by apply g64_fits <;> omega) ?_
  have f0 : (g64 0x054 0 h rd.code ra.code ra.sel 0 0 0 0 (256 * rd.sd)).dst = .ok rd := g64_dst (by rw [g64_md] <;> omega)
  have f1 : (g64 0x054 0 h rd.code ra.code ra.sel 0 0 0 0 (256 * rd.sd)).rsv 0 8 = .ok () := Raw.rsv_of (by rw [g64_m] <;> omega)
  simp (disch := omega) [dec64, decInt, show (g64 0x054 0 h rd.code ra.code ra.sel 0 0 0 0 (256 * rd.sd)).op = 0x054 from rfl, show (g64 0x054 0 h rd.code ra.code ra.sel 0 0 0 0 (256 * rd.sd)).shapeIs .P = .ok () from rfl, g64_hd, g64_srcA, g64_noB, g64_noC, f0, f1, Dec.ok_bind, Dec.pure_ok]

theorem icmp (h : Hd) (rd : Pred) (ra : Src) (rb : Src) (cond : ICond) (u : Bool) : Statement (.icmp h rd ra rb cond u) := by
  have := ra.code_lt; have := ra.sel_lt; have := rb.code_lt; have := rb.sel_lt; have := cond.code_lt; have := Bool.toNat_lt u
  refine of64 (r := g64 0x055 0 h rd.val ra.code ra.sel rb.code rb.sel 0 0 (cond.code + 8 * u.toNat)) rfl rfl rfl (by apply g64_fits <;> omega) ?_
  have f0 : (g64 0x055 0 h rd.val ra.code ra.sel rb.code rb.sel 0 0 (cond.code + 8 * u.toNat)).fld 0 3 ICond.ofCode = .ok cond := Raw.fld_of (c := cond.code) (by rw [g64_m] <;> omega) (ICond.ofCode_code cond)
  have f1 : (g64 0x055 0 h rd.val ra.code ra.sel rb.code rb.sel 0 0 (cond.code + 8 * u.toNat)).fld 3 1 boolOf = .ok u := Raw.fld_of (c := u.toNat) (by rw [g64_m] <;> omega) (boolOf_toNat u)
  have f2 : (g64 0x055 0 h rd.val ra.code ra.sel rb.code rb.sel 0 0 (cond.code + 8 * u.toNat)).rsv 4 5 = .ok () := Raw.rsv_of (by rw [g64_m] <;> omega)
  simp (disch := omega) [dec64, decInt, show (g64 0x055 0 h rd.val ra.code ra.sel rb.code rb.sel 0 0 (cond.code + 8 * u.toNat)).op = 0x055 from rfl, show (g64 0x055 0 h rd.val ra.code ra.sel rb.code rb.sel 0 0 (cond.code + 8 * u.toNat)).shapeIs .P = .ok () from rfl, g64_hd, g64_pd, g64_srcA, g64_srcB, g64_noC, f0, f1, f2, Dec.ok_bind, Dec.pure_ok]

theorem sel (h : Hd) (sh : Shape) (rd : Dst) (ra : Src) (rb : Src) (rc : Pred) : Statement (.sel h sh rd ra rb rc) := by
  have := sh.code_lt; have := rd.code_lt; have := rd.sd_lt; have := ra.code_lt; have := ra.sel_lt; have := rb.code_lt; have := rb.sel_lt
  refine of64 (r := g64 0x056 sh.code h rd.code ra.code ra.sel rb.code rb.sel rc.val 0 (256 * rd.sd)) rfl rfl rfl (by apply g64_fits <;> omega) ?_
  have f0 : (g64 0x056 sh.code h rd.code ra.code ra.sel rb.code rb.sel rc.val 0 (256 * rd.sd)).dst = .ok rd := g64_dst (by rw [g64_md] <;> omega)
  have f1 : (g64 0x056 sh.code h rd.code ra.code ra.sel rb.code rb.sel rc.val 0 (256 * rd.sd)).rsv 0 8 = .ok () := Raw.rsv_of (by rw [g64_m] <;> omega)
  simp (disch := omega) [dec64, decInt, show (g64 0x056 sh.code h rd.code ra.code ra.sel rb.code rb.sel rc.val 0 (256 * rd.sd)).op = 0x056 from rfl, g64_hd, g64_shp, g64_srcA, g64_srcB, g64_predC, f0, f1, Dec.ok_bind, Dec.pure_ok]

theorem mov (h : Hd) (sh : Shape) (rd : Dst) (ra : Src) : Statement (.mov h sh rd ra) := by
  have := sh.code_lt; have := rd.code_lt; have := rd.sd_lt; have := ra.code_lt; have := ra.sel_lt
  refine of64 (r := g64 0x057 sh.code h rd.code ra.code ra.sel 0 0 0 0 (256 * rd.sd)) rfl rfl rfl (by apply g64_fits <;> omega) ?_
  have f0 : (g64 0x057 sh.code h rd.code ra.code ra.sel 0 0 0 0 (256 * rd.sd)).dst = .ok rd := g64_dst (by rw [g64_md] <;> omega)
  have f1 : (g64 0x057 sh.code h rd.code ra.code ra.sel 0 0 0 0 (256 * rd.sd)).rsv 0 8 = .ok () := Raw.rsv_of (by rw [g64_m] <;> omega)
  simp (disch := omega) [dec64, decInt, show (g64 0x057 sh.code h rd.code ra.code ra.sel 0 0 0 0 (256 * rd.sd)).op = 0x057 from rfl, g64_hd, g64_shp, g64_srcA, g64_noB, g64_noC, f0, f1, Dec.ok_bind, Dec.pure_ok]

theorem movi (h : Hd) (rd : Dst) (imm : Word) : Statement (.movi h rd imm) := by
  have := rd.code_lt; have := rd.sd_lt
  have := imm.isLt
  refine of64 (r := j64 0x058 h rd.code rd.sd imm.toNat) rfl rfl rfl (by apply j64_fits <;> omega) ?_
  have fr : (j64 0x058 h rd.code rd.sd imm.toNat).rd = rd.code := rfl
  simp (disch := omega) [dec64, decInt, show (j64 0x058 h rd.code rd.sd imm.toNat).op = 0x058 from rfl, show (j64 0x058 h rd.code rd.sd imm.toNat).shapeIs .P = .ok () from rfl, j64_hd, j64_jctl, j64_imm, Raw.jctlIs, Raw.moviRd, dstOf_code, fr, rd.sd_lt, Dec.ok_bind, Dec.pure_ok]

theorem lea (h : Hd) (rd : Dst) (ra : Base) (rb : Src) (n : Fin 8) (sx : Bool) : Statement (.lea h rd ra rb n sx) := by
  have := rd.code_lt; have := rd.sd_lt; have := ra.code_lt; have := ra.sel_lt; have := rb.code_lt; have := rb.sel_lt; have := Bool.toNat_lt sx
  refine of64 (r := g64 0x059 0 h rd.code ra.code ra.sel rb.code rb.sel 0 0 (n.val + 8 * sx.toNat + 256 * rd.sd)) rfl rfl rfl (by apply g64_fits <;> omega) ?_
  have f0 : (g64 0x059 0 h rd.code ra.code ra.sel rb.code rb.sel 0 0 (n.val + 8 * sx.toNat + 256 * rd.sd)).dst = .ok rd := g64_dst (by rw [g64_md] <;> omega)
  have f1 : (g64 0x059 0 h rd.code ra.code ra.sel rb.code rb.sel 0 0 (n.val + 8 * sx.toNat + 256 * rd.sd)).fld 0 3 (finOf 8) = .ok n := Raw.fld_of (c := n.val) (by rw [g64_m] <;> omega) (finOf_val n)
  have f2 : (g64 0x059 0 h rd.code ra.code ra.sel rb.code rb.sel 0 0 (n.val + 8 * sx.toNat + 256 * rd.sd)).fld 3 1 boolOf = .ok sx := Raw.fld_of (c := sx.toNat) (by rw [g64_m] <;> omega) (boolOf_toNat sx)
  have f3 : (g64 0x059 0 h rd.code ra.code ra.sel rb.code rb.sel 0 0 (n.val + 8 * sx.toNat + 256 * rd.sd)).rsv 4 4 = .ok () := Raw.rsv_of (by rw [g64_m] <;> omega)
  simp (disch := omega) [dec64, decInt, show (g64 0x059 0 h rd.code ra.code ra.sel rb.code rb.sel 0 0 (n.val + 8 * sx.toNat + 256 * rd.sd)).op = 0x059 from rfl, show (g64 0x059 0 h rd.code ra.code ra.sel rb.code rb.sel 0 0 (n.val + 8 * sx.toNat + 256 * rd.sd)).shapeIs .P = .ok () from rfl, g64_hd, g64_baseA, g64_srcB, g64_noC, f0, f1, f2, f3, Dec.ok_bind, Dec.pure_ok]

theorem plop (h : Hd) (rd : Pred) (ra : Pred) (rb : Pred) (rc : Pred) (table : Fin 256) : Statement (.plop h rd ra rb rc table) := by
  refine of64 (r := g64 0x05A 0 h rd.val ra.val 0 rb.val 0 rc.val 0 (table.val)) rfl rfl rfl (by apply g64_fits <;> omega) ?_
  have f0 : (g64 0x05A 0 h rd.val ra.val 0 rb.val 0 rc.val 0 (table.val)).fld 0 8 (finOf 256) = .ok table := Raw.fld_of (c := table.val) (by rw [g64_m] <;> omega) (finOf_val table)
  have f1 : (g64 0x05A 0 h rd.val ra.val 0 rb.val 0 rc.val 0 (table.val)).rsv 8 1 = .ok () := Raw.rsv_of (by rw [g64_m] <;> omega)
  simp (disch := omega) [dec64, decInt, show (g64 0x05A 0 h rd.val ra.val 0 rb.val 0 rc.val 0 (table.val)).op = 0x05A from rfl, show (g64 0x05A 0 h rd.val ra.val 0 rb.val 0 rc.val 0 (table.val)).shapeIs .P = .ok () from rfl, g64_hd, g64_pd, g64_predA, g64_predB, g64_predC, f0, f1, Dec.ok_bind, Dec.pure_ok]

theorem pset (h : Hd) (rd : Pred) (ra : Src) (t : PTest) : Statement (.pset h rd ra t) := by
  have := ra.code_lt; have := ra.sel_lt; have := t.code_lt
  refine of64 (r := g64 0x05B 0 h rd.val ra.code ra.sel 0 0 0 0 (t.code)) rfl rfl rfl (by apply g64_fits <;> omega) ?_
  have f0 : (g64 0x05B 0 h rd.val ra.code ra.sel 0 0 0 0 (t.code)).fld 0 9 PTest.ofCode = .ok t := Raw.fld_of (c := t.code) (by rw [g64_m] <;> omega) (PTest.ofCode_code t)
  simp (disch := omega) [dec64, decInt, show (g64 0x05B 0 h rd.val ra.code ra.sel 0 0 0 0 (t.code)).op = 0x05B from rfl, show (g64 0x05B 0 h rd.val ra.code ra.sel 0 0 0 0 (t.code)).shapeIs .P = .ok () from rfl, g64_hd, g64_pd, g64_srcA, g64_noB, g64_noC, f0, Dec.ok_bind, Dec.pure_ok]

theorem iaddImm (h : Hd) (rd : LDst) (ra : LSrc) (imm : BitVec 28) : Statement (.iaddImm h rd ra imm) := by
  have := rd.code_lt; have := ra.code_lt
  have := imm.isLt
  refine of64 (r := i64 0x060 h rd.code ra.code imm.toNat) rfl rfl rfl (by apply i64_fits <;> omega) ?_
  simp (disch := omega) [dec64, decInt, show (i64 0x060 h rd.code ra.code imm.toNat).op = 0x060 from rfl, show (i64 0x060 h rd.code ra.code imm.toNat).shapeIs .P = .ok () from rfl, i64_hd, i64_ldst, i64_lsrcA, i64_imm, Dec.ok_bind, Dec.pure_ok]

theorem imulImm (h : Hd) (rd : LDst) (ra : LSrc) (imm : BitVec 28) : Statement (.imulImm h rd ra imm) := by
  have := rd.code_lt; have := ra.code_lt
  have := imm.isLt
  refine of64 (r := i64 0x061 h rd.code ra.code imm.toNat) rfl rfl rfl (by apply i64_fits <;> omega) ?_
  simp (disch := omega) [dec64, decInt, show (i64 0x061 h rd.code ra.code imm.toNat).op = 0x061 from rfl, show (i64 0x061 h rd.code ra.code imm.toNat).shapeIs .P = .ok () from rfl, i64_hd, i64_ldst, i64_lsrcA, i64_imm, Dec.ok_bind, Dec.pure_ok]

theorem andImm (h : Hd) (rd : LDst) (ra : LSrc) (imm : BitVec 28) : Statement (.andImm h rd ra imm) := by
  have := rd.code_lt; have := ra.code_lt
  have := imm.isLt
  refine of64 (r := i64 0x062 h rd.code ra.code imm.toNat) rfl rfl rfl (by apply i64_fits <;> omega) ?_
  simp (disch := omega) [dec64, decInt, show (i64 0x062 h rd.code ra.code imm.toNat).op = 0x062 from rfl, show (i64 0x062 h rd.code ra.code imm.toNat).shapeIs .P = .ok () from rfl, i64_hd, i64_ldst, i64_lsrcA, i64_imm, Dec.ok_bind, Dec.pure_ok]

theorem orImm (h : Hd) (rd : LDst) (ra : LSrc) (imm : BitVec 28) : Statement (.orImm h rd ra imm) := by
  have := rd.code_lt; have := ra.code_lt
  have := imm.isLt
  refine of64 (r := i64 0x063 h rd.code ra.code imm.toNat) rfl rfl rfl (by apply i64_fits <;> omega) ?_
  simp (disch := omega) [dec64, decInt, show (i64 0x063 h rd.code ra.code imm.toNat).op = 0x063 from rfl, show (i64 0x063 h rd.code ra.code imm.toNat).shapeIs .P = .ok () from rfl, i64_hd, i64_ldst, i64_lsrcA, i64_imm, Dec.ok_bind, Dec.pure_ok]

theorem xorImm (h : Hd) (rd : LDst) (ra : LSrc) (imm : BitVec 28) : Statement (.xorImm h rd ra imm) := by
  have := rd.code_lt; have := ra.code_lt
  have := imm.isLt
  refine of64 (r := i64 0x064 h rd.code ra.code imm.toNat) rfl rfl rfl (by apply i64_fits <;> omega) ?_
  simp (disch := omega) [dec64, decInt, show (i64 0x064 h rd.code ra.code imm.toNat).op = 0x064 from rfl, show (i64 0x064 h rd.code ra.code imm.toNat).shapeIs .P = .ok () from rfl, i64_hd, i64_ldst, i64_lsrcA, i64_imm, Dec.ok_bind, Dec.pure_ok]

theorem shlImm (h : Hd) (rd : LDst) (ra : LSrc) (imm : BitVec 28) : Statement (.shlImm h rd ra imm) := by
  have := rd.code_lt; have := ra.code_lt
  have := imm.isLt
  refine of64 (r := i64 0x065 h rd.code ra.code imm.toNat) rfl rfl rfl (by apply i64_fits <;> omega) ?_
  simp (disch := omega) [dec64, decInt, show (i64 0x065 h rd.code ra.code imm.toNat).op = 0x065 from rfl, show (i64 0x065 h rd.code ra.code imm.toNat).shapeIs .P = .ok () from rfl, i64_hd, i64_ldst, i64_lsrcA, i64_imm, Dec.ok_bind, Dec.pure_ok]

theorem shrImm (h : Hd) (rd : LDst) (ra : LSrc) (imm : BitVec 28) : Statement (.shrImm h rd ra imm) := by
  have := rd.code_lt; have := ra.code_lt
  have := imm.isLt
  refine of64 (r := i64 0x066 h rd.code ra.code imm.toNat) rfl rfl rfl (by apply i64_fits <;> omega) ?_
  simp (disch := omega) [dec64, decInt, show (i64 0x066 h rd.code ra.code imm.toNat).op = 0x066 from rfl, show (i64 0x066 h rd.code ra.code imm.toNat).shapeIs .P = .ok () from rfl, i64_hd, i64_ldst, i64_lsrcA, i64_imm, Dec.ok_bind, Dec.pure_ok]

theorem sarImm (h : Hd) (rd : LDst) (ra : LSrc) (imm : BitVec 28) : Statement (.sarImm h rd ra imm) := by
  have := rd.code_lt; have := ra.code_lt
  have := imm.isLt
  refine of64 (r := i64 0x067 h rd.code ra.code imm.toNat) rfl rfl rfl (by apply i64_fits <;> omega) ?_
  simp (disch := omega) [dec64, decInt, show (i64 0x067 h rd.code ra.code imm.toNat).op = 0x067 from rfl, show (i64 0x067 h rd.code ra.code imm.toNat).shapeIs .P = .ok () from rfl, i64_hd, i64_ldst, i64_lsrcA, i64_imm, Dec.ok_bind, Dec.pure_ok]

theorem fadd (h : Hd) (sh : Shape) (rd : LDst) (ra : Src) (rb : Src) (rm : Rm) : Statement (.fadd h sh rd ra rb rm) := by
  have := sh.code_lt; have := rd.code_lt; have := ra.code_lt; have := ra.sel_lt; have := rb.code_lt; have := rb.sel_lt; have := rm.code_lt
  refine of64 (r := g64 0x080 sh.code h rd.code ra.code ra.sel rb.code rb.sel 0 0 (rm.code)) rfl rfl rfl (by apply g64_fits <;> omega) ?_
  have f0 : (g64 0x080 sh.code h rd.code ra.code ra.sel rb.code rb.sel 0 0 (rm.code)).fld 0 3 Rm.ofCode = .ok rm := Raw.fld_of (c := rm.code) (by rw [g64_m] <;> omega) (Rm.ofCode_code rm)
  have f1 : (g64 0x080 sh.code h rd.code ra.code ra.sel rb.code rb.sel 0 0 (rm.code)).rsv 3 6 = .ok () := Raw.rsv_of (by rw [g64_m] <;> omega)
  simp (disch := omega) [dec64, decFlt, show (g64 0x080 sh.code h rd.code ra.code ra.sel rb.code rb.sel 0 0 (rm.code)).op = 0x080 from rfl, g64_hd, g64_shp, g64_ldst, g64_srcA, g64_srcB, g64_noC, f0, f1, Dec.ok_bind, Dec.pure_ok]

theorem fsub (h : Hd) (sh : Shape) (rd : LDst) (ra : Src) (rb : Src) (rm : Rm) : Statement (.fsub h sh rd ra rb rm) := by
  have := sh.code_lt; have := rd.code_lt; have := ra.code_lt; have := ra.sel_lt; have := rb.code_lt; have := rb.sel_lt; have := rm.code_lt
  refine of64 (r := g64 0x081 sh.code h rd.code ra.code ra.sel rb.code rb.sel 0 0 (rm.code)) rfl rfl rfl (by apply g64_fits <;> omega) ?_
  have f0 : (g64 0x081 sh.code h rd.code ra.code ra.sel rb.code rb.sel 0 0 (rm.code)).fld 0 3 Rm.ofCode = .ok rm := Raw.fld_of (c := rm.code) (by rw [g64_m] <;> omega) (Rm.ofCode_code rm)
  have f1 : (g64 0x081 sh.code h rd.code ra.code ra.sel rb.code rb.sel 0 0 (rm.code)).rsv 3 6 = .ok () := Raw.rsv_of (by rw [g64_m] <;> omega)
  simp (disch := omega) [dec64, decFlt, show (g64 0x081 sh.code h rd.code ra.code ra.sel rb.code rb.sel 0 0 (rm.code)).op = 0x081 from rfl, g64_hd, g64_shp, g64_ldst, g64_srcA, g64_srcB, g64_noC, f0, f1, Dec.ok_bind, Dec.pure_ok]

theorem fmul (h : Hd) (sh : Shape) (rd : LDst) (ra : Src) (rb : Src) (rm : Rm) (sec : Sec) : Statement (.fmul h sh rd ra rb rm sec) := by
  have := sh.code_lt; have := rd.code_lt; have := ra.code_lt; have := ra.sel_lt; have := rb.code_lt; have := rb.sel_lt; have := rm.code_lt; have := sec.code_lt
  refine of64 (r := g64 0x082 sh.code h rd.code ra.code ra.sel rb.code rb.sel 0 0 (rm.code + 8 * sec.code)) rfl rfl rfl (by apply g64_fits <;> omega) ?_
  have f0 : (g64 0x082 sh.code h rd.code ra.code ra.sel rb.code rb.sel 0 0 (rm.code + 8 * sec.code)).fld 0 3 Rm.ofCode = .ok rm := Raw.fld_of (c := rm.code) (by rw [g64_m] <;> omega) (Rm.ofCode_code rm)
  have f1 : (g64 0x082 sh.code h rd.code ra.code ra.sel rb.code rb.sel 0 0 (rm.code + 8 * sec.code)).fld 3 2 Sec.ofCode = .ok sec := Raw.fld_of (c := sec.code) (by rw [g64_m] <;> omega) (Sec.ofCode_code sec)
  have f2 : (g64 0x082 sh.code h rd.code ra.code ra.sel rb.code rb.sel 0 0 (rm.code + 8 * sec.code)).rsv 5 4 = .ok () := Raw.rsv_of (by rw [g64_m] <;> omega)
  simp (disch := omega) [dec64, decFlt, show (g64 0x082 sh.code h rd.code ra.code ra.sel rb.code rb.sel 0 0 (rm.code + 8 * sec.code)).op = 0x082 from rfl, g64_hd, g64_shp, g64_ldst, g64_srcA, g64_srcB, g64_noC, f0, f1, f2, Dec.ok_bind, Dec.pure_ok]

theorem ffma (h : Hd) (sh : Shape) (rd : LDst) (ra : Src) (rb : Src) (rc : Src) (rm : Rm) (sec : Sec) : Statement (.ffma h sh rd ra rb rc rm sec) := by
  have := sh.code_lt; have := rd.code_lt; have := ra.code_lt; have := ra.sel_lt; have := rb.code_lt; have := rb.sel_lt; have := rc.code_lt; have := rc.sel_lt; have := rm.code_lt; have := sec.code_lt
  refine of64 (r := g64 0x083 sh.code h rd.code ra.code ra.sel rb.code rb.sel rc.code rc.sel (rm.code + 8 * sec.code)) rfl rfl rfl (by apply g64_fits <;> omega) ?_
  have f0 : (g64 0x083 sh.code h rd.code ra.code ra.sel rb.code rb.sel rc.code rc.sel (rm.code + 8 * sec.code)).fld 0 3 Rm.ofCode = .ok rm := Raw.fld_of (c := rm.code) (by rw [g64_m] <;> omega) (Rm.ofCode_code rm)
  have f1 : (g64 0x083 sh.code h rd.code ra.code ra.sel rb.code rb.sel rc.code rc.sel (rm.code + 8 * sec.code)).fld 3 2 Sec.ofCode = .ok sec := Raw.fld_of (c := sec.code) (by rw [g64_m] <;> omega) (Sec.ofCode_code sec)
  have f2 : (g64 0x083 sh.code h rd.code ra.code ra.sel rb.code rb.sel rc.code rc.sel (rm.code + 8 * sec.code)).rsv 5 4 = .ok () := Raw.rsv_of (by rw [g64_m] <;> omega)
  simp (disch := omega) [dec64, decFlt, show (g64 0x083 sh.code h rd.code ra.code ra.sel rb.code rb.sel rc.code rc.sel (rm.code + 8 * sec.code)).op = 0x083 from rfl, g64_hd, g64_shp, g64_ldst, g64_srcA, g64_srcB, g64_srcC, f0, f1, f2, Dec.ok_bind, Dec.pure_ok]

theorem fmin (h : Hd) (sh : Shape) (rd : LDst) (ra : Src) (rb : Src) (rm : Rm) : Statement (.fmin h sh rd ra rb rm) := by
  have := sh.code_lt; have := rd.code_lt; have := ra.code_lt; have := ra.sel_lt; have := rb.code_lt; have := rb.sel_lt; have := rm.code_lt
  refine of64 (r := g64 0x084 sh.code h rd.code ra.code ra.sel rb.code rb.sel 0 0 (rm.code)) rfl rfl rfl (by apply g64_fits <;> omega) ?_
  have f0 : (g64 0x084 sh.code h rd.code ra.code ra.sel rb.code rb.sel 0 0 (rm.code)).fld 0 3 Rm.ofCode = .ok rm := Raw.fld_of (c := rm.code) (by rw [g64_m] <;> omega) (Rm.ofCode_code rm)
  have f1 : (g64 0x084 sh.code h rd.code ra.code ra.sel rb.code rb.sel 0 0 (rm.code)).rsv 3 6 = .ok () := Raw.rsv_of (by rw [g64_m] <;> omega)
  simp (disch := omega) [dec64, decFlt, show (g64 0x084 sh.code h rd.code ra.code ra.sel rb.code rb.sel 0 0 (rm.code)).op = 0x084 from rfl, g64_hd, g64_shp, g64_ldst, g64_srcA, g64_srcB, g64_noC, f0, f1, Dec.ok_bind, Dec.pure_ok]

theorem fmax (h : Hd) (sh : Shape) (rd : LDst) (ra : Src) (rb : Src) (rm : Rm) : Statement (.fmax h sh rd ra rb rm) := by
  have := sh.code_lt; have := rd.code_lt; have := ra.code_lt; have := ra.sel_lt; have := rb.code_lt; have := rb.sel_lt; have := rm.code_lt
  refine of64 (r := g64 0x085 sh.code h rd.code ra.code ra.sel rb.code rb.sel 0 0 (rm.code)) rfl rfl rfl (by apply g64_fits <;> omega) ?_
  have f0 : (g64 0x085 sh.code h rd.code ra.code ra.sel rb.code rb.sel 0 0 (rm.code)).fld 0 3 Rm.ofCode = .ok rm := Raw.fld_of (c := rm.code) (by rw [g64_m] <;> omega) (Rm.ofCode_code rm)
  have f1 : (g64 0x085 sh.code h rd.code ra.code ra.sel rb.code rb.sel 0 0 (rm.code)).rsv 3 6 = .ok () := Raw.rsv_of (by rw [g64_m] <;> omega)
  simp (disch := omega) [dec64, decFlt, show (g64 0x085 sh.code h rd.code ra.code ra.sel rb.code rb.sel 0 0 (rm.code)).op = 0x085 from rfl, g64_hd, g64_shp, g64_ldst, g64_srcA, g64_srcB, g64_noC, f0, f1, Dec.ok_bind, Dec.pure_ok]

theorem fcmp (h : Hd) (sh : Shape) (rd : Pred) (ra : Src) (rb : Src) (cond : FCond) : Statement (.fcmp h sh rd ra rb cond) := by
  have := sh.code_lt; have := ra.code_lt; have := ra.sel_lt; have := rb.code_lt; have := rb.sel_lt; have := cond.code_lt
  refine of64 (r := g64 0x086 sh.code h rd.val ra.code ra.sel rb.code rb.sel 0 0 (cond.code)) rfl rfl rfl (by apply g64_fits <;> omega) ?_
  have f0 : (g64 0x086 sh.code h rd.val ra.code ra.sel rb.code rb.sel 0 0 (cond.code)).fld 0 3 FCond.ofCode = .ok cond := Raw.fld_of (c := cond.code) (by rw [g64_m] <;> omega) (FCond.ofCode_code cond)
  have f1 : (g64 0x086 sh.code h rd.val ra.code ra.sel rb.code rb.sel 0 0 (cond.code)).rsv 3 6 = .ok () := Raw.rsv_of (by rw [g64_m] <;> omega)
  simp (disch := omega) [dec64, decFlt, show (g64 0x086 sh.code h rd.val ra.code ra.sel rb.code rb.sel 0 0 (cond.code)).op = 0x086 from rfl, g64_hd, g64_shp, g64_pd, g64_srcA, g64_srcB, g64_noC, f0, f1, Dec.ok_bind, Dec.pure_ok]

theorem frelu (h : Hd) (sh : Shape) (rd : LDst) (ra : Src) (rm : Rm) : Statement (.frelu h sh rd ra rm) := by
  have := sh.code_lt; have := rd.code_lt; have := ra.code_lt; have := ra.sel_lt; have := rm.code_lt
  refine of64 (r := g64 0x087 sh.code h rd.code ra.code ra.sel 0 0 0 0 (rm.code)) rfl rfl rfl (by apply g64_fits <;> omega) ?_
  have f0 : (g64 0x087 sh.code h rd.code ra.code ra.sel 0 0 0 0 (rm.code)).fld 0 3 Rm.ofCode = .ok rm := Raw.fld_of (c := rm.code) (by rw [g64_m] <;> omega) (Rm.ofCode_code rm)
  have f1 : (g64 0x087 sh.code h rd.code ra.code ra.sel 0 0 0 0 (rm.code)).rsv 3 6 = .ok () := Raw.rsv_of (by rw [g64_m] <;> omega)
  simp (disch := omega) [dec64, decFlt, show (g64 0x087 sh.code h rd.code ra.code ra.sel 0 0 0 0 (rm.code)).op = 0x087 from rfl, g64_hd, g64_shp, g64_ldst, g64_srcA, g64_noB, g64_noC, f0, f1, Dec.ok_bind, Dec.pure_ok]

theorem fsqrelu (h : Hd) (sh : Shape) (rd : LDst) (ra : Src) (rm : Rm) : Statement (.fsqrelu h sh rd ra rm) := by
  have := sh.code_lt; have := rd.code_lt; have := ra.code_lt; have := ra.sel_lt; have := rm.code_lt
  refine of64 (r := g64 0x088 sh.code h rd.code ra.code ra.sel 0 0 0 0 (rm.code)) rfl rfl rfl (by apply g64_fits <;> omega) ?_
  have f0 : (g64 0x088 sh.code h rd.code ra.code ra.sel 0 0 0 0 (rm.code)).fld 0 3 Rm.ofCode = .ok rm := Raw.fld_of (c := rm.code) (by rw [g64_m] <;> omega) (Rm.ofCode_code rm)
  have f1 : (g64 0x088 sh.code h rd.code ra.code ra.sel 0 0 0 0 (rm.code)).rsv 3 6 = .ok () := Raw.rsv_of (by rw [g64_m] <;> omega)
  simp (disch := omega) [dec64, decFlt, show (g64 0x088 sh.code h rd.code ra.code ra.sel 0 0 0 0 (rm.code)).op = 0x088 from rfl, g64_hd, g64_shp, g64_ldst, g64_srcA, g64_noB, g64_noC, f0, f1, Dec.ok_bind, Dec.pure_ok]

theorem fclass (h : Hd) (sh : Shape) (rd : LDst) (ra : Src) : Statement (.fclass h sh rd ra) := by
  have := sh.code_lt; have := rd.code_lt; have := ra.code_lt; have := ra.sel_lt
  refine of64 (r := g64 0x089 sh.code h rd.code ra.code ra.sel 0 0 0 0 (0)) rfl rfl rfl (by apply g64_fits <;> omega) ?_
  have f0 : (g64 0x089 sh.code h rd.code ra.code ra.sel 0 0 0 0 (0)).rsv 0 9 = .ok () := Raw.rsv_of (by rw [g64_m] <;> omega)
  simp (disch := omega) [dec64, decFlt, show (g64 0x089 sh.code h rd.code ra.code ra.sel 0 0 0 0 (0)).op = 0x089 from rfl, g64_hd, g64_shp, g64_ldst, g64_srcA, g64_noB, g64_noC, f0, Dec.ok_bind, Dec.pure_ok]

theorem qpk (h : Hd) (sh : Shape) (rd : LDst) (ra : Src) (rm : Rm) (f : EFmt) : Statement (.qpk h sh rd ra rm f) := by
  have := sh.code_lt; have := rd.code_lt; have := ra.code_lt; have := ra.sel_lt; have := rm.code_lt; have := f.code_lt
  refine of64 (r := g64 0x101 sh.code h rd.code ra.code ra.sel 0 0 0 0 (rm.code + 32 * f.code)) rfl rfl rfl (by apply g64_fits <;> omega) ?_
  have f0 : (g64 0x101 sh.code h rd.code ra.code ra.sel 0 0 0 0 (rm.code + 32 * f.code)).fld 0 3 Rm.ofCode = .ok rm := Raw.fld_of (c := rm.code) (by rw [g64_m] <;> omega) (Rm.ofCode_code rm)
  have f1 : (g64 0x101 sh.code h rd.code ra.code ra.sel 0 0 0 0 (rm.code + 32 * f.code)).fld 5 4 EFmt.ofCode = .ok f := Raw.fld_of (c := f.code) (by rw [g64_m] <;> omega) (EFmt.ofCode_code f)
  have f2 : (g64 0x101 sh.code h rd.code ra.code ra.sel 0 0 0 0 (rm.code + 32 * f.code)).rsv 3 2 = .ok () := Raw.rsv_of (by rw [g64_m] <;> omega)
  simp (disch := omega) [dec64, decFun, show (g64 0x101 sh.code h rd.code ra.code ra.sel 0 0 0 0 (rm.code + 32 * f.code)).op = 0x101 from rfl, g64_hd, g64_shp, g64_ldst, g64_srcA, g64_noB, g64_noC, f0, f1, f2, Dec.ok_bind, Dec.pure_ok]

theorem qupk (h : Hd) (rd : LDst) (ra : Src) (f : EFmt) : Statement (.qupk h rd ra f) := by
  have := rd.code_lt; have := ra.code_lt; have := ra.sel_lt; have := f.code_lt
  refine of64 (r := g64 0x102 0 h rd.code ra.code ra.sel 0 0 0 0 (f.code)) rfl rfl rfl (by apply g64_fits <;> omega) ?_
  have f0 : (g64 0x102 0 h rd.code ra.code ra.sel 0 0 0 0 (f.code)).fld 0 4 EFmt.ofCode = .ok f := Raw.fld_of (c := f.code) (by rw [g64_m] <;> omega) (EFmt.ofCode_code f)
  have f1 : (g64 0x102 0 h rd.code ra.code ra.sel 0 0 0 0 (f.code)).rsv 4 5 = .ok () := Raw.rsv_of (by rw [g64_m] <;> omega)
  simp (disch := omega) [dec64, decFun, show (g64 0x102 0 h rd.code ra.code ra.sel 0 0 0 0 (f.code)).op = 0x102 from rfl, show (g64 0x102 0 h rd.code ra.code ra.sel 0 0 0 0 (f.code)).shapeIs .P = .ok () from rfl, g64_hd, g64_ldst, g64_srcA, g64_noB, g64_noC, f0, f1, Dec.ok_bind, Dec.pure_ok]

theorem frcp (h : Hd) (sh : Shape) (rd : LDst) (ra : Src) (rm : Rm) : Statement (.frcp h sh rd ra rm) := by
  have := sh.code_lt; have := rd.code_lt; have := ra.code_lt; have := ra.sel_lt; have := rm.code_lt
  refine of64 (r := g64 0x108 sh.code h rd.code ra.code ra.sel 0 0 0 0 (rm.code)) rfl rfl rfl (by apply g64_fits <;> omega) ?_
  have f0 : (g64 0x108 sh.code h rd.code ra.code ra.sel 0 0 0 0 (rm.code)).fld 0 3 Rm.ofCode = .ok rm := Raw.fld_of (c := rm.code) (by rw [g64_m] <;> omega) (Rm.ofCode_code rm)
  have f1 : (g64 0x108 sh.code h rd.code ra.code ra.sel 0 0 0 0 (rm.code)).rsv 3 6 = .ok () := Raw.rsv_of (by rw [g64_m] <;> omega)
  simp (disch := omega) [dec64, decFun, show (g64 0x108 sh.code h rd.code ra.code ra.sel 0 0 0 0 (rm.code)).op = 0x108 from rfl, g64_hd, g64_shp, g64_ldst, g64_srcA, g64_noB, g64_noC, f0, f1, Dec.ok_bind, Dec.pure_ok]

theorem fdiv (h : Hd) (sh : Shape) (rd : LDst) (ra : Src) (rb : Src) (rm : Rm) : Statement (.fdiv h sh rd ra rb rm) := by
  have := sh.code_lt; have := rd.code_lt; have := ra.code_lt; have := ra.sel_lt; have := rb.code_lt; have := rb.sel_lt; have := rm.code_lt
  refine of64 (r := g64 0x109 sh.code h rd.code ra.code ra.sel rb.code rb.sel 0 0 (rm.code)) rfl rfl rfl (by apply g64_fits <;> omega) ?_
  have f0 : (g64 0x109 sh.code h rd.code ra.code ra.sel rb.code rb.sel 0 0 (rm.code)).fld 0 3 Rm.ofCode = .ok rm := Raw.fld_of (c := rm.code) (by rw [g64_m] <;> omega) (Rm.ofCode_code rm)
  have f1 : (g64 0x109 sh.code h rd.code ra.code ra.sel rb.code rb.sel 0 0 (rm.code)).rsv 3 6 = .ok () := Raw.rsv_of (by rw [g64_m] <;> omega)
  simp (disch := omega) [dec64, decFun, show (g64 0x109 sh.code h rd.code ra.code ra.sel rb.code rb.sel 0 0 (rm.code)).op = 0x109 from rfl, g64_hd, g64_shp, g64_ldst, g64_srcA, g64_srcB, g64_noC, f0, f1, Dec.ok_bind, Dec.pure_ok]

theorem fsqrt (h : Hd) (sh : Shape) (rd : LDst) (ra : Src) (rm : Rm) : Statement (.fsqrt h sh rd ra rm) := by
  have := sh.code_lt; have := rd.code_lt; have := ra.code_lt; have := ra.sel_lt; have := rm.code_lt
  refine of64 (r := g64 0x10A sh.code h rd.code ra.code ra.sel 0 0 0 0 (rm.code)) rfl rfl rfl (by apply g64_fits <;> omega) ?_
  have f0 : (g64 0x10A sh.code h rd.code ra.code ra.sel 0 0 0 0 (rm.code)).fld 0 3 Rm.ofCode = .ok rm := Raw.fld_of (c := rm.code) (by rw [g64_m] <;> omega) (Rm.ofCode_code rm)
  have f1 : (g64 0x10A sh.code h rd.code ra.code ra.sel 0 0 0 0 (rm.code)).rsv 3 6 = .ok () := Raw.rsv_of (by rw [g64_m] <;> omega)
  simp (disch := omega) [dec64, decFun, show (g64 0x10A sh.code h rd.code ra.code ra.sel 0 0 0 0 (rm.code)).op = 0x10A from rfl, g64_hd, g64_shp, g64_ldst, g64_srcA, g64_noB, g64_noC, f0, f1, Dec.ok_bind, Dec.pure_ok]

theorem frsq (h : Hd) (sh : Shape) (rd : LDst) (ra : Src) (rm : Rm) : Statement (.frsq h sh rd ra rm) := by
  have := sh.code_lt; have := rd.code_lt; have := ra.code_lt; have := ra.sel_lt; have := rm.code_lt
  refine of64 (r := g64 0x10B sh.code h rd.code ra.code ra.sel 0 0 0 0 (rm.code)) rfl rfl rfl (by apply g64_fits <;> omega) ?_
  have f0 : (g64 0x10B sh.code h rd.code ra.code ra.sel 0 0 0 0 (rm.code)).fld 0 3 Rm.ofCode = .ok rm := Raw.fld_of (c := rm.code) (by rw [g64_m] <;> omega) (Rm.ofCode_code rm)
  have f1 : (g64 0x10B sh.code h rd.code ra.code ra.sel 0 0 0 0 (rm.code)).rsv 3 6 = .ok () := Raw.rsv_of (by rw [g64_m] <;> omega)
  simp (disch := omega) [dec64, decFun, show (g64 0x10B sh.code h rd.code ra.code ra.sel 0 0 0 0 (rm.code)).op = 0x10B from rfl, g64_hd, g64_shp, g64_ldst, g64_srcA, g64_noB, g64_noC, f0, f1, Dec.ok_bind, Dec.pure_ok]

theorem fexp2 (h : Hd) (sh : Shape) (rd : LDst) (ra : Src) (rm : Rm) : Statement (.fexp2 h sh rd ra rm) := by
  have := sh.code_lt; have := rd.code_lt; have := ra.code_lt; have := ra.sel_lt; have := rm.code_lt
  refine of64 (r := g64 0x10C sh.code h rd.code ra.code ra.sel 0 0 0 0 (rm.code)) rfl rfl rfl (by apply g64_fits <;> omega) ?_
  have f0 : (g64 0x10C sh.code h rd.code ra.code ra.sel 0 0 0 0 (rm.code)).fld 0 3 Rm.ofCode = .ok rm := Raw.fld_of (c := rm.code) (by rw [g64_m] <;> omega) (Rm.ofCode_code rm)
  have f1 : (g64 0x10C sh.code h rd.code ra.code ra.sel 0 0 0 0 (rm.code)).rsv 3 6 = .ok () := Raw.rsv_of (by rw [g64_m] <;> omega)
  simp (disch := omega) [dec64, decFun, show (g64 0x10C sh.code h rd.code ra.code ra.sel 0 0 0 0 (rm.code)).op = 0x10C from rfl, g64_hd, g64_shp, g64_ldst, g64_srcA, g64_noB, g64_noC, f0, f1, Dec.ok_bind, Dec.pure_ok]

theorem flog2 (h : Hd) (sh : Shape) (rd : LDst) (ra : Src) (rm : Rm) : Statement (.flog2 h sh rd ra rm) := by
  have := sh.code_lt; have := rd.code_lt; have := ra.code_lt; have := ra.sel_lt; have := rm.code_lt
  refine of64 (r := g64 0x10D sh.code h rd.code ra.code ra.sel 0 0 0 0 (rm.code)) rfl rfl rfl (by apply g64_fits <;> omega) ?_
  have f0 : (g64 0x10D sh.code h rd.code ra.code ra.sel 0 0 0 0 (rm.code)).fld 0 3 Rm.ofCode = .ok rm := Raw.fld_of (c := rm.code) (by rw [g64_m] <;> omega) (Rm.ofCode_code rm)
  have f1 : (g64 0x10D sh.code h rd.code ra.code ra.sel 0 0 0 0 (rm.code)).rsv 3 6 = .ok () := Raw.rsv_of (by rw [g64_m] <;> omega)
  simp (disch := omega) [dec64, decFun, show (g64 0x10D sh.code h rd.code ra.code ra.sel 0 0 0 0 (rm.code)).op = 0x10D from rfl, g64_hd, g64_shp, g64_ldst, g64_srcA, g64_noB, g64_noC, f0, f1, Dec.ok_bind, Dec.pure_ok]

theorem fsinpi (h : Hd) (sh : Shape) (rd : LDst) (ra : Src) (rm : Rm) : Statement (.fsinpi h sh rd ra rm) := by
  have := sh.code_lt; have := rd.code_lt; have := ra.code_lt; have := ra.sel_lt; have := rm.code_lt
  refine of64 (r := g64 0x10E sh.code h rd.code ra.code ra.sel 0 0 0 0 (rm.code)) rfl rfl rfl (by apply g64_fits <;> omega) ?_
  have f0 : (g64 0x10E sh.code h rd.code ra.code ra.sel 0 0 0 0 (rm.code)).fld 0 3 Rm.ofCode = .ok rm := Raw.fld_of (c := rm.code) (by rw [g64_m] <;> omega) (Rm.ofCode_code rm)
  have f1 : (g64 0x10E sh.code h rd.code ra.code ra.sel 0 0 0 0 (rm.code)).rsv 3 6 = .ok () := Raw.rsv_of (by rw [g64_m] <;> omega)
  simp (disch := omega) [dec64, decFun, show (g64 0x10E sh.code h rd.code ra.code ra.sel 0 0 0 0 (rm.code)).op = 0x10E from rfl, g64_hd, g64_shp, g64_ldst, g64_srcA, g64_noB, g64_noC, f0, f1, Dec.ok_bind, Dec.pure_ok]

theorem fcospi (h : Hd) (sh : Shape) (rd : LDst) (ra : Src) (rm : Rm) : Statement (.fcospi h sh rd ra rm) := by
  have := sh.code_lt; have := rd.code_lt; have := ra.code_lt; have := ra.sel_lt; have := rm.code_lt
  refine of64 (r := g64 0x10F sh.code h rd.code ra.code ra.sel 0 0 0 0 (rm.code)) rfl rfl rfl (by apply g64_fits <;> omega) ?_
  have f0 : (g64 0x10F sh.code h rd.code ra.code ra.sel 0 0 0 0 (rm.code)).fld 0 3 Rm.ofCode = .ok rm := Raw.fld_of (c := rm.code) (by rw [g64_m] <;> omega) (Rm.ofCode_code rm)
  have f1 : (g64 0x10F sh.code h rd.code ra.code ra.sel 0 0 0 0 (rm.code)).rsv 3 6 = .ok () := Raw.rsv_of (by rw [g64_m] <;> omega)
  simp (disch := omega) [dec64, decFun, show (g64 0x10F sh.code h rd.code ra.code ra.sel 0 0 0 0 (rm.code)).op = 0x10F from rfl, g64_hd, g64_shp, g64_ldst, g64_srcA, g64_noB, g64_noC, f0, f1, Dec.ok_bind, Dec.pure_ok]

theorem ftanh (h : Hd) (sh : Shape) (rd : LDst) (ra : Src) (rm : Rm) : Statement (.ftanh h sh rd ra rm) := by
  have := sh.code_lt; have := rd.code_lt; have := ra.code_lt; have := ra.sel_lt; have := rm.code_lt
  refine of64 (r := g64 0x110 sh.code h rd.code ra.code ra.sel 0 0 0 0 (rm.code)) rfl rfl rfl (by apply g64_fits <;> omega) ?_
  have f0 : (g64 0x110 sh.code h rd.code ra.code ra.sel 0 0 0 0 (rm.code)).fld 0 3 Rm.ofCode = .ok rm := Raw.fld_of (c := rm.code) (by rw [g64_m] <;> omega) (Rm.ofCode_code rm)
  have f1 : (g64 0x110 sh.code h rd.code ra.code ra.sel 0 0 0 0 (rm.code)).rsv 3 6 = .ok () := Raw.rsv_of (by rw [g64_m] <;> omega)
  simp (disch := omega) [dec64, decFun, show (g64 0x110 sh.code h rd.code ra.code ra.sel 0 0 0 0 (rm.code)).op = 0x110 from rfl, g64_hd, g64_shp, g64_ldst, g64_srcA, g64_noB, g64_noC, f0, f1, Dec.ok_bind, Dec.pure_ok]

theorem fsigm (h : Hd) (sh : Shape) (rd : LDst) (ra : Src) (rm : Rm) : Statement (.fsigm h sh rd ra rm) := by
  have := sh.code_lt; have := rd.code_lt; have := ra.code_lt; have := ra.sel_lt; have := rm.code_lt
  refine of64 (r := g64 0x111 sh.code h rd.code ra.code ra.sel 0 0 0 0 (rm.code)) rfl rfl rfl (by apply g64_fits <;> omega) ?_
  have f0 : (g64 0x111 sh.code h rd.code ra.code ra.sel 0 0 0 0 (rm.code)).fld 0 3 Rm.ofCode = .ok rm := Raw.fld_of (c := rm.code) (by rw [g64_m] <;> omega) (Rm.ofCode_code rm)
  have f1 : (g64 0x111 sh.code h rd.code ra.code ra.sel 0 0 0 0 (rm.code)).rsv 3 6 = .ok () := Raw.rsv_of (by rw [g64_m] <;> omega)
  simp (disch := omega) [dec64, decFun, show (g64 0x111 sh.code h rd.code ra.code ra.sel 0 0 0 0 (rm.code)).op = 0x111 from rfl, g64_hd, g64_shp, g64_ldst, g64_srcA, g64_noB, g64_noC, f0, f1, Dec.ok_bind, Dec.pure_ok]

theorem mmk (h : Hd) (sh : Shape) (rd : LDst) (ra : Src) (rb : Src) : Statement (.mmk h sh rd ra rb) := by
  have := sh.code_lt; have := rd.code_lt; have := ra.code_lt; have := ra.sel_lt; have := rb.code_lt; have := rb.sel_lt
  refine of64 (r := g64 0x140 sh.code h rd.code ra.code ra.sel rb.code rb.sel 0 0 (0)) rfl rfl rfl (by apply g64_fits <;> omega) ?_
  have f0 : (g64 0x140 sh.code h rd.code ra.code ra.sel rb.code rb.sel 0 0 (0)).rsv 0 9 = .ok () := Raw.rsv_of (by rw [g64_m] <;> omega)
  simp (disch := omega) [dec64, decMom, show (g64 0x140 sh.code h rd.code ra.code ra.sel rb.code rb.sel 0 0 (0)).op = 0x140 from rfl, g64_hd, g64_shp, g64_ldst, g64_srcA, g64_srcB, g64_noC, f0, Dec.ok_bind, Dec.pure_ok]

theorem mspl (h : Hd) (sh : Shape) (rd : LDst) (ra : Src) : Statement (.mspl h sh rd ra) := by
  have := sh.code_lt; have := rd.code_lt; have := ra.code_lt; have := ra.sel_lt
  refine of64 (r := g64 0x141 sh.code h rd.code ra.code ra.sel 0 0 0 0 (0)) rfl rfl rfl (by apply g64_fits <;> omega) ?_
  have f0 : (g64 0x141 sh.code h rd.code ra.code ra.sel 0 0 0 0 (0)).rsv 0 9 = .ok () := Raw.rsv_of (by rw [g64_m] <;> omega)
  simp (disch := omega) [dec64, decMom, show (g64 0x141 sh.code h rd.code ra.code ra.sel 0 0 0 0 (0)).op = 0x141 from rfl, g64_hd, g64_shp, g64_ldst, g64_srcA, g64_noB, g64_noC, f0, Dec.ok_bind, Dec.pure_ok]

theorem maddv (h : Hd) (sh : Shape) (rd : LDst) (ra : Src) (rb : Src) : Statement (.maddv h sh rd ra rb) := by
  have := sh.code_lt; have := rd.code_lt; have := ra.code_lt; have := ra.sel_lt; have := rb.code_lt; have := rb.sel_lt
  refine of64 (r := g64 0x142 sh.code h rd.code ra.code ra.sel rb.code rb.sel 0 0 (0)) rfl rfl rfl (by apply g64_fits <;> omega) ?_
  have f0 : (g64 0x142 sh.code h rd.code ra.code ra.sel rb.code rb.sel 0 0 (0)).rsv 0 9 = .ok () := Raw.rsv_of (by rw [g64_m] <;> omega)
  simp (disch := omega) [dec64, decMom, show (g64 0x142 sh.code h rd.code ra.code ra.sel rb.code rb.sel 0 0 (0)).op = 0x142 from rfl, g64_hd, g64_shp, g64_ldst, g64_srcA, g64_srcB, g64_noC, f0, Dec.ok_bind, Dec.pure_ok]

theorem mtag (h : Hd) (rd : LDst) (ra : Src) (rb : Src) (neg : Bool) : Statement (.mtag h rd ra rb neg) := by
  have := rd.code_lt; have := ra.code_lt; have := ra.sel_lt; have := rb.code_lt; have := rb.sel_lt; have := Bool.toNat_lt neg
  refine of64 (r := g64 0x143 2 h rd.code ra.code ra.sel rb.code rb.sel 0 0 (neg.toNat)) rfl rfl rfl (by apply g64_fits <;> omega) ?_
  have f0 : (g64 0x143 2 h rd.code ra.code ra.sel rb.code rb.sel 0 0 (neg.toNat)).fld 0 1 boolOf = .ok neg := Raw.fld_of (c := neg.toNat) (by rw [g64_m] <;> omega) (boolOf_toNat neg)
  have f1 : (g64 0x143 2 h rd.code ra.code ra.sel rb.code rb.sel 0 0 (neg.toNat)).rsv 1 8 = .ok () := Raw.rsv_of (by rw [g64_m] <;> omega)
  simp (disch := omega) [dec64, decMom, show (g64 0x143 2 h rd.code ra.code ra.sel rb.code rb.sel 0 0 (neg.toNat)).op = 0x143 from rfl, show (g64 0x143 2 h rd.code ra.code ra.sel rb.code rb.sel 0 0 (neg.toNat)).shapeIs .Q = .ok () from rfl, g64_hd, g64_ldst, g64_srcA, g64_srcB, g64_noC, f0, f1, Dec.ok_bind, Dec.pure_ok]

theorem mcov (h : Hd) (rd : LDst) (ra : Src) (rb : Src) : Statement (.mcov h rd ra rb) := by
  have := rd.code_lt; have := ra.code_lt; have := ra.sel_lt; have := rb.code_lt; have := rb.sel_lt
  refine of64 (r := g64 0x144 2 h rd.code ra.code ra.sel rb.code rb.sel 0 0 (0)) rfl rfl rfl (by apply g64_fits <;> omega) ?_
  have f0 : (g64 0x144 2 h rd.code ra.code ra.sel rb.code rb.sel 0 0 (0)).rsv 0 9 = .ok () := Raw.rsv_of (by rw [g64_m] <;> omega)
  simp (disch := omega) [dec64, decMom, show (g64 0x144 2 h rd.code ra.code ra.sel rb.code rb.sel 0 0 (0)).op = 0x144 from rfl, show (g64 0x144 2 h rd.code ra.code ra.sel rb.code rb.sel 0 0 (0)).shapeIs .Q = .ok () from rfl, g64_hd, g64_ldst, g64_srcA, g64_srcB, g64_noC, f0, Dec.ok_bind, Dec.pure_ok]

theorem mfold (h : Hd) (rd : LDst) (ra : Src) (sel : FoldSel) : Statement (.mfold h rd ra sel) := by
  have := rd.code_lt; have := ra.code_lt; have := ra.sel_lt; have := sel.code_lt
  refine of64 (r := g64 0x145 2 h rd.code ra.code ra.sel 0 0 0 0 (sel.code)) rfl rfl rfl (by apply g64_fits <;> omega) ?_
  have f0 : (g64 0x145 2 h rd.code ra.code ra.sel 0 0 0 0 (sel.code)).fld 0 2 FoldSel.ofCode = .ok sel := Raw.fld_of (c := sel.code) (by rw [g64_m] <;> omega) (FoldSel.ofCode_code sel)
  have f1 : (g64 0x145 2 h rd.code ra.code ra.sel 0 0 0 0 (sel.code)).rsv 2 7 = .ok () := Raw.rsv_of (by rw [g64_m] <;> omega)
  simp (disch := omega) [dec64, decMom, show (g64 0x145 2 h rd.code ra.code ra.sel 0 0 0 0 (sel.code)).op = 0x145 from rfl, show (g64 0x145 2 h rd.code ra.code ra.sel 0 0 0 0 (sel.code)).shapeIs .Q = .ok () from rfl, g64_hd, g64_ldst, g64_srcA, g64_noB, g64_noC, f0, f1, Dec.ok_bind, Dec.pure_ok]

theorem sdraw (h : Hd) (rd : LDst) (ra : Src) : Statement (.sdraw h rd ra) := by
  have := rd.code_lt; have := ra.code_lt; have := ra.sel_lt
  refine of64 (r := g64 0x146 3 h rd.code ra.code ra.sel 0 0 0 0 (0)) rfl rfl rfl (by apply g64_fits <;> omega) ?_
  have f0 : (g64 0x146 3 h rd.code ra.code ra.sel 0 0 0 0 (0)).rsv 0 9 = .ok () := Raw.rsv_of (by rw [g64_m] <;> omega)
  simp (disch := omega) [dec64, decMom, show (g64 0x146 3 h rd.code ra.code ra.sel 0 0 0 0 (0)).op = 0x146 from rfl, show (g64 0x146 3 h rd.code ra.code ra.sel 0 0 0 0 (0)).shapeIs .S = .ok () from rfl, g64_hd, g64_ldst, g64_srcA, g64_noB, g64_noC, f0, Dec.ok_bind, Dec.pure_ok]

theorem sstat (h : Hd) (rd : LDst) (ra : Src) : Statement (.sstat h rd ra) := by
  have := rd.code_lt; have := ra.code_lt; have := ra.sel_lt
  refine of64 (r := g64 0x147 3 h rd.code ra.code ra.sel 0 0 0 0 (0)) rfl rfl rfl (by apply g64_fits <;> omega) ?_
  have f0 : (g64 0x147 3 h rd.code ra.code ra.sel 0 0 0 0 (0)).rsv 0 9 = .ok () := Raw.rsv_of (by rw [g64_m] <;> omega)
  simp (disch := omega) [dec64, decMom, show (g64 0x147 3 h rd.code ra.code ra.sel 0 0 0 0 (0)).op = 0x147 from rfl, show (g64 0x147 3 h rd.code ra.code ra.sel 0 0 0 0 (0)).shapeIs .S = .ok () from rfl, g64_hd, g64_ldst, g64_srcA, g64_noB, g64_noC, f0, Dec.ok_bind, Dec.pure_ok]

theorem shfl (h : Hd) (sh : Shape) (rd : LDst) (ra : Src) (rb : Src) (m : ShMode) (wl : Fin 6) : Statement (.shfl h sh rd ra rb m wl) := by
  have := sh.code_lt; have := rd.code_lt; have := ra.code_lt; have := ra.sel_lt; have := rb.code_lt; have := rb.sel_lt; have := m.code_lt
  refine of64 (r := g64 0x180 sh.code h rd.code ra.code ra.sel rb.code rb.sel 0 0 (m.code + 4 * wl.val)) rfl rfl rfl (by apply g64_fits <;> omega) ?_
  have f0 : (g64 0x180 sh.code h rd.code ra.code ra.sel rb.code rb.sel 0 0 (m.code + 4 * wl.val)).fld 0 2 ShMode.ofCode = .ok m := Raw.fld_of (c := m.code) (by rw [g64_m] <;> omega) (ShMode.ofCode_code m)
  have f1 : (g64 0x180 sh.code h rd.code ra.code ra.sel rb.code rb.sel 0 0 (m.code + 4 * wl.val)).fld 2 3 (finOf 6) = .ok wl := Raw.fld_of (c := wl.val) (by rw [g64_m] <;> omega) (finOf_val wl)
  have f2 : (g64 0x180 sh.code h rd.code ra.code ra.sel rb.code rb.sel 0 0 (m.code + 4 * wl.val)).rsv 5 4 = .ok () := Raw.rsv_of (by rw [g64_m] <;> omega)
  simp (disch := omega) [dec64, decNet, show (g64 0x180 sh.code h rd.code ra.code ra.sel rb.code rb.sel 0 0 (m.code + 4 * wl.val)).op = 0x180 from rfl, g64_hd, g64_shp, g64_ldst, g64_srcA, g64_srcB, g64_noC, f0, f1, f2, Dec.ok_bind, Dec.pure_ok]

theorem vote (h : Hd) (rd : LDst) (ra : Pred) (m : VoteMode) : Statement (.vote h rd ra m) := by
  have := rd.code_lt; have := m.code_lt
  refine of64 (r := g64 0x181 0 h rd.code ra.val 0 0 0 0 0 (m.code)) rfl rfl rfl (by apply g64_fits <;> omega) ?_
  have f0 : (g64 0x181 0 h rd.code ra.val 0 0 0 0 0 (m.code)).fld 0 2 VoteMode.ofCode = .ok m := Raw.fld_of (c := m.code) (by rw [g64_m] <;> omega) (VoteMode.ofCode_code m)
  have f1 : (g64 0x181 0 h rd.code ra.val 0 0 0 0 0 (m.code)).rsv 2 7 = .ok () := Raw.rsv_of (by rw [g64_m] <;> omega)
  simp (disch := omega) [dec64, decNet, show (g64 0x181 0 h rd.code ra.val 0 0 0 0 0 (m.code)).op = 0x181 from rfl, show (g64 0x181 0 h rd.code ra.val 0 0 0 0 0 (m.code)).shapeIs .P = .ok () from rfl, g64_hd, g64_ldst, g64_predA, g64_noB, g64_noC, f0, f1, Dec.ok_bind, Dec.pure_ok]

theorem lred (h : Hd) (sh : Shape) (rd : LDst) (ra : Src) (op : RedOp) (wl : Fin 6) : Statement (.lred h sh rd ra op wl) := by
  have := sh.code_lt; have := rd.code_lt; have := ra.code_lt; have := ra.sel_lt; have := op.code_lt
  refine of64 (r := g64 0x182 sh.code h rd.code ra.code ra.sel 0 0 0 0 (op.code + 16 * wl.val)) rfl rfl rfl (by apply g64_fits <;> omega) ?_
  have f0 : (g64 0x182 sh.code h rd.code ra.code ra.sel 0 0 0 0 (op.code + 16 * wl.val)).fld 0 4 RedOp.ofCode = .ok op := Raw.fld_of (c := op.code) (by rw [g64_m] <;> omega) (RedOp.ofCode_code op)
  have f1 : (g64 0x182 sh.code h rd.code ra.code ra.sel 0 0 0 0 (op.code + 16 * wl.val)).fld 4 3 (finOf 6) = .ok wl := Raw.fld_of (c := wl.val) (by rw [g64_m] <;> omega) (finOf_val wl)
  have f2 : (g64 0x182 sh.code h rd.code ra.code ra.sel 0 0 0 0 (op.code + 16 * wl.val)).rsv 7 2 = .ok () := Raw.rsv_of (by rw [g64_m] <;> omega)
  simp (disch := omega) [dec64, decNet, show (g64 0x182 sh.code h rd.code ra.code ra.sel 0 0 0 0 (op.code + 16 * wl.val)).op = 0x182 from rfl, g64_hd, g64_shp, g64_ldst, g64_srcA, g64_noB, g64_noC, f0, f1, f2, Dec.ok_bind, Dec.pure_ok]

theorem lscn (h : Hd) (sh : Shape) (rd : LDst) (ra : Src) (op : RedOp) (wl : Fin 6) (x : Bool) : Statement (.lscn h sh rd ra op wl x) := by
  have := sh.code_lt; have := rd.code_lt; have := ra.code_lt; have := ra.sel_lt; have := op.code_lt; have := Bool.toNat_lt x
  refine of64 (r := g64 0x183 sh.code h rd.code ra.code ra.sel 0 0 0 0 (op.code + 16 * wl.val + 128 * x.toNat)) rfl rfl rfl (by apply g64_fits <;> omega) ?_
  have f0 : (g64 0x183 sh.code h rd.code ra.code ra.sel 0 0 0 0 (op.code + 16 * wl.val + 128 * x.toNat)).fld 0 4 RedOp.ofCode = .ok op := Raw.fld_of (c := op.code) (by rw [g64_m] <;> omega) (RedOp.ofCode_code op)
  have f1 : (g64 0x183 sh.code h rd.code ra.code ra.sel 0 0 0 0 (op.code + 16 * wl.val + 128 * x.toNat)).fld 4 3 (finOf 6) = .ok wl := Raw.fld_of (c := wl.val) (by rw [g64_m] <;> omega) (finOf_val wl)
  have f2 : (g64 0x183 sh.code h rd.code ra.code ra.sel 0 0 0 0 (op.code + 16 * wl.val + 128 * x.toNat)).fld 7 1 boolOf = .ok x := Raw.fld_of (c := x.toNat) (by rw [g64_m] <;> omega) (boolOf_toNat x)
  have f3 : (g64 0x183 sh.code h rd.code ra.code ra.sel 0 0 0 0 (op.code + 16 * wl.val + 128 * x.toNat)).rsv 8 1 = .ok () := Raw.rsv_of (by rw [g64_m] <;> omega)
  simp (disch := omega) [dec64, decNet, show (g64 0x183 sh.code h rd.code ra.code ra.sel 0 0 0 0 (op.code + 16 * wl.val + 128 * x.toNat)).op = 0x183 from rfl, g64_hd, g64_shp, g64_ldst, g64_srcA, g64_noB, g64_noC, f0, f1, f2, f3, Dec.ok_bind, Dec.pure_ok]

theorem vrd (h : Hd) (sh : Shape) (rd : LDst) (ra : Src) : Statement (.vrd h sh rd ra) := by
  have := sh.code_lt; have := rd.code_lt; have := ra.code_lt; have := ra.sel_lt
  refine of64 (r := g64 0x185 sh.code h rd.code ra.code ra.sel 0 0 0 0 (0)) rfl rfl rfl (by apply g64_fits <;> omega) ?_
  have f0 : (g64 0x185 sh.code h rd.code ra.code ra.sel 0 0 0 0 (0)).rsv 0 9 = .ok () := Raw.rsv_of (by rw [g64_m] <;> omega)
  simp (disch := omega) [dec64, decNet, show (g64 0x185 sh.code h rd.code ra.code ra.sel 0 0 0 0 (0)).op = 0x185 from rfl, g64_hd, g64_shp, g64_ldst, g64_srcA, g64_noB, g64_noC, f0, Dec.ok_bind, Dec.pure_ok]

theorem vwr (h : Hd) (sh : Shape) (ra : Src) (rb : Src) : Statement (.vwr h sh ra rb) := by
  have := sh.code_lt; have := ra.code_lt; have := ra.sel_lt; have := rb.code_lt; have := rb.sel_lt
  refine of64 (r := g64 0x186 sh.code h 0 ra.code ra.sel rb.code rb.sel 0 0 (0)) rfl rfl rfl (by apply g64_fits <;> omega) ?_
  have f0 : (g64 0x186 sh.code h 0 ra.code ra.sel rb.code rb.sel 0 0 (0)).rsv 0 9 = .ok () := Raw.rsv_of (by rw [g64_m] <;> omega)
  simp (disch := omega) [dec64, decNet, show (g64 0x186 sh.code h 0 ra.code ra.sel rb.code rb.sel 0 0 (0)).op = 0x186 from rfl, g64_hd, g64_shp, g64_noD, g64_srcA, g64_srcB, g64_noC, f0, Dec.ok_bind, Dec.pure_ok]

theorem guni (h : Hd) (sh : Shape) (rd : LDst) (sl : Fin 4) (form : UniForm) : Statement (.guni h sh rd sl form) := by
  have := sh.code_lt; have := rd.code_lt; have := form.code_lt
  refine of64 (r := g64 0x1A1 sh.code h rd.code 0 0 0 0 0 0 (sl.val + 4 * form.code)) rfl rfl rfl (by apply g64_fits <;> omega) ?_
  have f0 : (g64 0x1A1 sh.code h rd.code 0 0 0 0 0 0 (sl.val + 4 * form.code)).fld 0 2 (finOf 4) = .ok sl := Raw.fld_of (c := sl.val) (by rw [g64_m] <;> omega) (finOf_val sl)
  have f1 : (g64 0x1A1 sh.code h rd.code 0 0 0 0 0 0 (sl.val + 4 * form.code)).fld 2 2 UniForm.ofCode = .ok form := Raw.fld_of (c := form.code) (by rw [g64_m] <;> omega) (UniForm.ofCode_code form)
  have f2 : (g64 0x1A1 sh.code h rd.code 0 0 0 0 0 0 (sl.val + 4 * form.code)).rsv 4 5 = .ok () := Raw.rsv_of (by rw [g64_m] <;> omega)
  simp (disch := omega) [dec64, decGrn, show (g64 0x1A1 sh.code h rd.code 0 0 0 0 0 0 (sl.val + 4 * form.code)).op = 0x1A1 from rfl, g64_hd, g64_shp, g64_ldst, g64_noA, g64_noB, g64_noC, f0, f1, f2, Dec.ok_bind, Dec.pure_ok]

theorem gnorm (h : Hd) (sh : Shape) (rd : LDst) (sl : Fin 4) : Statement (.gnorm h sh rd sl) := by
  have := sh.code_lt; have := rd.code_lt
  refine of64 (r := g64 0x1A2 sh.code h rd.code 0 0 0 0 0 0 (sl.val)) rfl rfl rfl (by apply g64_fits <;> omega) ?_
  have f0 : (g64 0x1A2 sh.code h rd.code 0 0 0 0 0 0 (sl.val)).fld 0 2 (finOf 4) = .ok sl := Raw.fld_of (c := sl.val) (by rw [g64_m] <;> omega) (finOf_val sl)
  have f1 : (g64 0x1A2 sh.code h rd.code 0 0 0 0 0 0 (sl.val)).rsv 2 7 = .ok () := Raw.rsv_of (by rw [g64_m] <;> omega)
  simp (disch := omega) [dec64, decGrn, show (g64 0x1A2 sh.code h rd.code 0 0 0 0 0 0 (sl.val)).op = 0x1A2 from rfl, g64_hd, g64_shp, g64_ldst, g64_noA, g64_noB, g64_noC, f0, f1, Dec.ok_bind, Dec.pure_ok]

theorem ggum (h : Hd) (sh : Shape) (rd : LDst) (sl : Fin 4) : Statement (.ggum h sh rd sl) := by
  have := sh.code_lt; have := rd.code_lt
  refine of64 (r := g64 0x1A3 sh.code h rd.code 0 0 0 0 0 0 (sl.val)) rfl rfl rfl (by apply g64_fits <;> omega) ?_
  have f0 : (g64 0x1A3 sh.code h rd.code 0 0 0 0 0 0 (sl.val)).fld 0 2 (finOf 4) = .ok sl := Raw.fld_of (c := sl.val) (by rw [g64_m] <;> omega) (finOf_val sl)
  have f1 : (g64 0x1A3 sh.code h rd.code 0 0 0 0 0 0 (sl.val)).rsv 2 7 = .ok () := Raw.rsv_of (by rw [g64_m] <;> omega)
  simp (disch := omega) [dec64, decGrn, show (g64 0x1A3 sh.code h rd.code 0 0 0 0 0 0 (sl.val)).op = 0x1A3 from rfl, g64_hd, g64_shp, g64_ldst, g64_noA, g64_noB, g64_noC, f0, f1, Dec.ok_bind, Dec.pure_ok]

theorem gber (h : Hd) (rd : LDst) (ra : Src) (sl : Fin 4) : Statement (.gber h rd ra sl) := by
  have := rd.code_lt; have := ra.code_lt; have := ra.sel_lt
  refine of64 (r := g64 0x1A4 0 h rd.code ra.code ra.sel 0 0 0 0 (sl.val)) rfl rfl rfl (by apply g64_fits <;> omega) ?_
  have f0 : (g64 0x1A4 0 h rd.code ra.code ra.sel 0 0 0 0 (sl.val)).fld 0 2 (finOf 4) = .ok sl := Raw.fld_of (c := sl.val) (by rw [g64_m] <;> omega) (finOf_val sl)
  have f1 : (g64 0x1A4 0 h rd.code ra.code ra.sel 0 0 0 0 (sl.val)).rsv 2 7 = .ok () := Raw.rsv_of (by rw [g64_m] <;> omega)
  simp (disch := omega) [dec64, decGrn, show (g64 0x1A4 0 h rd.code ra.code ra.sel 0 0 0 0 (sl.val)).op = 0x1A4 from rfl, show (g64 0x1A4 0 h rd.code ra.code ra.sel 0 0 0 0 (sl.val)).shapeIs .P = .ok () from rfl, g64_hd, g64_ldst, g64_srcA, g64_noB, g64_noC, f0, f1, Dec.ok_bind, Dec.pure_ok]

theorem gcat (h : Hd) (rd : LDst) (ra : Src) (sl : Fin 4) : Statement (.gcat h rd ra sl) := by
  have := rd.code_lt; have := ra.code_lt; have := ra.sel_lt
  refine of64 (r := g64 0x1A5 0 h rd.code ra.code ra.sel 0 0 0 0 (sl.val)) rfl rfl rfl (by apply g64_fits <;> omega) ?_
  have f0 : (g64 0x1A5 0 h rd.code ra.code ra.sel 0 0 0 0 (sl.val)).fld 0 2 (finOf 4) = .ok sl := Raw.fld_of (c := sl.val) (by rw [g64_m] <;> omega) (finOf_val sl)
  have f1 : (g64 0x1A5 0 h rd.code ra.code ra.sel 0 0 0 0 (sl.val)).rsv 2 7 = .ok () := Raw.rsv_of (by rw [g64_m] <;> omega)
  simp (disch := omega) [dec64, decGrn, show (g64 0x1A5 0 h rd.code ra.code ra.sel 0 0 0 0 (sl.val)).op = 0x1A5 from rfl, show (g64 0x1A5 0 h rd.code ra.code ra.sel 0 0 0 0 (sl.val)).shapeIs .P = .ok () from rfl, g64_hd, g64_ldst, g64_srcA, g64_noB, g64_noC, f0, f1, Dec.ok_bind, Dec.pure_ok]

theorem ld (h : Hd) (rd : LDst) (ra : Base) (wd : Width) (sc : Scope) (esc : Bool) (sx : Bool) (off : BitVec 18) : Statement (.ld h rd ra wd sc esc sx off) := by
  have := rd.code_lt; have := ra.code_lt; have := ra.sel_lt; have := wd.code_lt; have := sc.code_lt; have := Bool.toNat_lt esc; have := Bool.toNat_lt sx
  refine of64 (r := m64 0x1C0 h rd.code ra wd sc esc sx off) rfl rfl rfl (by apply m64_fits <;> omega) ?_
  simp [dec64, decMem, show (m64 0x1C0 h rd.code ra wd sc esc sx off).op = 0x1C0 from rfl, show (m64 0x1C0 h rd.code ra wd sc esc sx off).shapeIs .P = .ok () from rfl, m64_hd, show (m64 0x1C0 h rd.code ra wd sc esc sx off).ldst = .ok rd from ldstOf_code rd, m64_base, m64_wd, m64_sc, m64_esc, m64_sx, m64_44, m64_off, Dec.ok_bind, Dec.pure_ok]

theorem st (h : Hd) (rd : LSrc) (ra : Base) (wd : Width) (sc : Scope) (esc : Bool) (off : BitVec 18) : Statement (.st h rd ra wd sc esc off) := by
  have := rd.code_lt; have := ra.code_lt; have := ra.sel_lt; have := wd.code_lt; have := sc.code_lt; have := Bool.toNat_lt esc
  refine of64 (r := m64 0x1C1 h rd.code ra wd sc esc false off) rfl rfl rfl (by apply m64_fits <;> omega) ?_
  simp [dec64, decMem, show (m64 0x1C1 h rd.code ra wd sc esc false off).op = 0x1C1 from rfl, show (m64 0x1C1 h rd.code ra wd sc esc false off).shapeIs .P = .ok () from rfl, m64_hd, show (m64 0x1C1 h rd.code ra wd sc esc false off).rdSrc = .ok rd from lsrcOf_code rd, m64_base, m64_wd, m64_sc, m64_esc, m64_43, m64_44, m64_off, Dec.ok_bind, Dec.pure_ok]

theorem ldp (h : Hd) (rd : LDst) (ra : Base) (rb : Src) (sc : Scope) (esc : Bool) : Statement (.ldp h rd ra rb sc esc) := by
  have := rd.code_lt; have := ra.code_lt; have := ra.sel_lt; have := rb.code_lt; have := rb.sel_lt; have := sc.code_lt; have := Bool.toNat_lt esc
  refine of64 (r := g64 0x1C2 1 h rd.code ra.code ra.sel rb.code rb.sel 0 0 (sc.code + 8 * esc.toNat)) rfl rfl rfl (by apply g64_fits <;> omega) ?_
  have f0 : (g64 0x1C2 1 h rd.code ra.code ra.sel rb.code rb.sel 0 0 (sc.code + 8 * esc.toNat)).fld 0 3 Scope.ofCode = .ok sc := Raw.fld_of (c := sc.code) (by rw [g64_m] <;> omega) (Scope.ofCode_code sc)
  have f1 : (g64 0x1C2 1 h rd.code ra.code ra.sel rb.code rb.sel 0 0 (sc.code + 8 * esc.toNat)).fld 3 1 boolOf = .ok esc := Raw.fld_of (c := esc.toNat) (by rw [g64_m] <;> omega) (boolOf_toNat esc)
  have f2 : (g64 0x1C2 1 h rd.code ra.code ra.sel rb.code rb.sel 0 0 (sc.code + 8 * esc.toNat)).rsv 4 5 = .ok () := Raw.rsv_of (by rw [g64_m] <;> omega)
  simp (disch := omega) [dec64, decMem, show (g64 0x1C2 1 h rd.code ra.code ra.sel rb.code rb.sel 0 0 (sc.code + 8 * esc.toNat)).op = 0x1C2 from rfl, show (g64 0x1C2 1 h rd.code ra.code ra.sel rb.code rb.sel 0 0 (sc.code + 8 * esc.toNat)).shapeIs .M = .ok () from rfl, g64_hd, g64_ldst, g64_baseA, g64_srcB, g64_noC, f0, f1, f2, Dec.ok_bind, Dec.pure_ok]

theorem stp (h : Hd) (rd : LSrc) (ra : Base) (rb : Src) (sc : Scope) (esc : Bool) : Statement (.stp h rd ra rb sc esc) := by
  have := rd.code_lt; have := ra.code_lt; have := ra.sel_lt; have := rb.code_lt; have := rb.sel_lt; have := sc.code_lt; have := Bool.toNat_lt esc
  refine of64 (r := g64 0x1C3 1 h rd.code ra.code ra.sel rb.code rb.sel 0 0 (sc.code + 8 * esc.toNat)) rfl rfl rfl (by apply g64_fits <;> omega) ?_
  have f0 : (g64 0x1C3 1 h rd.code ra.code ra.sel rb.code rb.sel 0 0 (sc.code + 8 * esc.toNat)).fld 0 3 Scope.ofCode = .ok sc := Raw.fld_of (c := sc.code) (by rw [g64_m] <;> omega) (Scope.ofCode_code sc)
  have f1 : (g64 0x1C3 1 h rd.code ra.code ra.sel rb.code rb.sel 0 0 (sc.code + 8 * esc.toNat)).fld 3 1 boolOf = .ok esc := Raw.fld_of (c := esc.toNat) (by rw [g64_m] <;> omega) (boolOf_toNat esc)
  have f2 : (g64 0x1C3 1 h rd.code ra.code ra.sel rb.code rb.sel 0 0 (sc.code + 8 * esc.toNat)).rsv 4 5 = .ok () := Raw.rsv_of (by rw [g64_m] <;> omega)
  simp (disch := omega) [dec64, decMem, show (g64 0x1C3 1 h rd.code ra.code ra.sel rb.code rb.sel 0 0 (sc.code + 8 * esc.toNat)).op = 0x1C3 from rfl, show (g64 0x1C3 1 h rd.code ra.code ra.sel rb.code rb.sel 0 0 (sc.code + 8 * esc.toNat)).shapeIs .M = .ok () from rfl, g64_hd, g64_rdSrc, g64_baseA, g64_srcB, g64_noC, f0, f1, f2, Dec.ok_bind, Dec.pure_ok]

theorem fence (h : Hd) (k : FenceKind) (sc : Scope) (paths : Paths) : Statement (.fence h k sc paths) := by
  have := k.code_lt; have := sc.code_lt; have := paths.code_lt
  refine of64 (r := g64 0x1C5 0 h 0 0 0 0 0 0 0 (k.code + 4 * sc.code + 32 * paths.code)) rfl rfl rfl (by apply g64_fits <;> omega) ?_
  have f0 : (g64 0x1C5 0 h 0 0 0 0 0 0 0 (k.code + 4 * sc.code + 32 * paths.code)).fld 0 2 FenceKind.ofCode = .ok k := Raw.fld_of (c := k.code) (by rw [g64_m] <;> omega) (FenceKind.ofCode_code k)
  have f1 : (g64 0x1C5 0 h 0 0 0 0 0 0 0 (k.code + 4 * sc.code + 32 * paths.code)).fld 2 3 Scope.ofCode = .ok sc := Raw.fld_of (c := sc.code) (by rw [g64_m] <;> omega) (Scope.ofCode_code sc)
  have f2 : (g64 0x1C5 0 h 0 0 0 0 0 0 0 (k.code + 4 * sc.code + 32 * paths.code)).fld 5 4 Paths.ofCode = .ok paths := Raw.fld_of (c := paths.code) (by rw [g64_m] <;> omega) (Paths.ofCode_code paths)
  simp (disch := omega) [dec64, decMem, show (g64 0x1C5 0 h 0 0 0 0 0 0 0 (k.code + 4 * sc.code + 32 * paths.code)).op = 0x1C5 from rfl, show (g64 0x1C5 0 h 0 0 0 0 0 0 0 (k.code + 4 * sc.code + 32 * paths.code)).shapeIs .P = .ok () from rfl, g64_hd, g64_noD, g64_noA, g64_noB, g64_noC, f0, f1, f2, Dec.ok_bind, Dec.pure_ok]

theorem txbeg (h : Hd) (pn : Fin 7) : Statement (.txbeg h pn) := by
  refine of64 (r := g64 0x1C7 0 h 0 0 0 0 0 0 0 (pn.val)) rfl rfl rfl (by apply g64_fits <;> omega) ?_
  have f0 : (g64 0x1C7 0 h 0 0 0 0 0 0 0 (pn.val)).fld 0 3 (finOf 7) = .ok pn := Raw.fld_of (c := pn.val) (by rw [g64_m] <;> omega) (finOf_val pn)
  have f1 : (g64 0x1C7 0 h 0 0 0 0 0 0 0 (pn.val)).rsv 3 6 = .ok () := Raw.rsv_of (by rw [g64_m] <;> omega)
  simp (disch := omega) [dec64, decMem, show (g64 0x1C7 0 h 0 0 0 0 0 0 0 (pn.val)).op = 0x1C7 from rfl, show (g64 0x1C7 0 h 0 0 0 0 0 0 0 (pn.val)).shapeIs .P = .ok () from rfl, g64_hd, g64_noD, g64_noA, g64_noB, g64_noC, f0, f1, Dec.ok_bind, Dec.pure_ok]

theorem txend (h : Hd) (rd : Pred) : Statement (.txend h rd) := by
  refine of64 (r := g64 0x1C8 0 h rd.val 0 0 0 0 0 0 (0)) rfl rfl rfl (by apply g64_fits <;> omega) ?_
  have f0 : (g64 0x1C8 0 h rd.val 0 0 0 0 0 0 (0)).rsv 0 9 = .ok () := Raw.rsv_of (by rw [g64_m] <;> omega)
  simp (disch := omega) [dec64, decMem, show (g64 0x1C8 0 h rd.val 0 0 0 0 0 0 (0)).op = 0x1C8 from rfl, show (g64 0x1C8 0 h rd.val 0 0 0 0 0 0 (0)).shapeIs .P = .ok () from rfl, g64_hd, g64_pd, g64_noA, g64_noB, g64_noC, f0, Dec.ok_bind, Dec.pure_ok]

theorem txabt (h : Hd) : Statement (.txabt h) := by
  refine of64 (r := g64 0x1C9 0 h 0 0 0 0 0 0 0 (0)) rfl rfl rfl (by apply g64_fits <;> omega) ?_
  have f0 : (g64 0x1C9 0 h 0 0 0 0 0 0 0 (0)).rsv 0 9 = .ok () := Raw.rsv_of (by rw [g64_m] <;> omega)
  simp (disch := omega) [dec64, decMem, show (g64 0x1C9 0 h 0 0 0 0 0 0 0 (0)).op = 0x1C9 from rfl, show (g64 0x1C9 0 h 0 0 0 0 0 0 0 (0)).shapeIs .P = .ok () from rfl, g64_hd, g64_noD, g64_noA, g64_noB, g64_noC, f0, Dec.ok_bind, Dec.pure_ok]

theorem cpy (h : Hd) (ra : Base) (rb : Base) (n : CpySize) (j : Fin 16) (esc : Bool) (na : Bool) : Statement (.cpy h ra rb n j esc na) := by
  have := ra.code_lt; have := ra.sel_lt; have := rb.code_lt; have := rb.sel_lt; have := n.code_lt; have := Bool.toNat_lt esc; have := Bool.toNat_lt na
  refine of64 (r := g64 0x1E0 0 h 0 ra.code ra.sel rb.code rb.sel 0 0 (n.code + 4 * j.val + 64 * esc.toNat + 128 * na.toNat)) rfl rfl rfl (by apply g64_fits <;> omega) ?_
  have f0 : (g64 0x1E0 0 h 0 ra.code ra.sel rb.code rb.sel 0 0 (n.code + 4 * j.val + 64 * esc.toNat + 128 * na.toNat)).fld 0 2 CpySize.ofCode = .ok n := Raw.fld_of (c := n.code) (by rw [g64_m] <;> omega) (CpySize.ofCode_code n)
  have f1 : (g64 0x1E0 0 h 0 ra.code ra.sel rb.code rb.sel 0 0 (n.code + 4 * j.val + 64 * esc.toNat + 128 * na.toNat)).fld 2 4 (finOf 16) = .ok j := Raw.fld_of (c := j.val) (by rw [g64_m] <;> omega) (finOf_val j)
  have f2 : (g64 0x1E0 0 h 0 ra.code ra.sel rb.code rb.sel 0 0 (n.code + 4 * j.val + 64 * esc.toNat + 128 * na.toNat)).fld 6 1 boolOf = .ok esc := Raw.fld_of (c := esc.toNat) (by rw [g64_m] <;> omega) (boolOf_toNat esc)
  have f3 : (g64 0x1E0 0 h 0 ra.code ra.sel rb.code rb.sel 0 0 (n.code + 4 * j.val + 64 * esc.toNat + 128 * na.toNat)).fld 7 1 boolOf = .ok na := Raw.fld_of (c := na.toNat) (by rw [g64_m] <;> omega) (boolOf_toNat na)
  have f4 : (g64 0x1E0 0 h 0 ra.code ra.sel rb.code rb.sel 0 0 (n.code + 4 * j.val + 64 * esc.toNat + 128 * na.toNat)).rsv 8 1 = .ok () := Raw.rsv_of (by rw [g64_m] <;> omega)
  simp (disch := omega) [dec64, decEng, show (g64 0x1E0 0 h 0 ra.code ra.sel rb.code rb.sel 0 0 (n.code + 4 * j.val + 64 * esc.toNat + 128 * na.toNat)).op = 0x1E0 from rfl, show (g64 0x1E0 0 h 0 ra.code ra.sel rb.code rb.sel 0 0 (n.code + 4 * j.val + 64 * esc.toNat + 128 * na.toNat)).shapeIs .P = .ok () from rfl, g64_hd, g64_noD, g64_baseA, g64_baseB, g64_noC, f0, f1, f2, f3, f4, Dec.ok_bind, Dec.pure_ok]

theorem cpyb (h : Hd) (ra : Fin 64) (j : Fin 16) (esc : Bool) : Statement (.cpyb h ra j esc) := by
  have := Bool.toNat_lt esc
  refine of64 (r := g64 0x1E1 0 h 0 ra.val 1 0 0 0 0 (j.val + 16 * esc.toNat)) rfl rfl rfl (by apply g64_fits <;> omega) ?_
  have f0 : (g64 0x1E1 0 h 0 ra.val 1 0 0 0 0 (j.val + 16 * esc.toNat)).fld 0 4 (finOf 16) = .ok j := Raw.fld_of (c := j.val) (by rw [g64_m] <;> omega) (finOf_val j)
  have f1 : (g64 0x1E1 0 h 0 ra.val 1 0 0 0 0 (j.val + 16 * esc.toNat)).fld 4 1 boolOf = .ok esc := Raw.fld_of (c := esc.toNat) (by rw [g64_m] <;> omega) (boolOf_toNat esc)
  have f2 : (g64 0x1E1 0 h 0 ra.val 1 0 0 0 0 (j.val + 16 * esc.toNat)).rsv 5 4 = .ok () := Raw.rsv_of (by rw [g64_m] <;> omega)
  simp (disch := omega) [dec64, decEng, show (g64 0x1E1 0 h 0 ra.val 1 0 0 0 0 (j.val + 16 * esc.toNat)).op = 0x1E1 from rfl, show (g64 0x1E1 0 h 0 ra.val 1 0 0 0 0 (j.val + 16 * esc.toNat)).shapeIs .P = .ok () from rfl, g64_hd, g64_noD, g64_gA, g64_noB, g64_noC, f0, f1, f2, Dec.ok_bind, Dec.pure_ok]

theorem binit (h : Hd) (ra : Src) (j : Fin 16) : Statement (.binit h ra j) := by
  have := ra.code_lt; have := ra.sel_lt
  refine of64 (r := g64 0x1E2 0 h 0 ra.code ra.sel 0 0 0 0 (j.val)) rfl rfl rfl (by apply g64_fits <;> omega) ?_
  have f0 : (g64 0x1E2 0 h 0 ra.code ra.sel 0 0 0 0 (j.val)).fld 0 4 (finOf 16) = .ok j := Raw.fld_of (c := j.val) (by rw [g64_m] <;> omega) (finOf_val j)
  have f1 : (g64 0x1E2 0 h 0 ra.code ra.sel 0 0 0 0 (j.val)).rsv 4 5 = .ok () := Raw.rsv_of (by rw [g64_m] <;> omega)
  simp (disch := omega) [dec64, decEng, show (g64 0x1E2 0 h 0 ra.code ra.sel 0 0 0 0 (j.val)).op = 0x1E2 from rfl, show (g64 0x1E2 0 h 0 ra.code ra.sel 0 0 0 0 (j.val)).shapeIs .P = .ok () from rfl, g64_hd, g64_noD, g64_srcA, g64_noB, g64_noC, f0, f1, Dec.ok_bind, Dec.pure_ok]

theorem barv (h : Hd) (j : Fin 16) : Statement (.barv h j) := by
  refine of64 (r := g64 0x1E3 0 h 0 0 0 0 0 0 0 (j.val)) rfl rfl rfl (by apply g64_fits <;> omega) ?_
  have f0 : (g64 0x1E3 0 h 0 0 0 0 0 0 0 (j.val)).fld 0 4 (finOf 16) = .ok j := Raw.fld_of (c := j.val) (by rw [g64_m] <;> omega) (finOf_val j)
  have f1 : (g64 0x1E3 0 h 0 0 0 0 0 0 0 (j.val)).rsv 4 5 = .ok () := Raw.rsv_of (by rw [g64_m] <;> omega)
  simp (disch := omega) [dec64, decEng, show (g64 0x1E3 0 h 0 0 0 0 0 0 0 (j.val)).op = 0x1E3 from rfl, show (g64 0x1E3 0 h 0 0 0 0 0 0 0 (j.val)).shapeIs .P = .ok () from rfl, g64_hd, g64_noD, g64_noA, g64_noB, g64_noC, f0, f1, Dec.ok_bind, Dec.pure_ok]

theorem bexp (h : Hd) (ra : Src) (j : Fin 16) (dec : Bool) : Statement (.bexp h ra j dec) := by
  have := ra.code_lt; have := ra.sel_lt; have := Bool.toNat_lt dec
  refine of64 (r := g64 0x1E4 0 h 0 ra.code ra.sel 0 0 0 0 (j.val + 16 * dec.toNat)) rfl rfl rfl (by apply g64_fits <;> omega) ?_
  have f0 : (g64 0x1E4 0 h 0 ra.code ra.sel 0 0 0 0 (j.val + 16 * dec.toNat)).fld 0 4 (finOf 16) = .ok j := Raw.fld_of (c := j.val) (by rw [g64_m] <;> omega) (finOf_val j)
  have f1 : (g64 0x1E4 0 h 0 ra.code ra.sel 0 0 0 0 (j.val + 16 * dec.toNat)).fld 4 1 boolOf = .ok dec := Raw.fld_of (c := dec.toNat) (by rw [g64_m] <;> omega) (boolOf_toNat dec)
  have f2 : (g64 0x1E4 0 h 0 ra.code ra.sel 0 0 0 0 (j.val + 16 * dec.toNat)).rsv 5 4 = .ok () := Raw.rsv_of (by rw [g64_m] <;> omega)
  simp (disch := omega) [dec64, decEng, show (g64 0x1E4 0 h 0 ra.code ra.sel 0 0 0 0 (j.val + 16 * dec.toNat)).op = 0x1E4 from rfl, show (g64 0x1E4 0 h 0 ra.code ra.sel 0 0 0 0 (j.val + 16 * dec.toNat)).shapeIs .P = .ok () from rfl, g64_hd, g64_noD, g64_srcA, g64_noB, g64_noC, f0, f1, f2, Dec.ok_bind, Dec.pure_ok]

theorem bwait (h : Hd) (j : Fin 16) (q : Bool) : Statement (.bwait h j q) := by
  have := Bool.toNat_lt q
  refine of64 (r := g64 0x1E5 0 h 0 0 0 0 0 0 0 (j.val + 16 * q.toNat)) rfl rfl rfl (by apply g64_fits <;> omega) ?_
  have f0 : (g64 0x1E5 0 h 0 0 0 0 0 0 0 (j.val + 16 * q.toNat)).fld 0 4 (finOf 16) = .ok j := Raw.fld_of (c := j.val) (by rw [g64_m] <;> omega) (finOf_val j)
  have f1 : (g64 0x1E5 0 h 0 0 0 0 0 0 0 (j.val + 16 * q.toNat)).fld 4 1 boolOf = .ok q := Raw.fld_of (c := q.toNat) (by rw [g64_m] <;> omega) (boolOf_toNat q)
  have f2 : (g64 0x1E5 0 h 0 0 0 0 0 0 0 (j.val + 16 * q.toNat)).rsv 5 4 = .ok () := Raw.rsv_of (by rw [g64_m] <;> omega)
  simp (disch := omega) [dec64, decEng, show (g64 0x1E5 0 h 0 0 0 0 0 0 0 (j.val + 16 * q.toNat)).op = 0x1E5 from rfl, show (g64 0x1E5 0 h 0 0 0 0 0 0 0 (j.val + 16 * q.toNat)).shapeIs .P = .ok () from rfl, g64_hd, g64_noD, g64_noA, g64_noB, g64_noC, f0, f1, f2, Dec.ok_bind, Dec.pure_ok]

theorem btest (h : Hd) (rd : Pred) (j : Fin 16) (form : BTestForm) : Statement (.btest h rd j form) := by
  have := form.code_lt
  refine of64 (r := g64 0x1E6 0 h rd.val 0 0 0 0 0 0 (j.val + 16 * form.code)) rfl rfl rfl (by apply g64_fits <;> omega) ?_
  have f0 : (g64 0x1E6 0 h rd.val 0 0 0 0 0 0 (j.val + 16 * form.code)).fld 0 4 (finOf 16) = .ok j := Raw.fld_of (c := j.val) (by rw [g64_m] <;> omega) (finOf_val j)
  have f1 : (g64 0x1E6 0 h rd.val 0 0 0 0 0 0 (j.val + 16 * form.code)).fld 4 2 BTestForm.ofCode = .ok form := Raw.fld_of (c := form.code) (by rw [g64_m] <;> omega) (BTestForm.ofCode_code form)
  have f2 : (g64 0x1E6 0 h rd.val 0 0 0 0 0 0 (j.val + 16 * form.code)).rsv 6 3 = .ok () := Raw.rsv_of (by rw [g64_m] <;> omega)
  simp (disch := omega) [dec64, decEng, show (g64 0x1E6 0 h rd.val 0 0 0 0 0 0 (j.val + 16 * form.code)).op = 0x1E6 from rfl, show (g64 0x1E6 0 h rd.val 0 0 0 0 0 0 (j.val + 16 * form.code)).shapeIs .P = .ok () from rfl, g64_hd, g64_pd, g64_noA, g64_noB, g64_noC, f0, f1, f2, Dec.ok_bind, Dec.pure_ok]

theorem bsync (h : Hd) (j : Fin 16) : Statement (.bsync h j) := by
  refine of64 (r := g64 0x1E7 0 h 0 0 0 0 0 0 0 (j.val)) rfl rfl rfl (by apply g64_fits <;> omega) ?_
  have f0 : (g64 0x1E7 0 h 0 0 0 0 0 0 0 (j.val)).fld 0 4 (finOf 16) = .ok j := Raw.fld_of (c := j.val) (by rw [g64_m] <;> omega) (finOf_val j)
  have f1 : (g64 0x1E7 0 h 0 0 0 0 0 0 0 (j.val)).rsv 4 5 = .ok () := Raw.rsv_of (by rw [g64_m] <;> omega)
  simp (disch := omega) [dec64, decEng, show (g64 0x1E7 0 h 0 0 0 0 0 0 0 (j.val)).op = 0x1E7 from rfl, show (g64 0x1E7 0 h 0 0 0 0 0 0 0 (j.val)).shapeIs .P = .ok () from rfl, g64_hd, g64_noD, g64_noA, g64_noB, g64_noC, f0, f1, Dec.ok_bind, Dec.pure_ok]

theorem tloop (h : Hd) (ra : Fin 64) (k : Fin 4) (j : Fin 16) (mode : LoopMode) (z : Bool) : Statement (.tloop h ra k j mode z) := by
  have := mode.code_lt; have := Bool.toNat_lt z
  refine of64 (r := g64 0x1F0 0 h 0 ra.val 1 0 0 0 0 (k.val + 4 * j.val + 64 * mode.code + 256 * z.toNat)) rfl rfl rfl (by apply g64_fits <;> omega) ?_
  have f0 : (g64 0x1F0 0 h 0 ra.val 1 0 0 0 0 (k.val + 4 * j.val + 64 * mode.code + 256 * z.toNat)).fld 0 2 (finOf 4) = .ok k := Raw.fld_of (c := k.val) (by rw [g64_m] <;> omega) (finOf_val k)
  have f1 : (g64 0x1F0 0 h 0 ra.val 1 0 0 0 0 (k.val + 4 * j.val + 64 * mode.code + 256 * z.toNat)).fld 2 4 (finOf 16) = .ok j := Raw.fld_of (c := j.val) (by rw [g64_m] <;> omega) (finOf_val j)
  have f2 : (g64 0x1F0 0 h 0 ra.val 1 0 0 0 0 (k.val + 4 * j.val + 64 * mode.code + 256 * z.toNat)).fld 6 2 LoopMode.ofCode = .ok mode := Raw.fld_of (c := mode.code) (by rw [g64_m] <;> omega) (LoopMode.ofCode_code mode)
  have f3 : (g64 0x1F0 0 h 0 ra.val 1 0 0 0 0 (k.val + 4 * j.val + 64 * mode.code + 256 * z.toNat)).fld 8 1 boolOf = .ok z := Raw.fld_of (c := z.toNat) (by rw [g64_m] <;> omega) (boolOf_toNat z)
  simp (disch := omega) [dec64, decEng, show (g64 0x1F0 0 h 0 ra.val 1 0 0 0 0 (k.val + 4 * j.val + 64 * mode.code + 256 * z.toNat)).op = 0x1F0 from rfl, show (g64 0x1F0 0 h 0 ra.val 1 0 0 0 0 (k.val + 4 * j.val + 64 * mode.code + 256 * z.toNat)).shapeIs .P = .ok () from rfl, g64_hd, g64_noD, g64_gA, g64_noB, g64_noC, f0, f1, f2, f3, Dec.ok_bind, Dec.pure_ok]

theorem thad (h : Hd) (ra : Fin 64) (pts : HadPts) (j : Fin 16) (sr : Bool) : Statement (.thad h ra pts j sr) := by
  have := pts.code_lt; have := Bool.toNat_lt sr
  refine of64 (r := g64 0x1F1 0 h 0 ra.val 1 0 0 0 0 (pts.code + 4 * j.val + 64 * sr.toNat)) rfl rfl rfl (by apply g64_fits <;> omega) ?_
  have f0 : (g64 0x1F1 0 h 0 ra.val 1 0 0 0 0 (pts.code + 4 * j.val + 64 * sr.toNat)).fld 0 2 HadPts.ofCode = .ok pts := Raw.fld_of (c := pts.code) (by rw [g64_m] <;> omega) (HadPts.ofCode_code pts)
  have f1 : (g64 0x1F1 0 h 0 ra.val 1 0 0 0 0 (pts.code + 4 * j.val + 64 * sr.toNat)).fld 2 4 (finOf 16) = .ok j := Raw.fld_of (c := j.val) (by rw [g64_m] <;> omega) (finOf_val j)
  have f2 : (g64 0x1F1 0 h 0 ra.val 1 0 0 0 0 (pts.code + 4 * j.val + 64 * sr.toNat)).fld 6 1 boolOf = .ok sr := Raw.fld_of (c := sr.toNat) (by rw [g64_m] <;> omega) (boolOf_toNat sr)
  have f3 : (g64 0x1F1 0 h 0 ra.val 1 0 0 0 0 (pts.code + 4 * j.val + 64 * sr.toNat)).rsv 7 2 = .ok () := Raw.rsv_of (by rw [g64_m] <;> omega)
  simp (disch := omega) [dec64, decEng, show (g64 0x1F1 0 h 0 ra.val 1 0 0 0 0 (pts.code + 4 * j.val + 64 * sr.toNat)).op = 0x1F1 from rfl, show (g64 0x1F1 0 h 0 ra.val 1 0 0 0 0 (pts.code + 4 * j.val + 64 * sr.toNat)).shapeIs .P = .ok () from rfl, g64_hd, g64_noD, g64_gA, g64_noB, g64_noC, f0, f1, f2, f3, Dec.ok_bind, Dec.pure_ok]

theorem tqnt (h : Hd) (ra : Fin 64) (k : Fin 4) (j : Fin 16) (sr : Bool) (vr : Bool) : Statement (.tqnt h ra k j sr vr) := by
  have := Bool.toNat_lt sr; have := Bool.toNat_lt vr
  refine of64 (r := g64 0x1F3 0 h 0 ra.val 1 0 0 0 0 (k.val + 4 * j.val + 64 * sr.toNat + 128 * vr.toNat)) rfl rfl rfl (by apply g64_fits <;> omega) ?_
  have f0 : (g64 0x1F3 0 h 0 ra.val 1 0 0 0 0 (k.val + 4 * j.val + 64 * sr.toNat + 128 * vr.toNat)).fld 0 2 (finOf 4) = .ok k := Raw.fld_of (c := k.val) (by rw [g64_m] <;> omega) (finOf_val k)
  have f1 : (g64 0x1F3 0 h 0 ra.val 1 0 0 0 0 (k.val + 4 * j.val + 64 * sr.toNat + 128 * vr.toNat)).fld 2 4 (finOf 16) = .ok j := Raw.fld_of (c := j.val) (by rw [g64_m] <;> omega) (finOf_val j)
  have f2 : (g64 0x1F3 0 h 0 ra.val 1 0 0 0 0 (k.val + 4 * j.val + 64 * sr.toNat + 128 * vr.toNat)).fld 6 1 boolOf = .ok sr := Raw.fld_of (c := sr.toNat) (by rw [g64_m] <;> omega) (boolOf_toNat sr)
  have f3 : (g64 0x1F3 0 h 0 ra.val 1 0 0 0 0 (k.val + 4 * j.val + 64 * sr.toNat + 128 * vr.toNat)).fld 7 1 boolOf = .ok vr := Raw.fld_of (c := vr.toNat) (by rw [g64_m] <;> omega) (boolOf_toNat vr)
  have f4 : (g64 0x1F3 0 h 0 ra.val 1 0 0 0 0 (k.val + 4 * j.val + 64 * sr.toNat + 128 * vr.toNat)).rsv 8 1 = .ok () := Raw.rsv_of (by rw [g64_m] <;> omega)
  simp (disch := omega) [dec64, decEng, show (g64 0x1F3 0 h 0 ra.val 1 0 0 0 0 (k.val + 4 * j.val + 64 * sr.toNat + 128 * vr.toNat)).op = 0x1F3 from rfl, show (g64 0x1F3 0 h 0 ra.val 1 0 0 0 0 (k.val + 4 * j.val + 64 * sr.toNat + 128 * vr.toNat)).shapeIs .P = .ok () from rfl, g64_hd, g64_noD, g64_gA, g64_noB, g64_noC, f0, f1, f2, f3, f4, Dec.ok_bind, Dec.pure_ok]

theorem movC16 (d : Fin 64) (b : CSrc) : Statement (.movC16 d b) := by
  have := b.code_lt
  have := d.isLt
  obtain ⟨h1, h2, h3, h4, h5⟩ := c16_fields (op := 0) (d := d.val) (b := b.code) (by omega) (by omega) (by omega)
  refine of16 (w := c16 0 d.val b.code) rfl rfl rfl h1 h2 ?_
  simp [dec16, h3, h4, h5, CSrc.ofCode_code, Fin.ofNat, Dec.pure_ok]

theorem iaddC16 (d : Fin 64) (b : CSrc) : Statement (.iaddC16 d b) := by
  have := b.code_lt
  have := d.isLt
  obtain ⟨h1, h2, h3, h4, h5⟩ := c16_fields (op := 1) (d := d.val) (b := b.code) (by omega) (by omega) (by omega)
  refine of16 (w := c16 1 d.val b.code) rfl rfl rfl h1 h2 ?_
  simp [dec16, h3, h4, h5, CSrc.ofCode_code, Fin.ofNat, Dec.pure_ok]

theorem isubC16 (d : Fin 64) (b : CSrc) : Statement (.isubC16 d b) := by
  have := b.code_lt
  have := d.isLt
  obtain ⟨h1, h2, h3, h4, h5⟩ := c16_fields (op := 2) (d := d.val) (b := b.code) (by omega) (by omega) (by omega)
  refine of16 (w := c16 2 d.val b.code) rfl rfl rfl h1 h2 ?_
  simp [dec16, h3, h4, h5, CSrc.ofCode_code, Fin.ofNat, Dec.pure_ok]

theorem andC16 (d : Fin 64) (b : CSrc) : Statement (.andC16 d b) := by
  have := b.code_lt
  have := d.isLt
  obtain ⟨h1, h2, h3, h4, h5⟩ := c16_fields (op := 3) (d := d.val) (b := b.code) (by omega) (by omega) (by omega)
  refine of16 (w := c16 3 d.val b.code) rfl rfl rfl h1 h2 ?_
  simp [dec16, h3, h4, h5, CSrc.ofCode_code, Fin.ofNat, Dec.pure_ok]

theorem orC16 (d : Fin 64) (b : CSrc) : Statement (.orC16 d b) := by
  have := b.code_lt
  have := d.isLt
  obtain ⟨h1, h2, h3, h4, h5⟩ := c16_fields (op := 4) (d := d.val) (b := b.code) (by omega) (by omega) (by omega)
  refine of16 (w := c16 4 d.val b.code) rfl rfl rfl h1 h2 ?_
  simp [dec16, h3, h4, h5, CSrc.ofCode_code, Fin.ofNat, Dec.pure_ok]

theorem xorC16 (d : Fin 64) (b : CSrc) : Statement (.xorC16 d b) := by
  have := b.code_lt
  have := d.isLt
  obtain ⟨h1, h2, h3, h4, h5⟩ := c16_fields (op := 5) (d := d.val) (b := b.code) (by omega) (by omega) (by omega)
  refine of16 (w := c16 5 d.val b.code) rfl rfl rfl h1 h2 ?_
  simp [dec16, h3, h4, h5, CSrc.ofCode_code, Fin.ofNat, Dec.pure_ok]

theorem shlC16 (d : Fin 64) (b : CSrc) : Statement (.shlC16 d b) := by
  have := b.code_lt
  have := d.isLt
  obtain ⟨h1, h2, h3, h4, h5⟩ := c16_fields (op := 6) (d := d.val) (b := b.code) (by omega) (by omega) (by omega)
  refine of16 (w := c16 6 d.val b.code) rfl rfl rfl h1 h2 ?_
  simp [dec16, h3, h4, h5, CSrc.ofCode_code, Fin.ofNat, Dec.pure_ok]

theorem shrC16 (d : Fin 64) (b : CSrc) : Statement (.shrC16 d b) := by
  have := b.code_lt
  have := d.isLt
  obtain ⟨h1, h2, h3, h4, h5⟩ := c16_fields (op := 7) (d := d.val) (b := b.code) (by omega) (by omega) (by omega)
  refine of16 (w := c16 7 d.val b.code) rfl rfl rfl h1 h2 ?_
  simp [dec16, h3, h4, h5, CSrc.ofCode_code, Fin.ofNat, Dec.pure_ok]

theorem iaddiC16 (d : Fin 64) (i : BitVec 5) : Statement (.iaddiC16 d i) := by
  have := i.isLt
  have := d.isLt
  obtain ⟨h1, h2, h3, h4, h5⟩ := c16_fields (op := 8) (d := d.val) (b := i.toNat) (by omega) (by omega) (by omega)
  refine of16 (w := c16 8 d.val i.toNat) rfl rfl rfl h1 h2 ?_
  simp [dec16, h3, h4, h5, CSrc.ofCode_code, Fin.ofNat, Dec.pure_ok]

theorem moviC16 (d : Fin 64) (i : BitVec 5) : Statement (.moviC16 d i) := by
  have := i.isLt
  have := d.isLt
  obtain ⟨h1, h2, h3, h4, h5⟩ := c16_fields (op := 9) (d := d.val) (b := i.toNat) (by omega) (by omega) (by omega)
  refine of16 (w := c16 9 d.val i.toNat) rfl rfl rfl h1 h2 ?_
  simp [dec16, h3, h4, h5, CSrc.ofCode_code, Fin.ofNat, Dec.pure_ok]

theorem faddC16 (d : Fin 64) (b : CSrc) : Statement (.faddC16 d b) := by
  have := b.code_lt
  have := d.isLt
  obtain ⟨h1, h2, h3, h4, h5⟩ := c16_fields (op := 10) (d := d.val) (b := b.code) (by omega) (by omega) (by omega)
  refine of16 (w := c16 10 d.val b.code) rfl rfl rfl h1 h2 ?_
  simp [dec16, h3, h4, h5, CSrc.ofCode_code, Fin.ofNat, Dec.pure_ok]

theorem fmulC16 (d : Fin 64) (b : CSrc) : Statement (.fmulC16 d b) := by
  have := b.code_lt
  have := d.isLt
  obtain ⟨h1, h2, h3, h4, h5⟩ := c16_fields (op := 11) (d := d.val) (b := b.code) (by omega) (by omega) (by omega)
  refine of16 (w := c16 11 d.val b.code) rfl rfl rfl h1 h2 ?_
  simp [dec16, h3, h4, h5, CSrc.ofCode_code, Fin.ofNat, Dec.pure_ok]

theorem faddMC16 (d : Fin 64) (b : CSrc) : Statement (.faddMC16 d b) := by
  have := b.code_lt
  have := d.isLt
  obtain ⟨h1, h2, h3, h4, h5⟩ := c16_fields (op := 12) (d := d.val) (b := b.code) (by omega) (by omega) (by omega)
  refine of16 (w := c16 12 d.val b.code) rfl rfl rfl h1 h2 ?_
  simp [dec16, h3, h4, h5, CSrc.ofCode_code, Fin.ofNat, Dec.pure_ok]

theorem fmulMC16 (d : Fin 64) (b : CSrc) : Statement (.fmulMC16 d b) := by
  have := b.code_lt
  have := d.isLt
  obtain ⟨h1, h2, h3, h4, h5⟩ := c16_fields (op := 13) (d := d.val) (b := b.code) (by omega) (by omega) (by omega)
  refine of16 (w := c16 13 d.val b.code) rfl rfl rfl h1 h2 ?_
  simp [dec16, h3, h4, h5, CSrc.ofCode_code, Fin.ofNat, Dec.pure_ok]

theorem braS (e : BitVec 11) : Statement (.braS e) := by
  have := e.isLt
  refine of16 (w := 28 + 32 * e.toNat) rfl rfl rfl (by omega) (by omega) ?_
  simp [dec16, show (28 + 32 * e.toNat) / 2 % 16 = 14 by omega, show (28 + 32 * e.toNat) / 32 = e.toNat by omega, Dec.pure_ok]

theorem nopC16 : Statement (.nopC16) := by
  exact of16 (w := 30) rfl rfl rfl (by omega) rfl rfl

theorem iaddS32 (st : Fin 4) (rd : LDst) (ra : LSrc) (rb : SSrc) : Statement (.iaddS32 st rd ra rb) := by
  have := rb.code_lt
  obtain ⟨h1, h2, h3, h4, h5, h6, h7, h8⟩ := s32_fields (op := 0) (st := st) (m := false) (rd := rd) (ra := ra) (rb := rb.code) (by omega) (by omega)
  refine of32 (w := s32 0 st false rd ra rb.code) rfl rfl rfl h1 h2 ?_
  simp [dec32, h3, s32St, s32M, s32P, s32U, beq_toNat, h4, h5, h6, h7, h8, ldstOf_code, lsrcOf_code, SSrc.ofCode_code, Fin.ofNat, Dec.ok_bind, Dec.pure_ok]

theorem isubS32 (st : Fin 4) (rd : LDst) (ra : LSrc) (rb : SSrc) : Statement (.isubS32 st rd ra rb) := by
  have := rb.code_lt
  obtain ⟨h1, h2, h3, h4, h5, h6, h7, h8⟩ := s32_fields (op := 1) (st := st) (m := false) (rd := rd) (ra := ra) (rb := rb.code) (by omega) (by omega)
  refine of32 (w := s32 1 st false rd ra rb.code) rfl rfl rfl h1 h2 ?_
  simp [dec32, h3, s32St, s32M, s32P, s32U, beq_toNat, h4, h5, h6, h7, h8, ldstOf_code, lsrcOf_code, SSrc.ofCode_code, Fin.ofNat, Dec.ok_bind, Dec.pure_ok]

theorem imulS32 (st : Fin 4) (rd : LDst) (ra : LSrc) (rb : SSrc) : Statement (.imulS32 st rd ra rb) := by
  have := rb.code_lt
  obtain ⟨h1, h2, h3, h4, h5, h6, h7, h8⟩ := s32_fields (op := 2) (st := st) (m := false) (rd := rd) (ra := ra) (rb := rb.code) (by omega) (by omega)
  refine of32 (w := s32 2 st false rd ra rb.code) rfl rfl rfl h1 h2 ?_
  simp [dec32, h3, s32St, s32M, s32P, s32U, beq_toNat, h4, h5, h6, h7, h8, ldstOf_code, lsrcOf_code, SSrc.ofCode_code, Fin.ofNat, Dec.ok_bind, Dec.pure_ok]

theorem imulhS32 (st : Fin 4) (rd : LDst) (ra : LSrc) (rb : SSrc) : Statement (.imulhS32 st rd ra rb) := by
  have := rb.code_lt
  obtain ⟨h1, h2, h3, h4, h5, h6, h7, h8⟩ := s32_fields (op := 3) (st := st) (m := false) (rd := rd) (ra := ra) (rb := rb.code) (by omega) (by omega)
  refine of32 (w := s32 3 st false rd ra rb.code) rfl rfl rfl h1 h2 ?_
  simp [dec32, h3, s32St, s32M, s32P, s32U, beq_toNat, h4, h5, h6, h7, h8, ldstOf_code, lsrcOf_code, SSrc.ofCode_code, Fin.ofNat, Dec.ok_bind, Dec.pure_ok]

theorem iminS32 (st : Fin 4) (rd : LDst) (ra : LSrc) (rb : SSrc) : Statement (.iminS32 st rd ra rb) := by
  have := rb.code_lt
  obtain ⟨h1, h2, h3, h4, h5, h6, h7, h8⟩ := s32_fields (op := 4) (st := st) (m := false) (rd := rd) (ra := ra) (rb := rb.code) (by omega) (by omega)
  refine of32 (w := s32 4 st false rd ra rb.code) rfl rfl rfl h1 h2 ?_
  simp [dec32, h3, s32St, s32M, s32P, s32U, beq_toNat, h4, h5, h6, h7, h8, ldstOf_code, lsrcOf_code, SSrc.ofCode_code, Fin.ofNat, Dec.ok_bind, Dec.pure_ok]

theorem imaxS32 (st : Fin 4) (rd : LDst) (ra : LSrc) (rb : SSrc) : Statement (.imaxS32 st rd ra rb) := by
  have := rb.code_lt
  obtain ⟨h1, h2, h3, h4, h5, h6, h7, h8⟩ := s32_fields (op := 5) (st := st) (m := false) (rd := rd) (ra := ra) (rb := rb.code) (by omega) (by omega)
  refine of32 (w := s32 5 st false rd ra rb.code) rfl rfl rfl h1 h2 ?_
  simp [dec32, h3, s32St, s32M, s32P, s32U, beq_toNat, h4, h5, h6, h7, h8, ldstOf_code, lsrcOf_code, SSrc.ofCode_code, Fin.ofNat, Dec.ok_bind, Dec.pure_ok]

theorem andS32 (st : Fin 4) (rd : LDst) (ra : LSrc) (rb : SSrc) : Statement (.andS32 st rd ra rb) := by
  have := rb.code_lt
  obtain ⟨h1, h2, h3, h4, h5, h6, h7, h8⟩ := s32_fields (op := 6) (st := st) (m := false) (rd := rd) (ra := ra) (rb := rb.code) (by omega) (by omega)
  refine of32 (w := s32 6 st false rd ra rb.code) rfl rfl rfl h1 h2 ?_
  simp [dec32, h3, s32St, s32M, s32P, s32U, beq_toNat, h4, h5, h6, h7, h8, ldstOf_code, lsrcOf_code, SSrc.ofCode_code, Fin.ofNat, Dec.ok_bind, Dec.pure_ok]

theorem orS32 (st : Fin 4) (rd : LDst) (ra : LSrc) (rb : SSrc) : Statement (.orS32 st rd ra rb) := by
  have := rb.code_lt
  obtain ⟨h1, h2, h3, h4, h5, h6, h7, h8⟩ := s32_fields (op := 7) (st := st) (m := false) (rd := rd) (ra := ra) (rb := rb.code) (by omega) (by omega)
  refine of32 (w := s32 7 st false rd ra rb.code) rfl rfl rfl h1 h2 ?_
  simp [dec32, h3, s32St, s32M, s32P, s32U, beq_toNat, h4, h5, h6, h7, h8, ldstOf_code, lsrcOf_code, SSrc.ofCode_code, Fin.ofNat, Dec.ok_bind, Dec.pure_ok]

theorem xorS32 (st : Fin 4) (rd : LDst) (ra : LSrc) (rb : SSrc) : Statement (.xorS32 st rd ra rb) := by
  have := rb.code_lt
  obtain ⟨h1, h2, h3, h4, h5, h6, h7, h8⟩ := s32_fields (op := 8) (st := st) (m := false) (rd := rd) (ra := ra) (rb := rb.code) (by omega) (by omega)
  refine of32 (w := s32 8 st false rd ra rb.code) rfl rfl rfl h1 h2 ?_
  simp [dec32, h3, s32St, s32M, s32P, s32U, beq_toNat, h4, h5, h6, h7, h8, ldstOf_code, lsrcOf_code, SSrc.ofCode_code, Fin.ofNat, Dec.ok_bind, Dec.pure_ok]

theorem andnS32 (st : Fin 4) (rd : LDst) (ra : LSrc) (rb : SSrc) : Statement (.andnS32 st rd ra rb) := by
  have := rb.code_lt
  obtain ⟨h1, h2, h3, h4, h5, h6, h7, h8⟩ := s32_fields (op := 9) (st := st) (m := false) (rd := rd) (ra := ra) (rb := rb.code) (by omega) (by omega)
  refine of32 (w := s32 9 st false rd ra rb.code) rfl rfl rfl h1 h2 ?_
  simp [dec32, h3, s32St, s32M, s32P, s32U, beq_toNat, h4, h5, h6, h7, h8, ldstOf_code, lsrcOf_code, SSrc.ofCode_code, Fin.ofNat, Dec.ok_bind, Dec.pure_ok]

theorem shlS32 (st : Fin 4) (rd : LDst) (ra : LSrc) (rb : SSrc) : Statement (.shlS32 st rd ra rb) := by
  have := rb.code_lt
  obtain ⟨h1, h2, h3, h4, h5, h6, h7, h8⟩ := s32_fields (op := 10) (st := st) (m := false) (rd := rd) (ra := ra) (rb := rb.code) (by omega) (by omega)
  refine of32 (w := s32 10 st false rd ra rb.code) rfl rfl rfl h1 h2 ?_
  simp [dec32, h3, s32St, s32M, s32P, s32U, beq_toNat, h4, h5, h6, h7, h8, ldstOf_code, lsrcOf_code, SSrc.ofCode_code, Fin.ofNat, Dec.ok_bind, Dec.pure_ok]

theorem shrS32 (st : Fin 4) (rd : LDst) (ra : LSrc) (rb : SSrc) : Statement (.shrS32 st rd ra rb) := by
  have := rb.code_lt
  obtain ⟨h1, h2, h3, h4, h5, h6, h7, h8⟩ := s32_fields (op := 11) (st := st) (m := false) (rd := rd) (ra := ra) (rb := rb.code) (by omega) (by omega)
  refine of32 (w := s32 11 st false rd ra rb.code) rfl rfl rfl h1 h2 ?_
  simp [dec32, h3, s32St, s32M, s32P, s32U, beq_toNat, h4, h5, h6, h7, h8, ldstOf_code, lsrcOf_code, SSrc.ofCode_code, Fin.ofNat, Dec.ok_bind, Dec.pure_ok]

theorem sarS32 (st : Fin 4) (rd : LDst) (ra : LSrc) (rb : SSrc) : Statement (.sarS32 st rd ra rb) := by
  have := rb.code_lt
  obtain ⟨h1, h2, h3, h4, h5, h6, h7, h8⟩ := s32_fields (op := 12) (st := st) (m := false) (rd := rd) (ra := ra) (rb := rb.code) (by omega) (by omega)
  refine of32 (w := s32 12 st false rd ra rb.code) rfl rfl rfl h1 h2 ?_
  simp [dec32, h3, s32St, s32M, s32P, s32U, beq_toNat, h4, h5, h6, h7, h8, ldstOf_code, lsrcOf_code, SSrc.ofCode_code, Fin.ofNat, Dec.ok_bind, Dec.pure_ok]

theorem rotlS32 (st : Fin 4) (rd : LDst) (ra : LSrc) (rb : SSrc) : Statement (.rotlS32 st rd ra rb) := by
  have := rb.code_lt
  obtain ⟨h1, h2, h3, h4, h5, h6, h7, h8⟩ := s32_fields (op := 13) (st := st) (m := false) (rd := rd) (ra := ra) (rb := rb.code) (by omega) (by omega)
  refine of32 (w := s32 13 st false rd ra rb.code) rfl rfl rfl h1 h2 ?_
  simp [dec32, h3, s32St, s32M, s32P, s32U, beq_toNat, h4, h5, h6, h7, h8, ldstOf_code, lsrcOf_code, SSrc.ofCode_code, Fin.ofNat, Dec.ok_bind, Dec.pure_ok]

theorem faddS32 (st : Fin 4) (m : Bool) (rd : LDst) (ra : LSrc) (rb : SSrc) : Statement (.faddS32 st m rd ra rb) := by
  have := rb.code_lt
  obtain ⟨h1, h2, h3, h4, h5, h6, h7, h8⟩ := s32_fields (op := 14) (st := st) (m := m) (rd := rd) (ra := ra) (rb := rb.code) (by omega) (by omega)
  refine of32 (w := s32 14 st m rd ra rb.code) rfl rfl rfl h1 h2 ?_
  simp [dec32, h3, s32St, s32M, s32P, s32U, beq_toNat, h4, h5, h6, h7, h8, ldstOf_code, lsrcOf_code, SSrc.ofCode_code, Fin.ofNat, Dec.ok_bind, Dec.pure_ok]

theorem fsubS32 (st : Fin 4) (m : Bool) (rd : LDst) (ra : LSrc) (rb : SSrc) : Statement (.fsubS32 st m rd ra rb) := by
  have := rb.code_lt
  obtain ⟨h1, h2, h3, h4, h5, h6, h7, h8⟩ := s32_fields (op := 15) (st := st) (m := m) (rd := rd) (ra := ra) (rb := rb.code) (by omega) (by omega)
  refine of32 (w := s32 15 st m rd ra rb.code) rfl rfl rfl h1 h2 ?_
  simp [dec32, h3, s32St, s32M, s32P, s32U, beq_toNat, h4, h5, h6, h7, h8, ldstOf_code, lsrcOf_code, SSrc.ofCode_code, Fin.ofNat, Dec.ok_bind, Dec.pure_ok]

theorem fmulS32 (st : Fin 4) (m : Bool) (rd : LDst) (ra : LSrc) (rb : SSrc) : Statement (.fmulS32 st m rd ra rb) := by
  have := rb.code_lt
  obtain ⟨h1, h2, h3, h4, h5, h6, h7, h8⟩ := s32_fields (op := 16) (st := st) (m := m) (rd := rd) (ra := ra) (rb := rb.code) (by omega) (by omega)
  refine of32 (w := s32 16 st m rd ra rb.code) rfl rfl rfl h1 h2 ?_
  simp [dec32, h3, s32St, s32M, s32P, s32U, beq_toNat, h4, h5, h6, h7, h8, ldstOf_code, lsrcOf_code, SSrc.ofCode_code, Fin.ofNat, Dec.ok_bind, Dec.pure_ok]

theorem fminS32 (st : Fin 4) (m : Bool) (rd : LDst) (ra : LSrc) (rb : SSrc) : Statement (.fminS32 st m rd ra rb) := by
  have := rb.code_lt
  obtain ⟨h1, h2, h3, h4, h5, h6, h7, h8⟩ := s32_fields (op := 17) (st := st) (m := m) (rd := rd) (ra := ra) (rb := rb.code) (by omega) (by omega)
  refine of32 (w := s32 17 st m rd ra rb.code) rfl rfl rfl h1 h2 ?_
  simp [dec32, h3, s32St, s32M, s32P, s32U, beq_toNat, h4, h5, h6, h7, h8, ldstOf_code, lsrcOf_code, SSrc.ofCode_code, Fin.ofNat, Dec.ok_bind, Dec.pure_ok]

theorem fmaxS32 (st : Fin 4) (m : Bool) (rd : LDst) (ra : LSrc) (rb : SSrc) : Statement (.fmaxS32 st m rd ra rb) := by
  have := rb.code_lt
  obtain ⟨h1, h2, h3, h4, h5, h6, h7, h8⟩ := s32_fields (op := 18) (st := st) (m := m) (rd := rd) (ra := ra) (rb := rb.code) (by omega) (by omega)
  refine of32 (w := s32 18 st m rd ra rb.code) rfl rfl rfl h1 h2 ?_
  simp [dec32, h3, s32St, s32M, s32P, s32U, beq_toNat, h4, h5, h6, h7, h8, ldstOf_code, lsrcOf_code, SSrc.ofCode_code, Fin.ofNat, Dec.ok_bind, Dec.pure_ok]

theorem fdivS32 (st : Fin 4) (m : Bool) (rd : LDst) (ra : LSrc) (rb : SSrc) : Statement (.fdivS32 st m rd ra rb) := by
  have := rb.code_lt
  obtain ⟨h1, h2, h3, h4, h5, h6, h7, h8⟩ := s32_fields (op := 19) (st := st) (m := m) (rd := rd) (ra := ra) (rb := rb.code) (by omega) (by omega)
  refine of32 (w := s32 19 st m rd ra rb.code) rfl rfl rfl h1 h2 ?_
  simp [dec32, h3, s32St, s32M, s32P, s32U, beq_toNat, h4, h5, h6, h7, h8, ldstOf_code, lsrcOf_code, SSrc.ofCode_code, Fin.ofNat, Dec.ok_bind, Dec.pure_ok]

theorem movS32 (st : Fin 4) (m : Bool) (rd : LDst) (ra : LSrc) : Statement (.movS32 st m rd ra) := by
  obtain ⟨h1, h2, h3, h4, h5, h6, h7, h8⟩ := s32_fields (op := 20) (st := st) (m := m) (rd := rd) (ra := ra) (rb := 0) (by omega) (by omega)
  refine of32 (w := s32 20 st m rd ra 0) rfl rfl rfl h1 h2 ?_
  simp [dec32, h3, s32St, s32M, s32P, s32U, beq_toNat, h4, h5, h6, h7, h8, ldstOf_code, lsrcOf_code, SSrc.ofCode_code, Fin.ofNat, Dec.ok_bind, Dec.pure_ok]

theorem popcS32 (st : Fin 4) (rd : LDst) (ra : LSrc) : Statement (.popcS32 st rd ra) := by
  obtain ⟨h1, h2, h3, h4, h5, h6, h7, h8⟩ := s32_fields (op := 21) (st := st) (m := false) (rd := rd) (ra := ra) (rb := 0) (by omega) (by omega)
  refine of32 (w := s32 21 st false rd ra 0) rfl rfl rfl h1 h2 ?_
  simp [dec32, h3, s32St, s32M, s32P, s32U, beq_toNat, h4, h5, h6, h7, h8, ldstOf_code, lsrcOf_code, SSrc.ofCode_code, Fin.ofNat, Dec.ok_bind, Dec.pure_ok]

theorem clzS32 (st : Fin 4) (rd : LDst) (ra : LSrc) : Statement (.clzS32 st rd ra) := by
  obtain ⟨h1, h2, h3, h4, h5, h6, h7, h8⟩ := s32_fields (op := 22) (st := st) (m := false) (rd := rd) (ra := ra) (rb := 0) (by omega) (by omega)
  refine of32 (w := s32 22 st false rd ra 0) rfl rfl rfl h1 h2 ?_
  simp [dec32, h3, s32St, s32M, s32P, s32U, beq_toNat, h4, h5, h6, h7, h8, ldstOf_code, lsrcOf_code, SSrc.ofCode_code, Fin.ofNat, Dec.ok_bind, Dec.pure_ok]

theorem freluS32 (st : Fin 4) (m : Bool) (rd : LDst) (ra : LSrc) : Statement (.freluS32 st m rd ra) := by
  obtain ⟨h1, h2, h3, h4, h5, h6, h7, h8⟩ := s32_fields (op := 23) (st := st) (m := m) (rd := rd) (ra := ra) (rb := 0) (by omega) (by omega)
  refine of32 (w := s32 23 st m rd ra 0) rfl rfl rfl h1 h2 ?_
  simp [dec32, h3, s32St, s32M, s32P, s32U, beq_toNat, h4, h5, h6, h7, h8, ldstOf_code, lsrcOf_code, SSrc.ofCode_code, Fin.ofNat, Dec.ok_bind, Dec.pure_ok]

theorem fsqreluS32 (st : Fin 4) (m : Bool) (rd : LDst) (ra : LSrc) : Statement (.fsqreluS32 st m rd ra) := by
  obtain ⟨h1, h2, h3, h4, h5, h6, h7, h8⟩ := s32_fields (op := 24) (st := st) (m := m) (rd := rd) (ra := ra) (rb := 0) (by omega) (by omega)
  refine of32 (w := s32 24 st m rd ra 0) rfl rfl rfl h1 h2 ?_
  simp [dec32, h3, s32St, s32M, s32P, s32U, beq_toNat, h4, h5, h6, h7, h8, ldstOf_code, lsrcOf_code, SSrc.ofCode_code, Fin.ofNat, Dec.ok_bind, Dec.pure_ok]

theorem frcpS32 (st : Fin 4) (m : Bool) (rd : LDst) (ra : LSrc) : Statement (.frcpS32 st m rd ra) := by
  obtain ⟨h1, h2, h3, h4, h5, h6, h7, h8⟩ := s32_fields (op := 25) (st := st) (m := m) (rd := rd) (ra := ra) (rb := 0) (by omega) (by omega)
  refine of32 (w := s32 25 st m rd ra 0) rfl rfl rfl h1 h2 ?_
  simp [dec32, h3, s32St, s32M, s32P, s32U, beq_toNat, h4, h5, h6, h7, h8, ldstOf_code, lsrcOf_code, SSrc.ofCode_code, Fin.ofNat, Dec.ok_bind, Dec.pure_ok]

theorem fsqrtS32 (st : Fin 4) (m : Bool) (rd : LDst) (ra : LSrc) : Statement (.fsqrtS32 st m rd ra) := by
  obtain ⟨h1, h2, h3, h4, h5, h6, h7, h8⟩ := s32_fields (op := 26) (st := st) (m := m) (rd := rd) (ra := ra) (rb := 0) (by omega) (by omega)
  refine of32 (w := s32 26 st m rd ra 0) rfl rfl rfl h1 h2 ?_
  simp [dec32, h3, s32St, s32M, s32P, s32U, beq_toNat, h4, h5, h6, h7, h8, ldstOf_code, lsrcOf_code, SSrc.ofCode_code, Fin.ofNat, Dec.ok_bind, Dec.pure_ok]

theorem frsqS32 (st : Fin 4) (m : Bool) (rd : LDst) (ra : LSrc) : Statement (.frsqS32 st m rd ra) := by
  obtain ⟨h1, h2, h3, h4, h5, h6, h7, h8⟩ := s32_fields (op := 27) (st := st) (m := m) (rd := rd) (ra := ra) (rb := 0) (by omega) (by omega)
  refine of32 (w := s32 27 st m rd ra 0) rfl rfl rfl h1 h2 ?_
  simp [dec32, h3, s32St, s32M, s32P, s32U, beq_toNat, h4, h5, h6, h7, h8, ldstOf_code, lsrcOf_code, SSrc.ofCode_code, Fin.ofNat, Dec.ok_bind, Dec.pure_ok]

theorem fexp2S32 (st : Fin 4) (m : Bool) (rd : LDst) (ra : LSrc) : Statement (.fexp2S32 st m rd ra) := by
  obtain ⟨h1, h2, h3, h4, h5, h6, h7, h8⟩ := s32_fields (op := 28) (st := st) (m := m) (rd := rd) (ra := ra) (rb := 0) (by omega) (by omega)
  refine of32 (w := s32 28 st m rd ra 0) rfl rfl rfl h1 h2 ?_
  simp [dec32, h3, s32St, s32M, s32P, s32U, beq_toNat, h4, h5, h6, h7, h8, ldstOf_code, lsrcOf_code, SSrc.ofCode_code, Fin.ofNat, Dec.ok_bind, Dec.pure_ok]

theorem flog2S32 (st : Fin 4) (m : Bool) (rd : LDst) (ra : LSrc) : Statement (.flog2S32 st m rd ra) := by
  obtain ⟨h1, h2, h3, h4, h5, h6, h7, h8⟩ := s32_fields (op := 29) (st := st) (m := m) (rd := rd) (ra := ra) (rb := 0) (by omega) (by omega)
  refine of32 (w := s32 29 st m rd ra 0) rfl rfl rfl h1 h2 ?_
  simp [dec32, h3, s32St, s32M, s32P, s32U, beq_toNat, h4, h5, h6, h7, h8, ldstOf_code, lsrcOf_code, SSrc.ofCode_code, Fin.ofNat, Dec.ok_bind, Dec.pure_ok]

theorem ftanhS32 (st : Fin 4) (m : Bool) (rd : LDst) (ra : LSrc) : Statement (.ftanhS32 st m rd ra) := by
  obtain ⟨h1, h2, h3, h4, h5, h6, h7, h8⟩ := s32_fields (op := 30) (st := st) (m := m) (rd := rd) (ra := ra) (rb := 0) (by omega) (by omega)
  refine of32 (w := s32 30 st m rd ra 0) rfl rfl rfl h1 h2 ?_
  simp [dec32, h3, s32St, s32M, s32P, s32U, beq_toNat, h4, h5, h6, h7, h8, ldstOf_code, lsrcOf_code, SSrc.ofCode_code, Fin.ofNat, Dec.ok_bind, Dec.pure_ok]

theorem fsigmS32 (st : Fin 4) (m : Bool) (rd : LDst) (ra : LSrc) : Statement (.fsigmS32 st m rd ra) := by
  obtain ⟨h1, h2, h3, h4, h5, h6, h7, h8⟩ := s32_fields (op := 31) (st := st) (m := m) (rd := rd) (ra := ra) (rb := 0) (by omega) (by omega)
  refine of32 (w := s32 31 st m rd ra 0) rfl rfl rfl h1 h2 ?_
  simp [dec32, h3, s32St, s32M, s32P, s32U, beq_toNat, h4, h5, h6, h7, h8, ldstOf_code, lsrcOf_code, SSrc.ofCode_code, Fin.ofNat, Dec.ok_bind, Dec.pure_ok]

theorem tailWrite (p : Port) (d : Die) (q : Fin 4096) (v : BitVec 64) : Statement (.tailWrite p d q v) := ofNone rfl rfl rfl
theorem queueTableWrite (p : Port) (q : Fin 4096) (w : Fin 4) (v : BitVec 64) : Statement (.queueTableWrite p q w v) := ofNone rfl rfl rfl
theorem queueSwitchIn (q : Fin 4096) : Statement (.queueSwitchIn q) := ofNone rfl rfl rfl
theorem queueSwitchOut (q : Fin 4096) : Statement (.queueSwitchOut q) := ofNone rfl rfl rfl
theorem commandAccept (q : Fin 4096) : Statement (.commandAccept q) := ofNone rfl rfl rfl
theorem launchEntryAccept (c : Ctx) (d : Die) : Statement (.launchEntryAccept c d) := ofNone rfl rfl rfl
theorem launchQueueSpace (t : Nat) (g : Nat) : Statement (.launchQueueSpace t g) := ofNone rfl rfl rfl
theorem descriptorCheck (g : Nat) : Statement (.descriptorCheck g) := ofNone rfl rfl rfl
theorem predecessorDecrement (n : Nat) : Statement (.predecessorDecrement n) := ofNone rfl rfl rfl
theorem teamHandOut (g : Nat) : Statement (.teamHandOut g) := ofNone rfl rfl rfl
theorem teamEnd (t : Nat) : Statement (.teamEnd t) := ofNone rfl rfl rfl
theorem gridCompletion (g : Nat) : Statement (.gridCompletion g) := ofNone rfl rfl rfl
theorem completionRecord (g : Nat) : Statement (.completionRecord g) := ofNone rfl rfl rfl
theorem eventRingTimeout (d : Die) (k : Fin 16) : Statement (.eventRingTimeout d k) := ofNone rfl rfl rfl
theorem preempt (p : Port) (c : Ctx) : Statement (.preempt p c) := ofNone rfl rfl rfl
theorem resume (p : Port) (c : Ctx) : Statement (.resume p c) := ofNone rfl rfl rfl
theorem contextReset (p : Port) (c : Ctx) : Statement (.contextReset p c) := ofNone rfl rfl rfl
theorem contextDestroy (p : Port) (c : Ctx) : Statement (.contextDestroy p c) := ofNone rfl rfl rfl
theorem contextPurgeComplete (c : Ctx) : Statement (.contextPurgeComplete c) := ofNone rfl rfl rfl
theorem contextEnable (p : Port) (c : Ctx) : Statement (.contextEnable p c) := ofNone rfl rfl rfl
theorem deadlineExpiry (c : Ctx) : Statement (.deadlineExpiry c) := ofNone rfl rfl rfl
theorem drainEnd (c : Ctx) : Statement (.drainEnd c) := ofNone rfl rfl rfl
theorem purgeGo (p : Port) (w : Option Ctx) : Statement (.purgeGo p w) := ofNone rfl rfl rfl
theorem purgeComplete (w : Option Ctx) : Statement (.purgeComplete w) := ofNone rfl rfl rfl
theorem freplyRetry (p : Port) (c : Ctx) (seq : BitVec 62) : Statement (.freplyRetry p c seq) := ofNone rfl rfl rfl
theorem freplyDecline (p : Port) (c : Ctx) (seq : BitVec 62) : Statement (.freplyDecline p c seq) := ofNone rfl rfl rfl
theorem faultRecordWrite (c : Ctx) : Statement (.faultRecordWrite c) := ofNone rfl rfl rfl
theorem pageWalk (n : Nat) : Statement (.pageWalk n) := ofNone rfl rfl rfl
theorem authorityMove (p : Port) (dst : Port) : Statement (.authorityMove p dst) := ofNone rfl rfl rfl
theorem deviceReset (p : Port) : Statement (.deviceReset p) := ofNone rfl rfl rfl
theorem perst (p : Port) : Statement (.perst p) := ofNone rfl rfl rfl
theorem portReset (p : Port) : Statement (.portReset p) := ofNone rfl rfl rfl
theorem pcieLinkDown (p : Port) : Statement (.pcieLinkDown p) := ofNone rfl rfl rfl
theorem contextApertureAccess (p : Port) (off : BitVec 34) (a : HostAcc) : Statement (.contextApertureAccess p off a) := ofNone rfl rfl rfl
theorem physicalApertureAccess (p : Port) (off : BitVec 32) (a : HostAcc) : Statement (.physicalApertureAccess p off a) := ofNone rfl rfl rfl
theorem registerWrite (p : Port) (off : BitVec 27) (wide : Bool) (v : BitVec 64) : Statement (.registerWrite p off wide v) := ofNone rfl rfl rfl
theorem firmwareGo (p : Port) : Statement (.firmwareGo p) := ofNone rfl rfl rfl
theorem firmwareVerifyDone : Statement (.firmwareVerifyDone) := ofNone rfl rfl rfl
theorem identityDerivation : Statement (.identityDerivation) := ofNone rfl rfl rfl
theorem getVersion (p : Port) : Statement (.getVersion p) := ofNone rfl rfl rfl
theorem getCapabilities (p : Port) : Statement (.getCapabilities p) := ofNone rfl rfl rfl
theorem negotiateAlgorithms (p : Port) : Statement (.negotiateAlgorithms p) := ofNone rfl rfl rfl
theorem getDigests (p : Port) : Statement (.getDigests p) := ofNone rfl rfl rfl
theorem getCertificate (p : Port) (slot : Fin 16) (off : BitVec 16) (len : BitVec 16) : Statement (.getCertificate p slot off len) := ofNone rfl rfl rfl
theorem challenge (p : Port) (slot : Fin 16) (nonce : BitVec 256) : Statement (.challenge p slot nonce) := ofNone rfl rfl rfl
theorem getMeasurements (p : Port) (idx : BitVec 8) (sign : Bool) (nonce : BitVec 256) : Statement (.getMeasurements p idx sign nonce) := ofNone rfl rfl rfl
theorem cool (p : Port) : Statement (.cool p) := ofNone rfl rfl rfl
theorem warm (p : Port) : Statement (.warm p) := ofNone rfl rfl rfl
theorem sensorSample (temps : List (Nat × BitVec 12)) : Statement (.sensorSample temps) := ofNone rfl rfl rfl
theorem bandHoldExpiry : Statement (.bandHoldExpiry) := ofNone rfl rfl rfl
theorem coldHoldExpiry : Statement (.coldHoldExpiry) := ofNone rfl rfl rfl
theorem runIdleExpiry : Statement (.runIdleExpiry) := ofNone rfl rfl rfl
theorem warmingHoldExpiry : Statement (.warmingHoldExpiry) := ofNone rfl rfl rfl
theorem sweepComplete (k : Fin 8) : Statement (.sweepComplete k) := ofNone rfl rfl rfl
theorem haltDrainExpiry : Statement (.haltDrainExpiry) := ofNone rfl rfl rfl
theorem powerOn : Statement (.powerOn) := ofNone rfl rfl rfl
theorem tripResetRelease : Statement (.tripResetRelease) := ofNone rfl rfl rfl
theorem scrubRead (k : Fin 8) (e : List LineErr) : Statement (.scrubRead k e) := ofNone rfl rfl rfl
theorem dramHashChange (k : Fin 8) : Statement (.dramHashChange k) := ofNone rfl rfl rfl
theorem migrationRowMove (k : Fin 8) (lines : Nat) (e : List LineErr) : Statement (.migrationRowMove k lines e) := ofNone rfl rfl rfl
theorem droopEvent (core : Fin 160) : Statement (.droopEvent core) := ofNone rfl rfl rfl
theorem droopMarkExpiry (core : Fin 160) : Statement (.droopMarkExpiry core) := ofNone rfl rfl rfl
theorem storeDrain (t : Nat) (g : Nat) : Statement (.storeDrain t g) := ofNone rfl rfl rfl
theorem loadComplete (t : Nat) (g : Nat) (id : Nat) : Statement (.loadComplete t g id) := ofNone rfl rfl rfl
theorem dramAccess (k : Fin 8) (a : DramReq) : Statement (.dramAccess k a) := ofNone rfl rfl rfl
theorem getS (m : Nat) : Statement (.getS m) := ofNone rfl rfl rfl
theorem getM (m : Nat) : Statement (.getM m) := ofNone rfl rfl rfl
theorem upgrade (m : Nat) : Statement (.upgrade m) := ofNone rfl rfl rfl
theorem putM (m : Nat) : Statement (.putM m) := ofNone rfl rfl rfl
theorem putS (m : Nat) : Statement (.putS m) := ofNone rfl rfl rfl
theorem forwardedWrite (m : Nat) : Statement (.forwardedWrite m) := ofNone rfl rfl rfl
theorem inv (m : Nat) : Statement (.inv m) := ofNone rfl rfl rfl
theorem ack (m : Nat) : Statement (.ack m) := ofNone rfl rfl rfl
theorem fwd (m : Nat) : Statement (.fwd m) := ofNone rfl rfl rfl
theorem data (m : Nat) : Statement (.data m) := ofNone rfl rfl rfl
theorem enlargerEpoch (d : Die) : Statement (.enlargerEpoch d) := ofNone rfl rfl rfl
theorem atomPerform (t : Nat) (g : Nat) (id : Nat) : Statement (.atomPerform t g id) := ofNone rfl rfl rfl
theorem atomicopCompletion (t : Nat) (g : Nat) (id : Nat) (ur : Bool) : Statement (.atomicopCompletion t g id ur) := ofNone rfl rfl rfl
theorem fenceComplete (t : Nat) (g : Nat) : Statement (.fenceComplete t g) := ofNone rfl rfl rfl
theorem txOpen (t : Nat) (g : Nat) : Statement (.txOpen t g) := ofNone rfl rfl rfl
theorem txConflictAbort (t : Nat) (g : Nat) (lane : Nat) : Statement (.txConflictAbort t g lane) := ofNone rfl rfl rfl
theorem developPerform (t : Nat) : Statement (.developPerform t) := ofNone rfl rfl rfl
theorem copyChunk (t : Nat) (id : Nat) (lane : Nat) : Statement (.copyChunk t id lane) := ofNone rfl rfl rfl
theorem bulkChunk (core : Fin 160) (id : Nat) (chunk : Nat) : Statement (.bulkChunk core id chunk) := ofNone rfl rfl rfl
theorem bulkQueueAccept (t : Nat) (g : Nat) : Statement (.bulkQueueAccept t g) := ofNone rfl rfl rfl
theorem barrierArrivalApply (t : Nat) (g : Nat) : Statement (.barrierArrivalApply t g) := ofNone rfl rfl rfl
theorem remoteWriteArrival (pkt : Packet) : Statement (.remoteWriteArrival pkt) := ofNone rfl rfl rfl
theorem remoteWriteAck (id : Nat) (chunk : Nat) : Statement (.remoteWriteAck id chunk) := ofNone rfl rfl rfl
theorem remoteReadArrival (pkt : Packet) : Statement (.remoteReadArrival pkt) := ofNone rfl rfl rfl
theorem remoteReadResponse (id : Nat) (chunk : Nat) (bytes : BitVec 128) (poison : Bool) : Statement (.remoteReadResponse id chunk bytes poison) := ofNone rfl rfl rfl
theorem remoteRetry (id : Nat) (chunk : Nat) : Statement (.remoteRetry id chunk) := ofNone rfl rfl rfl
theorem transportGiveUp (id : Nat) : Statement (.transportGiveUp id) := ofNone rfl rfl rfl
theorem tileQueueAccept (t : Nat) (g : Nat) : Statement (.tileQueueAccept t g) := ofNone rfl rfl rfl
theorem tloopStep (core : Fin 160) (id : Nat) : Statement (.tloopStep core id) := ofNone rfl rfl rfl
theorem thadRow (core : Fin 160) (id : Nat) : Statement (.thadRow core id) := ofNone rfl rfl rfl
theorem tqntRow (core : Fin 160) (id : Nat) : Statement (.tqntRow core id) := ofNone rfl rfl rfl
theorem waitlPassEnd (t : Nat) (g : Nat) (lane : Nat) : Statement (.waitlPassEnd t g lane) := ofNone rfl rfl rfl
theorem yieldHoldEnd (t : Nat) (g : Nat) : Statement (.yieldHoldEnd t g) := ofNone rfl rfl rfl
theorem budgetExpiry (t : Nat) : Statement (.budgetExpiry t) := ofNone rfl rfl rfl
theorem trapDelivery (t : Nat) : Statement (.trapDelivery t) := ofNone rfl rfl rfl
theorem trapRecordWrite (t : Nat) : Statement (.trapRecordWrite t) := ofNone rfl rfl rfl
theorem flitReplay (l : Link) (ok : Bool) : Statement (.flitReplay l ok) := ofNone rfl rfl rfl
theorem linkDown (l : Link) : Statement (.linkDown l) := ofNone rfl rfl rfl
theorem sramUncorrectable (site : SramSite) : Statement (.sramUncorrectable site) := ofNone rfl rfl rfl
theorem fabricRefusal (id : Nat) (chunk : Nat) (fatal : Bool) (counter : Bool) : Statement (.fabricRefusal id chunk fatal counter) := ofNone rfl rfl rfl
theorem faultWaitPauseEnd (c : Ctx) : Statement (.faultWaitPauseEnd c) := ofNone rfl rfl rfl
theorem pcieLinkUp (p : Port) : Statement (.pcieLinkUp p) := ofNone rfl rfl rfl
theorem ethernetLinkDown (n : Fin 8) : Statement (.ethernetLinkDown n) := ofNone rfl rfl rfl
theorem corePowerRemoval : Statement (.corePowerRemoval) := ofNone rfl rfl rfl

theorem ill (rest : BitVec 53) : Statement (.ill rest) := by
  have := rest.isLt
  refine of64 (r := { op := 0x03F, shape := rest.toNat % 4, stall := rest.toNat / 4 % 8, gp := rest.toNat / 32 % 8, gn := rest.toNat / 256 % 2, rd := rest.toNat / 512 % 256, hi := rest.toNat / 131072 }) rfl rfl rfl ?_ ?_
  · refine ⟨?_, ?_, ?_, ?_, ?_, ?_, ?_⟩ <;> simp only <;> omega
  · have e : rest.toNat % 4 + 4 * (rest.toNat / 4 % 8) + 32 * (rest.toNat / 32 % 8) + 256 * (rest.toNat / 256 % 2) + 512 * (rest.toNat / 512 % 256) + 131072 * (rest.toNat / 131072) = rest.toNat := by omega
    simp [dec64, decCtl, Raw.rest, e, Dec.pure_ok]

theorem cvt (h : Hd) (sh : Shape) (rd : LDst) (ra : Src) (dst : Fmt) (src : Fmt) (rm : Rm) : Statement (.cvt h sh rd ra dst src rm) := by
  have := sh.code_lt; have := rd.code_lt; have := ra.code_lt; have := ra.sel_lt; have := dst.code_lt; have := src.code_lt; have := rm.code_lt
  refine of64 (r := g64 0x100 sh.code h rd.code ra.code ra.sel dst.code 0 src.code 0 rm.code) rfl rfl rfl (by apply g64_fits <;> omega) ?_
  have f0 : (g64 0x100 sh.code h rd.code ra.code ra.sel dst.code 0 src.code 0 rm.code).rsv 3 6 = .ok () := Raw.rsv_of (by rw [g64_m] <;> omega)
  have f1 : (g64 0x100 sh.code h rd.code ra.code ra.sel dst.code 0 src.code 0 rm.code).fld 0 3 Rm.ofCode = .ok rm := Raw.fld_of (c := rm.code) (by rw [g64_m] <;> omega) (Rm.ofCode_code rm)
  have f2 : (g64 0x100 sh.code h rd.code ra.code ra.sel dst.code 0 src.code 0 rm.code).nosel 25 = .ok () := if_pos (by simp only [g64]; omega)
  have f3 : (g64 0x100 sh.code h rd.code ra.code ra.sel dst.code 0 src.code 0 rm.code).nosel 26 = .ok () := if_pos (by simp only [g64]; omega)
  have f4 : (g64 0x100 sh.code h rd.code ra.code ra.sel dst.code 0 src.code 0 rm.code).code 8 Fmt.ofCode = .ok dst := by
    rw [Raw.code, show (g64 0x100 sh.code h rd.code ra.code ra.sel dst.code 0 src.code 0 rm.code).hi / 2 ^ 8 % 256 = dst.code by simp only [g64]; omega, Fmt.ofCode_code]
  have f5 : (g64 0x100 sh.code h rd.code ra.code ra.sel dst.code 0 src.code 0 rm.code).code 16 Fmt.ofCode = .ok src := by
    rw [Raw.code, show (g64 0x100 sh.code h rd.code ra.code ra.sel dst.code 0 src.code 0 rm.code).hi / 2 ^ 16 % 256 = src.code by simp only [g64]; omega, Fmt.ofCode_code]
  simp (disch := omega) [dec64, decFun, show (g64 0x100 sh.code h rd.code ra.code ra.sel dst.code 0 src.code 0 rm.code).op = 0x100 from rfl, g64_hd, g64_shp, g64_ldst, g64_srcA, f0, f1, f2, f3, f4, f5, Dec.ok_bind, Dec.pure_ok]

theorem gseed (h : Hd) (ra : Src) (sl : Fin 4) (form : SeedForm) : Statement (.gseed h ra sl form) := by
  have := ra.code_lt; have := ra.sel_lt; have := form.code_lt; have := form.rb_lt
  refine of64 (r := g64 0x1A0 0 h 0 ra.code ra.sel form.rb.1 form.rb.2 0 0 (sl.val + 4 * form.code)) rfl rfl rfl (by apply g64_fits <;> omega) ?_
  have f0 : (g64 0x1A0 0 h 0 ra.code ra.sel form.rb.1 form.rb.2 0 0 (sl.val + 4 * form.code)).fld 0 2 (finOf 4) = .ok sl := Raw.fld_of (c := sl.val) (by rw [g64_m] <;> omega) (finOf_val sl)
  have f1 : (g64 0x1A0 0 h 0 ra.code ra.sel form.rb.1 form.rb.2 0 0 (sl.val + 4 * form.code)).rsv 4 5 = .ok () := Raw.rsv_of (by rw [g64_m] <;> omega)
  have f2 : (g64 0x1A0 0 h 0 ra.code ra.sel form.rb.1 form.rb.2 0 0 (sl.val + 4 * form.code)).m 2 2 = form.code := by rw [g64_m] <;> omega
  have f3 : (g64 0x1A0 0 h 0 ra.code ra.sel form.rb.1 form.rb.2 0 0 (sl.val + 4 * form.code)).seedForm = .ok form := by
    rw [Raw.seedForm, f2]
    rcases form with ⟨b, r⟩ | _
    · have := r.code_lt; have := r.sel_lt
      cases b <;> simp (disch := omega) only [SeedForm.code, SeedForm.rb, Bool.toNat_false, Bool.toNat_true, g64_srcB, Dec.ok_bind, Dec.pure_ok]
    · simp (disch := omega) only [SeedForm.code, SeedForm.rb, g64_noB, Dec.ok_bind, Dec.pure_ok]
  simp (disch := omega) [dec64, decGrn, show (g64 0x1A0 0 h 0 ra.code ra.sel form.rb.1 form.rb.2 0 0 (sl.val + 4 * form.code)).op = 0x1A0 from rfl, show (g64 0x1A0 0 h 0 ra.code ra.sel form.rb.1 form.rb.2 0 0 (sl.val + 4 * form.code)).shapeIs .P = .ok () from rfl, g64_hd, g64_noD, g64_srcA, g64_noC, f0, f1, f3, Dec.ok_bind, Dec.pure_ok]

theorem atom (h : Hd) (op : AtomOp) (rd : Option LDst) (ra : Base) (rb : Src) : Statement (.atom h op rd ra rb) := by
  have := ra.code_lt; have := ra.sel_lt; have := rb.code_lt; have := rb.sel_lt; have := op.code_lt; have := op.rc_lt
  have := atomRdCode_lt rd; have := Bool.toNat_lt rd.isNone
  refine of64 (r := g64 0x1C4 0 h (atomRdCode rd) ra.code ra.sel rb.code rb.sel op.rc.1 op.rc.2 (op.code + 32 * rd.isNone.toNat)) rfl rfl rfl (by apply g64_fits <;> omega) ?_
  have f0 : (g64 0x1C4 0 h (atomRdCode rd) ra.code ra.sel rb.code rb.sel op.rc.1 op.rc.2 (op.code + 32 * rd.isNone.toNat)).fld 5 1 boolOf = .ok rd.isNone := Raw.fld_of (c := rd.isNone.toNat) (by rw [g64_m] <;> omega) (boolOf_toNat rd.isNone)
  have f1 : (g64 0x1C4 0 h (atomRdCode rd) ra.code ra.sel rb.code rb.sel op.rc.1 op.rc.2 (op.code + 32 * rd.isNone.toNat)).rsv 6 3 = .ok () := Raw.rsv_of (by rw [g64_m] <;> omega)
  have f2 : (g64 0x1C4 0 h (atomRdCode rd) ra.code ra.sel rb.code rb.sel op.rc.1 op.rc.2 (op.code + 32 * rd.isNone.toNat)).m 0 5 = op.code := by rw [g64_m] <;> omega
  have f3 : (g64 0x1C4 0 h (atomRdCode rd) ra.code ra.sel rb.code rb.sel op.rc.1 op.rc.2 (op.code + 32 * rd.isNone.toNat)).atomOp = .ok op := by
    rw [Raw.atomOp, f2]
    rcases op with _ | _ | u | u | _ | _ | _ | _ | y | _ | _ | y
    case min => cases u <;> simp (disch := omega) [AtomOp.code, AtomOp.rc, g64_noC, Dec.ok_bind, Dec.pure_ok]
    case max => cases u <;> simp (disch := omega) [AtomOp.code, AtomOp.rc, g64_noC, Dec.ok_bind, Dec.pure_ok]
    case cas => have := y.code_lt; have := y.sel_lt; simp (disch := omega) [AtomOp.code, AtomOp.rc, g64_srcC, Dec.ok_bind, Dec.pure_ok]
    case addb => have := y.code_lt; have := y.sel_lt; simp (disch := omega) [AtomOp.code, AtomOp.rc, g64_srcC, Dec.ok_bind, Dec.pure_ok]
    all_goals simp (disch := omega) [AtomOp.code, AtomOp.rc, g64_noC, Dec.ok_bind, Dec.pure_ok]
  have f4 : (g64 0x1C4 0 h (atomRdCode rd) ra.code ra.sel rb.code rb.sel op.rc.1 op.rc.2 (op.code + 32 * rd.isNone.toNat)).atomRd rd.isNone = .ok rd := by
    rcases rd with _ | d
    · rfl
    · simp [Raw.atomRd, atomRdCode, g64_ldst, Dec.ok_bind, Dec.pure_ok]
  simp (disch := omega) [dec64, decMem, show (g64 0x1C4 0 h (atomRdCode rd) ra.code ra.sel rb.code rb.sel op.rc.1 op.rc.2 (op.code + 32 * rd.isNone.toNat)).op = 0x1C4 from rfl, show (g64 0x1C4 0 h (atomRdCode rd) ra.code ra.sel rb.code rb.sel op.rc.1 op.rc.2 (op.code + 32 * rd.isNone.toNat)).shapeIs .P = .ok () from rfl, g64_hd, g64_baseA, g64_srcB, f0, f1, f3, f4, Dec.ok_bind, Dec.pure_ok]

/-- The six operations of CCTL. -/
theorem cctl (h : Hd) (ra : Base) (rb : Src) (n : Nat) (hn : n < 6) :
    (g64 0x1C6 0 h 0 ra.code ra.sel rb.code rb.sel 0 0 n).fits ∧
    dec64 (g64 0x1C6 0 h 0 ra.code ra.sel rb.code rb.sel 0 0 n) = cctlOf n h ra rb := by
  have := ra.code_lt; have := ra.sel_lt; have := rb.code_lt; have := rb.sel_lt
  refine ⟨by apply g64_fits <;> omega, ?_⟩
  have f0 : (g64 0x1C6 0 h 0 ra.code ra.sel rb.code rb.sel 0 0 n).rsv 3 6 = .ok () := Raw.rsv_of (by rw [g64_m] <;> omega)
  have f1 : (g64 0x1C6 0 h 0 ra.code ra.sel rb.code rb.sel 0 0 n).m 0 3 = n := by rw [g64_m] <;> omega
  simp (disch := omega) [dec64, decMem, show (g64 0x1C6 0 h 0 ra.code ra.sel rb.code rb.sel 0 0 n).op = 0x1C6 from rfl, show (g64 0x1C6 0 h 0 ra.code ra.sel rb.code rb.sel 0 0 n).shapeIs .P = .ok () from rfl, g64_hd, g64_noD, g64_baseA, g64_srcB, g64_noC, f0, f1, Dec.ok_bind, Dec.pure_ok]
theorem cctlWb (h : Hd) (ra : Base) (rb : Src) : Statement (.cctlWb h ra rb) :=
  of64 rfl rfl rfl (cctl h ra rb 0 (by omega)).1 (cctl h ra rb 0 (by omega)).2
theorem cctlInv (h : Hd) (ra : Base) (rb : Src) : Statement (.cctlInv h ra rb) :=
  of64 rfl rfl rfl (cctl h ra rb 1 (by omega)).1 (cctl h ra rb 1 (by omega)).2
theorem cctlDrain (h : Hd) (ra : Base) (rb : Src) : Statement (.cctlDrain h ra rb) :=
  of64 rfl rfl rfl (cctl h ra rb 2 (by omega)).1 (cctl h ra rb 2 (by omega)).2
theorem cctlRepl (h : Hd) (ra : Base) (rb : Src) : Statement (.cctlRepl h ra rb) :=
  of64 rfl rfl rfl (cctl h ra rb 3 (by omega)).1 (cctl h ra rb 3 (by omega)).2
theorem cctlPf1 (h : Hd) (ra : Base) (rb : Src) : Statement (.cctlPf1 h ra rb) :=
  of64 rfl rfl rfl (cctl h ra rb 4 (by omega)).1 (cctl h ra rb 4 (by omega)).2
theorem cctlPf2 (h : Hd) (ra : Base) (rb : Src) : Statement (.cctlPf2 h ra rb) :=
  of64 rfl rfl rfl (cctl h ra rb 5 (by omega)).1 (cctl h ra rb 5 (by omega)).2

theorem taccRd (h : Hd) (rd : LDst) (ra : Src) (k : Fin 4) (f : AccForm) : Statement (.taccRd h rd ra k f) := by
  have := rd.code_lt; have := ra.code_lt; have := ra.sel_lt; have := f.shape_lt; have := f.var_lt
  refine of64 (r := g64 0x1F2 f.shape h rd.code ra.code ra.sel 0 0 0 0 (k.val + 16 * f.var)) rfl rfl rfl (by apply g64_fits <;> omega) ?_
  have f0 : (g64 0x1F2 f.shape h rd.code ra.code ra.sel 0 0 0 0 (k.val + 16 * f.var)).fld 0 2 (finOf 4) = .ok k := Raw.fld_of (c := k.val) (by rw [g64_m] <;> omega) (finOf_val k)
  have f1 : (g64 0x1F2 f.shape h rd.code ra.code ra.sel 0 0 0 0 (k.val + 16 * f.var)).rsv 5 4 = .ok () := Raw.rsv_of (by rw [g64_m] <;> omega)
  have f2 : (g64 0x1F2 f.shape h rd.code ra.code ra.sel 0 0 0 0 (k.val + 16 * f.var)).m 2 2 = 0 := by rw [g64_m] <;> omega
  have f3 : (g64 0x1F2 f.shape h rd.code ra.code ra.sel 0 0 0 0 (k.val + 16 * f.var)).m 4 1 = f.var := by rw [g64_m] <;> omega
  have f4 : (g64 0x1F2 f.shape h rd.code ra.code ra.sel 0 0 0 0 (k.val + 16 * f.var)).tacc h k = .ok (.taccRd h rd ra k f) := by
    rw [Raw.tacc, f2, f3, show (g64 0x1F2 f.shape h rd.code ra.code ra.sel 0 0 0 0 (k.val + 16 * f.var)).shape = f.shape from rfl]
    cases f <;> simp (disch := omega) [AccForm.shape, AccForm.var, g64_ldst, g64_srcA, Dec.ok_bind, Dec.pure_ok]
  simp (disch := omega) [dec64, decEng, show (g64 0x1F2 f.shape h rd.code ra.code ra.sel 0 0 0 0 (k.val + 16 * f.var)).op = 0x1F2 from rfl, g64_hd, g64_noB, g64_noC, f0, f1, f4, Dec.ok_bind, Dec.pure_ok]

theorem taccWr (h : Hd) (sh : Shape) (rd : LDst) (ra : Src) (k : Fin 4) : Statement (.taccWr h sh rd ra k) := by
  have := sh.code_lt; have := rd.code_lt; have := ra.code_lt; have := ra.sel_lt
  refine of64 (r := g64 0x1F2 sh.code h rd.code ra.code ra.sel 0 0 0 0 (k.val + 4 * 1)) rfl rfl rfl (by apply g64_fits <;> omega) ?_
  have f0 : (g64 0x1F2 sh.code h rd.code ra.code ra.sel 0 0 0 0 (k.val + 4 * 1)).fld 0 2 (finOf 4) = .ok k := Raw.fld_of (c := k.val) (by rw [g64_m] <;> omega) (finOf_val k)
  have f1 : (g64 0x1F2 sh.code h rd.code ra.code ra.sel 0 0 0 0 (k.val + 4 * 1)).rsv 5 4 = .ok () := Raw.rsv_of (by rw [g64_m] <;> omega)
  have f2 : (g64 0x1F2 sh.code h rd.code ra.code ra.sel 0 0 0 0 (k.val + 4 * 1)).m 2 2 = 1 := by rw [g64_m] <;> omega
  have f3 : (g64 0x1F2 sh.code h rd.code ra.code ra.sel 0 0 0 0 (k.val + 4 * 1)).rsv 4 1 = .ok () := Raw.rsv_of (by rw [g64_m] <;> omega)
  simp (disch := omega) [dec64, decEng, Raw.tacc, f2, show (g64 0x1F2 sh.code h rd.code ra.code ra.sel 0 0 0 0 (k.val + 4 * 1)).op = 0x1F2 from rfl, g64_hd, g64_noB, g64_noC, g64_shp, g64_ldst, g64_srcA, f0, f1, f3, Dec.ok_bind, Dec.pure_ok]

theorem taccZero (h : Hd) (k : Fin 4) : Statement (.taccZero h k) := by
  refine of64 (r := g64 0x1F2 0 h 0 0 0 0 0 0 0 (k.val + 4 * 2)) rfl rfl rfl (by apply g64_fits <;> omega) ?_
  have f0 : (g64 0x1F2 0 h 0 0 0 0 0 0 0 (k.val + 4 * 2)).fld 0 2 (finOf 4) = .ok k := Raw.fld_of (c := k.val) (by rw [g64_m] <;> omega) (finOf_val k)
  have f1 : (g64 0x1F2 0 h 0 0 0 0 0 0 0 (k.val + 4 * 2)).rsv 5 4 = .ok () := Raw.rsv_of (by rw [g64_m] <;> omega)
  have f2 : (g64 0x1F2 0 h 0 0 0 0 0 0 0 (k.val + 4 * 2)).m 2 2 = 2 := by rw [g64_m] <;> omega
  have f3 : (g64 0x1F2 0 h 0 0 0 0 0 0 0 (k.val + 4 * 2)).rsv 4 1 = .ok () := Raw.rsv_of (by rw [g64_m] <;> omega)
  simp (disch := omega) [dec64, decEng, Raw.tacc, f2, show (g64 0x1F2 0 h 0 0 0 0 0 0 0 (k.val + 4 * 2)).op = 0x1F2 from rfl, show (g64 0x1F2 0 h 0 0 0 0 0 0 0 (k.val + 4 * 2)).shapeIs .P = .ok () from rfl, g64_hd, g64_noB, g64_noC, g64_noD, g64_noA, f0, f1, f3, Dec.ok_bind, Dec.pure_ok]

end Sys2Proof.Laws.Fields

open Sys2Proof in
theorem Sys2Proof.Laws.Fields.match (h : Hd) (rd : LDst) (ra : Src) : Laws.Fields.Statement (.match h rd ra) := by
  have := rd.code_lt; have := ra.code_lt; have := ra.sel_lt
  refine Laws.Fields.of64 (r := g64 0x184 0 h rd.code ra.code ra.sel 0 0 0 0 (0)) rfl rfl rfl (by apply g64_fits <;> omega) ?_
  have f0 : (g64 0x184 0 h rd.code ra.code ra.sel 0 0 0 0 (0)).rsv 0 9 = .ok () := Raw.rsv_of (by rw [g64_m] <;> omega)
  simp (disch := omega) [dec64, decNet, show (g64 0x184 0 h rd.code ra.code ra.sel 0 0 0 0 (0)).op = 0x184 from rfl, show (g64 0x184 0 h rd.code ra.code ra.sel 0 0 0 0 (0)).shapeIs .P = .ok () from rfl, g64_hd, g64_ldst, g64_srcA, g64_noB, g64_noC, f0, Dec.ok_bind, Dec.pure_ok]
end

