-- ==== Sys2Proof/Machine/CtlRead.lean ====
section
/-! DEFINITION. Host reads of the control space, BAR0 (R239, R242, R288, R289, R297, R299, R307 to R309, R323, R332, R333, R340,
R356, R367, R368, R380, R381). A read changes nothing. -/

namespace Sys2Proof.Machine

/-- Two 32-bit registers, the first at the lower offset. -/
def pairOf (lo hi : BitVec 32) : BitVec 64 := hi ++ lo

/-- A register of 4 bytes with nothing above it. -/
def loneOf (lo : BitVec 32) : BitVec 64 := lo.setWidth 64

/-- The number of a port. -/
def portBit (p : Port) : Nat := match p with | .a => 0 | .b => 1

/-- FWSTAT.STATE (R333). -/
def FwState.code (f : FwState) : Nat := match f with | .empty => 0 | .verifying => 1 | .running => 2 | .failed => 3

/-- FWSTAT (R333): SVN only while the image runs, REASON only where it failed. -/
def Pkg.fwstat (k : Pkg) : BitVec 32 :=
  BitVec.ofNat 32 ((if k.fw = .running then k.svn.toNat % 2 ^ 16 * 2 ^ 16 else 0) +
    (if k.fw = .failed then k.fwReason % 16 * 2 ^ 4 else 0) + k.fw.code)

/-- MCTL (R307): MSIZE, DONE, ERR and BUSY; GO reads 0. -/
def Purge.mctl (p : Purge) : BitVec 32 :=
  BitVec.ofNat 32 (p.msize.toNat + p.done.toNat * 2 ^ 8 + p.err.toNat * 2 ^ 29 + p.busy.toNat * 2 ^ 30)

/-- The purge registers in the order of their offsets. -/
def Purge.word (p : Purge) (i : Nat) : BitVec 64 :=
  match i with | 0 => p.mva | 1 => p.mpte | 2 => p.mval | _ => loneOf p.mctl

/-- The package registers (R333). FWCTL and RESET are write-only and read 0. -/
def State.readPkg (s : State) (p : Port) (o : Nat) : BitVec 64 :=
  let k := s.pkg
  let r := match p with | .a => k.pa | .b => k.pb
  match o with
  | 0x000 => pairOf (BitVec.ofNat 32 (0x7740 * 2 ^ 16 + k.idRev.toNat)) k.straps
  | 0x008 => pairOf (BitVec.ofNat 32 (portBit k.auth)) k.foreign
  | 0x010 => loneOf k.jobdrop
  | 0x018 => pairOf (r.physwin.setWidth 32) (r.apctx.setWidth 32)
  | 0x020 => r.apbase.setWidth 64
  | 0x028 => k.wroot
  | 0x030 => k.wpurge.word 0
  | 0x038 => k.wpurge.word 1
  | 0x040 => k.wpurge.word 2
  | 0x048 => k.wpurge.word 3
  | 0x050 => pairOf 0 k.fwstat
  | 0x058 => loneOf (k.idStat.setWidth 32)
  | _ => 0

/-- Whether a team of a context is resident (R308). -/
def State.residentCtx (s : State) (c : Nat) : Bool := s.teams.any fun (e : Nat × TeamRec) => e.2.ctx == c

/-- FWAITS (R308): the accesses that wait on a context's faults, saturating. -/
def State.fwaits (s : State) (c : Nat) : Nat :=
  min 0xFFFF (((s.faults.filter fun f => f.ctx == c && f.status == 0).map fun f => f.reqs.length).foldl (· + ·) 0)

/-- CTXCTL (R308): PREEMPT, RESUME and RESET read 0. -/
def State.ctxctl (s : State) (c : Nat) : BitVec 32 :=
  let r := s.ctx c
  BitVec.ofNat 32 (r.enable.toNat * 2 ^ 31 + portBit r.owner * 2 ^ 30 + r.window.toNat * 2 ^ 28 + r.cntrs.toNat * 2 ^ 27 +
    r.draining.toNat * 2 ^ 23 + (s.residentCtx c).toNat * 2 ^ 22 + r.purging.toNat * 2 ^ 21 + s.fwaits c)

/-- A context block (R307). FREPLY is write-only and reads 0. -/
def State.readCtx (s : State) (c o : Nat) : BitVec 64 :=
  let r := s.ctx c
  match o with
  | 0x00 => pairOf (s.ctxctl c) r.deadline
  | 0x08 => r.root
  | 0x10 => r.fqbase
  | 0x18 => pairOf r.fqctl r.fqhead
  | 0x20 => pairOf r.fqtail r.jobid
  | 0x28 => 0
  | 0x30 => r.peerbase
  | 0x38 => loneOf r.peercnt
  | 0x60 => r.purge.word 0
  | 0x68 => r.purge.word 1
  | 0x70 => r.purge.word 2
  | 0x78 => r.purge.word 3
  | _ => if 0x40 ≤ o ∧ o < 0x60 then r.chain.extractLsb' (8 * (o - 0x40)) 64 else 0

/-- The recovery block of a context (R356). -/
def State.readRecovery (s : State) (c o : Nat) : BitVec 64 :=
  let r := s.ctx c
  match o with
  | 0x00 => r.trapdesc
  | 0x08 => r.trapbase
  | 0x10 => pairOf r.trapctl r.traptail
  | 0x18 => loneOf r.traplost
  | _ => 0

/-- THSTAT (R381): ERR over the fields of TBAND that are the package's. -/
def State.thstat (s : State) : BitVec 32 :=
  let t := s.tband 0
  ((BitVec.ofBool s.thermal.err).setWidth 32 <<< 11) ||| ((t.extractLsb' 16 4).setWidth 32 <<< 7) |||
    (t.extractLsb' 0 7).setWidth 32

/-- The hottest sensors of two dies (R381). -/
def State.thtemp (s : State) (d : Nat) : BitVec 32 :=
  BitVec.ofNat 32 ((Tab.get 0 s.thermal.temps d).toNat + (Tab.get 0 s.thermal.temps (d + 1)).toNat * 2 ^ 16)

/-- The thermal block (R381). THCTL.CMD is write-only and reads 0. -/
def State.readThermal (s : State) (o : Nat) : BitVec 64 :=
  let t := s.thermal
  match o with
  | 0x00 => pairOf s.thstat (t.thvec.setWidth 32 <<< 2)
  | 0x08 => pairOf (t.tbath.setWidth 32) (t.evt.setWidth 32)
  | 0x10 => pairOf (s.thtemp 0) (s.thtemp 2)
  | _ => 0

/-- An event ring's registers (R297). -/
def Ring.word (r : Ring) (o : Nat) : BitVec 64 :=
  match o with
  | 0x00 => r.rbase
  | 0x08 => pairOf (r.rsize.setWidth 32) r.rtail
  | 0x10 => pairOf r.rhead (r.rcnt.setWidth 32)
  | 0x18 => pairOf (r.rtmo.setWidth 32) r.rvec
  | _ => 0

/-- PROGRESS (R289): of a queue that is switched out, the saved value with STALE. -/
def QueueRec.progressWord (k : QueueRec) : BitVec 64 :=
  match k.active with
  | some _ => BitVec.ofNat 64 (k.progress % 2 ^ 63)
  | none => (k.sprog.setWidth 64) ||| (1 : BitVec 64) <<< 63

/-- TAIL (R289): the last value written. -/
def QueueRec.tailWord (k : QueueRec) : BitVec 64 :=
  match k.active with
  | some a => BitVec.ofNat 64 a.tail
  | none => k.stail

/-- LNKA or LNKB (R367). -/
def LinkRec.word (k : LinkRec) (ev : Bool) : BitVec 32 :=
  BitVec.ofNat 32 (k.state.toNat * 2 ^ 30 + ev.toNat * 2 ^ 29 + k.peak.toNat * 2 ^ 16 + k.replays.toNat)

/-- A link-status register of a die (R367). -/
def State.linkWord (s : State) (d : Nat) (pred : Bool) : BitVec 32 :=
  let k := s.link (linkOf d pred)
  k.word (if pred then k.evB else k.evA)

/-- DIESTAT (R367): MODE, the authority die and GROUP. -/
def State.diestat (s : State) (d : Nat) : BitVec 32 :=
  let r := s.die d
  BitVec.ofNat 32 (r.mode.toNat * 2 ^ 30 + portDie s.pkg.auth * 2 ^ 24 + r.grp.toNat * 2 ^ 20)

/-- A die region (R332). ENLCTL reads the value written, also where it takes effect only at the next epoch boundary (R7, R239;
assumption 94). -/
def State.readDie (s : State) (d o : Nat) : BitVec 64 :=
  let r := s.die d
  if o < 0x10000 then (if o % 16 = 0 then (s.queue (o / 16)).tailWord else (s.queue (o / 16)).progressWord)
  else if o < 0x10400 then (s.ring d ((o - 0x10000) / 64)).word (o % 64)
  else if 0x20100 ≤ o ∧ o < 0x20188 then BitVec.ofNat 64 (s.dieCounter d ((o - 0x20100) / 8))
  else
    match o with
    | 0x20000 => pairOf r.enlnext r.plctl
    | 0x30000 => r.csbase
    | 0x30008 => loneOf r.csctl
    | 0x30010 => r.csseq
    | 0x30018 => pairOf (s.diestat d) (r.rctl.setWidth 32)
    | 0x30020 => pairOf (s.linkWord d false) (s.linkWord d true)
    | 0x30028 => r.cecnt
    | 0x30030 => r.uecnt
    | 0x30038 => r.lostw
    | 0x30040 => r.sramce
    | 0x30048 => r.sramue
    | _ => 0

/-- What a port reads from the 8 bytes at an aligned offset of BAR0. Nothing is answered, by Completer Abort, where the port does
not reach the die (R367). A context's blocks read 0 from a port that is neither its owner nor the authority (R309). -/
def State.ctlRead (s : State) (p : Port) (o : Nat) : Option (BitVec 64) :=
  if o < 0x10000 then some (s.readPkg p o)
  else if o < 0x14000 then
    let c := (o - 0x10000) / 256
    some (if s.mayCtx p c then s.readCtx c (o % 256) else 0)
  else if o < 0x20000 then some 0
  else if o < 0x40000 then some ((s.queue ((o - 0x20000) / 32)).word (o % 32 / 8))
  else if o < 0x40800 then
    let c := (o - 0x40000) / 32
    some (if s.mayCtx p c then s.readRecovery c (o % 32) else 0)
  else if 0x50000 ≤ o ∧ o < 0x50018 then some (s.readThermal (o - 0x50000))
  else if o < 0x800000 then some 0
  else if o < 0x1000000 then
    let a := o - 0x800000
    some (BitVec.ofNat 64 ((List.range 8).foldl (fun acc i => acc + (s.pkg.staging.byte (a + i)).toNat * 256 ^ i) 0))
  else
    let d := o / 0x1000000 - 1
    if 4 ≤ d then some 0 else if s.portReach p d then some (s.readDie d (o % 0x1000000)) else none

end Sys2Proof.Machine
end

