-- ==== Sys2Proof/Tests/Slice0.lean ====
section
/-! SUPPORT. Tests of the model: ill-formed terms that each check refuses, words of the spec's encodings, results that the spec works
by hand, and for every statement with hypotheses a witness that meets them. -/

namespace Sys2Proof.Tests

open Sys2Proof.Machine

/-! ### Ill-formed terms (R28, R31, R32, R45) -/

/-- The field of stall 0 and guard p7. -/
def h0 : Hd := ⟨0, 7, false⟩

/-- Why the checks refuse an instruction. -/
def refusal (i : Instr) : Option IllForm :=
  match i.check with
  | .ok _ => none
  | .error e => some e

theorem test_check_guard : refusal (.nop ⟨0, 7, true⟩) = some .guard := by decide
theorem test_check_shape : refusal (.lred h0 .S (.v 0) (.v 8) .fadd 0) = some .shape := by decide
theorem test_check_laneNumber : refusal (.mov h0 .M (.v 0) .lid) = some .laneNumber := by decide
theorem test_check_branchOffset : refusal (.bra h0 3) = some .branchOffset := by decide
theorem test_check_format : refusal (.cvt h0 .M (.v 0) (.v 2) .int8 .f32 .rne) = some .format := by decide
theorem test_check_reduction : refusal (.lred h0 .M (.v 0) (.v 2) .fmin 0) = some .reduction := by decide
theorem test_check_drawIndex : refusal (.guni h0 .S (.v 0) 0 (.idx true)) = some .drawIndex := by decide
theorem test_check_signExtend : refusal (.ld h0 (.v 0) (.v 2) .w64 .team false true 0) = some .signExtend := by decide
theorem test_check_emptyPaths : refusal (.fence h0 .rel .sys ⟨false, false, false, false⟩) = some .emptyPaths := by decide
theorem test_check_specialRegister : refusal (.srd h0 (.v 0) 0x0F) = some .specialRegister := by decide
theorem test_check_well_formed : refusal (.lred h0 .M (.v 0) (.v 2) .fadd 0) = none := by decide

/-! ### Words that the spec's encodings give (R19 to R26, R41 to R44), family by family -/

theorem test_decode_movi : decodeTableWord 64 0x0000000500376163 = some (.movi ⟨3, 7, false⟩ (.v 3) 5) := by decide
theorem test_decode_exit : decodeTableWord 64 0x000000000007001B = some (.exit h0) := by decide
theorem test_decode_icmp : decodeTableWord 64 0x0100005040176157 = some (.icmp ⟨3, 7, false⟩ 1 (.v 4) (.v 5) .lt false) := by decide
theorem test_decode_pset : decodeTableWord 64 0x1900000D8037016F = some (.pset h0 3 (.v 216) (.bit 3)) := by decide
theorem test_decode_cvt : decodeTableWord 64 0x0200001060272403 = some (.cvt ⟨1, 7, false⟩ .P (.v 2) (.v 6) .bf16 .f32 .sr) := by decide
theorem test_decode_shfl : decodeTableWord 64 0x0120002040870603 = some (.shfl h0 .P (.v 8) (.v 4) (.g 2) .down 0) := by decide
theorem test_decode_vwr : decodeTableWord 64 0x00000D8DC007161B = some (.vwr h0 .Q (.v 220) (.v 216)) := by decide
theorem test_decode_gnorm : decodeTableWord 64 0x0080000001071E8B = some (.gnorm h0 .S (.v 16) 1) := by decide
theorem test_decode_st : decodeTableWord 64 0x0002023040A70707 = some (.st h0 (.v 10) (.v 4) .w64 .sys false 8) := by decide
theorem test_decode_cctl : decodeTableWord 64 0x01800040A007071B = some (.cctlRepl h0 (.v 10) (.v 4)) := by decide
theorem test_decode_cpy : decodeTableWord 64 0x050000C080070783 = some (.cpy h0 (.v 8) (.v 12) .n16 2 false false) := by decide
theorem test_decode_taccWr : decodeTableWord 64 0x0200000D8E870FCB = some (.taccWr h0 .M .z (.v 216) 0) := by decide
theorem test_decode_swr : decodeTableWord 64 0x0400000020070033 = some (.swr h0 (.v 2) 8) := by decide
theorem test_decode_nopC16 : decodeTableWord 16 0x001E = some .nopC16 := by decide
/-- A field of the guard ?!p7 is no instruction. -/
theorem test_decode_refuses_guard : decodeTableWord 64 0x0000000000F0003 = none := by decide

/-! ### The step: an instruction placed where the next step fetches -/

/-- The state that a step answers. -/
def next (o : Host.Outcome State Fault Refusal) : State :=
  match o with
  | .next t => t
  | _ => State.reset

/-- The issue address of the only group of the only team. -/
def pcOf (s : State) : Option Word :=
  match s.teams with
  | [(_, r)] => (r.groups.find 0).bind Group.issueAddr
  | _ => none

/-- The word of a lane's register in the only team. -/
def vreg (s : State) (i n : Nat) : Word :=
  match s.teams with
  | [(_, r)] => (((r.groups.find 0).getD Group.fresh).lane i).reg n |>.bits
  | _ => 0

/-- MOVI of 5 runs as the first instruction after reset. -/
theorem test_step_movi : vreg (next (step (State.reset.withFetchWord 64 0x0000000500370163))) 31 3 = 5 := by decide
/-- A compact NOP moves its group on by 2 bytes (R43). -/
theorem test_step_nopC16 : pcOf (next (step (State.reset.withFetchWord 16 0x001E))) = some 2 := by decide

/-! ### Small states -/

/-- A group of 32 lanes, each changed by its number. -/
def grp (f : Nat → Lane → Lane) : Group := Group.fresh.mapLanes f

/-- A group whose lanes all hold the listed words. -/
def tg (regs : List (Nat × Word)) : Group := grp fun _ l => { l with regs := regs.map fun e => (e.1, RWord.clean e.2) }

/-- The loaded team with one group, changed. -/
def tm (f : TeamRec → TeamRec) (g : Group) : TeamRec := f { TeamRec.loaded with groups := [(0, g)] }

/-- The state in which that team's group issues. -/
def st (f : TeamRec → TeamRec) (g : Group) : State := { State.reset with teams := [(0, tm f g)], issuing := some ⟨0, 0⟩ }

/-- With firmware running and the thermal state COLD-IDLE, so that the state is live. -/
def cold (s : State) : State :=
  { s with pkg := { s.pkg with fw := .running }, thermal := { s.thermal with state := .run, band := .cold, sense := .cold } }

/-- Lane `l`'s words from register `n` on after an instruction, `k` of them. -/
def gives (i : Instr) (s : State) (l n k : Nat) : List Nat := (List.range k).map fun j => (vreg (next (exec i s)) l (n + j)).toNat

/-- A predicate of lane 0 after an instruction. -/
def givesPred (i : Instr) (s : State) (n : Nat) : Bool :=
  match (next (exec i s)).group 0 0 with
  | some g => (g.lane 0).pred n
  | none => false

/-! ### Integers (R98 to R102), by hand from the rules -/

theorem test_iadd_wraps : gives (.iadd h0 (.v 3) (.v 1) (.v 2)) (st id (tg [(1, 0xFFFFFFFF), (2, 2)])) 5 3 1 = [1] := by decide
theorem test_imulh_mixed : gives (.imulh h0 (.v 3) (.v 1) (.v 2) .su) (st id (tg [(1, 0xFFFFFFFF), (2, 0xFFFFFFFF)])) 0 3 1
    = [0xFFFFFFFF] := by decide
theorem test_sar_beyond : gives (.sar h0 (.v 3) (.v 1) (.v 2)) (st id (tg [(1, 0x80000000), (2, 40)])) 0 3 1 = [0xFFFFFFFF] := by decide
theorem test_bfe_signed : gives (.bfe h0 (.v 3) (.v 1) (.g 0) (.v 2) true) (st id (tg [(1, 0xF), (2, 4)])) 0 3 1 = [0xFFFFFFFF] := by decide
theorem test_lea_extends : gives (.lea h0 (.v 4) (.v 0) (.v 2) 3 true) (st id (tg [(0, 8), (2, 0xFFFFFFFF)])) 0 4 2 = [0, 0] := by decide
theorem test_icmp_unsigned : givesPred (.icmp h0 2 (.v 1) (.v 2) .lt true) (st id (tg [(1, 1), (2, 0xFFFFFFFF)])) 2 = true := by decide
theorem test_plop_table : givesPred (.plop h0 2 7 0 7 0x20) (st id (tg [])) 2 = true := by decide

/-! ### Floats, moments and conversions: the worked examples of spec/04 to spec/06 -/

/-- FMUL.M of (3, 0.25) and (2, 1): 6 and 10. -/
theorem test_fmul_moments : gives (.fmul h0 .M (.v 8) (.v 4) (.v 6) .rne .nctl)
    (st id (tg [(4, 0x40400000), (5, 0x3E800000), (6, 0x40000000), (7, 0x3F800000)])) 0 8 2 = [0x40C00000, 0x41200000] := by decide
/-- FMUL.M.SEC of the same: 10.25. -/
theorem test_fmul_second : gives (.fmul h0 .M (.v 8) (.v 4) (.v 6) .rne .on)
    (st id (tg [(4, 0x40400000), (5, 0x3E800000), (6, 0x40000000), (7, 0x3F800000)])) 0 8 2 = [0x40C00000, 0x41240000] := by decide
set_option maxRecDepth 100000 in
/-- FADD.M.RUP under NOISE: 1 + 2^-24 goes up and adds 2^-48. -/
theorem test_fadd_noise : gives (.fadd h0 .M (.v 8) (.v 4) (.v 6) .rup)
    (st id { tg [(4, 0x3F800000), (6, 0x33800000)] with nctl := 1 }) 0 8 2 = [0x3F800001, 0x27800000] := by decide
set_option maxRecDepth 100000 in
/-- FADD.Q with a tie in the fold (spec/05). -/
theorem test_fadd_fold : gives (.fadd h0 .Q (.v 8) (.v 0) (.v 4) .rne)
    (st id (tg [(0, 0x3F800000), (2, 0x3E803F00), (3, 0x00020001), (4, 0x40000000), (6, 0x3EC03E00), (7, 0x00030002)])) 0 8 4
    = [0x40400000, 0x3E100000, 0x3EC03F00, 0x00020001] := by decide
/-- FSQRT.M of +0 with variance 2^-20: D is infinite (R91). -/
theorem test_fsqrt_zero : gives (.fsqrt h0 .M (.v 8) (.v 4) .rne) (st id (tg [(5, 0x35800000)])) 0 8 2 = [0, 0x7F800000] := by decide
/-- FSIGM.M of minus infinity with variance 5: +0 and 0 (R91). -/
theorem test_fsigm_limit : gives (.fsigm h0 .M (.v 8) (.v 4) .rne) (st id (tg [(4, 0xFF800000), (5, 0x40A00000)])) 0 8 2 = [0, 0] := by decide
/-- 500 to E4M3 saturates at 448, and the squared error is 2,704. -/
theorem test_cvt_saturates : gives (.cvt h0 .M (.v 8) (.v 4) .e4m3 .f32 .rup) (st id (tg [(4, 0x43FA0000)])) 0 8 2
    = [0x43E00000, 0x45290000] := by decide
/-- 2.25 to E2M1 under RNE, and packed in shape P. -/
theorem test_cvt_e2m1 : gives (.cvt h0 .P (.v 8) (.v 4) .e2m1 .f32 .rne) (st id (tg [(4, 0x40100000)])) 0 8 1 = [4] := by decide
set_option maxRecDepth 100000 in
/-- MTAG's example: residual 0.5 under tag 7. -/
theorem test_mtag : gives (.mtag h0 (.v 8) (.v 4) (.v 1) false) (st id (tg [(1, 7), (4, 0x40000000), (5, 0x3F000000)])) 0 8 4
    = [0x40000000, 0x38E00000, 0x00003F35, 7] := by decide
set_option maxRecDepth 100000 in
/-- One MX block: 5.0 and thirty-one of 1.0 in E2M1; lane 0's packed word is scale 0x7F and element 6. -/
theorem test_qpk_block : gives (.qpk h0 .P (.v 8) (.v 4) .rne .e2m1)
    (st id (grp fun i l => { l with regs := [(4, RWord.clean (if i = 0 then 0x40A00000 else 0x3F800000))] })) 0 8 1
    = [0x7F06] := by decide

/-! ### The Grain, the lane network and the tile unit: the examples of spec/07 and spec/08 -/

/-- GUNI.SL0 in lane 0 and lane 1 of a fresh WEYL slot. -/
theorem test_guni : gives (.guni h0 .P (.v 8) 0 .draw)
    (st id (grp fun _ l => { l with slots := l.slots.map fun q => { q with weyl := true } })) 1 8 1 = [0x3EF1BBCE] := by decide
set_option maxRecDepth 100000 in
/-- GCAT.SL0 in lanes 1 to 4 with weights 1, 2, 3 and 2 chooses lane 3. -/
theorem test_gcat : gives (.gcat ⟨0, 0, false⟩ (.v 12) (.v 13) 0)
    (st id (grp fun i l => { l with
      preds := if 1 ≤ i ∧ i ≤ 4 then 1 else 0
      regs := [(13, RWord.clean (if i = 1 then 0x3F800000 else if i = 3 then 0x40400000 else 0x40000000))]
      slots := l.slots.map fun q => { q with weyl := true } })) 4 12 1 = [3] := by decide
/-- SHFL.DOWN by 1 in sub-groups of 16: lane 15 keeps its own word. -/
theorem test_shfl_edge : gives (.shfl h0 .P (.v 8) (.v 4) (.v 5) .down 1)
    (st id (grp fun i l => { l with regs := [(4, RWord.clean (BitVec.ofNat 32 i)), (5, RWord.clean 1)] })) 15 8 1 = [15] := by decide
/-- VOTE.BALLOT names the lanes whose predicate is true. -/
theorem test_vote_ballot : gives (.vote h0 (.v 8) 0 .ballot)
    (st id (grp fun i l => { l with preds := if i % 16 = 3 then 1 else 0 })) 0 8 1 = [0x00080008] := by decide
/-- The example of ATOM.ADDB: each lane against the running value (R203). -/
theorem test_addb_running : (atomFn 11 10 5 20, atomFn 11 15 8 20, atomFn 11 15 3 20, atomFn 11 18 4 20) = (15, 15, 18, 18) := by decide
/-- INCW with bound 3 from 2: 3, then 0. -/
theorem test_incw_bound : (atomFn 9 2 3 0, atomFn 9 3 3 0) = (3, 0) := by decide
/-- The home of the worked address: die 3, slice 24, local 0x44480 (R226 to R228). -/
theorem test_home : (hashHome 0x004000013480, sliceOf 0x004000013480) = (3, 24) := by decide

/-! ### Witnesses: states and operands that meet the hypotheses of the statements about an issue -/

/-- Whether the group that issues in `s` meets every check that `i`'s operands face, reads no mark, and satisfies `p`. -/
def ok (s : State) (i : Instr) (p : Ix → Bool := fun _ => true) : Bool :=
  let f := formOf i
  match s.ix f with
  | none => false
  | some x => (f.illreg (x.team.alloc x.grp)).isNone && (!x.grp.strict || f.loose || (f.shortfall x.grp x.at_).isNone) &&
      f.uses.all (fun u => (u.relayFails x.grp x.ex).isEmpty) && (x.poisoned f).isEmpty && p x

/-- What `ok` means. -/
theorem ok_meets {s : State} {i : Instr} {p : Ix → Bool} (h : ok s i p = true) : ∃ x, Issues (formOf i) s x ∧ p x = true := by
  unfold ok at h
  dsimp only at h
  split at h
  · cases h
  · rename_i x hx
    simp only [Bool.and_eq_true, Option.isNone_iff_eq_none, Bool.or_eq_true, Bool.not_eq_true', List.all_eq_true,
      List.isEmpty_iff] at h
    exact ⟨x, ⟨⟨hx, h.1.1.1.1, fun hs hl => by simpa [hs, hl] using h.1.1.1.2, h.1.1.2⟩, h.1.2⟩, h.2⟩

/-- A state in which every lane holds small words in v0 to v15. -/
def base : State := st id (tg ((List.range 16).map fun n => (n, BitVec.ofNat 32 (n + 1))))

/-- The same with nothing executing: p0 is false in every lane. -/
def h1 : Hd := ⟨0, 0, false⟩

/-- Only lane 0 executes under p0. -/
def lane0 (regs : List (Nat × Word)) : Group :=
  grp fun i l => { l with preds := if i = 0 then 1 else 0, regs := regs.map fun e => (e.1, RWord.clean e.2) }

/-- Every lane is inside a transaction with a predicate, a resume point and reads. -/
def inside (reads : Tab Nat) (g : Group) : Group :=
  g.mapLanes fun _ l => { l with tx := some ⟨6, 0x20, reads, [], [], [], []⟩ }

/-- Page 0 of context 0 is mapped to frame 0 with every permission, and a translation cache holds it. -/
def mapped (s : State) : State := { s with dies := [(0, { DieRec.reset with tlb := [(0, ⟨0xFB, 0, none⟩)] })] }

/-- A page of device memory with every permission, and one of host memory. -/
def dev : Leaf := ⟨0xFB, 0, none⟩
def hosted : Leaf := ⟨0xFB ||| 1 <<< 63, 0, none⟩

/-- A write that cannot leave: its line's home waits for an acknowledgement. -/
def stuck (s : State) : State :=
  { s with outw := [⟨8, 0, 0, 0, 1, 0, 0, 1, [⟨0, 0, 0, 0, 0⟩], dev⟩], dirs := [(0, ⟨0, [.i, .s, .i, .i], 0, some ⟨1, 0, [1], false⟩, 0⟩)] }

/-- A line of which nothing is under way, as `State.AtRest` has it. -/
def rest (s : State) (core key : Nat) (leaf : Leaf) : Bool :=
  let e := s.dir (key / 128) leaf
  decide (core < 160) && s.net == [] && s.outw == [] && !leaf.host && ((List.range 4).all fun a => (List.range 4).all fun b => s.reach a b) &&
  e.home == leaf.home (key / 128 * 128 % 2 ^ 57) && e.txn.isNone && e.holders == [] && e.st.length == 4 &&
  (s.l1 core (key / 128)).all (fun l => l.dirty == 0) && decide ((s.die e.home).shares.length < 8000) &&
  decide ((s.filterSet (key / 128) e.home).length < 15) && decide (s.copies.length < 32000) && decide ((s.core core).l1.length < 2048)

theorem rest_meets {s : State} {core key : Nat} {leaf : Leaf} (h : rest s core key leaf = true) : s.AtRest core key leaf := by
  simp only [rest, Bool.and_eq_true, decide_eq_true_eq, beq_iff_eq, Bool.not_eq_true', List.all_eq_true, List.mem_range,
    Option.isNone_iff_eq_none, Option.all_eq_true] at h
  obtain ⟨⟨⟨⟨⟨⟨⟨⟨⟨⟨⟨⟨⟨a, b⟩, c⟩, d⟩, e⟩, f⟩, g⟩, i⟩, j⟩, k⟩, l⟩, m⟩, n⟩, o⟩ := h
  exact ⟨a, b, c, d, fun x y hx hy => e x hx y hy, f, g, i, j, k, l, m, n, o⟩

/-- Whether the open transactions keep within R212's limits with the lines `rd` and `wr` added. -/
def fits (x : Ix) (rd wr : Nat → List Nat) : Bool :=
  (x.inTx.all fun i => (x.grp.lane i).tx.all fun t =>
    decide ((t.touch (rd i) (wr i)).readLines.length ≤ 16 ∧ (t.touch (rd i) (wr i)).writeLines.length ≤ 8)) &&
  decide ((x.grp.touchTx x.inTx rd wr).txLines ≤ 256)

theorem wit_ShiftAndFieldResults : ([.shl h0 (.v 3) (.v 1) (.v 2), .shr h0 (.v 3) (.v 1) (.v 2), .sar h0 (.v 3) (.v 1) (.v 2),
    .rotl h0 (.v 3) (.v 1) (.v 2), .bfe h0 (.v 3) (.v 1) (.v 2) (.v 4) true, .bfi h0 (.v 3) (.v 1) (.v 2) (.v 4), .popc h0 (.v 3) (.v 1),
    .clz h0 (.v 3) (.v 1), .brev h0 (.v 3) (.v 1)] : List Instr).all (fun i => ok base i) = true := by decide

theorem wit_IntegerArithmeticResults : ([.iadd h0 (.v 3) (.v 1) (.v 2), .isub h0 (.g 3) (.v 1) (.g 2), .imul h0 .z (.v 1) .lid,
    .imulh h0 (.v 3) (.v 1) (.v 2) .s, .imulh h0 (.v 3) (.v 1) (.v 2) .u, .imulh h0 (.v 3) (.v 1) (.v 2) .su,
    .imad h0 (.v 3) (.v 1) (.v 2) (.v 4), .imin h0 (.v 3) (.v 1) (.v 2) true, .imax h0 (.v 3) (.v 1) (.v 2) false,
    .iabs h0 (.v 3) (.v 1), .and h0 (.v 3) (.v 1) (.v 2), .or h0 (.v 3) (.v 1) (.v 2), .xor h0 (.v 3) (.v 1) (.v 2),
    .andn h0 (.v 3) (.v 1) (.v 2), .iaddImm h0 (.v 3) (.v 1) 5, .imulImm h0 (.v 3) (.v 1) 5, .andImm h0 (.v 3) (.v 1) 5,
    .orImm h0 (.v 3) (.v 1) 5, .xorImm h0 (.v 3) (.v 1) 5, .shlImm h0 (.v 3) (.v 1) (-1), .shrImm h0 (.v 3) (.v 1) 31,
    .sarImm h0 (.v 3) (.v 1) 32] : List Instr).all (fun i => ok base i) = true := by decide

theorem wit_PredicateAndMoveResults : ([.icmp h0 7 (.v 1) (.v 2) .ge true, .plop h0 1 2 3 7 255, .pset h0 6 (.v 1) (.bit 31),
    .mov h0 .S (.v 8) (.v 0), .sel h0 .Q (.v 8) (.v 0) (.v 4) 7, .movi h0 (.g 63) 5, .lea h0 (.v 222) (.v 0) (.v 2) 7 true]
    : List Instr).all (fun i => ok base i) = true := by decide

theorem wit_FloatArithmeticResults : ([.fadd h0 .P (.v 8) (.v 0) (.v 4) .sr, .fsub h0 .M (.v 8) (.v 0) (.v 4) .rz,
    .fmul h0 .Q (.v 8) (.v 0) (.v 4) .rup .on, .ffma h0 .S (.v 8) (.v 0) (.v 8) .z .rdn .nctl, .fdiv h0 .M .z (.v 0) (.v 4) .rne]
    : List Instr).all (fun i => ok base i) = true := by decide

theorem wit_CompactAndShortResults : ([.movC16 3 (.v 1), .iaddC16 3 (.v 1), .isubC16 3 (.v 1), .andC16 3 (.v 1), .orC16 3 (.v 1),
    .xorC16 3 (.v 1), .shlC16 3 (.v 1), .shrC16 3 (.v 1), .iaddiC16 63 15, .moviC16 3 16, .faddC16 3 (.v 1), .fmulC16 3 (.v 1),
    .faddMC16 4 (.v 2), .fmulMC16 4 (.v 2)] : List Instr).all (fun i => ok base i) = true := by decide

theorem wit_CompactAndShortResults_short : ([.iaddS32 0 (.v 3) (.v 1) (.v 2), .isubS32 0 (.v 3) (.v 1) (.v 2),
    .imulS32 0 (.v 3) (.v 1) (.v 2), .imulhS32 0 (.v 3) (.v 1) (.v 2), .iminS32 0 (.v 3) (.v 1) (.v 2), .imaxS32 0 (.v 3) (.v 1) (.v 2),
    .andS32 0 (.v 3) (.v 1) (.v 2), .orS32 0 (.v 3) (.v 1) (.v 2), .xorS32 0 (.v 3) (.v 1) (.v 2), .andnS32 0 (.v 3) (.v 1) (.v 2),
    .shlS32 0 (.v 3) (.v 1) (.v 2), .shrS32 0 (.v 3) (.v 1) (.v 2), .sarS32 0 (.v 3) (.v 1) (.v 2), .rotlS32 0 (.v 3) (.v 1) (.v 2),
    .movS32 0 true (.v 2) (.v 4), .popcS32 0 (.v 3) (.v 1), .clzS32 0 (.v 3) (.v 1), .faddS32 0 true (.v 2) (.v 4) (.v 6),
    .fsubS32 0 true (.v 2) (.v 4) (.v 6), .fmulS32 0 true (.v 2) (.v 4) (.v 6), .fdivS32 0 false (.v 2) (.v 4) (.v 6)]
    : List Instr).all (fun i => ok base i) = true := by decide

theorem wit_CompactAndShortResults_functions : ([.freluS32 0 true (.v 2) (.v 4), .fsqreluS32 0 true (.v 2) (.v 4),
    .frcpS32 0 true (.v 2) (.v 4), .fsqrtS32 0 true (.v 2) (.v 4), .frsqS32 0 true (.v 2) (.v 4), .fexp2S32 0 true (.v 2) (.v 4),
    .flog2S32 0 true (.v 2) (.v 4), .ftanhS32 0 true (.v 2) (.v 4), .fsigmS32 3 false (.v 3) (.v 5)]
    : List Instr).all (fun i => ok base i) = true := by decide

theorem wit_FloatFunctionResults : ([.frelu h0 .S (.v 8) (.v 0) .rne, .fsqrelu h0 .Q (.v 8) (.v 0) .rne, .frcp h0 .M (.v 8) (.v 0) .sr,
    .fsqrt h0 .P (.v 8) (.v 0) .rne, .frsq h0 .P (.v 8) (.v 0) .rne, .fexp2 h0 .P (.v 8) (.v 0) .rne, .flog2 h0 .P (.v 8) (.v 0) .rne,
    .fsinpi h0 .P (.v 8) (.v 0) .rne, .fcospi h0 .P (.v 8) (.v 0) .rne, .ftanh h0 .P (.v 8) (.v 0) .rne, .fsigm h0 .P (.v 8) (.v 0) .rne,
    .fmin h0 .S (.v 8) (.v 0) (.v 8) .rne, .fmax h0 .M (.v 8) (.v 0) (.v 2) .rne, .fminS32 0 true (.v 8) (.v 0) (.v 2),
    .fmaxS32 0 false (.v 8) (.v 0) (.v 2), .fcmp h0 .M 1 (.v 0) (.v 2) .lt, .fclass h0 .M (.v 8) (.v 0)]
    : List Instr).all (fun i => ok base i) = true := by decide

theorem wit_ConversionResults : ([.cvt h0 .P (.v 8) (.v 0) .int64 .f32 .rne, .cvt h0 .Q (.v 8) (.v 0) .bf16 .f32 .sr,
    .cvt h0 .S (.v 8) (.v 0) .e4m3 .f32 .rne, .qupk h0 (.v 8) (.v 0) .e2m1] : List Instr).all (fun i => ok base i) = true := by decide

theorem wit_MomentAndGrainResults : ([.mmk h0 .Q (.v 8) (.v 0) (.v 1), .mspl h0 .M (.v 8) (.v 0), .maddv h0 .M (.v 8) (.v 0) (.v 2),
    .mtag h0 (.v 8) (.v 0) (.v 4) true, .mcov h0 (.v 8) (.v 0) (.v 4), .mfold h0 (.v 8) (.v 0) .b, .sstat h0 (.v 8) (.v 0),
    .gseed h0 (.v 0) 3 (.seed true (.v 2)), .gseed h0 (.v 0) 0 .pos, .guni h0 .P (.v 8) 0 (.idx true), .guni h0 .P (.v 8) 0 .draw,
    .guni h0 .S (.v 8) 0 .draw, .gnorm h0 .P (.v 8) 1, .gnorm h0 .S (.v 8) 1, .ggum h0 .P (.v 8) 2, .ggum h0 .S (.v 8) 2,
    .gber h0 (.v 8) (.v 0) 3, .sdraw h0 (.v 8) (.v 0)] : List Instr).all (fun i => ok base i) = true := by decide

/-- No lane reads a mark. -/
def unmarked (i : Instr) (x : Ix) : Bool := (x.ins (formOf i)).all fun l => l.marked.all fun b => !b

theorem wit_LaneNetworkResults : ([.shfl h0 .S (.v 8) (.v 0) (.v 2) .xor 5, .vote h0 (.v 8) 7 .all, .vote h0 (.v 8) 0 .any,
    .vote h0 (.v 8) 0 .eq, .vote h0 (.v 8) 0 .ballot, .match h0 (.v 8) (.v 1), .lred h0 .M (.v 8) (.v 0) .fadd 0,
    .lscn h0 .P (.v 8) (.v 0) .umin 3 true, .qpk h0 .M (.v 8) (.v 0) .sr .e2m3, .gcat h0 (.v 8) (.v 1) 2]
    : List Instr).all (fun i => ok base i (unmarked i)) = true := by decide

/-- The last aligned index of a shape inside an allocation of 512 words; one that is not aligned, and the first beyond. -/
theorem wit_IndexedRegisterResults :
    let s := st id (tg [(1, 504)])
    let in_ := fun (x : Ix) => x.ex.all fun l =>
      (x.word l (.v 1)).toNat % 8 == 0 && (x.word l (.v 1)).toNat + 8 == x.team.alloc x.grp &&
        ((x.grp.lane l).words (x.word l (.v 1)).toNat 8).all fun w => !w.poison
    (ok s (.vrd h0 .S (.v 8) (.v 1)) (fun x => unmarked (.vrd h0 .S (.v 8) (.v 1)) x && in_ x) = true ∧
      ok s (.vwr h0 .S (.v 1) (.v 8)) (fun x => unmarked (.vwr h0 .S (.v 1) (.v 8)) x && in_ x) = true) ∧
    ([500, 512].all fun n => ([.vrd h0 .S (.v 8) (.v 1), .vwr h0 .S (.v 1) (.v 8)] : List Instr).all fun i =>
      ok (st id (tg [(1, n)])) i fun x => (x.ex.filter fun l =>
        (x.word l (.v 1)).toNat % 8 != 0 || decide (x.team.alloc x.grp < (x.word l (.v 1)).toNat + 8)).head? == some 0) = true := by decide

theorem wit_BranchResults :
    ([.bra h0 (-64), .braS 0x7FF, .call h0 (.v 3) 8, .call h0 .z 8] : List Instr).all (fun i => ok base i) = true ∧
    ([.brx h0 (.v 1), .ret h0 (.v 1), .callx h0 (.v 3) (.v 1)] : List Instr).all (fun i =>
      ok base i fun x => x.ex.all fun l => !(x.word l (.v 1)).getLsbD 0) = true ∧
    ([.brx h0 (.v 2), .ret h0 (.v 2), .callx h0 (.v 3) (.v 2)] : List Instr).all (fun i =>
      ok base i fun x => (x.ex.filter fun l => (x.word l (.v 2)).getLsbD 0) == 0 :: (List.range 32).tail) = true := by decide

/-- Whether some lanes execute, with lane `i` the lowest; and whether none does. -/
def lowest (x : Ix) (i : Nat) : Bool := x.ex.head? == some i
def none_ (x : Ix) : Bool := x.ex.isEmpty

theorem wit_LaneControlResults :
    ([.exit h0, .nop h0, .nopC16, .waitl h0, .yield h0, .budget h0 (.v 1)] : List Instr).all (fun i => ok base i (lowest · 0)) = true ∧
      ([.yield h1, .budget h1 (.v 1)] : List Instr).all (fun i => ok base i none_) = true := by decide

theorem wit_SoftwareTraps :
    ([.trap h0 255, .bkpt h0] : List Instr).all (fun i => ok base i (lowest · 0)) = true ∧
    ([.trap h1 0, .bkpt h1] : List Instr).all (fun i => ok base i none_) = true ∧ (base.ix (formOf (.ill 0))).isSome = true := by decide

theorem wit_SpecialRegisterResults :
    [0x000, 0x00E, 0x010, 0x013, 0x060].all (fun n => srdNumber n) = true ∧
    ([.srd h0 (.v 3) 0x000, .srd h0 (.v 3) 0x060, .swr h0 (.v 1) 8, .swr h0 (.v 1) 14] : List Instr).all
      (fun i => ok base i (lowest · 0)) = true ∧
    (srdNumber 0x010 = true ∧ ok base (.srd h1 (.v 3) 0x010) none_ = true) ∧
    (swrNumber 8 = true ∧ ok base (.swr h1 (.v 1) 8) none_ = true) ∧
    (srdNumber 0x00F = false ∧ srdNumber 0x061 = false ∧ (base.ix (formOf (.srd h0 (.v 3) 0x00F))).isSome = true) ∧
    (swrNumber 0x000 = false ∧ (base.ix (formOf (.swr h0 (.v 1) 0))).isSome = true) ∧
    (({ tg [] with latch := some (0x012, 7) } : Group).latch = some (0x013 - 1, 7)) := by decide

/-- A sweeping stack and none, a context that drains and one that does not, the last bank of a team with three, and the high half of the
last counter. -/
theorem wit_SpecialRegisterResults_values :
    (¬ ∃ k, k < 8 ∧ (base.stack k).sweep.isSome = true) ∧
    (∃ k, k < 8 ∧ (({ base with stackTab := [(7, { StackRec.reset with sweep := some 0 })] } : State).stack k).sweep.isSome = true) ∧
    (base.ctx 0).draining = false ∧ (({ base with ctxs := [(0, { CtxRec.reset with draining := true })] } : State).ctx 0).draining = true ∧
    (let r := tm (fun r => { r with banks := [0, 1, 3] }) (tg [])
     r.banks[3]? = none ∧ r.banks[2]? = some 3) ∧
    ({ tg [] with latch := some (0x040 + 2 * 15, 7) } : Group).latch = some (0x040 + 2 * 15, 7) :=
  ⟨fun ⟨_, _, h⟩ => Bool.noConfusion h, ⟨7, by decide, by decide⟩, by decide, by decide, by decide, rfl⟩

/-- Words v0 and v1 as a pair: the last multiple of 64 below 2^57 (R279). -/
def high (low : Word) : Group := tg [(0, low), (1, 0x01FFFFFF), (2, 0), (3, 0)]

theorem wit_DevelopAndLaunchResults :
    ok base (.develop h0) (fun x => lowest x 0 && x.inTx.isEmpty) = true ∧ ok base (.develop h1) none_ = true ∧
    ok base (.launch h1 (.v 0) ⟨true, true, true, .xy⟩) none_ = true ∧
    ok (st id (high 0xFFFFFFC0)) (.launch h0 (.v 0) ⟨true, true, true, .div 31⟩) (fun x => lowest x 0 && x.inTx.isEmpty &&
      x.ex.all fun j => pairNat (x.span j (.v 0) (launchShape ⟨true, true, true, .div 31⟩)) == 2 ^ 57 - 64) = true ∧
    (let c : Instr := .launch h0 (.v 0) ⟨true, true, true, .xy⟩
     let at_ := fun (x : Ix) j => pairNat (x.span j (.v 0) (launchShape ⟨true, true, true, .xy⟩))
     ok (st id (high 0xFFFFFFC1)) c (fun x => (x.ex.filter fun j => at_ x j % 64 != 0).head? == some 0) = true ∧
     ok (st id (tg [(1, 0x02000000)])) c (fun x => x.ex.all (fun j => at_ x j % 64 == 0) &&
       (x.ex.filter fun j => decide (2 ^ 57 ≤ at_ x j)).head? == some 0) = true) := by decide

/-- A group whose first eight scalar words are given. -/
def scalar (ws : List Word) : Group := { tg [] with gregs := (List.range ws.length).map fun i => (i, RWord.clean (ws.getD i 0)) }

/-- The descriptor of spec/07's step worked by hand. -/
def loopDesc : List Word := [0, 0x0E000040, 0, 0x0E000041, 0x00010001, 0x00010001, 0x02000001, 2]
/-- Descriptors of a row of THAD and of TQNT. -/
def hadDesc : List Word := [0, 0, 0, 0, 0x00010001, 0x00010001, 0, 0]
def qntDesc : List Word := [0, 0, 0, 0]

/-- The last register of a team with 16, the last bank of four, and descriptors without a trap; every executing lane is inside. -/
theorem wit_NotInsideTransactions :
    ([.binit h0 (.v 1) 15, .barv h0 15, .bexp h0 (.v 1) 15 true, .bwait h0 15 false, .bsync h0 15, .txabt h0] : List Instr).all
      (fun i => ok (st id (inside [] (tg [(1, 4)]))) i fun x => lowest x 0 && x.inTx.head? == some 0 && x.team.d.barriers == 16) = true ∧
    (let at0 := fun (ws : List Word) (c : Instr) (p : List Word → Bool) => ok (st id (inside [] (scalar ws))) c fun x =>
       lowest x 0 && x.inTx.head? == some 0 && decide (15 < x.team.d.barriers) && decide (3 < x.team.banks.length) && p (x.span 0 (.g 0) .S)
     at0 [0, 0, 0, 0, 16] (.cpyb h0 0 15 false) (fun w => bulkTrap w 0 == none) = true ∧
     at0 hadDesc (.thad h0 0 .h16 15 false) (fun w => !hadIll .h16 (w.take 7) && [dbase (w.take 7) 0, dbase (w.take 7) 2].all (· % 8 == 0)) = true ∧
     at0 loopDesc (.tloop h0 0 3 15 .var1 false) (fun w => !loopIll w && [dbase w 0, dbase w 2].all (· % 8 == 0)) = true ∧
     at0 qntDesc (.tqnt h0 0 3 15 false false) (fun w => !qntIll (w.take 4) && dbase (w.take 4) 0 % 8 == 0) = true ∧
     at0 [] (.taccZero h0 3) (fun _ => true) = true) ∧
    ok (st id (inside [] (high 0xFFFFFFC0))) (.launch h0 (.v 0) ⟨true, true, true, .xy⟩) (fun x => lowest x 0 && x.inTx.head? == some 0 &&
      x.ex.all fun l => pairNat (x.span l (.v 0) (launchShape ⟨true, true, true, .xy⟩)) == 2 ^ 57 - 64) = true := by decide

/-- Lane 31 alone is outside a transaction. -/
def mixed (g : Group) : Group := g.mapLanes fun i l => if i = 31 then l else { l with tx := some ⟨6, 0x20, [], [], [], [], []⟩ }

/-- Some executing lanes inside a transaction and one outside, and all of them inside. -/
theorem wit_NotInsideTransactions_partly : ([mixed, inside []].all fun into =>
    let both := fun (x : Ix) => lowest x 0 && x.inTx.head? == some 0
    ok (st id (into (high 0xFFFFFFF0))) (.cpy h0 (.v 0) (.v 0) .n16 15 false true) (fun x => both x && decide (15 < x.team.d.barriers) &&
      x.ex.all fun l => x.addr l (.v 0) % 16 == 0 && x.addr l (.v 0) + 16 == 2 ^ 57) &&
    ([.cctlWb h0 (.v 0) (.v 2), .cctlInv h0 (.v 0) (.v 2), .cctlDrain h0 (.v 0) (.v 2), .cctlPf1 h0 (.v 0) (.v 2), .cctlPf2 h0 (.v 0) (.v 2),
      .cctlRepl h0 (.v 0) (.v 2), .develop h0] : List Instr).all (fun i => ok (st id (into (high 0))) i both) &&
    ([.taccRd h0 (.v 2) (.v 0) 3 .m, .taccWr h0 .P (.v 2) (.v 0) 3, .taccWr h0 .M (.v 4) (.v 0) 3] : List Instr).all (fun i =>
      ok (st id (into (tg []))) i fun x => both x && x.team.banks[3]? == some 3 &&
        x.ex.all fun l => !(((st id (into (tg []))).core 0).cell 3 (cellOf (x.word l (.v 0)))).poison)) = true ∧
    (∀ n, n < 31 → ((mixed (tg [])).lane n).tx.isSome = true) ∧ ((mixed (tg [])).lane 31).tx = none ∧
    ok (st (fun r => { r with d := { r.d with latent := true } }) (mixed (tg []))) (.develop h0) (fun x => lowest x 0 && x.team.d.latent &&
      (x.ex.filter fun l => (x.grp.lane l).tx.isNone) == [31]) = true := by decide

/-- The last aligned address of an access of `n` bytes. -/
theorem wit_LoadAndStoreIssueResults :
    ok (st id (high 0xFFFFFFF0)) (.ld h0 (.v 4) (.v 0) .w128 .sys false false 0) (fun x => lowest x 0 && x.inTx.isEmpty &&
      x.ex.all fun l => x.dest (.v 0) 0 l % 16 == 0 && x.dest (.v 0) 0 l + 16 == 2 ^ 57) = true ∧
    ok (st id (inside [] (high 0xFFFFFFFC))) (.ldp h0 (.v 4) (.v 0) (.v 2) .die true) (fun x => lowest x 0 && x.inTx.head? == some 0 &&
      x.ex.all fun l => x.addr l (.v 0) % 4 == 0 && x.addr l (.v 0) + 4 == 2 ^ 57 && (x.word l (.v 2)).toNat % 4 == 0 &&
        x.plane (.v 0) (.v 2) l + 4 == 2 ^ 57) = true ∧
    ok (st id (high 0xFFFFFFFF)) (.st h0 (.v 4) (.v 0) .w8 .grp false 0) (fun x => lowest x 0 && x.inTx.isEmpty &&
      x.ex.all fun l => x.dest (.v 0) 0 l + 1 == 2 ^ 57) = true ∧
    ok (st id (high 0xFFFFFFFC)) (.stp h0 (.v 4) (.v 0) (.v 2) .team false) (fun x => lowest x 0 && x.inTx.isEmpty &&
      x.ex.all fun l => x.addr l (.v 0) + 4 == 2 ^ 57 && x.plane (.v 0) (.v 2) l % 4 == 0) = true := by decide

theorem wit_AtomIssueResults :
    ([.atom h0 .add (some (.v 4)) (.v 0) (.v 2), .atom h0 (.cas (.v 3)) none (.v 0) (.v 2)] : List Instr).all (fun i =>
      ok (st id (high 0xFFFFFFFC)) i fun x => lowest x 0 && x.inTx.isEmpty &&
        x.ex.all fun l => x.addr l (.v 0) % 4 == 0 && x.addr l (.v 0) + 4 == 2 ^ 57) = true := by decide

/-- Accesses inside a transaction of every lane, at the last aligned address. -/
theorem wit_LoadAndStoreIssueResults_inside :
    ok (st id (inside [] (high 0xFFFFFFF0))) (.ld h0 (.v 4) (.v 0) .w128 .sys false false 0) (fun x => x.inTx == x.ex && lowest x 0 &&
      fits x (fun i => linesAt x.team.ctx (x.dest (.v 0) 0 i) 16) (fun _ => [])) = true ∧
    ok (st id (inside [] (high 0xFFFFFFFC))) (.stp h0 (.v 4) (.v 0) (.v 2) .die false) (fun x => x.inTx == x.ex && lowest x 0 &&
      fits x (fun _ => []) (fun i => linesAt x.team.ctx (x.addr i (.v 0)) 4 ++ linesAt x.team.ctx (x.plane (.v 0) (.v 2) i) 4)) = true ∧
    ok (st id (inside [] (high 0xFFFFFFFC))) (.atom h0 .add (some (.v 4)) (.v 0) (.v 2)) (fun x => x.inTx == x.ex && lowest x 0 &&
      fits x (fun i => linesAt x.team.ctx (x.addr i (.v 0)) 4) (fun i => linesAt x.team.ctx (x.addr i (.v 0)) 4)) = true := by decide

/-- A word and its distance, or an end of a copy, that is misaligned or beyond 2^57. -/
theorem wit_AddressTraps_pairs :
    ([.ldp h0 (.v 4) (.v 0) (.v 2) .team false, .stp h0 (.v 4) (.v 0) (.v 2) .team false] : List Instr).all (fun i =>
      ok (st id (tg [(2, 6)])) i (fun x => (x.ex.filter fun l => x.addr l (.v 0) % 4 != 0 || (x.word l (.v 2)).toNat % 4 != 0).head? == some 0) &&
      ok (st id (tg [(0, 0xFFFFFFFC), (1, 0x01FFFFFF), (2, 4)])) i (fun x =>
        x.ex.all (fun l => !(x.addr l (.v 0) % 4 != 0 || (x.word l (.v 2)).toNat % 4 != 0)) &&
        (x.ex.filter fun l => decide (2 ^ 57 < x.addr l (.v 0) + 4 ∨ 2 ^ 57 < x.plane (.v 0) (.v 2) l + 4)).head? == some 0)) = true ∧
    (let i : Instr := .cpy h0 (.v 0) (.v 2) .n16 15 false false
     ok (st id (tg [(2, 8)])) i (fun x => decide (15 < x.team.d.barriers) && x.ex.all (fun l => x.addr l (.v 0) % 16 == 0) &&
       (x.ex.filter fun l => x.addr l (.v 2) % 16 != 0).head? == some 0) = true ∧
     ok (st id (tg [(1, 0x02000000)])) i (fun x => x.ex.all (fun l => x.addr l (.v 0) % 16 == 0 && x.addr l (.v 2) % 16 == 0) &&
       (x.ex.filter fun l => decide (2 ^ 57 < x.addr l (.v 0) + 16)).head? == some 0) = true) := by decide

theorem wit_AddressTraps :
    let bad := fun (i : Instr) (n : Nat) => ok (st id (tg [(0, 0x101)])) i fun x => (x.ex.filter fun l => x.dest (.v 0) 0 l % n != 0).head? == some 0
    let past := fun (i : Instr) (n : Nat) => ok (st id (tg [(1, 0x02000000)])) i fun x =>
      x.ex.all (fun l => x.dest (.v 0) 0 l % n == 0) && (x.ex.filter fun l => decide (2 ^ 57 < x.dest (.v 0) 0 l + n)).head? == some 0
    bad (.ld h0 (.v 4) (.v 0) .w16 .team false true 0) 2 = true ∧ bad (.st h0 (.v 4) (.v 0) .w64 .team false 0) 8 = true ∧
    bad (.atom h0 .exch none (.v 0) (.v 2)) 4 = true ∧
    past (.ld h0 (.v 4) (.v 0) .w8 .team false true 0) 1 = true ∧ past (.st h0 (.v 4) (.v 0) .w128 .team false 0) 16 = true ∧
    past (.atom h0 .exch none (.v 0) (.v 2)) 4 = true := by decide

/-- A group inside transactions whose lanes have read and written so many lines each, all below line 64. -/
def touched_ (rd wr : Nat) (g : Group) : Group :=
  g.mapLanes fun _ l => { l with tx := some ⟨6, 0x20, [], List.range rd, List.range wr, [], []⟩ }

/-- One line too many: the seventeenth that a lane reads, the ninth that it writes, and the first beyond 256 over the group. -/
theorem wit_AddressTraps_capacity :
    let past := fun (x : Ix) (p : TxState → Bool) (rd wr : Nat → List Nat) => (x.inTx.filter fun l => (x.grp.lane l).tx.any fun t => p (t.touch (rd l) (wr l)))
    let kind := fun (rd wr : Nat) (i : Instr) (a b : Ix → Nat → List Nat) => match (st id (touched_ rd wr (high 0xFFFFFFF0))).ix (formOf i) with
      | none => 9
      | some x => if !ok (st id (touched_ rd wr (high 0xFFFFFFF0))) i (fun x => x.ex.all fun l => x.addr l (.v 0) + 16 == 2 ^ 57) then 8
        else if (past x (fun t => decide (16 < t.readLines.length)) (a x) (b x)).head? == some 0 then 1
        else if (past x (fun t => decide (8 < t.writeLines.length)) (a x) (b x)).head? == some 0 then 2
        else if 256 < (x.grp.touchTx x.inTx (a x) (b x)).txLines then 3 else 0
    let no := fun (_ : Ix) (_ : Nat) => ([] : List Nat)
    let one := fun n => fun (x : Ix) l => linesAt x.team.ctx (x.dest (.v 0) 0 l) n
    let two := fun (x : Ix) l => linesAt x.team.ctx (x.addr l (.v 0)) 4 ++ linesAt x.team.ctx (x.plane (.v 0) (.v 2) l) 4
    let word := fun (x : Ix) l => linesAt x.team.ctx (x.addr l (.v 0)) 4
    ([(16, 0, 1), (0, 8, 3), (8, 0, 3), (7, 0, 0)].all fun e =>
      kind e.1 e.2.1 (.ld h0 (.v 4) (.v 0) .w128 .sys false false 0) (one 16) no == e.2.2 &&
      kind e.1 e.2.1 (.ldp h0 (.v 4) (.v 0) (.v 2) .die false) two no == e.2.2) = true ∧
    ([(0, 8, 2), (8, 0, 3), (0, 7, 0)].all fun e =>
      kind e.1 e.2.1 (.st h0 (.v 4) (.v 0) .w128 .grp false 0) no (one 16) == e.2.2 &&
      kind e.1 e.2.1 (.stp h0 (.v 4) (.v 0) (.v 2) .team false) no two == e.2.2) = true ∧
    ([(16, 0, 1), (0, 8, 2), (7, 0, 3), (6, 0, 0)].all fun e =>
      kind e.1 e.2.1 (.atom h0 .add (some (.v 4)) (.v 0) (.v 2)) word word == e.2.2) = true := by decide

theorem wit_FenceAndCacheResults :
    ok base (.fence h0 .acq .pkg ⟨true, true, false, false⟩) (lowest · 0) = true ∧
    ([.cctlWb h0 (.v 0) (.v 2), .cctlInv h0 (.v 0) (.v 2), .cctlDrain h0 (.v 0) (.v 2), .cctlPf1 h0 (.v 0) (.v 2), .cctlPf2 h0 (.v 0) (.v 2)]
      : List Instr).all (fun i => ok base i fun x => lowest x 0 && x.inTx.isEmpty) = true ∧
    ok (st id (lane0 [(0, 0xFFFFFFFF), (1, 0x01FFFFFF), (2, 3)])) (.cctlRepl h1 (.v 0) (.v 2)) (fun x => x.ex == [0] && x.inTx.isEmpty &&
      x.addr 0 (.v 0) == 2 ^ 57 - 1) = true := by decide

theorem wit_TransactionResults :
    ok base (.txbeg h0 6) (fun x => lowest x 0 && x.inTx.isEmpty) = true ∧
    ok (st id (inside [] (tg []))) (.txbeg h0 0) (fun x => x.inTx.head? == some 0) = true ∧
    ok (st id (inside [] (tg []))) (.txabt h0) (lowest · 0) = true ∧
    (((inside [] (tg [])).lane 31).tx.map (·.pred) = some 6 ∧ (inside [] (tg [])).lanes.length = 32) ∧
    ok base (.txend h0 5) (fun x => x.inTx.isEmpty) = true ∧
    ok (st id (inside [] (tg []))) (.txend h0 5) (fun x => !x.team.d.latent && x.ex.all fun l =>
      (x.grp.lane l).tx.any fun t => t.reads.isEmpty && t.writes.isEmpty && t.writeLines.isEmpty && t.escs.isEmpty) = true ∧
    ok (st id (inside [(4, 9)] (tg []))) (.txend h0 5) (fun x => !x.team.d.latent && x.ex.all fun l =>
      (x.grp.lane l).tx.any fun t => !(st id (inside [(4, 9)] (tg []))).txValid t && t.escs.isEmpty) = true := by decide

/-- Lane 0 is inside a transaction that holds one byte, at the end of line 0. -/
def committing (latent : Bool) : State :=
  mapped (st (fun r => { r with d := { r.d with latent := latent } })
    (grp fun i l => { l with tx := if i = 0 then some ⟨6, 0x20, [], [], [0], [⟨4, 127, [(0xAA, false)]⟩], []⟩ else none }))

theorem wit_TransactionResults_commit : ([false, true].all fun latent =>
    ok (committing latent) (.txend h0 5) fun x => x.inTx == [0] && (x.grp.lane 0).tx.any fun t =>
      (committing latent).txValid t && t.escs.isEmpty && (committing latent).net.isEmpty && t.writeLines == [127 / 128] &&
      x.team.ver.isEmpty && x.team.dev.isNone &&
      (match (committing latent).xlates (groupAcc x.team (.tx x.t x.g) 0 2) [0] with | .ok l => l == [⟨0xFB, 0, none⟩] | _ => false) &&
      rest (committing latent) x.team.core 127 ⟨0xFB, 0, none⟩) = true := by decide +kernel

/-- `MeetNone` and `RecordsWell` as tests. -/
def meetNone (x : Ix) (won : Nat → Bool) : Bool :=
  x.inTx.all fun i => (x.grp.lane i).tx.all fun t =>
    won i == x.inTx.all fun j => !decide (j < i) || !won j || (x.grp.lane j).tx.all fun u =>
      (t.readChunks ++ t.writeChunks).all fun c => !u.writeChunks.contains c

theorem meetNone_meets {x : Ix} {won : Nat → Bool} (h : meetNone x won = true) : MeetNone x won := by
  intro i hi t ht
  simp only [meetNone, List.all_eq_true] at h
  have h1 := h i hi
  rw [ht, Option.all_some, beq_iff_eq] at h1
  rw [h1]
  simp only [List.all_eq_true, Bool.or_eq_true, Bool.not_eq_true', decide_eq_false_iff_not, Option.all_eq_true]
  constructor
  · intro a j hj hlt hw u hu c hc hm
    rcases a j hj with (h2 | h2) | h2
    · exact h2 hlt
    · rw [hw] at h2; cases h2
    · have := h2 u hu c hc
      rw [List.contains_iff_mem.mpr hm] at this
      cases this
  · intro a j hj
    by_cases hlt : j < i
    · cases hw : won j
      · exact .inl (.inr rfl)
      · refine .inr fun u hu c hc => ?_
        have h3 := a j hj hlt hw u hu c hc
        cases hb : u.writeChunks.contains c
        · rfl
        · exact absurd (List.contains_iff_mem.mp hb) h3
    · exact .inl (.inl hlt)

def recordsWell (x : Ix) : Bool :=
  x.inTx.all fun i => (x.grp.lane i).tx.all fun t =>
    (t.reads.all fun e => decide (e.1 < 2 ^ 64) || t.readChunks.any fun c => e.1 == verKey x.t c) &&
      t.writes.all fun w => !w.bytes.isEmpty && decide (w.key + w.bytes.length ≤ 2 ^ 64)

theorem recordsWell_meets {x : Ix} (h : recordsWell x = true) : RecordsWell x := by
  intro i hi t ht
  simp only [recordsWell, List.all_eq_true] at h
  have h1 := h i hi
  rw [ht, Option.all_some, Bool.and_eq_true, List.all_eq_true, List.all_eq_true] at h1
  refine ⟨fun e he => ?_, fun w hw => ?_⟩
  · have h2 := h1.1 e he
    rw [Bool.or_eq_true, decide_eq_true_eq, List.any_eq_true] at h2
    rcases h2 with h2 | ⟨c, hc, h2⟩
    · exact .inl h2
    · exact .inr ⟨c, hc, beq_iff_eq.mp h2⟩
  · have h2 := h1.2 w hw
    rw [Bool.and_eq_true, decide_eq_true_eq] at h2
    exact ⟨fun e => by rw [e] at h2; exact Bool.noConfusion h2.1, h2.2⟩

/-- Lanes 0 to 3 end a transaction: lane 0 writes two bytes of one line, lane 1 reads what lane 0 has written, lane 2 writes another line
where `two` is set and nothing otherwise, and lane 3 has read what another agent has written since. Lane 0 has an escape pending. -/
def ending (latent two : Bool) : State :=
  let tx := fun (reads : Tab Nat) (lines : List Nat) (ws : List TxWrite) (es : List StoreEnt) => some (⟨6, 0x20, reads, [], lines, ws, es⟩ : TxState)
  mapped { (st (fun r => { r with d := { r.d with latent := latent } })
    (grp fun i l => { l with tx := match i with
      | 0 => tx [] [0] (if two then [⟨4, 16, [(0xAA, false)]⟩] else [⟨4, 16, [(0xAA, false)]⟩, ⟨5, 16, [(0xBB, false), (0xCC, true)]⟩])
              [⟨3, .store, 0, 0, 0, [1], [false], .sys, true⟩]
      | 1 => tx [(1, 0)] [] [] []
      | 2 => if two then tx [(2, 0)] [1] [⟨4, 255, [(0xDD, false)]⟩] [] else tx [(2, 0)] [] [] []
      | 3 => tx [(7, 1)] [2] [⟨6, 256, [(0xEE, false)]⟩] []
      | _ => none })) with nextId := 9 }

/-- All lanes but lane 1 meet no earlier one. -/
def won1 (i : Nat) : Bool := i != 1

theorem wit_TransactionResults_lanes : ([false, true].all fun latent => [false, true].all fun two =>
    ok (ending latent two) (.txend h0 5) fun x => meetNone x won1 && recordsWell x && x.inTx == [0, 1, 2, 3] && (ending latent two).net.isEmpty &&
      ((ending latent two).core x.team.core).l1.isEmpty &&
      (x.inTx.filter fun i => won1 i && (x.grp.lane i).tx.any (ending latent two).txValid) == [0, 2] &&
      (latent || (match (ending latent two).xlates (groupAcc x.team (.tx x.t x.g) 0 2) (if two then [0, 128] else [0]) with
        | .ok l => l.length == if two then 2 else 1
        | _ => false)) &&
      rest (ending latent two) x.team.core 16 ⟨0xFB, 0, none⟩ && rest (ending latent two) x.team.core 255 ⟨0xFB, 0, none⟩) = true := by decide +kernel

/-- A TXEND whose page is absent waits, and one whose page may not be written traps. -/
theorem wit_TransactionResults_pages : ([([], 1), ([(0, ⟨3, 0, none⟩)], 2)].all fun (e : List (Nat × Leaf) × Nat) =>
    let s := { ending false true with dies := [(0, { DieRec.reset with tlb := e.1 })] }
    ok s (.txend h0 5) fun x => meetNone x won1 && recordsWell x &&
      (match s.xlates (groupAcc x.team (.tx x.t x.g) 0 2) [0, 128] with
       | .wait _ => 1
       | .bad _ _ _ _ => 2
       | .ok _ => 0) == e.2) = true := by decide +kernel

/-- A team with 3 registers, of which register 3 is the first beyond. -/
def three (r : TeamRec) : TeamRec := { r with d := { r.d with barriers := 3 } }

theorem wit_BarrierIssueResults :
    ([.binit h0 (.v 1) 3, .barv h0 3, .bexp h0 (.v 1) 3 true, .bwait h0 3 false, .btest h0 1 3 .get, .bsync h0 3,
      .cpy h0 (.v 0) (.v 2) .n4 3 false false, .cpyb h0 0 3 false, .thad h0 0 .h16 3 false, .tloop h0 0 3 3 .mean false,
      .tqnt h0 0 3 3 false false] : List Instr).all (fun i => ok (st three (tg [(1, 4)])) i fun x =>
      lowest x 0 && decide (x.team.d.barriers ≤ 3) && decide (3 < x.team.banks.length)) = true ∧
    ([.binit h0 (.v 1) 2, .barv h0 2, .bexp h0 (.v 1) 2 true, .bwait h0 2 false, .btest h0 1 2 (.par true), .bsync h0 2] : List Instr).all
      (fun i => ok (st three (tg [(1, 4)])) i fun x => lowest x 0 && decide (2 < x.team.d.barriers) && x.inTx.isEmpty) = true := by decide

/-! ### Witnesses: barriers, copies and the tile unit -/

theorem wit_BarrierRegistersStayInRange :
    TeamRec.loaded.barsOk ∧ (TeamRec.loaded.barStep ⟨0, 15, 0, 0, .post (2 ^ 40 - 1) false⟩).isOk = true := by
  unfold TeamRec.barsOk
  decide

/-- A team whose register 15 is `b`. -/
def withBar (b : Bar) : TeamRec := { TeamRec.loaded with bars := List.replicate 15 ⟨1, 0, 0, false, 0⟩ ++ [b] }

/-- For each clause a register and a number at the edge of its range. -/
theorem wit_BarrierEventRules :
    (∀ b : Bar, (withBar b).bar 15 = b) ∧ (withBar ⟨1, 0, 0, false, 0⟩).bars.length = 16 ∧
    (let b : Bar := ⟨2, 1, 0, false, 0⟩; b.arr + 1 ≤ b.target ∧ b.exp + (2 ^ 40 - 1) < 2 ^ 40) ∧
    (let b : Bar := ⟨2, 2, 0, false, 0⟩; b.arr ≤ b.target ∧ b.exp + (2 ^ 40 - 1) < 2 ^ 40 ∧ b.target < b.arr + 1) ∧
    (let b : Bar := ⟨2, 2, 1, false, 0⟩; b.arr + (!true).toNat ≤ b.target ∧ 2 ^ 40 ≤ b.exp + (2 ^ 40 - 1)) ∧
    (let b : Bar := ⟨2, 0, 5, false, 0⟩; 5 ≤ b.exp ∧ b.exp < 6) ∧
    (0 = 0 ∨ 65535 < 0) ∧ 65535 < 65536 ∧
    (let b : Bar := ⟨2, 1, 2 ^ 40, false, 0⟩; b.arr + 1 ≤ b.target ∧ 2 ^ 40 ≤ b.exp) ∧
    (let b : Bar := ⟨2, 1, 0, false, 0⟩; b.arr + 1 ≤ b.target ∧ b.exp < 2 ^ 40 ∧ b.arr + 1 = b.target ∧ b.exp = 0) ∧
    (let b : Bar := ⟨2, 0, 2 ^ 40 - 1, false, 0⟩; b.arr + 1 ≤ b.target ∧ b.exp < 2 ^ 40 ∧ ¬(b.arr + 1 = b.target ∧ b.exp = 0)) ∧
    (let b : Bar := ⟨2, 0, 0, false, 1⟩; 0 < 1 ∧ 1 ≤ 65535 ∧ (b.arr ≠ 0 ∨ b.exp ≠ 0 ∨ b.waiters ≠ 0)) ∧
    (let b : Bar := ⟨2, 0, 0, true, 0⟩; 0 < 65535 ∧ 65535 ≤ 65535 ∧ b.arr = 0 ∧ b.exp = 0 ∧ b.waiters = 0 ∧ b.parity ≠ false ∧
      b.parity = true) := by
  refine ⟨fun b => rfl, ?_⟩
  decide

/-- Eight words in g0 to g7. -/
def desc (ws : List Word) (f : TeamRec → TeamRec := id) : State := st f (scalar ws)

/-- A state whose core 0 has a full bulk queue and a full tile queue. -/
def full (s : State) : State :=
  let b : BulkOp := ⟨0, 9, 0, 0, 0, 0, 0, 0, 16, false, false, false, 0, false, 0, 0, 0, false, [(0, 1)], [], false, 0, false, []⟩
  let o : TileOp := ⟨0, 9, 0, 0, .qnt false false, [], 0, 0, [], 0, false, none, []⟩
  { s with cores := [(0, { CoreRec.reset with bulkQ := List.replicate 16 b, tileQ := List.replicate 8 o })] }

theorem wit_CopyIssueResults :
    ok (st id (high 0xFFFFFFF0)) (.cpy h0 (.v 0) (.v 0) .n16 15 false true) (fun x => lowest x 0 && x.inTx.isEmpty &&
      x.ex.all fun l => x.addr l (.v 0) % 16 == 0 && x.addr l (.v 0) + 16 == 2 ^ 57) = true ∧
    ok (desc [0, 0x04000000, 0, 0, 16]) (.cpyb h0 0 15 false) (fun x => lowest x 0 && x.inTx.isEmpty &&
      bulkTrap (x.span 0 (.g 0) .S) 0 == some (5, 768, 0)) = true ∧
    ok (desc [0xFFFFFFF0, 0x01FFFFFF, 0, 0, 16]) (.cpyb h0 0 15 false) (fun x => lowest x 0 && x.inTx.isEmpty &&
      bulkTrap (x.span 0 (.g 0) .S) 0 == none && (bulkDesc (x.span 0 (.g 0) .S)).src + 16 == 2 ^ 57) = true ∧
    ((desc [0, 0, 0, 0, 16]).core 0).bulkQ.length = 0 ∧ ((full (desc [0, 0, 0, 0, 16])).core 0).bulkQ.length = 16 ∧
    ok (full (desc [0, 0, 0, 0, 16])) (.cpyb h0 0 15 false) (fun x => lowest x 0 && x.inTx.isEmpty &&
      bulkTrap (x.span 0 (.g 0) .S) 0 == none) = true := by decide

theorem wit_TileIssueResults :
    (loopIll loopDesc = false ∧ hadIll .h16 (hadDesc.take 7) = false ∧ qntIll qntDesc = false) ∧
    ([.tloop h0 0 3 15 .var1 false, .tqnt h0 0 3 15 false false] : List Instr).all (fun i => ok (desc loopDesc) i fun x =>
      lowest x 0 && x.inTx.isEmpty && x.team.banks[3]?.isSome && decide (15 < x.team.d.barriers) && x.span 0 (.g 0) .S == loopDesc) = true ∧
    ok (desc hadDesc) (.thad h0 0 .h16 15 false) (fun x => lowest x 0 && x.inTx.isEmpty && x.span 0 (.g 0) .S == hadDesc) = true ∧
    loopIll (loopDesc.set 7 0x100) = true ∧ hadIll .h64 ((hadDesc.set 1 0x04000000).take 7) = true ∧ qntIll (qntDesc.set 3 8) = true ∧
    ([dbase (loopDesc.set 0 4) 0, dbase (loopDesc.set 0 4) 2].find? fun a => a % 8 != 0) = some 0x4000000004 ∧
    ([dbase (hadDesc.set 2 4) 0, dbase (hadDesc.set 2 4) 2].find? fun a => a % 8 != 0) = some 4 ∧
    ([dbase (qntDesc.set 0 12) 0].find? fun a => a % 8 != 0) = some 12 ∧
    (((desc loopDesc).core 0).tileQ.length < 8 ∧ 8 ≤ ((full (desc loopDesc)).core 0).tileQ.length) ∧
    ok (full (desc loopDesc)) (.tloop h0 0 3 15 .var1 false) (fun x => lowest x 0 && x.inTx.isEmpty) = true ∧
    ((st id (tg [])).team 0).isSome = true ∧ ((tm id (tg [])).groups.find 0).isSome = true ∧
    (TileOp.steps ⟨0, 0, 0, 0, .loop .var1 false false, loopDesc, 0, 0, [], 0, false, none, []⟩) = 1 := by decide

theorem wit_TileCellResults :
    ([.taccRd h0 (.v 2) (.v 0) 3 .m, .taccZero h0 3] : List Instr).all (fun i => ok base i fun x => lowest x 0 && x.inTx.isEmpty &&
      x.team.banks[3]? == some 3 && x.ex.all fun l => !((base.core 0).cell 3 (cellOf (x.word l (.v 0)))).poison) = true ∧
    ok (st id (lane0 [])) (.taccWr h1 .P (.v 4) (.v 0) 0) (fun x => x.ex == [0] && x.inTx.isEmpty && x.team.banks[0]? == some 0) = true ∧
    ok (st id (lane0 [])) (.taccWr h1 .M (.v 4) (.v 0) 0) (fun x => x.ex == [0] && x.inTx.isEmpty && x.team.banks[0]? == some 0) = true ∧
    ok base (.taccWr h0 .M (.v 4) (.v 0) 0) (fun x => lowest x 0 && x.inTx.isEmpty) = true := by decide

/-! ### Witnesses: queues, grids and contexts -/

/-- Port A with an ordered write of memory that waits behind a purge. -/
def behind (s : State) : State := { s with hostQ := [⟨.a, .mem 0 0 (.write [0] false false)⟩] }

/-- A port for which nothing waits may write at once, and one with an ordered operation may not. -/
theorem wit_free (s : State) (p : Port) (h : s.hostQ = []) : s.freeFor p := fun e he => nomatch (h ▸ he : e ∈ [])
theorem wit_not_free (s : State) : ¬(behind s).freeFor .a := fun h => Bool.noConfusion (h _ (List.Mem.head _) rfl)
theorem wit_ApertureResults_order : (behind State.reset).live = true ∧ ¬(behind State.reset).freeFor .a := ⟨by decide, wit_not_free _⟩

/-- Die 0 is in a group of its own. -/
def cut (s : State) : State := { s with dies := [(0, { DieRec.reset with grp := 1 })] }

/-- A queue of 16 entries on die 0, switched in, with 3 commands accepted and 1 done. -/
def queue0 : QueueRec :=
  { QueueRec.reset with enable := true, active := some ⟨0, 4, 0, 0, 0, 3, 0, false⟩, accepted := 3, progress := 1 }

theorem wit_QueueAndAcceptanceResults_tail :
    State.reset.live = true ∧
    (State.reset.portReach .a 3 = true ∧ (State.reset.queue 0).active = none ∧ (State.reset.queue 0).cp.toNat = 0 ∧
      (State.reset.queue 0).enable = false) ∧
    (let s := { State.reset with queues := [(0, queue0)] }
     s.portReach .a 0 = true ∧ (s.queue 0).accepted ≤ 3 ∧ 17 ≤ (s.queue 0).progress + 2 ^ 4 ∧ ¬ 18 ≤ (s.queue 0).progress + 2 ^ 4 ∧
       (s.queue 0).active.any (fun a => a.cp == 0) = true) ∧
    (let s := { State.reset with queues := [(4095, { QueueRec.reset with enable := true, size := 16, stail := 5 })] }
     s.portReach .a 0 = true ∧ (s.queue 4095).active = none ∧ (s.queue 4095).cp.toNat = 0 ∧ s.neverIn (s.queue 4095) = true) ∧
    (cut State.reset).portReach .a 3 = false ∧ (State.reset.ctx (State.reset.queue 0).ctx.toNat).owner = .a ∧
    (State.reset.ctx (State.reset.queue 0).ctx.toNat).owner ≠ .b := by decide

theorem wit_QueueAndAcceptanceResults_switch :
    (let s := { cold State.reset with queues := [(4095, { QueueRec.reset with size := 4, enable := true, stail := 16, first := some 0 })],
                                      ctxs := [(0, { CtxRec.reset with enable := true })] }
     s.fwRuns = true ∧ s.isolated 0 = false ∧ s.nextIn 0 = some 4095 ∧ s.activeCount 0 < 64 ∧
       (s.queue 4095).accepted ≤ (s.queue 4095).stail.toNat ∧
       (s.queue 4095).stail.toNat ≤ (s.queue 4095).progress + 2 ^ (s.queue 4095).size.toNat) ∧
    (let s := { State.reset with queues := [(0, { queue0 with active := some ⟨0, 4, 0, 0, 0, 3, 0, false⟩ })], clock := ⟨198 * 100000, 0⟩ }
     (s.queue 0).active.any (fun a => a.tail == (s.queue 0).accepted && decide (a.idleSince + 100000 ≤ s.time)) = true) ∧
    (let s := { State.reset with clock := ⟨198 * 1000, 0⟩
                                 dies := [(3, { DieRec.reset with rings := [(15, { Ring.reset with oldest := some 0, rvec := 0x80000005 })] })] }
     (s.ring 3 15).oldest = some 0 ∧ 0 + 1000 * max (s.ring 3 15).rtmo.toNat 1 ≤ s.time ∧ (s.ring 3 15).rvec.getLsbD 31 = true) := by decide

theorem wit_QueueAndAcceptanceResults_accept :
    (let s := { mapped (cold State.reset) with queues := [(0, { queue0 with active := some ⟨0, 4, 0, 0, 0, 4, 0, false⟩ })],
                                               ctxs := [(0, { CtxRec.reset with enable := true })] }
     s.accepts 0 0 = true ∧ (s.queue 0).accepted < 4 ∧ (s.queue 0).enable = true ∧ s.blocked (.cmd 0) = false ∧
       (match s.cpRead ⟨.cmd 0, 0, 4, 1, 0, 255⟩ ((0 + 64 * ((s.queue 0).accepted % 2 ^ 4)) % 2 ^ 57) 64 with
        | .ok bs _ => bs.length == 64 && (bs.all fun b => !b.2) && commandKind (bs.map (·.1)) == some none
        | _ => false) = true) ∧
    (let l : List Byte := [1, 0] ++ List.replicate 62 0
     commandKind l = some (some 0) ∧ commandKind (List.replicate 64 2) = none) ∧
    (let s := { cold State.reset with launchQ := [(0, [⟨0, 0, 0, 0, 0, 0, 0⟩])], ctxs := [(0, { CtxRec.reset with enable := true })] }
     Tab.get [] s.launchQ (0 * 4 + 0) = [⟨0, 0, 0, 0, 0, 0, 0⟩] ∧ s.accepts 0 0 = true) := by decide +kernel

/-- A grid of one team, accepted for context 0 on die 0, whose descriptor stands at address 0. -/
def grid0 : GridRec :=
  { ctx := 0, cp := 0, desc := 0, src := .launch ⟨0, 0, 0, 0, 0, 0, 0⟩, ring := 0, seq := 1, hash := 0, phase := .accepted, status := 0,
    d := none, args := [], nx := 1, ny := 1, nz := 1, preds := 0, tail := none, tailed := false, next := 0, last := none, retry := [], handlers := [],
    traps := 0, trapped := [], ports := [], lost := false, faulted := false, poison := false, band := false, partDev := false,
    reset := false, tAccept := 0, tReady := 0, tRun := 0, tDone := 0 }

/-- A running device with context 0 enabled, page 0 mapped, and the grid. -/
def withGrid (g : GridRec) (mem : Memory) : State :=
  { mapped (cold State.reset) with grids := [(7, g)], ctxs := [(0, { CtxRec.reset with enable := true })], dram := mem }

/-- What the read of the descriptor finds satisfies `p`. -/
def readsDesc (s : State) (p : List Byte → Bool) : Bool :=
  match s.cpRead ⟨.desc 7, 0, 4, 1, 0, 255⟩ 0 128 with
  | .ok bs s1 => (bs.all fun b => !b.2) && s1.grid 7 == s.grid 7 && p (bs.map (·.1))
  | _ => false

/-- The descriptor of one group of 8 words with two bytes of code, and those of an undefined flag and of 17 groups of 512 words. -/
def descBytes : Memory := [(8, 2), (24, 1), (28, 1), (32, 1), (64, 1), (65, 8)]
def badBytes : Memory := [(8, 2), (15, 8), (64, 1), (65, 8)]
def bigBytes : Memory := [(8, 2), (24, 1), (28, 1), (32, 1), (64, 17), (66, 2)]

/-- Whether a descriptor is legal, and whether it fits on an empty core. -/
def legal (bs : List Byte) : Bool × Bool × Nat := (!descBad bs, ((descOf bs).fit Parts.empty).isSome, (descOf bs).nx)

theorem wit_GridLifeResults_check : (withGrid grid0 descBytes).live = true ∧ (withGrid grid0 descBytes).isolated 0 = false ∧
    (withGrid grid0 descBytes).blocked (.desc 7) = false ∧
    readsDesc (withGrid grid0 descBytes) (fun bs => legal bs == (true, true, 1) && (descOf bs).gregs == 0) = true := by decide +kernel
theorem wit_GridLifeResults_invalid : readsDesc (withGrid grid0 badBytes) (fun bs => descBad bs) = true := by decide +kernel
theorem wit_GridLifeResults_unplaceable : readsDesc (withGrid grid0 bigBytes) (fun bs => legal bs == (true, false, 1)) = true := by
  decide +kernel

theorem wit_GridLifeResults_decrement :
    (let s := { withGrid { grid0 with phase := .waiting, preds := 1 } [] with decs := [⟨3, 0, 0, 0, none⟩] }
     (s.decs.find? fun x => x.id == 3) = some ⟨3, 0, 0, 0, none⟩ ∧
       s.decTarget 0 0 = some (7, { grid0 with phase := .waiting, preds := 1 })) ∧
    (let s := { withGrid { grid0 with phase := .waiting, preds := 0 } [] with
                  decs := [⟨3, 0, 0, 64, none⟩], ctxs := [(0, { CtxRec.reset with credits := List.replicate 1023 0 })] }
     s.decTarget 0 64 = none ∧ (s.ctx 0).credits.length < 1024) ∧
    (let s := { withGrid { grid0 with phase := .waiting, tail := some 3, tailed := true } [] with decs := [⟨3, 3, 0, 0, some 7⟩] }
     (s.decs.find? fun x => x.id == 3) = some ⟨3, 3, 0, 0, some 7⟩ ∧ s.grid 7 = some { grid0 with phase := .waiting, tail := some 3, tailed := true }) := by
  decide +kernel

/-- The same descriptor with one argument word, which stands at address 0. -/
theorem wit_GridLifeResults_args : readsDesc (withGrid grid0 [(8, 2), (12, 1), (24, 1), (28, 1), (32, 1), (64, 1), (65, 8)]) (fun bs =>
    legal bs == (true, true, 1) && (descOf bs).gregs == 1 &&
      (match (withGrid grid0 []).cpRead ⟨.desc 7, 0, 4, 1, 0, 255⟩ (descOf bs).args 4 with
       | .ok as s2 => s2.grid 7 == some grid0 && as.all fun b => !b.2
       | _ => false)) = true := by decide +kernel

/-- The same with its argument words in another page, which is absent, closed to reads, or out of the address space. -/
theorem wit_GridLifeResults_args_fail :
    let at_ := fun (hi mid : Byte) (tlb : List (Nat × Leaf)) (p : CpIo → Bool) =>
      let s := { withGrid grid0 [(8, 2), (12, 1), (24, 1), (28, 1), (32, 1), (42, mid), (47, hi), (64, 1), (65, 8)] with
                   dies := [(0, { DieRec.reset with tlb := (0, ⟨0xFB, 0, none⟩) :: tlb })] }
      readsDesc s fun bs => legal bs == (true, true, 1) && (descOf bs).gregs == 1 && p (s.cpRead ⟨.desc 7, 0, 4, 1, 0, 255⟩ (descOf bs).args 4)
    at_ 0 1 [] (fun x => match x with | .wait s2 => s2.grid 7 == some grid0 | _ => false) = true ∧
    at_ 0 1 [(65536, ⟨0, 0, none⟩)] (fun x => match x with | .bad _ _ => true | _ => false) = true ∧
    at_ 2 0 [] (fun x => match x with | .bad _ _ => true | _ => false) = true := by decide +kernel

/-- A grid whose descriptor has been checked. -/
def ready0 : GridRec := { grid0 with phase := .waiting, d := some { TeamRec.loaded.d with roles := [⟨0, 8, 1⟩], clen := 2, banks := 1 } }

theorem wit_GridLifeResults_handOut :
    (withGrid ready0 []).dispatches ready0 = true ∧ ready0.next < ready0.nx * ready0.ny * ready0.nz ∧
    (ready0.d.bind fun d => (withGrid ready0 []).pickDie d 0 0 0).isSome = true := by decide +kernel

/-- A team whose lanes have all exited, and a task of that kind that holds a byte. -/
def ended (latent : Bool) (bytes : Tab (Byte × Bool)) : State :=
  st (fun r => { r with d := { r.d with latent := latent }, ver := { r.ver with bytes := bytes } }) (grp fun _ l => { l with live := false })

/-- A grid that waits behind grid 7 by TAIL, and a successor of grid 7. -/
theorem wit_GridLifeResults_tail :
    let tail := { grid0 with phase := .waiting, tail := some 7, tailed := true }
    let r := { ready0 with next := 1, phase := .running, d := ready0.d.map fun d => { d with succs := [64] } }
    let s := { withGrid r [] with grids := [(7, r), (8, tail)] }
    s.gridOver 7 r = true ∧ ((s.flushAll 0).stillOut 0 = false ∧ (s.releaseSys 0 []).grid 7 = some r) ∧ (s.releaseSys 0 []).grid 8 = some tail ∧
      r.d.any (fun d => d.succs.contains 64) = true := by decide +kernel

theorem wit_GridLifeResults_end :
    ([ended false [], ended true [], ended true [(0, 1, false)]].all fun s => (s.team 0).any fun m => s.teamOver 0 m && m.dev.isNone) = true ∧
    (let s := st (fun r => { r with dev := some ⟨.empty, true, none, 0⟩ }) (grp fun _ l => { l with live := false })
     (s.team 0).any (fun m => s.teamOver 0 m && m.dev.isSome) = true) ∧
    (let r := { ready0 with next := 1, phase := .running }
     (withGrid r []).gridOver 7 r = true ∧ ((withGrid r []).flushAll 0).stillOut 0 = false ∧
       ((withGrid r []).releaseSys 0 []).grid 7 = some r) ∧
    (let r := { ready0 with next := 1, phase := .running }
     (stuck (withGrid r [])).gridOver 7 r = true ∧ ((stuck (withGrid r [])).flushAll 0).stillOut 0 = true) ∧
    (let s := { withGrid { ready0 with phase := .finished } [] with
                  dies := [(0, { DieRec.reset with rings := [(0, { Ring.reset with waiting := [(4096, 7)], rbase := 1 <<< 63 })] })] }
     (s.ring 0 0).waiting = [(4096, 7)] ∧ s.ringOpen 0 0 = true ∧ (s.die 0).csctl.getLsbD 31 = false ∧
       (s.ring 0 0).rbase.getLsbD 63 = true ∧ (s.ring 0 0).rvec.getLsbD 31 = false ∧ s.reach 0 (physOf (s.ring 0 0).rbase).die = true) := by
  decide +kernel

/-- A sheet of the largest and of the smallest size, at the first sequence number; and one whose slot is held. -/
theorem wit_GridLifeResults_sheet :
    (let s := { withGrid ready0 [] with dies := [(0, { DieRec.reset with csctl := 0x80000010, csbase := 1 <<< 63, csseq := 65537 })] }
     s.isolated 0 = false ∧ (s.die 0).csctl.getLsbD 31 = true ∧ (s.die 0).csctl.toNat % 32 = 16 ∧ (s.die 0).csbase.toNat % 256 = 0 ∧
       s.physUp ((physOf (s.die 0).csbase).plus 64) = true ∧ s.reach 0 ((physOf (s.die 0).csbase).plus 64).die = true ∧ s.host.wf = true ∧
       ready0.seq % sheetSlots (s.die 0).csctl = (s.die 0).csseq.toNat % sheetSlots (s.die 0).csctl ∧ s.grid 7 = some ready0) ∧
    ((5 : BitVec 32).toNat % 32 < 6 ∧ 16 < (17 : BitVec 32).toNat % 32) ∧
    ({ ready0 with phase := .finished, nx := 0 }.nx * 1 * 1 = 0 ∧ ready0.d.isSome = true ∧ ready0.status = 0 ∧
      0 < ready0.nx * ready0.ny * ready0.nz) := by
  decide +kernel

/-- The check value of CRC-64/ECMA-182 over the digits 1 to 9 (R368 names its polynomial). -/
theorem test_crc64 : crc64 [0x31, 0x32, 0x33, 0x34, 0x35, 0x36, 0x37, 0x38, 0x39] = 0x6C40DF5F0B497347 := by decide +kernel

/-- A state with one context. -/
def ctxState (c : CtxRec) : State := { State.reset with ctxs := [(63, c)] }

theorem wit_ContextEventResults :
    (let s := ctxState { CtxRec.reset with enable := true }
     s.live = true ∧ s.mayCtx .a 63 = true ∧ s.mayCtx .b 63 = false ∧ (s.ctx 63).enable = true ∧ (s.ctx 63).draining = false) ∧
    ((ctxState CtxRec.reset).ctx 63).purging = false ∧
    (let s := ctxState { CtxRec.reset with enable := true, draining := true, left := 0 }
     (s.ctx 63).draining = true ∧ (s.ctx 63).left = 0 ∧ ∀ e ∈ s.teams, e.2.ctx ≠ 63) ∧
    ((ctxState { CtxRec.reset with purging := true }).ctx 63).purging = true ∧
    (let s := { withGrid grid0 [] with ctxs := [(0, { CtxRec.reset with enable := true, draining := true, left := 0 })], teams := base.teams
                                       decs := [⟨3, 0, 0, 0, none⟩] }
     s.live = true ∧ s.mayCtx .a 0 = true ∧ (s.ctx 0).draining = true ∧ (s.ctx 0).left = 0 ∧ (∃ e ∈ s.teams, e.2.ctx = 0) ∧
       Tab.rising 0 s.grids = true ∧ ∃ e ∈ s.grids, e.2.ctx = 0 ∧ e.2.phase ≠ .finished) := by decide

/-- A purge block with a size, and one that runs over the first 64 KiB. -/
def purgeN (n : BitVec 6) : Purge := { Purge.reset with msize := n }
def running : Purge := { Purge.reset with busy := true, job := some (0, 16, 0, 2 ^ 64 - 1) }

theorem wit_PurgeResults :
    (let s := ctxState { CtxRec.reset with purge := purgeN 15 }
     s.mayCtx .a 63 = true ∧ s.mayCtx .b 63 = false ∧ (s.purgeOf (some 63)).msize.toNat < 16 ∧ (s.pkg.auth == Port.b) = false) ∧
    ([16, 57].all fun n => ((ctxState { CtxRec.reset with purge := purgeN n }).purgeOf (some 63)).busy == false) = true ∧
    (let s := { ended true [(63 * 2 ^ 57, 1, false)] with ctxs := [(63, { CtxRec.reset with purge := running })] }
     (s.purgeOf (some 63)).job = some (0, 16, 0, 2 ^ 64 - 1) ∧
       s.askedIn (s.purgeOf (some 63)) (purgeTag (some 63)) = false ∧
       (∃ e ∈ s.teams, e.2.holdsIn (s.purgeOf (some 63)) (purgeTag (some 63)) = true) ∧ Tab.rising 0 s.teams = true ∧
       (s.team 0).any (fun r => r.trap.isNone && r.dev.isNone && r.ver.holdsIn (s.purgeOf (some 63)) (purgeTag (some 63))) = true) ∧
    (let s := { st (fun r => { r with ctx := 63 }) { tg [] with atoms := [⟨5, 0, 8, none, [(31, 0, 1, 2)], [], [], some ⟨0xFB ||| 1 <<< 63, 0, none⟩⟩] } with
                  ctxs := [(63, { CtxRec.reset with purge := running })] }
     s.askedIn (s.purgeOf (some 63)) (purgeTag (some 63)) = true) ∧
    (let s := ctxState { CtxRec.reset with purge := running }
     (∀ e ∈ s.teams, e.2.holdsIn (s.purgeOf (some 63)) (purgeTag (some 63)) = false) ∧ (physOf (BitVec.ofNat 64 0)).host = false ∧
       s.askedIn (s.purgeOf (some 63)) (purgeTag (some 63)) = false ∧ s.arrivals = [] ∧ s.reach (portDie (s.ctx 63).owner) (physOf 0).die = true ∧
       (physOf (BitVec.ofNat 64 0)).addr % 2 ^ 37 + 8 ≤ 120 * 2 ^ 30 ∧ 2 ^ 64 - 1 < 2 ^ 64) := by decide

/-- A walk of page 0 owed to a load, and a root table of one entry. -/
def walkState (root : BitVec 64) (mem : Memory) : State :=
  { State.reset with walks := [⟨3, 0, 0, 0, .load 0 0 5, 0, 1, 0⟩], ctxs := [(0, { CtxRec.reset with root := root })], dram := mem }

/-- A record of page 0 that a load waits on. -/
def fault0 : FaultRec := ⟨0, 1, 0, 0, 0, 1, 0, 0, 0, 0, [(.load 0 0 5, 0)], true, true⟩

theorem wit_TranslationFaultResults :
    (let s := walkState 1 [(0, 0xFB), (8, 1)]
     (s.walks.find? fun x => x.id == 3) = some ⟨3, 0, 0, 0, .load 0 0 5, 0, 1, 0⟩ ∧ s.purging 0 = false ∧
       s.walkerFree ⟨3, 0, 0, 0, .load 0 0 5, 0, 1, 0⟩ = true ∧ s.walk 0 0 = .fatal 0) ∧
    (walkState 0 []).walk 0 0 = .absent ∧
    (walkState 1 [(0, 1), (1, 1), (256, 1), (257, 2), (512, 1), (513, 3), (768, 0xFB)]).walk 0 0 = .leaf ⟨0xFB, 1, none⟩ ∧
    (let s := { State.reset with faults := [{ fault0 with written := false }]
                                 ctxs := [(0, { CtxRec.reset with fqctl := 0x80000000, fqbase := 1 <<< 63 })] }
     s.firstFault 0 = some { fault0 with written := false } ∧ s.faultRoom (s.ctx 0) = true ∧ (physOf (s.ctx 0).fqbase).host = true) ∧
    (let s := { State.reset with faults := [fault0] }
     s.mayCtx .a 0 = true ∧ s.mayCtx .b 0 = false ∧ s.pendingFault 0 1 = some fault0 ∧ s.pendingFault 0 2 = none ∧
       (∀ e ∈ fault0.reqs, ∀ i < 9, e.1 ≠ .arrival i)) ∧
    (let f := { fault0 with reqs := [(.desc 7, 0)] }
     let s := { withGrid grid0 [] with faults := [f] }
     s.pendingFault 0 1 = some f ∧ s.grid 7 = some grid0 ∧ grid0.phase = .accepted) ∧
    (let s := { State.reset with faults := [{ fault0 with written := false, status := 1 }]
                                 ctxs := [(0, { CtxRec.reset with fqctl := 0x80000000, fqbase := 1 <<< 63 })] }
     s.firstFault 0 = some { fault0 with written := false, status := 1 } ∧ s.reach fault0.die (physOf (s.ctx 0).fqbase).die = true) := by decide


/-! ### Witnesses: the package, the thermal block and the dies -/

/-- The device in TRIPPED, with sensor 0 at `t` eighths of a kelvin. -/
def tripped (t : BitVec 12) (hold : Bool) : State :=
  { State.reset with thermal := { Thermal.reset with state := .tripped, sensors := [(0, t)], heldReset := hold } }

theorem wit_ResetAndAuthorityResults :
    (State.reset.live = true ∧ State.reset.pkg.auth = .a ∧ State.reset.pkg.auth ≠ .b ∧ State.reset.thermal.state ≠ .off ∧
      State.reset.thermal.state ≠ .tripped) ∧
    (let s := ctxState { CtxRec.reset with owner := .b, enable := true }
     s.live = true ∧ s.pkg.auth ≠ .b ∧ (List.range 64).filter (fun k => (s.ctx k).owner == .b) = [63] ∧ (s.ctx 63).enable = true) ∧
    { State.reset with thermal := { Thermal.reset with state := .off } }.thermal.state = .off ∧
    ((tripped 2641 false).thermal.state = .tripped ∧ (tripped 2641 false).pkg.auth = .a ∧ (tripped 2641 false).coolEnough = false) ∧
    ((tripped 2640 true).pkg.auth = .a ∧ (tripped 2640 true).coolEnough = true ∧ (tripped 2640 true).thermal.heldReset = true) := by
  decide

/-- What a fabric access meets: 0 its leaves, 1 a wait, 2 a refusal, 3 a purge. -/
def met (s : State) (c key acc n : Nat) (p : List Leaf → State → Bool := fun _ _ => true) : Option Nat :=
  match State.meet ⟨.outw 0, c, 0, acc, 0, 255⟩ (lineKeys key n) s with
  | .ok ls s1 => if p ls s1 then some 0 else none
  | .wait _ _ => some 1
  | .bad _ _ _ => some 2
  | .held _ => some 3

/-- The context aperture at both ends of its translation, the last page the shared window's. -/
theorem wit_ApertureResults :
    (let s := { State.reset with pkg := { Pkg.reset with pa := { PortRec.reset with apbase := 0x7FFFFF } } }
     s.live = true ∧ (s.ctx (s.port .a).apctx.toNat).owner ≠ .b ∧ (s.ctx (s.port .a).apctx.toNat).owner = .a ∧
       2 ^ 57 < (s.port .a).apbase.toNat * 2 ^ 34 + (0x3FFFFFFFF : BitVec 34).toNat + 2) ∧
    (let s := { State.reset with dies := [(0, { DieRec.reset with tlb := [(65 * 2 ^ 57 - 2 ^ 16, ⟨0xFB, 0, none⟩)] })]
                                 ctxs := [(0, { CtxRec.reset with window := 2 })]
                                 pkg := { Pkg.reset with pa := { PortRec.reset with apbase := 0x7FFFFF } } }
     let va := (s.port .a).apbase.toNat * 2 ^ 34 + (0x3FFFFFFFF : BitVec 34).toNat
     va + 1 ≤ 2 ^ 57 ∧ met s 0 (byteKey 0 va) 1 1 = some 0 ∧ met s 0 (byteKey 0 va) 2 1 = some 0) ∧
    (met State.reset 0 0 1 1 = some 1 ∧
      met { State.reset with dies := [(0, { DieRec.reset with tlb := [(0, ⟨3, 0, none⟩)] })] } 0 0 2 1 = some 2 ∧
      met { ctxState { CtxRec.reset with purge := running } with
              dies := [(0, { DieRec.reset with tlb := [(63 * 2 ^ 57, ⟨0xFB, 0, none⟩)] })] } 63 (63 * 2 ^ 57) 1 1 = some 3) ∧
    (∃ bs ep, HostAcc.write [0] false true = .write bs ep true) ∧
    (State.reset.pkg.auth ≠ .b ∧ State.reset.pkg.auth = .a ∧ State.reset.reach (portDie .a) (0 / 2 ^ 37) = true ∧
      (4294967295 : Nat) % 2 ^ 37 + 1 ≤ 120 * 2 ^ 30) := by
  refine ⟨by decide, by decide, by decide, ⟨[0], false, rfl⟩, by decide⟩

/-- Die 0 cut off from the others, with page 1 of context 0 mapped, whose first line die 1 homes; and the physical aperture there. -/
theorem wit_ApertureResults_cut :
    (let l : Leaf := ⟨0xFB, 0, none⟩
     let s := { State.reset with dies := [(0, { DieRec.reset with tlb := [(65536, l)], grp := 1 })] }
     met s 0 65536 1 1 (fun ls s1 => ls == [l] && s1.net.isEmpty && !l.host && !s1.reach (portDie .a) (s1.dir (65536 / 128) l).home &&
       decide (65536 % 128 + 1 ≤ 128)) = some 0) ∧
    (let s := { cut State.reset with pkg := { Pkg.reset with pa := { PortRec.reset with physwin := 32 } } }
     s.pkg.auth = .a ∧ s.reach (portDie .a) (((s.port .a).physwin.toNat * 2 ^ 32) / 2 ^ 37) = false) := by decide

/-- The owner, the authority port and neither; pointers that are taken and that are not; and for CTXCTL, a purge's control and FREPLY a
word for each clause. -/
theorem wit_RegisterWriteResults :
    State.reset.live = true ∧ State.reset.mayCtx .a 63 = true ∧ State.reset.mayCtx .b 63 = false ∧ ptrOk (1 <<< 63) = true ∧ ptrOk 2 = false ∧
    State.reset.pkg.auth = .a ∧ State.reset.pkg.auth ≠ .b ∧ State.reset.portReach .a 3 = true ∧ (cut State.reset).portReach .a 3 = false ∧
    (let s := { State.reset with pkg := { Pkg.reset with auth := .b } }
     s.mayCtx .a 63 = true ∧ s.pkg.auth ≠ .a ∧ Port.b ≠ (s.ctx 63).owner) ∧
    ((State.reset.ctx 63).enable = false ∧ (State.reset.ctx 63).owner = .a ∧
      ((ctxState { CtxRec.reset with enable := true }).ctx 63).enable = true) ∧
    ([(0x40000000, false, true, 0), (0x01000000, false, false, 1), (0x02000000, false, false, 2), (0x04000000, false, false, 4),
      (0x80000000, true, false, 0), (0, false, false, 0)] : List (BitVec 32 × Bool × Bool × Nat)).all (fun e =>
        e.1.getLsbD 31 == e.2.1 && e.1.getLsbD 30 == e.2.2.1 && (e.1.extractLsb' 24 3).toNat == e.2.2.2) = true ∧
    ((ctxState { CtxRec.reset with purge := running }).ctx 63).purge.busy = true ∧ ((ctxState CtxRec.reset).ctx 63).purge.busy = false ∧
    ((0x80000010 : BitVec 32).getLsbD 31 = true ∧ (0x10 : BitVec 32).getLsbD 31 = false) ∧
    ([0, 1, 2, 3].map fun n => ((BitVec.ofNat 64 (n * 2 ^ 62)).extractLsb' 62 2).toNat) = [0, 1, 2, 3] ∧
    (252 < 256 ∧ 252 % 4 = 0 ∧ 248 % 8 = 0 ∧ 28 < 32 ∧ 24 % 8 = 0 ∧ 0x7FFFFC < 2 ^ 23 ∧ 0x7FFFFC % 4 = 0) ∧
    ([0, 1, 2, 3].map fun n => ((BitVec.ofNat 32 n).extractLsb' 0 2).toNat) = [0, 1, 2, 3] ∧
    { State.reset with pkg := { Pkg.reset with wpurge := running } }.pkg.wpurge.busy = true ∧
    ((State.reset.ring 3 15).port = .a ∧ (1 <<< 29 : BitVec 32).getLsbD 29 = true ∧ (0 : BitVec 32).getLsbD 29 = false) := by
  decide

theorem wit_LinkAndStorageResults :
    (State.reset.askedOver .b = [] ∧ State.reset.live = true ∧ ∀ l, (State.reset.link l).state ≠ 2) ∧
    (let s := { State.reset with links := [(3, { LinkRec.reset with retry := 14 })] }
     (s.link 3).state ≠ 2 ∧ (s.link 3).retry + 1 < 16) ∧
    (State.reset.net = [] ∧ State.reset.outw = [] ∧ State.reset.teams = []) ∧
    ({ State.reset with cores := [(159, { CoreRec.reset with l1 := [(5, L1Line.none ⟨0, 0, none⟩)] })] }.l1 159 5 = some (L1Line.none ⟨0, 0, none⟩)) ∧
    ({ State.reset with copies := [(23, ⟨255, 0, 0, ⟨0, 0, none⟩, []⟩)] }.copyAt 5 3 = some ⟨255, 0, 0, ⟨0, 0, none⟩, []⟩) ∧
    (((base.team 0).bind fun r => r.groups.find 0).any fun g => decide (31 < g.lanes.length)) = true := by
  refine ⟨⟨by decide, by decide, fun l => show LinkRec.reset.state ≠ 2 by decide⟩, ?_⟩
  decide +kernel

/-- A team with an ATOM under way, its grid with none. -/
def cutState : State :=
  { st id { tg [] with atoms := [⟨5, 0, 0, none, [(31, 0, 1, 2)], [], [], none⟩] } with grids := [(0, grid0)] }

theorem wit_LinkAndStorageResults_lost :
    (cutState.team 0).any (fun r => r.groups.length == 1 && r.trap.isNone && (cutState.grid r.grid).isSome && (r.groups.find 0).any fun k =>
      k.loads.isEmpty && k.atoms.length == 1) = true ∧
    (base.team 0).any (fun r => (r.groups.find 0).isSome && r.groups.all fun (e : Nat × Group) => e.2.atoms.isEmpty) = true ∧
    cutState.team 9 = none ∧ (cutState.grid 0).isSome = true ∧
    (let o : LoadOp := ⟨5, 0, .ld .w32 false, .team, false, some 3, [(31, 124)], [], [31]⟩
     o.cut.contains 31 = true ∧ o.tx = [] ∧ o.lanes = [(31, 124)]) := by decide

/-- One link of the ring goes down, and then the one across from it: two halves. -/
theorem wit_LinkAndStorageResults_split :
    (∀ c, State.reset.touches c [0, 1, 2, 3] = false) ∧
    (State.reset.live = true ∧ State.reset.net = [] ∧ State.reset.outw = [] ∧ State.reset.teams = [] ∧ State.reset.dirs = []) ∧
    (let s := { State.reset with links := [(2, { LinkRec.reset with state := 2 })] }
     (∀ c, s.touches c [0, 1, 2, 3] = false) ∧ (s.link 0).state ≠ 2 ∧
       (let t := s.updLink 0 fun x => { x with state := 2, evA := true, evB := true, retry := 0 }
        t.component 0 = [0, 2] ∧ t.component 3 = [1, 3] ∧ s.isolated (portDie s.pkg.auth) = false)) := by
  refine ⟨fun c => rfl, by decide, fun c => rfl, ?_⟩
  decide

theorem wit_FirmwareAndIdentityResults :
    (State.reset.live = true ∧ State.reset.pkg.auth = .a ∧ State.reset.pkg.auth ≠ .b ∧ State.reset.pkg.fw = .empty) ∧
    (∀ f : FwState, { State.reset with pkg := { Pkg.reset with fw := f } }.pkg.fw = f) ∧
    (let s := { State.reset with pkg := { Pkg.reset with fw := .running } }
     s.live = true ∧ s.pkg.idStat = 0 ∧ s.pkg.fw ≠ .empty ∧ s.pkg.idStat ≠ 1) ∧
    (let s := { State.reset with pkg := { Pkg.reset with fw := .running, idStat := 1 } }
     s.live = true ∧ s.pkg.idStat = 1) ∧
    ((15 : Fin 16) ≠ 0 ∧ 4 < (5 : BitVec 8).toNat ∧ 4 < (254 : BitVec 8).toNat ∧ (254 : BitVec 8).toNat ≠ 255) := by
  refine ⟨by decide, fun f => rfl, ?_⟩
  decide

/-- A machine in a thermal state. -/
def thState (t : Thermal) (ticks : Nat := 0) : State := { State.reset with thermal := t, clock := ⟨ticks, 0⟩ }

/-- The hottest sensor after a sample of sensor 175. -/
def heatOf (s : State) (t : BitVec 12) : Nat := ((s.takeSample [(175, t)]).markHot [(175, t)]).hottest

theorem wit_ThermalAndDramResults_states :
    (let s := { State.reset with pkg := { Pkg.reset with straps := 1 <<< 24, fw := .running } }
     s.live = true ∧ s.pkg.auth = .a ∧ s.thermal.state = .warmIdle ∧ s.pkg.straps.getLsbD 24 = true ∧ s.pkg.fw = .running) ∧
    (State.reset.thermal.state = .warmIdle ∧ State.reset.pkg.fw ≠ .running ∧ State.reset.pkg.auth ≠ .b) ∧
    (∀ x ∈ [ThState.warming, .cooling, .coldIdle, .run, .safelight], (thState { Thermal.reset with state := x }).live = true) ∧
    (let s := thState { Thermal.reset with state := .run }
     720 < heatOf s 721 ∧ heatOf s 2760 ≤ 2760 ∧ heatOf s 720 ≤ 720 ∧ 2880 < heatOf s 2881 ∧ 2760 < heatOf s 2761 ∧ heatOf s 2880 ≤ 2880 ∧
       s.thermal.haltAt = none ∧ s.live = true) := by decide

theorem wit_ThermalAndDramResults_holds :
    (let s := thState { Thermal.reset with state := .cooling, bandHold := [(0, .chill)] } 198000000000
     (s.thermal.bandHold.find? fun h => s.held (some h.1) 1) = some (0, .chill) ∧ Band.chill.code < s.thermal.band.code) ∧
    ((thState { Thermal.reset with state := .safelight, coldHold := some 0 } 1980000000000).held (some 0) 10 = true) ∧
    (let s := thState { Thermal.reset with state := .run, idleSince := some 0 } 198000000000
     s.thermal.state = .run ∧ s.teams = [] ∧ s.held s.thermal.idleSince 1 = true) ∧
    (let s := thState { Thermal.reset with state := .warming, warmHold := some 0 } 1980000000000
     s.thermal.state = .warming ∧ s.held s.thermal.warmHold 10 = true) ∧
    (let s := { State.reset with stackTab := [(7, { StackRec.reset with sweep := some 0 })] }
     s.live = true ∧ (s.stack 7).sweep.isSome = true) ∧
    (let s := thState { Thermal.reset with state := .run, haltAt := some 0 }
     s.live = true ∧ s.thermal.haltAt.isSome = true ∧ ∀ c, c < 64 → (s.ctx c).draining = false) := by
  refine ⟨by decide, by decide, by decide, by decide, by decide, by decide, by decide, fun c _ => rfl⟩

theorem wit_ThermalAndDramResults_dram :
    (let e : List LineErr := [⟨127, 1⟩]
     (List.range 8).filter (fun c => crc16 (errChunk e c) != 0) = [7] ∧ errCount e ≤ 4) ∧
    (let e : List LineErr := (List.finRange 5).map fun i => ⟨⟨i.val, by omega⟩, 1⟩
     (List.range 8).filter (fun c => crc16 (errChunk e c) != 0) ≠ [] ∧ 4 < errCount e) ∧
    (let a : DramReq := ⟨1006632959, 0, 3, false, false, [], false⟩
     a.errs = [] ∧ a.sweep = false ∧ a.line * 128 < 120 * 2 ^ 30 ∧ stackOf (7 / 2 * 2 ^ 37 + a.line * 128) = 7 ∧ a.conflict = false) ∧
    (let a : DramReq := ⟨stackLines - 1, 0, 3, false, false, [⟨127, 1⟩], true⟩
     a.sweep = true ∧ a.line < stackLines ∧ errCount a.errs ≤ 4 ∧ crc16 (errChunk a.errs 7) ≠ 0) ∧
    (let s := { State.reset with stackTab := [(7, { StackRec.reset with hotWindows := 4 })] }
     4 ≤ (s.stack 7).hotWindows ∧ (s.die 3).enlctl.getLsbD 3 = false ∧ (s.stack 7).migrating = none ∧ (s.stack 7).changed = none) ∧
    (let s := { thState { Thermal.reset with state := .run, band := .cold } with
                  stackTab := [(7, { StackRec.reset with migrating := some (stackLines - 1) })] }
     s.live = true ∧ (s.stack 7).migrating = some (stackLines - 1) ∧ stackLines - 1 < stackLines ∧ s.thermal.band = .cold) ∧
    (let s := { thState Thermal.reset 1980000000 with cores := [(159, { CoreRec.reset with droop := some 0 })] }
     s.live = true ∧ (s.core 159).droop = some 0 ∧ 0 + 1980000000 ≤ s.clock.ticks) := by decide +kernel

/-- Die 3 with one share, at cycle `c`. -/
def enlarger (c : Nat) (x : List (Nat × Share)) : State :=
  { State.reset with clock := ⟨0, c⟩, dies := [(3, { DieRec.reset with shares := x })] }

/-- For each rule of a share an epoch's counts at the edge of its range, under ENLCTL as reset leaves it: `tup` 512, `tw` 256, `dn` 4. -/
theorem wit_EnlargerResults :
    (State.reset.live = true ∧ epochCycles 0x14404040 = 65536 ∧
      ((enlarger 65536 []).die 3).epoch + epochCycles ((enlarger 65536 []).die 3).enlctl ≤ (enlarger 65536 []).clock.cycle ∧
      ((enlarger 65536 []).die 3).shares = [] ∧ (let l : List (Nat × Share) := [(1, ⟨1, 2, 0, 0, 0, 256, 0⟩), (2, ⟨0, 0, 0, 0, 0, 0, 0⟩)]
       ((enlarger 65536 l).die 3).shares = l ∧ Tab.rising 0 l = true ∧ Tab.find l 1 = some ⟨1, 2, 0, 0, 0, 256, 0⟩ ∧ Tab.find l 0 = none) ∧
      (enlarger 65535 []).clock.cycle < ((enlarger 65535 []).die 3).epoch + epochCycles ((enlarger 65535 []).die 3).enlctl) ∧
    (let c : BitVec 32 := 0x14404040
     let tup := 8 * max (c.toNat / 2 ^ 16 % 256) 1
     let tw := 4 * max (c.toNat / 2 ^ 8 % 256) 1
     let dn := max (c.toNat / 2 ^ 4 % 16) 1
     tup = 512 ∧ tw = 256 ∧ dn = 4 ∧
     (let x : Share := ⟨3, 2, 0, 0, 0, 256, 0⟩; tw ≤ x.w ∧ 2 ≤ x.since ∧ 0 < x.d) ∧
     (let x : Share := ⟨3, 1, 0, 0, 0, 256, 0⟩; tw ≤ x.w ∧ x.since < 2) ∧
     (let x : Share := ⟨2, 2, 1, 0, 4080, 255, 0⟩; x.w < tw ∧ tup ≤ x.r ∧ 16 * x.w ≤ x.r ∧ 2 ≤ x.since ∧ 1 ≤ x.cup ∧ x.d < 3) ∧
     (let x : Share := ⟨2, 2, 0, 0, 512, 32, 0⟩; x.w < tw ∧ tup ≤ x.r ∧ 16 * x.w ≤ x.r ∧ x.cup = 0) ∧
     (let x : Share := ⟨1, 2, 0, 3, 63, 255, 0⟩; x.w < tw ∧ 8 * x.r < tup ∧ 2 ≤ x.since ∧ dn ≤ x.ccold + 1 ∧ x.ccold < 15 ∧ 0 < x.d) ∧
     (let x : Share := ⟨1, 2, 0, 2, 63, 255, 0⟩; x.w < tw ∧ 8 * x.r < tup ∧ x.ccold + 1 < dn ∧ x.d ≤ 3)) := by decide

/-! ### Witnesses: accesses and engines -/

/-- One store of a lane. -/
def store1 (va : Nat) (sc : Scope) (esc : Bool) : StoreEnt := ⟨9, .store, 31, 0, va, [0xAA], [false], sc, esc⟩

/-- The state whose team has `n` held lines from line 1 on, and whose group has a store at address 0. -/
def holding (n : Nat) : State :=
  st (fun r => { r with d := { r.d with latent := true }
                        ver := { Version.empty with bytes := (List.range' 1 n).map fun i => (128 * i, (1, false)) } })
    { tg [] with storeQ := [store1 0 .die false] }

/-- Bytes in as many lines as there are of them count as that many lines. -/
theorem lines_of_range (n : Nat) : ∀ (m : Nat) (acc : List Nat), (∀ j ∈ acc, j < m) →
    (((List.range' m n).map fun i => (128 * i, ((1 : Byte), false))).foldl
      (fun (a : List Nat) e => if a.head? = some (e.1 / 128) then a else (e.1 / 128) :: a) acc).length = acc.length + n := by
  induction n with
  | zero => intro m acc _; rfl
  | succ n ih =>
    intro m acc h
    have hm : acc.head? ≠ some m := fun e => Nat.lt_irrefl _ (h m (List.mem_of_mem_head? e))
    simp only [List.range'_succ, List.map_cons, List.foldl_cons, Nat.mul_div_cancel_left m (by decide : 0 < 128), hm, if_false]
    rw [ih (m + 1) (m :: acc) (by
      intro j hj
      rcases List.mem_cons.mp hj with rfl | hj
      · exact Nat.lt_succ_self _
      · exact Nat.lt_succ_of_lt (h j hj))]
    simp only [List.length_cons]
    omega

/-- With a byte of line 0 added, the held lines are one more. -/
theorem lines_add_first (n : Nat) :
    (Version.add { Version.empty with bytes := (List.range' 1 n).map fun i => (128 * i, (1, false)) } 0 [(0xAA, false)]).lines = n + 1 := by
  have h : (Version.add { Version.empty with bytes := (List.range' 1 n).map fun i => (128 * i, ((1 : Byte), false)) } 0 [(0xAA, false)]).bytes =
      (0, (0xAA, false)) :: (List.range' 1 n).map fun i => (128 * i, (1, false)) := by
    cases n with
    | zero => rfl
    | succ n => rfl
  unfold Version.lines
  rw [h]
  have := lines_of_range n 1 [0] (by simp)
  simp only [List.foldl_cons, List.head?_nil, Nat.zero_div]
  simpa [Nat.add_comm] using this

/-- Whether team 0 and its group 0 satisfy a test. -/
def both (s : State) (p : TeamRec → Group → Bool) : Bool := (s.team 0).any fun r => (r.groups.find 0).any (p r)

/-- What an access of a team finds at a key, and whether its line is at rest. -/
def leafAt (s : State) (a : Acc) (key : Nat) : Option Leaf :=
  match s.xlate a key with
  | .ok l => some l
  | _ => none

/-- Held stores: into an empty version, and beside a line that the version holds; and a store behind an earlier load. -/
theorem wit_StoreAndLoadEventResults_held :
    ([0, 1].all fun n =>
      let s := holding n
      s.live && both s fun r k => r.d.latent && r.dev.isNone && !k.storeWaits r 0 (store1 0 .die false) && k.storeQ == [store1 0 .die false] &&
        decide ((r.ver.add 0 [(0xAA, false)]).lines ≤ 32768) &&
        decide (s.heldLines (r.core / 40) + (r.ver.add 0 [(0xAA, false)]).lines ≤ 393216 + r.ver.lines)) = true ∧
    both (st id { tg [] with storeQ := [store1 0 .die false], loads := [⟨5, 0, .ld .w32 false, .team, false, some 3, [(31, 124)], [], []⟩] })
      (fun r k => k.storeWaits r 0 (store1 0 .die false)) = true := by decide

/-- Stores that no version holds, at the scopes of the L1 and at a wider one, at the last byte of a line. -/
theorem wit_StoreAndLoadEventResults_store :
    ([(Scope.team, false), (.sys, false), (.die, true)].all fun e =>
      let s := mapped (st (fun r => { r with d := { r.d with latent := e.2 } }) { tg [] with storeQ := [store1 127 e.1 e.2] })
      s.live && !s.blocked (.store 0 0) && both s fun r k => k.storeQ == [store1 127 e.1 e.2] && !k.storeWaits r 0 (store1 127 e.1 e.2) &&
        leafAt s (groupAcc r (.store 0 0) 0 2) (byteKey r.ctx 127) == some dev && decide ((s.core r.core).l1.length < 2048) &&
        rest s r.core (byteKey r.ctx 127) dev) = true := by decide +kernel

/-- A version of 32,768 lines and a write to one more. -/
theorem wit_StoreAndLoadEventResults_full :
    (holding 32768).live = true ∧
    (∀ r k, (holding 32768).team 0 = some r → r.groups.find 0 = some k → r.d.latent = true ∧ r.dev = none ∧ r.ver.isEmpty = false ∧
      k.storeQ = [store1 0 .die false] ∧ k.storeWaits r 0 (store1 0 .die false) = false ∧
      32768 < (r.ver.add (byteKey r.ctx 0) [(0xAA, false)]).lines) := by
  refine ⟨by decide, fun r k h hk => ?_⟩
  obtain rfl := (Option.some.inj h).symm
  obtain rfl := (Option.some.inj hk).symm
  refine ⟨rfl, rfl, rfl, rfl, rfl, ?_⟩
  show 32768 < (Version.add { Version.empty with bytes := (List.range' 1 32768).map fun i => (128 * i, (1, false)) } 0 [(0xAA, false)]).lines
  rw [lines_add_first]
  decide

/-- A task's lane inside a transaction that holds one line more than the full version beside it. -/
def fullTx : State :=
  let k := grp fun i l => { l with tx := if i = 0 then some ⟨6, 0x20, [], [], [0], [⟨4, 0, [(0xAA, false)]⟩], []⟩ else none }
  { holding 32768 with teams := (holding 32768).teams.map fun e => (e.1, { e.2 with groups := [(0, k)] }) }

theorem wit_TransactionResults_full :
    fullTx.net = [] ∧ (∀ x, fullTx.ix (formOf (.txend h0 5)) = some x → MeetNone x (fun _ => true) ∧ x.inTx = [0] ∧ x.team.d.latent = true ∧
      (x.team.ver.isEmpty && x.team.dev.isNone) = false ∧ 32768 < (x.team.ver.add 0 [(0xAA, false)]).lines) := by
  refine ⟨rfl, fun x h => ?_⟩
  obtain rfl := (Option.some.inj h).symm
  refine ⟨meetNone_meets (by decide), by decide, rfl, rfl, ?_⟩
  show 32768 < (Version.add { Version.empty with bytes := (List.range' 1 32768).map fun i => (128 * i, (1, false)) } 0 [(0xAA, false)]).lines
  rw [lines_add_first]
  decide

/-- A load of lanes 0 and 31 whose line stands in the L1; one of a line that the L1 has not; and one behind an earlier load of its word. -/
def load1 (lanes : List (Nat × Nat)) : LoadOp := ⟨5, 0, .ld .w32 false, .team, false, some 3, lanes, [], []⟩

theorem wit_StoreAndLoadEventResults_load :
    (let ln : L1Line := { L1Line.none dev with valid := 129 }
     let l := load1 [(0, 0), (31, 124)]
     let s := { mapped (st id { tg [] with loads := [l] }) with cores := [(0, { CoreRec.reset with l1 := [(0, ln)] })] }
     s.live = true ∧ s.blocked (.load 0 0 5) = false ∧ l.tx = [] ∧ l.cut = [] ∧ (l.lanes.map (·.1)).Nodup ∧
       both s (fun r k => !s.loadWaits r k l && (k.loads.find? fun x => x.id == 5) == some l && l.lanes.all fun e =>
         decide (e.1 < k.lanes.length) && !s.purging e.2 && s.l1 0 (e.2 / 128) == some ln &&
           ln.valid &&& touched (e.2 % 128) 4 == touched (e.2 % 128) 4 &&
           (match s.judge (groupAcc r (.load 0 0 5) 0 1) e.2 ln.leaf with | .ok _ => true | _ => false)) = true) ∧
    (let l := load1 [(31, 124)]
     let s := mapped (st id { tg [] with loads := [l] })
     both s (fun r k => !s.loadWaits r k l && decide (31 < k.lanes.length) && (s.l1 r.core (byteKey r.ctx 124 / 128)).isNone &&
       leafAt s (groupAcc r (.load 0 0 5) 0 1) (byteKey r.ctx 124) == some dev && rest s r.core (byteKey r.ctx 124) dev) = true) ∧
    (let s := st id { tg [] with loads := [{ load1 [(0, 124)] with id := 4 }, load1 [(31, 124)]] }
     both s (fun r k => s.loadWaits r k (load1 [(31, 124)])) = true) := by decide +kernel

theorem wit_StoreAndLoadEventResults_bytes : 127 % 128 + [(0xAA : Byte)].length ≤ 128 ∧ 127 < 128 ∧
    (127 % 128 ≤ 127 ∧ 127 < 127 % 128 + 1) ∧ 126 < 127 % 128 ∧
    (let e := store1 127 .team true
     byteKey 0 e.va % 128 + e.bytes.length ≤ 128 ∧ 0 < [((1 : Byte), false)].length ∧ e.marks.length = e.bytes.length ∧ e.act = .store ∧
       e.id < 10 ∧ TeamRec.loaded.d.latent = false ∧ TeamRec.loaded.ver.bytes = [] ∧ TeamRec.loaded.dev = none ∧
       byteKey 0 e.va ≤ 127 + 0 ∧ 127 + 0 < byteKey 0 e.va + e.bytes.length) := by decide

/-- An ATOM of lane 31 at address 0. -/
def atom1 (code : Nat) (asked : Option Leaf) : AtomOpn := ⟨5, 0, code, none, [(31, 0, 1, 2)], [], [], asked⟩

/-- An ATOM at its home, one inside a transaction, and one that waits for an earlier load of its word. -/
theorem wit_AccessEventResults_atom :
    (let s := mapped (st id { tg [] with atoms := [atom1 8 none] })
     s.live = true ∧ s.blocked (.atom 0 0 5) = false ∧ s.standingMark 0 dev = false ∧
       both s (fun r k => (k.atoms.find? fun x => x.id == 5) == some (atom1 8 none) && !k.atomWaits r 0 (atom1 8 none) &&
         leafAt s (groupAcc r (.atom 0 0 5) 0 3) (byteKey r.ctx 0) == some dev && rest s r.core (byteKey r.ctx 0) dev) = true) ∧
    (let o : AtomOpn := { atom1 8 none with tx := [31] }
     let s := mapped (st id { inside [] (tg []) with atoms := [o] })
     s.standingMark 0 dev = false ∧
     both s (fun r k => !k.atomWaits r 0 o && o.tx.contains 31 && (k.lane 31).tx.any (fun x => x.writes.isEmpty && s.txValid x) &&
       k.storeQ.isEmpty && rest s r.core (byteKey r.ctx 0) dev && decide (31 < k.lanes.length)) = true) ∧
    (let s := st id { tg [] with atoms := [atom1 8 none], loads := [{ load1 [(0, 0)] with id := 4 }] }
     both s (fun r k => k.atomWaits r 0 (atom1 8 none)) = true) := by decide +kernel

theorem wit_AccessEventResults_host :
    ([0, 7, 8].all fun code => [none, some hosted].all fun asked =>
      let s := { st id { tg [] with atoms := [atom1 code asked] } with dies := [(0, { DieRec.reset with tlb := [(0, hosted)] })] }
      s.live && s.reach 0 (portDie hosted.port) && s.cached 0 == some hosted && !s.physMark (hosted.phys 0) 4 && both s fun r k =>
        (k.atoms.find? fun y => y.id == 5 && y.asked == asked) == some (atom1 code asked) &&
        leafAt s (groupAcc r (.atom 0 0 5) 0 3) (byteKey r.ctx 0) == some hosted) = true ∧
    ({ State.reset with hostPoison := [(0, true)] }.physMark (hosted.phys 0) 4 = true) ∧
    ((atom1 8 (some hosted)).asked = some hosted ∧ hosted.host = true) := by decide

/-- An ATOM from die 1 to host memory over a cut, and one of an operation that PCI Express lacks. -/
theorem wit_AccessEventResults_host_cut :
    let s := fun (core code grp : Nat) => { st (fun r => { r with core := core }) { tg [] with atoms := [atom1 code none] } with
      dies := [(0, { DieRec.reset with tlb := [(0, hosted)] }), (1, { DieRec.reset with grp := BitVec.ofNat 4 grp })] }
    ([(s 40 8 2, 1), (s 0 3 15, 2)].all fun (e : State × Nat) => e.1.live && both e.1 fun r k => !k.atomWaits r 0 (atom1 (if e.2 = 1 then 8 else 3) none) &&
      leafAt e.1 (groupAcc r (.atom 0 0 5) 0 3) (byteKey r.ctx 0) == some hosted && e.1.reach (r.core / 40) (portDie hosted.port) == (e.2 == 2)) = true := by
  decide

theorem wit_AccessEventResults_fence :
    (let f : FenceOp := ⟨.rel, .die, ⟨false, false, false, false⟩, [9], []⟩
     let s := st id { tg [] with fences := [f], storeQ := [store1 0 .die false] }
     s.live = true ∧ ∃ n ∈ [9], (s.pendingIds 0 0).contains n = true) ∧
    (let s := st id { tg [] with fences := [⟨.acq, .die, ⟨false, false, false, false⟩, [], [5]⟩], loads := [load1 [(31, 124)]] }
     ∃ n ∈ [5], (s.pendingReads 0 0).contains n = true) ∧
    (let s := st id { tg [] with fences := [⟨.rel, .die, ⟨false, false, false, false⟩, [9], []⟩] }
     (∀ n ∈ [9], (s.pendingIds 0 0).contains n = false) ∧ (∀ n ∈ [5], (s.pendingReads 0 0).contains n = false) ∧ (s.l1Flush 0 0).outPending 0 0 = false ∧ (s.l1Flush 0 0).group 0 0 = s.group 0 0 ∧
       ((stuck s).l1Flush 0 0).outPending 0 0 = true) ∧
    (let s := st id { tg [] with held := .txbeg 6 0xFFFFFFFF 8 [9], storeQ := [store1 0 .die false] }
     (s.group 0 0).any (fun k => k.storeQ.any fun e => [9].contains e.id) = true) ∧
    (let s := st id { tg [] with held := .txbeg 6 0xFFFFFFFF 8 [9] }
     (s.l1Flush 0 0).group 0 0 = s.group 0 0 ∧ (s.group 0 0).isSome = true ∧ (s.l1Flush 0 0).outPending 0 0 = false ∧
       ((stuck s).l1Flush 0 0).outPending 0 0 = true) := by decide +kernel

theorem wit_AccessEventResults_hold :
    (let x : TxState := ⟨6, 0x20, [(7, 1)], [], [], [], []⟩
     { base with serials := [(7, 1)] }.txValid x = true ∧ base.txValid x = false ∧ ((inside [(7, 1)] (tg [])).lane 31).tx = some x) ∧
    ((grp fun i l => if i = 31 then { l with pass := some 0 } else l).lane 31).pass = some 0 ∧
    (let s := { base with clock := ⟨0, 16⟩ }
     s.live = true ∧ s.yieldOver (0, [(0, 0)]) = true ∧ base.yieldOver (0, []) = false) := by decide

/-- A task's group that waits at DEVELOP with one byte held; and a forced develop of the same byte. -/
def developing (forced : Bool) : State :=
  let v : Version := { Version.empty with bytes := [(5, (0xAA, false))] }
  { mapped (st (fun r => { r with d := { r.d with latent := true }, ver := if forced then .empty else v
                                  dev := if forced then some ⟨v, true, none, 0⟩ else none })
    { tg [] with wait := if forced then .none else .develop 1 0 }) with clock := ⟨0, 1⟩ }

theorem wit_AccessEventResults_develop : ([false, true].all fun forced =>
    let s := developing forced
    s.live && (s.team 0).any fun r => s.developReady 0 r &&
      (let r1 := r.developing s.clock.cycle s.nextId
       r1.dev.any fun d => d.forced == forced && d.grp == (if forced then none else some 0) &&
         (match { (s.updTeam 0 fun _ => r1) with nextId := s.nextId + 1 }.xlates (groupAcc r1 (.develop 0) 0 2) d.ver.firsts with
          | .ok l => l == [dev]
          | _ => false))) = true ∧
    both (developing true) (fun r _ => !{ developing true with walks := [⟨3, 0, 0, 0, .develop 0, 0, 2, 0⟩] }.developReady 0 r) = true := by
  decide +kernel

/-- A group with an arrival, and one that holds an instruction back. -/
def holds (h : Held) (f : TeamRec → TeamRec := id) : State := st f { tg [] with held := h }

/-- Conditions of groups 1 and 0 in one cycle, after one of a later cycle. -/
def conds1 : List Cond := [⟨4, 2, 1, 0, 0, 0, 0, 8⟩, ⟨5, 1, 7, 0, 0, 0, 0, 7⟩, ⟨6, 0, 2, 0, 0, 0, 0, 7⟩]

/-- Launch-queue entries. -/
def entries (n : Nat) : List LaunchEnt := List.replicate n ⟨0, 0, 0, 0, 0, 0, 0⟩

/-- The tile instruction of the step worked by hand, at a bank. -/
def tile1 (k : TileKind) (w : List Word) : TileOp := ⟨4, 0, 0, 0, k, w, 3, 15, [], 0, true, none, []⟩

theorem wit_EngineEventResults_accept :
    (let s := st id { tg [] with arrivals := [⟨4, 15, 0, true, [9]⟩], storeQ := [store1 0 .die false] }
     s.live = true ∧ (s.group 0 0).any (fun k => [9].any fun n => k.lsIds.contains n) = true) ∧
    (let s := st id { tg [] with arrivals := [⟨4, 15, 0, true, [9]⟩] }
     (s.group 0 0).any (fun k => [9].all fun n => !k.lsIds.contains n) = true) ∧
    (let h : Held := .bulk [0, 0, 0, 0, 16] 15 false 0
     (holds h).live = true ∧ 16 ≤ ((full (holds h)).core 0).bulkQ.length ∧ ((holds h).core 0).bulkQ.length < 16 ∧
       8 ≤ ((full (holds h)).core 0).tileQ.length ∧ ((holds h).core 0).tileQ.length < 8) ∧
    (let s := holds (.launch 3 (entries 1) true true 0 1 [9])
     s.live = true ∧ ([9].all fun n => !(s.pendingIds 0 0).contains n) = true ∧
       ((s.l1Flush 0 0).outPending 0 0 || (true && (none : Option Develop).any fun d => decide (d.born ≤ 3))) = false ∧
       ((stuck s).l1Flush 0 0).outPending 0 0 = true ∧
       (Tab.get [] (s.l1Flush 0 0).launchQ 0).length + 1 ≤ 256 ∧
       256 < (Tab.get [] ({ s with launchQ := [(0, entries 256)] }.l1Flush 0 0).launchQ 0).length + 1 ∧
       (tm (fun r => { r with conds := conds1 }) (tg [])).barred 0 6 = true ∧ TeamRec.loaded.barred 0 3 = false ∧
       (some (⟨.empty, true, none, 3⟩ : Develop)).any (fun d => decide (d.born ≤ 3)) = true) ∧
    (let s := holds (.launch 3 (entries 16) false false 0 1 []) fun r => { r with d := { r.d with latent := true } }
     (s.team 0).any (fun r => r.d.latent && decide (r.ver.launches.length + 16 ≤ 16) && !decide (r.ver.launches.length + 17 ≤ 16)) = true) ∧
    (let s := holds (.launch 3 (entries 16) false false 0 1 []) fun r =>
       { r with d := { r.d with latent := true }, dev := some ⟨{ Version.empty with launches := entries 1 }, true, none, 4⟩ }
     (s.team 0).any (fun r => r.d.latent && decide (16 < r.ver.launches.length + (r.dev.map fun d => d.ver.launches.length).getD 0 + 16)) = true) := by
  decide +kernel

/-- A CPY of lane 31 from address 128 to 0. -/
def copy1 : CopyOp := ⟨4, 0, 0, 16, 15, false, [(31, 0, 128)], false, []⟩

/-- What the two ends of a copy find. -/
def endsAt (s : State) (a : Nat → Acc) (ks kd : Nat) (held : Bool) : Option (List Leaf) :=
  match s.copyLeaves a ks kd held with
  | .ok ls => some ls
  | _ => none

theorem wit_EngineEventResults_copy :
    (let s := mapped (st (fun r => { r with copies := [copy1] }) (tg []))
     s.live = true ∧ s.attachedAt (.copy 0 4) [128, 0] = false ∧ (s.team 0).any (fun r =>
       (r.copies.find? fun x => x.id == 4) == some copy1 && !r.engineWaits 0 4 0 && r.ver == .empty && r.dev.isNone &&
       endsAt s (fun acc => groupAcc r (.copy 0 4) 1 acc) (byteKey r.ctx 128) (byteKey r.ctx 0) (r.d.latent && !copy1.esc) == some [dev, dev] &&
       rest s r.core (byteKey r.ctx 128) dev && rest s r.core (byteKey r.ctx 0) dev) = true) ∧
    (let c := { copy1 with got := [(31, [(0xAA, false)])] }
     (c.got.find? fun e => e.1 == 31) = some (31, [(0xAA, false)]) ∧ (copy1.got.find? fun e => e.1 == 31) = none ∧
       TeamRec.loaded.barred 0 4 = false ∧ (tm (fun r => { r with conds := conds1 }) (tg [])).engineWaits 0 6 0 = true ∧
       (tm (fun r => { r with barq := [⟨4, 15, 0, 0, .arrive 16 false false⟩] }) (tg [])).engineWaits 0 4 0 = true ∧
       { State.reset with faults := [{ fault0 with reqs := [(.copy 0 4, 0)] }] }.attachedAt (.copy 0 4) [128, 0] = true) := by decide +kernel

/-- A bulk copy of 16 bytes from address 128 to 0, or to or from peer 0. -/
def bulk1 (remote dir : Bool) : BulkOp := ⟨4, 0, 0, 0, 0, 0, 128, 0, 16, dir, remote, true, 0, false, 0, 0, 15, false, [(0, 1)], [], false, 0, false, []⟩

theorem wit_EngineEventResults_bulk :
    (let s := { mapped base with cores := [(159, { CoreRec.reset with bulkQ := [bulk1 false false] })] }
     s.live = true ∧ ((s.core 159).bulkQ.find? fun y => y.id == 4) = some (bulk1 false false) ∧ hasChunk [(0, 1)] 0 = true ∧
       s.attachedAt (.bulk 159 4) ((bulk1 false false).keys 0) = false ∧ (s.team 0).any (fun r => !r.engineWaits 0 4 0 && r.ctx == 0 && r.ver == .empty && r.dev.isNone &&
         endsAt s (fun acc => groupAcc r (.bulk 159 4) 1 acc) 128 0 (r.d.latent && true) == some [dev, dev] &&
         rest s r.core 128 dev && rest s r.core 0 dev) = true) ∧
    ([false, true].all fun dir =>
      let s := { mapped base with cores := [(159, { CoreRec.reset with bulkQ := [bulk1 true dir] })], dram := [(20, 128), (21, 1)] }
      (s.peer 0 0 0).any (fun p => s.ethPort p.ports 0 == some 7) && (s.team 0).any fun r =>
        (match s.xlates (groupAcc r (.bulk 159 4) 1 1) [128] with | .ok l => l == [dev] | _ => false)) = true ∧
    (base.peer 0 0 0 = none) ∧
    (let b := { bulk1 false false with got := [(0, [(0xAA, false)])] }
     (b.got.find? fun e => e.1 == 0) = some (0, [(0xAA, false)]) ∧ ((bulk1 false false).got.find? fun e => e.1 == 0) = none ∧
       (bulk1 false false).ctx = 0 ∧ 128 % 16 = 0) := by decide +kernel

/-- The descriptor of the worked step with its matrices at address 0, and rows of 32 elements. -/
def loop0 : List Word := [0, 0x0E000000, 0, 0x0E000000, 0x00010001, 0x00010001, 0x02000001, 2]

/-- A tile queue of one entry, with the first 2 MiB mapped. -/
def tiled (o : TileOp) : State :=
  { base with dies := [(0, { DieRec.reset with tlb := [(0, ⟨0xFB, 1, none⟩)] })], cores := [(159, { CoreRec.reset with tileQ := [o] })] }

/-- What a tile unit's read or write comes to. -/
def tileOk (x : TileIo) (p : List (List (Byte × Bool)) → Bool := fun _ => true) : Bool :=
  match x with
  | .ok bs _ => p bs
  | _ => false

theorem wit_TileEventResults_loop :
    (let o := { tile1 (.loop .var1 false true) loop0 with begun := false }
     let s := tiled o
     s.live = true ∧ ((s.core 159).tileQ.find? fun y => y.id == 4) = some o ∧ tileHead (s.core 159).tileQ o = true ∧
       loopStart loop0 < loopEnd loop0 ∧ loopStart (loop0.set 6 0) = loopEnd (loop0.set 6 0) ∧
       0 < loopM loop0 ∧ 0 < loopN loop0 ∧ loopM loop0 ≤ 16383 / 128 ∧
       (s.team 0).any (fun r => s.tileReady 159 r o) = true ∧
       ([s, { s with dramPoison := [(0, true)] }].map fun s => (s.team 0).any fun r =>
         tileOk ((s.loopBegin 159 o false).tileRead r (groupAcc r (.tile 159 4) 2 1) ((stepPlanes .var1).flatMap fun p =>
           (List.range (if p.1 then loopN loop0 else loopM loop0)).flatMap fun i => blockRanges loop0 p.1 p.2 i (loopStart loop0 + 0)))
           fun bs => bs.all fun l => l.all fun b => !b.2) = [true, false]) ∧
    (let o := { tile1 (.loop .var1 false true) (loop0.set 6 0) with begun := false }
     let s := tiled o
     (s.team 0).any (fun r => s.tileReady 159 r o) = true ∧ tileHead (s.core 159).tileQ o = true) ∧ isMx 0 = false ∧ isMx 7 = true := by
  decide +kernel

/-- Whether the pieces of a row are written as one statement has it: with their leaves, or in a task as far as its version takes them. -/
def rowOk (i : Instr) (s : State) (core : Nat) (o : TileOp) (r : TeamRec) (u : State) (ps : List (Nat × List Byte)) : Nat :=
  if r.d.latent then
    match u.tilePieces o r (ps.map fun p => (p, ⟨0, 0, none⟩)) with
    | ([], _) => 4
    | _ => 5
  else
    match (u.updTile core o.id o.steps fun o => { o with row := ps }).xlates (groupAcc r (.tile core o.id) 2 2) (ps.map fun p => byteKey r.ctx p.1) with
    | .ok _ => if (match exec i s with | .next _ => true | _ => false) then 1 else 0
    | .wait _ => 2
    | .bad _ _ _ _ => 3

/-- The first row of a TQNT at the head of the queue, and a row whose cells have been read; a marked cell; and a row of which a piece is
still to be written, whose page is mapped, absent, or read-only, or which a task holds. -/
theorem wit_TileEventResults_quantise :
    ([none, some [List.replicate 32 ⟨0x3F800000, 0, false⟩]].all fun c =>
     let o := { tile1 (.qnt false true) [0, 0, 0x00010001, 0x00010001] with cells := c }
     let s := tiled o
     let cells := (o.cells.getD ((s.core 159).window o)).getD 0 []
     let s0 := s.updTile 159 4 o.steps fun o => { o with begun := true, cells := some (o.cells.getD ((s.core 159).window o)) }
     (o.cells.isSome || tileHead (s.core 159).tileQ o) && o.row.isEmpty && (cells.all fun c => !c.poison) && (s.team 0).any fun r =>
       s.tileReady 159 r o &&
         (let mean := rowMean 0 .rne (cells.mapIdx fun _ x => (x.mean, 0))
          rowOk (.tqntRow 159 4) s 159 o r s0 (cutLines (rowRanges 0 65536 (mean.1, mean.2.1))) == 1)) = true ∧
    (let o := { tile1 (.qnt false true) [0, 0, 0x00010001, 0x00010001] with cells := some [[⟨0, 0, true⟩]] }
     (o.cells.getD []).getD o.next [] = [⟨0, 0, true⟩] ∧ o.row = []) ∧
    (let o := { tile1 (.qnt false true) [0, 0, 0x00010001, 0x00010001] with row := [(0, [0xAA])] }
     let absent := { tiled o with dies := [] }
     let readOnly := { tiled o with dies := [(0, { DieRec.reset with tlb := [(0, ⟨0x0B, 1, none⟩)] })] }
     let task := { tiled o with teams := base.teams.map fun e => (e.1, { e.2 with d := { e.2.d with latent := true } }) }
     ([tiled o, absent, readOnly, task].map fun s => (s.team 0).elim 0 fun r => rowOk (.tqntRow 159 4) s 159 o r s o.row) = [1, 2, 3, 4] ∧
     (base.team 0).any (fun r => rest (tiled o) r.core (byteKey r.ctx 0) ⟨0xFB, 1, none⟩ && decide (byteKey r.ctx 0 % 128 + 1 ≤ 128)) = true) ∧
    0 < qntM [0, 0, 0x00010001, 0x00010001] := by decide +kernel

/-- A task whose version is full writes nothing more of a row. -/
theorem wit_TileEventResults_row_held :
    let o := { tile1 (.had .h32 false) hadDesc with row := [(0, [0xAA])] }
    ∀ r, (holding 32768).team 0 = some r →
      r.d.latent = true ∧ r.dev = none ∧ r.ver.isEmpty = false ∧ 32768 < (r.ver.add (byteKey r.ctx 0) [(0xAA, false)]).lines ∧ o.row ≠ [] := by
  intro o r h
  obtain rfl := (Option.some.inj h).symm
  refine ⟨rfl, rfl, rfl, ?_, by decide⟩
  show 32768 < (Version.add { Version.empty with bytes := (List.range' 1 32768).map fun i => (128 * i, (1, false)) } 0 [(0xAA, false)]).lines
  rw [lines_add_first]
  decide

/-- A row of THAD that is read, one of which a byte is marked, and one of which a piece is still to be written. -/
theorem wit_TileEventResults_transform :
    (let o := tile1 (.had .h32 false) hadDesc
     let s := tiled o
     let m := { s with dramPoison := [(0, true)] }
     ([s, m].map fun s => (s.team 0).any fun r => s.tileReady 159 r o &&
       tileOk (s.tileRead r (groupAcc r (.tile 159 4) 2 1) [(0, 128)]) fun bs => (bs.getD 0 []).all fun b => !b.2) = [true, false] ∧
     (m.team 0).any (fun r => tileOk (m.tileRead r (groupAcc r (.tile 159 4) 2 1) [(0, 128)]) fun bs => (bs.getD 0 []).any fun b => b.2) = true) ∧
    (let o := { tile1 (.had .h32 false) hadDesc with row := [(0, [0xAA])] }
     let s := tiled o
     o.row ≠ [] ∧ (s.team 0).any (fun r => s.tileReady 159 r o && rowOk (.thadRow 159 4) s 159 o r s o.row == 1) = true) := by
  decide +kernel


/-! ### Witnesses: the protocol, the fabric and traps -/

/-- A message from die 3 to die 2 about line 0, whose home is die 0. -/
def msg1 (k : MsgKind) (valid : BitVec 8) : Msg := ⟨4, k, 0, 3, 2, 0, valid, 0, .s, dev, 255, []⟩

/-- A machine with that message, an entry of the line's directory and a copy in every die. -/
def proto (m : Msg) (e : DirEnt) (pins : Tab Nat := []) : State :=
  { State.reset with net := [m], dirs := [(0, e)], copies := (List.range 4).map fun d => (d, ⟨255, 0, 0, dev, []⟩)
                     dies := [(0, { DieRec.reset with pins := pins })] }

/-- The hypotheses that every clause of ProtocolResults shares. -/
def protoOk (m : Msg) (e : DirEnt) (pins : Tab Nat := []) : Bool :=
  let s := proto m e pins
  s.live && (s.net.find? fun y => y.id == 4) == some m && s.dirs.find m.line == some e && e.st.length == 4 && decide (m.src < 4) &&
    decide (m.dst < 4) && e.home == m.leaf.home (m.line * 128 % 2 ^ 57) && decide ((s.die e.home).shares.length < 8192) &&
    decide (s.copies.length < 32768)

/-- No die other than the home holds the line, or dies 2 and 3 share it. -/
def idleDir : DirEnt := ⟨0, [.s, .i, .i, .i], 0, none, 0⟩
def sharedDir : DirEnt := ⟨0, [.s, .i, .s, .s], 0, none, 0⟩

theorem wit_ProtocolResults_requests :
    (protoOk (msg1 .getS 0) idleDir [(0, 1)] = true ∧ idleDir.owner = none ∧ idleDir.state 3 = .i ∧
      (let s := proto (msg1 .getS 0) idleDir [(0, 1)]
       idleDir.holders.length < s.degree 0 0 dev ∧ s.filterFull (msg1 .getS 0) = false ∧
         (∀ y ∈ s.net, y.line = 0 → y.kind.put = false) ∧ (proto (msg1 .getS 0) idleDir [(0, 0)]).degree 0 0 dev = 0)) ∧
    ([MsgKind.getM, .upgrade, .fwdWrite].all fun k => protoOk (msg1 k 0) sharedDir && k.put == false && sharedDir.state 3 == .s &&
      sharedDir.holders == [2, 3] && (sharedDir.holders.filter fun d => d != 3) == [2]) = true := by decide +kernel

/-- A full set of the filter beside line 0. -/
theorem wit_ProtocolResults_filter :
    let s := { proto (msg1 .getS 0) idleDir with
               dirs := (0, idleDir) :: (List.range 64).map fun i =>
                 (393216 * (i + 1), { sharedDir with home := dev.home (393216 * 128 * (i + 1)), used := i + 1 }) }
    s.filterFull (msg1 .getS 0) = true ∧ (s.victim (msg1 .getS 0)).isSome = true := by decide +kernel

theorem wit_ProtocolResults_answers :
    ([MsgKind.putM, .putO, .putE, .putS].all fun k => protoOk (msg1 k 255) sharedDir && sharedDir.state 0 == .s) = true ∧
    (protoOk (msg1 .inv 0) sharedDir = true ∧ ((proto (msg1 .inv 0) sharedDir).copyAt 0 2).isSome = true ∧
      protoOk (msg1 .inv 0) { sharedDir with st := [.i, .i, .o, .s] } = true) ∧
    (let e : DirEnt := { sharedDir with txn := some ⟨1, 0, [2, 3], false⟩ }
     protoOk (msg1 .ack 0) e = true ∧ ([2, 3].filter fun d => d != 3) ≠ []) ∧
    (let e : DirEnt := { sharedDir with txn := some ⟨0, 1, [1], true⟩ }
     protoOk (msg1 .fwd 0) e = true ∧ 1 ≠ e.home ∧ [1].contains e.home = false ∧ ((proto (msg1 .fwd 0) e).copyAt 0 2).isSome = true) ∧
    (let e : DirEnt := { sharedDir with txn := some ⟨0, 2, [2, 3], true⟩ }
     protoOk (msg1 .data 255) e = true ∧ (msg1 .data 255).grant = .s ∧ [2, 3].contains 2 = true ∧ ([2, 3].filter fun d => d != 2) ≠ []) := by
  decide +kernel

/-- A packet for job 7 on port 7. -/
def pkt1 (addr : BitVec 64) (op : FabOp := .write) : Packet := ⟨1, 7, op, 0, addr, 0, false, 0, 16, false, false, 0, 0, 7⟩

/-- A machine that takes packets for job 7 in context 63, with page 0 of it mapped as `pte` says. -/
def jobs (tlb : List (Nat × Leaf)) (purge : Purge := Purge.reset) : State :=
  { State.reset with ctxs := [(63, { CtxRec.reset with jobid := 0x80000007, window := 2, purge := purge })]
                     dies := [(3, { DieRec.reset with tlb := tlb })] }

/-- What a packet's write meets: 0 its leaves, 1 a wait, 2 a refusal, 3 another wait, 4 a purge. -/
def meets (p : Packet) (s : State) : Nat :=
  match State.meet (packetAcc p 0 63 2) (lineKeys (byteKey 63 p.addr.toNat) 16) s with
  | .ok _ _ => 0
  | .wait _ t => if t.attached p then 3 else 1
  | .bad _ _ _ => 2
  | .held _ => 4

/-- Addresses at both ends: the last page is the shared window's. -/
theorem wit_FabricResults_arrivals :
    ((jobs []).live = true ∧ { jobs [] with pkg := { Pkg.reset with eth := 127 } }.pkg.eth.getLsbD (7 : Fin 8).val = false ∧
      (jobs []).pkg.eth.getLsbD (7 : Fin 8).val = true ∧ State.reset.jobCtx 7 = none ∧ (jobs []).jobCtx 7 = some 63) ∧
    ((2 ^ 57 - 16 : BitVec 64).toNat + 16 ≤ 2 ^ 57 ∧ 2 ^ 57 < (2 ^ 57 - 15 : BitVec 64).toNat + 16 ∧ (pkt1 0).sig = false ∧ (pkt1 0).hops = 0) ∧
    ((pkt1 0 .send).op ≠ .write ∧ (pkt1 0 .send).op ≠ .read ∧ { pkt1 0 with ri := 1 }.ri ≠ 0) ∧
    (let p := { pkt1 0 with ord := true, dst := 0 }
     (jobs []).nextChunk p 63 = packetChunk p ∧ (jobs []).nextChunk { p with addr := 16 } 63 ≠ packetChunk { p with addr := 16 }) ∧
    meets (pkt1 (2 ^ 57 - 16)) (jobs [(65 * 2 ^ 57 - 2 ^ 16, dev)]) = 0 ∧
    meets (pkt1 0) (jobs [(63 * 2 ^ 57, ⟨3, 0, none⟩)]) = 2 ∧ meets (pkt1 0) (jobs []) = 1 ∧
    meets (pkt1 0) (jobs [(63 * 2 ^ 57, dev)] { Purge.reset with busy := true, job := some (0, 16, 0, 2 ^ 64 - 1) }) = 4 := by decide

/-- A copy to or from peer 0 with chunk 0 sent and not acknowledged. -/
def sent1 (dir sig : Bool) : BulkOp := { bulk1 true dir with sent := [0], todo := [], sig := sig, len := 32 }

/-- The machine with that copy at core 159, at `ns` nanoseconds. -/
def pulling (b : BulkOp) (ns : Nat) : State :=
  { mapped base with clock := ⟨198 * ns, 0⟩, cores := [(159, { CoreRec.reset with bulkQ := [b] })] }

theorem wit_FabricResults_replies :
    ([sent1 false false, sent1 true false, sent1 false true].all fun b =>
      (pulling b 0).live && (pulling b 0).remoteOp 4 == some (159, b) && b.sent.contains 0) = true ∧
    ((sent1 false false).dir = false ∧ 0 < (sent1 false false).len / 16 ∧ (sent1 false false).sig = false ∧ (0 : Nat) ≠ 32 / 16) ∧
    ((sent1 true false).inTurn 0 = true ∧ ({ sent1 true false with todo := [(0, 1)], sent := [1] } : BulkOp).inTurn 1 = false ∧
      ((pulling (sent1 true false) 0).team 0).any (fun r =>
      match (pulling (sent1 true false) 0).xlates (groupAcc r (.bulk 159 4) 1 2) [byteKey 0 0] with
      | .ok ls => ((pulling (sent1 true false) 0).engineStore 0 0 4 0 r true 0
          (spoil false ((numBytes 0 16).map fun x => (x, true))) (ls.getD 0 dev) 0).1
      | _ => false) = true) ∧
    ((pulling (sent1 false false) 100000000).stalled (sent1 false false) = true ∧
      (pulling (sent1 false false) 99999999).stalled (sent1 false false) = false) := by decide +kernel

/-- A team past the first step of a trap of code `code`, in a context whose TRAPCTL and TRAPDESC are given. -/
def trapped (code : Nat) (ctl : BitVec 32) (desc : BitVec 64) : State :=
  let i : TrapInfo := ⟨⟨3, 0, code, 0, 0, 0, 0, 0⟩, 0, 0, 0, false, some (false, 0), 0⟩
  { mapped (st (fun r => { r with trap := some i, d := { r.d with latent := true } }) (tg [])) with
      ctxs := [(0, { CtxRec.reset with trapctl := ctl, trapdesc := desc })] }

theorem wit_TrapEventResults_begin :
    (let s := st (fun r => { r with budget := some 0 }) (tg [])
     (s.team 0).any (fun r => r.trap.isNone && r.budget == some 0 && r.lowestLive == some (0, tg [])) = true) ∧
    firstCond conds1 = some ⟨6, 0, 2, 0, 0, 0, 0, 7⟩ ∧
    (let s := st (fun r => { r with conds := conds1 }) (tg [])
     (s.team 0).any (fun r => r.trap.isNone && r.dev.isNone && firstCond r.conds == some ⟨6, 0, 2, 0, 0, 0, 0, 7⟩ &&
       r.groups.all fun (e : Nat × Group) => e.2.storeQ.isEmpty && e.2.atoms.isEmpty && e.2.waitsAt.isNone) = true) ∧
    (let k := { tg [] with wait := .launch, held := .launch 3 [] true false 0 1 [] }
     let s := st (fun r => { r with conds := conds1, groups := r.groups ++ [(1, k)] }) (tg [])
     (s.team 0).any (fun r => r.groups.any fun (e : Nat × Group) => e.1 != 0 && e.2.wait == .launch) = true) ∧
    (let i : TrapInfo := ⟨⟨3, 0, 1, 0, 0, 0, 0, 0⟩, 0, 0, 0, false, none, 0⟩
     ((tm (fun r => { r with trap := some i }) (tg [])).drained = true) ∧
       (tm (fun r => { r with trap := some i }) { tg [] with storeQ := [store1 0 .die false] }).drained = false) ∧
    ({ tg [] with wait := .launch, held := .launch 3 [] true false 0 1 [] }.waitsAt = some 3 ∧ { tg [] with wait := .develop 7 0 }.waitsAt = some 7 ∧
      3 < 6 ∧ ¬ 7 < 6 ∧ (tg []).waitsAt = none) ∧
    (let s := st (fun r => { r with conds := conds1 }) { tg [] with storeQ := [{ store1 0 .die false with id := 5 }] }
     (s.team 0).any (fun r => r.trap.isNone && firstCond r.conds == some ⟨6, 0, 2, 0, 0, 0, 0, 7⟩ &&
       r.groups.any fun (e : Nat × Group) => !(e.2.storeQ.filter fun x => e.1 != 0 || decide (x.id < 6)).isEmpty) = true) := by decide +kernel

/-- A record with a retry, one that is the last, one of a context without records, and one whose handler is to run. -/
theorem wit_TrapEventResults_record :
    ([trapped 7 0x80000010 0, trapped 7 0x80000000 0, trapped 7 0x80000000 64, trapped 1 0x10 0].all fun s => (s.team 0).any fun r =>
      s.live && (r.trap.any fun i => i.gone.isSome) && !s.blocked (.trapRec 0) && !s.slotBusy 0 0 && !(s.l1Flush 0 0).outPending 0 0 &&
      ((stuck s).l1Flush 0 0).outPending 0 0 && leafAt s ⟨.trapRec 0, 0, 4, 2, 0, 255⟩ (byteKey 0 0) == some dev) = true ∧
    ((trapped 7 0x80000010 0).team 0).any (fun r => r.trap.any fun i => (trapped 7 0x80000010 0).retries r i) = true ∧
    ([trapped 7 0x80000000 0, trapped 7 0x80000000 64].all fun s => (s.team 0).any fun r => r.handler.isNone && r.trap.any fun i => !s.retries r i) = true ∧
    (((trapped 1 0x10 0).ctx 0).trapctl.getLsbD 31 = false ∧ ((trapped 7 0x80000000 0).ctx 0).trapctl.getLsbD 31 = true ∧
      ((trapped 7 0x80000000 0).ctx 0).trapdesc = 0 ∧ ((trapped 7 0x80000000 64).ctx 0).trapdesc ≠ 0 ∧ (0 : Nat) + 128 * 0 + 128 ≤ 2 ^ 57) := by
  decide +kernel

/-! ### Witnesses: words, fetching and the step -/

theorem wit_DecodeEncodeRoundTrip :
    (let i : Instr := .ffma ⟨7, 2, true⟩ .Q (.v 16) (.v 8) (.v 12) (.d 1) .rup .nctl
     refusal i = none ∧ encode i = some [0x0F, 0xF2, 0x0A, 0x81, 0xC0, 0x10, 0x8E, 0x01]) ∧
    (let i : Instr := .iaddC16 3 (.v 20)
     refusal i = none ∧ encode i = some [0x62, 0xA0]) := by decide

/-- A team with 64 bytes of code in its caches: a 2-byte NOP at 0, and nothing else but zeros. -/
def coded (n : Nat) : TeamRec → TeamRec := fun r => { r with d := { r.d with clen := n }, icode := [(0, 0x001E), (3, 0)] }

theorem wit_LengthByLowBits :
    (decode [0x62, 0xA0] = .ok (.iaddC16 3 (.v 20), 2)) ∧
    (decode [0xB9, 0x23, 0x10, 0x18] = .ok (.faddS32 3 true (.v 8) (.v 4) (.v 6), 4)) ∧
    (decode [0x03, 0x07, 0x57, 0x40, 0x20, 0x21, 0x10, 0x00] = .ok (.ld ⟨0, 7, false⟩ (.v 5) (.g 4) .w32 .die false false 0x40, 8)) ∧
    (coded 64 TeamRec.loaded).fetch 0 = .instr .nopC16 0x001E := ⟨rfl, rfl, rfl, rfl⟩

/-- A machine whose group has a NOP at its issue address, with an agenda. -/
def nopState (a : List Turn) : State := { st (coded 64) (tg []) with agenda := a, issuing := none }

theorem wit_StepRunsTheNextThing_agenda :
    (coded 64 TeamRec.loaded).fetch 0 = .instr .nopC16 0x001E ∧ ((nopState []).group 0 0).bind Group.issueAddr = some 0 ∧
    (nopState [.event .powerOn]).agenda = .event .powerOn :: [] ∧ (0, 0) ∉ (nopState []).spent ∧
    (0, 0) ∈ { nopState [] with spent := [(0, 0)] }.spent ∧ TeamRec.loaded.fetch 0 = .bad 0 ∧
    ({ TeamRec.loaded with d := { TeamRec.loaded.d with clen := 64 } } : TeamRec).fetch 0 = .need 0 ∧
    ((nopState [.issue 0 0]).live = true ∧ (nopState []).select 0 0 = some (0, 0)) ∧ (nopState []).select 0 1 = none ∧
    (coded 1 TeamRec.loaded).fetch 0 = .bad 0 := by
  refine ⟨rfl, by decide, by decide, by decide, by decide, rfl, rfl, by decide, by decide, rfl⟩

/-- A live state with no event due: the identity has been derived. -/
def quiet (s : State) : State := { cold s with pkg := { (cold s).pkg with idStat := 2 } }

theorem wit_StepRunsTheNextThing_plan :
    (let s := quiet (nopState [])
     s.thermal.state ≠ .off ∧ s.thermal.state ≠ .tripped ∧ s.nextEvent = none ∧ s.nextIssue = some (0, 0, 0, 0)) ∧
    (let s := { quiet (nopState []) with net := [msg1 .putS 0], dirs := [(0, sharedDir)] }
     s.nextEvent.isSome = true) ∧
    (let s := quiet (st (fun r => { r with d := { r.d with clen := 64 } }) (tg []))
     s.nextEvent = none ∧ s.nextIssue = none ∧ s.nextFetch.isSome = true) ∧
    (let s := quiet State.reset
     s.nextEvent = none ∧ s.nextIssue = none ∧ s.nextFetch = none) := by decide +kernel

theorem wit_StepRunsTheNextThing_fetch :
    (TeamRec.loaded.d.clen ≤ 0) ∧ ((coded 64 TeamRec.loaded).codeByte 0 = some 0x1E ∧ (1 : Nat) < 0 + lengthOf 0x1E) ∧
    ((coded 64 TeamRec.loaded).codeBytes 62 2 = .ok [0, 0] ∧ (coded 64 TeamRec.loaded).codeBytes 0 2 = .ok [0x1E, 0] ∧
      decode [0x1E, 0] = .ok (.nopC16, 2) ∧ 0 + 2 ≤ (coded 2 TeamRec.loaded).d.clen) :=
  ⟨by decide, ⟨by decide, by decide⟩, rfl, rfl, rfl, by decide⟩

theorem wit_NothingStops :
    (let s := { State.reset with thermal := { Thermal.reset with state := .off } }
     s.agenda = [] ∧ s.thermal.state = .off) ∧
    ((tripped 2641 true).agenda = [] ∧ (tripped 2641 true).thermal.state = .tripped ∧
      ((tripped 2641 true).thermal.heldReset && (tripped 2641 true).coolEnough) = false) ∧
    ((tripped 2640 true).agenda = [] ∧ ((tripped 2640 true).thermal.heldReset && (tripped 2640 true).coolEnough) = true) := by decide

theorem wit_MemoryStaysCanonical :
    (let s := { nopState [.issue 0 0] with dram := descBytes }
     s.dram.wf = true ∧ s.host.wf = true ∧ (match step s with | .next _ => true | _ => false) = true) := by decide

theorem wit_IdleInstructionAdvances :
    (let i : Instr := .iadd h1 (.v 3) (.v 1) (.v 2)
     refusal i = none ∧ (encode i).isSome = true ∧ bankOf i = none ∧ ok base i (fun x => x.ex.isEmpty) = true) ∧
    (let i : Instr := .tloop h1 0 3 15 .var1 false
     refusal i = none ∧ (encode i).isSome = true ∧ bankOf i = some 3 ∧
       ok base i (fun x => x.ex.isEmpty && decide (3 < x.team.banks.length)) = true) := by decide

/-- Whether the group that issues satisfies a test. -/
def atIssue (s : State) (i : Instr) (p : Form → Ix → Bool) : Bool := (s.ix (formOf i)).any (p (formOf i))

theorem wit_IssueChecks_names :
    (let i : Instr := .iadd h0 (.v 223) (.v 1) (.v 2)
     refusal i = none ∧ (encode i).isSome = true ∧
       atIssue (st (fun r => { r with d := { r.d with roles := [⟨0, 16, 1⟩] } }) (tg [])) i
         (fun f x => f.illreg (x.team.alloc x.grp) == some 223) = true) ∧
    (let i : Instr := .tloop h0 0 3 15 .var1 false
     refusal i = none ∧ bankOf i = some 3 ∧ atIssue (st (fun r => { r with banks := [0, 1, 2] }) (tg [])) i (fun f x =>
       (f.illreg (x.team.alloc x.grp)).isNone && decide (x.team.banks.length ≤ 3)) = true) := by decide

theorem wit_IssueChecks_operands :
    (let i : Instr := .iadd h0 (.v 3) (.v 1) (.v 2)
     let g := { tg [] with nctl := 4, prods := [⟨.v 2, 5, 0, 0⟩] }
     refusal i = none ∧ bankOf i = none ∧ atIssue (st id g) i (fun f x => (f.illreg (x.team.alloc x.grp)).isNone && x.grp.strict && !f.loose &&
       (f.shortfall x.grp x.at_).isSome) = true) ∧
    (let i : Instr := .iadd h0 (.v 3) (.v 1) (.d 7)
     refusal i = none ∧ atIssue base i (fun f x => (f.illreg (x.team.alloc x.grp)).isNone && !x.grp.strict &&
       (f.uses.find? fun u => u.relayFails x.grp x.ex != []).isSome) = true) := by decide

/-- Lane 31's v1 is marked. -/
def poisoned : State := st id (grp fun i l => if i = 31 then { l with regs := [(1, ⟨5, true⟩)] } else l)

theorem wit_IssueChecks_marks : ([.iadd h0 (.v 3) (.v 1) (.v 2), .imad h0 (.v 3) (.v 2) (.v 2) (.v 1), .icmp h0 3 (.v 2) (.v 1) .lt false,
    .mov h0 .S (.v 8) (.v 0), .sel h0 .Q (.v 8) (.v 4) (.v 0) 7, .ffma h0 .P (.v 8) (.v 2) (.v 2) (.v 1) .rne .nctl,
    .cvt h0 .P (.v 2) (.v 1) .bf16 .f32 .sr, .brx h0 (.v 1), .ret h0 (.v 1), .callx h0 (.v 3) (.v 1), .fexp2 h0 .M (.v 2) (.v 0) .rne,
    .qpk h0 .M (.v 8) (.v 0) .sr .e2m3, .ld h0 (.v 4) (.v 0) .w32 .sys false false 0, .st h0 (.v 4) (.v 0) .w32 .sys false 0,
    .atom h0 .add (some (.v 4)) (.v 0) (.v 2), .launch h0 (.v 0) ⟨true, true, true, .xy⟩, .cpy h0 (.v 0) (.v 2) .n16 15 false false] : List Instr).all
    (fun i => ownMarks i && atIssue poisoned i fun f x => (f.illreg (x.team.alloc x.grp)).isNone && !x.grp.strict &&
      f.uses.all (fun u => (u.relayFails x.grp x.ex).isEmpty) && x.poisoned f == [31] && decide (15 < x.team.d.barriers)) = true := by decide

/-- Lane 0's v1 is marked; and a scalar word of a descriptor is. -/
theorem wit_IssueChecks_groupMarks :
    (let s := st id (grp fun i l => if i = 0 then { l with regs := [(1, ⟨5, true⟩)] } else l)
     ([.swr h0 (.v 1) 8, .budget h0 (.v 1), .binit h0 (.v 1) 15, .bexp h0 (.v 1) 15 true] : List Instr).all fun i =>
       atIssue s i fun f x => (f.illreg (x.team.alloc x.grp)).isNone && !x.grp.strict &&
         f.uses.all (fun u => (u.relayFails x.grp x.ex).isEmpty) && x.groupPoisoned f == [0]) = true ∧
    (let s := st id { tg [] with gregs := [(3, ⟨0, true⟩)] }
     ([.cpyb h0 0 15 false, .tloop h0 0 3 15 .var1 false, .tqnt h0 0 3 15 false false, .thad h0 0 .h16 15 false] : List Instr).all fun i =>
       atIssue s i fun f x => (f.illreg (x.team.alloc x.grp)).isNone && !x.grp.strict && decide (15 < x.team.d.barriers) &&
         f.uses.all (fun u => (u.relayFails x.grp x.ex).isEmpty) && decide (3 < x.team.banks.length) && lowest x 0 &&
         ((x.source f 0 0).take 4).any fun w => w.poison) = true := by decide

theorem wit_ReadinessRules :
    ((nopState []).team 0).isSome = true ∧ ((nopState []).group 0 0).bind Group.issueAddr = some 0 ∧ (nopState []).ready 0 0 = true ∧
    (nopState []).select 0 0 = some (0, 0) ∧
    ((ended false []).group 0 0).any (fun k => k.issueAddr.isNone) = true := by decide

theorem wit_HomeAddresses :
    (2 ^ 57 - 1 < 2 ^ 57 ∧ (⟨0xFB, 2, none⟩ : Leaf).host = false ∧ (⟨0xFB, 2, none⟩ : Leaf).pinned = false ∧ 3 < 4 ∧
      (2 ^ 57 - 1) / (⟨0xFB, 2, none⟩ : Leaf).size = (2 ^ 57 - 1) / (⟨0xFB, 2, none⟩ : Leaf).size) := by decide

end Sys2Proof.Tests
end

/-! STORE_DRAIN beside a clean copy that memory has overtaken.

A write through the physical aperture goes to the DRAM array past the slices (R334), so the home's clean copy of a line may hold other
bytes than memory. A store of another die then takes the line in M: the grant carries only the chunks that the store reads and those
that the home's copy has newer, and the home's copy goes (R231, R232). The other chunks of the line, which stood in that copy, now stand
as memory has them, so the store has not left every byte beside its own as it was. `State.AtRest` does not shut such a state out. -/

namespace Sys2Proof.StoreDrain

open Sys2Proof.Machine

/-- Page 0 of device memory, with every permission. Die 0 is the home of its line 0. -/
def page : Leaf := ⟨0xFB, 0, none⟩

/-- A store of one byte at address 0 at `.sys`. -/
def byteStore : StoreEnt := ⟨9, .store, 0, 0, 0, [0xAA], [false], .sys, false⟩

/-- A group with that store in its queue. -/
def group : Group := { Group.fresh with storeQ := [byteStore] }

/-- Its team, on the first core of die 1. -/
def team : TeamRec := { TeamRec.loaded with core := 40, groups := [(0, group)] }

/-- A running device: the home holds line 0 whole and clean, in E, with the zeros that memory has. -/
def cached : State :=
  { State.reset with
    thermal := { Thermal.reset with state := .run, band := .cold, sense := .cold }
    teams := [(0, team)]
    dirs := [(0, ⟨0, [.e, .i, .i, .i], 0, none, 0⟩)]
    copies := [(0, ⟨255, 0, 0, page, []⟩)] }

/-- The same once the host has written the byte 5 at 16 in DRAM, in the second chunk of the line. -/
def overtaken : State := cached.physAccess .a 16 (.write [5] false false)

/-- After the store has left its queue and the messages have been handled. -/
def stored : State := (overtaken.drainStore 0 0).settle

/-- An access through the physical aperture, where the port may make it (R334). -/
theorem memAccess_physical (s : State) (p : Port) (off : BitVec 32) (a : HostAcc) :
    s.memAccess p (.physical off a) = .ok (if s.pkg.auth != p then s.emit (.unsupported p)
      else s.physAccess p ((s.port p).physwin.toNat * 2 ^ 32 + off.toNat) a) := rfl

/-- The authority port's access with nothing before it goes to the DRAM array at once (R184, R334). -/
theorem exec_physicalApertureAccess_arrives {s : State} (off : BitVec 32) (a : HostAcc) (live : s.live = true) (first : s.hostQ = []) :
    exec (.physicalApertureAccess s.pkg.auth off a) s =
      .next (s.physAccess s.pkg.auth ((s.port s.pkg.auth).physwin.toNat * 2 ^ 32 + off.toNat) a) := by
  have passes : (⟨s.pkg.auth, .physical off a⟩ : HostWait).waits s.hostQ = false := by
    unfold HostWait.waits
    rw [first]
    split <;> rfl
  rw [exec_physicalApertureAccess, execPhysicalApertureAccess, clocked, if_pos live, State.hostArrive, passes,
    if_neg Bool.false_ne_true, memAccess_physical, bne_self_eq_false, if_neg Bool.false_ne_true]

/-- So the device comes to the second state from the first. -/
theorem physicalWrite_overtakes :
    exec (.physicalApertureAccess .a 16 (.write [5] false false)) cached = .next overtaken := by
  have window : (cached.port .a).physwin.toNat * 2 ^ 32 + (16 : BitVec 32).toNat = 16 := by decide
  refine (exec_physicalApertureAccess_arrives (s := cached) 16 _ (by decide) rfl).trans ?_
  exact congrArg (fun n => Host.Outcome.next (cached.physAccess .a n (.write [5] false false))) window

/-- Nothing is on its way, and no other die than the home holds the line. -/
theorem overtaken_atRest : overtaken.AtRest team.core 0 page := by
  have reach : ∀ a < 4, ∀ b < 4, overtaken.reach a b = true := by decide
  have noL1 : ∀ l, overtaken.l1 team.core (0 / 128) = some l → l.dirty = 0 := fun _ h => nomatch h
  exact ⟨by decide, rfl, rfl, by decide, fun a b ha hb => reach a ha b hb, by decide, rfl, by decide, rfl, noL1, by decide,
    by decide, by decide, by decide⟩

/-- Before the store the home's copy gives the byte at 16. -/
theorem overtaken_standing : overtaken.standing 16 page = 0 := by decide +kernel

/-- After it memory does: die 1 holds the first chunk alone, and the home's copy has gone. -/
theorem stored_standing : stored.standing 16 page = 5 := by decide +kernel

/-- The clocks run, so the store leaves its queue. -/
theorem execStoreDrain_overtaken : exec (.storeDrain 0 0) overtaken = .next (overtaken.drainStore 0 0) := rfl

/-- So the byte at 16 has changed, though the store wrote only the byte at 0. -/
theorem not_stands_stored : ¬ Stands stored overtaken 0 page byteStore.bytes := by
  intro ⟨sameLine, _⟩
  have h := sameLine 16 rfl
  rw [stored_standing, overtaken_standing] at h
  exact absurd h (by decide)

/-- The store meets every hypothesis of a store that goes to its home. -/
theorem not_storeDrainPart : ¬ StoreDrainPart := by
  intro h
  obtain ⟨_, goes⟩ := h 0 0 overtaken team group byteStore [] page (by decide) rfl rfl rfl rfl nofun
  obtain ⟨_, toMemory⟩ := goes (by decide)
  obtain ⟨_, toHome⟩ := toMemory (.inl rfl) (by decide) (by decide)
  obtain ⟨u, hu, _, stands, _⟩ := toHome nofun nofun overtaken_atRest (by decide)
  obtain rfl : overtaken.drainStore 0 0 = u := Host.Outcome.next.inj (execStoreDrain_overtaken.symm.trans hu)
  exact not_stands_stored stands

/-- Refutes O41: a store at `.sys` from another die changes a byte of its line that it does not write, where the home's clean copy
is older than memory. -/
theorem not_storeAndLoadEventResults : ¬ Obligations.StoreAndLoadEventResults := fun h => not_storeDrainPart h.1

end Sys2Proof.StoreDrain

/-! The words that the conversions and the lane network give (R66 to R75, R111 to R113, R122 to R125, R163). -/

namespace Sys2Proof.LaneResults

open Sys2Proof.Machine

/-! ### The first operand of a lane, by name -/

section
variable {x : Ix} {f : Form} {fld : Nat} {far : Bool} {us : List Use} {ra : Src} {sh : Shape}
  (hu : f.uses = { use fld ra sh with far := far } :: us)
include hu

/-- An instruction's first operand is the span of its source, whatever field names it and whichever lanes read it. -/
theorem laneIn_op_zero (l : Nat) : (x.laneIn f l).op 0 = x.span l ra sh := by
  simp only [Ix.laneIn, LaneIn.op, hu]
  rfl

theorem laneIn_w_zero (l j : Nat) : (x.laneIn f l).w 0 j = (x.span l ra sh).getD j 0 :=
  congrArg (·.getD j 0) (laneIn_op_zero hu l)

/-- The words that a reduction or a scan starts from are those of the executing lanes. -/
theorem netInputs_given : netInputs (x.ins f) = x.given ra sh := by
  rw [netInputs_ins]
  refine List.map_congr_left fun j _ => ?_
  simp only [List.contains_iff_mem, laneIn_op_zero hu]

end

/-! ### Conversions (R111, R113) -/

theorem givesSlots_cvt (h : Hd) (sh : Shape) (rd : LDst) (ra : Src) (dst src : Fmt) (rm : Rm) :
    GivesSlots (.cvt h sh rd ra dst src rm) (.lane rd (if sh = .P then fmtShape dst else sh)) (fun x l =>
        let a := x.span l ra (if sh = .P then fmtShape src else sh)
        match sh with
        | .P => natWords (fmtShape dst) (convertP dst rm (x.dither l rm 0) (fmtDecode src (wordsNat a)))
        | .S => (List.range 8).map fun j => word32 (convertF dst rm (x.dither l rm j) (f32 (a.getD j 0)))
        | _ => convertMom sh dst rm (x.dither l rm 0) (readMom a))
      (fun x l => x.drawn l rm (draws sh)) := by
  refine gives_slots (exec_cvt h sh rd ra dst src rm) rfl (fun x l => ?slots) (fun x l => ?words)
  case slots => exact congrArg Prod.snd (dithers_eq x _ l rm (draws sh))
  case words =>
    have hop : (x.laneIn (formOf (.cvt h sh rd ra dst src rm)) l).op 0 = x.span l ra (if sh = .P then fmtShape src else sh) :=
      laneIn_op_zero rfl l
    have hw (j : Nat) : (x.laneIn (formOf (.cvt h sh rd ra dst src rm)) l).w 0 j =
        (x.span l ra (if sh = .P then fmtShape src else sh)).getD j 0 := laneIn_w_zero rfl l j
    cases sh <;> simp only [dithers_eq, hop, hw]

theorem gives_qupk (h : Hd) (rd : LDst) (ra : Src) (f : EFmt) :
    Gives (.qupk h rd ra f) (.lane rd .P) (fun x l =>
      [elemWord f ((x.word l ra).toNat / 256 % 256) ((x.word l ra).toNat % 2 ^ elemWidth f)]) := by
  refine gives_lane (exec_qupk h rd ra f) rfl fun x l => ?_
  have hu : (formOf (.qupk h rd ra f)).uses = [use 1 ra .P] := rfl
  simp only [laneIn_w_zero hu, Ix.word]

/-- Settles O7: both instructions work on the span of their one source, and CVT's dithers are those of slot 3. -/
theorem conversionResults : Obligations.ConversionResults := fun h sh rd ra dst src rm f =>
  ⟨givesSlots_cvt h sh rd ra dst src rm, gives_qupk h rd ra f⟩

/-! ### Gathering from the executing lanes -/

/-- A lane instruction that takes no trap of its own where no lane reads a mark gives what its effect makes of each executing lane. -/
theorem givesNet_of_laneInstr {i : Instr} {own : Env → List LaneIn → Option (Nat × Nat × List Nat)}
    {eff : Env → List LaneIn → Nat → Lane × List Word} {d : Dest} {val : Ix → Nat → List Word} {sl : Ix → Nat → List Slot}
    (he : ∀ s, exec i s = laneInstr (formOf i) own eff s) (hd : (formOf i).dest = d)
    (ho : ∀ x : Ix, x.Unmarked (formOf i) → own x.env (x.ins (formOf i)) = none)
    (hv : ∀ (s : State) (x : Ix), s.ix (formOf i) = some x → ∀ l < 32,
      eff x.env (x.ins (formOf i)) l = ({ x.grp.lane l with slots := sl x l }, val x l)) : GivesNet i d val sl := by
  intro s x hI hu
  rw [he]
  exact laneInstr_gives hI hd (ho x hu) (fun l _ hl => congrArg Prod.fst (hv s x hI.here l hl))
    fun l _ hl => congrArg Prod.snd (hv s x hI.here l hl)

/-- What the executing lanes bring and the others do not, in lane order. -/
theorem map_ins_ex {α : Type} (x : Ix) (f : Form) (g : LaneIn → α) (d : α) :
    (x.ins f).map (fun l => if l.ex then g l else d) = (List.range 32).map fun j => if j ∈ x.ex then g (x.laneIn f j) else d := by
  rw [Ix.ins_eq, List.map_map]
  refine List.map_congr_left fun j _ => ?_
  have hex : (x.laneIn f j).ex = x.ex.contains j := rfl
  simp only [Function.comp_apply, hex, List.contains_iff_mem]

section
variable {s : State} {f : Form} {x : Ix} (h : s.ix f = some x)
include h

/-- The executing lanes that satisfy a test of their operands, in lane order. -/
theorem filter_ins_map_n (p : LaneIn → Bool) :
    ((x.ins f).filter fun l => l.ex && p l).map (·.n) = x.ex.filter fun j => p (x.laneIn f j) := by
  have hs : (x.ins f).filter (fun l => l.ex && p l) = ((x.ins f).filter (·.ex)).filter p := by
    rw [List.filter_filter]
    exact List.filter_congr fun l _ => Bool.and_comm _ _
  rw [hs, Ix.ins_filter h, List.filter_map, List.map_map]
  exact List.map_id _

/-- The lowest executing lane. -/
theorem find?_ins_ex : (x.ins f).find? (·.ex) = x.ex.head?.map (x.laneIn f) := by
  rw [← List.head?_filter, Ix.ins_filter h, List.head?_map]

end

/-! ### SHFL (R123) -/

theorem segWidth_eq (wl : Fin 6) : segWidth wl = 2 ^ (5 - wl.val) := by decide +revert
theorem segWidth_mul (wl : Fin 6) : segWidth wl * 2 ^ wl.val = 32 := by decide +revert

/-- A lane reads within its own segment, so within the group. -/
theorem shflSrc_lt (m : ShMode) (wl : Fin 6) {l : Nat} (k : Nat) (hl : l < 32) : shflSrc m (segWidth wl) l k < 32 := by
  have hn := segWidth_eq wl
  have hc := segWidth_mul wl
  generalize segWidth wl = w at hn hc
  have hw : 0 < w := by rw [hn]; exact Nat.two_pow_pos _
  have hk : k % w < w := Nat.mod_lt _ hw
  have seg : l - l % w + w ≤ 32 := by
    have hq : l / w < 2 ^ wl.val := Nat.div_lt_of_lt_mul (by omega)
    calc l - l % w + w = w * (l / w + 1) := by have := Nat.div_add_mod l w; rw [Nat.mul_add]; omega
      _ ≤ w * 2 ^ wl.val := Nat.mul_le_mul_left w hq
      _ = 32 := hc
  have hm := Nat.mod_lt l hw
  have hle := Nat.mod_le l w
  cases m with
  | idx => show l - l % w + k % w < 32; omega
  | up => simp only [shflSrc]; split <;> omega
  | down => simp only [shflSrc]; split <;> omega
  | xor =>
    have hx : Nat.xor (l - (l - l % w)) (k % w) < w := by
      rw [hn] at *
      exact Nat.xor_lt_two_pow (by omega) hk
    show l - l % w + _ < 32
    omega

theorem exec_shfl_eq (h : Hd) (sh : Shape) (rd : LDst) (ra rb : Src) (m : ShMode) (wl : Fin 6) (s : State) :
    exec (.shfl h sh rd ra rb m wl) s = laneInstr (formOf (.shfl h sh rd ra rb m wl))
      (gatherPoison fun ins i => [shflSrc m (segWidth wl) i ((laneAt ins i).w 1 0).toNat])
      (fun _ ins i => ((laneAt ins i).lane, (laneAt ins (shflSrc m (segWidth wl) i ((laneAt ins i).w 1 0).toNat)).op 0)) s := rfl

theorem givesNet_shfl (h : Hd) (sh : Shape) (rd : LDst) (ra rb : Src) (m : ShMode) (wl : Fin 6) :
    GivesNet (.shfl h sh rd ra rb m wl) (.lane rd sh) (fun x l =>
      x.span (shflSrc m (32 / 2 ^ wl.val) l (x.word l rb).toNat) ra sh) Ix.slots := by
  refine givesNet_of_laneInstr (exec_shfl_eq h sh rd ra rb m wl) rfl (fun x hu => gatherPoison_none hu _ _) fun s x hx l hl => ?_
  dsimp only
  rw [Ix.laneAt_ins x _ hl, Ix.laneAt_ins x _ (shflSrc_lt m wl _ hl), laneIn_op_zero rfl]
  rfl

/-! ### VOTE and MATCH (R124) -/

theorem givesNet_vote (h : Hd) (rd : LDst) (pa : Pred) (m : VoteMode) :
    GivesNet (.vote h rd pa m) (.lane rd .P) (fun x _ => [voteWord m (x.ex.map fun j => (j, x.pred j pa))]) Ix.slots := by
  refine givesNet_of_laneInstr (exec_vote h rd pa m) rfl (fun _ _ => rfl) fun s x hx l hl => ?_
  rw [Ix.laneAt_ins x _ hl, Ix.ins_filter hx, List.map_map]
  rfl

section
variable (ls : List Nat) (p : Nat → Bool)

theorem voteWord_all : voteWord .all (ls.map fun j => (j, p j)) = if ls.all p then 1 else 0 := by
  simp [voteWord, boolWord, List.all_map, Function.comp_def]

theorem voteWord_any : voteWord .any (ls.map fun j => (j, p j)) = if ls.any p then 1 else 0 := by
  simp [voteWord, boolWord, List.any_map, Function.comp_def]

/-- All lanes agree where the predicate is true in all of them, or false in all of them. -/
theorem voteWord_eq :
    voteWord .eq (ls.map fun j => (j, p j)) = if ls.all p || ls.all fun j => !p j then 1 else 0 := by
  simp [voteWord, boolWord, List.all_map, List.any_map, Function.comp_def, List.not_any_eq_all_not]

theorem voteWord_ballot : voteWord .ballot (ls.map fun j => (j, p j)) = maskOf (ls.filter p) := by
  simp [voteWord, List.filter_map, Function.comp_def]

end

theorem givesNet_match (h : Hd) (rd : LDst) (ra : Src) :
    GivesNet (.match h rd ra) (.lane rd .P) (fun x l => [maskOf (x.ex.filter fun j => x.word j ra == x.word l ra)]) Ix.slots := by
  refine givesNet_of_laneInstr (exec_match h rd ra) rfl (fun x hu => gatherPoison_none hu _ _) fun s x hx l hl => ?_
  dsimp only
  rw [Ix.laneAt_ins x _ hl, filter_ins_map_n hx]
  have hu : (formOf (.match h rd ra)).uses = [use 1 ra .P] := rfl
  simp only [laneIn_w_zero hu]
  rfl

/-! ### LRED and LSCN (R125) -/

theorem givesNet_lred (h : Hd) (sh : Shape) (rd : LDst) (ra : Src) (op : RedOp) (wl : Fin 6) :
    GivesNet (.lred h sh rd ra op wl) (.lane rd sh) (fun x l =>
      ((netTree op sh x.env.noise (5 - wl.val) (x.given ra sh)).getD (l / (32 / 2 ^ wl.val)) none).getD []) Ix.slots := by
  refine givesNet_of_laneInstr (exec_lred h sh rd ra op wl) rfl (fun x hu => gatherPoison_none hu _ _) fun s x hx l hl => ?_
  dsimp only
  rw [Ix.laneAt_ins x _ hl, netInputs_given rfl]
  rfl

theorem exec_lscn_eq (h : Hd) (sh : Shape) (rd : LDst) (ra : Src) (op : RedOp) (wl : Fin 6) (excl : Bool) (s : State) :
    exec (.lscn h sh rd ra op wl excl) s = laneInstr (formOf (.lscn h sh rd ra op wl excl))
      (gatherPoison (gatherSeg (segWidth wl) true)) (fun e ins i =>
        let l := netScan op sh e.noise (segWidth wl) (5 - wl.val) 0 (netInputs ins)
        let v := if excl then (if i % segWidth wl = 0 then none else l.getD (i - 1) none) else l.getD i none
        ((laneAt ins i).lane, v.getD (netIdentity op sh))) s := rfl

theorem givesNet_lscn (h : Hd) (sh : Shape) (rd : LDst) (ra : Src) (op : RedOp) (wl : Fin 6) (excl : Bool) :
    GivesNet (.lscn h sh rd ra op wl excl) (.lane rd sh) (fun x l =>
      let w := 32 / 2 ^ wl.val
      let v := netScan op sh x.env.noise w (5 - wl.val) 0 (x.given ra sh)
      ((if excl then (if l % w = 0 then none else v.getD (l - 1) none) else v.getD l none).getD (netIdentity op sh))) Ix.slots := by
  refine givesNet_of_laneInstr (exec_lscn_eq h sh rd ra op wl excl) rfl (fun x hu => gatherPoison_none hu _ _) fun s x hx l hl => ?_
  dsimp only
  rw [Ix.laneAt_ins x _ hl, netInputs_given rfl]
  rfl

theorem laneNetworkPart : LaneNetworkPart := by
  intro h sh rd ra rb pa m wl op excl
  have vote (k : VoteMode) := givesNet_vote h rd pa k
  refine ⟨givesNet_shfl h sh rd ra rb m wl, ?all, ?any, ?eq, ?ballot, givesNet_match h rd ra, givesNet_lred h sh rd ra op wl,
    givesNet_lscn h sh rd ra op wl excl⟩
  case all => simpa only [voteWord_all] using vote .all
  case any => simpa only [voteWord_any] using vote .any
  case eq => simpa only [voteWord_eq] using vote .eq
  case ballot => simpa only [voteWord_ballot] using vote .ballot

/-! ### QPK and GCAT (R73, R112, R163) -/

/-- QPK's block is that of the executing lanes' means, each with its dither, and of +0 for the other lanes. -/
theorem packBlock_ins (x : Ix) (h : Hd) (sh : Shape) (rd : LDst) (ra : Src) (rm : Rm) (f : EFmt) :
    packBlock sh rm f x.env (x.ins (formOf (.qpk h sh rd ra rm f))) = quantise f rm ((List.range 32).map fun j =>
      if j ∈ x.ex then
        (if sh = .M then (readMom (x.span j ra sh)).mean else f32 ((x.span j ra sh).getD 0 0), x.dither j rm 0)
      else (.num false Frac.zero, 0)) := by
  have hu : (formOf (.qpk h sh rd ra rm f)).uses = [use 1 ra sh] := rfl
  rw [packBlock, map_ins_ex]
  simp only [dithers_eq, laneIn_op_zero hu, laneIn_w_zero hu]

/-- A lane's packed words depend on its number and its first operand alone. -/
theorem packWords_congr (sh : Shape) (rm : Rm) (f : EFmt) (b : Block) {l k : LaneIn} (hn : l.n = k.n) (ho : l.op 0 = k.op 0) :
    packWords sh rm f b l = packWords sh rm f b k := by
  simp only [packWords, hn, ho]

theorem givesNet_qpk (h : Hd) (sh : Shape) (rd : LDst) (ra : Src) (rm : Rm) (f : EFmt) :
    let mean := fun (x : Ix) j => if sh = .M then (readMom (x.span j ra sh)).mean else f32 ((x.span j ra sh).getD 0 0)
    let block := fun (x : Ix) => quantise f rm ((List.range 32).map fun j =>
      if j ∈ x.ex then (mean x j, x.dither j rm 0) else (.num false Frac.zero, 0))
    GivesNet (.qpk h sh rd ra rm f) (.lane rd sh)
      (fun x l => packWords sh rm f (block x) ⟨l, true, x.grp.lane l, [x.span l ra sh], []⟩)
      (fun x l => if (block x).k.isSome then x.drawn l rm 1 else x.slots l) := by
  intro mean block
  refine givesNet_of_laneInstr (exec_qpk h sh rd ra rm f) rfl (fun _ _ => rfl) fun s x hx l hl => ?_
  have hb : packBlock sh rm f x.env (x.ins (formOf (.qpk h sh rd ra rm f))) = block x := packBlock_ins x h sh rd ra rm f
  have hw := packWords_congr sh rm f (block x) (k := ⟨l, true, x.grp.lane l, [x.span l ra sh], []⟩)
    (l := x.laneIn (formOf (.qpk h sh rd ra rm f)) l) rfl (laneIn_op_zero rfl l)
  simp only [hb, Ix.ins_get x _ hl, hw, dithers_eq]
  split <;> rfl

theorem givesNet_gcat (h : Hd) (rd : LDst) (ra : Src) (k : Fin 4) :
    let prefixes := fun (x : Ix) => catPrefix ((List.range 32).map fun j =>
      if j ∈ x.ex then catWeight (f32 (x.word j ra)) else .num false Frac.zero)
    GivesNet (.gcat h rd ra k) (.lane rd .P)
      (fun x _ => [catChoice (prefixes x) ((x.ex.head?.map fun j => x.grainWord j k.val 0 0).getD 0)])
      (fun x l => x.taken l k.val 1) := by
  intro prefixes
  refine givesNet_of_laneInstr (exec_gcat h rd ra k) rfl (fun x hu => gatherPoison_none hu _ _) fun s x hx l hl => ?_
  have hu : (formOf (.gcat h rd ra k)).uses = [use 1 ra .P] := rfl
  simp only [map_ins_ex, laneIn_w_zero hu, find?_ins_ex hx, Ix.ins_get x _ hl]
  cases x.ex.head? <;> rfl

/-- Settles O9: the operands of the executing lanes are gathered in lane order. -/
theorem laneNetworkResults : Obligations.LaneNetworkResults :=
  ⟨laneNetworkPart, fun h sh rd ra rm f k => ⟨givesNet_qpk h sh rd ra rm f, givesNet_gcat h rd ra k⟩⟩

end Sys2Proof.LaneResults

/-! A row of TQNT beside a clean copy that memory has overtaken.

As with a store (`Sys2Proof.StoreDrain`), the bytes of a row that a core of another die writes take their line in M: the grant carries
only the chunks that the home's copy has newer, and that copy goes (R231, R232). Where the host has written the line in DRAM through the
physical aperture (R334), the chunks beside the row stood in the home's clean copy, and now stand as memory has them: the row has changed
bytes that it does not write. -/

namespace Sys2Proof.TileRow

open Sys2Proof.Machine
open Sys2Proof.StoreDrain (page exec_physicalApertureAccess_arrives)

/-- The bytes of a row of 16 cells, all zero, in BF16. -/
def rowBytes : List Byte := List.replicate 32 0

/-- A TQNT of a 16 by 16 window in BF16 to address 32. It has read its cells, and its first row has been computed and is still to be
written, as after a wait for a translation. -/
def quantising : TileOp :=
  ⟨4, 0, 0, 0, .qnt false false, [32, 0x02000000, 0x00010002, 0], 0, 0, [], 0, true,
    some (List.replicate 16 (List.replicate 16 TileCell.zero)), [(32, rowBytes)]⟩

/-- The row is the one that its cells give. -/
theorem row_eq_qntRanges : quantising.row = cutLines (quantising.qntRanges 0 false false (List.replicate 16 TileCell.zero)) := by
  decide +kernel

/-- Its team, on the first core of die 1. -/
def team : TeamRec := { TeamRec.loaded with core := 40 }

/-- The device whose home, die 0, holds line 0 whole and clean, with that TQNT in the queue of core 40. -/
def cached : State :=
  { StoreDrain.cached with teams := [(0, team)], cores := [(40, { CoreRec.reset with tileQ := [quantising] })] }

/-- The same once the host has written the byte 5 at 16 in DRAM, in a chunk of the line that the row leaves alone. -/
def overtaken : State := cached.physAccess .a 16 (.write [5] false false)

/-- After the row's piece has been written at its home. -/
def written : State := (overtaken.tilePieces quantising team [((32, rowBytes), page)]).2

/-- So the device comes to the second state from the first. -/
theorem physicalWrite_overtakes :
    exec (.physicalApertureAccess .a 16 (.write [5] false false)) cached = .next overtaken :=
  exec_physicalApertureAccess_arrives (s := cached) 16 (.write [5] false false) (by decide) rfl

/-- Nothing is on its way, and no other die than the home holds the line. -/
theorem overtaken_atRest : overtaken.AtRest team.core 32 page := by
  have reach : ∀ a < 4, ∀ b < 4, overtaken.reach a b = true := by decide
  have noL1 : ∀ l, overtaken.l1 team.core (32 / 128) = some l → l.dirty = 0 := fun _ h => nomatch h
  exact ⟨by decide, rfl, rfl, by decide, fun a b ha hb => reach a ha b hb, by decide, rfl, by decide, rfl, noL1, by decide,
    by decide, by decide, by decide⟩

/-- Before the row the home's copy gives the byte at 16. -/
theorem overtaken_standing : overtaken.standing 16 page = 0 := by decide +kernel

/-- After it memory does: die 1 holds the row's chunks alone, and the home's copy has gone. -/
theorem written_standing : written.standing 16 page = 5 := by decide +kernel

/-- So the byte at 16 has changed, though the row stands from 32 on. -/
theorem not_stands_written : ¬ Stands written overtaken 32 page rowBytes := by
  intro ⟨sameLine, _⟩
  have h := sameLine 16 rfl
  rw [written_standing, overtaken_standing] at h
  exact absurd h (by decide)

/-- Nothing holds the row back. -/
theorem overtaken_tileReady : overtaken.tileReady 40 team quantising = true := by decide +kernel

/-- Its line is translated, by the tag of the home's copy (R321). -/
theorem overtaken_xlates : (overtaken.updTile 40 quantising.id quantising.steps fun o => { o with row := quantising.row }).xlates
    (groupAcc team (.tile 40 quantising.id) 2 2) [32] = .ok [page] := rfl

/-- The row meets every hypothesis of a row that is written at its home. -/
theorem not_rowEventPart : ¬ RowEventPart := by
  intro h
  obtain ⟨_, quantise, _⟩ := h 40 4 overtaken overtaken quantising team false false .h16 [] (by decide) rfl rfl overtaken_tileReady
  obtain ⟨goesOn, _, _⟩ := quantise rfl (.inl rfl)
  obtain ⟨outsideTask, _⟩ := goesOn nofun
  obtain ⟨translated, _, _⟩ := outsideTask rfl
  obtain ⟨v, pieces, _, stands⟩ := translated [page] overtaken_xlates
  obtain rfl : written = v := congrArg Prod.snd pieces
  exact not_stands_written (stands 32 rowBytes page rfl rfl overtaken_atRest (by decide))

/-- Refutes O44: a row of TQNT that a core of another die writes changes a byte of its line that it does not write, where the home's
clean copy is older than memory. -/
theorem not_tileEventResults : ¬ Obligations.TileEventResults := fun h => not_rowEventPart h.2

end Sys2Proof.TileRow

/-! The results of the float instructions in every shape and rounding mode (R83, R84, R86, R96, R103 to R109). -/

namespace Sys2Proof.FloatResults

open Sys2Proof.Machine
open Sys2Proof.LaneResults (laneIn_w_zero)

/-! ### Arithmetic and functions: one rule rounds once and propagates -/

/-- An instruction that executes as `floatOp` gives its shaped result, with a dither for each mean or sample under SR. -/
theorem givesFloat_of_floatOp {i : Instr} {rd : LDst} {sh : Shape} {rm : Rm} {pre : List Fl → Pre} {prop : Env → List Mom → Prop1}
    {args : Ix → Nat → List (List Word)} (hexec : ∀ s, exec i s = floatOp (formOf i) sh rm pre prop s)
    (hdest : (formOf i).dest = .lane rd sh) (hops : ∀ x l, (x.laneIn (formOf i) l).ops = args x l) :
    GivesFloat i rd sh rm pre prop args := by
  refine gives_slots hexec hdest (fun x l => ?slots) (fun x l => ?words)
  case slots => exact congrArg Prod.snd (dithers_eq x _ l rm (draws sh))
  case words => simp only [dithers_eq, hops]

/-- Settles O4: each instruction is the float rule on the spans of its sources, with its own exact result and derivatives. -/
theorem floatArithmeticResults : Obligations.FloatArithmeticResults := fun h sh rd ra rb rc rm sec =>
  ⟨givesFloat_of_floatOp (exec_fadd h sh rd ra rb rm) rfl fun _ _ => rfl,
   givesFloat_of_floatOp (exec_fsub h sh rd ra rb rm) rfl fun _ _ => rfl,
   givesFloat_of_floatOp (exec_fmul h sh rd ra rb rm sec) rfl fun _ _ => rfl,
   givesFloat_of_floatOp (exec_ffma h sh rd ra rb rc rm sec) rfl fun _ _ => rfl,
   givesFloat_of_floatOp (exec_fdiv h sh rd ra rb rm) rfl fun _ _ => rfl⟩

theorem floatFunctionPart : FloatFunctionPart := fun h sh rd ra rm =>
  ⟨givesFloat_of_floatOp (exec_frelu h sh rd ra rm) rfl fun _ _ => rfl,
   givesFloat_of_floatOp (exec_fsqrelu h sh rd ra rm) rfl fun _ _ => rfl,
   givesFloat_of_floatOp (exec_frcp h sh rd ra rm) rfl fun _ _ => rfl,
   givesFloat_of_floatOp (exec_fsqrt h sh rd ra rm) rfl fun _ _ => rfl,
   givesFloat_of_floatOp (exec_frsq h sh rd ra rm) rfl fun _ _ => rfl,
   givesFloat_of_floatOp (exec_fexp2 h sh rd ra rm) rfl fun _ _ => rfl,
   givesFloat_of_floatOp (exec_flog2 h sh rd ra rm) rfl fun _ _ => rfl,
   givesFloat_of_floatOp (exec_fsinpi h sh rd ra rm) rfl fun _ _ => rfl,
   givesFloat_of_floatOp (exec_fcospi h sh rd ra rm) rfl fun _ _ => rfl,
   givesFloat_of_floatOp (exec_ftanh h sh rd ra rm) rfl fun _ _ => rfl,
   givesFloat_of_floatOp (exec_fsigm h sh rd ra rm) rfl fun _ _ => rfl⟩

/-! ### FMIN and FMAX (R86, R105) -/

/-- The operand that FMIN or FMAX chooses: word by word, sample by sample, or as a whole moment. -/
def pickWords (sh : Shape) (mx : Bool) (a b : List Word) : List Word :=
  match sh with
  | .P => [chooseWord mx (a.getD 0 0) (b.getD 0 0)]
  | .S => (List.range 8).map fun j => chooseWord mx (a.getD j 0) (b.getD j 0)
  | _ => (chooseMom mx (readMom a) (readMom b)).words sh

/-- FMIN and FMAX draw the dithers of their shape under SR, though they round nothing (R96). -/
theorem givesSlots_of_pickOp {i : Instr} {rd : LDst} {sh : Shape} {rm : Rm} {mx : Bool} {a b : Ix → Nat → List Word}
    (hexec : ∀ s, exec i s = pickOp (formOf i) sh rm mx s) (hdest : (formOf i).dest = .lane rd sh)
    (hops : ∀ x l, (x.laneIn (formOf i) l).ops = [a x l, b x l]) :
    GivesSlots i (.lane rd sh) (fun x l => pickWords sh mx (a x l) (b x l)) (fun x l => x.drawn l rm (draws sh)) := by
  refine gives_slots hexec hdest (fun x l => ?slots) (fun x l => ?words)
  case slots => exact congrArg Prod.snd (dithers_eq x _ l rm (draws sh))
  case words => cases sh <;> simp only [LaneIn.w, LaneIn.op, hops, pickWords] <;> rfl

/-! ### FCMP and FCLASS (R107, R108) -/

/-- An instruction that executes as `predOp` gives the truth of its test on the first words of its operands. -/
theorem gives_of_predOp {i : Instr} {fn : Word → Word → Bool} {d : Dest} {val : Ix → Nat → List Word}
    (hexec : ∀ s, exec i s = predOp (formOf i) fn s) (hdest : (formOf i).dest = d)
    (hval : ∀ x l, [boolWord (fn (x.arg (formOf i) l 0 0) (x.arg (formOf i) l 1 0))] = val x l) : Gives i d val := by
  intro s x hI
  obtain ⟨s', hnext, hlands⟩ := predOp_lands hI fn
  rw [hdest] at hlands
  exact ⟨s', (hexec s).trans hnext, hlands.congr (fun l _ => hval x l) fun _ _ => rfl⟩

theorem gives_fcmp (h : Hd) (sh : Shape) (pd : Pred) (ra rb : Src) (cond : FCond) :
    Gives (.fcmp h sh pd ra rb cond) (.pred pd) (fun x l =>
      [if fcmp cond (f32 ((x.span l ra sh).getD 0 0)) (f32 ((x.span l rb sh).getD 0 0)) then 1 else 0]) := by
  refine gives_of_predOp (fn := fun a b => fcmp cond (f32 a) (f32 b)) (fun _ => rfl) rfl fun x l => ?_
  have hops : (x.laneIn (formOf (.fcmp h sh pd ra rb cond)) l).ops = [x.span l ra sh, x.span l rb sh] := rfl
  simp only [Ix.arg, LaneIn.w, hops, boolWord, List.getD_cons_zero, List.getD_cons_succ]

theorem gives_fclass (h : Hd) (sh : Shape) (rd : LDst) (ra : Src) :
    Gives (.fclass h sh rd ra) (.lane rd .P) (fun x l =>
      [BitVec.ofNat 32 (classMean ((x.span l ra sh).getD 0 0) + if sh = .M then classVar ((x.span l ra sh).getD 1 0) else 0)]) := by
  refine gives_lane (exec_fclass h sh rd ra) rfl fun x l => ?_
  have hu : (formOf (.fclass h sh rd ra)).uses = [use 1 ra sh] := rfl
  simp only [laneIn_w_zero hu]
  rfl

theorem floatChoicePart : FloatChoicePart := fun h sh st m pd rd ra rb sa sb rm cond =>
  ⟨givesSlots_of_pickOp (exec_fmin h sh rd ra rb rm) rfl fun _ _ => rfl,
   givesSlots_of_pickOp (exec_fmax h sh rd ra rb rm) rfl fun _ _ => rfl,
   givesSlots_of_pickOp (exec_fminS32 st m rd sa sb) rfl fun _ _ => rfl,
   givesSlots_of_pickOp (exec_fmaxS32 st m rd sa sb) rfl fun _ _ => rfl,
   gives_fcmp h sh pd ra rb cond,
   gives_fclass h sh rd ra⟩

/-- Settles O6: the functions are the float rule on one operand; the others choose or classify the words of their operands. -/
theorem floatFunctionResults : Obligations.FloatFunctionResults := ⟨floatFunctionPart, floatChoicePart⟩

end Sys2Proof.FloatResults

/-! Special registers (R82, R144, R242, R302, R328 to R330, R380): what SRD and SWR do at their issue, and the value of every number. -/

namespace Sys2Proof.SpecialRegisters

open Sys2Proof.Machine

/-! ### Facts about an issue -/

/-- The context of an issue depends on the form in the executing lanes alone. -/
theorem ix_form {s : State} {f : Form} {x : Ix} (h : s.ix f = some x) (k : Form) :
    s.ix k = some { x with ex := x.grp.guarded x.at_ k.gp k.gn } := by
  unfold State.ix at h ⊢
  split at h
  · cases h
  · split at h
    · cases h
    · split at h
      · cases h
      · split at h
        · cases h
        · cases h; rfl

/-- ILLOP stands at the issue address, for no lane (R328). -/
theorem illop_eq {s : State} {f : Form} {x : Ix} (h : s.ix f = some x) : s.illop = s.raise x.t x.g 1 0 x.pc 0 0 := by
  rw [State.illop, ix_form h]
  rfl

/-- An issue leaves one group. -/
theorem withGroup_inj {s : State} {f : Form} {x : Ix} {a b : Group} (h : s.ix f = some x) (e : s.withGroup x a = s.withGroup x b) :
    a = b := by
  obtain ⟨hteam, hgroup⟩ := State.ix_team h
  have he := congrArg (fun u : State => (u.teams.find x.t).bind fun r => r.groups.find x.g) e
  simpa [State.withGroup, hteam, hgroup] using he

/-- The group after an issue that writes its results, by name. -/
theorem groupAfter_of_commit {s : State} {f : Form} {x : Ix} (h : s.ix f = some x) (res : Nat → Lane × List Word)
    (sl : Nat → List Slot) (hres : ∀ i ∈ x.ex, (res i).1 = { x.grp.lane i with slots := sl i }) :
    GroupAfter f s x f.dest (fun i => (res i).2) sl
      ((x.grp.commit x f s.clock.cycle res).advance x f s.clock.cycle noJump) := by
  obtain ⟨g', hstate, hgroup⟩ := lands_of_commit h res sl hres
  rw [State.finish_eq h] at hstate
  rwa [withGroup_inj h hstate]

/-! ### SRD and SWR (R328, R330) -/

/-- The latch of a group after an SRD: the high half of a 64-bit register that some lane has read. -/
def latchAfter (s : State) (x : Ix) (n : Nat) : Option (Nat × Word) :=
  if x.ex = [] then x.grp.latch
  else match s.wideReg x n with
    | some v => some (n, BitVec.ofNat 32 (v / 2 ^ 32))
    | none => x.grp.latch

/-- SRD writes the register's value in each executing lane, and leaves the latch as it must. -/
theorem execSrd_result {h : Hd} {rd : LDst} {reg : Fin 512} {s : State} {x : Ix} (hn : srdNumber reg.val = true)
    (hI : Issues (formOf (.srd h rd reg)) s x) :
    ∃ g', exec (.srd h rd reg) s = .next (s.withGroup x g') ∧
      GroupAfter (formOf (.srd h rd reg)) s x (.lane rd .P) (fun l => [s.specialReg x reg.val l]) x.slots
        { g' with latch := x.grp.latch } ∧
      g'.latch = latchAfter s x reg.val := by
  let f := formOf (.srd h rd reg)
  let res := fun i => (x.grp.lane i, [s.specialReg x reg.val i])
  let e := x.grp.commit x f s.clock.cycle res
  have hafter : GroupAfter f s x f.dest (fun l => [s.specialReg x reg.val l]) x.slots (e.advance x f s.clock.cycle noJump) :=
    groupAfter_of_commit hI.here res x.slots fun _ _ => rfl
  have hframe := (Group.commit_frame x.grp x f s.clock.cycle res).1
  have hlatch : e.latch = x.grp.latch := by have := congrArg Group.latch hframe; exact this
  refine ⟨({ e with latch := latchAfter s x reg.val } : Group).advance x f s.clock.cycle noJump, ?exec, ?group, rfl⟩
  case group =>
    have hgroup : { ({ e with latch := latchAfter s x reg.val } : Group).advance x f s.clock.cycle noJump with
        latch := x.grp.latch } = e.advance x f s.clock.cycle noJump := by rw [← hlatch]; rfl
    exact hgroup ▸ hafter
  case exec =>
    rw [exec_srd, execSrd, hn, Bool.not_true, if_neg Bool.false_ne_true, ownInstr_issues hI, State.finish_eq hI.here]
    refine congrArg (fun k : Group => Host.Outcome.next (s.withGroup x (k.advance x f s.clock.cycle noJump))) ?_
    show _ = { e with latch := latchAfter s x reg.val }
    unfold latchAfter
    rw [← hlatch]
    cases s.wideReg x reg.val with
    | none => simp only [ite_self]; rfl
    | some v => cases hex : x.ex with
      | nil => rfl
      | cons i ls => rfl

/-- SWR of a writable number is a group instruction (R264, R328). -/
theorem exec_swr_of_writable {reg : Fin 512} (hn : swrNumber reg.val = true) (h : Hd) (ra : Src) (s : State) :
    exec (.swr h ra reg) s = groupInstr (formOf (.swr h ra reg)) (fun x ins i =>
      .next (s.finish x (formOf (.swr h ra reg)) noJump fun g => g.special reg.val (laneWord ins 0 i))) s := by
  rw [exec_swr, execSwr, hn, Bool.not_true, if_neg Bool.false_ne_true]

/-- SWR with an executing lane writes the word of the lowest one (R264, R328). -/
theorem execSwr_completes {h : Hd} {ra : Src} {reg : Fin 512} {s : State} {x : Ix} {i : Nat} {ls : List Nat}
    (hn : swrNumber reg.val = true) (hI : Issues (formOf (.swr h ra reg)) s x) (he : x.ex = i :: ls) :
    Completes (.swr h ra reg) s x (x.past (hdForm h)) (x.grp.special reg.val (x.word i ra)) := by
  have hword : laneWord (x.ins (formOf (.swr h ra reg))) 0 i = x.word i ra := by
    rw [laneWord_ins hI.here (by simp [he])]
    rfl
  refine ⟨_, ?_, State.finish_past hI.here _ (fun g => g.special reg.val (x.word i ra)) ?_⟩
  · rw [exec_swr_of_writable hn, groupInstr_issues hI _ he, hword]
  · unfold Group.special
    split <;> rfl

theorem execSwr_idle {h : Hd} {ra : Src} {reg : Fin 512} {s : State} {x : Ix} (hn : swrNumber reg.val = true)
    (hI : Issues (formOf (.swr h ra reg)) s x) (he : x.ex = []) :
    Completes (.swr h ra reg) s x (x.past (hdForm h)) x.grp := by
  rw [Completes, exec_swr_of_writable hn]
  exact groupInstr_idle_moved hI _ he

theorem specialRegisterPart : SpecialRegisterPart := fun _ _ _ _ _ _ _ _ =>
  ⟨execSrd_result, execSwr_completes rfl, execSwr_completes rfl, execSwr_idle⟩

theorem unlistedRegisterTrapsPart : UnlistedRegisterTrapsPart := by
  intro h rd ra reg s x
  refine ⟨fun hn hx => ?srd, fun hn hx => ?swr⟩
  case srd => rw [exec_srd, execSrd, hn, Bool.not_false, if_pos rfl, illop_eq hx]
  case swr => rw [exec_swr, execSwr, hn, Bool.not_false, if_pos rfl, illop_eq hx]

/-! ### The values (R144, R242, R302, R329, R330, R380) -/

section
variable (s : State) (x : Ix) (l : Nat)

/-- A stack sweeps where one of the eight does (R377). -/
theorem sweeping_iff : s.sweeping = true ↔ ∃ k, k < 8 ∧ (s.stack k).sweep.isSome = true := by
  simp [State.sweeping, List.any_eq_true]

/-- PREEMPT (R302). -/
theorem preemptReg_idle {ctx : Nat} (h : (s.ctx ctx).draining = false) : s.preemptReg ctx = 0 := by
  simp [State.preemptReg, h]

theorem preemptReg_draining {ctx : Nat} (h : (s.ctx ctx).draining = true) : s.preemptReg ctx =
    BitVec.ofNat 32 (2 ^ 31 + (s.paused ctx).toNat * 2 ^ 30 + (s.ctx ctx).left / 198000 % 2 ^ 30) := by
  rw [State.preemptReg, h]
  rfl

/-- A 64-bit register reads its low half. -/
theorem specialReg_of_wideReg {n v : Nat} (h : s.wideReg x n = some v) : s.specialReg x n l = BitVec.ofNat 32 v := by
  unfold State.specialReg
  rw [h]
  rfl

/-- The number of a high half is odd, and names no 64-bit register. -/
theorem wideReg_odd {n : Nat} (h : n % 2 = 1) : s.wideReg x n = none := by
  unfold State.wideReg
  rw [if_neg (by omega), if_neg (by omega), if_neg (by omega)]

/-- A high half reads what the latch holds for its register, 0 where CNTRS is 0 and the register is a counter. -/
theorem specialReg_high {m n : Nat} {hi : Word} (odd : n % 2 = 1) (lo : 0x011 ≤ n) (top : n ≤ 0x05F)
    (out : n < 0x020 ∨ 0x023 < n) (next : m + 1 = n) (h : x.grp.latch = some (m, hi)) :
    s.specialReg x n l = if 0x040 ≤ n ∧ !(s.ctx x.team.ctx).cntrs then 0 else hi := by
  have notBank : ¬ (0x020 ≤ n ∧ n ≤ 0x023) := by omega
  have isHigh : (0x011 ≤ n ∧ n ≤ 0x05F) ∧ n % 2 = 1 := ⟨⟨lo, top⟩, odd⟩
  unfold State.specialReg
  rw [wideReg_odd s x odd]
  dsimp only
  split
  case h_17 =>
    rw [if_neg notBank, if_pos isHigh, h]
    exact if_pos next
  all_goals omega

/-- TSTEP of each bank of the team, 0 beyond its banks (R144). -/
theorem specialReg_tstep {k : Nat} (h : k < 4) :
    s.specialReg x (0x020 + k) l = ((x.team.banks[k]?).map (s.tstepWord x.team.core)).getD 0 := by
  have isBank : 0x020 ≤ 0x020 + k ∧ 0x020 + k ≤ 0x023 := by omega
  have hwide : s.wideReg x (0x020 + k) = none := by
    unfold State.wideReg
    rw [if_neg (by omega), if_neg (by omega), if_neg (by omega)]
  unfold State.specialReg
  rw [hwide]
  dsimp only
  split
  case h_17 =>
    rw [if_pos isBank, Nat.add_sub_cancel_left]
    cases x.team.banks[k]? <;> rfl
  all_goals omega

/-- The die counters, which read 0 where CNTRS is 0 (R242). -/
theorem wideReg_counter {n : Nat} (h : n < 16) :
    s.wideReg x (0x040 + 2 * n) =
      some (if (s.ctx x.team.ctx).cntrs then (Tab.get 0 (s.die (x.team.core / 40)).cnt n).toNat else 0) := by
  have hn : (0x040 + 2 * n - 0x040) / 2 = n := by rw [Nat.add_sub_cancel_left, Nat.mul_div_cancel_left n (by decide)]
  have notVersion : n ≠ 16 := by omega
  unfold State.wideReg State.dieCounter
  rw [if_neg (by omega), if_neg (by omega), if_pos (by omega), hn, if_neg notVersion]
  rfl

end

theorem specialRegisterValuesPart : SpecialRegisterValuesPart := by
  intro s x l die c
  refine ⟨rfl, rfl, rfl, rfl, rfl, rfl, rfl, rfl, rfl, rfl, rfl, rfl, rfl, rfl, rfl, rfl, rfl, ?high, ?tband, ?idle, ?drains, ?tstep,
    ?counters, rfl⟩
  case high =>
    intro n hi hn hlatch
    have hcases : n = 0x011 ∨ n = 0x013 := by simpa only [List.mem_cons, List.not_mem_nil, or_false] using hn
    obtain rfl | rfl := hcases
    · exact specialReg_high s x l rfl (by decide) (by decide) (by decide) rfl hlatch
    · exact specialReg_high s x l rfl (by decide) (by decide) (by decide) rfl hlatch
  case tband =>
    intro sw hsw
    obtain rfl : sw = s.sweeping := Bool.eq_iff_iff.mpr (hsw.trans (sweeping_iff s).symm)
    rfl
  case idle => exact preemptReg_idle s
  case drains => exact preemptReg_draining s
  case tstep =>
    intro k hk
    rw [specialReg_tstep s x l hk]
    exact ⟨fun hnone => by rw [hnone]; rfl, fun p hsome => by rw [hsome]; rfl⟩
  case counters =>
    intro n hn v
    have hv : s.wideReg x (0x040 + 2 * n) = some v := wideReg_counter s x hn
    refine ⟨hv, specialReg_of_wideReg s x l hv, fun hi hlatch => ?_⟩
    have isCounter : 0x040 ≤ 0x041 + 2 * n := by omega
    rw [specialReg_high s x l (by omega) (by omega) (by omega) (by omega) (by omega) hlatch]
    simp only [isCounter, true_and]
    show _ = if (s.ctx x.team.ctx).cntrs then hi else 0
    cases (s.ctx x.team.ctx).cntrs <;> rfl

/-- Settles O14: an SRD is a commit that sets the latch aside, an SWR acts on the lowest executing lane's word, and every other
number is ILLOP. -/
theorem specialRegisterResults : Obligations.SpecialRegisterResults :=
  ⟨specialRegisterPart, specialRegisterValuesPart, unlistedRegisterTrapsPart⟩

end Sys2Proof.SpecialRegisters

/-! The state that reset leaves (R81, R239, R288, R297, R299, R307, R308, R333, R367, R373, R380). -/

namespace Sys2Proof.ResetRecords

open Sys2Proof.Machine

/-! Reset lists no entry in any table, so every record reads as its default. -/

@[simp] theorem ctx_reset (c : Nat) : State.reset.ctx c = CtxRec.reset := rfl
@[simp] theorem queue_reset (q : Nat) : State.reset.queue q = QueueRec.reset := rfl
@[simp] theorem die_reset (d : Nat) : State.reset.die d = DieRec.reset := rfl
@[simp] theorem ring_reset (d k : Nat) : State.reset.ring d k = Ring.reset := rfl
@[simp] theorem link_reset (l : Nat) : State.reset.link l = LinkRec.reset := rfl

/-- Settles O53: the records of every context, queue, die, ring and link are the defaults, and the package's are those of reset. -/
theorem resetState : Obligations.ResetState := by
  refine ⟨fun c => ?context, fun q => ?queue, fun d => ?die, fun d k => ?ring, fun l => ?link, ?package⟩
  case context => rw [ctx_reset]; exact ⟨rfl, rfl, rfl, rfl, rfl⟩
  case queue => rw [queue_reset]; exact ⟨rfl, rfl⟩
  case die => rw [die_reset]; exact ⟨rfl, rfl, rfl⟩
  case ring => rw [ring_reset]; exact ⟨rfl, rfl, rfl, rfl⟩
  case link => rw [link_reset]; rfl
  case package => exact ⟨rfl, rfl, rfl, rfl, rfl, rfl, rfl, rfl, rfl⟩

end Sys2Proof.ResetRecords

/-! The integer, predicate and move instructions (R98 to R102): the words that the machine's operations give are the spec's, bit by bit
where the spec states bits. -/

namespace Sys2Proof.IntegerResults

open Sys2Proof.Machine
open Sys2Proof.FloatResults (gives_of_predOp)

/-! ### Words from their bits -/

/-- The number whose bits below `n` are given. -/
def natOfBits (f : Nat → Bool) (n : Nat) : Nat := (List.range n).foldl (fun a i => if f i then a + 2 ^ i else a) 0

theorem natOfBits_succ (f : Nat → Bool) (n : Nat) :
    natOfBits f (n + 1) = if f n then natOfBits f n + 2 ^ n else natOfBits f n := by
  simp [natOfBits, List.range_succ]

theorem natOfBits_lt (f : Nat → Bool) (n : Nat) : natOfBits f n < 2 ^ n := by
  induction n with
  | zero => exact Nat.one_pos
  | succ n ih => rw [natOfBits_succ, Nat.pow_succ]; split <;> omega

theorem testBit_natOfBits (f : Nat → Bool) {n j : Nat} (hj : j < n) : (natOfBits f n).testBit j = f j := by
  induction n with
  | zero => omega
  | succ n ih =>
    rw [natOfBits_succ]
    obtain hlt | rfl : j < n ∨ j = n := by omega
    · split
      · rw [Nat.add_comm, Nat.testBit_two_pow_add_gt hlt, ih hlt]
      · exact ih hlt
    · have clear : (natOfBits f j).testBit j = false := Nat.testBit_lt_two_pow (natOfBits_lt f j)
      split
      case isTrue h => rw [Nat.add_comm, Nat.testBit_two_pow_add_eq, clear, h]; rfl
      case isFalse h => rw [clear, Bool.eq_false_iff.mpr h]

theorem getLsbD_wordOfBits (f : Nat → Bool) {j : Nat} (hj : j < 32) : (wordOfBits f).getLsbD j = f j := by
  have h : wordOfBits f = BitVec.ofNat 32 (natOfBits f 32) := rfl
  rw [h, BitVec.getLsbD_ofNat, decide_eq_true hj, Bool.true_and, testBit_natOfBits f hj]

/-! ### Shifts (R98) -/

theorem shlOp_eq (a b : Word) : shlOp a b = a <<< b.toNat := by
  unfold shlOp
  split
  case isTrue h => exact (BitVec.shiftLeft_eq_zero h).symm
  case isFalse => rfl

theorem shrOp_eq (a b : Word) : shrOp a b = a >>> b.toNat := by
  unfold shrOp
  split
  case isTrue h => exact (BitVec.ushiftRight_eq_zero h).symm
  case isFalse => rfl

theorem getLsbD_sarOp (a b : Word) {j : Nat} (hj : j < 32) :
    (sarOp a b).getLsbD j = if j + b.toNat < 32 then a.getLsbD (j + b.toNat) else a.getLsbD 31 := by
  rw [sarOp, BitVec.getLsbD_sshiftRight, decide_eq_false (by omega : ¬ 32 ≤ j), Bool.not_false, Bool.true_and]
  split <;> split
  case isTrue.isTrue => rw [Nat.min_eq_left (by omega), Nat.add_comm]
  case isTrue.isFalse => rw [show min b.toNat 31 + j = 31 by omega]
  case isFalse.isTrue => omega
  case isFalse.isFalse => exact BitVec.msb_eq_getLsbD_last a

theorem getLsbD_rotlOp (a b : Word) {j : Nat} (hj : j < 32) :
    (rotlOp a b).getLsbD j = a.getLsbD ((j + 32 - b.toNat % 32) % 32) := by
  rw [rotlOp, BitVec.getLsbD_rotateLeft, Nat.mod_mod]
  have hlt : b.toNat % 32 < 32 := Nat.mod_lt _ (by decide)
  cases h : decide (j < b.toNat % 32)
  case true =>
    have : (j + 32 - b.toNat % 32) % 32 = 32 - b.toNat % 32 + j := by
      have := of_decide_eq_true h
      omega
    rw [this, cond_true]
  case false =>
    have : (j + 32 - b.toNat % 32) % 32 = j - b.toNat % 32 := by
      have := of_decide_eq_false h
      omega
    rw [this, cond_false, decide_eq_true hj, Bool.true_and]

/-! ### Bit fields (R98) -/

/-- The field that BFE extracts, before its sign is taken. -/
def bfeField (a pos len : Word) : Nat := a.toNat / 2 ^ (min pos.toNat 32) % 2 ^ (min len.toNat 32)

theorem testBit_bfeField (a pos len : Word) (i : Nat) :
    (bfeField a pos len).testBit i = (decide (i < min len.toNat 32) && a.getLsbD (pos.toNat + i)) := by
  rw [bfeField, Nat.testBit_mod_two_pow, Nat.testBit_div_two_pow, BitVec.getLsbD]
  by_cases h : pos.toNat ≤ 32
  · rw [Nat.min_eq_left h, Nat.add_comm]
  · have ha := a.isLt
    rw [Nat.testBit_lt_two_pow (Nat.lt_of_lt_of_le ha (Nat.pow_le_pow_right (by decide) (by omega))),
      Nat.testBit_lt_two_pow (Nat.lt_of_lt_of_le ha (Nat.pow_le_pow_right (by decide) (by omega)))]


theorem bfeField_lt (a pos len : Word) : bfeField a pos len < 2 ^ min len.toNat 32 := Nat.mod_lt _ (Nat.two_pow_pos _)

/-- A number of `n` bits, less 2 to the `n`, has ones above its own bits. -/
theorem getLsbD_ofInt_sub_two_pow {f n j : Nat} (hf : f < 2 ^ n) (hj : j < 32) :
    (Word.ofInt ((f : Int) - 2 ^ n)).getLsbD j = (!decide (j < n) || f.testBit j) := by
  have hneg : (f : Int) - 2 ^ n = Int.negSucc (2 ^ n - (f + 1)) := by
    have : ((2 ^ n : Nat) : Int) = 2 ^ n := by simp
    omega
  rw [Word.ofInt, hneg, BitVec.ofInt_negSucc_eq_not_ofNat, BitVec.getLsbD_not, BitVec.getLsbD_ofNat, decide_eq_true hj,
    Nat.testBit_two_pow_sub_succ hf]
  cases decide (j < n) <;> simp

theorem getLsbD_wordOfNat (n : Nat) {j : Nat} (hj : j < 32) : (Word.ofNat n).getLsbD j = n.testBit j := by
  rw [Word.ofNat, BitVec.getLsbD_ofNat, decide_eq_true hj, Bool.true_and]

/-- Whether BFE extends its field with ones. -/
def fieldNegative (sg : Bool) (a pos len : Word) : Bool :=
  sg && decide (0 < len.toNat) && (bfeField a pos len).testBit (min len.toNat 32 - 1)

theorem bfeOp_eq (sg : Bool) (a pos len : Word) :
    bfeOp sg a pos len = if fieldNegative sg a pos len then Word.ofInt ((bfeField a pos len : Int) - 2 ^ min len.toNat 32)
      else Word.ofNat (bfeField a pos len) := by
  have hpos : decide (0 < min len.toNat 32) = decide (0 < len.toNat) := decide_eq_decide.mpr (by omega)
  rw [fieldNegative, Nat.testBit_eq_decide_div_mod_eq, ← hpos]
  rfl

/-- Where the field does not reach bit 32, its highest bit is the one that BFE extends. -/
theorem testBit_bfeField_top (a pos : Word) {len : Word} (hpos : 0 < len.toNat) (hlen : len.toNat < 32) :
    (bfeField a pos len).testBit (min len.toNat 32 - 1) = a.getLsbD (pos.toNat + len.toNat - 1) := by
  rw [testBit_bfeField, Nat.min_eq_left (by omega), decide_eq_true (by omega), Bool.true_and, Nat.add_sub_assoc hpos]

theorem getLsbD_bfeOp (sg : Bool) (a pos len : Word) {j : Nat} (hj : j < 32) :
    (bfeOp sg a pos len).getLsbD j = bfeBit sg a pos len j := by
  have inField : decide (j < min len.toNat 32) = decide (j < len.toNat) := decide_eq_decide.mpr (by omega)
  rw [bfeOp_eq, bfeBit]
  by_cases hin : j < len.toNat
  · rw [if_pos hin]
    split
    · rw [getLsbD_ofInt_sub_two_pow (bfeField_lt a pos len) hj, testBit_bfeField, inField, decide_eq_true hin]
      simp
    · rw [getLsbD_wordOfNat _ hj, testBit_bfeField, inField, decide_eq_true hin, Bool.true_and]
  · rw [if_neg hin, decide_eq_true (by omega : len.toNat < 32), Bool.and_true]
    have hneg : fieldNegative sg a pos len = (sg && decide (0 < len.toNat) && a.getLsbD (pos.toNat + len.toNat - 1)) := by
      by_cases hpos : 0 < len.toNat
      · rw [fieldNegative, testBit_bfeField_top a pos hpos (by omega)]
      · simp [fieldNegative, hpos]
    rw [← hneg]
    split
    case isTrue h => rw [getLsbD_ofInt_sub_two_pow (bfeField_lt a pos len) hj, inField, decide_eq_false hin, h]; rfl
    case isFalse h =>
      rw [getLsbD_wordOfNat _ hj, testBit_bfeField, inField, decide_eq_false hin, Bool.eq_false_iff.mpr h, Bool.false_and]

theorem getLsbD_bfiOp (a b c : Word) {j : Nat} (hj : j < 32) : (bfiOp a b c).getLsbD j = bfiBit a b c j := by
  have hpos : (c.extractLsb' 0 8).toNat = c.toNat % 256 := by simp
  have hlen : (c.extractLsb' 8 8).toNat = c.toNat / 256 % 256 := by simp [Nat.shiftRight_eq_div_pow]
  rw [bfiOp, getLsbD_wordOfBits _ hj, bfiBit, hpos, hlen]

theorem getLsbD_brevOp (a : Word) {j : Nat} (hj : j < 32) : (brevOp a).getLsbD j = a.getLsbD (31 - j) :=
  getLsbD_wordOfBits _ hj

/-! ### Bit counts (R98) -/

theorem popcOp_eq (a : Word) : popcOp a = BitVec.ofNat 32 ((List.range 32).filter fun j => a.getLsbD j).length :=
  congrArg (BitVec.ofNat 32) List.countP_eq_length_filter

/-- The length of the run of a test at the start of a range. -/
theorem length_takeWhile_range {p : Nat → Bool} {n m : Nat} (hm : m < n) (run : ∀ j < m, p j = true) (stop : p m = false) :
    ((List.range n).takeWhile p).length = m := by
  have hfind : (List.range n).findIdx (fun j => !p j) = m := by
    rw [List.findIdx_eq (by simpa using hm)]
    simp only [List.getElem_range]
    exact ⟨by simp [stop], fun j hj => by simp [run j hj]⟩
  rw [List.takeWhile_eq_take_findIdx_not, hfind, List.length_take, List.length_range]
  exact Nat.min_eq_left (by omega)

theorem clzOp_eq (a : Word) :
    clzOp a = BitVec.ofNat 32 ((List.range 32).takeWhile fun j => !a.getLsbD (31 - j)).length := by
  unfold clzOp
  split
  case isTrue h => subst h; decide
  case isFalse h =>
    have hne : a.toNat ≠ 0 := fun h0 => h (BitVec.eq_of_toNat_eq h0)
    have htop : a.toNat.log2 < 32 := (Nat.log2_lt hne).mpr a.isLt
    refine congrArg (BitVec.ofNat 32) (length_takeWhile_range (by omega) (fun j hj => ?run) ?stop).symm
    case run =>
      have : a.toNat < 2 ^ (31 - j) := (Nat.log2_lt hne).mp (by omega)
      rw [BitVec.getLsbD, Nat.testBit_lt_two_pow this]
      rfl
    case stop =>
      rw [show 31 - (31 - a.toNat.log2) = a.toNat.log2 by omega, BitVec.getLsbD, Nat.testBit_log2 hne]
      rfl

/-! ### The results -/

/-- An instruction of P words gives the bits of its operation. -/
theorem givesBits_int {i : Instr} {fn : Word → Word → Word → Word} {d : Dest} {bit : Ix → Nat → Nat → Bool}
    (hexec : ∀ s, exec i s = intOp (formOf i) fn s) (hdest : (formOf i).dest = d)
    (hbit : ∀ x l j, j < 32 →
      (fn (x.arg (formOf i) l 0 0) (x.arg (formOf i) l 1 0) (x.arg (formOf i) l 2 0)).getLsbD j = bit x l j) :
    GivesBits i d bit :=
  ⟨_, hbit, gives_int hexec hdest fun _ _ => rfl⟩

/-- The result of an operation as the one word of a lane. -/
theorem word_congr {a b : Word} (h : a = b) : [a] = [b] := congrArg (fun w => [w]) h

/-- Settles O1: each operation on words has the bits of R98, and the instruction gives its result. -/
theorem shiftAndFieldResults : Obligations.ShiftAndFieldResults := fun h rd ra rb rc sg =>
  ⟨gives_int (exec_shl h rd ra rb) rfl fun _ _ => word_congr (shlOp_eq _ _),
   gives_int (exec_shr h rd ra rb) rfl fun _ _ => word_congr (shrOp_eq _ _),
   givesBits_int (exec_sar h rd ra rb) rfl fun _ _ _ hj => getLsbD_sarOp _ _ hj,
   givesBits_int (exec_rotl h rd ra rb) rfl fun _ _ _ hj => getLsbD_rotlOp _ _ hj,
   givesBits_int (exec_bfe h rd ra rb rc sg) rfl fun _ _ _ hj => getLsbD_bfeOp _ _ _ _ hj,
   givesBits_int (exec_bfi h rd ra rb rc) rfl fun _ _ _ hj => getLsbD_bfiOp _ _ _ hj,
   gives_int (exec_popc h rd ra) rfl fun _ _ => word_congr (popcOp_eq _),
   gives_int (exec_clz h rd ra) rfl fun _ _ => word_congr (clzOp_eq _),
   givesBits_int (exec_brev h rd ra) rfl fun _ _ _ hj => getLsbD_brevOp _ hj⟩

/-! ### Products (R98) -/

/-- Bits 63:32 of an integer modulo 2^64. -/
theorem high_ofInt (p : Int) : (BitVec.ofInt 64 p).extractLsb' 32 32 = Word.ofInt (p / 4294967296) := by
  refine BitVec.eq_of_toNat_eq ?_
  rw [BitVec.extractLsb'_toNat, Nat.shiftRight_eq_div_pow, Word.ofInt, BitVec.toNat_ofInt, BitVec.toNat_ofInt]
  omega

theorem zeroExtend_eq_ofInt (a : Word) : a.zeroExtend 64 = BitVec.ofInt 64 a.toNat := by
  rw [BitVec.ofInt_natCast, BitVec.ofNat_toNat]

theorem imulhOp_signed (a b : Word) : imulhOp .s a b = (a.signExtend 64 * b.signExtend 64).extractLsb' 32 32 := by
  rw [imulhOp, ← high_ofInt, BitVec.ofInt_mul]
  rfl

theorem imulhOp_unsigned (a b : Word) : imulhOp .u a b = (a.zeroExtend 64 * b.zeroExtend 64).extractLsb' 32 32 := by
  rw [imulhOp, ← high_ofInt, BitVec.ofInt_mul, ← zeroExtend_eq_ofInt, ← zeroExtend_eq_ofInt]

theorem imulhOp_mixed (a b : Word) : imulhOp .su a b = (a.signExtend 64 * b.zeroExtend 64).extractLsb' 32 32 := by
  rw [imulhOp, ← high_ofInt, BitVec.ofInt_mul, ← zeroExtend_eq_ofInt]
  rfl

/-! ### Comparisons (R98, R100) -/

/-- Whether a word is below another, as unsigned or as signed numbers. -/
def below (u : Bool) (a b : Word) : Bool := if u then a.ult b else a.slt b

theorem icmp_lt (u : Bool) (a b : Word) : icmp .lt u a b = below u a b := by cases u <;> rfl

/-- Of two words, one is below the other or they are one word. -/
theorem below_trichotomy (u : Bool) (a b : Word) : below u a b = true ∨ a = b ∨ below u b a = true := by
  cases u
  case false =>
    have := Int.lt_trichotomy a.toInt b.toInt
    simpa [below, BitVec.slt, BitVec.toInt_inj] using this
  case true =>
    have := Nat.lt_trichotomy a.toNat b.toNat
    simpa [below, BitVec.ult, BitVec.toNat_inj] using this

theorem below_asymm {u : Bool} {a b : Word} (h : below u a b = true) : below u b a = false := by
  cases u
  case false =>
    have : a.toInt < b.toInt := of_decide_eq_true h
    exact decide_eq_false (by omega)
  case true =>
    have : a.toNat < b.toNat := of_decide_eq_true h
    exact decide_eq_false (by omega)

theorem below_irrefl (u : Bool) (a : Word) : below u a a = false := by
  cases u
  case false => exact decide_eq_false (Int.lt_irrefl a.toInt)
  case true => exact decide_eq_false (Nat.lt_irrefl a.toNat)

/-- Not below is at least. -/
theorem not_below (u : Bool) (a b : Word) : (!below u a b) = (below u b a || b == a) := by
  obtain h | rfl | h := below_trichotomy u a b
  · have hne : b ≠ a := by rintro rfl; rw [below_irrefl] at h; cases h
    rw [h, below_asymm h, beq_false_of_ne hne]; rfl
  · simp [below_irrefl]
  · rw [h, below_asymm h]; rfl

theorem iminOp_eq (u : Bool) (a b : Word) : iminOp u a b = if below u a b then a else b := by
  rw [iminOp, icmp_lt]
  obtain h | rfl | h := below_trichotomy u a b
  · rw [h, below_asymm h]; rfl
  · rw [ite_self]
  · rw [h, below_asymm h]; rfl

theorem imaxOp_eq (u : Bool) (a b : Word) : imaxOp u a b = if below u a b then b else a := by rw [imaxOp, icmp_lt]

theorem iabsOp_eq (a : Word) : iabsOp a = if a.toInt < 0 then -a else a := by
  rw [iabsOp, BitVec.msb_eq_toInt]
  simp only [decide_eq_true_eq]

theorem integerArithmeticPart : IntegerArithmeticPart := fun h rd ra rb rc u =>
  ⟨gives_int (exec_iadd h rd ra rb) rfl fun _ _ => rfl,
   gives_int (exec_isub h rd ra rb) rfl fun _ _ => rfl,
   gives_int (exec_imul h rd ra rb) rfl fun _ _ => rfl,
   gives_int (exec_imulh h rd ra rb .s) rfl fun _ _ => word_congr (imulhOp_signed _ _),
   gives_int (exec_imulh h rd ra rb .u) rfl fun _ _ => word_congr (imulhOp_unsigned _ _),
   gives_int (exec_imulh h rd ra rb .su) rfl fun _ _ => word_congr (imulhOp_mixed _ _),
   gives_int (exec_imad h rd ra rb rc) rfl fun _ _ => rfl,
   gives_int (exec_imin h rd ra rb u) rfl fun _ _ => word_congr (iminOp_eq u _ _),
   gives_int (exec_imax h rd ra rb u) rfl fun _ _ => word_congr (imaxOp_eq u _ _),
   gives_int (exec_iabs h rd ra) rfl fun _ _ => word_congr (iabsOp_eq _),
   gives_int (exec_and h rd ra rb) rfl fun _ _ => rfl,
   gives_int (exec_or h rd ra rb) rfl fun _ _ => rfl,
   gives_int (exec_xor h rd ra rb) rfl fun _ _ => rfl,
   gives_int (exec_andn h rd ra rb) rfl fun _ _ => rfl⟩

/-! ### Immediates (R99) -/

/-- A sign-extended immediate as a count: itself, or at least 32 where it is negative. -/
theorem toNat_sext (imm : BitVec 28) : (sext imm).toNat = if imm.msb then imm.toNat + (2 ^ 32 - 2 ^ 28) else imm.toNat := by
  rw [sext, BitVec.toNat_signExtend, BitVec.toNat_setWidth, Nat.mod_eq_of_lt (by have := imm.isLt; omega)]
  cases imm.msb <;> rfl

theorem shlOp_sext (a : Word) (imm : BitVec 28) : shlOp a (sext imm) = if imm.msb then 0 else a <<< imm.toNat := by
  rw [shlOp_eq, toNat_sext]
  cases imm.msb
  case false => rfl
  case true => exact BitVec.shiftLeft_eq_zero (by rw [if_pos rfl]; omega)

theorem shrOp_sext (a : Word) (imm : BitVec 28) : shrOp a (sext imm) = if imm.msb then 0 else a >>> imm.toNat := by
  rw [shrOp_eq, toNat_sext]
  cases imm.msb
  case false => rfl
  case true => exact BitVec.ushiftRight_eq_zero (by rw [if_pos rfl]; omega)

theorem sarOp_sext (a : Word) (imm : BitVec 28) :
    sarOp a (sext imm) = a.sshiftRight (if imm.msb then 31 else min imm.toNat 31) := by
  rw [sarOp, toNat_sext]
  cases imm.msb
  case false => rfl
  case true => exact congrArg a.sshiftRight (by rw [if_pos rfl, if_pos rfl]; omega)

theorem immediateFormPart : ImmediateFormPart := fun h rd ra imm =>
  ⟨gives_int (exec_iaddImm h rd ra imm) rfl fun _ _ => rfl,
   gives_int (exec_imulImm h rd ra imm) rfl fun _ _ => rfl,
   gives_int (exec_andImm h rd ra imm) rfl fun _ _ => rfl,
   gives_int (exec_orImm h rd ra imm) rfl fun _ _ => rfl,
   gives_int (exec_xorImm h rd ra imm) rfl fun _ _ => rfl,
   gives_int (exec_shlImm h rd ra imm) rfl fun _ _ => word_congr (shlOp_sext _ imm),
   gives_int (exec_shrImm h rd ra imm) rfl fun _ _ => word_congr (shrOp_sext _ imm),
   gives_int (exec_sarImm h rd ra imm) rfl fun _ _ => word_congr (sarOp_sext _ imm)⟩

/-- Settles O2: each operation on words is R98's, and an immediate form is the same operation on the sign-extended immediate. -/
theorem integerArithmeticResults : Obligations.IntegerArithmeticResults := ⟨integerArithmeticPart, immediateFormPart⟩

/-! ### Predicates (R100, R101) -/

theorem icmp_ge (u : Bool) (a b : Word) : icmp .ge u a b = (below u b a || b == a) :=
  (congrArg (!·) (icmp_lt u a b)).trans (not_below u a b)

theorem icmp_gt (u : Bool) (a b : Word) : icmp .gt u a b = below u b a := by
  have h : icmp .gt u a b = !(below u a b || a == b) := congrArg (fun v => !(v || a == b)) (icmp_lt u a b)
  rw [h, ← not_below, Bool.not_not]

theorem icmp_le (u : Bool) (a b : Word) : icmp .le u a b = (below u a b || a == b) := congrArg (· || a == b) (icmp_lt u a b)

theorem sle_eq_below (a b : Word) : a.sle b = (below false a b || a == b) := by
  rw [← not_below, BitVec.sle_eq_not_slt]
  rfl

theorem ule_eq_below (a b : Word) : a.ule b = (below true a b || a == b) := by
  rw [← not_below, BitVec.ule_eq_not_ult]
  rfl

theorem plopBit_eq (table : Fin 256) (a b c : Bool) :
    plopBit table.val a b c = (BitVec.ofNat 8 table.val).getLsbD (4 * a.toNat + 2 * b.toNat + c.toNat) := by
  have hlt : 4 * a.toNat + 2 * b.toNat + c.toNat < 8 := by cases a <;> cases b <;> cases c <;> decide
  rw [plopBit, BitVec.getLsbD_ofNat, decide_eq_true hlt, Bool.true_and, Nat.testBit_eq_decide_div_mod_eq]
  rfl

/-- The truth of a test as the one word of a predicate's result. -/
theorem bool_congr {a b : Bool} (h : a = b) : [boolWord a] = [if b then 1 else 0] := by rw [h]; rfl

/-- An integer comparison gives the truth of its condition on the two words. -/
theorem gives_icmp (h : Hd) (pd : Pred) (ra rb : Src) (cond : ICond) (u : Bool) {test : Word → Word → Bool}
    (htest : ∀ a b, icmp cond u a b = test a b) :
    Gives (.icmp h pd ra rb cond u) (.pred pd) (fun x i => [if test (x.word i ra) (x.word i rb) then 1 else 0]) :=
  gives_of_predOp (exec_icmp h pd ra rb cond u) rfl fun _ _ => bool_congr (htest _ _)

theorem predicatePart : PredicatePart := fun h pd pa pb pc ra rb table k =>
  have cmp (cond : ICond) (u : Bool) {test : Word → Word → Bool} := gives_icmp h pd ra rb cond u (test := test)
  ⟨fun u => cmp .eq u fun _ _ => rfl,
   fun u => cmp .ne u fun _ _ => rfl,
   cmp .lt false (icmp_lt false),
   cmp .le false fun a b => (icmp_le false a b).trans (sle_eq_below a b).symm,
   cmp .gt false (icmp_gt false),
   cmp .ge false fun a b => (icmp_ge false a b).trans (sle_eq_below b a).symm,
   cmp .lt true (icmp_lt true),
   cmp .le true fun a b => (icmp_le true a b).trans (ule_eq_below a b).symm,
   cmp .gt true (icmp_gt true),
   cmp .ge true fun a b => (icmp_ge true a b).trans (ule_eq_below b a).symm,
   gives_lane (exec_plop h pd pa pb pc table) rfl fun _ _ => bool_congr (plopBit_eq table _ _ _),
   gives_of_predOp (exec_pset h pd ra .nz) rfl fun _ _ => rfl,
   gives_of_predOp (exec_pset h pd ra .z) rfl fun _ _ => rfl,
   gives_of_predOp (exec_pset h pd ra (.bit k)) rfl fun _ _ => rfl,
   fun _ => rfl⟩

/-! ### Moves (R102) -/

theorem gives_sel (h : Hd) (sh : Shape) (rd : Dst) (ra rb : Src) (pc : Pred) :
    Gives (.sel h sh rd ra rb pc) (destOf rd sh) (fun x i => if x.pred i pc then x.span i ra sh else x.span i rb sh) :=
  gives_lane (exec_sel h sh rd ra rb pc) rfl fun _ _ => rfl

theorem gives_lea (h : Hd) (rd : Dst) (base : Base) (rb : Src) (n : Fin 8) (sx : Bool) :
    Gives (.lea h rd base rb n sx) (destOf rd .M) (fun x i =>
      let e : BitVec 64 := if sx then (x.word i rb).signExtend 64 else (x.word i rb).zeroExtend 64
      let v := x.base i base + e <<< n.val
      [v.extractLsb' 0 32, v.extractLsb' 32 32]) := by
  refine gives_lane (exec_lea h rd base rb n sx) rfl fun x i => ?_
  have low (v : BitVec 64) : v.truncate 32 = v.extractLsb' 0 32 := BitVec.setWidth_eq_extractLsb' (by decide)
  dsimp only [leaOp]
  rw [low]
  rfl

theorem movePart : MovePart := fun h sh rd ra rb pc imm base n sx =>
  ⟨gives_lane (exec_mov h sh rd ra) rfl fun _ _ => rfl,
   gives_sel h sh rd ra rb pc,
   gives_lane (exec_movi h rd imm) rfl fun _ _ => rfl,
   gives_lea h rd base rb n sx⟩

/-- Settles O3: each test is the spec's on the operands' words, and a move hands them on bit for bit. -/
theorem predicateAndMoveResults : Obligations.PredicateAndMoveResults := ⟨predicatePart, movePart⟩

end Sys2Proof.IntegerResults

/-! The moment instructions and the draws from the Grain (R114 to R121, R158 to R162). -/

namespace Sys2Proof.MomentResults

open Sys2Proof.Machine

theorem momentPart : MomentPart := fun h sh rd ra rb neg sel =>
  ⟨gives_lane (exec_mmk h sh rd ra rb) rfl fun _ _ => rfl,
   gives_lane (exec_mspl h sh rd ra) rfl fun _ _ => rfl,
   gives_lane (exec_maddv h sh rd ra rb) rfl fun _ _ => rfl,
   gives_lane (exec_mtag h rd ra rb neg) rfl fun _ _ => rfl,
   gives_lane (exec_mcov h rd ra rb) rfl fun _ _ => rfl,
   gives_lane (exec_mfold h rd ra sel) rfl fun _ _ => rfl,
   gives_lane (exec_sstat h rd ra) rfl fun _ _ => rfl⟩

/-! ### Draws -/

/-- An instruction that takes `n` blocks of a slot in each executing lane gives its words and moves the slot's index past them (R158). -/
theorem givesSlots_of_consume {i : Instr} {fn : Env → LaneIn → Lane × List Word} {d : Dest} {val : Ix → Nat → List Word} {k n : Nat}
    (hexec : ∀ s, exec i s = perLaneSt (formOf i) fn s) (hdest : (formOf i).dest = d)
    (hdraw : ∀ (x : Ix) l, fn x.env (x.laneIn (formOf i) l) = ((x.grp.lane l).consume k n, val x l)) :
    GivesSlots i d val fun x l => x.taken l k n :=
  gives_slots hexec hdest (fun x l => congrArg Prod.fst (hdraw x l)) fun x l => congrArg Prod.snd (hdraw x l)

theorem givesSlots_seed (h : Hd) (ra rs : Src) (k : Fin 4) (weyl : Bool) :
    GivesSlots (.gseed h ra k (.seed weyl rs)) .none (fun _ _ => [])
      (fun x l => putSlot (x.slots l) k.val
        ⟨(x.span l ra .M).getD 1 0 ++ (x.span l ra .M).getD 0 0, (x.word l rs).truncate 16, weyl, 0⟩) :=
  gives_slots (exec_gseed h ra k (.seed weyl rs)) rfl (fun _ _ => rfl) fun _ _ => rfl

theorem givesSlots_pos (h : Hd) (ra : Src) (k : Fin 4) :
    GivesSlots (.gseed h ra k .pos) .none (fun _ _ => [])
      (fun x l => (x.slots l).modify k.val fun q => { q with idx := (x.span l ra .M).getD 1 0 ++ (x.span l ra .M).getD 0 0 }) :=
  gives_slots (exec_gseed h ra k .pos) rfl (fun _ _ => rfl) fun _ _ => rfl

/-- GUNI's index form reads a half of the slot's index and takes no block (R161). -/
theorem gives_idx (h : Hd) (rd : LDst) (k : Fin 4) (hi : Bool) :
    Gives (.guni h .P rd k (.idx hi)) (.lane rd .P) (fun x l =>
      [((x.grp.lane l).slot k.val).idx.extractLsb' (if hi then 32 else 0) 32]) := by
  refine gives_slots (exec_guni h .P rd k (.idx hi)) rfl (fun _ _ => rfl) fun x l => ?_
  cases hi
  case true => rfl
  case false => exact congrArg (fun w => [w]) (BitVec.setWidth_eq_extractLsb' (by decide))

theorem grainPart : GrainPart := fun h rd ra rs k weyl hi =>
  ⟨givesSlots_seed h ra rs k weyl,
   givesSlots_pos h ra k,
   gives_idx h rd k hi,
   givesSlots_of_consume (exec_guni h .P rd k .draw) rfl fun _ _ => rfl,
   givesSlots_of_consume (exec_guni h .S rd k .draw) rfl fun _ _ => rfl,
   givesSlots_of_consume (exec_gnorm h .P rd k) rfl fun _ _ => rfl,
   givesSlots_of_consume (exec_gnorm h .S rd k) rfl fun _ _ => rfl,
   givesSlots_of_consume (exec_ggum h .P rd k) rfl fun _ _ => rfl,
   givesSlots_of_consume (exec_ggum h .S rd k) rfl fun _ _ => rfl,
   givesSlots_of_consume (exec_gber h rd ra k) rfl fun _ _ => rfl,
   givesSlots_of_consume (exec_sdraw h rd ra) rfl fun _ _ => rfl⟩

/-- Settles O8: a moment instruction works on the spans of its sources, and a draw on the blocks that it takes. -/
theorem momentAndGrainResults : Obligations.MomentAndGrainResults := ⟨momentPart, grainPart⟩

end Sys2Proof.MomentResults

/-! Registers by index (R126, R127): the trap of a bad index, and what VRD and VWR leave where every index is good. -/

namespace Sys2Proof.IndexedRegisters

open Sys2Proof.Machine
open Sys2Proof.LaneResults (filter_ins_map_n laneIn_w_zero)

/-- A lane instruction that takes a trap of its own raises it for the lanes that have it. -/
theorem laneInstr_raises {f : Form} {s : State} {x : Ix} (h : Admits f s x)
    {own : Env → List LaneIn → Option (Nat × Nat × List Nat)} (eff : Env → List LaneIn → Nat → Lane × List Word)
    {code detail : Nat} {ls : List Nat} (ho : own x.env (x.ins f) = some (code, detail, ls)) :
    laneInstr f own eff s = .next (s.raise x.t x.g code detail x.pc (maskOf ls) 0) := by
  simp only [laneInstr, State.begin_ok h, ho]

/-! ### The traps of an index (R126) -/

section
variable {s : State} {f : Form} {x : Ix} {ra : Src} {us : List Use} {sh : Shape} (h : s.ix f = some x)
  (hu : f.uses = use 1 ra .P :: us)
include h hu

/-- The executing lanes whose index is misaligned or beyond the allocation. -/
theorem badIndices_eq : (((x.ins f).filter (·.ex)).filter fun l => badSpan (l.w 0 0).toNat sh.words x.env.alloc).map (·.n) =
    x.ex.filter fun l => (x.word l ra).toNat % sh.words != 0 || decide (x.team.alloc x.grp < (x.word l ra).toNat + sh.words) := by
  rw [List.filter_filter, List.filter_congr fun l _ => Bool.and_comm _ _, filter_ins_map_n h]
  refine List.filter_congr fun j _ => ?_
  rw [laneIn_w_zero hu]
  rfl

theorem indexTrap_of_bad (reach : Bool) {i : Nat} {ls : List Nat}
    (hbad : (x.ex.filter fun l => (x.word l ra).toNat % sh.words != 0 ||
      decide (x.team.alloc x.grp < (x.word l ra).toNat + sh.words)) = i :: ls) :
    indexTrap sh ra.code reach x.env (x.ins f) = some (tILLREG, ra.code + 1024, i :: ls) := by
  unfold indexTrap
  dsimp only
  rw [badIndices_eq h hu, hbad]

theorem indexTrap_of_good (code : Nat) (reach : Bool)
    (inside : ∀ l ∈ x.ex, (x.word l ra).toNat % sh.words = 0 ∧ (x.word l ra).toNat + sh.words ≤ x.team.alloc x.grp)
    (unmarked : x.Unmarked f)
    (clean : reach = true → ∀ l ∈ x.ex, ∀ w ∈ (x.grp.lane l).words (x.word l ra).toNat sh.words, w.poison = false) :
    indexTrap sh code reach x.env (x.ins f) = none := by
  have noBad : (x.ex.filter fun l => (x.word l ra).toNat % sh.words != 0 ||
      decide (x.team.alloc x.grp < (x.word l ra).toNat + sh.words)) = [] := by
    refine List.filter_eq_nil_iff.mpr fun l hl => ?_
    obtain ⟨aligned, below⟩ := inside l hl
    simp [aligned, below]
  have noMark : (((x.ins f).filter (·.ex)).filter fun l => l.marked.contains true ||
      (reach && (l.lane.words (l.w 0 0).toNat sh.words).any (·.poison))) = [] := by
    rw [Ix.ins_filter h, List.filter_eq_nil_iff]
    intro k hk
    obtain ⟨l, hl, rfl⟩ := List.mem_map.mp hk
    have own : (x.laneIn f l).marked.contains true = false := by
      refine Bool.eq_false_iff.mpr fun hmark => ?_
      have hin : x.laneIn f l ∈ x.ins f := List.mem_map_of_mem (List.mem_range.mpr (Ix.ex_lt h hl))
      exact absurd (unmarked _ hin true (List.contains_iff_mem.mp hmark)) (by decide)
    have reached : (reach && ((x.laneIn f l).lane.words ((x.laneIn f l).w 0 0).toNat sh.words).any (·.poison)) = false := by
      rw [laneIn_w_zero hu]
      cases reach
      case false => rfl
      case true => exact List.any_eq_false.mpr fun w hw => Bool.eq_false_iff.mp (clean rfl l hl w hw)
    rw [own, reached]
    exact Bool.false_ne_true
  unfold indexTrap
  dsimp only
  rw [badIndices_eq h hu, noBad, noMark]
  rfl

/-- The registers that the scoreboard sees VRD or VWR reach are those from the index on in each executing lane (R127). -/
theorem contains_indexed (hindex : f.index = some sh) (r : RegRef) :
    (x.grp.indexed x.at_ f).contains r =
      x.ex.any fun l => (List.range sh.words).any fun k => r == .v ((x.word l ra).toNat + k) := by
  have head (l : Nat) : (((use 1 ra .P).read x.grp l).headD RWord.zero).bits = x.word l ra := by
    have hw : x.word l ra = (((use 1 ra .P).read x.grp l).map (·.bits)).getD 0 0 := rfl
    rw [hw]
    cases (use 1 ra .P).read x.grp l <;> rfl
  obtain ⟨-, -, hex⟩ := State.ix_lanes h
  unfold Group.indexed
  rw [hindex, hu, ← hex]
  simp only [List.head?_cons, head]
  rw [List.contains_eq_any_beq, List.any_flatMap]
  exact List.any_congr rfl fun l => List.any_map

end

/-! ### VRD and VWR where every index is good -/

section
variable {h : Hd} {sh : Shape} {rd : LDst} {ra rb : Src} {s : State} {x : Ix}

theorem execVrd_lands (hI : Issues (formOf (.vrd h sh rd ra)) s x) (unmarked : x.Unmarked (formOf (.vrd h sh rd ra)))
    (inside : ∀ l ∈ x.ex, (x.word l ra).toNat % sh.words = 0 ∧ (x.word l ra).toNat + sh.words ≤ x.team.alloc x.grp)
    (clean : ∀ l ∈ x.ex, ∀ w ∈ (x.grp.lane l).words (x.word l ra).toNat sh.words, w.poison = false) :
    ∃ s', exec (.vrd h sh rd ra) s = .next s' ∧ Lands (formOf (.vrd h sh rd ra)) s x (.lane rd sh)
      (fun l => ((x.grp.lane l).words (x.word l ra).toNat sh.words).map (·.bits)) x.slots s' := by
  have hu : (formOf (.vrd h sh rd ra)).uses = [use 1 ra .P] := rfl
  rw [exec_vrd]
  unfold execVrd
  refine laneInstr_gives hI rfl (indexTrap_of_good hI.here hu _ true inside unmarked fun _ => clean)
    (fun l _ hl => ?record) fun l _ hl => ?words
  case record => dsimp only; rw [Ix.laneAt_ins x _ hl]; rfl
  case words => dsimp only; rw [Ix.laneAt_ins x _ hl, laneIn_w_zero hu]; rfl

/-- The group that VWR leaves before the advance: the words stand from the index on in each executing lane, and no fixed-latency
producer is left for them (R127; assumption 71). -/
def written (x : Ix) (sh : Shape) (ra rb : Src) : Group :=
  { (x.grp.mapLanes fun l k =>
      if x.ex.contains l then k.setRegs (x.word l ra).toNat ((x.span l rb sh).map RWord.clean) else k) with
    prods := x.grp.prods.filter fun p =>
      !(x.ex.any fun l => (List.range sh.words).any fun k => p.reg == .v ((x.word l ra).toNat + k)) }

theorem reg_written (hx : s.ix (formOf (.vwr h sh ra rb)) = some x) (l n : Nat) :
    ((written x sh ra rb).lane l).reg n =
      if l ∈ x.ex ∧ (x.word l ra).toNat ≤ n ∧ n < (x.word l ra).toNat + (x.span l rb sh).length
      then RWord.clean ((x.span l rb sh).getD (n - (x.word l ra).toNat) 0) else (x.grp.lane l).reg n := by
  by_cases hex : l ∈ x.ex
  · have hlen : l < x.grp.lanes.length := Group.counts_lt (Ix.at_lt hx (Ix.ex_sub hx hex)).2.1
    have hlane : (written x sh ra rb).lane l =
        (x.grp.lane l).setRegs (x.word l ra).toNat ((x.span l rb sh).map RWord.clean) := by
      simp [written, Group.lane, Group.mapLanes, hlen, hex]
    rw [hlane, Lane.reg_setRegs, List.length_map, show RWord.zero = RWord.clean 0 from rfl,
      List.getD_eq_getElem?_getD, List.getElem?_map, Option.getD_map, ← List.getD_eq_getElem?_getD]
    simp only [hex, true_and]
  · have hlane : (written x sh ra rb).lane l = x.grp.lane l := by
      by_cases hlen : l < x.grp.lanes.length <;> simp [written, Group.lane, Group.mapLanes, hlen, hex]
    rw [hlane, if_neg fun hc => hex hc.1]

theorem execVwr_finishes (hI : Issues (formOf (.vwr h sh ra rb)) s x) (unmarked : x.Unmarked (formOf (.vwr h sh ra rb)))
    (inside : ∀ l ∈ x.ex, (x.word l ra).toNat % sh.words = 0 ∧ (x.word l ra).toNat + sh.words ≤ x.team.alloc x.grp) :
    ∃ eff, exec (.vwr h sh ra rb) s = .next (s.finish x (formOf (.vwr h sh ra rb)) noJump eff) ∧
      eff x.grp = written x sh ra rb := by
  have hu : (formOf (.vwr h sh ra rb)).uses = [use 1 ra .P, use 2 rb sh] := rfl
  have noTrap := indexTrap_of_good hI.here hu ra.code false inside unmarked nofun
  rw [exec_vwr]
  unfold execVwr
  simp only [State.begin_ok hI.toAdmits, noTrap]
  refine ⟨_, rfl, ?_⟩
  · have lanes := x.grp.mapLanes_congr
      (fun l k => if x.ex.contains l then k.setRegs ((laneAt (x.ins (formOf (.vwr h sh ra rb))) l).w 0 0).toNat
        (((laneAt (x.ins (formOf (.vwr h sh ra rb))) l).op 1).map RWord.clean) else k)
      (fun l k => if x.ex.contains l then k.setRegs (x.word l ra).toNat ((x.span l rb sh).map RWord.clean) else k)
      fun l _ => by
        by_cases hex : l ∈ x.ex
        · rw [Ix.laneAt_ins x _ (Ix.ex_lt hI.here hex), laneIn_w_zero hu]
          rfl
        · simp [hex]
    rw [lanes, written]
    simp only [contains_indexed (sh := sh) hI.here hu rfl]

end

/-- Settles O10: a bad index traps, and with none VRD is a lane instruction and VWR writes the lanes' own registers. -/
theorem indexedRegisterResults : Obligations.IndexedRegisterResults := by
  intro h sh rd ra rb s x
  refine ⟨fun hI i ls hbad => ?vrdTraps, fun hI i ls hbad => ?vwrTraps, execVrd_lands, fun hI unmarked inside => ?vwr⟩
  case vrdTraps =>
    rw [exec_vrd]
    unfold execVrd
    exact laneInstr_raises hI.toAdmits _ (indexTrap_of_bad hI.here rfl true hbad)
  case vwrTraps =>
    have trap := indexTrap_of_bad (us := [use 2 rb sh]) hI.here rfl false hbad
    rw [exec_vwr]
    unfold execVwr
    simp only [State.begin_ok hI.toAdmits, trap]
    rfl
  case vwr =>
    obtain ⟨eff, hexec, heff⟩ := execVwr_finishes hI unmarked inside
    have hlen : (eff x.grp).lanes.length = x.grp.lanes.length := by rw [heff]; exact x.grp.length_mapLanes _
    obtain ⟨g', hstate, moved⟩ := State.finish_past hI.here (formOf (.vwr h sh ra rb)) eff hlen
    rw [heff] at moved
    refine ⟨g', hexec.trans (congrArg Host.Outcome.next hstate), moved, fun l n => ?_⟩
    have sameReg : (g'.lane l).reg n = ((written x sh ra rb).lane l).reg n := by
      have := congrArg (fun k : Lane => k.reg n) (moved.lanes l)
      exact this
    rw [sameReg, reg_written hI.here]

end Sys2Proof.IndexedRegisters

/-! What the shared cache leaves alone: no message, read or write touches a team, but a write that is lost on a link, which raises a
condition in a team that is there (R188, R364). So none of them brings a team into being. -/

namespace Sys2Proof.TeamFrame

open Sys2Proof.Machine

/-- What each step of a fold leaves, the fold leaves. -/
theorem foldl_keeps {α β γ : Type} {f : β → α → β} (p : β → γ) (hf : ∀ b a, p (f b a) = p b) (l : List α) (b : β) :
    p (l.foldl f b) = p b := by
  induction l generalizing b with
  | nil => rfl
  | cons a l ih => exact (ih (f b a)).trans (hf b a)

theorem teams_foldl {α : Type} {f : State → α → State} (hf : ∀ s a, (f s a).teams = s.teams) (l : List α) (s : State) :
    (l.foldl f s).teams = s.teams := foldl_keeps State.teams hf l s

/-! ### The directory and the slices -/

section
variable (s : State)

@[simp] theorem teams_send (m : Msg) : (s.send m).teams = s.teams := rfl
@[simp] theorem teams_take (m : Msg) : (s.take m).teams = s.teams := rfl
@[simp] theorem teams_setDir (line : Nat) (e : DirEnt) : (s.setDir line e).teams = s.teams := rfl
@[simp] theorem teams_updDir (line : Nat) (leaf : Leaf) (f : DirEnt → DirEnt) : (s.updDir line leaf f).teams = s.teams := rfl
@[simp] theorem teams_setCopy (line d : Nat) (c : Option Copy) : (s.setCopy line d c).teams = s.teams := rfl
@[simp] theorem teams_wrote (chunk : Nat) : (s.wrote chunk).teams = s.teams := rfl
@[simp] theorem teams_sendData (line src dst : Nat) (leaf : Leaf) (grant : Moesi) (chunks : BitVec 8) :
    (s.sendData line src dst leaf grant chunks).teams = s.teams := rfl

@[simp] theorem teams_sends {α : Type} (l : List α) (m : α → Msg) : (l.foldl (fun s a => s.send (m a)) s).teams = s.teams :=
  teams_foldl (fun s a => teams_send s (m a)) l s

@[simp] theorem teams_physWrite (p : Phys) (bs : List Byte) : (s.physWrite p bs).teams = s.teams := by
  simp [State.physWrite, apply_ite State.teams]

@[simp] theorem teams_physPoison (p : Phys) (n : Nat) : (s.physPoison p n).teams = s.teams := by
  simp [State.physPoison, apply_ite State.teams]

@[simp] theorem teams_dramCount (die stack grain : Nat) (conflict crowded : Bool) :
    (s.dramCount die stack grain conflict crowded).teams = s.teams := by
  simp [State.dramCount, apply_ite State.teams]

@[simp] theorem teams_dramWrite (line : Nat) (leaf : Leaf) (data : LineData) (poison chunks : BitVec 8) :
    (s.dramWrite line leaf data poison chunks).teams = s.teams := by
  have written := teams_foldl (f := fun (s : State) (i : Nat) =>
    if chunks.getLsbD i then
      let s := s.physWrite ((leaf.phys (line * 128 % 2 ^ 57)).plus (16 * i)) (lineBytes data (16 * i) 16)
      if poison.getLsbD i then s.physPoison ((leaf.phys (line * 128 % 2 ^ 57)).plus (16 * i)) 16 else s
    else s) (fun s i => by simp [apply_ite State.teams]) (List.range 8) s
  unfold State.dramWrite
  simp only [apply_ite State.teams, teams_dramCount, ite_self]
  split
  · rfl
  · exact written

@[simp] theorem teams_trim (line : Nat) (leaf : Leaf) : (s.trim line leaf).teams = s.teams := by
  simp [State.trim, apply_ite State.teams]

@[simp] theorem teams_trimRegion (home region : Nat) : (s.trimRegion home region).teams = s.teams := by
  refine teams_foldl (fun s e => ?_) s.dirs s
  split
  · split <;> simp
  · rfl

@[simp] theorem teams_updShare (home region : Nat) (f : Share → Share) : (s.updShare home region f).teams = s.teams := by
  unfold State.updShare
  dsimp only
  split
  · split
    · simp [apply_ite State.teams]
    · rfl
  · rfl

@[simp] theorem teams_evictCopy (d line : Nat) : (s.evictCopy d line).teams = s.teams := by
  unfold State.evictCopy
  split
  · rfl
  · dsimp only
    split
    · rfl
    · split
      · simp
      · split <;> rfl

@[simp] theorem teams_roomInSlice (d line : Nat) : (s.roomInSlice d line).teams = s.teams := by
  unfold State.roomInSlice
  dsimp only
  split
  · rfl
  · split
    · rfl
    · split <;> simp

@[simp] theorem teams_putCopy (line d : Nat) (c : Copy) : (s.putCopy line d c).teams = s.teams := by simp [State.putCopy]

@[simp] theorem teams_memRead (line home : Nat) (leaf : Leaf) (chunks : BitVec 8) :
    (s.memRead line home leaf chunks).teams = s.teams := by
  simp [State.memRead, apply_ite State.teams]

@[simp] theorem teams_fill (line home : Nat) (leaf : Leaf) (chunks : BitVec 8) : (s.fill line home leaf chunks).teams = s.teams := by
  simp [State.fill, apply_ite State.teams]

@[simp] theorem teams_fillAt (line d home : Nat) (leaf : Leaf) (chunks : BitVec 8) :
    (s.fillAt line d home leaf chunks).teams = s.teams := by
  simp [State.fillAt, apply_ite State.teams]

@[simp] theorem teams_writeCopy (d : Nat) (o : OutWrite) : (s.writeCopy d o).teams = s.teams := by
  unfold State.writeCopy
  refine (teams_foldl (fun s i => ?_) _ _).trans ?_
  · split <;> rfl
  · simp [apply_ite State.teams]

@[simp] theorem teams_applyOut (src line d : Nat) : (s.applyOut src line d).teams = s.teams :=
  teams_foldl (fun s o => teams_writeCopy s d o) _ _

/-! ### The messages -/

@[simp] theorem teams_grantM (line x : Nat) (leaf : Leaf) : (s.grantM line x leaf).teams = s.teams := by
  simp [State.grantM, apply_ite State.teams]

@[simp] theorem teams_grantWrite (line x : Nat) (leaf : Leaf) : (s.grantWrite line x leaf).teams = s.teams := by
  simp [State.grantWrite]

@[simp] theorem teams_invalidate (kind line x : Nat) (leaf : Leaf) : (s.invalidate kind line x leaf).teams = s.teams := by
  simp [State.invalidate, apply_ite State.teams]

@[simp] theorem teams_evictFilter (m : Msg) : (s.evictFilter m).teams = s.teams := by
  unfold State.evictFilter
  split <;> simp

@[simp] theorem teams_serveHome (m : Msg) : (s.serveHome m).teams = s.teams := by
  simp [State.serveHome, apply_ite State.teams]

@[simp] theorem teams_homeData (m : Msg) (home : Nat) : (s.homeData m home).teams = s.teams := by
  simp [State.homeData, apply_ite State.teams]

@[simp] theorem teams_onGetS (m : Msg) : (s.onGetS m).teams = s.teams := by
  unfold State.onGetS
  dsimp only
  split
  · simp [apply_ite State.teams]
  · split
    · simp
    · split <;> simp [apply_ite State.teams]

@[simp] theorem teams_onGetM (m : Msg) : (s.onGetM m).teams = s.teams := by
  simp [State.onGetM, apply_ite State.teams]

@[simp] theorem teams_onFwdWrite (m : Msg) : (s.onFwdWrite m).teams = s.teams := by
  simp [State.onFwdWrite]

@[simp] theorem teams_onPut (m : Msg) : (s.onPut m).teams = s.teams := by
  simp [State.onPut, apply_ite State.teams]

@[simp] theorem teams_onInv (m : Msg) : (s.onInv m).teams = s.teams := by
  simp [State.onInv]

@[simp] theorem teams_onAck (m : Msg) : (s.onAck m).teams = s.teams := by
  unfold State.onAck
  dsimp only
  split <;> simp [apply_ite State.teams]

@[simp] theorem teams_onFwd (m : Msg) : (s.onFwd m).teams = s.teams := by
  unfold State.onFwd
  dsimp only
  split
  · rfl
  · split
    · split <;> simp [apply_ite State.teams]
    · simp [apply_ite State.teams]

@[simp] theorem teams_onData (m : Msg) : (s.onData m).teams = s.teams := by
  unfold State.onData
  dsimp only
  split
  · rfl
  · simp [apply_ite State.teams]

@[simp] theorem teams_deliver (m : Msg) : (s.deliver m).teams = s.teams := by
  unfold State.deliver
  split <;> simp

@[simp] theorem teams_quiesce (n : Nat) : (State.quiesce n s).teams = s.teams := by
  induction n generalizing s with
  | zero => rfl
  | succ n ih =>
    unfold State.quiesce
    split
    · rw [ih, teams_deliver]
    · rfl

@[simp] theorem teams_settle : s.settle.teams = s.teams := teams_quiesce s _

@[simp] theorem teams_redirect (x key : Nat) (leaf : Leaf) : (s.redirect x key leaf).teams = s.teams := by
  unfold State.redirect
  dsimp only
  split
  · rfl
  · split
    · rfl
    · refine (teams_foldl (fun s d => State.updDie_teams s d _) _ _).trans ?_
      simp [apply_ite State.teams]

end

/-! ### Reads, and what waits -/

section
variable (s : State)

@[simp] theorem teams_cohRead (x key : Nat) (leaf : Leaf) (chunks : BitVec 8) : (s.cohRead x key leaf chunks).2.2.teams = s.teams := by
  unfold State.cohRead State.cohReadBy
  dsimp only
  split
  · split <;> simp
  · split
    · simp
    · simp [apply_ite State.teams]

@[simp] theorem teams_await (a : Acc) (key : Nat) : (s.await a key).teams = s.teams := by simp [State.await, apply_ite State.teams]

@[simp] theorem teams_park (a : Acc) (key : Nat) : (s.park a key).teams = s.teams := by simp [State.park, apply_ite State.teams]

@[simp] theorem teams_notice (a : Acc) (key status : Nat) : (s.notice a key status).teams = s.teams := rfl

/-- The state that a check of several keys leaves. -/
def xlsAfter (s : State) : Xls → State
  | .wait u => u
  | _ => s

/-- The state that a command processor's read leaves. -/
def cpAfter (s : State) : CpIo → State
  | .ok _ u | .wait u => u
  | .bad _ _ => s

theorem teams_xlates (a : Acc) (keys : List Nat) : (xlsAfter s (s.xlates a keys)).teams = s.teams := by
  unfold State.xlates
  dsimp only
  split
  · rfl
  · split
    · rfl
    · refine teams_foldl (fun s r => ?_) _ s
      split <;> simp

theorem teams_cpRead (a : Acc) (va n : Nat) : (cpAfter s (s.cpRead a va n)).teams = s.teams := by
  unfold State.cpRead
  split
  · rfl
  · dsimp only
    have waits (keys : List Nat) := teams_xlates s a keys
    split
    case h_1 => rfl
    case h_2 u h => exact (congrArg (fun r => (xlsAfter s r).teams) h).symm.trans (waits _)
    case h_3 => exact foldl_keeps (fun b : List (Byte × Bool) × State => b.2.teams) (fun b e => teams_cohRead b.2 ..) _ _

/-! ### Writes, which may be lost -/

/-- No team has come into being. -/
structure NoNewTeam (s u : State) : Prop where
  none : ∀ t, s.team t = Option.none → u.team t = Option.none

variable {s}

theorem NoNewTeam.of_teams {u : State} (h : u.teams = s.teams) : NoNewTeam s u :=
  ⟨fun t ht => (congrArg (fun k : Tab TeamRec => k.find t) h).trans ht⟩

theorem NoNewTeam.trans {u v : State} (h : NoNewTeam s u) (k : NoNewTeam u v) : NoNewTeam s v := ⟨fun t ht => k.none t (h.none t ht)⟩

theorem NoNewTeam.foldl {α : Type} {f : State → α → State} (hf : ∀ s a, NoNewTeam s (f s a)) (l : List α) (s : State) :
    NoNewTeam s (l.foldl f s) := by
  induction l generalizing s with
  | nil => exact .of_teams rfl
  | cons a l ih => exact (hf s a).trans (ih (f s a))

variable (s)

theorem noNewTeam_updTeam (t : Nat) (f : TeamRec → TeamRec) : NoNewTeam s (s.updTeam t f) := by
  refine ⟨fun k hk => ?_⟩
  rw [State.team_updTeam]
  split
  case isTrue h => rw [← h, hk]; rfl
  case isFalse => exact hk

theorem noNewTeam_raiseAt (t g id code detail : Nat) (lpc : Word) (lanes : BitVec 32) (addr : Nat) :
    NoNewTeam s (s.raiseAt t g id code detail lpc lanes addr) := by
  refine NoNewTeam.trans (u := { s with issuing := none }) (.of_teams rfl) ?_
  exact noNewTeam_updTeam _ t _

theorem noNewTeam_loseWrite (die link : Nat) (ws : List Writer) : NoNewTeam s (s.loseWrite die link ws) := by
  refine (NoNewTeam.of_teams (State.updDie_teams s _ _)).trans (NoNewTeam.foldl (fun s w => ?_) ws _)
  dsimp only
  split
  · exact (NoNewTeam.of_teams (State.updGrid_teams s w.grid _)).trans (noNewTeam_raiseAt ..)
  · exact .of_teams (State.updGrid_teams ..)

theorem noNewTeam_startWriteBy (look : Bool) (o : OutWrite) : NoNewTeam s (s.startWriteBy look o) := by
  unfold State.startWriteBy
  dsimp only
  split
  · exact noNewTeam_loseWrite ..
  · split <;> exact .of_teams (by simp [apply_ite State.teams])

theorem noNewTeam_cohWrite (o : OutWrite) : NoNewTeam s (s.cohWrite o) := by
  unfold State.cohWrite State.cohWriteBy
  dsimp only
  split
  · split
    · exact noNewTeam_loseWrite ..
    · refine .of_teams ((teams_foldl (fun s i => ?marks) _ _).trans (teams_foldl (fun s i => ?bytes) _ _))
      case marks => simp [apply_ite State.teams]
      case bytes => simp [apply_ite State.teams]
  · exact ((NoNewTeam.of_teams (teams_settle s)).trans (noNewTeam_startWriteBy ..)).trans (.of_teams (teams_settle _))

/-! ### Handlers (R357) -/

@[simp] theorem teams_updHandler (g slot : Nat) (f : HandlerReq → HandlerReq) : (s.updHandler g slot f).teams = s.teams :=
  State.updGrid_teams ..

@[simp] theorem teams_endHandler (g slot : Nat) : (s.endHandler g slot).teams = s.teams := State.updGrid_teams ..

/-- The function is unfolded as a constant: the equation of its value at arguments makes the kernel evaluate the translation. -/
theorem noNewTeam_rewriteTrap (g : Nat) (r : GridRec) (h : HandlerReq) : NoNewTeam s (s.rewriteTrap g r h) := by
  have unfolded := Eq.refl @State.rewriteTrap
  conv at unfolded => rhs; delta State.rewriteTrap
  rw [unfolded]
  dsimp only
  split
  · exact .of_teams (teams_park ..)
  · exact .of_teams (teams_await ..)
  · exact .of_teams ((teams_endHandler ..).trans (teams_notice ..))
  · refine NoNewTeam.trans ?_ (.of_teams (teams_endHandler _ g h.slot))
    exact noNewTeam_cohWrite ..

theorem noNewTeam_dropHandler (g : Nat) (r : GridRec) (h : HandlerReq) : NoNewTeam s (s.dropHandler g r h) :=
  (NoNewTeam.of_teams (teams_updHandler s _ _ _)).trans (noNewTeam_rewriteTrap ..)

theorem noNewTeam_readHandler (g : Nat) (r : GridRec) (h : HandlerReq) : NoNewTeam s (s.readHandler g r h) := by
  have read {u v : State} {a : Acc} {va n : Nat} (k : cpAfter u (u.cpRead a va n) = v) : NoNewTeam u v :=
    .of_teams (k ▸ teams_cpRead u a va n)
  unfold State.readHandler
  dsimp only
  split
  · exact .of_teams rfl
  · split
    · exact noNewTeam_rewriteTrap ..
    · split
      case h_1 u hu => exact read (congrArg (cpAfter s) hu)
      case h_2 => exact (NoNewTeam.of_teams (teams_notice ..)).trans (noNewTeam_dropHandler ..)
      case h_3 bs u hu =>
        refine (read (congrArg (cpAfter s) hu)).trans ?_
        split
        · exact noNewTeam_dropHandler ..
        · split
          · exact .of_teams (teams_updHandler ..)
          · split
            case h_1 v hv => exact read (congrArg (cpAfter u) hv)
            case h_2 => exact (NoNewTeam.of_teams (teams_notice ..)).trans (noNewTeam_dropHandler ..)
            case h_3 args v hv =>
              refine (read (congrArg (cpAfter u) hv)).trans ?_
              split
              · exact noNewTeam_dropHandler ..
              · exact .of_teams (teams_updHandler ..)

theorem noNewTeam_readHandlers (g : Nat) : NoNewTeam s (s.readHandlers g) := by
  unfold State.readHandlers
  split
  · exact .of_teams rfl
  · exact NoNewTeam.foldl (fun s h => noNewTeam_readHandler s g _ h) _ s

end

end Sys2Proof.TeamFrame

/-! Traps (R272, R353 to R358): what a budget that expires raises, which condition is delivered and what it leaves of the team, and the
ends of a record. -/

namespace Sys2Proof.TrapEvents

open Sys2Proof.Machine
open Sys2Proof.TeamFrame

/-! ### The condition that is delivered (R354) -/

/-- Of the earliest cycle the lowest group comes first. -/
def Precedes (c b : Cond) : Prop := c.cyc < b.cyc ∨ (c.cyc = b.cyc ∧ c.grp ≤ b.grp)

theorem firstCond_eq_none {cs : List Cond} (h : firstCond cs = none) : cs = [] := by
  cases cs with
  | nil => rfl
  | cons c cs =>
    unfold firstCond at h
    split at h
    · cases h
    · split at h <;> cases h

theorem firstCond_precedes {cs : List Cond} {c : Cond} (h : firstCond cs = some c) : c ∈ cs ∧ ∀ b ∈ cs, Precedes c b := by
  induction cs generalizing c with
  | nil => cases h
  | cons a cs ih =>
    have self : Precedes a a := .inr ⟨rfl, Nat.le_refl _⟩
    unfold firstCond at h
    split at h
    case h_1 hnone =>
      cases h
      obtain rfl := firstCond_eq_none hnone
      exact ⟨List.mem_singleton.mpr rfl, fun b hb => List.mem_singleton.mp hb ▸ self⟩
    case h_2 b hfirst =>
      obtain ⟨hmem, hprec⟩ := ih hfirst
      split at h
      case isTrue hlt =>
        cases h
        have : Precedes c a := by simp [Precedes] at hlt ⊢; omega
        exact ⟨List.mem_cons_of_mem _ hmem, List.forall_mem_cons.mpr ⟨this, hprec⟩⟩
      case isFalse hge =>
        cases h
        refine ⟨List.mem_cons_self, List.forall_mem_cons.mpr ⟨self, fun b hb => ?_⟩⟩
        have := hprec b hb
        simp [Precedes] at hge this ⊢
        omega

/-! ### The budget (R272) -/

section
variable {t : Nat} {s : State} {r : TeamRec} (ht : s.team t = some r)
include ht

theorem execBudgetExpiry_raises {g : Nat} {k : Group} (hrun : r.trap = none) (hbudget : r.budget = some 0)
    (hlive : r.lowestLive = some (g, k)) :
    ∃ u r', exec (.budgetExpiry t) s = .next u ∧ u.team t = some r' ∧ r'.budget = none ∧ r'.groups = r.groups ∧
      r'.conds = r.conds ++ [⟨s.nextId, g, 8, 0, k.issueAddr.getD (k.lane 0).lpc, 0, 0, s.clock.cycle⟩] ∧
      { u with teams := s.teams, issuing := s.issuing } = s := by
  have spent : (s.updTeam t fun r => { r with budget := none }).team t = some { r with budget := none } := by
    rw [State.team_updTeam_same, ht]
    rfl
  obtain ⟨hteam, -, hframe⟩ := State.raise_spec (s.updTeam t fun r => { r with budget := none }) t g tBUDGET 0
    (k.issueAddr.getD (k.lane 0).lpc) 0 0 spent hrun
  refine ⟨_, _, ?_, hteam, rfl, rfl, rfl, congrArg (fun u : State => { u with teams := s.teams }) hframe⟩
  rw [exec_budgetExpiry, execBudgetExpiry, ht]
  simp only [hlive, hbudget]

/-! ### Delivery, steps 1 and 2 (R353) -/

/-- What delivery notes of the trap (R355). -/
def notedTrap (s : State) (r : TeamRec) (c : Cond) (word : Nat) : TrapInfo :=
  ⟨c, s.time, s.thermal.band.code, word, r.inTx, none, 0⟩

/-- The record of a team whose condition `c` is delivered. -/
def stoppedRec (s : State) (r : TeamRec) (c : Cond) (word : Nat) : TeamRec :=
  { r with
    trap := some (notedTrap s r c word), conds := [], copies := [], barq := []
    groups := r.groups.mapv fun n g => g.stopped (if n = c.grp then some c.id else none) }

theorem takeTrap_eq {c : Cond} (hrun : r.trap = none) (hfirst : firstCond r.conds = some c) (word : Nat) :
    s.takeTrap t word =
      { (s.dropReqs fun q => q.ofTeam s t && !q.completes) with teams := s.teams.ins t (stoppedRec s r c word) }.updCore r.core
        fun k => k.dropTeam t := by
  rw [State.takeTrap, ht]
  simp only [hrun, hfirst]
  rfl

/-! ### Delivery, step 3 (R353) -/

end

/-- Once nothing of what a team issued is left, its version is discarded. -/
def discardedRec (now : Nat) (r : TeamRec) : TeamRec :=
  match r.trap with
  | some i =>
    if i.gone.isNone && r.drained then
      { r with trap := some { i with gone := some (!r.ver.isEmpty, r.ver.lines), since := now }, ver := .empty }
    else r
  | none => r

theorem discard_eq (s : State) (t : Nat) : s.discard t = s.updTeam t (discardedRec s.time) := rfl

/-- What a team issued has completed where nothing of it is left. -/
theorem drained_iff (r : TeamRec) :
    r.drained = true ↔ r.dev = none ∧ ∀ e ∈ r.groups, e.2.storeQ = [] ∧ e.2.atoms = [] ∧ e.2.waitsAt = none := by
  simp [TeamRec.drained, and_assoc]

/-- What the record of a trap says once the version has been discarded, where it has. -/
def afterDiscard (now : Nat) (r : TeamRec) (i : TrapInfo) : TrapInfo :=
  if r.drained then { i with gone := some (!r.ver.isEmpty, r.ver.lines), since := now } else i

theorem discardedRec_of_trap (now : Nat) {r : TeamRec} {i : TrapInfo} (htrap : r.trap = some i) (hgone : i.gone = none) :
    discardedRec now r =
      { r with trap := some (afterDiscard now r i), ver := if r.drained then .empty else r.ver } := by
  unfold discardedRec afterDiscard
  simp only [htrap, hgone, Option.isNone_none, Bool.true_and]
  cases r.drained
  · show r = { r with trap := some i }
    rw [← htrap]
  · rfl

/-! ### What delivery leaves -/

/-- The state that TRAP_DELIVERY leaves where a condition is delivered: the grid counts the trap (R295). -/
def delivered (t : Nat) (s : State) (r : TeamRec) (c : Cond) : State :=
  ((s.takeTrap t (r.wordAt c.lpc)).discard t).updGrid r.grid fun g =>
    { (g.trap c.code) with faulted := g.faulted || (c.code != tLINKLOST && r.conds.any fun c => c.code == tLINKLOST) }

/-- The instructions that a group issued before the trap: all of another group, and of the trapping group those before the one that
traps (R97). -/
def issuedBefore (c : Cond) (n id : Nat) : Bool := n != c.grp || decide (id < c.id)

theorem stopped_before (c : Cond) (n id : Nat) :
    decide (id < (if n = c.grp then some c.id else none).getD (id + 1)) = issuedBefore c n id := by
  unfold issuedBefore
  split
  case isTrue h => simp [h]
  case isFalse h => simp [h]

/-- What a group keeps when its team takes a trap. -/
theorem stopped_spec (c : Cond) (n : Nat) (h : Group) :
    let h' := h.stopped (if n = c.grp then some c.id else none)
    h'.loads = [] ∧ h'.fences = [] ∧ h'.arrivals = [] ∧
    h'.storeQ = h.storeQ.filter (fun e => issuedBefore c n e.id) ∧
    h'.atoms = (((h.atoms.filter fun a => issuedBefore c n a.id).map fun a =>
      { a with lanes := a.lanes.filter fun e => !a.tx.contains e.1 }).filter fun a => !a.lanes.isEmpty) ∧
    h'.gregs = h.gregs ∧ h'.lanes.length = h.lanes.length ∧
    ((∃ id, h.waitsAt = some id ∧ issuedBefore c n id = true) → h'.wait = h.wait ∧ h'.held = h.held) ∧
    ((∀ id, h.waitsAt = some id → issuedBefore c n id = false) → h'.wait = .none ∧ h'.held = .none) ∧
    ∀ j, j < h.lanes.length → h'.lane j = { h.lane j with tx := none, relay := [] } := by
  unfold Group.stopped
  simp only [stopped_before, List.length_map, true_and]
  refine ⟨fun ⟨id, hid, hb⟩ => ?kept, fun hlate => ?dropped, fun j hj => ?lane⟩
  case kept => simp [hid, hb]
  case dropped =>
    have : h.waitsAt.any (issuedBefore c n) = false := by
      cases hw : h.waitsAt with
      | none => rfl
      | some id => exact hlate id hw
    simp [this]
  case lane => simp [Group.lane, hj]

section
variable {t : Nat} {s : State} {r : TeamRec} {c : Cond} (ht : s.team t = some r) (hrun : r.trap = none)
  (hfirst : firstCond r.conds = some c)
include ht hrun hfirst

theorem execTrapDelivery_eq : exec (.trapDelivery t) s = .next (delivered t s r c) := by
  rw [exec_trapDelivery, execTrapDelivery, ht]
  simp only [hrun, hfirst]
  rfl

theorem team_delivered : (delivered t s r c).team t = some (discardedRec s.time (stoppedRec s r c (r.wordAt c.lpc))) := by
  have taken : (s.takeTrap t (r.wordAt c.lpc)).team t = some (stoppedRec s r c (r.wordAt c.lpc)) := by
    rw [takeTrap_eq ht hrun hfirst]
    exact Tab.find_ins_same ..
  have sameTime : (s.takeTrap t (r.wordAt c.lpc)).time = s.time := by rw [takeTrap_eq ht hrun hfirst]; rfl
  have : (delivered t s r c).team t = ((s.takeTrap t (r.wordAt c.lpc)).discard t).team t := rfl
  rw [this, discard_eq, State.team_updTeam_same, taken, sameTime]
  rfl

theorem core_delivered : (delivered t s r c).core r.core = (s.core r.core).dropTeam t := by
  have : (delivered t s r c).core r.core = (s.takeTrap t (r.wordAt c.lpc)).core r.core := rfl
  rw [this, takeTrap_eq ht hrun hfirst, State.core_updCore_same]
  rfl

theorem memory_delivered : (delivered t s r c).dram = s.dram ∧ (delivered t s r c).copies = s.copies := by
  have same : (s.takeTrap t (r.wordAt c.lpc)).dram = s.dram ∧ (s.takeTrap t (r.wordAt c.lpc)).copies = s.copies := by
    rw [takeTrap_eq ht hrun hfirst]
    exact ⟨rfl, rfl⟩
  exact same

theorem grid_delivered {q : GridRec} (hq : s.grid r.grid = some q) :
    ∃ q', (delivered t s r c).grid r.grid = some q' ∧ q'.traps = q.traps + 1 := by
  have same : ((s.takeTrap t (r.wordAt c.lpc)).discard t).grid r.grid = s.grid r.grid := by
    rw [takeTrap_eq ht hrun hfirst]
    rfl
  rw [delivered, State.grid_updGrid, if_pos rfl, same, hq]
  exact ⟨_, rfl, rfl⟩

end

/-! ### The ends of a team (R353, R356 to R358) -/

section
variable (s : State) (t : Nat) (r : TeamRec)

theorem team_freeTeam : (s.freeTeam t).team t = none := by
  unfold State.freeTeam
  split
  case h_1 h => exact h
  case h_2 => exact Tab.find_del_same ..

theorem freeTeam_frame : (s.freeTeam t).ctxs = s.ctxs ∧ (s.freeTeam t).dram = s.dram := by
  unfold State.freeTeam
  split <;> exact ⟨rfl, rfl⟩

/-- The end of a team frees it, and touches beside it its grid and the clock of an idle device. -/
theorem endTeam_frame : (s.endTeam t r).team t = none ∧ (s.endTeam t r).ctxs = s.ctxs ∧ (s.endTeam t r).dram = s.dram := by
  have freed := And.intro (team_freeTeam s t) (freeTeam_frame s t)
  unfold State.endTeam
  dsimp only
  split <;> exact freed

theorem team_afterTrap (i : TrapInfo) (retry : Bool) (h : Option HandlerReq) : (s.afterTrap t r i retry h).team t = none := by
  obtain ⟨hteam, -, -⟩ := endTeam_frame s t r
  unfold State.afterTrap
  split
  · exact hteam
  · have ended : (s.endTrapped t r i).team t = none := hteam
    split
    case h_1 req => exact (noNewTeam_readHandlers _ _).none t ended
    case h_2 => exact ended

end

section
variable {t : Nat} {s : State} {r : TeamRec} {i : TrapInfo} (ht : s.team t = some r) (htrap : r.trap = some i)
include ht htrap

theorem trapLost_eq :
    s.trapLost t = (s.updCtx r.ctx fun c => { c with traplost := satInc c.traplost }).endTrapped t r i := by
  rw [State.trapLost, ht]
  simp only [htrap]

/-- A trap whose record is not written ends its team, and the context counts it (R356). -/
theorem trapLost_spec : (s.trapLost t).team t = none ∧
    ((s.trapLost t).ctx r.ctx).traplost = satInc (s.ctx r.ctx).traplost ∧ (s.trapLost t).dram = s.dram := by
  rw [trapLost_eq ht htrap]
  obtain ⟨hteam, hctxs, hdram⟩ := endTeam_frame (s.updCtx r.ctx fun c => { c with traplost := satInc c.traplost }) t r
  refine ⟨hteam, ?_, hdram⟩
  have sameCtx := congrArg (fun k => (Tab.get CtxRec.reset k r.ctx).traplost) hctxs
  exact sameCtx.trans (congrArg CtxRec.traplost (State.ctx_updCtx_same ..))

/-! ### The record (R355, R356) -/

theorem execTrapRecordWrite_waits (hgone : i.gone = none) : exec (.trapRecordWrite t) s = .next s := by
  rw [exec_trapRecordWrite, execTrapRecordWrite, ht]
  simp only [htrap, hgone, Option.isNone_none, Bool.or_true, Bool.true_or, if_true]

theorem execTrapRecordWrite_lost (live : s.live = true) (hgone : i.gone.isSome = true) (free : s.blocked (.trapRec t) = false)
    (off : (s.ctx r.ctx).trapctl.getLsbD 31 = false) : exec (.trapRecordWrite t) s = .next (s.trapLost t) := by
  have there : i.gone.isNone = false := by rw [← Option.not_isSome, hgone]; rfl
  rw [exec_trapRecordWrite, execTrapRecordWrite, ht]
  simp only [htrap, live, there, free, off, Bool.not_true, Bool.not_false, Bool.or_false, Bool.true_or, Bool.false_eq_true, if_true, if_false]

end

/-- The bytes of a team's trap record, with what GRIDDESC and SEQ say of its grid (R355). -/
def recordBytes (s : State) (r : TeamRec) (i : TrapInfo) (retry lost : Bool) : List Byte :=
  trapBytes r i ((s.grid r.grid).elim 0 (·.desc)) ((s.grid r.grid).elim 0 (·.seq)) (trapFlags r i retry lost)

/-- The slot of the ring that a trap record of the context `c` takes next (R356). -/
def recordSlot (c : CtxRec) : Nat := c.traptail.toNat % trapSlots c

/-- Where that slot lies. -/
def recordAt (c : CtxRec) : Nat := c.trapbase.toNat + 128 * recordSlot c

/-- The handler that a record calls (R357). -/
def handlerOf (s : State) (r : TeamRec) (i : TrapInfo) : HandlerReq :=
  ⟨(s.ctx r.ctx).trapdesc.toNat, none, false, recordAt (s.ctx r.ctx), recordSlot (s.ctx r.ctx), recordBytes s r i (s.retries r i) true,
    r.core / 40, []⟩

/-- Whether a trap that is not retried calls a handler (R357). -/
def hands (s : State) (r : TeamRec) (i : TrapInfo) : Bool :=
  !s.retries r i && r.handler.isNone && (s.ctx r.ctx).trapdesc != 0

section
variable {t : Nat} {s : State} {r : TeamRec} {i : TrapInfo} {leaf : Leaf} (ht : s.team t = some r) (htrap : r.trap = some i)
  (live : s.live = true) (hgone : i.gone.isSome = true) (free : s.blocked (.trapRec t) = false)
  (on : (s.ctx r.ctx).trapctl.getLsbD 31 = true) (fits : recordAt (s.ctx r.ctx) + 128 ≤ 2 ^ 57)
  (idle : s.slotBusy r.ctx (recordSlot (s.ctx r.ctx)) = false)
  (hleaf : s.xlate ⟨.trapRec t, r.ctx, 4, 2, r.core / 40, 255⟩ (byteKey r.ctx (recordAt (s.ctx r.ctx))) = .ok leaf)
include ht htrap live hgone free on fits idle hleaf

/-- Where nothing stands against the record, it waits for the release of the team's writes alone. -/
theorem execTrapRecordWrite_reaches : exec (.trapRecordWrite t) s =
    if (s.l1Flush r.core r.ctx).outPending r.core r.ctx then .next (s.l1Flush r.core r.ctx)
    else .next (((s.l1Flush r.core r.ctx).putTrap t r i leaf (recordAt (s.ctx r.ctx))
        (recordBytes s r i (s.retries r i) (!s.retries r i && !hands s r i))).afterTrap t r i (s.retries r i)
      (if hands s r i then some (handlerOf s r i) else none)) := by
  have there : i.gone.isNone = false := by rw [← Option.not_isSome, hgone]; rfl
  have inside : decide (2 ^ 57 < recordAt (s.ctx r.ctx) + 128) = false := decide_eq_false (by omega)
  unfold recordAt recordSlot at inside hleaf
  unfold recordSlot at idle
  rw [exec_trapRecordWrite, execTrapRecordWrite, ht]
  simp only [htrap]
  rw [if_neg (by simp [live, there, free]), if_neg (by simp only [on, inside, Bool.not_true, Bool.or_false, Bool.false_eq_true, not_false_eq_true]),
    if_neg (by simp [idle])]
  rw [dieOf, hleaf]
  rfl

/-- The three ends of a record that is written: a retry, no handler, and a handler (R357, R358). -/
theorem execTrapRecordWrite_ends (out : (s.l1Flush r.core r.ctx).outPending r.core r.ctx = false) {bytes : List Byte} {retry : Bool}
    {h : Option HandlerReq} (hretry : s.retries r i = retry) (hbytes : recordBytes s r i retry (!retry && !hands s r i) = bytes)
    (hhand : (if hands s r i then some (handlerOf s r i) else none) = h) :
    ∃ u, exec (.trapRecordWrite t) s = .next u ∧ u.team t = none ∧
      u = ((s.l1Flush r.core r.ctx).putTrap t r i leaf (recordAt (s.ctx r.ctx)) bytes).afterTrap t r i retry h := by
  refine ⟨_, ?_, team_afterTrap _ t r i retry h, rfl⟩
  rw [execTrapRecordWrite_reaches ht htrap live hgone free on fits idle hleaf, out, hretry, hbytes, hhand]
  rfl

end

/-! ### Delivery, assembled -/

section
variable {t : Nat} {s : State} {r : TeamRec} {c : Cond} (ht : s.team t = some r)
include ht

theorem execTrapDelivery_discards {i : TrapInfo} (htrap : r.trap = some i) : exec (.trapDelivery t) s = .next (s.discard t) := by
  rw [exec_trapDelivery, execTrapDelivery, ht]
  simp only [htrap]

/-- Once what the team issued is complete, its version goes and nothing else does (step 3 of R353). -/
theorem execTrapDelivery_drained {i : TrapInfo} (htrap : r.trap = some i) (hgone : i.gone = none) (hdrained : r.drained = true) :
    ∃ u, exec (.trapDelivery t) s = .next u ∧
      u.team t = some { r with trap := some { i with gone := some (!r.ver.isEmpty, r.ver.lines), since := s.time }, ver := .empty } ∧
      { u with teams := s.teams } = s := by
  refine ⟨_, execTrapDelivery_discards ht htrap, ?_, rfl⟩
  rw [discard_eq, State.team_updTeam_same, ht, Option.map_some, discardedRec_of_trap s.time htrap hgone]
  simp only [afterDiscard, hdrained, if_true]

end

/-- What the record of a trap and the version of its team become at delivery, where all has completed and where it has not. -/
theorem afterDiscard_spec (now : Nat) (r : TeamRec) {i : TrapInfo} (hgone : i.gone = none) :
    (r.drained = true → (if r.drained then Version.empty else r.ver) = .empty ∧
      (afterDiscard now r i).gone = some (!r.ver.isEmpty, r.ver.lines) ∧ (afterDiscard now r i).since = now) ∧
    (¬ r.drained = true → (if r.drained then Version.empty else r.ver) = r.ver ∧ (afterDiscard now r i).gone = none) := by
  unfold afterDiscard
  refine ⟨fun h => ?_, fun h => ?_⟩
  · simp only [h, if_true, and_self]
  · simp only [if_neg h, hgone, and_self]

theorem afterDiscard_keeps (now : Nat) (r : TeamRec) (i : TrapInfo) :
    (afterDiscard now r i).cond = i.cond ∧ (afterDiscard now r i).time = i.time := by
  unfold afterDiscard
  split <;> exact ⟨rfl, rfl⟩

theorem group_stoppedRec (s : State) {r : TeamRec} (c : Cond) (word : Nat) {n : Nat} {h : Group} (hgroup : r.groups.find n = some h) :
    (stoppedRec s r c word).groups.find n = some (h.stopped (if n = c.grp then some c.id else none)) := by
  simp only [stoppedRec, Tab.find_mapv, hgroup, Option.map_some]

theorem queues_dropTeam (k : CoreRec) (t : Nat) :
    (∀ o ∈ (k.dropTeam t).tileQ, o.team ≠ t) ∧ ∀ b ∈ (k.dropTeam t).bulkQ, b.team ≠ t := by
  simp [CoreRec.dropTeam]

/-- Settles O47: a budget that is spent raises BUDGET; delivery keeps of the team the record `stoppedRec`, whose version goes once it
is drained; and a record that nothing holds back ends the team in one of its four ways. -/
theorem trapEventResults : Obligations.TrapEventResults := by
  unfold Obligations.TrapEventResults
  intro t g s r k c i leaf ht
  refine ⟨execBudgetExpiry_raises ht, fun hrun hfirst => ⟨firstCond_precedes hfirst, ?delivery⟩, fun htrap hgone => ?later,
    fun htrap live hgone free => ⟨fun off => ?lost, fun on fits idle hleaf => ⟨fun out => ?flush, fun out => ?written⟩⟩⟩
  case delivery =>
    have hteam := team_delivered ht hrun hfirst
    let stopped := stoppedRec s r c (r.wordAt c.lpc)
    let noted := notedTrap s r c (r.wordAt c.lpc)
    rw [discardedRec_of_trap s.time (i := noted) rfl rfl] at hteam
    obtain ⟨hcond, htime⟩ := afterDiscard_keeps s.time stopped noted
    obtain ⟨gone, kept⟩ := afterDiscard_spec s.time stopped (i := noted) rfl
    have done := drained_iff stopped
    obtain ⟨tiles, bulks⟩ := queues_dropTeam (s.core r.core) t
    obtain ⟨hdram, hcopies⟩ := memory_delivered ht hrun hfirst
    refine ⟨delivered t s r c, _, _, execTrapDelivery_eq ht hrun hfirst, hteam, rfl, hcond, htime, rfl, rfl, rfl, rfl, ?groups,
      ⟨fun h => gone (done.mpr h), fun h => kept (h ∘ done.mp)⟩, ?tiles, ?bulks, hdram, hcopies, fun q => grid_delivered ht hrun hfirst⟩
    case groups => exact fun n h hgroup => ⟨_, group_stoppedRec s c (r.wordAt c.lpc) hgroup, stopped_spec c n h⟩
    case tiles => rwa [core_delivered ht hrun hfirst]
    case bulks => rwa [core_delivered ht hrun hfirst]
  case later =>
    exact ⟨fun _ => execTrapRecordWrite_waits ht htrap hgone, execTrapDelivery_drained ht htrap hgone⟩
  case lost => exact ⟨_, execTrapRecordWrite_lost ht htrap live hgone free off, trapLost_spec ht htrap⟩
  case flush => rw [execTrapRecordWrite_reaches ht htrap live hgone free on fits idle hleaf, if_pos out]
  case written =>
    have ends := @execTrapRecordWrite_ends t s r i leaf ht htrap live hgone free on fits idle hleaf out
    refine ⟨fun retry => ?again, fun retry nobody => ?unhandled, fun retry desc handler => ?handled⟩
    case again =>
      have alone : hands s r i = false := by simp only [hands, retry, Bool.not_true, Bool.false_and]
      exact ends retry (by rw [alone]; rfl) (by rw [alone]; rfl)
    case unhandled =>
      have alone : hands s r i = false := by
        unfold hands
        obtain hdesc | hhandler := nobody
        · simp [hdesc]
        · simp [Option.isSome_iff_ne_none.mp hhandler]
      exact ends retry (by rw [alone]; rfl) (by rw [alone]; rfl)
    case handled =>
      have called : hands s r i = true := by
        simp only [hands, retry, handler, Option.isNone_none, Bool.not_false, Bool.and_self, Bool.true_and, bne_iff_ne]
        exact desc
      refine ends retry (by rw [called]; rfl) ?_
      rw [called, handlerOf, retry]
      rfl

end Sys2Proof.TrapEvents

/-! A copy beside a clean copy that memory has overtaken.

A lane of CPY takes the line of its destination as a store does (`Sys2Proof.StoreDrain`): from a core of another die it goes in M with
only the chunks that the home's copy has newer, and that copy goes (R231, R232). Where the host has written the line in DRAM through the
physical aperture (R334), the chunks beside the destination stood in the home's clean copy, and now stand as memory has them: the copy
has changed bytes that it does not write. -/

namespace Sys2Proof.CopyLane

open Sys2Proof.Machine
open Sys2Proof.StoreDrain (page exec_physicalApertureAccess_arrives)

/-- A key whose check answers a leaf is translated. -/
theorem xlates_of_xlate {s : State} {a : Acc} {key : Nat} {l : Leaf} (h : s.xlate a key = .ok l) : s.xlates a [key] = .ok [l] := by
  simp [State.xlates, h]

/-- A copy whose ends are both translated, and whose write is not held, has the two leaves. -/
theorem copyLeaves_of_xlate {s : State} {a : Nat → Acc} {src dst : Nat} {lf lt : Leaf} (hs : s.xlate (a 1) src = .ok lf)
    (hd : s.xlate (a 2) dst = .ok lt) : s.copyLeaves a src dst false = .ok [lf, lt] := by
  simp [State.copyLeaves, xlates_of_xlate hs, xlates_of_xlate hd]

/-- A CPY whose lane 31 copies 16 bytes from address 128 to address 0. -/
def copying : CopyOp := ⟨4, 0, 0, 16, 15, false, [(31, 0, 128)], false, []⟩

/-- A bulk copy that is in no queue, to stand for the one of which CPYB's statements speak. -/
def noBulk : BulkOp :=
  { id := 0, team := 0, grp := 0, ctx := 0, die := 0, lpc := 0, src := 0, dst := 0, len := 0, dir := false, remote := false
    ord := false, peer := 0, sig := false, chs := 0, hops := 0, bar := 0, esc := false, todo := [], sent := [], forward := false
    seen := 0, bad := false, got := [] }

/-- Its team, on the first core of die 1. -/
def team : TeamRec := { TeamRec.loaded with core := 40, copies := [copying] }

/-- The device whose home, die 0, holds line 0 whole and clean, with that CPY under way on a die that has page 0's translation. -/
def cached : State :=
  { StoreDrain.cached with teams := [(0, team)], dies := [(1, { DieRec.reset with tlb := [(0, page)] })] }

/-- The same once the host has written the byte 5 at 16 in DRAM, in a chunk of the destination's line that the copy leaves alone. -/
def overtaken : State := cached.physAccess .a 16 (.write [5] false false)

/-- After the lane has been read and written. -/
def copied : State := overtaken.copyLane 0 copying.id 31

/-- So the device comes to the second state from the first. -/
theorem physicalWrite_overtakes :
    exec (.physicalApertureAccess .a 16 (.write [5] false false)) cached = .next overtaken :=
  exec_physicalApertureAccess_arrives (s := cached) 16 (.write [5] false false) (by decide) rfl

/-- Nothing is on its way, and no other die than the home holds the line of either end. -/
theorem overtaken_atRest {key : Nat} (hkey : key = byteKey team.ctx 128 ∨ key = byteKey team.ctx 0) :
    overtaken.AtRest team.core key page := by
  have reach : ∀ a < 4, ∀ b < 4, overtaken.reach a b = true := by decide
  have noL1 : ∀ n l, overtaken.l1 team.core n = some l → l.dirty = 0 := fun _ _ h => nomatch h
  rcases hkey with rfl | rfl
  all_goals exact ⟨by decide, rfl, rfl, by decide, fun a b ha hb => reach a ha b hb, by decide, rfl, by decide, rfl, noL1 _,
    by decide, by decide, by decide, by decide⟩

/-- Before the copy the home's copy gives the byte at 16. -/
theorem overtaken_standing : overtaken.standing 16 page = 0 := by decide +kernel

/-- After it memory does: die 1 holds the destination's chunk alone, and the home's copy has gone. -/
theorem copied_standing : copied.standing 16 page = 5 := by decide +kernel

/-- So the byte at 16 has changed, though the copy wrote only the 16 bytes from 0 on. -/
theorem not_copied : ¬ Copied copied overtaken (byteKey team.ctx 128) page (byteKey team.ctx 0) page copying.n := by
  intro ⟨sameLine, _⟩
  have h := sameLine 16 rfl
  rw [copied_standing, if_neg (by decide), overtaken_standing] at h
  exact absurd h (by decide)

/-- No page of either end is awaited, and nothing comes before the copy. -/
theorem overtaken_free : overtaken.attachedAt (.copy 0 copying.id) [byteKey team.ctx 128, byteKey team.ctx 0] = false ∧
    team.engineWaits copying.grp copying.id copying.lpc = false := ⟨by decide, by decide⟩

/-- Both ends are translated, by the entry that their die holds (R321). -/
theorem overtaken_xlate :
    overtaken.xlate (groupAcc team (.copy 0 copying.id) 1 1) (byteKey team.ctx 128) = .ok page ∧
    overtaken.xlate (groupAcc team (.copy 0 copying.id) 1 2) (byteKey team.ctx 0) = .ok page := by decide +kernel

theorem overtaken_copyLeaves :
    overtaken.copyLeaves (fun acc => groupAcc team (.copy 0 copying.id) 1 acc) (byteKey team.ctx 128) (byteKey team.ctx 0)
      (team.d.latent && !copying.esc) = .ok [page, page] :=
  copyLeaves_of_xlate overtaken_xlate.1 overtaken_xlate.2

/-- The clocks run, so the lane is performed. -/
theorem execCopyChunk_overtaken : exec (.copyChunk 0 copying.id 31) overtaken = .next copied := rfl

/-- The lane meets every hypothesis of one that is copied between lines at rest. -/
theorem not_copyEventPart : ¬ CopyEventPart := by
  intro h
  obtain ⟨lane, _⟩ := h 0 copying.id 31 0 0 128 0 overtaken overtaken true team copying noBulk [page, page] page page ⟨0, 0, 0⟩ 0 0 []
    (by decide) rfl
  obtain ⟨_, performed, _⟩ := lane rfl rfl
  obtain ⟨free, first⟩ := overtaken_free
  obtain ⟨_, atRest⟩ := performed rfl free first overtaken_copyLeaves
  obtain ⟨u, hu, ends⟩ := atRest rfl (.inl rfl) ⟨rfl, rfl⟩ (by decide) (by decide) (by decide) (overtaken_atRest (.inl rfl))
    (overtaken_atRest (.inr rfl))
  obtain rfl : copied = u := Host.Outcome.next.inj (execCopyChunk_overtaken.symm.trans hu)
  exact not_copied ends

/-- Refutes O43: a lane of CPY that a core of another die performs changes a byte of its destination's line that it does not write,
where the home's clean copy is older than memory. -/
theorem not_engineEventResults : ¬ Obligations.EngineEventResults := fun h => not_copyEventPart h.2

end Sys2Proof.CopyLane

/-! The tile instructions at their issue, and what the acceptance of one leaves (R133, R135, R136, R142, R147, R149, R151). -/

namespace Sys2Proof.TileIssue

open Sys2Proof.Machine

/-- An instruction that issues on a bank of the team's meets no trap of its bank number. -/
theorem beginBank_of_bank {f : Form} {s : State} {x : Ix} {k p : Nat} (hI : Issues f s x) (hp : x.team.banks[k]? = some p) :
    s.beginBank f (some k) = .ok x :=
  State.beginBank_ok (State.begin_ok hI.toAdmits) (List.getElem?_eq_some_iff.mp hp).1

theorem misBase_none {bases : List Nat} (h : ∀ a ∈ bases, a % 8 = 0) : misBase bases = none := by
  simpa [misBase, List.find?_eq_none] using h

/-! ### From the descriptor on -/

/-- What a tile instruction does once its descriptor has been read without a mark: ILLOP, ALIGN, the transaction rule, acceptance. -/
def afterDescriptor (f : Form) (s : State) (x : Ix) (ill : Bool) (bases : List Nat) (o : TileOp) : Out :=
  if ill then .next (s.raise x.t x.g tILLOP 0 x.pc 0 0)
  else
    match misBase bases with
    | some a => .next (s.raise x.t x.g tALIGN 0 x.pc (maskOf x.ex) a)
    | none =>
      x.outsideTx f s
        (if s.tileFull x.team.core then .next (s.finish x f noJump fun g => { g with held := .tile o, wait := .tile })
         else .next ((s.finish x f noJump id).tileAccept x.t x.g x.team o))

section
variable {f : Form} {s : State} {x : Ix}

/-- The words of the one source of an instruction that issues carry no mark in an executing lane. -/
theorem source_unmarked {u : Use} {i : Nat} (hI : Issues f s x) (hu : f.uses = [u]) (eats : u.eats = true) (hi : i ∈ x.ex) :
    (u.read x.grp i).any (·.poison) = false := by
  have h := List.filter_eq_nil_iff.mp hI.clean i hi
  simpa [hu, eats] using h

/-- Where an executing lane issues it with a barrier register of the team, a tile instruction comes to its descriptor. -/
theorem tileInstr_eq {j : Fin 16} {n : Nat} {ill : List Word → Bool} {bases : List Word → List Nat} {bank : Option Nat}
    {kind : Ix → TileKind} {u : Use} {i : Nat} {ls : List Nat} {w : List Word} {p : Nat} (hI : Issues f s x)
    (hbank : s.beginBank f bank = .ok x) (hp : (bank.bind fun k => x.team.banks[k]?).getD 4 = p) (hu : f.uses = [u])
    (eats : u.eats = true) (hw : ((u.read x.grp i).take n).map (·.bits) = w) (hex : x.ex = i :: ls)
    (hj : j.val < x.team.d.barriers) :
    tileInstr f j n ill bases bank kind s =
      afterDescriptor f s x (ill w) (bases w) ⟨0, x.t, x.g, x.pc, kind x, w, p, j.val, [], 0, false, none, []⟩ := by
  have hsource : x.source f 0 i = u.read x.grp i := by rw [Ix.source, hu]; rfl
  have clean : ((u.read x.grp i).take n).any (·.poison) = false := by
    have whole := source_unmarked hI hu eats (hex ▸ List.mem_cons_self)
    rw [List.any_eq_false] at whole ⊢
    exact fun r hr => whole r (List.mem_of_mem_take hr)
  unfold tileInstr afterDescriptor
  simp only [hbank, hex, Nat.not_le.mpr hj, if_false, hsource, clean, Bool.false_eq_true, hw, hp] <;> rfl

end

/-- What a tile instruction does from its descriptor on: it traps ILLOP, traps ALIGN, is accepted, or waits. -/
theorem afterDescriptor_outcomes {f : Form} {s : State} {x : Ix} (hx : s.ix f = some x) (ill : Bool) (bases : List Nat) (o : TileOp) :
    (ill = true → afterDescriptor f s x ill bases o = .next (s.raise x.t x.g 1 0 x.pc 0 0)) ∧
    (∀ a, ill = false → (bases.find? fun a => a % 8 != 0) = some a →
      afterDescriptor f s x ill bases o = .next (s.raise x.t x.g 4 0 x.pc (maskOf x.ex) a)) ∧
    (ill = false → (∀ a ∈ bases, a % 8 = 0) → x.inTx = [] → (s.core x.team.core).tileQ.length < 8 →
      ∃ g', Advanced f s x (x.past f) x.grp g' ∧
        afterDescriptor f s x ill bases o = .next ((s.withGroup x g').tileAccept x.t x.g x.team o)) ∧
    (ill = false → (∀ a ∈ bases, a % 8 = 0) → x.inTx = [] → 8 ≤ (s.core x.team.core).tileQ.length →
      ∃ s', afterDescriptor f s x ill bases o = .next s' ∧
        Moved f s x (x.past f) { x.grp with held := .tile o, wait := .tile } s') := by
  have performed (good : ill = false) (aligned : ∀ a ∈ bases, a % 8 = 0) (out : x.inTx = []) : afterDescriptor f s x ill bases o =
      if s.tileFull x.team.core then .next (s.finish x f noJump fun g => { g with held := .tile o, wait := .tile })
      else .next ((s.finish x f noJump id).tileAccept x.t x.g x.team o) := by
    simp only [afterDescriptor, good, Bool.false_eq_true, if_false, misBase_none aligned, Ix.outsideTx, Ix.outsideTxIdle, out]
  refine ⟨fun bad => ?illop, fun a good first => ?align, fun good aligned out room => ?accepted, fun good aligned out full => ?waits⟩
  case illop => rw [afterDescriptor, if_pos bad]; rfl
  case align =>
    have hfirst : misBase bases = some a := first
    simp only [afterDescriptor, good, Bool.false_eq_true, if_false, hfirst]
    rfl
  case accepted =>
    obtain ⟨g', hfinish, moved⟩ := State.finish_past hx f id rfl
    refine ⟨g', moved, ?_⟩
    rw [performed good aligned out, if_neg (by simpa [State.tileFull] using room), hfinish]
  case waits =>
    refine ⟨_, ?_, State.finish_past hx f (fun g => { g with held := .tile o, wait := .tile }) rfl⟩
    rw [performed good aligned out, if_pos (by simpa [State.tileFull] using full)]

/-! ### The three instructions -/

theorem tileIssuePart : TileIssuePart := by
  intro h ra k j mode z sr vr pts s x i ls
  dsimp only
  intro hex hj
  refine ⟨fun p hp => ⟨fun hI => ?tloop, fun hI => ?tqnt⟩, fun few hI => ?thad⟩
  case tloop =>
    have hbank := beginBank_of_bank hI hp
    have hphys : ((some k.val).bind fun k => x.team.banks[k]?).getD 4 = p := congrArg (Option.getD · 4) hp
    simp only [Completes, exec_tloop, execTloop]
    rw [tileInstr_eq hI hbank hphys rfl rfl rfl hex hj]
    exact afterDescriptor_outcomes hI.here ..
  case tqnt =>
    have hbank := beginBank_of_bank hI hp
    have hphys : ((some k.val).bind fun k => x.team.banks[k]?).getD 4 = p := congrArg (Option.getD · 4) hp
    simp only [Completes, exec_tqnt, execTqnt]
    rw [tileInstr_eq hI hbank hphys rfl rfl rfl hex hj]
    exact afterDescriptor_outcomes hI.here ..
  case thad =>
    have hbank : s.beginBank (formOf (.thad h ra pts j sr)) none = .ok x := by
      simp [State.beginBank, State.begin_ok hI.toAdmits]
    have hphys : 4 = x.team.banks.getD 4 4 := by simp [List.getD, List.getElem?_eq_none few]
    simp only [Completes, exec_thad, execThad]
    rw [tileInstr_eq hI hbank hphys rfl rfl rfl hex hj]
    exact afterDescriptor_outcomes hI.here ..

/-! ### Acceptance -/

section
variable {s : State} {t g : Nat} {r : TeamRec} {o : TileOp} {k : Group} (ht : s.team t = some r) (hg : r.groups.find g = some k)
  (hsteps : o.steps ≠ 0)
include ht

/-- The team once the arrival has been posted and the dithers taken. -/
theorem team_posted : ((s.barEvent t g o.bar o.lpc (.arrive o.steps false false)).updGroup t g fun k =>
      k.mapLanes fun i l => l.consume 3 (o.draws i)).team t =
    some { r with
      barq := r.barq ++ [⟨s.nextId, o.bar, g, o.lpc, .arrive o.steps false false⟩]
      groups := r.groups.upd g fun k => k.mapLanes fun i l => l.consume 3 (o.draws i) } := by
  simp [State.barEvent, State.barEventAt, State.updGroup, ht]

include hg hsteps

/-- An accepted tile instruction that has steps: its arrival is posted and its dithers are taken, and it joins the queue with the
slot-3 streams as they stood. -/
theorem tileAccept_eq : s.tileAccept t g r o =
    { (s.barEvent t g o.bar o.lpc (.arrive o.steps false false)).updGroup t g
        (fun k => k.mapLanes fun i l => l.consume 3 (o.draws i)) with nextId := s.nextId + 1 }.updCore r.core fun c =>
      { c with tileQ := c.tileQ ++ [{ o with id := s.nextId, dith := k.lanes.map fun l : Lane => l.slot 3 }] } := by
  have hgroup : (s.barEvent t g o.bar o.lpc (.arrive o.steps false false)).group t g = some k := by
    simp [State.barEvent, State.barEventAt, State.group, ht, hg]
  unfold State.tileAccept
  simp only [hgroup]
  rw [if_neg]
  · rfl
  · split
    · simpa using hsteps
    · exact Bool.false_ne_true

end

theorem tileAcceptancePart : TileAcceptancePart := by
  intro s t g r o k ht hg hsteps
  dsimp only
  rw [tileAccept_eq ht hg hsteps]
  refine ⟨?queue, _, team_posted ht, rfl, ?group⟩
  case queue =>
    rw [State.core_updCore_same]
    rfl
  case group => rw [Tab.find_upd_same, hg, Option.map_some]

/-- Settles O27: from the descriptor on the three instructions do the same, and an acceptance is two changes of the team and one of its
core's queue. -/
theorem tileIssueResults : Obligations.TileIssueResults := ⟨tileIssuePart, tileAcceptancePart⟩

end Sys2Proof.TileIssue

/-! The cells of a bank (R148): what TACC.RD and TACC.WR give their lanes, and what TACC.WR and TACC.ZERO leave in the bank. -/

namespace Sys2Proof.TileCells

open Sys2Proof.Machine
open Sys2Proof.TileIssue (beginBank_of_bank)
open Sys2Proof.LaneResults (laneIn_op_zero)

/-! ### Outside a transaction -/

section
variable {f : Form} {s : State} {x : Ix} (out : x.inTx = [])
include out

theorem tx_none {i : Nat} (hi : i ∈ x.ex) : (x.grp.lane i).tx = none := by
  simpa using List.filter_eq_nil_iff.mp out i hi

/-- Every executing lane is outside. -/
theorem filter_outside : (x.ex.filter fun i => (x.grp.lane i).tx.isNone) = x.ex :=
  List.filter_eq_self.mpr fun i hi => by rw [tx_none out hi]; rfl

/-- No lane goes back to a resume point. -/
theorem advance_resume (g : Group) (k : Form) (cyc : Nat) : g.advance x k cyc x.resume = g.advance x k cyc noJump := by
  have same (i : Nat) : (if x.ex.contains i then (x.resume i).getD (x.pc + Word.ofNat k.len) else x.pc + Word.ofNat k.len) =
      if x.ex.contains i then (noJump i).getD (x.pc + Word.ofNat k.len) else x.pc + Word.ofNat k.len := by
    by_cases hi : i ∈ x.ex
    · rw [Ix.resume, tx_none out hi]; rfl
    · simp [hi]
  unfold Group.advance
  simp only [same]

theorem finish_resume (s : State) (k : Form) (eff : Group → Group) : s.finish x k x.resume eff = s.finish x k noJump eff := by
  simp only [State.finish, advance_resume out]

/-- TACC.RD and TACC.WR act for all executing lanes on the team's bank, where no cell that is read carries a mark. -/
theorem taccInstr_issues {k : Fin 4} {p : Nat} {rd : Bool} (hI : Issues f s x) (hp : x.team.banks[k.val]? = some p)
    (clean : rd = true → ∀ l ∈ x.ex, ((s.core x.team.core).cell p (cellOf (x.arg f l 0 0))).poison = false)
    (body : Ix → List LaneIn → List Nat → Nat → State → Out) :
    taccInstr f k rd body s = body x (x.ins f) x.ex p s := by
  have hphys : x.team.banks.getD k.val 4 = p := by rw [List.getD_eq_getElem?_getD, hp, Option.getD_some]
  have unmarked : (if rd then x.ex.filter fun i =>
      ((s.core x.team.core).cell p (cellOf (laneWord (x.ins f) 0 i))).poison else []) = [] := by
    split
    case isTrue h =>
      refine List.filter_eq_nil_iff.mpr fun l hl => ?_
      rw [laneWord_ins hI.here hl, clean h l hl]
      exact Bool.false_ne_true
    case isFalse => rfl
  unfold taccInstr
  simp only [beginBank_of_bank hI hp, hI.clean, hphys, filter_outside out, unmarked]

/-- An issue that aborts the lanes inside a transaction only writes its results where there are none. -/
theorem lands_of_resume (hx : s.ix f = some x) (res : Nat → List Word) :
    Lands f s x f.dest res x.slots (s.finish x f x.resume fun g =>
      (g.abort x.inTx).commit x f s.clock.cycle fun i => ((g.abort x.inTx).lane i, res i)) := by
  have hres := lands_of_commit hx (fun i => (x.grp.lane i, res i)) x.slots fun _ _ => rfl
  rw [State.finish_eq hx] at hres
  rw [finish_resume out, State.finish_eq hx, out, Group.abort_nil]
  exact hres

end

/-! ### TACC.RD -/

/-- The words of a cell that a form of TACC.RD gives. -/
def readWords (fm : AccForm) (c : TileCell) : List Word :=
  match fm with
  | .p => [c.mean]
  | .pvar => [c.var]
  | .m => [c.mean, c.var]

section
variable {h : Hd} {rd : LDst} {ra : Src} {k : Fin 4} {s : State} {x : Ix} {p : Nat}

theorem execTaccRd_lands (fm : AccForm) (out : x.inTx = []) (hp : x.team.banks[k.val]? = some p)
    (hI : Issues (formOf (.taccRd h rd ra k fm)) s x)
    (clean : ∀ l ∈ x.ex, ((s.core x.team.core).cell p (cellOf (x.word l ra))).poison = false) :
    ∃ s', exec (.taccRd h rd ra k fm) s = .next s' ∧
      Lands (formOf (.taccRd h rd ra k fm)) s x (.lane rd (if fm = .m then .M else .P))
        (fun l => readWords fm ((s.core x.team.core).cell p (cellOf (x.word l ra)))) x.slots s' := by
  have index (l : Nat) : x.arg (formOf (.taccRd h rd ra k fm)) l 0 0 = x.word l ra :=
    LaneResults.laneIn_w_zero (us := []) rfl l 0
  rw [exec_taccRd]
  unfold execTaccRd
  rw [taccInstr_issues out hI hp fun _ l hl => by rw [index, clean l hl]]
  refine ⟨_, rfl, (lands_of_resume out hI.here _).congr (fun l hl => ?_) fun _ _ => rfl⟩
  rw [laneWord_ins hI.here hl, index]
  cases fm <;> rfl

/-! ### TACC.WR -/

theorem execTaccWr_lands {sh : Shape} {i : Nat} {ls : List Nat} (hex : x.ex = i :: ls) (out : x.inTx = [])
    (hp : x.team.banks[k.val]? = some p) (hI : Issues (formOf (.taccWr h sh rd ra k)) s x) :
    let w := taccWrites sh p (x.ins (formOf (.taccWr h sh rd ra k))) x.ex (s.core x.team.core)
    ∃ s', exec (.taccWr h sh rd ra k) s = .next s' ∧
      Lands (formOf (.taccWr h sh rd ra k)) (s.setCore x.team.core w.1) x (.lane rd sh)
        (fun l => ((w.2.find? fun e => e.1 == l).map (·.2)).getD []) x.slots s' := by
  intro w
  have nonempty : x.ex.isEmpty = false := by rw [hex]; rfl
  rw [exec_taccWr]
  unfold execTaccWr
  rw [taccInstr_issues (rd := false) out hI hp nofun]
  simp only [nonempty, Bool.false_eq_true, if_false]
  exact ⟨_, rfl, lands_of_resume (s := s.setCore x.team.core w.1) out hI.here _⟩

/-- A write by one lane: it sets the cell that its operand names, and gets what the cell held. -/
theorem taccWrites_one (sh : Shape) (ins : List LaneIn) (i : Nat) (core : CoreRec) {w : List Word}
    (hw : (ins.getD i ⟨i, false, Lane.none, [], []⟩).op 0 = w) :
    let n := cellOf (w.getD (if sh = .P then 1 else 2) 0)
    let c := core.cell p n
    taccWrites sh p ins [i] core =
      (core.setCell p n ⟨w.getD 0 0, if sh = .P then c.var else w.getD 1 0, false⟩,
        [(i, if sh = .P then [c.mean] else [c.mean, c.var])]) := by
  subst hw
  cases sh <;> rfl

theorem execTaccWr_one {sh : Shape} {i : Nat} (hex : x.ex = [i]) (out : x.inTx = []) (hp : x.team.banks[k.val]? = some p)
    (hI : Issues (formOf (.taccWr h sh rd ra k)) s x) :
    let w := x.span i ra (if sh = .P then .M else .Q)
    let n := cellOf (w.getD (if sh = .P then 1 else 2) 0)
    let c := (s.core x.team.core).cell p n
    let core := (s.core x.team.core).setCell p n ⟨w.getD 0 0, if sh = .P then c.var else w.getD 1 0, false⟩
    ∃ s', exec (.taccWr h sh rd ra k) s = .next s' ∧
      Lands (formOf (.taccWr h sh rd ra k)) (s.setCore x.team.core core) x (.lane rd sh)
        (fun _ => if sh = .P then [c.mean] else [c.mean, c.var]) x.slots s' := by
  intro w n c core
  have hlane := Ix.ins_getD hI.here (hex ▸ List.mem_cons_self) ⟨i, false, Lane.none, [], []⟩
  have hw : ((x.ins (formOf (.taccWr h sh rd ra k))).getD i ⟨i, false, Lane.none, [], []⟩).op 0 = w :=
    (congrArg (LaneIn.op · 0) hlane).trans (laneIn_op_zero (us := []) rfl i)
  obtain ⟨s', hexec, lands⟩ := execTaccWr_lands hex out hp hI
  rw [hex, taccWrites_one sh _ _ _ hw] at lands
  refine ⟨s', hexec, lands.congr (fun l hl => ?_) fun _ _ => rfl⟩
  obtain rfl : l = i := by simpa [hex] using hl
  simp only [List.find?_cons, beq_self_eq_true, Option.map_some, Option.getD_some]
  rfl

end

/-! ### TACC.ZERO -/

/-- A core with one bank cleared: every cell of it is zero, and every other bank is as before. -/
theorem cell_del (c : CoreRec) (p b n : Nat) :
    ({ c with bank := c.bank.del p } : CoreRec).cell b n = if b = p then ⟨0, 0, false⟩ else c.cell b n := by
  by_cases hb : b = p
  · subst hb; simp [CoreRec.cell, Tab.get, TileCell.zero]
  · simp [CoreRec.cell, Tab.get, Tab.find_del_ne _ hb, hb]

theorem execTaccZero_eq {h : Hd} {k : Fin 4} {s : State} {x : Ix} {p i : Nat} {ls : List Nat} (hex : x.ex = i :: ls)
    (out : x.inTx = []) (hp : x.team.banks[k.val]? = some p) (hI : Issues (formOf (.taccZero h k)) s x) :
    exec (.taccZero h k) s = .next ((s.updCore x.team.core fun c => { c with bank := c.bank.del p }).finish x
      (formOf (.taccZero h k)) noJump id) := by
  have hphys : x.team.banks.getD k.val 4 = p := by rw [List.getD_eq_getElem?_getD, hp, Option.getD_some]
  rw [exec_taccZero]
  unfold execTaccZero
  simp only [beginBank_of_bank hI hp, hex, Ix.outsideTx, Ix.outsideTxIdle, out, hphys]

/-- Settles O28: every executing lane is outside a transaction, so a read gives each its cell, a write goes through the cells lane by
lane, and a clear takes the bank's table away. -/
theorem tileCellResults : Obligations.TileCellResults := by
  intro h rd ra k fm sh s x i ls p
  dsimp only
  intro hex out hp
  refine ⟨execTaccRd_lands fm out hp, fun hI one => execTaccWr_one (one ▸ hex) out hp hI,
    fun hI one => execTaccWr_one (one ▸ hex) out hp hI, fun _ => execTaccWr_lands hex out hp, fun hI => ?zero⟩
  case zero =>
    obtain ⟨g', hstate, moved⟩ := State.finish_past (s := s.updCore x.team.core fun c => { c with bank := c.bank.del p }) hI.here
      (formOf (.taccZero h k)) id rfl
    refine ⟨g', _, (execTaccZero_eq hex out hp hI).trans (congrArg Host.Outcome.next hstate), ?group, fun n => ?cleared,
      fun b n hb => ?others, rfl⟩
    case group =>
      obtain ⟨lanes, lpc, pass, freed, stalls, dist, notBefore, prods, frame⟩ := moved
      exact ⟨lanes, lpc, pass, freed, stalls, dist, notBefore, prods, frame⟩
    case cleared => rw [cell_del, if_pos rfl]
    case others => rw [cell_del, if_neg hb]

end Sys2Proof.TileCells

/-! Barrier registers: what each event of a cycle does to its register and to the group that it comes from (R256 to R260, R274), and
that every event keeps the registers in the ranges of R256. -/

namespace Sys2Proof.BarrierRegisters

open Sys2Proof.Machine

/-! ### A register changed, and the completion of its phase (R257) -/

/-- A register after an event: where ARR = TARGET and EXP = 0 its phase completes. -/
def settle (b : Bar) : Bar :=
  if b.arr = b.target ∧ b.exp = 0 then { b with arr := 0, parity := !b.parity, waiters := 0 } else b

theorem putBar_bars (r : TeamRec) (j : Nat) (b : Bar) : (r.putBar j b).bars = r.bars.set j (settle b) := by
  unfold TeamRec.putBar settle
  split <;> rfl

theorem bar_of_bars_set {r r' : TeamRec} {j : Nat} {b : Bar} (hj : j < r.bars.length) (h : r'.bars = r.bars.set j b) :
    r'.bar j = b := by
  simp [TeamRec.bar, h, hj]

theorem bar_putBar {r : TeamRec} {j : Nat} (hj : j < r.bars.length) (b : Bar) : (r.putBar j b).bar j = settle b :=
  bar_of_bars_set hj (putBar_bars r j b)

theorem ite_wait_none (woken : Bool) (k : Group) :
    ∃ w, (if woken then { k with wait := .none } else k) = { k with wait := w } := by
  cases woken with
  | true => exact ⟨.none, rfl⟩
  | false => exact ⟨k.wait, rfl⟩

/-- A completion wakes waiters: of a group it changes at most the wait. -/
theorem find_putBar {r : TeamRec} {g : Nat} {k : Group} (j : Nat) (b : Bar) (hk : r.groups.find g = some k) :
    ∃ w, (r.putBar j b).groups.find g = some { k with wait := w } := by
  unfold TeamRec.putBar
  split
  case isTrue =>
    rw [Tab.find_mapv, hk, Option.map_some]
    exact (ite_wait_none _ k).imp fun _ => congrArg some
  case isFalse => exact ⟨k.wait, hk⟩

/-! ### A wait on a parity (R259) -/

/-- A register with a group's bit set in WAITERS. -/
def withWaiter (b : Bar) (g : Nat) : Bar := { b with waiters := b.waiters ||| BitVec.ofNat 32 (2 ^ g) }

section
variable {r : TeamRec} {j g : Nat} {q : Bool}

theorem waitOn_of_ne (h : (r.bar j).parity ≠ q) :
    r.waitOn j g q = { r with groups := r.groups.upd g fun k => { k with wait := .none } } :=
  if_pos (bne_iff_ne.mpr h)

theorem waitOn_of_eq (h : (r.bar j).parity = q) :
    r.waitOn j g q = { r with bars := r.bars.set j (withWaiter (r.bar j) g)
                              groups := r.groups.upd g fun k => { k with wait := .barrier j q } } :=
  if_neg fun ne => bne_iff_ne.mp ne h

theorem bar_waitOn_of_ne (h : (r.bar j).parity ≠ q) : (r.waitOn j g q).bar j = r.bar j := by
  rw [waitOn_of_ne h]
  rfl

theorem bar_waitOn_of_eq (hj : j < r.bars.length) (h : (r.bar j).parity = q) :
    (r.waitOn j g q).bar j = withWaiter (r.bar j) g :=
  bar_of_bars_set hj (congrArg TeamRec.bars (waitOn_of_eq h))

theorem find_waitOn_of_ne {k : Group} (h : (r.bar j).parity ≠ q) (hk : r.groups.find g = some k) :
    (r.waitOn j g q).groups.find g = some { k with wait := .none } := by
  rw [waitOn_of_ne h, Tab.find_upd_same, hk, Option.map_some]

theorem find_waitOn_of_eq {k : Group} (h : (r.bar j).parity = q) (hk : r.groups.find g = some k) :
    (r.waitOn j g q).groups.find g = some { k with wait := .barrier j q } := by
  rw [waitOn_of_eq h, Tab.find_upd_same, hk, Option.map_some]

end

/-! ### The events and their limits (R257, R260, R274) -/

/-- A register after an arrival with a post of `n`, before its phase is looked at. -/
def arrived (b : Bar) (n : Nat) (na : Bool) : Bar := { b with arr := b.arr + (!na).toNat, exp := b.exp + n }

section
variable {r : TeamRec} {id j g n : Nat} {lpc : Word} {sync na : Bool}

theorem barStep_arrive (harr : (r.bar j).arr + (!na).toNat ≤ (r.bar j).target) (hexp : (r.bar j).exp + n < 2 ^ 40) :
    r.barStep ⟨id, j, g, lpc, .arrive n sync na⟩ =
      .ok (if sync then (r.putBar j (arrived (r.bar j) n na)).waitOn j g (r.bar j).parity
        else r.putBar j (arrived (r.bar j) n na)) :=
  (if_neg (Nat.not_lt.mpr harr)).trans (if_neg (Nat.not_le.mpr hexp))

theorem barStep_arrive_beyond_target (h : (r.bar j).target < (r.bar j).arr + (!na).toNat) :
    r.barStep ⟨id, j, g, lpc, .arrive n sync na⟩ = .error (j + 16 * 3) :=
  if_pos h

theorem barStep_arrive_beyond_exp (harr : (r.bar j).arr + (!na).toNat ≤ (r.bar j).target) (hexp : 2 ^ 40 ≤ (r.bar j).exp + n) :
    r.barStep ⟨id, j, g, lpc, .arrive n sync na⟩ = .error (j + 16 * 4) :=
  (if_neg (Nat.not_lt.mpr harr)).trans (if_pos hexp)

theorem barStep_post (h : (r.bar j).exp + n < 2 ^ 40) :
    r.barStep ⟨id, j, g, lpc, .post n false⟩ = .ok (r.putBar j { r.bar j with exp := (r.bar j).exp + n }) :=
  if_neg (Nat.not_le.mpr h)

theorem barStep_post_beyond_exp (h : 2 ^ 40 ≤ (r.bar j).exp + n) :
    r.barStep ⟨id, j, g, lpc, .post n false⟩ = .error (j + 16 * 4) :=
  if_pos h

theorem barStep_dec (h : n ≤ (r.bar j).exp) :
    r.barStep ⟨id, j, g, lpc, .post n true⟩ = .ok (r.putBar j { r.bar j with exp := (r.bar j).exp - n }) :=
  if_neg (Nat.not_lt.mpr h)

theorem barStep_dec_below_zero (h : (r.bar j).exp < n) : r.barStep ⟨id, j, g, lpc, .post n true⟩ = .error (j + 16 * 5) :=
  if_pos h

theorem barStep_init (hpos : 0 < n) (hmax : n ≤ 65535) (harr : (r.bar j).arr = 0) (hexp : (r.bar j).exp = 0)
    (hwait : (r.bar j).waiters = 0) :
    r.barStep ⟨id, j, g, lpc, .init n⟩ = .ok (r.putBar j { r.bar j with target := n }) :=
  (if_neg (by omega)).trans (if_neg (by simp [harr, hexp, hwait]))

theorem barStep_init_bad_target (h : n = 0 ∨ 65535 < n) : r.barStep ⟨id, j, g, lpc, .init n⟩ = .error (j + 16) :=
  if_pos h

theorem barStep_init_in_use (hpos : 0 < n) (hmax : n ≤ 65535)
    (h : (r.bar j).arr ≠ 0 ∨ (r.bar j).exp ≠ 0 ∨ (r.bar j).waiters ≠ 0) :
    r.barStep ⟨id, j, g, lpc, .init n⟩ = .error (j + 16 * 2) :=
  (if_neg (by omega)).trans (if_pos h)

end

/-! ### The ranges of R256 -/

/-- The ranges of a register's fields. -/
def Bounded (b : Bar) : Prop := 0 < b.target ∧ b.target ≤ 65535 ∧ b.arr ≤ b.target ∧ b.exp < 2 ^ 40

/-- A register in range whose phase is not complete. -/
def InRange (b : Bar) : Prop := 0 < b.target ∧ b.target ≤ 65535 ∧ b.arr ≤ b.target ∧ b.exp < 2 ^ 40 ∧ ¬(b.arr = b.target ∧ b.exp = 0)

theorem InRange.bounded {b : Bar} (h : InRange b) : Bounded b := by
  obtain ⟨hpos, hmax, harr, hexp, -⟩ := h
  exact ⟨hpos, hmax, harr, hexp⟩

/-- A completion leaves ARR 0 below a TARGET of at least 1, so that the next phase does not stand complete. -/
theorem Bounded.inRange_settle {b : Bar} (h : Bounded b) : InRange (settle b) := by
  obtain ⟨hpos, hmax, harr, hexp⟩ := h
  unfold settle
  split
  case isTrue => exact ⟨hpos, hmax, Nat.zero_le _, hexp, fun done => Nat.ne_of_lt hpos done.1⟩
  case isFalse hopen => exact ⟨hpos, hmax, harr, hexp, hopen⟩

/-- A register set: it need be in range only where it stands in the list, and there the register before it was. -/
theorem barsOk_of_set {r r' : TeamRec} {j : Nat} {b : Bar} (h : r.barsOk) (hset : r'.bars = r.bars.set j b)
    (keeps : InRange (r.bar j) → InRange b) : r'.barsOk := by
  intro c hc
  rw [hset] at hc
  by_cases hj : j < r.bars.length
  · obtain hc | rfl := List.mem_or_eq_of_mem_set hc
    · exact h c hc
    · refine keeps (h _ ?_)
      rw [TeamRec.bar, List.getD_eq_getElem?_getD, List.getElem?_eq_getElem hj, Option.getD_some]
      exact List.getElem_mem hj
  · rw [List.set_eq_of_length_le (Nat.le_of_not_lt hj)] at hc
    exact h c hc

theorem barsOk_putBar {r : TeamRec} {j : Nat} {b : Bar} (h : r.barsOk) (keeps : Bounded (r.bar j) → Bounded b) :
    (r.putBar j b).barsOk :=
  barsOk_of_set h (putBar_bars r j b) fun was => (keeps was.bounded).inRange_settle

theorem barsOk_waitOn {r : TeamRec} (h : r.barsOk) (j g : Nat) (q : Bool) : (r.waitOn j g q).barsOk := by
  by_cases hq : (r.bar j).parity = q
  · exact barsOk_of_set h (congrArg TeamRec.bars (waitOn_of_eq hq)) id
  · rw [waitOn_of_ne hq]
    exact h

/-- EXP lowered, by landed data or by `.DEC`. -/
theorem Bounded.lower {b : Bar} (h : Bounded b) (n : Nat) : Bounded { b with exp := b.exp - n } := by
  obtain ⟨hpos, hmax, harr, hexp⟩ := h
  exact ⟨hpos, hmax, harr, Nat.lt_of_le_of_lt (Nat.sub_le _ _) hexp⟩

section
variable {r r' : TeamRec} {id j g n : Nat} {lpc : Word}

theorem barsOk_arrive {sync na : Bool} (h : r.barsOk) (hstep : r.barStep ⟨id, j, g, lpc, .arrive n sync na⟩ = .ok r') :
    r'.barsOk := by
  by_cases harr : (r.bar j).arr + (!na).toNat ≤ (r.bar j).target
  case neg => rw [barStep_arrive_beyond_target (Nat.lt_of_not_le harr)] at hstep; cases hstep
  by_cases hexp : (r.bar j).exp + n < 2 ^ 40
  case neg => rw [barStep_arrive_beyond_exp harr (Nat.le_of_not_lt hexp)] at hstep; cases hstep
  rw [barStep_arrive harr hexp] at hstep
  have put : (r.putBar j (arrived (r.bar j) n na)).barsOk :=
    barsOk_putBar h fun ⟨hpos, hmax, _, _⟩ => ⟨hpos, hmax, harr, hexp⟩
  cases sync with
  | false => cases hstep; exact put
  | true => cases hstep; exact barsOk_waitOn put _ _ _

theorem barsOk_post {dec : Bool} (h : r.barsOk) (hstep : r.barStep ⟨id, j, g, lpc, .post n dec⟩ = .ok r') : r'.barsOk := by
  cases dec with
  | false =>
    by_cases hexp : (r.bar j).exp + n < 2 ^ 40
    case neg => rw [barStep_post_beyond_exp (Nat.le_of_not_lt hexp)] at hstep; cases hstep
    cases (barStep_post hexp).symm.trans hstep
    exact barsOk_putBar h fun ⟨hpos, hmax, harr, _⟩ => ⟨hpos, hmax, harr, hexp⟩
  | true =>
    by_cases hexp : n ≤ (r.bar j).exp
    case neg => rw [barStep_dec_below_zero (Nat.lt_of_not_le hexp)] at hstep; cases hstep
    cases (barStep_dec hexp).symm.trans hstep
    exact barsOk_putBar h (·.lower n)

/-- BINIT is taken only where ARR is 0, which every target is at least. -/
theorem barsOk_init (h : r.barsOk) (hstep : r.barStep ⟨id, j, g, lpc, .init n⟩ = .ok r') : r'.barsOk := by
  by_cases hn : n = 0 ∨ 65535 < n
  case pos => rw [barStep_init_bad_target hn] at hstep; cases hstep
  have hpos : 0 < n := by omega
  have hmax : n ≤ 65535 := by omega
  by_cases hfree : (r.bar j).arr ≠ 0 ∨ (r.bar j).exp ≠ 0 ∨ (r.bar j).waiters ≠ 0
  case pos => rw [barStep_init_in_use hpos hmax hfree] at hstep; cases hstep
  simp only [ne_eq, not_or, Decidable.not_not] at hfree
  obtain ⟨harr, hexp, hwait⟩ := hfree
  cases (barStep_init hpos hmax harr hexp hwait).symm.trans hstep
  exact barsOk_putBar h fun ⟨_, _, _, hexp⟩ => ⟨hpos, hmax, Nat.le_trans (Nat.le_of_eq harr) (Nat.zero_le n), hexp⟩

end

/-- Settles O24, by the kinds of events: each that does not trap has stayed within its limits, a completion starts a phase with ARR 0,
and a wait or a test leaves TARGET, ARR and EXP alone. -/
theorem barrierRegistersStayInRange : Obligations.BarrierRegistersStayInRange := by
  intro r r' ⟨id, j, g, lpc, kind⟩ h hstep
  cases kind with
  | land n => cases hstep; exact barsOk_putBar h (·.lower n)
  | arrive n sync na => exact barsOk_arrive h hstep
  | post n dec => exact barsOk_post h hstep
  | init n => exact barsOk_init h hstep
  | wait q => cases hstep; exact barsOk_waitOn h j g q
  | test get q dst lanes => cases hstep; exact h

/-! ### BSYNC: an arrival, then a wait on the parity before it (R259) -/

section
variable {r : TeamRec} {j : Nat}

/-- An arrival that completes the phase flips the parity, so that the wait returns at once. -/
theorem bsync_of_complete (hj : j < r.bars.length) (g : Nat) (done : (r.bar j).arr + 1 = (r.bar j).target ∧ (r.bar j).exp = 0) :
    let r' := (r.putBar j (arrived (r.bar j) 0 false)).waitOn j g (r.bar j).parity
    r'.bar j = { r.bar j with arr := 0, parity := !(r.bar j).parity, waiters := 0 } ∧
      ∀ k, r.groups.find g = some k → r'.groups.find g = some { k with wait := .none } := by
  intro r'
  have hbar := (bar_putBar hj (arrived (r.bar j) 0 false)).trans (if_pos done)
  have flipped : ((r.putBar j (arrived (r.bar j) 0 false)).bar j).parity ≠ (r.bar j).parity := by
    rw [hbar]
    exact (Bool.not_eq_self _).mp
  refine ⟨(bar_waitOn_of_ne flipped).trans hbar, fun k hk => ?_⟩
  obtain ⟨w, hw⟩ := find_putBar j (arrived (r.bar j) 0 false) hk
  exact find_waitOn_of_ne (k := { k with wait := w }) flipped hw

/-- An arrival that does not complete the phase leaves the parity, so that the group waits for the phase that it arrived in. -/
theorem bsync_of_open (hj : j < r.bars.length) (g : Nat) (more : ¬((r.bar j).arr + 1 = (r.bar j).target ∧ (r.bar j).exp = 0)) :
    let r' := (r.putBar j (arrived (r.bar j) 0 false)).waitOn j g (r.bar j).parity
    r'.bar j = { r.bar j with arr := (r.bar j).arr + 1, waiters := (r.bar j).waiters ||| BitVec.ofNat 32 (2 ^ g) } ∧
      ∀ k, r.groups.find g = some k → r'.groups.find g = some { k with wait := .barrier j (r.bar j).parity } := by
  intro r'
  have hbar := (bar_putBar hj (arrived (r.bar j) 0 false)).trans (if_neg more)
  have same : ((r.putBar j (arrived (r.bar j) 0 false)).bar j).parity = (r.bar j).parity := by
    rw [hbar]
    rfl
  have hlen : j < (r.putBar j (arrived (r.bar j) 0 false)).bars.length := by rwa [putBar_bars, List.length_set]
  refine ⟨(bar_waitOn_of_eq hlen same).trans (congrArg (withWaiter · g) hbar), fun k hk => ?_⟩
  obtain ⟨w, hw⟩ := find_putBar j (arrived (r.bar j) 0 false) hk
  exact find_waitOn_of_eq (k := { k with wait := w }) same hw

end

/-- Settles O25: each clause is its event's equation, with the register that `putBar` or `waitOn` leaves. -/
theorem barrierEventRules : Obligations.BarrierEventRules := by
  rintro r id j g lpc n dst lanes get q na _ hj rfl
  refine ⟨⟨_, rfl, bar_putBar hj _⟩,
    fun harr hexp => ⟨_, barStep_arrive harr hexp, bar_putBar hj _⟩,
    fun harr hexp => ⟨_, barStep_arrive harr hexp, bar_putBar hj _⟩,
    barStep_arrive_beyond_target (na := false), barStep_arrive_beyond_exp,
    fun hexp => ⟨_, barStep_post hexp, bar_putBar hj _⟩, barStep_post_beyond_exp,
    fun hexp => ⟨_, barStep_dec hexp, bar_putBar hj _⟩, barStep_dec_below_zero,
    barStep_init_bad_target, barStep_init_in_use,
    fun hpos hmax harr hexp hwait => ⟨_, barStep_init hpos hmax harr hexp hwait, bar_putBar hj _⟩,
    fun hq => ⟨_, rfl, bar_waitOn_of_ne hq, fun _ => find_waitOn_of_ne hq⟩,
    fun hq => ⟨_, rfl, bar_waitOn_of_eq hj hq, fun _ => find_waitOn_of_eq hq⟩,
    barStep_arrive_beyond_target (na := false), barStep_arrive_beyond_exp (n := 0) (na := false),
    fun harr hexp => ⟨_, barStep_arrive harr hexp, ?bsync⟩,
    ⟨_, rfl, rfl, fun k hk => ?test⟩⟩
  case bsync =>
    split
    case isTrue done => exact bsync_of_complete hj g done
    case isFalse more => exact bsync_of_open hj g more
  case test => rw [Tab.find_upd_same, hk, Option.map_some]

end Sys2Proof.BarrierRegisters
